-- ==== Sys2Proof/Word.lean ====
section
/-!
DEFINITION. The word types of the model. Device addresses are 56 bits wide (R23); a memory cell's key is a plain `Nat`.
-/
namespace Sys2Proof

/-- One byte. -/
abbrev Byte := BitVec 8

/-- A 32-bit word: an FP32 pattern, a count, a hub word. -/
abbrev Word := BitVec 32

/-- A 64-bit word: a BAR0 register, a doorbell, a claim word. -/
abbrev DWord := BitVec 64

end Sys2Proof
end

