-- ==== Sys2Proof/Syntax.lean ====
section
/-!
DEFINITION. The commands of the block: one constructor of `Instr` per row of spec/opcode_table.json, with the data that reaches
the module from outside (a register value, a packet, a flit, a sensor reading, the outcome of an analogue process) as its
operands. Indices that the spec bounds are `Fin`, so that no command names a unit that does not exist.
-/
namespace Sys2Proof

/-- Which part of a 64-bit BAR0 register an access reaches (R586). -/
inductive Half where
  | full
  | low
  | high
  deriving DecidableEq, Repr

/-- A BAR0 write: the half it addresses and the value, right-aligned for a 32-bit access (R586). -/
structure BarWrite where
  half  : Half
  value : DWord
  deriving DecidableEq, Repr

/-- Bytes that the host has written into its own memory before it rings a doorbell (R340). -/
structure HostWrite where
  addr  : Nat
  bytes : List Byte
  deriving DecidableEq, Repr

/-- An Ohmalink packet: the header of R419 and its payload. LEN is the payload's length. -/
structure Packet where
  dst     : BitVec 16
  src     : BitVec 16
  vc      : Fin 8
  type    : BitVec 5
  isLocal : Bool
  job     : BitVec 12
  ctx     : BitVec 16
  hops    : Byte
  bucket  : Word
  step    : Word
  arg     : DWord
  payload : List Byte
  deriving DecidableEq, Repr

/-- A flit as it arrives: header, 244-byte body, CRC, and whether its FEC codewords decoded (R407, R410). -/
structure Flit where
  header : DWord
  body   : List Byte
  crc    : Word
  fecOk  : Bool
  fecCorrected : Nat
  deriving DecidableEq, Repr

/-- Where a fetched descriptor comes from: a command processor's rings (R343) or the admin ring (R637). -/
inductive FetchFrom where
  | rings (cp : Fin 4)
  | admin
  deriving DecidableEq, Repr

/-- A command in flight is named by its ring (0x100 for the admin ring, 0x200 + t for an entry of cyclic table t) and count. -/
structure CmdKey where
  ring  : Nat
  count : Word
  deriving DecidableEq, Repr

/-- Who applies an operation on a synchronisation object: a SYNC command, or an engine with an absolute object (R361, R367). -/
inductive SyncBy where
  | cmd (key : CmdKey)
  | engine (obj : Fin 16384) (n : Word)
  deriving DecidableEq, Repr

/-- An admin request: the front of the module's queue of admin requests, or one that arrives over MCTP now for the module at a tray position
(R575, R591, R592). -/
inductive AdminFrom where
  | queued
  | mctp (position : Fin 4) (descriptor params : List Byte)
  deriving DecidableEq, Repr

/-- Host bus accesses of the boot and BMC path. -/
inductive Die where
  | ad0
  | hub
  | ad1
  deriving DecidableEq, Repr

/-- One record of a firmware package: what it is and the fields that verification reads (R562, R567-R569). -/
structure Component where
  kind     : Nat                 -- 0 firmware image, 4 configuration record, 5 operator key record
  version  : BitVec 16           -- SVN of an image, VERSION of a record
  build    : Nat
  keyIndex : Fin 4
  pubKey   : List Byte
  header   : List Byte           -- the bytes that the signature covers
  sig      : List Byte
  body     : List Byte
  bodyHash : List Byte
  magicOk  : Bool
  numrev   : BitVec 16
  identity : List Byte           -- configuration record: the identity hash it binds
  maxW     : BitVec 16
  oosThreshold : BitVec 4
  flags    : Byte
  ports    : List DWord          -- FAB_PORTp_CFG of each port
  ownerHash : List Byte
  ssid     : BitVec 32           -- subsystem vendor ID and subsystem ID (R580)
  opKey    : List Byte           -- operator key record: the operator key, encrypted to the wrap key
  deriving DecidableEq, Repr

/-- One evaluation's sensor readings (R503, R522). -/
structure PowerSample where
  cappedW   : BitVec 16
  uncappedW : BitVec 16
  tjAd0     : BitVec 12          -- 0.1 °C
  tjHub     : BitVec 12
  tjAd1     : BitVec 12
  drift     : BitVec 10          -- bit n = 1: domain n's ring oscillator reads 1.5 % below its baseline (R527)
  deriving DecidableEq, Repr

/-- The errors of one codeword as read: the pins whose symbols are wrong (R261, R262), and whether it decodes beyond R262. -/
structure SymbolErrors where
  pins : List (Fin 36)
  deriving DecidableEq, Repr

/-- A flit of a Span that arrives in error: the Span and the direction, the flits that have joined the queues since the last replay there, and the
queue and number of the flit that is sent again (R17, R18). Queues: 0 control, 1 update, 2 ferry, 3 memory. -/
structure SpanReplay where
  east    : Bool
  toHub   : Bool
  arrived : List (Fin 4 × Nat)
  queue   : Fin 4
  flit    : Nat
  deriving DecidableEq, Repr

/-- An MCTP Set Endpoint ID for the module at a tray position (R591). -/
structure EndpointSet where
  position : Fin 4
  eid      : Byte
  deriving DecidableEq, Repr

/-- A range of vectors or of the function mask that the host unmasks (R589). -/
inductive Unmask where
  | vector (v : Fin 2048)
  | function
  deriving DecidableEq, Repr

/-- A configuration request of PCI Express (R581, R583): a read of a dword, or a write of a field the module acts on. -/
inductive CfgReq where
  | read (dword : BitVec 10)
  | write (dword : BitVec 10) (value : Word)
  | setD3hot
  | setD0
  | setFunctionMask (masked : Bool)
  | setRelaxedOrdering (on : Bool)
  | setBar4Size (log2Gib : Fin 11)
  deriving DecidableEq, Repr

/-- Who initiates an array-window, bank-window or DBG access (R26-R28). -/
structure WinAccess where
  offset : Nat                   -- window offset
  size   : Nat                   -- bytes read when `data` is empty
  data   : List Byte             -- bytes written
  isWrite : Bool
  deriving DecidableEq, Repr

/-- The two sides of an HBM request (R275). -/
structure HbmReq where
  addr    : Nat                  -- device address of the first byte
  data    : List Byte            -- bytes written; empty for a read
  size    : Nat                  -- bytes read
  isWrite : Bool
  tag     : Nat                  -- the issuing engine's number (R255, R630)
  deriving DecidableEq, Repr

/-- What IN_ORDER_ACCESS does at a stack: an access joins the in-order queue, or, without one, the oldest of the queue is served (R280). -/
structure InOrderCmd where
  stack  : Fin 24
  access : Option HbmReq
  deriving DecidableEq, Repr

/-- An atomic operation on an HBM word (R287): the issuer's engine number and the operands. -/
structure AtomicReq where
  engine  : Nat
  ctx     : Option (Fin 64)
  op      : Byte
  size    : Byte                 -- 0 = 16, 1 = 32, 2 = 64 bits
  addr    : Nat
  operand : DWord
  compare : DWord
  ret     : Nat                  -- 0: none
  deriving DecidableEq, Repr

/-- A training outcome of a port: what the peer's side presents. -/
structure Handshake where
  framing : BitVec 2
  peer    : BitVec 16
  peerValid : Bool
  alloc   : List Nat             -- A_0 to A_7 in units of 16 flits
  deriving DecidableEq, Repr

/-- One canary reading of a re-plan: the need in mV at each of the 16 points (R528). -/
structure ReplanReading where
  needMv : List Nat
  deriving DecidableEq, Repr

/-- An Ethernet frame as received (R434). -/
structure Frame where
  dstMac : BitVec 48
  tagged : Bool
  etherType : BitVec 16
  fcsOk  : Bool
  packet : Packet
  deriving DecidableEq, Repr

/-- The commands: one constructor per row of spec/opcode_table.json, in the table's order. -/
inductive Instr where
  -- registers
  | registerWrite (offset : Nat) (w : BarWrite)
  | bar0BadAccess (offset size : Nat) (isWrite : Bool)
  | evcfgReadClear (n : Fin 16) (half : Half)
  | bar4WinReadClear (half : Half)
  | memHbmIlvWrite (w : BarWrite)
  | memScCfgWrite (w : BarWrite)
  | devcfgWrite (w : BarWrite)
  | arrnClkWrite (a : Fin 8) (w : BarWrite)
  | pwrCapWrite (w : BarWrite)
  | fabPortCfgWrite (p : Fin 16) (w : BarWrite)
  | fabPortVcbufWrite (p : Fin 16) (w : BarWrite)
  | fabRouteWrite (entry : Fin 512) (w : BarWrite)
  | hifEvcfgEnable (n : Fin 16) (w : BarWrite)
  | hifAdminEnable (w : BarWrite)
  | hifBar4WinWrite (w : BarWrite)
  | snap
  | clear
  | dbgEnableWrite (w : BarWrite)
  | dbgDataRead
  | dbgDataWrite (value : DWord)
  -- rings and commands
  | doorbell (ring : Fin 256) (pageOffset bytes : Nat) (value : DWord) (host : List HostWrite)
  | adminDoorbell (pageOffset bytes : Nat) (value : DWord) (host : List HostWrite)
  | eventHeadWrite (n : Fin 16) (pageOffset bytes : Nat) (value : DWord)
  | commandFetch (from_ : FetchFrom)
  | commandStart (ring : Nat)
  | commandDone (key : CmdKey)
  | run (key : CmdKey)
  | ferry (key : CmdKey)
  | signal (by_ : SyncBy)
  | wait (by_ : SyncBy)
  | waitGe (by_ : SyncBy)
  | waitAny (key : CmdKey)
  | set (by_ : SyncBy)
  | remoteSignal (key : CmdKey)
  | syncWaitTimeout (key : CmdKey)
  | remoteSignalReceive (p : Packet)
  | syncStep (a : Fin 8)
  | hintComputeHeavy (key : CmdKey)
  | hintMemoryHeavy (key : CmdKey)
  | hintEnd (key : CmdKey)
  | hintLapse
  | tableInstall (key : CmdKey)
  | tableStart (key : CmdKey)
  | tableStop (key : CmdKey)
  | tableEntryRelease (t : Fin 8)
  | tableEntryStart (t : Fin 8)
  | slotOverrun (t : Fin 8)
  | ctxCreate (key : CmdKey)
  | ctxSave (key : CmdKey)
  | ctxRestore (key : CmdKey)
  | ctxTeardown (key : CmdKey)
  | ctxTeardownDone (key : CmdKey)
  -- admin operations and sessions
  | openSession (r : AdminFrom)
  | sessionReservationLapse (s : Fin 4)
  | lockoutEnd (t : Fin 3)
  | closeSession (r : AdminFrom)
  | ringCreate (r : AdminFrom)
  | ringDelete (r : AdminFrom)
  | reset (r : AdminFrom)
  | clearRepair (r : AdminFrom)
  | clearOutOfService (r : AdminFrom)
  | marginReplan (r : AdminFrom)
  | clipCoeff (r : AdminFrom)
  | assignDevid (r : AdminFrom)
  | routeWrite (r : AdminFrom)
  | planInstall (r : AdminFrom)
  | planRemove (r : AdminFrom)
  | stepAbort (r : AdminFrom)
  | revert (r : AdminFrom)
  | eventCoalTimeout (n : Fin 16)
  | msixUnmask (u : Unmask)
  -- arrays
  | arrayGrant
  | arrayScrubDone (a : Fin 8)
  | arrayQuiescent (a : Fin 8)
  | saveDone (a : Fin 8)
  | restoreDone (a : Fin 8)
  | tileIssue (a : Fin 8)
  | arrayCycle (a : Fin 8)
  | wakeLoadStart (a : Fin 8)
  | wakeLoadComplete (a : Fin 8)
  | exchangeFront (a : Fin 8)
  | tileWatchdog (a : Fin 8)
  | epilogueStart (a : Fin 8) (east : Bool)
  | epilogueComplete (a : Fin 8) (east : Bool)
  | feederStep (a : Fin 8) (feeder : Fin 4)
  | emptyMark (a : Fin 8)
  | landingSlotReady (a : Fin 8) (feeder : Fin 2)
  | landingSlotReturn (a : Fin 8) (feeder : Fin 2)
  -- die stream cache, gather engines, experts
  | prefetchFill (d : Fin 2) (line : Nat)
  | prefetchIssue (d : Fin 2) (desc : Nat)
  | lineTake (d : Fin 2) (line : Nat) (desc : Nat)
  | gather (g : Fin 4)
  | scatter (g : Fin 4)
  | dispatch (g : Fin 4)
  | dispatchComplete (g : Fin 4)
  | count (p : Packet)
  | admitCounts (p : Packet)
  | row (p : Packet)
  | return_ (p : Packet)
  | dropMark (p : Packet)
  | handoff (g : Fin 4)
  | handoffReceive (p : Packet)
  | fold (g : Fin 4)
  | atomic (q : AtomicReq)
  -- HBM
  | hbmRequestAccept (stack : Fin 24) (q : HbmReq)
  | hbmSlotGrant (stack : Fin 24) (q : Fin 32)
  | hbmReadComplete (stack : Fin 24) (q : Fin 32) (e : SymbolErrors)
  | scrubRead (addr : Nat) (e : SymbolErrors)
  | scrubIntervalEnd (stack : Fin 24)
  | inOrderAccess (c : InOrderCmd)
  | ddr5Scrub
  | flashReadRelocate (block : Nat)
  | flashWearRelocate (block : Nat)
  | flashProgramFail (block : Nat)
  -- ferries, objects, stash
  | copy (engine : Fin 24)
  | create (engine : Fin 24)
  | seal (engine : Fin 24)
  | release (engine : Fin 24)
  | recordComplete (engine : Fin 28)
  | landingFill (engine : Fin 24)
  | alloc (a : Fin 8)
  | close (a : Fin 8)
  | open_ (a : Fin 8)
  | free (a : Fin 8)
  | spillDone (ctx : Fin 64) (stash : Fin 256)
  | stashTimeout (ctx : Fin 64) (stash : Fin 256)
  -- Spans and windows
  | spanFlitReplay (r : SpanReplay)
  | spanHung (east : Bool)
  | windowAccess (a : Fin 8) (w : WinAccess)
  | bankWindowServe (a : Fin 8)
  -- ports and packets
  | linkTrained (p : Fin 16)
  | handshake (p : Fin 16) (h : Handshake)
  | flitSend (p : Fin 16)
  | flitReceive (p : Fin 16) (f : Flit)
  | retryTimeout (p : Fin 16)
  | retrainTimeout (p : Fin 16)
  | down (p : Fin 16)
  | alignmentLoss (p : Fin 16)
  | drainTimeout (p : Fin 16)
  | packetRoute (port : Option (Fin 16))
  | ethernetFrameReceive (p : Fin 16) (f : Frame)
  | pfcPause (p : Fin 16) (prio : Fin 8) (paused : Bool)
  -- reduction
  | bucketContribute (plan : Fin 16) (bucket : Nat)
  | contrib (p : Packet)
  | slotFree (plan : Fin 16) (bucket : Nat)
  | credit (p : Packet)
  | updateChunk (plan : Fin 16) (bucket : Nat)
  | norm (p : Packet)
  | status (p : Packet)
  | abortReq (p : Packet)
  | tokenClip (p : Packet)
  | tokenCommit (p : Packet)
  | tokenSkip (p : Packet)
  | tokenAbort (p : Packet)
  | gatherStart (plan : Fin 16) (bucket : Nat)
  | gatherReq (p : Packet)
  | gatherData (p : Packet)
  | gatherScales (p : Packet)
  | bcastData (p : Packet)
  | bcastScales (p : Packet)
  -- power, heat, ageing
  | powerEvaluation (x : PowerSample)
  | railTargetReached (die : Fin 2)
  | capUnreachable
  | capInNLow (fromPin : Bool)
  | boardHaltEnd
  | throttleRise (die : Fin 2)
  | hbmSensorRead (stack : Fin 24) (temp : BitVec 12)
  | droopTrip (a : Fin 8) (detector : Fin 16) (depthMv : BitVec 16)
  | droopStretchEnd (a : Fin 8)
  | droopSummary (a : Fin 8)
  | railWarning (rail : Fin 12) (mv : BitVec 16)
  | railRecover (rail : Fin 12)
  | vwarn (rail : Fin 12)
  | railResetLevel (rail : Fin 12)
  | pohHour
  | replan (a : Fin 8) (r : ReplanReading)
  -- resets, watchdogs, boot
  | powerOn
  | pwrOkLow
  | perstNLow
  | functionLevelReset
  | arrayReset (a : Fin 8)
  | portReset (p : Fin 16)
  | hbmChannelReset (stack : Fin 24) (channel : Fin 16)
  | hbmRetrainTimeout (stack : Fin 24) (channel : Fin 16)
  | functionReset
  | warmModuleReset
  | coldModuleReset
  | resetStretchEnd (straps : BitVec 6) (pufOk : Bool)
  | captureAbandon
  | arrayResetEscalate (a : Fin 8)
  | ferryWatchdog (engine : Fin 16)
  | gatherWatchdog (g : Fin 4)
  | tierFerryWatchdog (t : Fin 8)
  | creditWatchdog (p : Fin 16)
  | cpHeartbeatWatchdog (cp : Fin 4)
  | mpWatchdog
  | hbmChannelWatchdog (stack : Fin 24) (channel : Fin 16) (addr : Nat)
  | resetDone
  | hbmTrained (die : Fin 2) (failed : List (Fin 24 × Fin 16))
  -- management, attestation
  | pldmFirmwareComponent (c : Component)
  | setEndpointId (e : EndpointSet)
  | getVersion
  | getCapabilities
  | negotiateAlgorithms
  | getDigests
  | getCertificate (offset length : BitVec 16)
  | challenge (nonce : List Byte)
  | getMeasurements (index : Byte)
  | statusUart
  | level
  | log
  -- PCI Express
  | pcieConfigRequest (r : CfgReq)
  | atomicopRequest
  | bar4Access (offset size : Nat) (data : List Byte) (isWrite : Bool)
  | pcieLinkDown
  | pcieLinkUp (flit : Bool) (speed : BitVec 3) (width : BitVec 5)
  -- boundary scan
  | testLogicReset
  | extest (die : Die)
  | idcode (die : Die)
  | samplePreload (die : Die)
  | clamp (die : Die)
  | highz (die : Die)
  | extestPulse (die : Die)
  | extestTrain (die : Die)
  | bypass (die : Die) (opcode : Byte)
  -- completions that the table lists last
  | shadowComplete (plan : Fin 16) (bucket : Nat)
  | stashRestoreDone (ctx : Fin 64) (stash : Fin 256)
  | retrainDone (p : Fin 16)
  | hbmChannelRetrained (stack : Fin 24) (channel : Fin 16)
  | pldmEventCollect
  deriving DecidableEq, Repr

end Sys2Proof
end

