-- ==== Sys2Proof/Decode.lean ====
section
/-!
DEFINITION. The rows of spec/opcode_table.json give no bits: commands reach the block as register accesses, packets, pins and internal
events, so no word spells one.
-/
namespace Sys2Proof

/-- The command that a word spells: none, for no row of the table has bits. -/
def decodeTableWord (nbits w : Nat) : Option Instr :=
  match nbits, w with
  | _, _ => none

end Sys2Proof
end

