-- ==== Sys2Proof/Machine/Bits.lean ====
section
/-!
DEFINITION. Bit fields, byte order and small list helpers. Multi-byte values are little-endian (R103), and fields are cut from a
register or record value read as a number.
-/
namespace Sys2Proof

/-- The field of `w` that occupies `len` bits from bit `lo` upward. -/
def bits (w lo len : Nat) : Nat := (w >>> lo) % 2 ^ len

/-- Bit `i` of `w`. -/
def bitOf (w i : Nat) : Bool := w.testBit i

/-- A value whose bit `i` is `b` and whose other bits are those of `w`. -/
def setBitOf (w i : Nat) (b : Bool) : Nat :=
  if w.testBit i = b then w else if b then w + 2 ^ i else w - 2 ^ i

/-- One bit as a number. -/
def bit (b : Bool) : Nat := if b then 1 else 0

/-- The number that little-endian bytes spell. -/
def leNat : List Byte → Nat
  | [] => 0
  | b :: bs => b.toNat + 256 * leNat bs

/-- The `n` little-endian bytes of a number. -/
def leBytes : Nat → Nat → List Byte
  | 0, _ => []
  | n + 1, v => BitVec.ofNat 8 v :: leBytes n (v / 256)

/-- The `len`-byte little-endian field at byte offset `off` of a record. -/
def fieldAt (r : List Byte) (off len : Nat) : Nat := leNat ((r.drop off).take len)

/-- A two's-complement reading of the low `n` bits of `v`. -/
def signedOf (n v : Nat) : Int := if v % 2 ^ n < 2 ^ (n - 1) then (v % 2 ^ n : Nat) else (v % 2 ^ n : Nat) - (2 ^ n : Nat)

/-- The low `n` bits of an integer, in two's complement. -/
def toBits (n : Nat) (z : Int) : Nat := (z % (2 ^ n : Nat)).toNat

/-- Clamp into a range. -/
def clampNat (lo hi v : Nat) : Nat := if v < lo then lo else if hi < v then hi else v

/-- The number of set bits among the low `n`. -/
def popcount : Nat → Nat → Nat
  | 0, _ => 0
  | n + 1, w => popcount n w + bit (w.testBit n)

/-- The position of the `i`-th set bit (from 0) among bits `j`, `j + 1`, … within `n` bits. -/
def nthSetBit : Nat → Nat → Nat → Nat → Option Nat
  | 0, _, _, _ => none
  | n + 1, w, i, j =>
    if w.testBit j then (match i with | 0 => some j | i + 1 => nthSetBit n w i (j + 1)) else nthSetBit n w i (j + 1)

/-- The set bits of a mask below `n`, in ascending order. -/
def maskList (n w : Nat) : List Nat := (List.range n).filter fun i => w.testBit i

/-- The mask of a list of bit positions. -/
def maskOf (l : List Nat) : Nat := l.foldl (fun w i => w ||| 2 ^ i) 0

/-- Pad or cut a byte list to `n` bytes. -/
def padTo (n : Nat) (l : List Byte) : List Byte := (l ++ List.replicate n 0).take n

/-- Round up to a multiple of `k`. -/
def roundUp (v k : Nat) : Nat := (v + k - 1) / k * k

/-- Ceiling division. -/
def ceilDiv (a b : Nat) : Nat := (a + b - 1) / b

/-- Replace the element at a position. -/
def setAt {α : Type} (l : List α) (i : Nat) (x : α) : List α := l.set i x

/-- A saturating increment of a counter of `n` bits. -/
def satInc {n : Nat} (c : BitVec n) : BitVec n := if c = BitVec.allOnes n then c else c + 1

/-- A saturating sum of a counter of `n` bits. -/
def satAdd {n : Nat} (c : BitVec n) (k : Nat) : BitVec n :=
  if c.toNat + k < 2 ^ n then BitVec.ofNat n (c.toNat + k) else BitVec.allOnes n

/-- Are all bytes of a range of a record 0? -/
def zeroAt (r : List Byte) (off len : Nat) : Bool := ((r.drop off).take len).all fun b => b == 0

end Sys2Proof
end

