-- ==== Sys2Proof/Machine/Num.lean ====
section
/-!
DEFINITION. Number formats and arithmetic (spec/03_number_formats.md): the floating-point encodings of R97, exact values, rounding to
nearest even and stochastic rounding (R119-R126), and IEEE 754 arithmetic on any of the encodings (R120).
-/
namespace Sys2Proof

/-- How a format spells its special values (R97). -/
inductive Specials where
  | ieee     -- exponent all ones: infinities and NaNs
  | e4m3     -- no infinity, one NaN magnitude
  | none     -- neither
  deriving DecidableEq, Repr

/-- A floating-point encoding: exponent and mantissa bits; the bias is 2^(eb − 1) − 1 in every row of R97. -/
structure Fmt where
  eb : Nat
  mb : Nat
  sp : Specials
  deriving DecidableEq, Repr

def fp64 : Fmt := ⟨11, 52, .ieee⟩
def fp32 : Fmt := ⟨8, 23, .ieee⟩
def bf16 : Fmt := ⟨8, 7, .ieee⟩
def fp16 : Fmt := ⟨5, 10, .ieee⟩
def e4m3 : Fmt := ⟨4, 3, .e4m3⟩
def e5m2 : Fmt := ⟨5, 2, .ieee⟩
def e3m2 : Fmt := ⟨3, 2, .none⟩
def e2m3 : Fmt := ⟨2, 3, .none⟩
def e2m1 : Fmt := ⟨2, 1, .none⟩

/-- The width of an encoding. -/
def Fmt.width (f : Fmt) : Nat := 1 + f.eb + f.mb

/-- The exponent bias (R97). -/
def Fmt.bias (f : Fmt) : Int := (2 ^ (f.eb - 1) : Nat) - 1

/-- The exponent of the smallest subnormal's unit. -/
def Fmt.unit (f : Fmt) : Int := 1 - f.bias - f.mb

/-- The magnitude code of the largest finite element (R97). -/
def Fmt.maxCode (f : Fmt) : Nat :=
  match f.sp with
  | .ieee => (2 ^ f.eb - 1) * 2 ^ f.mb - 1
  | .e4m3 => 2 ^ (f.eb + f.mb) - 2
  | .none => 2 ^ (f.eb + f.mb) - 1

/-- The canonical NaN that the module writes (R97, R99). -/
def Fmt.canonicalNan (f : Fmt) : Nat :=
  match f.sp with
  | .ieee => (2 ^ f.eb - 1) * 2 ^ f.mb + 2 ^ (f.mb - 1)
  | .e4m3 => 2 ^ (f.eb + f.mb) - 1
  | .none => 0

/-- A decoded value: a signed exact dyadic number mag × 2^e, an infinity, or NaN. -/
inductive Fp where
  | fin (neg : Bool) (mag : Nat) (e : Int)
  | inf (neg : Bool)
  | nan
  deriving DecidableEq, Repr

/-- Decode an element (R97, R98). -/
def decodeFp (f : Fmt) (w : Nat) : Fp :=
  let neg := w.testBit (f.eb + f.mb)
  let c := w % 2 ^ (f.eb + f.mb)
  if f.maxCode < c then
    if f.sp = .ieee ∧ c % 2 ^ f.mb = 0 then .inf neg else .nan
  else
    let ex := c / 2 ^ f.mb
    let m := c % 2 ^ f.mb
    if ex = 0 then .fin neg m f.unit else .fin neg (2 ^ f.mb + m) (f.unit + ex - 1)

/-- Is a decoded value zero? -/
def Fp.isZero : Fp → Bool
  | .fin _ m _ => m == 0
  | _ => false

/-- Is a decoded value finite? -/
def Fp.isFin : Fp → Bool
  | .fin _ _ _ => true
  | _ => false

def Fp.isNan : Fp → Bool
  | .nan => true
  | _ => false

def Fp.neg : Fp → Fp
  | .fin s m e => .fin (!s) m e
  | .inf s => .inf (!s)
  | .nan => .nan

/-- How a conversion rounds (R124): to nearest even, or stochastically with a 32-bit draw (R125). -/
inductive Rounding where
  | rne
  | stoch (r : Nat)
  deriving DecidableEq, Repr

/-- `q` = ⌊mag / 2^sh⌋ rounded as asked: nearest even, or away from zero when r < ⌊rest / 2^sh × 2^32⌋ (R126). -/
def roundShift (rd : Rounding) (mag sh : Nat) : Nat :=
  let q := mag >>> sh
  let rest := mag % 2 ^ sh
  match rd with
  | .rne =>
    if 2 * rest > 2 ^ sh then q + 1
    else if 2 * rest = 2 ^ sh then q + q % 2
    else q
  | .stoch r => if r < (rest <<< 32) >>> sh then q + 1 else q

/-- The magnitude code of |v| = mag × 2^e on the grid of a format, continued beyond its largest element (R122, R126). -/
def roundCode (f : Fmt) (rd : Rounding) (mag : Nat) (e : Int) : Nat :=
  if mag = 0 then 0 else
  let lsb := max (e + (Nat.log2 mag : Int) - f.mb) f.unit
  let q := if lsb ≤ e then mag <<< (e - lsb).toNat else roundShift rd mag (lsb - e).toNat
  if q < 2 ^ f.mb then q else ((lsb - f.unit).toNat + 1) * 2 ^ f.mb + (q - 2 ^ f.mb)

/-- Encode a value in a format of 16 bits or more: IEEE 754, a value beyond the range becomes infinite (R121). -/
def encodeFp (f : Fmt) (rd : Rounding) (v : Fp) : Nat :=
  let sgn (neg : Bool) := if neg then 2 ^ (f.eb + f.mb) else 0
  match v with
  | .nan => f.canonicalNan
  | .inf neg => sgn neg + f.maxCode + 1
  | .fin neg m e => sgn neg + min (roundCode f rd m e) (f.maxCode + 1)

/-- What a narrow conversion did to one element: its code, and whether it overflowed or was non-finite. -/
structure Narrow where
  code     : Nat
  overflow : Bool
  nonfin   : Bool
  deriving DecidableEq, Repr

/-- Encode a value, already in units of its block scale, in a format of 8 bits or fewer (R122, R123). -/
def encodeNarrow (f : Fmt) (rd : Rounding) (v : Fp) : Narrow :=
  let sgn (neg : Bool) := if neg then 2 ^ (f.eb + f.mb) else 0
  match v with
  | .nan => ⟨f.canonicalNan, false, true⟩
  | .inf neg =>
    match f.sp with
    | .ieee => ⟨sgn neg + f.maxCode + 1, false, true⟩
    | .e4m3 => ⟨f.canonicalNan, false, true⟩
    | .none => ⟨0, false, true⟩
  | .fin neg m e =>
    let c := roundCode f rd m e
    if f.maxCode < c then ⟨sgn neg + f.maxCode, true, false⟩ else ⟨sgn neg + c, false, false⟩

/-- Encode in INT8, in units of the block scale: the grid is the integers, and conversion saturates at ±127 (R104, R122, R123). -/
def encodeInt8 (rd : Rounding) (v : Fp) : Narrow :=
  match v with
  | .fin neg m e =>
    let q := if 0 ≤ e then m <<< e.toNat else roundShift rd m (-e).toNat
    let big := decide (127 < q)
    let k := if big then 127 else q
    ⟨toBits 8 (if neg then -(k : Int) else k), big, false⟩
  | _ => ⟨0, false, true⟩

/-- Scale a value by 2^k exactly. -/
def Fp.scale (v : Fp) (k : Int) : Fp :=
  match v with
  | .fin s m e => .fin s m (e + k)
  | w => w

/-- The integer mag × 2^(e − lo) for lo ≤ e. -/
def liftMag (m : Nat) (e lo : Int) : Nat := m <<< (e - lo).toNat

/-- The exact sum of two values; NaN and infinities by IEEE 754 (R116, R120). An exact zero sum of unlike signs is +0. -/
def Fp.add (a b : Fp) : Fp :=
  match a, b with
  | .nan, _ => .nan
  | _, .nan => .nan
  | .inf s, .inf t => if s = t then .inf s else .nan
  | .inf s, _ => .inf s
  | _, .inf t => .inf t
  | .fin s m e, .fin t n k =>
    let lo := min e k
    let x : Int := if s then -(liftMag m e lo : Int) else liftMag m e lo
    let y : Int := if t then -(liftMag n k lo : Int) else liftMag n k lo
    let z := x + y
    if z = 0 then .fin (s && t) 0 lo else .fin (decide (z < 0)) z.natAbs lo

/-- The exact product of two values (R115, R120). -/
def Fp.mul (a b : Fp) : Fp :=
  match a, b with
  | .nan, _ => .nan
  | _, .nan => .nan
  | .inf s, .inf t => .inf (xor s t)
  | .inf s, .fin t n _ => if n = 0 then .nan else .inf (xor s t)
  | .fin s m _, .inf t => if m = 0 then .nan else .inf (xor s t)
  | .fin s m e, .fin t n k => .fin (xor s t) (m * n) (e + k)

/-- A quotient with enough bits and a sticky bit that every rounding of at most 60 bits is correct. -/
def Fp.div (a b : Fp) : Fp :=
  match a, b with
  | .nan, _ => .nan
  | _, .nan => .nan
  | .inf _, .inf _ => .nan
  | .inf s, .fin t _ _ => .inf (xor s t)
  | .fin s _ _, .inf t => .fin (xor s t) 0 0
  | .fin s m e, .fin t n k =>
    if n = 0 then (if m = 0 then .nan else .inf (xor s t))
    else
      let sh := 128 + Nat.log2 n
      let q := (m <<< sh) / n
      let r := (m <<< sh) % n
      .fin (xor s t) (2 * q + bit (decide (r ≠ 0))) (e - k - sh - 1)

/-- A square root with enough bits and a sticky bit (R461: correctly rounded). -/
def Fp.sqrt (a : Fp) : Fp :=
  match a with
  | .nan => .nan
  | .inf s => if s then .nan else .inf false
  | .fin s m e =>
    if m = 0 then .fin s 0 0
    else if s then .nan
    else
      let odd := e % 2 = 1
      let m2 := (if odd then 2 * m else m) <<< 256
      let e2 := (if odd then e - 1 else e) / 2 - 128
      let q := Nat.sqrt m2
      .fin false (2 * q + bit (decide (q * q ≠ m2))) (e2 - 1)

/-- The order of two values; `none` when either is NaN. -/
def Fp.cmp (a b : Fp) : Option Ordering :=
  match a, b with
  | .nan, _ => none
  | _, .nan => none
  | .inf s, .inf t => some (if s = t then .eq else if s then .lt else .gt)
  | .inf s, _ => some (if s then .lt else .gt)
  | _, .inf t => some (if t then .gt else .lt)
  | .fin s m e, .fin t n k =>
    let lo := min e k
    let x : Int := if s then -(liftMag m e lo : Int) else liftMag m e lo
    let y : Int := if t then -(liftMag n k lo : Int) else liftMag n k lo
    some (if x < y then .lt else if x = y then .eq else .gt)

/-! FP32 lanes: every operation is binary32 with rounding to nearest even (R120). -/

def f32 (w : Word) : Fp := decodeFp fp32 w.toNat
def toF32 (v : Fp) : Word := BitVec.ofNat 32 (encodeFp fp32 .rne v)
def fadd (a b : Word) : Word := toF32 (Fp.add (f32 a) (f32 b))
def fsub (a b : Word) : Word := toF32 (Fp.add (f32 a) (f32 b).neg)
def fmul (a b : Word) : Word := toF32 (Fp.mul (f32 a) (f32 b))
def fdiv (a b : Word) : Word := toF32 (Fp.div (f32 a) (f32 b))
def fsqrt (a : Word) : Word := toF32 (Fp.sqrt (f32 a))
def fneg (a : Word) : Word := a ^^^ 0x80000000#32
def fabs (a : Word) : Word := a &&& 0x7FFFFFFF#32
def fnan : Word := 0x7FC00000#32
def fposInf : Word := 0x7F800000#32
def fnegInf : Word := 0xFF800000#32
def fone : Word := 0x3F800000#32
def fzero : Word := 0#32

/-- a < b on FP32, false with a NaN. -/
def flt (a b : Word) : Bool := Fp.cmp (f32 a) (f32 b) == some .lt

/-- The larger of two FP32 values; NaN when either is NaN. -/
def fmax (a b : Word) : Word :=
  match Fp.cmp (f32 a) (f32 b) with
  | none => fnan
  | some .lt => b
  | _ => a

/-- 2^k as an exact factor applied to an FP32 value, with one rounding. -/
def fscale (a : Word) (k : Int) : Word := toF32 ((f32 a).scale k)

/-- A natural number as FP32. -/
def fofNat (n : Nat) : Word := toF32 (.fin false n 0)

/-- Is an FP32 pattern finite? -/
def ffinite (a : Word) : Bool := (f32 a).isFin

/-- FP64 sums of R476, R477 and R480. -/
def f64 (w : DWord) : Fp := decodeFp fp64 w.toNat
def toF64 (v : Fp) : DWord := BitVec.ofNat 64 (encodeFp fp64 .rne v)
def dadd (a b : DWord) : DWord := toF64 (Fp.add (f64 a) (f64 b))

/-- The stochastic generator of R125. All arithmetic is modulo 2^64. -/
def mix64 (z : DWord) : DWord :=
  let z := (z ^^^ (z >>> 30)) * 0xbf58476d1ce4e5b9#64
  let z := (z ^^^ (z >>> 27)) * 0x94d049bb133111eb#64
  z ^^^ (z >>> 31)

/-- The 32-bit draw of element `idx` (R125). -/
def stochDraw (seed : DWord) (tensor step : Word) (idx : Nat) : Nat :=
  let h := mix64 (seed ^^^ ((tensor.zeroExtend 64 <<< 32) ||| step.zeroExtend 64))
  let h := mix64 (h ^^^ BitVec.ofNat 64 idx)
  (h >>> 32).toNat

/-! The formats by their number (R96) and variant bit (R186). -/

/-- The floating-point encoding of a numbered format: 1 FP32 … 9 FP4; `none` for INT8 and the wire formats. -/
def fmtOf (num : Nat) (variant : Bool) : Option Fmt :=
  match num with
  | 1 => some fp32
  | 2 => some bf16
  | 3 => some fp16
  | 4 => some e4m3
  | 5 => some e5m2
  | 6 => some (if variant then e5m2 else e4m3)
  | 7 => some (if variant then e2m3 else e3m2)
  | 8 => some e2m1
  | 9 => some e2m1
  | _ => none

/-- Element bits of a numbered format (R96). -/
def elemBits (num : Nat) : Nat :=
  match num with
  | 1 => 32
  | 2 | 3 => 16
  | 7 => 6
  | 8 | 9 => 4
  | _ => 8

/-- Is a numbered format an MX format, with scales in a scale array (R102)? -/
def isMx (num : Nat) : Bool := num == 6 || num == 7 || num == 8

/-- Does a numbered format take its scale from a scale record (R102, R219)? -/
def isDelayed (num : Nat) : Bool := num == 4 || num == 5 || num == 9 || num == 10

/-- emax of R127. -/
def mxEmax (num : Nat) (variant : Bool) : Nat :=
  match num with
  | 6 => if variant then 15 else 8
  | 7 => if variant then 2 else 4
  | _ => 2

/-- Packed bytes of one block of 32 elements (R103, R224). -/
def blockBytes (num : Nat) : Nat := 4 * elemBits num

/-- Decode one element of a numbered format to an exact value without its scale (R97, R104). -/
def decodeElem (num : Nat) (variant : Bool) (code : Nat) : Fp :=
  match fmtOf num variant with
  | some f => decodeFp f code
  | none => let z := signedOf 8 code; .fin (decide (z < 0)) z.natAbs 0

/-- Apply an E8M0 scale (R100): 0xFF makes every element NaN. -/
def applyScale (x : Nat) (v : Fp) : Fp := if x = 0xFF then .nan else v.scale ((x : Int) - 127)

/-- The code of element `j` of a packed row (R103). -/
def elemAt (num : Nat) (row : List Byte) (j : Nat) : Nat :=
  let b := elemBits num
  bits (fieldAt row (j * b / 8) ((b + 14) / 8)) (j * b % 8) b

/-- Pack element codes into bytes (R103). -/
def packElems (num : Nat) (codes : List Nat) : List Byte :=
  let b := elemBits num
  let whole := codes.foldr (fun c acc => c % 2 ^ b + 2 ^ b * acc) 0
  leBytes ((codes.length * b + 7) / 8) whole

/-- The block scale that an edge unit gives an MX block (R127). -/
def mxScale (num : Nat) (variant : Bool) (vs : List Fp) : Nat :=
  if vs.any (fun v => !v.isFin) then 0xFF
  else
    let amax := vs.foldl (fun (a : Option Int) v =>
      match v with
      | .fin _ m e => if m = 0 then a else
          let l := e + (Nat.log2 m : Int)
          (match a with | none => some l | some b => some (max b l))
      | _ => a) none
    match amax with
    | none => 0
    | some l => (max 0 (min 0xFE (127 + l - mxEmax num variant))).toNat

/-! The narrow conversions of one value at a scale exponent (R121-R123, R130). -/

/-- Convert one value into a numbered format at block scale 2^s. -/
def convertElem (num : Nat) (variant : Bool) (rd : Rounding) (s : Int) (v : Fp) : Narrow :=
  match fmtOf num variant with
  | some f =>
    if elemBits num ≤ 8 then encodeNarrow f rd (v.scale (-s))
    else ⟨encodeFp f rd v, false, !v.isFin⟩
  | none => encodeInt8 rd (v.scale (-s))

/-- An MX block of values: its scale and its element codes, all 0 in a block with a non-finite value (R123, R127). -/
def mxBlock (num : Nat) (variant : Bool) (vs : List Fp) : Nat × List Nat :=
  let x := mxScale num variant vs
  (x, if x = 0xFF then vs.map fun _ => 0 else vs.map fun v => (convertElem num variant .rne ((x : Int) - 127) v).code)

end Sys2Proof
end

