-- ==== Sys2Proof/Config.lean ====
section
/-!
DEFINITION. What one module, its tray or its implementation fixes and the spec leaves open, and the free values. A constant without a
body is a free value: nothing in Lean can evaluate it, and a statement about it holds whatever it is.
-/
namespace Sys2Proof.Config

/-- DESIGN CHOICE (log 2): the byte that undefined memory contents read as, by the epoch in which they became undefined and the address
(R259, R542, R543). -/
opaque freeByte : Nat → Nat → Byte

/-- DESIGN CHOICE (log 3): a fresh undefined 32-bit value, by the model's own counter `State.fresh`. -/
opaque freeWord : Nat → Word

/-- DESIGN CHOICE (log 3): an undefined register lane value of an abandoned wake load (R636), by the counter, the row and the lane. -/
opaque freeLane : Nat → Nat → Nat → Byte

/-- DESIGN CHOICE (log 4): the function tables of R200 inside their ulp bounds: function index, whether the derivative is asked for, and the
FP32 argument. The exactly specified functions and the special values of R201 never reach it; it is the same at every NUMREV level, though this
manual describes level 0x0001 only (R138). -/
opaque tableFn : Nat → Bool → Word → Word

/-- HMAC-SHA-512 of R565, R576 (key, message); a published standard that the spec cites and does not restate (log 5). -/
opaque hmacSha512 : List Byte → List Byte → List Byte

/-- HKDF-SHA-512 of R560, R576 (key material, salt, info), 64 bytes (log 5). -/
opaque hkdfSha512 : List Byte → List Byte → List Byte → List Byte

/-- SHA-512 of R562, R567, R574 (log 5). -/
opaque sha512 : List Byte → List Byte

/-- ECDSA P-521 verification of R526, R562, R567, R568 (public key, message, signature) (log 5). -/
opaque ecdsaVerify : List Byte → List Byte → List Byte → Bool

/-- ECDSA P-521 signature under the module's identity key (R574) (log 5). -/
opaque ecdsaSign : List Byte → List Byte

/-- The identity hash: SHA-512 of the module's identity public key (R560). -/
opaque identityHash : List Byte

/-- The key hashes burned into the boot ROM, by key index (R562). -/
opaque romKeyHash : Fin 4 → List Byte

/-- The device certificate chain (R560, R574). -/
opaque certificateChain : List Byte

/-- SHA-512 of the boot ROM: measurement 1 of R574. -/
opaque romHash : List Byte

/-- The fresh random module nonce NM of R576, by the counter `State.fresh`. -/
opaque nonce : Nat → List Byte

/-- The tray's board DDR5 (R297): DIMMs of a channel, the data rate in MT/s that a DIMM is rated for, and its size in MiB, by channel and DIMM. -/
opaque ddrDimms : Nat → Nat
opaque ddrRating : Nat → Nat → Nat
opaque ddrMib : Nat → Nat → Nat

/-- Whether a channel's training succeeds, by the channel and the counter `State.fresh` (R297). -/
opaque ddrTrains : Nat → Nat → Bool

/-- DESIGN CHOICE (log 19): the number of x4 devices in error in a 64-byte burst as read, by channel, burst and the counter `State.fresh`; and
whether an error of more than two devices is detected (R298, R300). -/
opaque ddrDevices : Nat → Nat → Nat → Nat
opaque ddrDetects : Nat → Nat → Bool

/-- The tray's NAND flash (R301; log 20): codewords of 4 KiB in a page, pages of a block, blocks of a die, dies of a channel, whether the factory
marked a block bad, and the good blocks of a die that are kept as spares beyond the 4 %, by the number of good blocks. -/
opaque nandCodewords : Nat
opaque nandPages : Nat
opaque nandDieBlocks : Nat
opaque nandDies : Nat
opaque nandBad : Nat → Bool
opaque nandSpares : Nat → Nat

/-- DESIGN CHOICE (log 20): how a flash codeword decodes, by block, codeword in the block and the counter `State.fresh`: 0 at the first attempt,
1 to 7 at that re-read, 8 at the soft-decision read, 9 from the other pages of its stripe, more not at all (R302); and whether an erase fails
(R305). -/
opaque nandDecode : Nat → Nat → Nat → Nat
opaque nandEraseFails : Nat → Nat → Bool

/-- DESIGN CHOICE (log 6): the host address and the range of a pulse between 25 and 40 ns are not modelled; what an SPDM or PCI Express
answer holds beyond the fields this manual fixes comes from here, by request code and counter. -/
opaque standardAnswer : Nat → Nat → List Byte

/-- Whether a pattern of symbol errors beyond the always-detected column of R262 is miscorrected (R263), by the codeword's address and the
counter `State.fresh`. -/
opaque miscorrects : Nat → Nat → Bool

/-- Which of several choices the module makes where the spec leaves the choice to it, by the counter `State.fresh` (log 7). -/
opaque choiceNat : Nat → Nat

/-- DESIGN CHOICE (log 15): the symbols in error in a codeword that a merge read or an in-order read meets (R264, R269, R280), by the codeword
and the counter `State.fresh`: pins, of which those from 36 on are none. -/
opaque symbolErrors : Nat → Nat → List Nat

/-- The hash that spreads lines over the slices of the shared cache, by line and number of slices (R281; log 15). -/
opaque scHash : Nat → Nat → Nat

/-- The DEPTH of the lane of a node's parent, by job and bucket: a bucket entry names only the parent's member index (R450; log 27). -/
opaque parentDepth : Nat → Nat → Nat

/-- The member index of a bucket's owner, by job and bucket: a bucket entry of another member does not name it (R469; log 27). -/
opaque ownerMember : Nat → Nat → Nat

/-- The pairs that an expert's home keeps, where a source cannot tell: an ADMIT packet does not carry the number (R171, R422; log 33). Arguments:
admit table, expert, the source's count and first position. -/
opaque keptCount : Nat → Nat → Nat → Nat → Nat

/-- What the ring oscillators of the hub or the SRAM make of a rail's offset when a plan is made, in mV: 0 hub, 1 SRAM, and the power-on hours
(R525, R528; log 39). -/
opaque railOffset : Nat → Nat → Int

/-- What a ring oscillator reads when a plan is made: its number and the power-on hours (R526; log 39). -/
opaque oscillator : Nat → Nat → Nat

/-- ECIES decryption under the module's wrap key (ECDH on P-521, HKDF-SHA-512, AES-256-GCM) of R568 (log 5). -/
opaque eciesOpen : List Byte → List Byte

/-- How the clock of a domain (its timestamp tag) stands to the reference clock in a reference period: taken modulo 3 (R35; log 1). -/
opaque clockPhase : Nat → Nat → Nat

/-- The rows that a dispatch sends: the dispatch record names no source for them (R174, R179; log 33). Arguments: dispatch record, row, byte. -/
opaque tokenByte : Nat → Nat → Nat → Byte

/-- The output row that a part returns for a pair: no rule says where it stands (R177; log 33). Arguments: triple, source and combine row,
byte. -/
opaque partByte : Nat → Nat → Nat → Byte

end Sys2Proof.Config
end

