-- ==== Sys2Proof/Machine/Tab.lean ====
section
/-!
DEFINITION. Sparse tables in ONE canonical form: keys strictly rising, and no entry equal to what an unlisted key reads as. Memory
bytes, synchronisation objects, arrays, ports and every other indexed group of the state are held so, which makes equal contents
equal data. What an unlisted key reads as is the table's background function, given at each access.
-/
namespace Sys2Proof

/-- A sparse table from natural-number keys to values. -/
abbrev Tab (α : Type) := List (Nat × α)

/-- The value at a key: the listed one, or the background's. -/
def Tab.get {α : Type} (bg : Nat → α) : Tab α → Nat → α
  | [], k => bg k
  | (j, v) :: rest, k => if j = k then v else Tab.get bg rest k

/-- Drop the entry of a key. -/
def Tab.erase {α : Type} : Tab α → Nat → Tab α
  | [], _ => []
  | (j, v) :: rest, k => if j = k then rest else if k < j then (j, v) :: rest else (j, v) :: Tab.erase rest k

/-- Insert or replace the entry of a key, keeping the keys rising. -/
def Tab.put {α : Type} : Tab α → Nat → α → Tab α
  | [], k, x => [(k, x)]
  | (j, v) :: rest, k, x =>
    if j = k then (k, x) :: rest else if k < j then (k, x) :: (j, v) :: rest else (j, v) :: Tab.put rest k x

/-- Write a key. Writing the background's value removes the entry. -/
def Tab.set {α : Type} [DecidableEq α] (bg : Nat → α) (t : Tab α) (k : Nat) (x : α) : Tab α :=
  if x = bg k then Tab.erase t k else Tab.put t k x

/-- Rewrite the value at a key with a function. -/
def Tab.modify {α : Type} [DecidableEq α] (bg : Nat → α) (t : Tab α) (k : Nat) (f : α → α) : Tab α :=
  Tab.set bg t k (f (Tab.get bg t k))

/-- Every key of a table lies above a bound. -/
def Tab.above {α : Type} (b : Nat) (t : Tab α) : Bool := t.all fun e => decide (b < e.1)

/-- Keys strictly rising. -/
def Tab.rising {α : Type} : Tab α → Bool
  | [] => true
  | (j, _) :: rest => Tab.above j rest && Tab.rising rest

/-- The canonical form: keys strictly rising, and no entry equal to the background. -/
def Tab.wf {α : Type} [DecidableEq α] (bg : Nat → α) (t : Tab α) : Bool :=
  Tab.rising t && t.all fun e => decide (e.2 ≠ bg e.1)

/-- Write consecutive keys from a list of values. -/
def Tab.setMany {α : Type} [DecidableEq α] (bg : Nat → α) : Tab α → Nat → List α → Tab α
  | t, _, [] => t
  | t, k, x :: xs => Tab.setMany bg (Tab.set bg t k x) (k + 1) xs

/-- Read `n` consecutive keys. -/
def Tab.getMany {α : Type} (bg : Nat → α) (t : Tab α) (k : Nat) : Nat → List α
  | 0 => []
  | n + 1 => Tab.get bg t k :: Tab.getMany bg t (k + 1) n

/-- Drop every entry whose key a test selects: those keys then read as the background. -/
def Tab.drop {α : Type} (t : Tab α) (p : Nat → Bool) : Tab α := t.filter fun e => !p e.1

end Sys2Proof
end

