-- ==== Sys2Proof/Machine/State.lean ====
section
/-!
DEFINITION. The state of the module as plain data: one structure per unit of the spec, every register field under its own name, and the
queue of the commands that wait. Groups indexed by a number (arrays, ports, stacks, objects) are sparse tables over a default record,
which is that unit's state after reset. `State.reset` is every field at the value the spec states for a cold module reset.
-/
namespace Sys2Proof.Machine

/-! Stops. -/

/-- Why the machine stops with a fault. -/
inductive Fault where
  /-- Raised by every functional command while a die's boundary cells drive its outputs, and from then until the next cold module
  reset: R598 says that the module's functional behaviour is not defined then. Safe: the model stops where the spec says nothing. -/
  | boundaryScanUndefined
  deriving DecidableEq, Repr

/-- Why a command is refused. -/
inductive Refusal where
  /-- The arm of a command that has no meaning yet; safe. -/
  | notModelled (mnemonic : String)
  deriving DecidableEq, Repr

/-! Memory. -/

/-- A range of device addresses whose contents became undefined, with the number of that happening (R259, R542, R543). -/
structure Scramble where
  lo    : Nat
  hi    : Nat
  epoch : Nat
  deriving DecidableEq, Repr

/-- Memory over the 56-bit device address space of R23, host memory (region 0x04) included. Bytes of HBM
are keyed by the place that holds them, stack × 2^36 + offset in the stack, and host memory by 2^50 + host bus address. Keys from 2^72
upward hold the bytes of flash objects, which have no device address. -/
structure Memory where
  cells     : Tab Byte
  scrambled : List Scramble
  deriving DecidableEq, Repr

/-! Events and what leaves the module. -/

/-- An event before it is placed on a ring (R358). -/
structure Event where
  code    : BitVec 16
  domain  : Nat
  ctx     : BitVec 16
  source  : BitVec 16
  time    : BitVec 48
  payload : List Byte
  deriving DecidableEq, Repr

/-- What leaves the module other than by a write to memory: the model's own record of it, newest first (log 10). -/
inductive Out where
  | readData (value : DWord)
  | readBytes (bytes : List Byte)
  | readPoisoned
  | unsupportedRequest
  | requestRetry
  | cfgData (value : Word)
  | eventText (code : BitVec 16)
  | msix (vector : Nat)
  | flit (port : Nat) (f : Flit)
  | downFlit (port : Nat)
  | handshakeFlit (port : Nat) (h : Handshake)
  | frame (port : Nat) (dstMac srcMac : BitVec 48) (tag : Option (BitVec 12 × Nat)) (etherType : BitVec 16) (p : Packet)
  | pfc (port prio : Nat) (paused : Bool)
  | adminAnswer (transport : Nat) (bytes : List Byte)
  | spdm (request : Nat) (bytes : List Byte)
  | pldm (code : BitVec 16)
  | sideband (address : Nat) (bytes : List Byte)
  | uart (request : Nat) (bytes : List Byte)
  deriving DecidableEq, Repr

/-! Host interface: event rings, submission rings, commands. -/

/-- An event ring (R355-R360) with its registers HIF_EVBASEn and HIF_EVCFGn. -/
structure EvRing where
  base      : BitVec 52          -- bits [63:12]
  enable    : Bool
  sizeLog2  : BitVec 4
  headErr   : BitVec 5
  vector    : BitVec 11
  coalCount : Byte
  coalUs    : BitVec 16
  lost      : BitVec 16
  w         : Word               -- written count W
  h         : Word               -- head count H
  sinceIrq  : Nat                -- records written since the last interrupt
  firstAt   : Option Nat         -- when the first of them was written
  dropping  : Bool               -- an EVENT_OVERFLOW was written and fewer than 2 slots have been free since (R359)
  deriving DecidableEq, Repr

/-- HIF_EVCFGn and HIF_EVBASEn at reset. -/
def EvRing.reset (n : Nat) : EvRing :=
  { base := 0, enable := false, sizeLog2 := 6, headErr := 0, vector := BitVec.ofNat 11 n, coalCount := 1, coalUs := 0, lost := 0,
    w := 0, h := 0, sinceIrq := 0, firstAt := none, dropping := false }

/-- An admin request that waits for the management processor (R351, R575). -/
structure AdminReq where
  transport : Nat
  port      : Option Nat         -- the port a transport-2 request arrived on
  src       : BitVec 16          -- the requester's device identifier
  isLocal   : Bool
  count     : Word               -- the admin ring's count; 0 on the other transports
  desc      : List Byte
  params    : List Byte
  deriving DecidableEq, Repr

/-- A submission ring (R338, R339). -/
structure Ring where
  base     : Nat
  headptr  : Nat
  sizeLog2 : Nat
  weight   : Nat
  cvec     : BitVec 16
  session  : Nat
  head     : Word
  tail     : Word
  stopped  : Bool                -- R342
  deleting : Option (Option AdminReq)   -- R346: a deletion goes on, with the RING_DELETE that it completes if there is one
  deriving DecidableEq, Repr

/-- How far a fetched command has come (R345, R353, R354). -/
inductive Phase where
  | fetched      -- validated, not started
  | started
  | performed    -- its operation is done; COMMAND_DONE completes it
  deriving DecidableEq, Repr

/-- A fetched command with its own copy of the descriptor (R344). -/
structure Cmd where
  key     : CmdKey
  desc    : List Byte            -- 64 bytes, format 2 (a format-1 descriptor is widened under R372)
  block   : List Byte            -- CTX CREATE: the parameter block as its validation read it (R376); else empty
  phase   : Phase
  queued  : Bool                 -- its WAITOBJ wait stands in the object's queue
  taken   : Bool                 -- its WAITOBJ count has been taken
  startedAt : Nat                -- always-on time of its start
  status  : Nat                  -- STATUS of R354 once performed
  result  : Nat
  gen     : Nat
  deriving DecidableEq, Repr

/-- A command processor: its place in the weighted round robin, and when it last wrote a heartbeat (R343, R547). -/
structure CmdProc where
  current   : Nat
  served    : Nat
  heartbeat : Nat
  deriving DecidableEq, Repr

/-- The admin ring (R637). -/
structure AdminRing where
  base    : BitVec 52
  headptr : BitVec 61
  size    : BitVec 2
  enable  : Bool
  head    : Word
  tail    : Word
  stopped : Bool
  deriving DecidableEq, Repr

/-- An entry of the MSI-X table (R589) and its bit of the PBA. -/
structure MsixEntry where
  addr    : DWord
  data    : Word
  masked  : Bool
  pending : Bool
  deriving DecidableEq, Repr

/-- MSI-X entry at reset. PRESUMED (log 8): PCI Express resets the vector mask bit to 1 and the rest to 0. -/
def MsixEntry.reset : MsixEntry := { addr := 0, data := 0, masked := true, pending := false }

/-- The host interface. -/
structure Hif where
  evrings   : Tab EvRing
  held      : List Event         -- ring-0 events held until ring 0 is enabled (R557), oldest first
  holding   : Bool               -- a module-scale reset has happened and ring 0 has not been enabled since
  eventLog  : List (List Byte)   -- the last 256 records raised since the last module reset, newest first (R555)
  rings     : Tab (Option Ring)
  cps       : Tab CmdProc
  cmds      : List Cmd           -- fetched commands that have not completed, oldest first
  admin     : AdminRing
  adminQ    : List AdminReq
  staleDrops : DWord
  staleSeen : List (BitVec 16)   -- (identifier, generation) pairs already reported (R403)
  msix      : Tab MsixEntry
  functionMask : Bool
  up        : Bool
  flitMode  : Bool
  speed     : BitVec 3
  width     : BitVec 5
  d3hot     : Bool
  relaxed   : Bool               -- Enable Relaxed Ordering (R584)
  bar4Log2Gib : Nat
  bar4Base  : BitVec 18          -- bits [47:30]
  unmapped  : BitVec 16
  deriving DecidableEq, Repr

def CmdProc.reset : CmdProc := { current := 0, served := 0, heartbeat := 0 }

def AdminRing.reset : AdminRing :=
  { base := 0, headptr := 0, size := 0, enable := false, head := 0, tail := 0, stopped := false }

def Hif.reset : Hif :=
  { evrings := [], held := [], holding := true, eventLog := [], rings := [], cps := [], cmds := [], admin := AdminRing.reset, adminQ := [],
    staleDrops := 0, staleSeen := [], msix := [], functionMask := false, up := false, flitMode := false, speed := 0, width := 0,
    d3hot := false, relaxed := false, bar4Log2Gib := 4, bar4Base := 0, unmapped := 0 }

/-! Synchronisation objects. -/

/-- Who waits in an object's queue. -/
inductive Waiter where
  | waitobj (key : CmdKey)                 -- a command's WAITOBJ count (R345)
  | engine (id : Nat)                      -- an engine's own wait on an absolute object
  | syncWait (key : CmdKey) (j : Nat)      -- item j of a SYNC WAIT or WAIT_GE (R365)
  | syncAny (key : CmdKey) (j : Nat)       -- position j of a SYNC WAIT_ANY (R364)
  | step (array idx j : Nat)               -- a waiting sync step of a task image (R368)
  | slot (array feeder : Nat)              -- a landing's ready object (R238)
  | landing (engine : Nat)                 -- a landing's free object (R322)
  | ready (plan bucket : Nat)              -- READYOBJ (R442)
  | gath (plan bucket : Nat)               -- GATHOBJ (R469)
  deriving DecidableEq, Repr

/-- One queued wait. `takes` is false for a WAIT_GE. -/
structure Wait where
  who   : Waiter
  n     : Word
  takes : Bool
  deriving DecidableEq, Repr

/-- A synchronisation object (R361, R362). -/
structure SyncObj where
  count : Word
  sat   : Bool
  queue : List Wait
  deriving DecidableEq, Repr

def SyncObj.reset : SyncObj := { count := 0, sat := false, queue := [] }

/-- The objects, and the waits that have completed and whose owners have not yet acted on it. -/
structure Sync where
  objs : Tab SyncObj
  done : List Waiter
  deriving DecidableEq, Repr

/-! Contexts, RUNs, cyclic tables. -/

/-- A calibrated (context, IMAGE) pair: E and T of its solo run (R400). -/
structure Calib where
  image : Nat
  cycles : Nat
  tiles : Nat
  deriving DecidableEq, Repr

/-- A context (R374-R382) with its parameter block. STATE is coded as HIF_CTXc.STATE. -/
structure Ctx where
  state     : Nat
  gen       : BitVec 10
  fault     : Byte
  slowdown  : BitVec 16
  session   : Nat
  syncBase  : Nat
  syncCount : Nat
  cevring   : Nat
  saveAd0   : Nat
  saveAd1   : Nat
  saveSlot  : Nat
  resMask   : Byte
  slowRep   : Bool
  slowThresh : BitVec 16
  resOffKib : Nat
  resLenKib : Nat
  saves     : List (Nat × Nat)   -- offset and length in KiB
  holdsPart : Bool               -- the partitions of RESMASK are held (released by SAVE, R393)
  calib     : List Calib         -- most recently run first
  teardown  : Option CmdKey
  discarded : Nat
  deriving DecidableEq, Repr

def Ctx.reset : Ctx :=
  { state := 0, gen := 0, fault := 0, slowdown := 0, session := 0, syncBase := 0, syncCount := 0, cevring := 0, saveAd0 := 0,
    saveAd1 := 0, saveSlot := 0, resMask := 0, slowRep := false, slowThresh := 0, resOffKib := 0, resLenKib := 0, saves := [],
    holdsPart := false, calib := [], teardown := none, discarded := 0 }

/-- One entry of a cyclic table (R395). -/
structure TableEntry where
  offset : Nat
  budget : Nat
  ctx    : BitVec 16
  arrays : Byte
  stepFromPeriod : Bool
  desc   : Nat
  deriving DecidableEq, Repr

/-- A released run of an entry (R396-R398). -/
structure Instance where
  entry    : Nat
  period   : Nat
  release  : Nat
  started  : Option Nat
  overrun  : Bool
  deriving DecidableEq, Repr

/-- A cyclic table: STATE, OVERRUNS, PERIODS and S of HIF_TABLEt and HIF_TABLE_STARTt, and its contents. -/
structure CTable where
  state    : Nat
  overruns : BitVec 24
  periods  : Word
  s        : BitVec 48
  startNow : Nat                 -- S as an always-on time that does not wrap
  period   : Nat
  prio     : Nat
  entries  : List TableEntry
  nextEntry : Nat                -- the next entry to release
  nextPeriod : Nat
  insts    : List Instance       -- released ones that have not completed, oldest first
  stopCmd  : Option CmdKey
  deriving DecidableEq, Repr

def CTable.reset : CTable :=
  { state := 0, overruns := 0, periods := 0, s := 0, startNow := 0, period := 0, prio := 0, entries := [], nextEntry := 0,
    nextPeriod := 0, insts := [], stopCmd := none }

/-! Arrays. -/

/-- One operand-queue entry: a row on its way to the lanes, with its scale side-band, selects and clear marks (R111, R150, R155, R231). -/
structure LaneRow where
  tile   : Nat                   -- tile-list position served, modulo 65,536
  idx    : Nat                   -- its row number within the step: vector m, or injection number
  lanes  : List Byte             -- one byte a lane, from lane 0; missing ones are 0
  scales : List Nat              -- E8M0 by element from lane 0; missing ones are 2^0
  sels   : List Nat              -- selects by stored element of a 2:4 stationary row
  clear  : List Bool             -- by element of a stationary row: lies in a clearing
  empty  : Bool                  -- every element the tile reads is known zero (R158)
  last   : Bool                  -- the last row of its step
  deriving DecidableEq, Repr

/-- One injection into a chain: the row, and the chain it came by (R73, R75). -/
structure Injection where
  row   : LaneRow
  north : Bool
  deriving DecidableEq, Repr

/-- A stationary register of the array: what the chains have shifted in, newest first, behind undefined values (R50, R73-R78, R150, R636). -/
structure RegBlock where
  hist   : List Injection        -- at most 2,047, beyond which nothing is left of one
  source : Option (Nat × Nat)    -- the last load that injected: tile-list position of its tile, and the landing slot it read (R636)
  sp24   : Bool
  lastAt : Nat                   -- array cycle of the last injection
  epoch  : Nat                   -- which undefined values lie behind
  deriving DecidableEq, Repr

def RegBlock.reset : RegBlock := { hist := [], source := none, sp24 := false, lastAt := 0, epoch := 0 }

/-- A decoded tile record (R64). -/
structure TileRec where
  mode  : Nat
  fmt   : Nat
  act   : Nat
  park  : Nat
  lden  : Bool
  ldreg : Nat
  badd  : Bool
  final : Bool
  m     : Nat
  r     : Nat
  c     : Nat
  ldext : Nat
  brow  : Nat
  reserved : Bool                -- a reserved bit is set
  deriving DecidableEq, Repr

/-- An issued vector slot: its array cycle at cell (0, 0), the vector's index, and the rows that entered. -/
structure Slot where
  at_   : Nat
  idx   : Nat
  west  : Option LaneRow
  north : Option LaneRow
  deriving DecidableEq, Repr

/-- A tile whose vector 0 has issued and whose last effect has not yet happened. -/
structure Tile where
  pos     : Nat
  tr      : TileRec
  t0      : Nat
  slots   : List Slot            -- issued vectors, oldest first
  ended   : Option Nat           -- the cycle in which its issue ended: every vector has issued or was dropped (R159)
  block   : RegBlock             -- the ACT register as its wake front found it
  sp24    : Bool                 -- its moving stream is doubled
  deriving DecidableEq, Repr

/-- A wake load that waits or runs (R77). -/
structure WakeLoad where
  reg   : Nat
  tile  : Nat                    -- tile-list position of the tile that carries it
  north : Bool
  ext   : Nat
  rides : Option Nat             -- rides the drain of this exchange front (R84)
  after : Nat                    -- starts no earlier: vector 0 of its tile at cell (0, 0)
  started : Bool
  done  : Nat                    -- injections made
  lastAt : Nat                   -- cycle of the last one
  repeat_ : Bool                 -- repeats an abandoned or lost load after a resume (R636)
  slot  : Option Nat             -- a repeat: the landing slot that the original load read
  deriving DecidableEq, Repr

/-- Held results of a hold tile in a parked register, and the drain of R82. -/
structure Drain where
  reg   : Nat
  front : Nat                    -- t_f
  brow  : Nat
  badd  : Bool
  fmt   : Nat
  r     : Nat
  c     : Nat
  tile  : Nat
  slots : List Slot              -- the vectors whose products A holds
  final : Bool
  deriving DecidableEq, Repr

/-- The reading side of a landing: one stream's slot cursor (R238). -/
structure Cursor where
  desc  : Nat
  slot  : Nat
  held  : Bool                   -- its present slot has been taken from the ready object and not returned
  waiting : Bool
  deriving DecidableEq, Repr

/-- A feeder: its stream program, where it stands in its moving (or drain) steps and in its stationary steps, and its queues (R216, R228-R233). Of
a drain feeder mrow and srow count the stream rows of the present epilogue's output and stash that are written. -/
structure Feeder where
  prog    : Nat
  count   : Nat
  mpos    : Nat                  -- the moving step being performed
  mrow    : Nat                  -- its next row
  mReady  : Bool                 -- that step has been checked and holds its landing slot
  mMeta   : Bool                 -- the metadata of its next row have been read from the scratchpad
  mActive : Bool                 -- a moving row has been read, or an output or stash row written, in the present array cycle
  spos    : Nat                  -- the stationary step being performed
  srow    : Nat
  sReady  : Bool
  sMeta   : Bool
  sActive : Bool                 -- a stationary row, or a row of a side stream, has been read in the present array cycle
  conflict : Bool                -- an access has lost a scratchpad bank in the present array cycle (R236)
  moving  : List LaneRow
  stationary : List LaneRow
  staging : List LaneRow
  output  : List (List Word)     -- drain feeders: rows of FP32 lanes before conversion
  stash   : List (List Word)
  side0   : List Word            -- drain feeders: rows of the side streams, widened, one behind the other
  side1   : List Word
  rows0   : Nat                  -- stream rows of side 0, and of side 1, read for the present epilogue
  rows1   : Nat
  synced  : List Nat             -- descriptors whose SYNC has been signalled in this RUN
  cursors : List Cursor
  badTile : Option Nat           -- the tile whose stream was found invalid (R218)
  deriving DecidableEq, Repr

def Feeder.reset : Feeder :=
  { prog := 0, count := 0, mpos := 0, mrow := 0, mReady := false, mMeta := false, mActive := false, spos := 0, srow := 0, sReady := false
    sMeta := false, sActive := false, conflict := false, moving := [], stationary := [], staging := [], output := [], stash := [], side0 := []
    side1 := [], rows0 := 0, rows1 := 0, synced := [], cursors := [], badTile := none }

/-- An epilogue that waits or runs (R180-R184). -/
structure Epilogue where
  tile  : Nat
  rec_  : Nat                    -- address of its record
  brow  : Nat
  m     : Nat
  fmt   : Nat
  c     : Nat
  r     : Nat
  mode  : Nat
  step  : Nat                    -- the first of its steps in the drain program, and how many there are (R228)
  nstep : Nat
  ready : Bool                   -- its tile's last write has completed
  beat  : Nat                    -- segments streamed, over all its passes (R184)
  row   : Nat                    -- rows that have run through its stages
  nonfin : Nat                   -- non-finite elements to count when it completes (R190)
  stashNonfin : Nat              -- those of its stash
  gain   : List Word             -- column accumulations of R199, added when it completes
  offset : List Word
  deriving DecidableEq, Repr

/-- An edge unit (R180). -/
structure Edge where
  list    : Nat
  count   : Nat
  pos     : Nat
  dnext   : Nat                  -- the next step of the drain program that belongs to no epilogue yet
  queue   : List Epilogue
  running : Bool                 -- the head of the queue has started
  cause   : Nat                  -- what became of the present array cycle, by counter number of R255
  deriving DecidableEq, Repr

def Edge.reset : Edge := { list := 0, count := 0, pos := 0, dnext := 0, queue := [], running := false, cause := 1 }

/-- One array with its sequencer, feeders, edge units and registers. -/
structure ArrayUnit where
  targetMhz : BitVec 12
  curMhz    : BitVec 12          -- CUR_MHZ while the clock is not paused
  fault     : Byte
  ctx       : BitVec 6
  actReg    : Bool
  mode      : BitVec 2
  state     : Nat                -- STATE of ARRn_STATUS
  detail    : DWord
  tiles     : BitVec 48
  wdogEn    : Bool
  wdogLimit : BitVec 24
  noProg    : Nat                -- the no-progress count of R94
  progressed : Bool              -- it has made progress in the present reference period
  cause     : Nat                -- the stall cause of the last cycle, by counter number of R255; 0 when active
  counter   : BitVec 48          -- the array's domain counter (R40)
  cyc       : Nat                -- the array cycle that has begun, without wrap
  owner     : Option CmdKey      -- the RUN that holds the array
  lastCtx   : Option Nat         -- the context whose RUN last ran on it (R386)
  scrubbing : Bool
  quiesced  : Bool
  tileList  : Nat
  ntiles    : Nat
  pos       : Nat                -- the next tile to issue
  resumeAt  : Nat                -- that tile at a resume; epilogues of tiles before it run first (R191)
  holdTable : Nat
  holdPos   : Nat                -- hold-table entries consumed
  syncList  : Nat
  nsync     : Nat
  syncPos   : Nat
  syncWaits : Bool               -- the wait of the present sync step stands in a queue
  stashList : Nat
  nstash    : Nat
  stashPos  : Nat
  inflight  : List Tile
  s0        : RegBlock
  s1        : RegBlock
  loads     : List WakeLoad      -- running and waiting loads, in tile order
  drains    : List Drain
  lastFront : Option Nat         -- cycle of the last exchange front (R86)
  feeders   : Tab Feeder         -- 0 west, 1 north, 2 south drain, 3 east drain
  south     : Edge
  east      : Edge
  reuse     : List LaneRow
  reuseM    : Nat
  reuseCtx  : Option Nat
  liveRows  : Tab Bool           -- live bank rows: south row r by r, east row r by 2,048 + r (R388)
  began     : Bool               -- a tile of the present RUN has issued (R400)
  eCount    : Nat                -- array cycles since then, PREEMPTION excluded
  eLast     : Nat                -- that count at the last bank write
  window    : List WinAccess     -- bank accesses held until a tile boundary (R28, R70)
  granted   : List (Nat × List Nat)   -- scratchpad accesses of the present array cycle: unit by the order of R236, banks
  bankWait  : List Nat           -- ferries and gather engines whose access to a bank of this array is held (R28)
  -- power and clock
  paused    : BitVec 12          -- rails whose dip pauses this array's clock (R519)
  detectors : BitVec 16          -- tripped droop detectors (R515)
  stretching : Bool
  stretchFrom : Nat              -- always-on time at which the present stretch began
  episodes  : Nat
  stretchNs : Nat
  deepestMv : Nat
  summaryAt : Nat
  stretchRem : Nat               -- the remainder of R253, in quarters of a target-clock cycle
  resetTimes : List Nat          -- array resets from watchdogs 1 and 2 (R549)
  deriving DecidableEq, Repr

/-- An array after reset: the reset values of the ARRn registers. -/
def ArrayUnit.reset : ArrayUnit :=
  { targetMhz := 2400, curMhz := 0, fault := 0, ctx := 0, actReg := false, mode := 0, state := 0, detail := 0, tiles := 0,
    wdogEn := true, wdogLimit := 10000, noProg := 0, progressed := false, cause := 1, counter := 0, cyc := 0, owner := none, lastCtx := none,
    scrubbing := false, quiesced := false, tileList := 0, ntiles := 0, pos := 0, resumeAt := 0, holdTable := 0, holdPos := 0, syncList := 0,
    nsync := 0, syncPos := 0, syncWaits := false, stashList := 0, nstash := 0, stashPos := 0, inflight := [], s0 := RegBlock.reset,
    s1 := RegBlock.reset, loads := [], drains := [], lastFront := none, feeders := [], south := Edge.reset, east := Edge.reset,
    reuse := [], reuseM := 0, reuseCtx := none, liveRows := [], began := false, eCount := 0, eLast := 0, window := [], granted := [], bankWait := [], paused := 0, detectors := 0,
    stretching := false, stretchFrom := 0, episodes := 0, stretchNs := 0, deepestMv := 0, summaryAt := 0, stretchRem := 0,
    resetTimes := [] }

/-- How a RUN stands with its arrays (R384-R391). -/
inductive RunPhase where
  | waiting       -- requests its arrays
  | granted       -- holds them
  | preempting    -- quiescing or being saved
  | preempted     -- saved off, requests them again
  | ended         -- all its work has ended
  deriving DecidableEq, Repr

/-- A started RUN. -/
structure Run where
  key      : CmdKey
  ctx      : Nat
  tag      : Word
  image    : Nat
  bindings : Nat
  nbind    : Nat
  arrays   : Byte
  prio     : Nat
  step     : Word
  mb       : Word
  seed     : DWord
  order    : Nat                 -- start order (R384)
  phase    : RunPhase
  bound    : Bool                -- the image is bound to its arrays and its stashes are installed (R326, R348)
  saved    : Byte                -- arrays whose save is complete
  restoring : Byte               -- arrays whose restore is not complete
  preemptor : Nat                -- context of the pre-empting RUN
  preemptAt : Nat
  saveKib  : Nat
  everPreempted : Bool
  solo     : Bool                -- no other context has had a RUN started since this one's grant (R400)
  cycles   : Nat                 -- E of R400
  tiles    : Nat                 -- T of R400
  frozen   : List Nat            -- bindings whose tensor is frozen (R208)
  kept     : List (Nat × ArrayUnit)   -- a pre-empted RUN's place in its programs, by array (R191, R238, R391)
  deriving DecidableEq, Repr

/-! Telemetry, die stream caches. -/

/-- The stall counters (R252-R256): keys are 16 × e + c. -/
structure Tel where
  live : Tab DWord
  snap : Tab DWord
  view : Bool
  busy : Bool
  moved : List Nat               -- the hub engines 132 to 169 that have made progress in the present reference period (R252, R630)
  deriving DecidableEq, Repr

/-- A line of a die stream cache (R239-R245). -/
structure DscLine where
  line     : Nat                 -- line number: device address / 256
  stream   : Option Nat          -- the descriptor whose prefetcher asked for it
  prefetched : Bool
  inflight : Bool
  dropped  : Bool                -- invalidated while its fill was in flight
  age      : Nat                 -- last use, or fill order of a prefetched line
  deriving DecidableEq, Repr

/-- A registered stream (R241): its descriptor, its engine, its context, and how far its prefetcher has walked. -/
structure DscStream where
  desc   : Nat
  engine : Nat
  ctx    : Nat
  base   : Nat                   -- the stream's BASE, or that of the landing slot which the step reads
  row    : Nat                   -- the row its walk stands in
  part   : Nat                   -- lines of that row already walked
  last   : Nat                   -- the first row beyond the present step
  deriving DecidableEq, Repr

/-- A die stream cache and its TEL_DSCd counters, by offset / 8. -/
structure Dsc where
  lines   : List DscLine
  streams : List DscStream
  refused : List DscStream       -- streams that found the table full and run unregistered (R241)
  clock   : Nat
  counts  : Tab DWord
  deriving DecidableEq, Repr

def Dsc.reset : Dsc := { lines := [], streams := [], refused := [], clock := 0, counts := [] }

/-! HBM. -/

/-- A request in a pseudo-channel's window or in a stack's in-order queue (R275, R280). -/
structure HbmPending where
  req   : HbmReq
  at_   : Nat                    -- HBM-controller cycle of its acceptance
  seq   : Nat                    -- acceptance order
  slotted : Bool
  poison  : List Nat             -- codewords of a read that were poisoned at its acceptance
  served  : List Nat             -- codewords whose bursts have been served (R277)
  bad     : Bool                 -- a served codeword of a read was uncorrectable
  deriving DecidableEq, Repr

/-- A pseudo-channel: window, error counts of the present scrub interval, open rows (R269, R275-R278). -/
structure Pchan where
  window   : List HbmPending     -- in acceptance order
  draining : Bool                -- serving writes ahead of reads (R278)
  openRows : Tab (Option Nat)    -- by bank
  ce       : Word
  pins     : Tab Nat
  scrubQ   : List Nat            -- corrected codewords whose write-back waits in the scrub class (R267)
  deriving DecidableEq, Repr

def Pchan.reset : Pchan := { window := [], draining := false, openRows := [], ce := 0, pins := [], scrubQ := [] }

/-- A channel of a stack: a reset in progress, its uncorrected count. -/
structure Chan where
  ue       : Byte
  resetAt  : Option Nat
  servedFrom : Nat               -- HBM-controller cycle at which its last reset ended; watchdog 8 counts from there (R535)
  deriving DecidableEq, Repr

def Chan.reset : Chan := { ue := 0, resetAt := none, servedFrom := 0 }

/-- A stack's controller. -/
structure Stack where
  live     : List Nat            -- live pseudo-channels, ascending (R257)
  pcs      : Tab Pchan
  chans    : Tab Chan
  inorder  : List HbmPending     -- at most 8 (R280)
  atDoor   : List HbmReq         -- accesses that wait for a place in the in-order queue, oldest first
  seq      : Nat
  scrubbed : List Nat            -- codewords read by scrub requests in the present interval (R268)
  intervalAt : Nat               -- always-on time at which the present interval began
  hot      : Bool                -- its sensor is at the HBM level (R523)
  temp     : BitVec 12
  deriving DecidableEq, Repr

def Stack.reset : Stack :=
  { live := List.range 32, pcs := [], chans := [], inorder := [], atDoor := [], seq := 0, scrubbed := [], intervalAt := 0, hot := false, temp := 0 }

/-- A line of the shared cache (R281). -/
structure ScLine where
  line  : Nat
  held  : Bool                   -- held HBM line, or a clean DDR5 line
  dirty : Bool
  age   : Nat
  deriving DecidableEq, Repr

/-- HBM and the shared cache, with the MEM block's registers. -/
structure Mem where
  ilvAd0 : Bool
  ilvAd1 : Bool
  mappedAd0 : Byte
  mappedAd1 : Byte
  scrubHours : Byte
  ceReport : BitVec 16
  ueCondemn : Byte
  ceCondemnLog2 : Byte
  pinMark  : BitVec 16
  rslotSlices : BitVec 5
  ddrCache : Bool
  stk      : Tab Stack
  poisoned : Tab Bool            -- by codeword number: device address / 32
  lines    : List ScLine
  clock    : Nat
  deriving DecidableEq, Repr

def Mem.reset : Mem :=
  { ilvAd0 := false, ilvAd1 := false, mappedAd0 := 0, mappedAd1 := 0, scrubHours := 24, ceReport := 1024, ueCondemn := 1,
    ceCondemnLog2 := 16, pinMark := 64, rslotSlices := 0, ddrCache := true, stk := [], poisoned := [], lines := [], clock := 0 }

/-! Tiers, ferries, stash, check-value units. -/

/-- A DDR5 or flash object (R308-R314). -/
structure Obj where
  id      : DWord
  base    : Nat                  -- device address; 0 for flash
  size    : Nat
  written : Nat                  -- flash: bytes written
  sealed  : Bool
  ctx     : Nat                  -- the context that created it
  stash   : Bool                 -- made by a spill
  extents : List (List Nat)      -- flash: the sixteen blocks of each extent, by channel (R301)
  deriving DecidableEq, Repr

/-- A flash block as the translation layer keeps it (R303-R305). It holds data while an extent of an object names it. -/
structure Block where
  erases  : Nat
  reads   : Nat                  -- page reads since its last erase
  used    : Bool                 -- programmed since its last erase
  retired : Bool
  deriving DecidableEq, Repr

def Block.reset : Block := { erases := 0, reads := 0, used := false, retired := false }

/-- The tray's NAND as mounting finds it (R301; log 20): codewords of a page, pages of a block, blocks of a die, dies of a channel, and the
blocks that the factory marked bad. Blocks are numbered die by die, channel after channel. -/
structure Nand where
  codewords : Nat
  pages     : Nat
  dieBlocks : Nat
  dies      : Nat
  bad       : List Nat
  deriving DecidableEq, Repr

def Nand.reset : Nand := { codewords := 0, pages := 0, dieBlocks := 0, dies := 0, bad := [] }

/-- A stash step that waits (R332). -/
structure StashWait where
  op     : Nat
  mb     : Word
  sync   : BitVec 16
  array  : Nat
  reason : Nat
  deriving DecidableEq, Repr

/-- A micro-batch of a stash and its state: 1 writing, 2 closed, 3 open, 4 spilled, 5 being spilled, 6 being restored (R328). -/
structure StashMb where
  mb    : Word
  st    : Nat
  obj   : DWord
  deriving DecidableEq, Repr

/-- An installed stash (R326-R333). -/
structure Stash where
  ctx     : Nat
  id      : Nat
  base    : Nat
  slotBytes : Nat
  h       : Nat
  quota   : Nat
  timeoutMs : Nat
  reserve : Nat                  -- DDR5 base of its reserve
  heldUnits : Nat
  mbs     : List StashMb
  waiting : List StashWait
  since   : Option Nat           -- when the timeout began to run
  deriving DecidableEq, Repr

/-- The tiers: TIER registers, objects, blocks, stashes. -/
structure Tier where
  ddrSpeed : Byte
  ddrChannels : Byte
  ddrUsableMib : Word
  flashFreeGib : Word
  flashUsableGib : Word
  objs    : List Obj
  serial  : Nat                  -- the flash directory's serial counter
  blocks  : Tab Block
  nand    : Nand
  dirA    : List Obj             -- the flash directory: entries of sealed objects, in two copies (R307)
  dirB    : List Obj
  stashes : List Stash
  ddrScrubAt : Nat
  deriving DecidableEq, Repr

def Tier.reset : Tier :=
  { ddrSpeed := 0, ddrChannels := 0, ddrUsableMib := 0, flashFreeGib := 0, flashUsableGib := 0, objs := [], serial := 0, blocks := [],
    nand := Nand.reset, dirA := [], dirB := [], stashes := [], ddrScrubAt := 0 }

/-- A ferry or gather engine's list of work (R319, R320): the records or steps of a RUN's program, or of a FERRY command. -/
structure Work where
  addr    : Nat
  count   : Nat
  pos     : Nat
  ctx     : Nat
  run     : Option CmdKey        -- the RUN whose program it is
  cmd     : Option CmdKey        -- the FERRY command whose list it is
  array   : Nat
  seed    : DWord
  step    : Word
  cursor  : Nat                  -- destination landing cursor (R322)
  freeTaken : Bool
  waiting : Bool                 -- waits on the free object
  written : Bool                 -- the present record's writes have been accepted
  abandoned : Bool
  doneBytes : Nat                -- progress of a record whose destination is a flash object (R320)
  tile    : Nat                  -- tile-list position of a gather list's present step
  deriving DecidableEq, Repr

/-- A dispatch in progress at a gather engine (R168-R179). -/
structure Dispatch where
  rec_    : Nat
  ctx     : Nat
  array   : Nat
  sync    : BitVec 16
  counts  : List (Nat × Nat × Nat)   -- home: source position, expert, count
  answered : Bool                    -- home: every ADMIT count has been returned
  admits  : List (Nat × Nat × Nat)   -- source: expert, a_s, first position
  sent    : Bool                     -- source: every admitted row has been sent
  returns : List Nat                 -- combine rows awaited
  dropped : List Nat                 -- combine rows of pairs dropped, by capacity or by a drop mark
  arrived : List (Nat × Nat × Nat)   -- part in arrival mode: triple, source, combine row
  got     : List Nat             -- combine rows that have returned whole
  complete : Bool                -- it has signalled; its combine rows stay known to its context's epilogues
  deriving DecidableEq, Repr

/-- A ferry (engines 0x00-0x17) or gather engine (0x18-0x1B). -/
structure Engine where
  work    : List Work
  dispatches : List Dispatch
  handoffs : List (Nat × Nat)    -- hand-off record and its slot cursor (R486)
  noProg  : Nat                  -- reference periods for which the record has been in progress without progress (R547)
  forSave : Bool                 -- taken by a save or restore (R389)
  held    : Nat                  -- the counter of R255 under which its last access was held; 0 for none (R279, R28, R236)
  moved   : Bool                 -- it has issued a request in the present reference period (R254)
  deriving DecidableEq, Repr

def Engine.reset : Engine := { work := [], dispatches := [], handoffs := [], noProg := 0, forSave := false, held := 0, moved := false }

/-- A check-value unit (R335-R337). -/
structure Chk where
  entriesLog2 : BitVec 8
  chunkLog2 : BitVec 5
  tap     : Bool
  addrSide : Bool
  fold    : Bool
  invert  : Bool
  refout  : Bool
  refin   : Bool
  width   : BitVec 7
  poly    : DWord
  init    : DWord
  resbase : DWord
  seq     : DWord
  owner   : Option Nat           -- the engine whose record it serves: BUSY (R335, R337)
  index   : Word
  deriving DecidableEq, Repr

def Chk.reset : Chk :=
  { entriesLog2 := 10, chunkLog2 := 12, tap := false, addrSide := false, fold := false, invert := true, refout := true, refin := true,
    width := 32, poly := 0x04C11DB7, init := 0xFFFFFFFF, resbase := 0, seq := 0, owner := none, index := 0 }

/-! Ports and the fabric. -/

/-- A data flit in the retry buffer (R411). -/
structure Sent where
  seq  : BitVec 12
  vc   : Nat
  sop  : Bool
  eop  : Bool
  body : List Byte
  deriving DecidableEq, Repr

/-- A port (R405-R435). STATE is coded as FAB_PORTp_STATUS.STATE. -/
structure Port where
  retrainMs : BitVec 16
  retryLimit : Byte
  retryTo   : BitVec 16
  framing   : BitVec 2
  rate      : BitVec 2
  mode      : BitVec 2
  curFraming : BitVec 2          -- as of the last training
  curRate   : BitVec 2
  peer      : BitVec 16
  peerValid : Bool
  lastDown  : BitVec 4
  state     : Nat
  alloc     : List Byte          -- A_0 to A_7 in units of 16 flits
  peerAlloc : List Nat           -- A_v advertised by the peer
  txSeq     : BitVec 12          -- next SEQ to send
  curMode   : BitVec 2
  trained   : Bool               -- link training is done and the handshake is awaited
  retry     : List Sent          -- unacknowledged flits, oldest first
  replay    : List Sent          -- flits to replay, not yet on the wire again
  toSend    : List Sent          -- flits of the packet being sent that have not been on the wire
  sending   : Option (Option Nat × Packet)   -- that packet and the port it came in by
  lastAck   : BitVec 12
  ackAt     : Nat
  replays   : Nat
  rxSeq     : BitVec 12          -- last SEQ accepted
  nakPending : Bool
  discarding : Bool              -- a flit has been discarded since the last acceptance
  sentFlits : Tab Nat            -- data flits first sent, by channel
  peerFreed : Tab Nat            -- latest CRCOUNT received, by channel
  freed     : Tab Nat            -- flits freed here, by channel
  crvc      : Nat
  rx        : List (Nat × Byte × List Byte)  -- flits of packets being received: channel, EOP, body
  rxPackets : List (Nat × Packet)            -- received packets with their flits
  queues    : Tab (List (Option Nat × Packet))  -- packets queued for the port with the port they came in by, by channel
  wrr       : Nat                -- place in the round robin of channels 0-5
  lastIn    : Tab Nat            -- the input served last, by channel: a port, or 16 for the local injection point (R417)
  pausedTx  : Byte               -- priorities that the peer has paused
  pausedRx  : Byte               -- priorities that this module has paused
  trainAt   : Nat                -- when the training or retraining began
  drainAt   : Nat
  waitSince : Tab (Option Nat)   -- since when a packet has waited for credits, by channel (R547)
  resets    : List Nat           -- port resets from watchdog 5 (R550)
  dropped   : Nat                -- packets dropped under R431 at the last down
  upOnce    : Bool               -- has come up since the last module reset
  counters  : Tab DWord          -- 0 RETRIES, 1 CRC_ERRORS, 2 FEC_CORRECTED, 3 RETRAINS, 4 LINK_DOWNS
  deriving DecidableEq, Repr

def Port.reset : Port :=
  { retrainMs := 100, retryLimit := 16, retryTo := 1000, framing := 0, rate := 0, mode := 0, curFraming := 0, curRate := 0, peer := 0,
    peerValid := false, lastDown := 0, state := 0, alloc := List.replicate 8 16, peerAlloc := List.replicate 8 0, txSeq := 0,
    curMode := 0, trained := false, retry := [], replay := [], toSend := [], sending := none, lastAck := 0xFFF, ackAt := 0, replays := 0, rxSeq := 0xFFF, nakPending := false, discarding := false,
    sentFlits := [], peerFreed := [], freed := [], crvc := 0, rx := [], rxPackets := [], queues := [], wrr := 0, lastIn := [], pausedTx := 0,
    pausedRx := 0, trainAt := 0, drainAt := 0, waitSince := [], resets := [], dropped := 0, upOnce := false, counters := [] }

/-- The fabric registers, the switch's local queues and the module drop counters. -/
structure Fab where
  id       : BitVec 16
  valid    : Bool
  hopLimit : Byte
  tagged   : Bool
  vlan     : BitVec 12
  etherType : BitVec 16
  pfx      : Word
  ports    : Tab Port
  groups   : Tab (BitVec 16)
  members  : Tab (BitVec 16)
  drops    : Tab DWord           -- 0 NO_ROUTE, 1 PORT_DOWN, 2 HOPS, 3 DRAIN, 4 BAD_TYPE, 5 FOREIGN
  inject   : List Packet         -- packets injected here, oldest first
  inbox    : List (Option Nat × Packet)  -- packets delivered here, with the port they came by, oldest first
  deriving DecidableEq, Repr

def Fab.reset : Fab :=
  { id := 0, valid := false, hopLimit := 16, tagged := false, vlan := 0, etherType := 0x88B5, pfx := 0x02000000, ports := [],
    groups := [], members := [], drops := [], inject := [], inbox := [] }

/-! Gradient reduction. -/

/-- A slot of a lane (R445-R449): its key, the accumulators, and which inputs have been added. -/
structure RSlot where
  step    : Word
  chunk   : Nat
  acc     : List Int             -- 1,024 accumulators
  satur   : List Nat             -- elements marked saturated
  ovf     : Word
  nf      : Word
  added   : List Nat             -- inputs added, by plan order
  sent    : Bool                 -- the sum has left; SLOT_FREE frees the slot
  deriving DecidableEq, Repr

/-- One bucket entry of an installed plan, with its node, sender and update state (R436-R469). -/
structure Bucket where
  entry   : Nat                  -- address of the bucket entry in the plan
  bucket  : Word
  wfmt    : Nat
  flags   : Byte
  nin     : Nat
  depth   : Nat
  nchunk  : Nat
  lane    : Nat
  parent  : Nat
  readyObj : BitVec 16
  arriveObj : BitVec 16
  nleaf   : Nat
  gradAddr : Nat
  errAddr : Nat
  agreed  : Nat
  inputs  : List Nat
  shard   : Nat
  repl0   : Nat
  repl1   : Nat
  gathObj : BitVec 16
  bcast   : List Nat
  slots   : Tab (Option RSlot)   -- by position in the lane
  seqs    : Tab Nat              -- sequence count of each input, by plan order
  outSeq  : Nat                  -- the node's own count of chunks that have left in order
  credits : Nat                  -- credits toward the parent; the local input's follow from the slots that hold its chunks
  sending : Option Nat           -- the local contribution's next chunk
  sentStep : Bool                -- the local contribution of the open step has been sent
  exhausted : Bool               -- SLOT_EXHAUSTED has been raised in the open step
  readyWait : Bool               -- a wait on READYOBJ stands
  delivered : Nat                -- owner: chunks accepted by the update unit
  held    : Bool                 -- owner: every chunk lies in the hold area
  shadow  : Bool                 -- owner: the shadow is complete
  shadowWritten : Bool           -- owner: some of the shadow has been written
  hyper   : List Byte            -- owner: the hyper-parameter block as read when the step's update began; empty before (R460)
  nextScales : Tab Byte          -- owner: next scales of R457, by block; 0 where none was computed
  ovfBlocks : List Nat
  nfBlocks : List Nat
  ovfRaised : Bool
  pending : List (Nat × RSlot)   -- chunks delivered to the update unit and not yet accepted
  gsq     : DWord
  wsq     : DWord
  dsq     : DWord
  gatherV : Option Word          -- V recorded by the first gather of the open step (R469)
  gatherBad : Bool
  gathered : List Nat            -- chunks received of the present gather or broadcast
  scalesGot : List Nat
  gathWait : Bool
  gathering : Bool               -- a gather has been requested and has not arrived whole
  deriving DecidableEq, Repr

/-- An installed plan (R439, R465-R480). -/
structure Plan where
  addr    : Nat
  job     : BitVec 12
  ctx     : BitVec 16
  self_   : Nat
  master  : Nat
  nmember : Nat
  mode    : Byte
  margin  : Nat
  normObj : BitVec 16
  stepObj : BitVec 16
  abortObj : BitVec 16
  maxNorm : Word
  members : Nat
  telem   : Nat
  telemSlots : Nat
  treeParent : Nat
  children : List Nat
  buckets : Tab (Option Bucket)
  nbucket : Nat
  openStep : Word
  version : Word
  state   : Nat
  telemIdx : Word
  lastToken : Nat                -- kind of the last token applied; 0 none
  tokenSent : Bool               -- the master has sent a token that closes the open step
  clipSent : Bool
  clip    : Word                 -- coefficient in force
  clipGot : Bool
  stopped : Bool                 -- no STATUS or NORM for the open step (R473)
  firstSent : Bool
  finalSent : Bool
  firstFrom : List (Nat × Nat × Nat × Nat)   -- first STATUS: member, NF, OVFBLOCKS, members reported
  finalFrom : List (Nat × Nat × Nat × Nat)
  norms   : List (Nat × DWord × Nat)          -- fold table: member, partial norm, NF
  normSent : Bool
  nfSeen  : Bool
  nfRaised : Bool
  ovfRaised : Bool               -- BLOCK_OVERFLOW raised in the open step (R455)
  deriving DecidableEq, Repr

/-- The reduction logic: plans by place, RED_CNT counters by offset / 8. -/
structure Red where
  plans  : Tab (Option Plan)
  counts : Tab DWord             -- 0 SLOT_WAIT_CYCLES … 5 NF_BLOCKS
  deriving DecidableEq, Repr

/-- An update unit (UPD_UNITn). -/
structure Upd where
  params : BitVec 48             -- parameters updated
  deriving DecidableEq, Repr

def Upd.reset : Upd := { params := 0 }

/-! Power. -/

/-- A HINT in force (R513). -/
structure HintInForce where
  at_    : Nat
  leadUs : Nat
  durUs  : Nat
  arrays : Byte
  kind   : Nat
  watts  : Nat
  deriving DecidableEq, Repr

/-- A rail dip in progress (R519, R520). -/
structure Dip where
  since  : Nat
  minMv  : BitVec 16
  raised : Bool
  deriving DecidableEq, Repr

/-- The margin plan of the boot flash (R526-R529): the offset at each point in units of 2.5 mV, FMAX, the baseline readings of the ring
oscillators, and the hours at which it was made. -/
structure Margin where
  offsets : Tab (List Int)       -- by array, 16 each
  baseline : Tab Nat             -- by ring oscillator
  fmax   : Tab Byte              -- FMAXn of PWR_FMAX, by array
  hubOff : Int                   -- offsets of VDD_HUB and VDD_SRAM in mV, within ±25
  sramOff : Int
  hours  : Word
  pending : BitVec 10
  deriving DecidableEq, Repr

/-- The power controller. -/
structure Pwr where
  maxW     : BitVec 16
  capW     : BitVec 16
  boardHalt : Bool
  floor    : Bool
  floorAt  : Nat
  capRaised : Bool
  duty     : Nat                 -- d, 1-8
  fMhz     : Nat
  uncappedW : BitVec 16
  cappedW  : BitVec 16
  summaryMs : Word
  stretch  : BitVec 2
  droopMv  : Byte
  fDie     : Tab Nat             -- F_die of AD0 and AD1
  hot      : Bool
  tj       : Tab (BitVec 12)     -- by die: 0 AD0, 1 hub, 2 AD1
  level    : Tab Nat             -- thermal level of each die: 0, 1 throttle, 2 limit
  halts    : DWord
  capLow   : Bool                -- CAP_IN_N is low
  overCurrent : Bool
  fast     : Byte
  ssc      : Bool
  sscNext  : Bool                -- CLK_SSC.ENABLE as written; taken at the next warm reset
  hints    : List HintInForce
  dips     : Tab (Option Dip)
  riseAt   : Tab Nat             -- last throttle rise of each die
  deriving DecidableEq, Repr

def Pwr.reset : Pwr :=
  { maxW := 1200, capW := 1200, boardHalt := false, floor := false, floorAt := 0, capRaised := false, duty := 8, fMhz := 2400, uncappedW := 0, cappedW := 0, summaryMs := 1000, stretch := 3, droopMv := 30, fDie := [], hot := false, tj := [],
    level := [], halts := 0, capLow := false, overCurrent := false, fast := 0, ssc := true, sscNext := true,
    hints := [], dips := [], riseAt := [] }

/-! Resets, boot, security. -/

/-- A reset in progress: its scope by the SCOPE code of R541 (4 function, 5 warm, 6 cold), its cause and its begin. -/
structure InReset where
  scope  : Nat
  source : Nat
  index  : Nat
  watchdog : Nat
  at_    : Nat
  counted : Bool
  captured : Bool
  deriving DecidableEq, Repr

/-- An array, port or HBM channel reset that has been requested and not completed: SCOPE 1 to 3 of R541, its unit, cause and begin, and the
admin RESET that its completion answers. For an HBM channel the index is 16 × stack + channel. -/
structure SmallReset where
  scope  : Nat
  index  : Nat
  source : Nat
  watchdog : Nat
  at_    : Nat
  req    : Option AdminReq
  began  : Option Nat := none    -- when an array or port reset asserted, which holds for 100 µs (R534)
  deriving DecidableEq, Repr

/-- The reset controller and the RST registers. -/
structure Rst where
  causeWatchdog : Byte
  causeScope : Byte
  causeSource : Byte
  causeIndex : Byte
  causeCounted : Bool
  causeCaptured : Bool
  cpEn     : Bool
  ferryEn  : Bool
  creditEn : Bool
  cpMs     : BitVec 16
  creditMs : BitVec 16
  ferryMs  : BitVec 16
  portHeld : BitVec 16
  arrWindowS : Byte
  arrLimit : BitVec 4
  dumpValid : Bool
  dumpComplete : Bool
  dumpSeq  : BitVec 16
  dumpBytes : Word
  capLen   : Tab (BitVec 16)
  capOff   : Tab (BitVec 16)
  small    : List SmallReset
  active   : Option InReset      -- held in a warm or cold module reset
  pending  : Option InReset      -- a module reset has been requested and the command that performs it has not come
  recovering : Option InReset    -- RESET_DONE has not yet been posted
  capturing : Option Nat         -- a capture runs since
  captureEvent : Bool            -- SAMPLE_CAPTURED is to be raised with RESET_DONE
  newlyMapped : Nat
  deriving DecidableEq, Repr

def Rst.reset : Rst :=
  { causeWatchdog := 0, causeScope := 6, causeSource := 1, causeIndex := 0, causeCounted := false, causeCaptured := false, cpEn := true,
    ferryEn := true, creditEn := true, cpMs := 100, creditMs := 10, ferryMs := 20, portHeld := 0, arrWindowS := 60, arrLimit := 4,
    dumpValid := false, dumpComplete := false, dumpSeq := 0, dumpBytes := 0, capLen := [], capOff := [], small := [], active := none,
    pending := none, recovering := none, capturing := none, captureEvent := false, newlyMapped := 0 }

/-- What survives every scope in the boot flash (R543, R559): repair record, power-on hours, reset log, latch, margin plan, firmware slots,
records, and the replay-protected counters. -/
structure Flash where
  marks    : Tab (List Nat)      -- marked pins by 32 × stack + pseudo-channel
  condemned : Tab (BitVec 16)    -- by stack
  reasons  : Tab Nat             -- reason of R274 by 16 × stack + channel
  cleared  : Bool                -- CLEAR_REPAIR has run; effective at the next warm reset (R273)
  poh      : Word
  resetLog : List Nat            -- power-on seconds of counted warm resets, newest first, at most 15
  oos      : Bool
  count24  : Nat
  margin   : Margin
  slotA    : Option Component
  slotB    : Option Component
  failsA   : Nat
  failsB   : Nat
  config   : List Component      -- accepted copies, newest first
  opkey    : List Component
  fwSvn    : BitVec 16
  cfgVersion : BitVec 16
  keyVersion : BitVec 16
  revoke   : BitVec 4
  rppOk    : Bool                -- the replay-protected partition authenticates (R565)
  planValid : Bool
  deriving DecidableEq, Repr

/-- The boot flash of a module as the model takes it at `State.reset` (DESIGN CHOICE, log 9): erased records. -/
def Flash.reset : Flash :=
  { marks := [], condemned := [], reasons := [], cleared := false, poh := 0, resetLog := [], oos := false, count24 := 0,
    margin := { offsets := [], baseline := [], fmax := [], hubOff := 0, sramOff := 0, hours := 0, pending := 0x3FF }, slotA := none, slotB := none, failsA := 0, failsB := 0,
    config := [], opkey := [], fwSvn := 0, cfgVersion := 0, keyVersion := 0, revoke := 0, rppOk := true, planValid := false }

/-- Boot state: straps, the running image, service level (R562-R573). -/
structure Boot where
  masterSel : Bool
  compatN  : Bool
  bootSrc  : BitVec 2
  trayPos  : BitVec 2
  slot     : Bool
  fwSvnRunning : BitVec 16
  image    : Option Component    -- the running firmware image
  cfg      : Option Component    -- the configuration record in use
  opKey    : Option (List Byte)
  identityOk : Bool
  level    : Nat
  cond     : BitVec 6
  fLimit   : BitVec 12
  trained  : BitVec 2            -- dies whose HBM has trained
  portsAt  : Option Nat          -- when the ports began to train
  resetEndAt : Nat
  numrev   : BitVec 16
  deriving DecidableEq, Repr

def Boot.reset : Boot :=
  { masterSel := false, compatN := true, bootSrc := 0, trayPos := 0, slot := false, fwSvnRunning := 0, image := none, cfg := none,
    opKey := none, identityOk := false, level := 0, cond := 0, fLimit := 1200, trained := 0, portsAt := none, resetEndAt := 0, numrev := 0 }

/-- A session number (R575-R577): free, reserved by a phase 1, or open with its key and last SEQ. -/
inductive Session where
  | free
  | reserved (transport : Nat) (nh nm : List Byte) (since : Nat)
  | opened (transport : Nat) (port : Option Nat) (key : List Byte) (seq : Option Nat)
  deriving DecidableEq, Repr

/-- Sessions and lockout (SEC registers, R578). -/
structure Sec where
  sessions : Tab Session
  fails    : Tab Nat             -- by transport, saturating at 7
  locked   : Tab (Option Nat)    -- by transport: when the lockout began
  refused  : Word
  deriving DecidableEq, Repr

def Sec.reset : Sec := { sessions := [], fails := [], locked := [], refused := 0 }

/-- The DBG block (R627-R629). -/
structure Dbg where
  enable : Bool
  busy   : Bool
  waiting : List (Option DWord)  -- accesses of DBG_DATA that wait for the one in progress: reads, and writes with their value (R628)
  err    : Bool
  space  : Bool
  addr   : BitVec 53             -- bits [55:3]
  deriving DecidableEq, Repr

def Dbg.reset : Dbg := { enable := false, busy := false, waiting := [], err := false, space := false, addr := 0 }

/-- The test access port: each die's instruction, and whether boundary cells have driven outputs since the last cold reset (R596, R598). -/
structure Tap where
  hub  : Byte
  ad0  : Byte
  ad1  : Byte
  used : Bool
  deriving DecidableEq, Repr

def Tap.reset : Tap := { hub := 1, ad0 := 1, ad1 := 1, used := false }

/-- One direction of a Span: its queues of flits (R17), oldest first, the flit on the wire with its queue, how often it has been replayed without
a break, and the place in the 2 : 1 : 1 rotation. -/
structure SpanLane where
  control : List Nat
  update  : List Nat
  ferry   : List Nat
  memory  : List Nat
  sending : Option (Nat × Nat)   -- queue (0 control, 1 update, 2 ferry, 3 memory) and flit
  replays : Nat
  turn    : Nat
  deriving DecidableEq, Repr

def SpanLane.reset : SpanLane := { control := [], update := [], ferry := [], memory := [], sending := none, replays := 0, turn := 0 }

/-- A Span: its direction from the hub to the die and back, and whether it has been reported hung (R17-R19). -/
structure Span where
  toDie : SpanLane
  toHub : SpanLane
  hung  : Bool
  deriving DecidableEq, Repr

def Span.reset : Span := { toDie := SpanLane.reset, toHub := SpanLane.reset, hung := false }

/-- Output pins whose level software or the tray sees (R545, R546, R606, R615). -/
structure Pins where
  rstOutN   : Bool
  alertN    : Bool
  thermTripN : Bool
  loadHintN : Bool
  deriving DecidableEq, Repr

/-- The module. -/
structure State where
  pending : List Instr           -- the commands that wait, first in, first out
  now     : Nat                  -- always-on periods since the last cold module reset; DEV_CLOCK0 is its low 48 bits
  ctrs    : Tab (BitVec 48)      -- domain counters of tags 1 to 6 (R40)
  fresh   : Nat                  -- the model's own: the number of the next free value
  out     : List Out             -- the model's own: what has left the module, newest first
  mem     : Memory
  compat  : Bool
  deterministic : Bool
  strapped : Bool
  hif     : Hif
  sync    : Sync
  ctxs    : Tab Ctx
  runs    : List Run
  runSeq  : Nat
  tables  : Tab CTable
  arrays  : Tab ArrayUnit
  tel     : Tel
  dsc     : Tab Dsc
  hbm     : Mem
  tier    : Tier
  engines : Tab Engine
  chk     : Tab Chk
  fab     : Fab
  red     : Red
  upd     : Tab Upd
  pwr     : Pwr
  rst     : Rst
  flash   : Flash
  boot    : Boot
  sec     : Sec
  dbg     : Dbg
  tap     : Tap
  spanW   : Span
  spanE   : Span
  eid     : Byte
  pldm    : List (BitVec 16)     -- PLDM events that wait for the board management controller, oldest first
  pins    : Pins
  deriving DecidableEq, Repr

/-- The module after a cold module reset of which the stretch has ended, with an empty boot flash (log 9) and the straps of `Boot.reset`:
every register field at its reset value, memory with nothing listed, service level 0, no command waiting. -/
def State.reset : State :=
  { pending := [], now := 0, ctrs := [], fresh := 0, out := [], mem := { cells := [], scrambled := [] }, compat := false,
    deterministic := true, strapped := false, hif := Hif.reset, sync := { objs := [], done := [] }, ctxs := [], runs := [], runSeq := 0,
    tables := [], arrays := [], tel := { live := [], snap := [], view := false, busy := false, moved := [] }, dsc := [], hbm := Mem.reset,
    tier := Tier.reset, engines := [], chk := [], fab := Fab.reset, red := { plans := [], counts := [] }, upd := [], pwr := Pwr.reset,
    rst := Rst.reset, flash := Flash.reset, boot := Boot.reset, sec := Sec.reset, dbg := Dbg.reset, tap := Tap.reset, spanW := Span.reset,
    spanE := Span.reset, eid := 0x20, pldm := [], pins := { rstOutN := false, alertN := false, thermTripN := true, loadHintN := true } }

end Sys2Proof.Machine
end

