-- ==== Sys2Proof/Machine/Ops.lean ====
section
/-!
DEFINITION. The named operations over the state that every family shares: when a command acts at all, memory and its mapping, events and
interrupts, synchronisation objects, completion of commands, faulting a context.
-/
namespace Sys2Proof.Machine

/-! When a command acts. -/

/-- What only the commands named for it change: the queue, the always-on time, the boot flash but for its repair record, the running
firmware and straps, the test access port, the endpoint identifier. -/
def State.settle (s t : State) : State :=
  { t with
    pending := s.pending, now := s.now, strapped := s.strapped, tap := s.tap, eid := s.eid,
    flash := { s.flash with marks := t.flash.marks, condemned := t.flash.condemned, reasons := t.flash.reasons },
    boot := { s.boot with level := t.boot.level, cond := t.boot.cond, fLimit := t.boot.fLimit, trained := t.boot.trained,
                          portsAt := t.boot.portsAt } }

/-- A functional command: it faults once boundary cells have driven the outputs (R598), waits out a module reset without effect (R533), and
otherwise has its effect. -/
def live (s : State) (f : State → State) : Host.Outcome State Fault Refusal :=
  if s.tap.used then .fault .boundaryScanUndefined
  else if s.rst.active.isSome then .next s
  else .next (s.settle (f s))

/-- A command of the management processor, whose effect may reach the boot flash and the boot state (R14). -/
def liveMp (s : State) (f : State → State) : Host.Outcome State Fault Refusal :=
  if s.tap.used then .fault .boundaryScanUndefined
  else if s.rst.active.isSome then .next s
  else .next { f s with pending := s.pending, now := s.now, strapped := s.strapped, tap := s.tap }

/-- A command of the reset controller: it acts during a module reset too. The queue and the test access port's latch are its own affair. -/
def liveReset (s : State) (f : State → State) : Host.Outcome State Fault Refusal :=
  if s.tap.used then .fault .boundaryScanUndefined else .next { f s with pending := s.pending }

/-! Access to the indexed groups. -/

def State.ctx (s : State) (c : Nat) : Ctx := Tab.get (fun _ => Ctx.reset) s.ctxs c
def State.setCtx (s : State) (c : Nat) (x : Ctx) : State := { s with ctxs := Tab.set (fun _ => Ctx.reset) s.ctxs c x }
def State.array (s : State) (a : Nat) : ArrayUnit := Tab.get (fun _ => ArrayUnit.reset) s.arrays a
def State.setArray (s : State) (a : Nat) (x : ArrayUnit) : State :=
  { s with arrays := Tab.set (fun _ => ArrayUnit.reset) s.arrays a x }
def State.engine (s : State) (e : Nat) : Engine := Tab.get (fun _ => Engine.reset) s.engines e
def State.setEngine (s : State) (e : Nat) (x : Engine) : State :=
  { s with engines := Tab.set (fun _ => Engine.reset) s.engines e x }
def State.port (s : State) (p : Nat) : Port := Tab.get (fun _ => Port.reset) s.fab.ports p
def State.setPort (s : State) (p : Nat) (x : Port) : State :=
  { s with fab := { s.fab with ports := Tab.set (fun _ => Port.reset) s.fab.ports p x } }
def State.stack (s : State) (n : Nat) : Stack := Tab.get (fun _ => Stack.reset) s.hbm.stk n
def State.setStack (s : State) (n : Nat) (x : Stack) : State :=
  { s with hbm := { s.hbm with stk := Tab.set (fun _ => Stack.reset) s.hbm.stk n x } }
def State.dscAt (s : State) (d : Nat) : Dsc := Tab.get (fun _ => Dsc.reset) s.dsc d
def State.setDsc (s : State) (d : Nat) (x : Dsc) : State := { s with dsc := Tab.set (fun _ => Dsc.reset) s.dsc d x }
def State.table (s : State) (t : Nat) : CTable := Tab.get (fun _ => CTable.reset) s.tables t
def State.setTable (s : State) (t : Nat) (x : CTable) : State := { s with tables := Tab.set (fun _ => CTable.reset) s.tables t x }
def State.ring (s : State) (r : Nat) : Option Ring := Tab.get (fun _ => none) s.hif.rings r
def State.setRing (s : State) (r : Nat) (x : Option Ring) : State :=
  { s with hif := { s.hif with rings := Tab.set (fun _ => none) s.hif.rings r x } }
def State.evring (s : State) (n : Nat) : EvRing := Tab.get EvRing.reset s.hif.evrings n
def State.setEvring (s : State) (n : Nat) (x : EvRing) : State :=
  { s with hif := { s.hif with evrings := Tab.set EvRing.reset s.hif.evrings n x } }
def State.obj (s : State) (o : Nat) : SyncObj := Tab.get (fun _ => SyncObj.reset) s.sync.objs o
def State.plan (s : State) (j : Nat) : Option Plan := Tab.get (fun _ => none) s.red.plans j
def State.setPlan (s : State) (j : Nat) (x : Option Plan) : State :=
  { s with red := { s.red with plans := Tab.set (fun _ => none) s.red.plans j x } }
def State.sendOut (s : State) (o : Out) : State := { s with out := o :: s.out }
def State.tick (s : State) : State := { s with fresh := s.fresh + 1 }

/-! Units in reset (R534, R535, R539). -/

def State.smallReset (s : State) (scope index : Nat) : Option SmallReset := s.rst.small.find? fun q => q.scope == scope && q.index == index

/-- Does a function reset run: from FUNCTION_RESET until its RESET_DONE? -/
def State.inFunctionReset (s : State) : Bool := match s.rst.recovering with | some r => r.scope == 4 | none => false

/-- Is a port held: in a reset, or held down (R534, R550)? -/
def State.portStays (s : State) (p : Nat) : Bool :=
  s.inFunctionReset || (s.smallReset 2 p).isSome || s.rst.portHeld.toNat.testBit p

/-! Memory. -/

/-- What an unlisted key reads as: undefined contents in a scrambled range, else 0 (log 11). -/
def Memory.bg (m : Memory) (k : Nat) : Byte :=
  match m.scrambled.find? fun r => decide (r.lo ≤ k) && decide (k < r.hi) with
  | some r => Config.freeByte r.epoch k
  | none => 0

def Memory.read (m : Memory) (k : Nat) : Byte := Tab.get m.bg m.cells k
def Memory.write (m : Memory) (k : Nat) (b : Byte) : Memory := { m with cells := Tab.set m.bg m.cells k b }
def Memory.readN (m : Memory) (k n : Nat) : List Byte := Tab.getMany m.bg m.cells k n
def Memory.writeN (m : Memory) (k : Nat) (bs : List Byte) : Memory := { m with cells := Tab.setMany m.bg m.cells k bs }

/-- Make a range undefined (R259, R542). -/
def Memory.scramble (m : Memory) (lo hi epoch : Nat) : Memory :=
  { cells := Tab.drop m.cells fun k => decide (lo ≤ k) && decide (k < hi), scrambled := ⟨lo, hi, epoch⟩ :: m.scrambled }

/-- Set a range to 0 (R386, R543). Its users name array windows only, which no scrambled range reaches. -/
def Memory.zero (m : Memory) (lo hi : Nat) : Memory :=
  { m with cells := Tab.drop m.cells fun k => decide (lo ≤ k) && decide (k < hi) }

/-- The canonical form: keys rising, no entry equal to what its key reads as unlisted. -/
def Memory.wf (m : Memory) : Bool := Tab.wf m.bg m.cells

/-! The device address map (R23, R26, R29-R32, R257, R294). -/

/-- A stack's capacity in bytes: 1.5 GiB for each live pseudo-channel (R257). -/
def Stack.cap (k : Stack) : Nat := k.live.length * 0x6000_0000

/-- The capacities of a die's twelve stacks. -/
def State.dieCaps (s : State) (d : Nat) : List Nat := (List.range 12).map fun i => (s.stack (12 * d + i)).cap

/-- Linear layout over the remaining capacities: stack within the die and offset beyond what is already used of it (R31, R32). -/
def linearPlace : List Nat → Nat → Nat → Option (Nat × Nat)
  | [], _, _ => none
  | c :: cs, i, d => if d < c then some (i, d) else linearPlace cs (i + 1) (d - c)

/-- Linear layout on a die, `base` bytes of every stack being already used. -/
def linearOnDie (die base : Nat) (caps : List Nat) (d : Nat) : Option (Nat × Nat) :=
  match linearPlace caps 0 d with
  | some (i, o) => some (12 * die + i, base + o)
  | none => none

/-- Is a die's range interleaved (MEM_HBM_ILV)? -/
def Mem.ilv (m : Mem) (die : Nat) : Bool := if die = 0 then m.ilvAd0 else m.ilvAd1

/-- The smallest of a die's capacities: S_min of R32. -/
def smallest : List Nat → Nat
  | [] => 0
  | [c] => c
  | c :: cs => min c (smallest cs)

/-- Interleaved layout: 4 KiB blocks rotate over the twelve stacks up to 12 × S_min, and the rest is linear (R32). -/
def ilvPlace (die : Nat) (caps : List Nat) (sMin d : Nat) : Option (Nat × Nat) :=
  if d < 12 * sMin then some (12 * die + (d / 4096) % 12, (d / 4096) / 12 * 4096 + d % 4096)
  else linearOnDie die sMin (caps.map fun c => c - sMin) (d - 12 * sMin)

/-- The stack and the offset within it of die offset `d` (R31, R32). -/
def State.diePlace (s : State) (die d : Nat) : Option (Nat × Nat) :=
  if s.hbm.ilv die then ilvPlace die (s.dieCaps die) (smallest (s.dieCaps die)) d else linearOnDie die 0 (s.dieCaps die) d

/-- The base of AD1's range (R29). -/
def ad1Base : Nat := 0x90_0000_0000

/-- The end of HBM's nominal range (R23). -/
def hbmEnd : Nat := 0x120_0000_0000

def isHbm (a : Nat) : Bool := decide (a < hbmEnd)
def dieOf (a : Nat) : Nat := if a < ad1Base then 0 else 1
def region (a : Nat) : Nat := a / 2 ^ 48
def regionOff (a : Nat) : Nat := a % 2 ^ 48

/-- Stack and stack offset of an HBM address. -/
def State.hbmPlace (s : State) (a : Nat) : Option (Nat × Nat) :=
  if a < ad1Base then s.diePlace 0 a else if a < hbmEnd then s.diePlace 1 (a - ad1Base) else none

/-- Does stack `n` hold every byte of a range? Consecutive 4 KiB blocks lie in one stack or begin to rotate, so the ends and the second block decide
it (R31, R32). -/
def State.heldIn (s : State) (n a len : Nat) : Bool :=
  let here (b : Nat) : Bool := match s.hbmPlace b with | some (m, _) => m == n | none => false
  let second := (a / 4096 + 1) * 4096
  len == 0 || (here a && here (a + len - 1) && (decide (a + len ≤ second) || here second))

/-- The key that a device address reaches; `none` where it is unmapped (R23, R30, R294). -/
def State.key (s : State) (a : Nat) : Option Nat :=
  match region a with
  | 0 => (s.hbmPlace a).map fun (n, o) => n * 2 ^ 36 + o
  | 1 => if regionOff a < s.tier.ddrUsableMib.toNat * 2 ^ 20 then some a else none
  | 2 => if regionOff a < 0x2000_0000 then some a else none
  | 3 => if regionOff a < s.hbm.rslotSlices.toNat * 1024 * 4096 then some a else none
  | 4 => some a
  | _ => none

def State.mapped (s : State) (a : Nat) : Bool := (s.key a).isSome

/-- Is every byte of a range mapped? A range lies in one region of consecutive addresses, so its ends decide it. -/
def State.mappedRange (s : State) (a n : Nat) : Bool :=
  n = 0 || (s.mapped a && s.mapped (a + n - 1) && region a == region (a + n - 1) && (region a != 0 || dieOf a == dieOf (a + n - 1)))

/-- One byte at a device address. An unmapped address reads all ones, and its readers check first. -/
def State.rd (s : State) (a : Nat) : Byte :=
  match s.key a with
  | some k => s.mem.read k
  | none => 0xFF

/-- Consecutive bytes at a device address. -/
def State.rdN (s : State) (a n : Nat) : List Byte := (List.range n).map fun i => s.rd (a + i)

/-- A little-endian number of `n` bytes at a device address. -/
def State.rdLe (s : State) (a n : Nat) : Nat := leNat (s.rdN a n)

/-- The key of a host bus address. -/
def hostKey (a : Nat) : Nat := 2 ^ 50 + a

/-- The first byte key of flash object `id`. -/
def flashKey (id off : Nat) : Nat := 2 ^ 72 + id * 2 ^ 48 + off

/-- The codeword of an HBM address: key / 32 (R261). -/
def State.codeword (s : State) (a : Nat) : Nat := ((s.key a).getD 0) / 32

def State.isPoisoned (s : State) (a : Nat) : Bool := isHbm a && Tab.get (fun _ => false) s.hbm.poisoned (s.codeword a)

/-- Channels of board DDR5 that have trained, ascending (R297). -/
def State.ddrTrained (s : State) : List Nat := (List.range 8).filter fun c => s.tier.ddrChannels.getLsbD c

/-- The channel that serves a DDR5 address: 256-byte granules rotate over the trained channels (R297). -/
def State.ddrChannel (s : State) (a : Nat) : Nat := s.ddrTrained.getD (regionOff a / 256 % s.ddrTrained.length) 0

/-- x4 devices in error in the 64-byte burst of an address, as read now: a free value (R298; log 19). -/
def State.ddrDevices (s : State) (a : Nat) : Nat := Config.ddrDevices (s.ddrChannel a) (a / 64) s.fresh

/-- Is the burst of an address uncorrectable as read now? One device is corrected, two are always detected, and more are by a free choice
(R298, R300). -/
def State.ddrBurstBad (s : State) (a : Nat) : Bool :=
  s.ddrDevices a == 2 || (decide (2 < s.ddrDevices a) && Config.ddrDetects (a / 64) s.fresh)

/-- The bursts of a range, by address. -/
def burstsOf (a n : Nat) : List Nat := (List.range ((a + n + 63) / 64 - a / 64)).map fun i => 64 * (a / 64 + i)

/-- The first uncorrectable burst of a DDR5 range. -/
def State.ddrBad (s : State) (a n : Nat) : Option Nat := (burstsOf a n).find? s.ddrBurstBad

/-- Does a range hold poisoned data, or does a read of it in DDR5 find it uncorrectable (R300)? While the PCI Express link is down, host memory
reads as poisoned (R585). -/
def State.poisonIn (s : State) (a n : Nat) : Bool :=
  if region a = 4 then !s.hif.up
  else if region a = 1 then (s.ddrBad a n).isSome
  else if s.hbm.poisoned = [] then false
  else (List.range (n / 32 + 2)).any fun i => decide (32 * i < n + a % 32) && s.isPoisoned (a - a % 32 + 32 * i)

/-! Stall counters (R252, R255, R630). -/

/-- Add to counter `c` of engine `e`. -/
def State.countStall (s : State) (e c n : Nat) : State :=
  { s with tel := { s.tel with live := Tab.modify (fun _ => (0 : DWord)) s.tel.live (16 * e + c) fun v => v + BitVec.ofNat 64 n } }

/-- A hub engine has made progress in the present reference period. -/
def State.hubMoved (s : State) (e : Nat) : State := if s.tel.moved.contains e then s else { s with tel := { s.tel with moved := e :: s.tel.moved } }

/-! Interrupts and events. -/

/-- The domain counter of a timestamp tag (R35, R40). -/
def State.clockAt (s : State) (tag : Nat) : BitVec 48 :=
  if tag = 0 then BitVec.ofNat 48 s.now
  else if tag < 8 then Tab.get (fun _ => 0) s.ctrs tag
  else (s.array (tag - 8)).counter

/-- The timestamp tag of a source (R35, R252, R631, R638). -/
def domainOf (source : Nat) : Nat :=
  if source < 128 then (if source % 16 < 7 then 8 + source / 16 else if source / 16 < 4 then 3 else 4)
  else if source < 132 then 3 + (source - 128) / 2
  else if source < 144 then 1
  else if source < 168 then (if source - 144 < 12 then 5 else 6)
  else if source < 0x100 then 1
  else if source < 0x120 then (if source - 0x100 < 12 then 5 else 6)
  else if source = 0x131 then 0
  else if source = 0x132 then 2
  else 1

def srcHbm (n : Nat) : Nat := 0x100 + n
def srcPort (p : Nat) : Nat := 0x120 + p
def srcPower : Nat := 0x130
def srcReset : Nat := 0x131
def srcMp : Nat := 0x132
def srcTier : Nat := 0x133
def srcCache : Nat := 0x134
def srcRed : Nat := 0x135
def srcPcie : Nat := 0x136
def srcSched : Nat := 0x137
def srcSwitch : Nat := 0x138

/-- Raise an MSI-X vector: a masked vector becomes pending, an unmasked one sends its message; nothing is sent while the link is down
(R585, R589). -/
def State.msix (s : State) (v : Nat) : State :=
  if !s.hif.up then s
  else
    let e := Tab.get (fun _ => MsixEntry.reset) s.hif.msix v
    if s.hif.functionMask || e.masked then
      { s with hif := { s.hif with msix := Tab.set (fun _ => MsixEntry.reset) s.hif.msix v { e with pending := true } } }
    else s.sendOut (.msix v)

/-- The slots of an event ring: 2^k, k = SIZE_LOG2 + 6, values above 10 taken as 10. -/
def EvRing.slots (r : EvRing) : Nat := 2 ^ (6 + min r.sizeLog2.toNat 10)

/-- Records written and not yet released by the host: W − H. -/
def EvRing.unread (r : EvRing) : Nat := (r.w - r.h).toNat

/-- The bytes of a record in slot order: format 2, or format 1 in compatibility mode (R358, R372). -/
def Event.bytes (e : Event) (compat phase : Bool) (hub : BitVec 48) : List Byte :=
  if compat then
    leBytes 2 e.code.toNat ++ leBytes 1 (bit phase) ++ leBytes 1 (if e.ctx = 0xFFFF then 0xFF else e.ctx.toNat % 64)
      ++ leBytes 4 hub.toNat ++ padTo 8 e.payload
  else
    leBytes 2 e.code.toNat ++ leBytes 1 (bit phase) ++ leBytes 1 e.domain ++ leBytes 2 e.ctx.toNat ++ leBytes 2 e.source.toNat
      ++ leBytes 6 e.time.toNat ++ leBytes 2 0 ++ padTo 16 e.payload

/-- Write a record to slot W mod 2^k, advance W, and raise the ring's vector when COAL_COUNT records wait (R358, R360). -/
def State.writeRecord (s : State) (n : Nat) (e : Event) : State :=
  let r := s.evring n
  let phase := r.w.toNat / r.slots % 2 = 0
  let bs := e.bytes s.compat phase (s.clockAt 1)
  let at_ := r.base.toNat * 4096 + r.w.toNat % r.slots * (if s.compat then 16 else 32)
  let s := { s with mem := s.mem.writeN (hostKey at_) bs }
  let due := decide (max 1 r.coalCount.toNat ≤ r.sinceIrq + 1)
  let r := { r with
    w := r.w + 1
    sinceIrq := if due then 0 else r.sinceIrq + 1
    firstAt := if due then none else (match r.firstAt with | some t => some t | none => some s.now) }
  let s := s.setEvring n r
  if due then s.msix r.vector.toNat else s

/-- One event lost on a ring (R359, R585). -/
def State.loseEvent (s : State) (n : Nat) : State :=
  let r := s.evring n
  s.setEvring n { r with lost := satInc r.lost }

/-- Place an event on an enabled or disabled ring (R355-R359, R557, R585). An event for a ring that is not enabled and holds none is not
written (log 12). -/
def State.place (s : State) (n : Nat) (e : Event) : State :=
  let r := s.evring n
  if !r.enable then
    if n = 0 && s.hif.holding then
      if s.hif.held.length < 64 then { s with hif := { s.hif with held := s.hif.held ++ [e] } } else s.loseEvent 0
    else s
  else if !s.hif.up then s.loseEvent n
  else if r.dropping then s.loseEvent n
  else if r.unread + 1 = r.slots then
    let o : Event := { e with code := 0x0507, ctx := 0xFFFF, payload := leBytes 1 n ++ leBytes 3 0 ++ leBytes 4 r.w.toNat }
    let s := (s.writeRecord n o).loseEvent n
    let r := s.evring n
    s.setEvring n { r with dropping := true }
  else s.writeRecord n e

/-- Raise an event: it enters the record log, the text log and, for the power, reset and security groups, the PLDM queue (R555, R593-R595),
and is placed on its ring. -/
def State.raiseOn (s : State) (ring code : Nat) (ctx : BitVec 16) (source : Nat) (payload : List Byte) : State :=
  let e : Event := { code := BitVec.ofNat 16 code, domain := domainOf source, ctx := ctx, source := BitVec.ofNat 16 source,
                     time := s.clockAt (domainOf source), payload := padTo 16 payload }
  let s := { s with hif := { s.hif with eventLog := (e.bytes false (decide ((s.evring ring).w.toNat / (s.evring ring).slots % 2 = 0)) 0
                                                     :: s.hif.eventLog).take 256 } }
  let s := s.sendOut (.eventText e.code)
  let s := if 0x0600 ≤ code then { s with pldm := s.pldm ++ [e.code], pins := { s.pins with alertN := false } } else s
  s.place ring e

/-- CTXID of a context: identifier and present generation (R347). -/
def State.ctxid (s : State) (c : Nat) : BitVec 16 := BitVec.ofNat 16 (c % 64 + 64 * (s.ctx c).gen.toNat)

/-- Raise an event on a context's CEVRING (R357). -/
def State.raiseCtx (s : State) (c code source : Nat) (payload : List Byte) : State :=
  s.raiseOn (s.ctx c).cevring code (s.ctxid c) source payload

/-- Raise an event on ring 0 that concerns no context. -/
def State.raise0 (s : State) (code source : Nat) (payload : List Byte) : State := s.raiseOn 0 code 0xFFFF source payload

/-- Does the identifier name a context that exists, and of the given generation (R350, R374, R403)? -/
def State.ctxLive (s : State) (id : BitVec 16) : Option Nat :=
  let c := id.toNat % 64
  if (s.ctx c).state ≠ 0 ∧ (s.ctx c).gen.toNat = id.toNat / 64 then some c else none

/-- Count a stale packet, and report the first of each identifier and generation (R403). -/
def State.stale (s : State) (src : BitVec 16) (id : BitVec 16) (vc : Nat) (port : Option Nat) : State :=
  let s' := { s with hif := { s.hif with staleDrops := s.hif.staleDrops + 1 } }
  if s.hif.staleSeen.contains id then s'
  else
    let s' := { s' with hif := { s'.hif with staleSeen := id :: s'.hif.staleSeen } }
    s'.raise0 0x0406 (match port with | some p => srcPort p | none => srcSwitch) (leBytes 2 src.toNat ++ leBytes 2 id.toNat ++ leBytes 1 vc)

/-! Synchronisation objects (R361-R365). -/

/-- The party whose waits leave together when one of them is taken. -/
def Waiter.sameAny (a b : Waiter) : Bool :=
  match a, b with
  | .syncAny k _, .syncAny l _ => k == l
  | .step a i _, .step b j _ => a == b && i == j
  | _, _ => false

/-- Is a wait a command's own? -/
def Waiter.ofCmd (w : Waiter) (key : CmdKey) : Bool :=
  match w with
  | .waitobj k | .syncWait k _ | .syncAny k _ => k == key
  | _ => false

/-- Position of a waiter in its own list. -/
def Waiter.pos : Waiter → Nat
  | .syncAny _ j => j
  | .step _ _ j => j
  | _ => 0

def Sync.obj (y : Sync) (o : Nat) : SyncObj := Tab.get (fun _ => SyncObj.reset) y.objs o
def Sync.setObj (y : Sync) (o : Nat) (x : SyncObj) : Sync := { y with objs := Tab.set (fun _ => SyncObj.reset) y.objs o x }

/-- Take every wait that a test selects out of every queue. -/
def Sync.leave (y : Sync) (p : Waiter → Bool) : Sync :=
  { y with objs := y.objs.foldl (fun t (o, x) =>
      Tab.set (fun _ => SyncObj.reset) t o { x with queue := x.queue.filter fun w => !p w.who }) y.objs }

/-- The objects at whose head a satisfied wait of the same WAIT_ANY stands. -/
def Sync.headsOf (y : Sync) (w : Waiter) : List (Nat × Wait) :=
  y.objs.filterMap fun (o, x) =>
    match x.queue with
    | h :: _ => if w.sameAny h.who && decide (h.n ≤ x.count) then some (o, h) else none
    | [] => none

/-- Let the head waits of the listed objects complete, one at a time (R361, R363, R364). The fuel is the number of waits and of objects to
look at, and each round uses one up. -/
def Sync.run : Nat → List Nat → Sync → Sync
  | 0, _, y => y
  | _ + 1, [], y => y
  | n + 1, o :: rest, y =>
    let x := y.obj o
    match x.queue with
    | [] => Sync.run n rest y
    | w :: ws =>
      if x.count < w.n then Sync.run n rest y
      else
        match w.who with
        | .syncAny _ _ | .step _ _ _ =>
          let heads := y.headsOf w.who
          let best := heads.foldl (fun (b : Nat × Wait) h => if h.2.who.pos < b.2.who.pos then h else b) (o, w)
          let z := y.obj best.1
          let y := y.setObj best.1 { z with count := if best.2.takes then z.count - best.2.n else z.count }
          let touched := y.objs.filterMap fun (p, q) => if q.queue.any (fun v => v.who.sameAny w.who) then some p else none
          let y := { y.leave (fun v => v.sameAny w.who) with done := y.done ++ [best.2.who] }
          Sync.run n (touched ++ o :: rest) y
        | who =>
          let y := y.setObj o { x with count := if w.takes then x.count - w.n else x.count, queue := ws }
          Sync.run n (o :: rest) { y with done := y.done ++ [who] }

/-- Enough rounds for every wait that stands and every object that one completion can touch. -/
def Sync.fuel (y : Sync) : Nat :=
  let w := y.objs.foldl (fun n e => n + e.2.queue.length) 0
  (w + 1) * (w + 2) + 1

def Sync.examine (y : Sync) (os : List Nat) : Sync := Sync.run (y.fuel + os.length) os y

/-- The objects in whose queues a selected wait stands. -/
def Sync.queuesOf (y : Sync) (p : Waiter → Bool) : List Nat :=
  y.objs.filterMap fun (o, x) => if x.queue.any fun w => p w.who then some o else none

/-- Forget every wait that a test selects: out of every queue, and out of the completed ones. A satisfied wait that stood behind one of them
then completes (R363). -/
def Sync.forget (y : Sync) (p : Waiter → Bool) : Sync :=
  { y.leave p with done := y.done.filter fun w => !p w }.examine (y.queuesOf p)

/-- SIGNAL n: add, saturating with SAT (R361, R362). -/
def SyncObj.signal (x : SyncObj) (n : Word) : SyncObj :=
  if x.count.toNat + n.toNat < 2 ^ 32 then { x with count := x.count + n } else { x with count := 0xFFFFFFFF, sat := true }

def State.signal (s : State) (o : Nat) (n : Word) : State :=
  { s with sync := (s.sync.setObj o ((s.sync.obj o).signal n)).examine [o] }

/-- SET v: the count, and SAT is cleared (R361, R362). -/
def State.setSync (s : State) (o : Nat) (v : Word) : State :=
  { s with sync := (s.sync.setObj o { s.sync.obj o with count := v, sat := false }).examine [o] }

/-- Queue waits on their objects at once, and let what is satisfied complete. -/
def State.enqueue (s : State) (ws : List (Nat × Wait)) : State :=
  let y := ws.foldl (fun y (o, w) => y.setObj o { y.obj o with queue := (y.obj o).queue ++ [w] }) s.sync
  { s with sync := y.examine (ws.map Prod.fst) }

/-- Has a wait completed whose owner has not yet acted on it? -/
def State.waited (s : State) (w : Waiter) : Bool := s.sync.done.contains w

/-- Forget a completed wait. -/
def State.consume (s : State) (w : Waiter) : State := { s with sync := { s.sync with done := s.sync.done.erase w } }

/-- The absolute object of a context-relative number, where the context's range holds it (R367). -/
def State.objOf (s : State) (c i : Nat) : Option Nat :=
  if i < (s.ctx c).syncCount then some ((s.ctx c).syncBase + i) else none

/-- Signal a context-relative object; 0xFFFF names none. -/
def State.signalRel (s : State) (c i : Nat) (n : Word) : State :=
  if i = 0xFFFF then s else match s.objOf c i with | some o => s.signal o n | none => s

/-! Commands in flight. -/

def State.cmd (s : State) (k : CmdKey) : Option Cmd := s.hif.cmds.find? fun c => c.key == k
def State.setCmds (s : State) (l : List Cmd) : State := { s with hif := { s.hif with cmds := l } }
def State.updCmd (s : State) (k : CmdKey) (f : Cmd → Cmd) : State :=
  s.setCmds (s.hif.cmds.map fun c => if c.key == k then f c else c)
def State.dropCmd (s : State) (k : CmdKey) : State := s.setCmds (s.hif.cmds.filter fun c => c.key != k)

def Cmd.cls (c : Cmd) : Nat := fieldAt c.desc 0 1
def Cmd.flags (c : Cmd) : Nat := fieldAt c.desc 1 1
def Cmd.ctxid (c : Cmd) : BitVec 16 := BitVec.ofNat 16 (fieldAt c.desc 2 2)
def Cmd.ctx (c : Cmd) : Nat := fieldAt c.desc 2 2 % 64
def Cmd.waitobj (c : Cmd) : Nat := fieldAt c.desc 4 2
def Cmd.sigobj (c : Cmd) : Nat := fieldAt c.desc 6 2
def Cmd.tag (c : Cmd) : Nat := fieldAt c.desc 8 4
def Cmd.evring (c : Cmd) : Nat := fieldAt c.desc 12 1
/-- The class fields, from byte 0x10 of the descriptor. -/
def Cmd.fld (c : Cmd) (off len : Nat) : Nat := fieldAt c.desc (0x10 + off) len

/-- The unit that raises a command's events: its command processor, the management processor for the admin ring, the context scheduler for an
entry of a cyclic table. -/
def keySource (k : CmdKey) : Nat := if k.ring = 0x100 then srcMp else if 0x200 ≤ k.ring then srcSched else 132 + k.ring % 4

/-- COMMAND_DONE's payload (R354). -/
def donePayload (tag : Nat) (k : CmdKey) (status result gen : Nat) : List Byte :=
  leBytes 4 tag ++ leBytes 4 k.count.toNat ++ leBytes 2 k.ring ++ leBytes 1 status ++ leBytes 1 result ++ leBytes 2 gen ++ leBytes 2 0

/-- DESCRIPTOR_INVALID's payload (R352). -/
def invalidPayload (tag : Nat) (k : CmdKey) (reason detail : Nat) : List Byte :=
  leBytes 4 tag ++ leBytes 4 k.count.toNat ++ leBytes 2 k.ring ++ leBytes 1 reason ++ leBytes 1 0 ++ leBytes 4 detail

/-- The vector that a command's ring raises with FLAGS.IRQ; 0xFFFF is none (R338). -/
def State.raiseCvec (s : State) (ring : Nat) : State :=
  match s.ring ring with
  | some r => if r.cvec.toNat < 2048 then s.msix r.cvec.toNat else s
  | none => s

/-- COMMAND_DONE of an admin-ring request, whatever its FLAGS.EVT (R351). The admin ring has no CVEC. -/
def State.adminDone (s : State) (r : AdminReq) (status : Nat) : State :=
  let ev := fieldAt r.desc 0x0C 1
  s.raiseOn (if ev < 16 then ev else 0) 0x0506 0xFFFF srcMp (donePayload (fieldAt r.desc 8 4) ⟨0x100, r.count⟩ status 0 0)

/-- A ring whose deletion goes on is deleted once none of its commands is left, and its RING_DELETE completes (R346). -/
def State.finishDelete (s : State) (ring : Nat) : State :=
  match s.ring ring with
  | some r =>
    (match r.deleting with
     | some req =>
       if s.hif.cmds.any fun c => c.key.ring == ring then s
       else
         let s := s.setRing ring none
         (match req with | some q => s.adminDone q 0 | none => s)
     | none => s)
  | none => s

/-- The count of an instance's RUN: 64 × period + entry (log 23). -/
def instanceCount (i : Instance) : Word := BitVec.ofNat 32 (64 * i.period + i.entry)

/-- A stopping table without a started instance is installed again, and its TABLE STOP is performed (R399). -/
def State.settleTable (s : State) (t : Nat) : State :=
  let x := s.table t
  if x.state = 3 ∧ x.insts = [] then
    let s := s.setTable t { x with state := 1, stopCmd := none }
    match x.stopCmd with
    | some k => s.updCmd k fun c => { c with phase := .performed }
    | none => s
  else s

/-- An entry's RUN has completed or was rejected: its instance leaves the table (R397). -/
def State.instanceDone (s : State) (k : CmdKey) : State :=
  if k.ring < 0x200 then s
  else
    let t := k.ring - 0x200
    let x := s.table t
    (s.setTable t { x with insts := x.insts.filter fun i => instanceCount i != k.count }).settleTable t

/-- Is a command a CTX CREATE? -/
def Cmd.creates (c : Cmd) : Bool := c.cls == 5 && c.fld 0 1 == 1

/-- Complete a command: SIGOBJ on success, then COMMAND_DONE, then CVEC (R353, R354), in that order; it leaves the list, its table and a
ring that is being deleted. A CTX CREATE's record carries its context as it is now. -/
def State.complete (s : State) (c : Cmd) (status result gen : Nat) : State :=
  let s := s.dropCmd c.key
  let s := { s with sync := s.sync.forget fun w => w.ofCmd c.key }
  let s := if status = 0 then s.signalRel c.ctx c.sigobj 1 else s
  let s := if status ≠ 0 ∨ bitOf c.flags 0 then
      s.raiseOn c.evring 0x0506 (if !c.creates then c.ctxid else if status = 0 then s.ctxid c.ctx else 0xFFFF) (keySource c.key) (donePayload c.tag c.key status result gen)
    else s
  let s := if bitOf c.flags 2 then s.raiseCvec c.key.ring else s
  (s.instanceDone c.key).finishDelete c.key.ring

/-- Complete every command that a test selects, oldest first. -/
def State.completeAll (s : State) (p : Cmd → Bool) (status : Nat) : State :=
  (s.hif.cmds.filter p).foldl (fun s c => s.complete c status 0 0) s

/-- The context that a rejected descriptor names, as its event carries it: none for a CTX CREATE, or where the context is not what the
descriptor says (R352, R358; log 17). -/
def State.rejectedCtx (s : State) (d : List Byte) (reason : Nat) : BitVec 16 :=
  let id := BitVec.ofNat 16 (fieldAt d 2 2)
  if reason = 3 ∨ (fieldAt d 0 1 = 5 ∧ fieldAt d 0x10 1 = 1) ∨ (s.ctxLive id).isNone then 0xFFFF else id

/-- Reject a fetched descriptor (R352). -/
def State.rejectDesc (s : State) (k : CmdKey) (ctx : BitVec 16) (tag evring reason detail : Nat) : State :=
  s.raiseOn (if evring < 16 then evring else 0) 0x0505 ctx (keySource k) (invalidPayload tag k reason detail)

/-! RUNs and their arrays. -/

def State.runOf (s : State) (k : CmdKey) : Option Run := s.runs.find? fun r => r.key == k
def State.updRun (s : State) (k : CmdKey) (f : Run → Run) : State :=
  { s with runs := s.runs.map fun r => if r.key == k then f r else r }
def State.runOnArray (s : State) (a : Nat) : Option Run :=
  match (s.array a).owner with
  | some k => s.runOf k
  | none => none

/-- The commands of a context. A CTX CREATE names only an identifier (R350), so it belongs to no context yet. -/
def Cmd.ofCtx (c : Nat) (x : Cmd) : Bool := x.cls != 8 && x.ctx == c && !x.creates

/-- Does a wait belong to a RUN or an engine of a context? -/
def State.waitOfCtx (s : State) (c : Nat) (w : Waiter) : Bool :=
  let onArray (a : Nat) := match s.runOnArray a with | some r => r.ctx == c | none => false
  match w with
  | .waitobj k | .syncWait k _ | .syncAny k _ => (match s.cmd k with | some x => x.ofCtx c | none => false)
  | .step a _ _ => onArray a
  | .slot a _ => onArray a
  | .landing e => (s.engine e).work.any fun x => x.ctx == c
  | _ => false

/-- Every engine drops its work and dispatches of a context (R381, R402). -/
def abandonWork (c : Nat) (es : Tab Engine) : Tab Engine :=
  es.foldl (fun (t : Tab Engine) (eg : Nat × Engine) =>
    Tab.set (fun _ => Engine.reset) t eg.1
      { eg.2 with
        work := eg.2.work.filter fun w => w.ctx != c
        dispatches := eg.2.dispatches.filter fun d => d.ctx != c
        held := if eg.2.work.head?.any fun (w : Work) => w.ctx == c then 0 else eg.2.held
        noProg := if eg.2.work.head?.any fun (w : Work) => w.ctx == c then 0 else eg.2.noProg }) es

/-- The controller that reported the first poisoned codeword from an address on: the unit that raised the HBM_UNCORRECTED of a context's fault
(R638). -/
def State.poisonUnit (s : State) (a : Nat) : Nat :=
  let p := (((List.range 129).map fun i => a - a % 32 + 32 * i).find? fun b => s.isPoisoned b).getD a
  match s.hbmPlace p with
  | some (n, _) => srcHbm n
  | none => srcCache

/-! Stationary registers (R50). -/

def ArrayUnit.block (x : ArrayUnit) (reg : Nat) : RegBlock := if reg = 0 then x.s0 else x.s1
def ArrayUnit.setBlock (x : ArrayUnit) (reg : Nat) (b : RegBlock) : ArrayUnit := if reg = 0 then { x with s0 := b } else { x with s1 := b }

/-- A register takes fresh undefined values (R636). -/
def State.undefine (s : State) (a reg : Nat) : State :=
  let x := s.array a
  (s.setArray a (x.setBlock reg { x.block reg with hist := [], epoch := s.fresh })).tick

/-- An array abandons its wake loads: those in progress leave undefined values, those that wait never start (R71, R636). -/
def State.abandonLoads (s : State) (a : Nat) : State :=
  let began (reg : Nat) : Bool := (s.array a).loads.any fun l => l.reg == reg && l.started
  let s := [0, 1].foldl (fun (s : State) reg => if began reg then s.undefine a reg else s) s
  s.setArray a { s.array a with loads := [] }

/-- Every array that runs a RUN of a context abandons its loads. -/
def State.abandonCtxLoads (s : State) (c : Nat) : State :=
  (List.range 8).foldl (fun (s : State) a => match s.runOnArray a with
    | some r => if r.ctx = c then s.abandonLoads a else s
    | none => s) s

/-- The check-value units that records of the given engines hold are free again (R335). -/
def State.freeUnits (s : State) (es : List Nat) : State :=
  { s with chk := s.chk.foldl (fun (t : Tab Chk) u =>
      Tab.set (fun _ => Chk.reset) t u.1 (if u.2.owner.any es.contains then { u.2 with owner := none } else u.2)) s.chk }

/-- The work of a context's engines, loads and waits ends: abandoned, with the check-value units of its records in progress and what its arrays'
banks were held for (R28, R335, R381, R402). -/
def State.abandonCtx (s : State) (c : Nat) : State :=
  let s := s.abandonCtxLoads c
  let gone := (s.engines.filter fun e => e.2.work.any fun w => w.ctx == c).map Prod.fst
  let s := s.freeUnits ((s.engines.filter fun e => e.2.work.head?.any fun w => w.ctx == c).map Prod.fst)
  let s := { s with sync := s.sync.forget (s.waitOfCtx c), engines := abandonWork c s.engines }
  (List.range 8).foldl (fun (s : State) a =>
    let x := s.array a
    s.setArray a { x with bankWait := x.bankWait.filter fun e => !gone.contains e }) s

/-- Fault a context (R381): its arrays stop issuing, its engines and waits are abandoned, its commands complete with STATUS 2 (those not
started first), and CTX_FAULTED is raised once. Only the first cause is kept. -/
def State.faultCtx (s : State) (c cause array code source detail : Nat) : State :=
  let x := s.ctx c
  if x.state = 0 ∨ x.state = 5 ∨ x.state = 6 then s
  else
    let mine := s.runs.filter fun (r : Run) => r.ctx == c
    let tag : Nat := match mine.find? fun r => (s.array array).owner == some r.key with
      | some r => r.tag.toNat
      | none => (match mine with | r :: _ => r.tag.toNat | [] => 0)
    let s := s.setCtx c { x with state := 5, fault := BitVec.ofNat 8 cause }
    let s := s.abandonCtx c
    let s := s.completeAll (fun y => y.ofCtx c && y.phase == Phase.fetched) 2
    let s := s.completeAll (fun y => y.ofCtx c) 2
    let s := { s with runs := s.runs.filter (fun (r : Run) => r.ctx != c) }
    let code := if code = 0x0302 ∧ !isHbm detail then 0 else code
    s.raiseCtx c 0x0508 (if code = 0x0302 then s.poisonUnit detail else source) (leBytes 1 cause ++ leBytes 1 array ++ leBytes 2 code ++ leBytes 4 tag ++ leBytes 8 detail)

/-- Remove an installed plan with its slots, its fences, its waits and every open step (R440). -/
def State.removePlan (s : State) (j : Nat) : State :=
  let s := s.setPlan j none
  { s with sync := s.sync.forget fun w => match w with | .ready p _ | .gath p _ => p == j | _ => false }

/-! Packets. -/

/-- Put a packet of this module into the switch (R418-R425); the switch routes it with PACKET_ROUTE. -/
def State.inject (s : State) (p : Packet) : State := { s with fab := { s.fab with inject := s.fab.inject ++ [p] } }

/-- An empty packet to a device. -/
def packetTo (dst src : BitVec 16) (vc : Fin 8) (type : BitVec 5) (hops : Byte) : Packet :=
  { dst := dst, src := src, vc := vc, type := type, isLocal := false, job := 0, ctx := 0xFFFF, hops := hops, bucket := 0, step := 0,
    arg := 0, payload := [] }

/-- Flits of a packet (R419). -/
def flitsOf (p : Packet) : Nat := ceilDiv (32 + p.payload.length) 244

/-- Flits that occupy a port's receive buffer for channel `v`: received packets, packets delivered here, and packets that wait at an output. -/
def State.bufUsed (s : State) (p v : Nat) : Nat :=
  let x := s.port p
  let sum (l : List Nat) : Nat := l.foldl (· + ·) 0
  sum ((x.rx.filter fun f => f.1 == v).map fun _ => 1)
    + sum ((x.rxPackets.filter fun f => f.2.vc.val == v).map Prod.fst)
    + sum ((s.fab.inbox.filter fun e => e.1 == some p && e.2.vc.val == v).map fun e => flitsOf e.2)
    + sum (s.fab.ports.map fun e =>
        sum ((((Tab.get (fun _ => []) e.2.queues v) ++ e.2.sending.toList).filter
          fun (q : Option Nat × Packet) => q.1 == some p && q.2.vc.val == v).map fun q => flitsOf q.2))

/-- A packet's flits leave the receive buffer of the port it came in by: its credits go back, and a pause that has become unnecessary is
released (R415, R435). -/
def State.freeFlits (s : State) (port : Option Nat) (p : Packet) : State :=
  match port with
  | none => s
  | some q =>
    let x := s.port q
    let v := p.vc.val
    let x := { x with freed := Tab.set (fun _ => 0) x.freed v (Tab.get (fun _ => 0) x.freed v + flitsOf p) }
    let s := s.setPort q x
    let a := 16 * (x.alloc.getD v 0).toNat
    if x.curMode = 2 ∧ bitOf x.pausedRx.toNat v ∧ 3 * a ≤ 4 * (a - s.bufUsed q v) then
      (s.setPort q { x with pausedRx := BitVec.ofNat 8 (setBitOf x.pausedRx.toNat v false) }).sendOut (.pfc q v false)
    else s

/-- Is a delivered packet at the head of its virtual channel, the oldest of those that came by its port (R418, R452)? -/
def State.atHead (s : State) (e : Option Nat × Packet) : Bool :=
  (s.fab.inbox.find? fun f => f.1 == e.1 && f.2.vc == e.2.vc) == some e

/-- Is a delivered packet of the token-dispatch channel next: neither behind a hand-off packet of its input port (R487) nor behind a packet of its
source, type and context (R418)? -/
def State.inTurn (s : State) (e : Option Nat × Packet) : Bool :=
  (s.fab.inbox.find? fun f => f == e || (f.2.vc == e.2.vc && ((f.1 == e.1 && f.2.type == 8)
    || (f.2.src == e.2.src && f.2.type == e.2.type && f.2.ctx == e.2.ctx)))) == some e

/-- Take a delivered packet that `ready` lets go, freeing its flits; `none` where no such packet waits. -/
def State.receiveIf (s : State) (ready : Option Nat × Packet → Bool) (p : Packet) : Option (Option Nat × State) :=
  match s.fab.inbox.find? fun e => e.2 == p && ready e with
  | some e => some (e.1, State.freeFlits { s with fab := { s.fab with inbox := s.fab.inbox.erase e } } e.1 p)
  | none => none

/-- Take a delivered packet that is at the head of its channel. -/
def State.receive (s : State) (p : Packet) : Option (Option Nat × State) := s.receiveIf s.atHead p

end Sys2Proof.Machine
end

