-- ==== Sys2Proof/Machine/Operands.lean ====
section
/-!
DEFINITION. The operand forms of the commands: BAR0 accesses and their halves (R586), access types of register fields (R4), and the fields
of descriptors and records.
-/
namespace Sys2Proof.Machine

/-- The register value after an access: an RW field changes only in the bytes written (R586). -/
def mergeBar (w : BarWrite) (old : Nat) : Nat :=
  match w.half with
  | .full => w.value.toNat
  | .low => old / 2 ^ 32 * 2 ^ 32 + w.value.toNat % 2 ^ 32
  | .high => w.value.toNat % 2 ^ 32 * 2 ^ 32 + old % 2 ^ 32

/-- The bits that an access writes as 1, at their places in the register: what W1C and WO fields see. -/
def onesOf (w : BarWrite) : Nat :=
  match w.half with
  | .full => w.value.toNat
  | .low => w.value.toNat % 2 ^ 32
  | .high => w.value.toNat % 2 ^ 32 * 2 ^ 32

/-- Does an access reach the half that holds bit `i`? -/
def reaches (h : Half) (i : Nat) : Bool :=
  match h with
  | .full => true
  | .low => decide (i < 32)
  | .high => decide (32 ≤ i)

/-- What a read of the given half returns of a register value, right-aligned. -/
def halfOf (h : Half) (v : Nat) : DWord :=
  match h with
  | .full => BitVec.ofNat 64 v
  | .low => BitVec.ofNat 64 (v % 2 ^ 32)
  | .high => BitVec.ofNat 64 (v / 2 ^ 32 % 2 ^ 32)

/-- Lay a field of `len` bits at bit `lo` of a register. -/
def fld (lo len v : Nat) : Nat := v % 2 ^ len * 2 ^ lo

/-- A written field of `len` bits at bit `lo`, as a bit vector. -/
def fieldBv (len v lo : Nat) : BitVec len := BitVec.ofNat len (bits v lo len)

/-- "A write of 0 is taken as 1." -/
def atLeastOne (v : Nat) : Nat := if v = 0 then 1 else v

/-- Is BAR0 offset `off` the register at `base + i × step` for some i below `n`? Its index. -/
def indexed (off base step n : Nat) : Option Nat :=
  if base ≤ off ∧ off < base + step * n ∧ (off - base) % step = 0 then some ((off - base) / step) else none

end Sys2Proof.Machine
end

