-- ==== Sys2Proof/Machine/Flags.lean ====
section
/-!
DEFINITION. Status, flag and counter computations: array clocks and holds, service conditions, and the value of every BAR0 register as a read
returns it.
-/
namespace Sys2Proof.Machine

/-! Array clocks (R92, R93, R505, R523, R529). -/

/-- F_die of a die: 0 AD0, 1 AD1. -/
def State.fDie (s : State) (d : Nat) : Nat := Tab.get (fun _ => 2400) s.pwr.fDie d

/-- FMAX_MHZ of an array: units of 120 MHz above 600. Without a valid plan it limits nothing (R526). -/
def State.fmaxMhz (s : State) (a : Nat) : Nat :=
  if s.flash.planValid then 600 + 120 * (Tab.get (fun _ => 0) s.flash.margin.fmax a).toNat else 2400

/-- The frequency that R93 gives an array: the lowest of its target, the power controller's limits and the service level's limit. At service
level 0 no array runs. -/
def State.arrayMhz (s : State) (a : Nat) : Nat :=
  if s.boot.level = 0 then 0
  else min (s.array a).targetMhz.toNat
    (min (min s.pwr.fMhz (s.fDie (a / 4))) (min (s.fmaxMhz a) s.boot.fLimit.toNat))

/-- Let array `a`'s clock follow its limits: a lower frequency applies at once, a higher one waits for its rail (R507, R604). -/
def State.reclock (s : State) (a : Nat) : State :=
  let x := s.array a
  if s.arrayMhz a < x.curMhz.toNat then s.setArray a { x with curMhz := BitVec.ofNat 12 (s.arrayMhz a) } else s

/-- Let every array's clock follow its limits downward. -/
def State.reclockAll (s : State) : State := (List.range 8).foldl State.reclock s

/-- Raise the clocks of one die's arrays to what their limits allow: its rail has reached its target (R507, R604). -/
def State.raiseClocks (s : State) (d : Nat) : State :=
  (List.range 4).foldl (fun s i =>
    let a := 4 * d + i
    s.setArray a { s.array a with curMhz := BitVec.ofNat 12 (s.arrayMhz a) }) s

/-- Does an array's clock run? It is stopped at CUR_MHZ = 0 and while a rail dip pauses it (R519). -/
def State.clockRuns (s : State) (a : Nat) : Bool := (s.array a).curMhz != 0 && (s.array a).paused == 0

/-- The thermal level of a die: 0 AD0, 1 hub, 2 AD1. -/
def State.thermal (s : State) (die : Nat) : Nat := Tab.get (fun _ => 0) s.pwr.level die

/-- Is an array held by the board limit, or by the limit level of its die or of the hub (R512, R523)? -/
def State.heldByPower (s : State) (a : Nat) : Bool :=
  s.pwr.boardHalt || s.thermal (if a < 4 then 0 else 2) == 2 || s.thermal 1 == 2

/-! Service (R571-R573). -/

def State.contextExists (s : State) : Bool := s.ctxs.any fun e => e.2.state != 0
def State.planExists (s : State) : Bool := s.red.plans != []
def State.ringExists (s : State) : Bool := s.hif.rings != []

/-! Registers as a read returns them (R4, R624, R625). -/

/-- Marked pins of a pseudo-channel from the repair record (R273). -/
def State.marks (s : State) (stack q : Nat) : List Nat := Tab.get (fun _ => []) s.flash.marks (32 * stack + q)
def State.condemned (s : State) (stack : Nat) : BitVec 16 := Tab.get (fun _ => 0) s.flash.condemned stack

/-- Present capacity of a die in GiB (MEM_HBM_CAP). -/
def State.capGib (s : State) (die : Nat) : Nat := 576 - 3 * (if die = 0 then s.hbm.mappedAd0 else s.hbm.mappedAd1).toNat

/-- The capability record (R369). -/
def State.capRecord (s : State) : List Byte :=
  leBytes 2 2 ++ leBytes 2 s.boot.numrev.toNat ++ leBytes 1 8 ++ leBytes 1 (if s.compat then 1 else 2) ++ leBytes 2 16 ++ leBytes 2 16
    ++ leBytes 2 2048 ++ leBytes 2 4096 ++ leBytes 2 0x3FFF ++ leBytes 4 0xFF ++ leBytes 4 49152 ++ leBytes 4 8192 ++ leBytes 4 262144
    ++ leBytes 4 (s.capGib 0 + s.capGib 1) ++ leBytes 4 s.tier.ddrUsableMib.toNat ++ leBytes 4 s.tier.flashUsableGib.toNat
    ++ leBytes 2 (if s.compat then 4096 else 16384) ++ leBytes 2 256 ++ leBytes 1 16 ++ leBytes 1 64 ++ leBytes 1 8 ++ leBytes 1 64
    ++ leBytes 1 16 ++ leBytes 1 0xF0 ++ leBytes 1 4 ++ leBytes 1 16 ++ leBytes 1 0x0F ++ leBytes 1 6 ++ leBytes 2 2048
    ++ List.replicate 196 0

/-- A session's byte of SEC_SESSION. -/
def sessionByte (x : Session) : Nat :=
  match x with
  | .free => 0
  | .reserved t _ _ _ => 2 + fld 2 2 t
  | .opened t _ _ _ => 1 + fld 2 2 t

def State.session (s : State) (i : Nat) : Session := Tab.get (fun _ => .free) s.sec.sessions i
def State.fails (s : State) (t : Nat) : Nat := Tab.get (fun _ => 0) s.sec.fails t
def State.locked (s : State) (t : Nat) : Bool := (Tab.get (fun _ => none) s.sec.locked t).isSome

/-- Is any session open? -/
def State.anyOpen (s : State) : Bool := (List.range 4).any fun i => match s.session i with | .opened _ _ _ _ => true | _ => false

/-- End the sessions that a test selects: the contexts that their rings created belong to no later session (R350), and DBG_CTL.ENABLE returns to 0
when the last one closes (R577, R627). -/
def State.endSessions (s : State) (p : Nat → Bool) : State :=
  let s : State := { s with
    sec := { s.sec with sessions := Tab.drop s.sec.sessions p }
    ctxs := s.ctxs.map fun (e : Nat × Ctx) => (e.1, if p e.2.session && e.2.state != 0 then { e.2 with session := 0xFF } else e.2) }
  if s.anyOpen then s else { s with dbg := { s.dbg with enable := false } }

/-- Array resets from watchdogs 1 and 2 within the present window (R549). -/
def State.arrResets (s : State) (a : Nat) : Nat :=
  ((s.array a).resetTimes.filter fun t => decide (s.now < t + s.rst.arrWindowS.toNat * 100000000)).length

/-- Sizes of the regions of one state copy of a shard, in order (R459). -/
def shardSizes (desc : List Byte) (nchunk : Nat) (beta1Zero : Bool) : List Nat :=
  let n := 1024 * nchunk
  let opt := fieldAt desc 0x28 1
  let mofmt := fieldAt desc 0x2A 1
  let cfmt := fieldAt desc 0x2B 1 % 16
  let mom : Nat := match mofmt with | 1 => 4 * n | 2 => 2 * n | _ => n + n / 32
  let comp : Nat := match cfmt with | 1 => 0 | 2 => 2 * n | 3 => 2 * n | 6 => n + n / 32 | 7 => n * 3 / 4 + n / 32 | _ => n / 2 + n / 32
  [4 * n,
   if opt = 4 ∧ beta1Zero then 0 else mom,
   if opt = 2 then mom else 0,
   if opt = 4 then 4 * fieldAt desc 0x20 4 + 4 * fieldAt desc 0x24 4 else 0,
   comp]

/-- Offsets of the regions in a copy, each 4 KiB aligned, and the copy's end. -/
def shardOffsets (sizes : List Nat) : List Nat :=
  (sizes.foldl (fun (acc : List Nat × Nat) z => (acc.1 ++ [acc.2], roundUp (acc.2 + z) 4096)) ([], 0)).1
    ++ [sizes.foldl (fun e z => roundUp (e + z) 4096) 0]

/-- Is BETA1 of a shard's hyper-parameter block 0? -/
def State.beta1Zero (s : State) (desc : List Byte) : Bool := s.rdLe (fieldAt desc 0x10 8 + 0x08) 4 % 2 ^ 31 = 0

/-- The state copies and the hold area of an owned bucket, as (base, bytes, is the hold area). -/
def State.shardRanges (s : State) (b : Bucket) : List (Nat × Nat × Bool) :=
  if b.shard = 0 then []
  else
    let desc := s.rdN b.shard 64
    let len := (shardOffsets (shardSizes desc b.nchunk (s.beta1Zero desc))).getLastD 0
    [(fieldAt desc 0 8, len, false), (fieldAt desc 8 8, len, false)]
      ++ (if fieldAt desc 0x18 8 = 0 then [] else [(fieldAt desc 0x18 8, 1024 * b.nchunk + 32 * b.nchunk, true)])

/-- The update unit of an owned bucket: that of the stack which holds both state copies and the hold area; none where no one stack holds them, and
then no unit updates the bucket (R13, R437). -/
def State.unitOf (s : State) (b : Bucket) : Option Nat :=
  match s.shardRanges b with
  | [] => none
  | r :: rs => match s.hbmPlace r.1 with
    | some (n, _) => if (r :: rs).all fun q => s.heldIn n q.1 q.2.1 then some n else none
    | none => none

/-- What a bucket gives its update unit to do: 0 nothing, 1 streaming, 2 holding, 3 updating from the hold area (R464). -/
def State.bucketWork (s : State) (p : Plan) (b : Bucket) : Nat :=
  if b.shadow then 0
  else if b.held then (if b.shadowWritten then 3 else 2)
  else if b.delivered = 0 then 0
  else if bits p.mode.toNat 1 2 = 0 ∧ s.rdLe (b.shard + 0x28) 1 ≠ 4 then 1 else 2

/-- UPD_UNITn.STATE: the greatest of what the unit's buckets give it to do (log 27). -/
def State.unitState (s : State) (n : Nat) : Nat :=
  s.red.plans.foldl (fun k e =>
    match e.2 with
    | none => k
    | some p => p.buckets.foldl (fun k b =>
        match b.2 with
        | none => k
        | some b => if s.unitOf b = some n then max k (s.bucketWork p b) else k) k) 0

/-- Buckets whose shard is owned here and lies in stack `n` (R436, R439). -/
def State.ownedIn (s : State) (n : Nat) : Nat :=
  s.red.plans.foldl (fun k e =>
    match e.2 with
    | none => k
    | some p => p.buckets.foldl (fun k b =>
        match b.2 with
        | none => k
        | some b => if b.shard ≠ 0 ∧ ((s.hbmPlace (s.rdLe b.shard 8)).map Prod.fst) = some n then k + 1 else k) k) 0

def regDevcfg (s : State) : Nat := fld 2 1 (bit s.strapped) + fld 1 1 (bit s.deterministic) + bit s.compat

def regEvcfg (r : EvRing) : Nat :=
  fld 48 16 r.lost.toNat + fld 32 16 r.coalUs.toNat + fld 24 8 r.coalCount.toNat + fld 10 11 r.vector.toNat + fld 5 5 r.headErr.toNat
    + fld 1 4 r.sizeLog2.toNat + bit r.enable

def regAdminCfg (r : AdminRing) : Nat := fld 3 61 r.headptr.toNat + fld 1 2 r.size.toNat + bit r.enable

def regCtx (x : Ctx) : Nat := fld 32 16 x.slowdown.toNat + fld 24 8 x.fault.toNat + fld 10 10 x.gen.toNat + fld 0 3 x.state

/-- Periods begun since START: counted while the table runs, and kept from then on (R396). -/
def CTable.begun (x : CTable) (now : Nat) : Nat :=
  if x.state = 2 then (if x.startNow ≤ now then (now - x.startNow) / x.period + 1 else 0) else x.periods.toNat

def regTable (now : Nat) (x : CTable) : Nat := fld 40 24 x.overruns.toNat + fld 8 32 (x.begun now) + fld 0 2 x.state

def regObj (x : SyncObj) : Nat := fld 40 8 (min 255 x.queue.length) + fld 32 1 (bit x.sat) + x.count.toNat

def regArrClk (s : State) (a : Nat) : Nat :=
  fld 32 12 (if s.clockRuns a then (s.array a).curMhz.toNat else 0) + (s.array a).targetMhz.toNat

def regArrStatus (x : ArrayUnit) : Nat :=
  fld 16 8 x.fault.toNat + fld 8 6 x.ctx.toNat + fld 5 1 (bit x.actReg) + fld 3 2 x.mode.toNat + fld 0 3 x.state

def regArrWdog (x : ArrayUnit) : Nat := fld 31 1 (bit x.wdogEn) + x.wdogLimit.toNat

def regErrcfg (m : Mem) : Nat :=
  fld 48 8 m.scrubHours.toNat + fld 32 16 m.ceReport.toNat + fld 24 8 m.ueCondemn.toNat + fld 16 8 m.ceCondemnLog2.toNat
    + m.pinMark.toNat

def regScCfg (m : Mem) : Nat := fld 16 16 (1024 * m.rslotSlices.toNat) + fld 8 1 (bit m.ddrCache) + m.rslotSlices.toNat

/-- Live channels of a stack: those of which a pseudo-channel is in the live list. -/
def Stack.liveMask (k : Stack) : Nat := maskOf ((List.range 16).filter fun c => k.live.contains (2 * c))

def regStack (s : State) (n : Nat) : Nat :=
  fld 32 16 (s.condemned n).toNat + fld 16 16 (s.stack n).liveMask + fld 0 6 (3 * ((s.stack n).live.length / 2))

def Stack.pc (k : Stack) (q : Nat) : Pchan := Tab.get (fun _ => Pchan.reset) k.pcs q
def Stack.chan (k : Stack) (c : Nat) : Chan := Tab.get (fun _ => Chan.reset) k.chans c

def regPc (s : State) (n q : Nat) : Nat :=
  fld 32 32 ((s.stack n).pc q).ce.toNat + fld 24 8 ((s.stack n).chan (q / 2)).ue.toNat
    + fld 12 6 ((s.marks n q).getD 1 0x3F) + fld 6 6 ((s.marks n q).getD 0 0x3F)

def regPortCfg (x : Port) : Nat :=
  fld 48 16 x.retrainMs.toNat + fld 40 8 x.retryLimit.toNat + fld 24 16 x.retryTo.toNat + fld 4 2 x.framing.toNat + fld 2 2 x.rate.toNat
    + x.mode.toNat

def regPortStatus (x : Port) : Nat :=
  fld 32 16 x.peer.toNat + fld 31 1 (bit x.peerValid) + fld 8 4 x.lastDown.toNat + fld 0 3 x.state

def regVcbuf (x : Port) : Nat := leNat (x.alloc.take 8)

def regJob (p : Option Plan) : Nat :=
  match p with
  | none => 0
  | some p => fld 32 32 p.openStep.toNat + fld 16 12 p.job.toNat + fld 3 1 (bit (decide (p.self_ = p.master))) + fld 0 3 p.state

def regJobV (p : Option Plan) : Nat :=
  match p with
  | none => 0
  | some p => fld 32 32 p.telemIdx.toNat + p.version.toNat

def State.updAt (s : State) (n : Nat) : Upd := Tab.get (fun _ => Upd.reset) s.upd n

def regPwrStatus (p : Pwr) : Nat :=
  fld 63 1 (bit p.boardHalt) + fld 62 1 (bit p.floor) + fld 59 3 (p.duty - 1) + fld 32 12 p.fMhz + fld 16 16 p.uncappedW.toNat
    + p.cappedW.toNat

def State.tj (s : State) (die : Nat) : Nat := (Tab.get (fun _ => 0) s.pwr.tj die).toNat

def regTherm (s : State) : Nat :=
  fld 52 12 (s.fDie 1) + fld 40 12 (s.fDie 0) + fld 32 1 (bit s.pwr.hot) + fld 20 12 (s.tj 2) + fld 8 12 (s.tj 1) + fld 0 8 (s.tj 0 / 10)

def regMargin (s : State) : Nat :=
  fld 32 32 s.flash.poh.toNat + fld 16 16 (min 0xFFFF (s.flash.poh.toNat - s.flash.margin.hours.toNat)) + s.flash.margin.pending.toNat

def regFmax (s : State) : Nat :=
  (List.range 8).foldl (fun v n => v + fld (8 * n) 8 (Tab.get (fun _ => 0) s.flash.margin.fmax n).toNat) 0

def regCause (r : Rst) : Nat :=
  fld 40 8 r.causeWatchdog.toNat + fld 32 8 r.causeScope.toNat + fld 24 8 r.causeSource.toNat + fld 16 8 r.causeIndex.toNat
    + fld 1 1 (bit r.causeCounted) + bit r.causeCaptured

def regRstWdog (r : Rst) : Nat :=
  fld 63 1 (bit r.cpEn) + fld 62 1 (bit r.ferryEn) + fld 61 1 (bit r.creditEn) + fld 32 16 r.cpMs.toNat + fld 16 16 r.creditMs.toNat
    + r.ferryMs.toNat

/-- OOS_THRESHOLD of the configuration record in use; 3 without one or for a record value of 0 (R552, R567). -/
def State.oosThreshold (s : State) : Nat :=
  match s.boot.cfg with
  | some c => if c.oosThreshold = 0 then 3 else c.oosThreshold.toNat
  | none => 3

def regEsc (s : State) : Nat :=
  fld 48 16 s.rst.portHeld.toNat
    + (List.range 8).foldl (fun v n => v + fld (4 * n + 16) 4 (min 15 (s.arrResets n))) 0
    + fld 8 8 s.rst.arrWindowS.toNat + fld 4 4 s.rst.arrLimit.toNat + fld 0 4 s.oosThreshold

def regLog (f : Flash) : Nat := fld 63 1 (bit f.oos) + fld 32 4 f.count24 + fld 0 32 (f.resetLog.headD 0)

def regDump (r : Rst) : Nat :=
  fld 63 1 (bit r.dumpValid) + fld 62 1 (bit r.dumpComplete) + fld 32 16 r.dumpSeq.toNat + r.dumpBytes.toNat

def regCapcfg (r : Rst) (a : Nat) : Nat :=
  fld 16 16 (Tab.get (fun _ => 0) r.capLen a).toNat + (Tab.get (fun _ => 0) r.capOff a).toNat

def regBoot (s : State) : Nat :=
  fld 48 16 (match s.boot.cfg with | some c => c.version.toNat | none => 0) + fld 32 16 s.flash.fwSvn.toNat
    + fld 16 16 s.boot.fwSvnRunning.toNat + fld 5 2 s.boot.trayPos.toNat + fld 4 1 (bit s.boot.masterSel) + fld 2 2 s.boot.bootSrc.toNat
    + bit s.boot.slot

def regService (b : Boot) : Nat := fld 16 6 b.cond.toNat + fld 2 12 b.fLimit.toNat + fld 0 2 b.level

def regLockout (s : State) : Nat :=
  fld 32 32 s.sec.refused.toNat + fld 12 3 (s.fails 2) + fld 9 3 (s.fails 1) + fld 6 3 (s.fails 0) + fld 2 1 (bit (s.locked 2))
    + fld 1 1 (bit (s.locked 1)) + bit (s.locked 0)

def regPcie (h : Hif) : Nat := fld 12 1 (bit h.up) + fld 11 1 (bit h.flitMode) + fld 8 3 h.speed.toNat + fld 0 5 h.width.toNat

def regBar4 (h : Hif) : Nat := fld 48 16 h.unmapped.toNat + fld 30 18 h.bar4Base.toNat

def regChkCfg (c : Chk) : Nat :=
  fld 32 8 c.entriesLog2.toNat + fld 24 5 c.chunkLog2.toNat + fld 14 1 (bit c.tap) + fld 13 1 (bit c.addrSide) + fld 12 1 (bit c.fold)
    + fld 11 1 (bit c.invert) + fld 10 1 (bit c.refout) + fld 9 1 (bit c.refin) + fld 0 7 c.width.toNat

def State.chkAt (s : State) (u : Nat) : Chk := Tab.get (fun _ => Chk.reset) s.chk u

/-- A register of a check-value unit by its offset in the unit. -/
def regChk (c : Chk) (o : Nat) : Nat :=
  match o with
  | 0x00 => regChkCfg c
  | 0x08 => c.poly.toNat
  | 0x10 => c.init.toNat
  | 0x18 => c.resbase.toNat
  | 0x20 => c.seq.toNat
  | 0x28 => fld 32 1 (bit c.owner.isSome) + c.index.toNat
  | _ => 0

def regMsix (e : MsixEntry) (half : Nat) : Nat := if half = 0 then e.addr.toNat else fld 32 1 (bit e.masked) + e.data.toNat

/-- Array block registers. -/
def regArr (s : State) (a o : Nat) : Nat :=
  match o with
  | 0x00 => regArrClk s a
  | 0x08 => regArrStatus (s.array a)
  | 0x10 => (s.array a).tiles.toNat
  | 0x18 => regArrWdog (s.array a)
  | 0x20 => (s.array a).detail.toNat
  | _ => 0

/-- Port block registers. -/
def regPort (s : State) (p o : Nat) : Nat :=
  match o with
  | 0x00 => regPortCfg (s.port p)
  | 0x08 => regPortStatus (s.port p)
  | 0x10 => regVcbuf (s.port p)
  | _ => if 0x18 ≤ o then (Tab.get (fun _ => (0 : DWord)) (s.port p).counters ((o - 0x18) / 8)).toNat else 0

/-- The 64-bit value of the register at BAR0 offset `off` (a multiple of 8); an offset that holds no register reads 0 (R586, R624). Reading
clears nothing here: the read-clear rows do that. -/
def bar0Read (s : State) (off : Nat) : Nat :=
  if off = 0x0 then 0x2408_B1_00_1FA7
  else if off = 0x10 then regDevcfg s
  else if off = 0x20 then fld 16 8 0xB1 + s.boot.numrev.toNat
  else if off = 0x28 then regBoot s
  else if off = 0x30 then regService s.boot
  else if 0x100 ≤ off ∧ off < 0x180 then (s.clockAt ((off - 0x100) / 8)).toNat
  else if 0x1000 ≤ off ∧ off < 0x1100 then fieldAt s.capRecord (off - 0x1000) 8
  else if off = 0x10000 then (List.range 4).foldl (fun v i => v + fld (8 * i) 8 (sessionByte (s.session i))) 0
  else if off = 0x10008 then regLockout s
  else if 0x20000 ≤ off ∧ off < 0x20200 then
    (match (off - 0x20000) % 0x20 with
     | 0x00 => fld 12 52 (s.evring ((off - 0x20000) / 0x20)).base.toNat
     | 0x08 => regEvcfg (s.evring ((off - 0x20000) / 0x20))
     | _ => 0)
  else if off = 0x20200 then fld 12 52 s.hif.admin.base.toNat
  else if off = 0x20208 then regAdminCfg s.hif.admin
  else if off = 0x20300 then s.hif.staleDrops.toNat
  else if off = 0x20400 then regPcie s.hif
  else if off = 0x20408 then regBar4 s.hif
  else if 0x21000 ≤ off ∧ off < 0x21200 then regCtx (s.ctx ((off - 0x21000) / 8))
  else if 0x22000 ≤ off ∧ off < 0x22080 then
    (if (off - 0x22000) % 0x10 = 0 then regTable s.now (s.table ((off - 0x22000) / 0x10)) else (s.table ((off - 0x22000) / 0x10)).s.toNat)
  else if 0x30000 ≤ off ∧ off < 0x38000 then
    regMsix (Tab.get (fun _ => MsixEntry.reset) s.hif.msix ((off - 0x30000) / 0x10)) ((off - 0x30000) % 0x10 / 8)
  else if 0x38000 ≤ off ∧ off < 0x38100 then
    maskOf ((List.range 64).filter fun i => (Tab.get (fun _ => MsixEntry.reset) s.hif.msix (8 * (off - 0x38000) + i)).pending)
  else if 0x48000 ≤ off ∧ off < 0x68000 then regObj (s.obj ((off - 0x48000) / 8))
  else if 0x100000 ≤ off ∧ off < 0x180000 then regArr s ((off - 0x100000) / 0x10000) (off % 0x10000)
  else if off = 0x200000 then 2 * bit s.hbm.ilvAd1 + bit s.hbm.ilvAd0
  else if off = 0x200008 then
    fld 40 8 s.hbm.mappedAd1.toNat + fld 32 8 s.hbm.mappedAd0.toNat + fld 16 16 (s.capGib 1) + s.capGib 0
  else if off = 0x200010 then regErrcfg s.hbm
  else if off = 0x200018 then regScCfg s.hbm
  else if 0x200100 ≤ off ∧ off < 0x2001C0 then regStack s ((off - 0x200100) / 8)
  else if 0x201000 ≤ off ∧ off < 0x202800 then regPc s ((off - 0x201000) / 0x100) (off % 0x100 / 8)
  else if off = 0x240000 then fld 40 8 s.tier.ddrSpeed.toNat + fld 32 8 s.tier.ddrChannels.toNat + s.tier.ddrUsableMib.toNat
  else if off = 0x240008 then fld 32 32 s.tier.flashFreeGib.toNat + s.tier.flashUsableGib.toNat
  else if off = 0x300000 then fld 31 1 (bit s.fab.valid) + fld 16 8 s.fab.hopLimit.toNat + s.fab.id.toNat
  else if off = 0x300010 then
    fld 63 1 (bit s.fab.tagged) + fld 48 12 s.fab.vlan.toNat + fld 32 16 s.fab.etherType.toNat + s.fab.pfx.toNat
  else if 0x300100 ≤ off ∧ off < 0x300130 then (Tab.get (fun _ => (0 : DWord)) s.fab.drops ((off - 0x300100) / 8)).toNat
  else if 0x301000 ≤ off ∧ off < 0x301400 then regPort s ((off - 0x301000) / 0x40) (off % 0x40)
  else if 0x310000 ≤ off ∧ off < 0x310800 then (Tab.get (fun _ => (0 : BitVec 16)) s.fab.groups ((off - 0x310000) / 8)).toNat
  else if 0x310800 ≤ off ∧ off < 0x311000 then (Tab.get (fun _ => (0 : BitVec 16)) s.fab.members ((off - 0x310800) / 8)).toNat
  else if 0x340000 ≤ off ∧ off < 0x340030 then (Tab.get (fun _ => (0 : DWord)) s.red.counts ((off - 0x340000) / 8)).toNat
  else if 0x340100 ≤ off ∧ off < 0x340300 then
    (match (off - 0x340100) % 0x20 with
     | 0x00 => regJob (s.plan ((off - 0x340100) / 0x20))
     | 0x08 => regJobV (s.plan ((off - 0x340100) / 0x20))
     | _ => 0)
  else if 0x380000 ≤ off ∧ off < 0x380180 then
    (if off % 0x10 = 0 then
      fld 16 48 (s.updAt ((off - 0x380000) / 0x10)).params.toNat + fld 8 8 (s.ownedIn ((off - 0x380000) / 0x10))
        + fld 0 2 (s.unitState ((off - 0x380000) / 0x10))
     else 0)
  else if off = 0x400000 then fld 32 16 s.pwr.maxW.toNat + s.pwr.capW.toNat
  else if off = 0x400008 then regPwrStatus s.pwr
  else if off = 0x400010 then fld 32 32 s.pwr.summaryMs.toNat + fld 8 2 s.pwr.stretch.toNat + s.pwr.droopMv.toNat
  else if off = 0x400018 then regTherm s
  else if off = 0x400020 then regMargin s
  else if off = 0x400028 then regFmax s
  else if off = 0x400030 then s.pwr.halts.toNat
  else if off = 0x400040 then s.pwr.fast.toNat
  else if off = 0x410000 then regCause s.rst
  else if off = 0x410008 then regRstWdog s.rst
  else if off = 0x410010 then regEsc s
  else if off = 0x410018 then regLog s.flash
  else if off = 0x410020 then regDump s.rst
  else if 0x410040 ≤ off ∧ off < 0x410080 then regCapcfg s.rst ((off - 0x410040) / 8)
  else if off = 0x420000 then bit s.pwr.sscNext
  else if off = 0x500000 then fld 3 1 (bit s.tel.view) + fld 2 1 (bit s.tel.busy)
  else if 0x501000 ≤ off ∧ off < 0x509000 then
    (let k := (off - 0x501000) / 0x80 * 16 + (off - 0x501000) % 0x80 / 8
     (Tab.get (fun _ => (0 : DWord)) (if s.tel.view then s.tel.snap else s.tel.live) k).toNat)
  else if 0x509000 ≤ off ∧ off < 0x509080 then
    (let d := s.dscAt ((off - 0x509000) / 0x40)
     let o := (off - 0x509000) % 0x40
     if o = 0x30 then d.streams.length else (Tab.get (fun _ => (0 : DWord)) d.counts (o / 8)).toNat)
  else if 0x600000 ≤ off ∧ off < 0x600400 then regChk (s.chkAt ((off - 0x600000) / 0x40)) (off % 0x40)
  else if off = 0x700000 then fld 2 1 (bit s.dbg.err) + fld 1 1 (bit s.dbg.busy) + bit s.dbg.enable
  else if off = 0x700008 then fld 63 1 (bit s.dbg.space) + fld 3 53 s.dbg.addr.toNat
  else 0

end Sys2Proof.Machine
end

