-- ==== Sys2Proof/Machine/Store.lean ====
section
/-!
DEFINITION. How engines reach memory: the pseudo-channel of an HBM address, error counts and condemned channels, invalidation of cached
lines, fences, objects and partitions, and the store that every engine's write ends in.
-/
namespace Sys2Proof.Machine

/-! Pseudo-channels and error counts (R257, R258, R264-R274). -/

/-- Stack, pseudo-channel, bank and row of an HBM address (R258). -/
def State.pcPlace (s : State) (a : Nat) : Option (Nat × Nat × Nat × Nat) :=
  match s.hbmPlace a with
  | none => none
  | some (n, o) =>
    let l := (s.stack n).live
    let g := o / 256
    let p := g / l.length * 256 + o % 256
    some (n, l.getD (g % l.length) 0, p / 1024 % 48, p / 1024 / 48)

def Stack.setPc (k : Stack) (q : Nat) (x : Pchan) : Stack := { k with pcs := Tab.set (fun _ => Pchan.reset) k.pcs q x }
def Stack.setChan (k : Stack) (c : Nat) (x : Chan) : Stack := { k with chans := Tab.set (fun _ => Chan.reset) k.chans c x }

/-- Condemn a channel: the repair record first, then the event (R272-R274). -/
def State.condemn (s : State) (n c reason : Nat) : State :=
  if bitOf (s.condemned n).toNat c then s
  else
    let f := s.flash
    let s := { s with flash := { f with
      condemned := Tab.set (fun _ => 0) f.condemned n (BitVec.ofNat 16 ((s.condemned n).toNat + 2 ^ c))
      reasons := Tab.set (fun _ => 0) f.reasons (16 * n + c) reason } }
    s.raise0 0x0303 (srcHbm n) (leBytes 1 n ++ leBytes 1 c ++ leBytes 1 reason ++ leBytes 1 1)

/-- Count an uncorrectable codeword against its channel (R269, R272). -/
def State.countUe (s : State) (n q : Nat) : State :=
  let k := s.stack n
  let ch := k.chan (q / 2)
  let s := s.setStack n (k.setChan (q / 2) { ch with ue := satInc ch.ue })
  if s.hbm.ueCondemn ≠ 0 ∧ s.hbm.ueCondemn.toNat ≤ ch.ue.toNat + 1 then s.condemn n (q / 2) 2 else s

/-- HBM_UNCORRECTED for the codeword that holds an address (R264, R265). -/
def State.raiseUe (s : State) (n q a : Nat) : State :=
  s.raise0 0x0302 (srcHbm n) (leBytes 1 n ++ leBytes 1 (q / 2) ++ leBytes 1 (q % 2) ++ leBytes 5 0 ++ leBytes 8 (a - a % 32))

/-- HBM_CORRECTED. -/
def State.raiseCe (s : State) (n q pin count : Nat) : State :=
  s.raise0 0x0301 (srcHbm n) (leBytes 1 n ++ leBytes 1 (q / 2) ++ leBytes 1 (q % 2) ++ leBytes 1 pin ++ leBytes 4 count)

/-- Count a correction by one symbol outside the marked pins: the pin's counter and the corrected count, the pin mark, the periodic event,
and the condemnation (R269-R272). -/
def State.countCe (s : State) (n q pin : Nat) : State :=
  let k := s.stack n
  let p := k.pc q
  let cnt := Tab.get (fun _ => 0) p.pins pin + 1
  let p := { p with ce := p.ce + 1, pins := Tab.set (fun _ => 0) p.pins pin cnt }
  let s := s.setStack n (k.setPc q p)
  let s :=
    if cnt = s.hbm.pinMark.toNat then
      if (s.marks n q).length < 2 then
        let f := s.flash
        let s := { s with flash := { f with marks := Tab.set (fun _ => []) f.marks (32 * n + q) (s.marks n q ++ [pin]) } }
        s.raiseCe n q pin p.ce.toNat
      else s.condemn n (q / 2) 3
    else s
  let s := if s.hbm.ceReport ≠ 0 ∧ p.ce.toNat % s.hbm.ceReport.toNat = 0 then s.raiseCe n q 0xFF p.ce.toNat else s
  if p.ce.toNat = 2 ^ s.hbm.ceCondemnLog2.toNat then s.condemn n (q / 2) 1 else s

/-- Poison or clean a codeword by its number. -/
def State.setPoison (s : State) (cw : Nat) (b : Bool) : State :=
  { s with hbm := { s.hbm with poisoned := Tab.set (fun _ => false) s.hbm.poisoned cw b } }

/-- The merge read of a write that reaches part of a poisoned codeword: the event and the count of a demand read; the codeword stays
poisoned (R264). A whole-codeword write cleans it. -/
def State.mergeCodeword (s : State) (a n c : Nat) : State :=
  let cwA := a - a % 32 + 32 * c
  let cw := s.codeword cwA
  if !Tab.get (fun _ => false) s.hbm.poisoned cw then s
  else if a ≤ cwA ∧ cwA + 32 ≤ a + n then s.setPoison cw false
  else
    match s.pcPlace cwA with
    | some (st, q, _, _) => (s.raiseUe st q cwA).countUe st q
    | none => s

/-! Caches (R244, R285). -/

/-- A controller accepts a write: the written lines leave their die's stream cache, and are counted (R244). -/
def State.snoop (s : State) (a n : Nat) : State :=
  if !isHbm a || n = 0 then s
  else
    let d := s.dscAt (dieOf a)
    let hit (l : DscLine) : Bool := decide (a / 256 ≤ l.line) && decide (l.line ≤ (a + n - 1) / 256) && !l.dropped
    let hits := d.lines.filter hit
    if hits = [] then s
    else
      let pre := (hits.filter fun l => l.prefetched || l.inflight).length
      let bump (t : Tab DWord) (i k : Nat) : Tab DWord := Tab.modify (fun _ => (0 : DWord)) t i fun v => v + BitVec.ofNat 64 k
      let lines := d.lines.filterMap fun l => if hit l then (if l.inflight then some { l with dropped := true } else none) else some l
      s.setDsc (dieOf a) { d with lines := lines, counts := bump (bump d.counts 4 pre) 5 (hits.length - pre) }

/-- Slices of the shared cache that the partition leaves (R281, R294). -/
def Mem.scSlices (m : Mem) : Nat := 64 - m.rslotSlices.toNat

/-- The set of a line: 1,024 sets of 16 ways in each slice, by the hash of R281. -/
def Mem.scSet (m : Mem) (line : Nat) : Nat := Config.scHash line m.scSlices % (1024 * m.scSlices)

def oldestScLine : List ScLine → Option ScLine
  | [] => none
  | l :: ls => match oldestScLine ls with
    | some m => if m.age < l.age then some m else some l
    | none => some l

/-- The line that makes room in a full set: the least recently used held one, or a clean one where none is held (R284; log 15). -/
def victimOf (set : List ScLine) : Option ScLine := (oldestScLine (set.filter ScLine.held)).orElse fun _ => oldestScLine set

/-- Use a line of the shared cache: bring it in, or renew its age. A full set of 16 evicts a line; a changed held one is written back, a write
that its controller accepts (R244, R281, R284). -/
def State.useLine (s : State) (line : Nat) (held dirty : Bool) : State :=
  let m := s.hbm
  let clock := m.clock + 1
  match m.lines.find? fun l => l.line == line with
  | some l =>
    { s with hbm := { m with clock := clock, lines := m.lines.map fun k => if k == l then { l with dirty := l.dirty || dirty, age := clock } else k } }
  | none =>
    let set := m.lines.filter fun l => m.scSet l.line == m.scSet line
    let new : ScLine := { line := line, held := held, dirty := dirty, age := clock }
    match (if set.length < 16 then none else victimOf set) with
    | none => { s with hbm := { m with clock := clock, lines := m.lines ++ [new] } }
    | some l =>
      let s := if l.held && l.dirty then s.snoop (256 * l.line) 256 else s
      { s with hbm := { m with clock := clock, lines := m.lines.erase l ++ [new] } }

/-- Write every changed held line back: its bytes are in memory already, and its controller accepts a write (R244, R286). -/
def State.writeHeldBack (s : State) : State :=
  (s.hbm.lines.filter fun l => l.held && l.dirty).foldl (fun s l => s.snoop (256 * l.line) 256) s

/-- Is an HBM line held by the shared cache (R281, R282)? -/
def State.lineHeld (s : State) (a : Nat) : Bool := s.hbm.lines.any fun l => l.held && l.line == a / 256

/-- A read of board DDR5 by an array ferry or a gather engine brings clean lines in while DDR_CACHE = 1 (R281). -/
def State.ddrTouch (s : State) (a n : Nat) : State :=
  if region a ≠ 1 ∨ !s.hbm.ddrCache ∨ n = 0 then s
  else (List.range ((a + n - 1) / 256 + 1 - a / 256)).foldl (fun s i => s.useLine (a / 256 + i) false false) s

/-- A DDR5 write invalidates the clean lines of its addresses in the shared cache (R285). -/
def State.dropClean (s : State) (a n : Nat) : State :=
  if region a ≠ 1 ∨ s.hbm.lines = [] then s
  else { s with hbm := { s.hbm with lines := s.hbm.lines.filter fun l =>
      l.held || !(decide (a / 256 ≤ l.line) && decide (l.line ≤ (a + n - 1) / 256)) } }

/-- Write bytes at device addresses, one after another; unmapped bytes are not written (R25). -/
def State.wrBytes : State → Nat → List Byte → State
  | s, _, [] => s
  | s, a, b :: bs =>
    match s.key a with
    | some k => State.wrBytes { s with mem := s.mem.write k b } (a + 1) bs
    | none => State.wrBytes s (a + 1) bs

/-- The store that every engine's write ends in: the bytes, the codewords' codes, and the caches (R15, R244, R264, R285). A write to host
memory while the link is down is discarded (R585). -/
def State.store (s : State) (a : Nat) (bs : List Byte) : State :=
  if bs = [] ∨ (region a = 4 ∧ !s.hif.up) then s
  else
    let s := s.wrBytes a bs
    let s := if isHbm a ∧ s.hbm.poisoned ≠ [] then
        (List.range ((a % 32 + bs.length + 31) / 32)).foldl (fun s c => s.mergeCodeword a bs.length c) s
      else s
    (s.snoop a bs.length).dropClean a bs.length

/-- Store a little-endian number of `n` bytes. -/
def State.storeLe (s : State) (a n v : Nat) : State := s.store a (leBytes n v)

/-- Does an address lie in an accumulator bank whose array runs a tile (R28)? -/
def State.bankBusy (s : State) (a : Nat) : Bool :=
  region a == 2 && decide (0x300_0000 ≤ regionOff a % 0x400_0000) && (s.array (regionOff a / 0x400_0000)).inflight != []

/-! The reduction-slot partition (R294, R295, R445). -/

/-- Address of reduction slot `n`. -/
def slotBase (n : Nat) : Nat := 3 * 2 ^ 48 + n * 0x1000

/-- The plan, the bucket entry and the lane position whose bound slot answers at an address of region 0x03. -/
def State.slotHere (s : State) (a : Nat) : Option (Nat × Nat × Nat × RSlot) :=
  let n := regionOff a / 0x1000
  s.red.plans.findSome? fun q => match q.2 with
    | none => none
    | some p => p.buckets.findSome? fun e => match e.2 with
      | none => none
      | some b =>
        if b.lane ≤ n ∧ n < b.lane + b.depth then
          (Tab.get (fun _ => none) b.slots (n - b.lane)).map fun x => (q.1, e.1, n - b.lane, x)
        else none

/-- The bytes of a slot: its 1,024 accumulators. -/
def RSlot.bytes (x : RSlot) : List Byte := x.acc.flatMap fun z => leBytes 4 (toBits 32 z)

/-- The aligned 8 bytes at an address of the partition: of a bound slot, else what was left there. -/
def State.rdSlot (s : State) (a : Nat) : DWord :=
  match s.slotHere a with
  | some (_, _, _, x) =>
    let k := regionOff a % 0x1000 / 4
    BitVec.ofNat 64 (toBits 32 (x.acc.getD k 0) + 2 ^ 32 * toBits 32 (x.acc.getD (k + 1) 0))
  | none => BitVec.ofNat 64 (s.rdLe a 8)

/-- Write the aligned 8 bytes at an address of the partition. -/
def State.wrSlot (s : State) (a : Nat) (v : DWord) : State :=
  match s.slotHere a with
  | some (j, i, pos, x) =>
    let k := regionOff a % 0x1000 / 4
    let acc := (x.acc.set k (signedOf 32 (v.toNat % 2 ^ 32))).set (k + 1) (signedOf 32 (v.toNat / 2 ^ 32))
    match s.plan j with
    | some p =>
      let put (b : Bucket) : Bucket := { b with slots := Tab.set (fun _ => none) b.slots pos (some { x with acc := acc }) }
      s.setPlan j (some { p with buckets := Tab.modify (fun _ => none) p.buckets i fun b => b.map put })
    | none => s
  | none => s.storeLe a 8 v.toNat

/-- What the slots of a bucket hold stays in the partition when they are freed. -/
def State.leaveSlots (s : State) (b : Bucket) (gone : Nat × Option RSlot → Bool) : State :=
  (b.slots.filter gone).foldl (fun (s : State) e => match e.2 with | some x => s.store (slotBase (b.lane + e.1)) x.bytes | none => s) s

/-- What all slots of plan `j` hold stays in the partition. -/
def State.leavePlan (s : State) (j : Nat) : State :=
  match s.plan j with
  | some p => p.buckets.foldl (fun (s : State) (e : Nat × Option Bucket) => match e.2 with | some b => s.leaveSlots b fun _ => true | none => s) s
  | none => s

/-! Who may reach what (R25, R295, R310, R312, R379, R380, R453). -/

/-- Do two ranges share a byte? -/
def rangesMeet (a n b m : Nat) : Bool := decide (a < b + m) && decide (b < a + n)

/-- Does an access meet a fence of an installed plan: a write to a state copy, or any access to a hold area (R453)? -/
def State.fenced (s : State) (write : Bool) (a n : Nat) : Bool :=
  isHbm a && s.red.plans.any fun e =>
    match e.2 with
    | none => false
    | some p => p.buckets.any fun b =>
      match b.2 with
      | none => false
      | some b => (s.shardRanges b).any fun r => (write || r.2.2) && rangesMeet a n r.1 r.2.1

/-- Does an access meet the partition of a context other than `c` (R379, R380)? -/
def State.foreignPartition (s : State) (c : Option Nat) (a n : Nat) : Bool :=
  region a == 2 && s.ctxs.any fun e =>
    some e.1 != c && e.2.holdsPart && e.2.resMask.toNat.testBit (regionOff a / 0x400_0000)
      && rangesMeet (regionOff a % 0x400_0000) n (1024 * e.2.resOffKib) (1024 * e.2.resLenKib)

/-- The DDR5 object that holds a range wholly. -/
def State.objAt (s : State) (a n : Nat) : Option Obj :=
  s.tier.objs.find? fun o => o.base != 0 && decide (o.base ≤ a) && decide (a + n ≤ o.base + o.size)

/-- The object of an identifier. -/
def State.objById (s : State) (id : Nat) : Option Obj := s.tier.objs.find? fun o => o.id.toNat == id

/-- FAULT cause of an engine's write of context `c`; 0 for none. -/
def State.writeFault (s : State) (c : Nat) (a n : Nat) : Nat :=
  if n = 0 then 0
  else if !s.mappedRange a n || region a == 3 then 2
  else if s.foreignPartition (some c) a n then 10
  else if s.fenced true a n then 2
  else if region a = 1 then
    match s.objAt a n with
    | none => 2
    | some o => if o.sealed then 5 else if o.ctx = c then 0 else 2
  else 0

/-- FAULT cause of an engine's read of context `c`; 0 for none. -/
def State.readFault (s : State) (c : Nat) (a n : Nat) : Nat :=
  if n = 0 then 0
  else if !s.mappedRange a n || region a == 3 then 2
  else if s.foreignPartition (some c) a n then 10
  else if s.fenced false a n then 2
  else if region a = 1 then
    match s.objAt a n with
    | none => 2
    | some o => if !o.sealed then 2 else if s.poisonIn a n then 3 else 0
  else if s.poisonIn a n then 3
  else 0

/-- Address of array `a`'s window. -/
def windowBase (a : Nat) : Nat := 0x2_0000_0000_0000 + a * 0x400_0000
/-- Address of bank entry (row, column) of array `a`: 4 KiB rows of FP32 entries (R62). -/
def bankAddr (a : Nat) (east : Bool) (row col : Nat) : Nat :=
  windowBase a + (if east then 0x380_0000 else 0x300_0000) + 4096 * row + 4 * col

end Sys2Proof.Machine
end

