-- ==== Sys2Proof/Machine/Service.lean ====
section
/-!
DEFINITION. Service levels (R571-R573): the conditions, the change of level with its event, the raise of FW_SVN, and the start of the ports'
training with the configuration record's values.
-/
namespace Sys2Proof.Machine

/-- The configuration record's value of FAB_PORTp_CFG; without a record every port is off (R567). -/
def State.recordPort (s : State) (p : Nat) : Nat :=
  match s.boot.cfg with
  | some c => (c.ports.getD p 0).toNat
  | none => 0

/-- A port that the configuration record enables: MODE ≠ 0 (R567). -/
def State.portEnabled (s : State) (p : Nat) : Bool := s.recordPort p % 4 != 0

/-- Take the fields of a FAB_PORTp_CFG value but MODE, with the minima of their rows. A reserved MODE is not taken (log 13). -/
def Port.takeCfg (x : Port) (v : Nat) : Port :=
  { x with
    retrainMs := BitVec.ofNat 16 (atLeastOne (bits v 48 16))
    retryLimit := BitVec.ofNat 8 (atLeastOne (bits v 40 8))
    retryTo := BitVec.ofNat 16 (atLeastOne (bits v 24 16))
    framing := fieldBv 2 v 4
    rate := fieldBv 2 v 2
    mode := if v % 4 = 3 then x.mode else fieldBv 2 v 0 }

/-- Begin link training (R429). -/
def Port.train (x : Port) (now : Nat) : Port := { x with state := 1, trained := false, trainAt := now }

/-- Write one port's FAB_PORTp_CFG from the configuration record and begin its training; while the out-of-service latch is set every port is
kept at MODE = 0 (R552, R567). -/
def State.startPort (s : State) (p : Nat) : State :=
  let x := (s.port p).takeCfg (s.recordPort p)
  let x := if s.flash.oos then { x with mode := 0 } else x
  s.setPort p (if x.mode = 0 then x else x.train s.now)

/-- 3 s since the ports began to train (R556, R573). -/
def State.portsTimedOut (s : State) : Bool :=
  match s.boot.portsAt with
  | some t => decide (t + 300000000 ≤ s.now)
  | none => false

def State.portsComplete (s : State) : Bool :=
  s.boot.portsAt.isSome && (List.range 16).all fun p => !s.portEnabled p || (s.port p).state == 2

/-- COND of DEV_SERVICE and SERVICE_LEVEL. -/
def State.condBits (s : State) : Nat :=
  bit (s.boot.trained.toNat.testBit 0) + 2 * bit (s.boot.trained.toNat.testBit 1) + 4 * bit (s.flash.margin.pending == 0)
    + 8 * bit s.portsComplete + 16 * bit s.portsTimedOut + 32 * bit s.flash.oos

/-- The level that the conditions give: none without running firmware or trained HBM, full once the three conditions of R573 hold. -/
def State.levelDue (s : State) : Nat :=
  if s.boot.image.isNone || s.boot.trained == 0 then 0
  else if s.boot.trained == 3 && s.flash.margin.pending == 0 && (s.portsComplete || s.portsTimedOut) then 2
  else 1

/-- Enter a service level: the array clocks' limit, SERVICE_LEVEL, and at full service the raise of FW_SVN (R566, R571, R573). -/
def State.enterLevel (s : State) (l : Nat) : State :=
  let prev := s.boot.level
  let s := { s with boot := { s.boot with level := l, fLimit := if l = 2 then 2400 else 1200 } }
  let s := if prev = 0 then
      (List.range 16).foldl State.startPort { s with boot := { s.boot with portsAt := some s.now } }
    else s
  let s := { s with boot := { s.boot with cond := BitVec.ofNat 6 s.condBits } }
  let s := if l = 2 then
      { s with flash := { s.flash with fwSvn := if s.flash.fwSvn < s.boot.fwSvnRunning then s.boot.fwSvnRunning else s.flash.fwSvn } }
    else s
  s.raise0 0x0705 srcMp
    (leBytes 1 l ++ leBytes 1 prev ++ leBytes 1 s.condBits ++ leBytes 1 0 ++ leBytes 4 ((s.now - s.boot.resetEndAt) / 100000))

/-- Re-evaluate the service conditions; the level only rises between resets, and provisional service comes before full (R572, R573). -/
def State.service (s : State) : State :=
  let s := { s with boot := { s.boot with cond := BitVec.ofNat 6 s.condBits } }
  let s := if s.boot.level = 0 ∧ 1 ≤ s.levelDue then s.enterLevel 1 else s
  if s.boot.level = 1 ∧ s.levelDue = 2 then s.enterLevel 2 else s

end Sys2Proof.Machine
end

