-- ==== Sys2Proof/Machine/Ports.lean ====
section
/-!
DEFINITION. Ohmalink ports and routing (spec/11_ohmalink.md): flits, retry, credits, link bring-up and loss, the switch, Ethernet mode.
-/
namespace Sys2Proof.Machine

/-! Packet bytes and flits (R407, R409, R419). -/

/-- The 32-byte packet header and the payload (R419). -/
def packetBytes (p : Packet) : List Byte :=
  leBytes 2 p.dst.toNat ++ leBytes 2 p.src.toNat ++ leBytes 1 (p.vc.val * 32 + p.type.toNat) ++ leBytes 1 (bit p.isLocal)
    ++ leBytes 2 p.payload.length ++ leBytes 2 p.job.toNat ++ leBytes 2 p.ctx.toNat ++ leBytes 1 p.hops.toNat ++ leBytes 3 0
    ++ leBytes 4 p.bucket.toNat ++ leBytes 4 p.step.toNat ++ leBytes 8 p.arg.toNat ++ p.payload

/-- The packet that received bytes spell. -/
def packetOf (b : List Byte) : Packet :=
  { dst := BitVec.ofNat 16 (fieldAt b 0 2), src := BitVec.ofNat 16 (fieldAt b 2 2), vc := ⟨fieldAt b 4 1 / 32 % 8, Nat.mod_lt _ (by decide)⟩,
    type := BitVec.ofNat 5 (fieldAt b 4 1), isLocal := fieldAt b 5 1 % 2 == 1, job := BitVec.ofNat 12 (fieldAt b 8 2),
    ctx := BitVec.ofNat 16 (fieldAt b 10 2), hops := BitVec.ofNat 8 (fieldAt b 12 1), bucket := BitVec.ofNat 32 (fieldAt b 16 4),
    step := BitVec.ofNat 32 (fieldAt b 20 4), arg := BitVec.ofNat 64 (fieldAt b 24 8), payload := (b.drop 32).take (fieldAt b 6 2) }

/-- Cut bytes into bodies of 244 bytes. -/
def bodies : Nat → List Byte → List (List Byte)
  | 0, _ => []
  | n + 1, b => padTo 244 (b.take 244) :: bodies n (b.drop 244)

/-- The data flits of a packet, without their sequence numbers. -/
def flitsOfPacket (p : Packet) : List Sent :=
  let n := flitsOf p
  ((bodies n (packetBytes p)).zip (List.range n)).map fun (b, i) =>
    { seq := 0, vc := p.vc.val, sop := i == 0, eop := i + 1 == n, body := b }

/-- One bit of the reflected CRC-32 with polynomial 0x1EDC_6F41 (R407). -/
def crcBit (c : Word) : Word := if c.getLsbD 0 then (c >>> 1) ^^^ 0x82F63B78#32 else c >>> 1

def crcByte (c : Word) (b : Byte) : Word :=
  crcBit (crcBit (crcBit (crcBit (crcBit (crcBit (crcBit (crcBit (c ^^^ b.zeroExtend 32))))))))

/-- CRC of a flit's header and body (R407). -/
def crc32c (bs : List Byte) : Word := ~~~ (bs.foldl crcByte 0xFFFFFFFF#32)

def flitCrc (header : DWord) (body : List Byte) : Word := crc32c (leBytes 8 header.toNat ++ body)

/-- A flit header (R407). -/
def flitHeader (crcount crvc : Nat) (data eop sop : Bool) (vc : Nat) (nak : Bool) (ack seq : BitVec 12) : DWord :=
  BitVec.ofNat 64 (fld 35 16 crcount + fld 32 3 crvc + fld 30 1 (bit data) + fld 29 1 (bit eop) + fld 28 1 (bit sop) + fld 25 3 vc
    + fld 24 1 (bit nak) + fld 12 12 ack.toNat + seq.toNat)

/-! Counters. -/

def Port.count (x : Port) (i k : Nat) : Port :=
  { x with counters := Tab.modify (fun _ => (0 : DWord)) x.counters i fun c => c + BitVec.ofNat 64 k }

/-- Module drop counters: 0 NO_ROUTE, 1 PORT_DOWN, 2 HOPS, 3 DRAIN, 4 BAD_TYPE, 5 FOREIGN. -/
def State.countDrop (s : State) (i k : Nat) : State :=
  { s with fab := { s.fab with drops := Tab.modify (fun _ => (0 : DWord)) s.fab.drops i fun c => c + BitVec.ofNat 64 k } }

/-! Link loss (R430-R432). -/

/-- Is the receive buffer of a port empty? -/
def State.bufEmpty (s : State) (p : Nat) : Bool := (List.range 8).all fun v => s.bufUsed p v == 0

/-- Packets queued for a port, with the packet that it is sending. -/
def Port.queued (x : Port) : List (Option Nat × Packet) := x.sending.toList ++ x.queues.flatMap fun e => e.2

/-- A session opened over port `p`. -/
def Session.overPort (p : Nat) (x : Session) : Bool :=
  match x with
  | .opened 2 (some q) _ _ => q == p
  | _ => false

/-- Release the sessions that a port's loss ends (R577). -/
def State.endPortSessions (s : State) (p : Nat) : State :=
  s.endSessions fun i => (s.session i).overPort p

/-- A port that has emptied its receive buffer begins to train again, unless a reset holds it or it is held down; with MODE = 0 it is off (R429,
R432, R534, R550). -/
def State.afterDrain (s : State) (p : Nat) : State :=
  let x := s.port p
  if x.state = 4 ∧ s.bufEmpty p then
    s.setPort p (if x.mode = 0 then { x with state := 0 } else if s.portStays p then { x with state := 5 } else x.train s.now)
  else s

/-- A port goes down (R431): sending stops, retry buffer and books are discarded, queued packets are dropped with their input buffers freed,
LINK_DOWN is raised once, and the port drains. -/
def State.goDown (s : State) (p reason : Nat) : State :=
  let x := s.port p
  if x.state ≠ 2 ∧ x.state ≠ 3 then s
  else
    let lost := x.queued
    let y : Port := { x with
      state := 4, lastDown := BitVec.ofNat 4 reason, trained := false, retry := [], replay := [], toSend := [], sending := none, queues := []
      sentFlits := [], peerFreed := [], freed := [], rx := [], waitSince := [], pausedTx := 0, pausedRx := 0, nakPending := false
      discarding := false, replays := 0, drainAt := s.now, dropped := lost.length }
    let s := s.setPort p (y.count 4 1)
    let s := lost.foldl (fun s e => s.freeFlits e.1 e.2) s
    let s := s.countDrop 1 lost.length
    let s := s.raise0 0x0401 (srcPort p)
      (leBytes 1 p ++ leBytes 1 reason ++ leBytes 2 x.peer.toNat ++ leBytes 1 (bit x.peerValid) ++ leBytes 3 0 ++ leBytes 4 lost.length)
    (s.endPortSessions p).afterDrain p

/-- A port's side of a reset or of MODE = 0: one DOWN flit, then down with reason 4 (R430); an Ethernet port has no flits (R434). -/
def State.portOff (s : State) (p : Nat) : State :=
  if (s.port p).state = 2 ∨ (s.port p).state = 3 then (if (s.port p).curMode = 2 then s else s.sendOut (.downFlit p)).goDown p 4 else s

/-- A FRAMING that the lane rate allows: native at every rate, generation 1 at 106.25 and 53.125 Gb/s (R433). -/
def framingAllowed (framing rate : BitVec 2) : Bool :=
  rate != 3 && (framing == 0 || (framing == 1 && rate != 0))

/-- The port comes up with empty credit books and sequence 0 (R429). -/
def State.comeUp (s : State) (p : Nat) (peer : BitVec 16) (peerValid : Bool) (alloc : List Nat) : State :=
  let x := s.port p
  let s := s.setPort p { x with
    state := 2, trained := false, peer := peer, peerValid := peerValid, peerAlloc := alloc, txSeq := 0, rxSeq := 0xFFF, lastAck := 0xFFF
    retry := [], replay := [], toSend := [], sending := none, sentFlits := [], peerFreed := [], freed := [], crvc := 0, rx := []
    nakPending := false, discarding := false, replays := 0, ackAt := s.now, waitSince := [], upOnce := true, pausedTx := 0, pausedRx := 0 }
  let s := s.raise0 0x0407 (srcPort p)
    (leBytes 1 p ++ leBytes 1 x.curRate.toNat ++ leBytes 1 x.curFraming.toNat ++ leBytes 1 0 ++ leBytes 2 peer.toNat ++ leBytes 1 (bit peerValid))
  s.service

/-- LINK_TRAINED: the port has trained at its present rate and framing. An Ohmalink port sends its handshake; an Ethernet port is up (R406,
R429, R434). -/
def linkTrained (p : Nat) (s : State) : State :=
  let x := s.port p
  if x.state ≠ 1 ∨ x.trained ∨ x.mode = 0 then s
  else
    let s := s.setPort p { x with trained := true, curRate := x.rate, curFraming := x.framing, curMode := x.mode }
    if x.mode = 2 then s.comeUp p 0 false (x.alloc.map BitVec.toNat)
    else s.sendOut (.handshakeFlit p
      { framing := x.framing, peer := s.fab.id, peerValid := s.fab.valid, alloc := x.alloc.map BitVec.toNat })

def execLinkTrained (p : Fin 16) (s : State) : Host.Outcome State Fault Refusal := liveMp s (linkTrained p.val)

/-- HANDSHAKE (R429). -/
def handshake (p : Nat) (h : Handshake) (s : State) : State :=
  let x := s.port p
  if x.state ≠ 1 ∨ !x.trained then s
  else if h.framing ≠ x.curFraming ∨ !framingAllowed x.curFraming x.curRate ∨ (s.fab.valid && h.peerValid && h.peer == s.fab.id) then
    let s := s.setPort p ({ x with state := 5, trained := false, peer := h.peer, peerValid := h.peerValid, lastDown := 5 } : Port)
    s.raise0 0x0401 (srcPort p) (leBytes 1 p ++ leBytes 1 5 ++ leBytes 2 h.peer.toNat ++ leBytes 1 (bit h.peerValid))
  else s.comeUp p h.peer h.peerValid h.alloc

def execHandshake (p : Fin 16) (h : Handshake) (s : State) : Host.Outcome State Fault Refusal := liveMp s (handshake p.val h)

/-! Sending (R408, R411, R415, R417). -/

/-- Credits for a channel: A_v of the peer less the flits sent and not yet freed there (R415). -/
def Port.credits (x : Port) (v : Nat) : Nat :=
  16 * (x.peerAlloc.getD v 0) - ((Tab.get (fun _ => 0) x.sentFlits v + 65536 - Tab.get (fun _ => 0) x.peerFreed v) % 65536)

/-- The number of an input of a channel's round robin: the port, or 16 for the local injection point. -/
def inputOf (e : Option Nat × Packet) : Nat := e.1.getD 16

/-- The oldest packet of the input that the round robin of a channel serves next, after the one served last (R417). -/
def Port.headOf (x : Port) (v : Nat) : Option (Option Nat × Packet) :=
  let q := Tab.get (fun _ => []) x.queues v
  let last := Tab.get (fun _ => 16) x.lastIn v
  ((List.range 17).findSome? fun i => q.find? fun e => inputOf e == (last + 1 + i) % 17)

/-- Packet `e` leaves its channel's queue to be sent, and the round robin goes past its input. -/
def Port.serve (x : Port) (v : Nat) (e : Option Nat × Packet) : Port :=
  { x with queues := Tab.modify (fun _ => []) x.queues v fun l => l.erase e, lastIn := Tab.set (fun _ => 16) x.lastIn v (inputOf e) }

/-- Can the head packet of a channel be sent now? -/
def Port.sendable (x : Port) (v : Nat) : Bool :=
  match x.headOf v with
  | none => false
  | some e => if x.curMode = 2 then !bitOf x.pausedTx.toNat v else decide (flitsOf e.2 ≤ x.credits v)

/-- The weighted round robin of channels 0-5: weights 1, 1, 4, 4, 2, 2 as a cycle of 14 turns (R417; the order within it is log 13). -/
def wrrTurns : List Nat := [0, 1, 2, 2, 2, 2, 3, 3, 3, 3, 4, 4, 5, 5]

/-- The channel to serve next and the turn after it: management, then sync, then the round robin from its place. -/
def Port.pick (x : Port) : Option (Nat × Nat) :=
  if x.sendable 6 then some (6, x.wrr)
  else if x.sendable 7 then some (7, x.wrr)
  else
    match (List.range 14).find? fun i => x.sendable (wrrTurns.getD ((x.wrr + i) % 14) 0) with
    | some i => some (wrrTurns.getD ((x.wrr + i) % 14) 0, (x.wrr + i + 1) % 14)
    | none => none

/-- Since when each channel's head packet has waited for credits (R547). -/
def Port.noteWaits (x : Port) (now : Nat) : Port :=
  { x with waitSince := (List.range 8).foldl (fun t v =>
      if (x.headOf v).isSome && !x.sendable v then
        (match Tab.get (fun _ => none) t v with | some _ => t | none => Tab.set (fun _ => none) t v (some now))
      else Tab.set (fun _ => none) t v none) x.waitSince }

/-- Put a flit on the wire: its header carries the next channel's count and the acknowledgement. -/
def State.emit (s : State) (p : Nat) (f : Option Sent) (body : List Byte) : State :=
  let x := s.port p
  let h := match f with
    | some f => flitHeader (Tab.get (fun _ => 0) x.freed x.crvc) x.crvc true f.eop f.sop f.vc x.nakPending x.rxSeq f.seq
    | none => flitHeader (Tab.get (fun _ => 0) x.freed x.crvc) x.crvc false false false 0 x.nakPending x.rxSeq 0
  let s := s.setPort p { x with crvc := (x.crvc + 1) % 8, nakPending := false }
  s.sendOut (.flit p { header := h, body := body, crc := flitCrc h body, fecOk := true, fecCorrected := 0 })

/-- What follows when a contribution's packet has been sent: the slots that it carried are freed under R449 by SLOT_FREE, which looks here. -/
def State.packetSent (s : State) (e : Option Nat × Packet) : State := s.freeFlits e.1 e.2

/-- The Ethernet frame that carries a packet (R434). -/
def State.sendFrame (s : State) (p : Nat) (k : Packet) : State :=
  let mac (id : BitVec 16) : BitVec 48 := s.fab.pfx ++ id
  s.sendOut (.frame p (mac k.dst) (mac s.fab.id) (if s.fab.tagged then some (s.fab.vlan, k.vc.val) else none) s.fab.etherType k)

/-- With no packet in progress, the packet that arbitration picks is next (R417). -/
def Port.load (x : Port) : Port :=
  if x.toSend ≠ [] then x
  else match x.pick with
    | none => x
    | some (v, turn) =>
      match x.headOf v with
      | none => x
      | some e => { x.serve v e with wrr := turn, sending := some e, toSend := flitsOfPacket e.2 }

/-- FLIT_SEND: replays first, then the packet in progress, then the packet that arbitration picks, else an IDLE flit (R408, R409, R411). -/
def flitSend (p : Nat) (s : State) : State :=
  let x := s.port p
  if x.state ≠ 2 then s
  else
    let x := x.noteWaits s.now
    let s := s.setPort p x
    if x.curMode = 2 then
      match x.pick with
      | none => s
      | some (v, turn) =>
        match x.headOf v with
        | none => s
        | some e =>
          ((s.setPort p { x.serve v e with wrr := turn }).sendFrame p e.2).packetSent e
    else
      match x.replay with
      | f :: rest => (s.setPort p { x with replay := rest }).emit p (some f) f.body
      | [] =>
        let x := x.load
        match x.toSend with
        | [] => (s.setPort p x).emit p none (padTo 244 [0])
        | f :: rest =>
          if 1024 ≤ x.retry.length then (s.setPort p x).emit p none (padTo 244 [0])
          else
            let f : Sent := { f with seq := x.txSeq }
            let done := x.sending
            let x : Port := { x with
              toSend := rest, txSeq := x.txSeq + 1, retry := x.retry ++ [f], ackAt := if x.retry = [] then s.now else x.ackAt
              sentFlits := Tab.modify (fun _ => 0) x.sentFlits f.vc fun n => (n + 1) % 65536
              sending := if f.eop then none else x.sending }
            let s := (s.setPort p x).emit p (some f) f.body
            match f.eop, done with
            | true, some e => s.packetSent e
            | _, _ => s

def execFlitSend (p : Fin 16) (s : State) : Host.Outcome State Fault Refusal := live s (flitSend p.val)

/-! Receiving (R410, R411, R413, R415). -/

/-- Replay from ACK + 1, or retrain after RETRY_LIMIT replays without progress (R411, R413). -/
def State.startReplay (s : State) (p : Nat) : State :=
  let x := s.port p
  if x.retryLimit.toNat ≤ x.replays then s.setPort p (({ x with state := 3, trainAt := s.now, replay := [] } : Port).count 3 1)
  else s.setPort p (({ x with replays := x.replays + 1, replay := x.retry, ackAt := s.now } : Port).count 0 1)

/-- An acknowledgement releases the covered flits of the retry buffer (R411). -/
def Port.acked (x : Port) (ack : BitVec 12) (now : Nat) : Port :=
  match x.retry.findIdx? fun f => f.seq == ack with
  | some i =>
    let gone := x.retry.take (i + 1)
    { x with retry := x.retry.drop (i + 1), replay := x.replay.filter fun f => !gone.contains f, lastAck := ack, ackAt := now, replays := 0 }
  | none => x

/-- A received count of freed flits (R415). -/
def Port.freedCount (x : Port) (v n : Nat) : Port :=
  { x with
    waitSince := if Tab.get (fun _ => 0) x.peerFreed v = n then x.waitSince else Tab.set (fun _ => none) x.waitSince v none
    peerFreed := Tab.set (fun _ => 0) x.peerFreed v n }

/-- Accept a data flit; the last one of a packet completes it (R409, R410). -/
def Port.accept (x : Port) (h : Nat) (body : List Byte) : Port :=
  let x := { x with rxSeq := BitVec.ofNat 12 h, discarding := false }
  let rx := (if bitOf h 28 then [] else x.rx) ++ [(bits h 25 3, BitVec.ofNat 8 (bits h 29 1), body)]
  if bitOf h 29 then
    let p := packetOf (rx.flatMap fun e => e.2.2)
    let p := if x.curFraming = 1 then { p with job := 0, ctx := 0xFFFF, bucket := 0, step := 0 } else p
    { x with rx := [], rxPackets := x.rxPackets ++ [(rx.length, p)] }
  else { x with rx := rx }

/-- FLIT_RECEIVE (R410): a good header's counts and acknowledgement are taken, a data flit in order is accepted, any other discarded with a
NAK at the first discard. -/
def flitReceive (p : Nat) (f : Flit) (s : State) : State :=
  let x := s.port p
  if x.state ≠ 2 ∨ x.curMode = 2 then s
  else
    let h := f.header.toNat
    let x := x.count 2 f.fecCorrected
    let good := f.fecOk && f.crc == flitCrc f.header f.body
    let discard (x : Port) : Port := { x with nakPending := x.nakPending || !x.discarding, discarding := true }
    if !good then
      s.setPort p (if bitOf h 30 then discard (x.count 1 1) else x)
    else
      let x := (x.freedCount (bits h 32 3) (bits h 35 16)).acked (BitVec.ofNat 12 (bits h 12 12)) s.now
      let x := if bitOf h 30 then
          (if BitVec.ofNat 12 h = x.rxSeq + 1 then x.accept h f.body else discard x)
        else x
      let s := s.setPort p x
      let s := if bitOf h 24 ∧ x.retry ≠ [] then s.startReplay p else s
      if !bitOf h 30 && f.body.headD 0 == 1 then s.goDown p 3 else s

def execFlitReceive (p : Fin 16) (f : Flit) (s : State) : Host.Outcome State Fault Refusal := live s (flitReceive p.val f)

/-- RETRY_TIMEOUT (R411). -/
def retryTimeout (p : Nat) (s : State) : State :=
  let x := s.port p
  if x.state = 2 ∧ x.curMode ≠ 2 ∧ x.retry ≠ [] ∧ x.ackAt + x.retryTo.toNat ≤ s.now then s.startReplay p else s

def execRetryTimeout (p : Fin 16) (s : State) : Host.Outcome State Fault Refusal := live s (retryTimeout p.val)

/-- RETRAIN_TIMEOUT (R413). -/
def retrainTimeout (p : Nat) (s : State) : State :=
  let x := s.port p
  if x.state = 3 ∧ x.trainAt + x.retrainMs.toNat * 100000 ≤ s.now then s.goDown p 2 else s

def execRetrainTimeout (p : Fin 16) (s : State) : Host.Outcome State Fault Refusal := live s (retrainTimeout p.val)

/-- RETRAIN_DONE: the port goes on with its sequence numbers and books and replays from the last ACK (R413). -/
def retrainDone (p : Nat) (s : State) : State :=
  let x := s.port p
  if x.state = 3 then s.setPort p { x with state := 2, replay := x.retry, replays := 0, ackAt := s.now } else s

def execRetrainDone (p : Fin 16) (s : State) : Host.Outcome State Fault Refusal := live s (retrainDone p.val)

/-- DOWN (R431, reason 3). -/
def down (p : Nat) (s : State) : State := s.goDown p 3

def execDown (p : Fin 16) (s : State) : Host.Outcome State Fault Refusal := live s (down p.val)

/-- ALIGNMENT_LOSS (R431, reason 1). -/
def alignmentLoss (p : Nat) (s : State) : State := s.goDown p 1

def execAlignmentLoss (p : Fin 16) (s : State) : Host.Outcome State Fault Refusal := live s (alignmentLoss p.val)

/-- Drop everything that still lies in a port's receive buffer (R432). -/
def State.dropBuffer (s : State) (p : Nat) : State :=
  let x := s.port p
  let mine (e : Option Nat × Packet) : Bool := e.1 == some p
  let n := x.rxPackets.length + (s.fab.inbox.filter mine).length
    + (s.fab.ports.map fun e => (e.2.queues.flatMap fun q => q.2.filter mine).length).foldl (· + ·) 0
  let s := s.setPort p { x with rxPackets := [], rx := [] }
  let keep (e : Nat × Port) : Nat × Port :=
    (e.1, { e.2 with queues := e.2.queues.filterMap fun q =>
      let l := q.2.filter fun w => !mine w
      if l = [] then none else some (q.1, l) })
  let s := { s with fab := { s.fab with inbox := s.fab.inbox.filter (fun e => !mine e), ports := s.fab.ports.map keep } }
  s.countDrop 3 n

/-- DRAIN_TIMEOUT (R432). -/
def drainTimeout (p : Nat) (s : State) : State :=
  let x := s.port p
  if x.state = 4 ∧ x.drainAt + 10000 ≤ s.now then
    let s := s.dropBuffer p
    s.setPort p (let y := s.port p
                 if y.mode = 0 then { y with state := 0 }
                 else if s.rst.portHeld.toNat.testBit p then { y with state := 5 } else y.train s.now)
  else s

def execDrainTimeout (p : Fin 16) (s : State) : Host.Outcome State Fault Refusal := live s (drainTimeout p.val)

/-! The switch (R421, R424-R426). -/

/-- The types that the chapters define for each virtual channel. -/
def typeDefined (vc : Nat) (t : Nat) : Bool :=
  match vc with
  | 0 => t == 1
  | 1 => t == 1 || t == 2
  | 2 => t == 1 || t == 2 || t == 3 || t == 4
  | 3 => t == 1 || t == 2
  | 4 => t == 1 || t == 2 || t == 3
  | 5 => t == 1 || t == 2 || t == 3 || t == 4 || t == 5 || t == 8
  | 6 => t == 4 || t == 5
  | _ => t == 1

/-- An admin request that arrived as a packet (R424, R575). -/
def adminReqOf (port : Option Nat) (p : Packet) : AdminReq :=
  { transport := 2, port := port, src := p.src, isLocal := p.isLocal, count := 0, desc := padTo 64 p.payload, params := p.payload.drop 64 }

/-- Deliver a packet to the unit that its channel and type name: stale contexts and undefined types are dropped with their credits returned
(R403, R421). A packet for the management processor joins its requests; an answer ends here. -/
def State.deliver (s : State) (port : Option Nat) (p : Packet) : State :=
  if p.ctx ≠ 0xFFFF ∧ s.ctxLive p.ctx = none then (s.stale p.src p.ctx p.vc.val port).freeFlits port p
  else if !typeDefined p.vc.val p.type.toNat then (s.countDrop 4 1).freeFlits port p
  else if p.vc.val = 6 then
    let s := s.freeFlits port p
    if p.type = 4 then { s with hif := { s.hif with adminQ := s.hif.adminQ ++ [adminReqOf port p] } } else s
  else { s with fab := { s.fab with inbox := s.fab.inbox ++ [(port, p)] } }

/-- The port choice of R425 among the set bits of a route entry. -/
def routeHash (src dst : BitVec 16) (vc : Nat) : Nat :=
  (((src * 0x9e37#16) ^^^ (dst * 0x85eb#16)) ^^^ BitVec.ofNat 16 vc).toNat

def State.routeEntry (s : State) (dst : BitVec 16) : BitVec 16 :=
  if dst.toNat / 256 ≠ s.fab.id.toNat / 256 ∨ !s.fab.valid then Tab.get (fun _ => 0) s.fab.groups (dst.toNat / 256)
  else Tab.get (fun _ => 0) s.fab.members (dst.toNat % 256)

/-- Queue a packet on a port that its route names (R414, R425, R433). The context of a packet that is formed here has been checked before it
is queued (R350, R366); generation-1 framing carries neither it nor the key. -/
def State.forward (s : State) (inp : Option Nat) (p : Packet) (out : Nat) : State :=
  let x := s.port out
  let a := if x.curMode = 2 then (x.alloc.getD p.vc.val 0).toNat else x.peerAlloc.getD p.vc.val 0
  if x.state ≠ 2 ∧ x.state ≠ 3 then (s.countDrop 1 1).freeFlits inp p
  else if 16 * a < 32 ∨ (x.curFraming = 1 ∧ 2 ≤ p.vc.val ∧ p.vc.val ≤ 5) then (s.countDrop 0 1).freeFlits inp p
  else
    let p := if x.curFraming = 1 then { p with job := 0, ctx := 0xFFFF, bucket := 0, step := 0 } else p
    s.setPort out { x with queues := Tab.modify (fun _ => []) x.queues p.vc.val fun l => l ++ [(inp, p)] }

/-- Answer an admin request: COMMAND_DONE on the admin ring, else the payload with an answer block: over MCTP, or as an ADMIN_ANSWER to the
requester, on the port it came by when it was LOCAL (R351, R424, R592). -/
def State.answerAdmin (s : State) (q : AdminReq) (status : Nat) (block : List Byte) : State :=
  if q.transport = 0 then s.adminDone q status
  else
    let bytes := donePayload (fieldAt q.desc 8 4) ⟨0x100, q.count⟩ status 0 0 ++ block
    if q.transport = 1 then s.sendOut (.adminAnswer 1 bytes)
    else
      let p := { packetTo q.src s.fab.id 6 5 s.fab.hopLimit with isLocal := q.isLocal, payload := bytes }
      match q.isLocal, q.port with
      | true, some out => s.forward none p out
      | _, _ => s.inject p

/-- Route a packet that came in by `inp` (R425, R571). -/
def State.route (s : State) (inp : Option Nat) (p : Packet) : State :=
  if p.vc.val = 6 ∧ p.isLocal then s.deliver inp p
  else if p.vc.val ≠ 6 ∧ s.boot.level ≠ 2 then (s.countDrop 0 1).freeFlits inp p
  else if s.fab.valid ∧ p.dst = s.fab.id then s.deliver inp p
  else if p.hops = 0 then (s.countDrop 2 1).freeFlits inp p
  else
    let e := (s.routeEntry p.dst).toNat
    let n := popcount 16 e
    if n = 0 then (s.countDrop 0 1).freeFlits inp p
    else
      match nthSetBit 16 e (routeHash p.src p.dst p.vc.val % n) 0 with
      | some out => s.forward inp { p with hops := p.hops - 1 } out
      | none => s

/-- PACKET_ROUTE: the oldest packet injected here, or the oldest received on a port (R425). -/
def packetRoute (port : Option Nat) (s : State) : State :=
  match port with
  | none =>
    match s.fab.inject with
    | [] => s
    | p :: rest => State.route { s with fab := { s.fab with inject := rest } } none p
  | some q =>
    let x := s.port q
    match x.rxPackets with
    | [] => s
    | (_, p) :: rest => ((s.setPort q { x with rxPackets := rest }).route (some q) p).afterDrain q

def execPacketRoute (port : Option (Fin 16)) (s : State) : Host.Outcome State Fault Refusal := live s (packetRoute (port.map Fin.val))

/-! Ethernet mode (R434, R435). -/

/-- Pause a priority when its free receive space has fallen to A_v / 2 (R435). -/
def State.pauseCheck (s : State) (p v : Nat) : State :=
  let x := s.port p
  let a := 16 * (x.alloc.getD v 0).toNat
  if !bitOf x.pausedRx.toNat v && decide (2 * (a - s.bufUsed p v) ≤ a) then
    (s.setPort p { x with pausedRx := BitVec.ofNat 8 (setBitOf x.pausedRx.toNat v true) }).sendOut (.pfc p v true)
  else s

/-- ETHERNET_FRAME_RECEIVE (R434). -/
def ethernetFrameReceive (p : Nat) (f : Frame) (s : State) : State :=
  let x := s.port p
  if x.state ≠ 2 ∨ x.curMode ≠ 2 then s
  else if !f.fcsOk || f.etherType != s.fab.etherType || f.dstMac.toNat / 65536 != s.fab.pfx.toNat then s.countDrop 5 1
  else (s.setPort p { x with rxPackets := x.rxPackets ++ [(flitsOf f.packet, f.packet)] }).pauseCheck p f.packet.vc.val

def execEthernetFrameReceive (p : Fin 16) (f : Frame) (s : State) : Host.Outcome State Fault Refusal :=
  live s (ethernetFrameReceive p.val f)

/-- PFC_PAUSE: the peer pauses or releases a priority (R435). -/
def pfcPause (p prio : Nat) (paused : Bool) (s : State) : State :=
  let x := s.port p
  if x.state ≠ 2 ∨ x.curMode ≠ 2 then s
  else s.setPort p { x with pausedTx := BitVec.ofNat 8 (setBitOf x.pausedTx.toNat prio paused) }

def execPfcPause (p : Fin 16) (prio : Fin 8) (paused : Bool) (s : State) : Host.Outcome State Fault Refusal :=
  live s (pfcPause p.val prio.val paused)

/-- Accept a write of FAB_PORTp_CFG (R405, R430, R550, R552). -/
def State.writePortCfg (s : State) (p v : Nat) : State :=
  let old := s.port p
  let x := old.takeCfg v
  let x := if s.flash.oos then { x with mode := 0 } else x
  let s := { s with rst := { s.rst with portHeld := BitVec.ofNat 16 (setBitOf s.rst.portHeld.toNat p false) } }
  let s := s.setPort p x
  if x.mode = 0 then
    let s := s.portOff p
    if (s.port p).state = 4 then s else s.setPort p { s.port p with state := 0, trained := false }
  else if (old.state = 0 ∨ old.state = 5) ∧ s.boot.level ≠ 0 ∧ !s.portStays p then s.setPort p (x.train s.now)
  else s

/-- Accept a write of FAB_PORTp_VCBUF: only while the port is off or down and the total is ≤ 128 (R414). -/
def State.writeVcbuf (s : State) (p v : Nat) : State :=
  let x := s.port p
  let l := (List.range 8).map fun i => fieldBv 8 v (8 * i)
  if (x.state = 0 ∨ x.state = 5) ∧ (l.foldl (fun n b => n + b.toNat) 0) ≤ 128 then s.setPort p { x with alloc := l } else s

end Sys2Proof.Machine
end

