-- ==== Sys2Proof/Machine/Funcs.lean ====
section
/-!
DEFINITION. The tabled functions of R200 as exact values, and the bounds that R200 sets on their results. A real number is held as an integer in
units of 2^−320, which is exact to far beyond any bound of R200 (log 4).
-/
namespace Sys2Proof.Machine

/-! Fixed-point reals. -/

/-- One. -/
def fxOne : Int := 2 ^ 320

/-- The quotient of two naturals. -/
def fxRat (a b : Nat) : Int := ((a * 2 ^ 320 / b : Nat) : Int)

def fxMul (a b : Int) : Int := a * b / 2 ^ 320
def fxDiv (a b : Int) : Int := a * 2 ^ 320 / b

/-- A finite FP32 value: exact, since no FP32 value has a bit below 2^−149. -/
def fxOf : Fp → Int
  | .fin neg m e => let v : Int := ((m * 2 ^ (e + 320).toNat : Nat) : Int); if neg then -v else v
  | _ => 0

/-- The series 1 + y/1 × (1 + y/2 × (1 + …)), of which `n` terms are still to be folded in behind term `k`. -/
def fxExpSeries (y : Int) : Nat → Nat → Int
  | 0, _ => fxOne
  | n + 1, k => fxOne + fxMul y (fxExpSeries y n (k + 1)) / k

/-- e^x: 0 below −256, and beyond any FP32 value above 256. -/
def fxExp (x : Int) : Int :=
  if x < -256 * fxOne then 0
  else if 256 * fxOne < x then 2 ^ 320 * fxOne
  else (List.range 12).foldl (fun y _ => fxMul y y) (fxExpSeries (x / 2 ^ 12) 48 1)

/-- Σ s^k t^(2k+1) / (2k+1): the inverse hyperbolic tangent for s = 1, and the inverse tangent for s = −1. -/
def fxAtanSeries (u : Int) : Nat → Nat → Int
  | 0, _ => 0
  | n + 1, k => fxOne / (2 * k + 1) + fxMul u (fxAtanSeries u n (k + 1))

def fxAtanh (t : Int) : Int := fxMul t (fxAtanSeries (fxMul t t) 120 0)
def fxAtan (t : Int) : Int := fxMul t (fxAtanSeries (-(fxMul t t)) 120 0)

/-- ln(1 + u) for 0 ≤ u ≤ 1. -/
def fxLog1p (u : Int) : Int := 2 * fxAtanh (fxDiv u (2 * fxOne + u))

def fxLn2 : Int := fxLog1p fxOne
def fxPi : Int := 16 * fxAtan (fxRat 1 5) - 4 * fxAtan (fxRat 1 239)

/-- The square root, by Newton's iteration from above. -/
def fxSqrt (x : Int) : Int :=
  let n : Nat := x.toNat * 2 ^ 320
  if n = 0 then 0 else (((List.range 14).foldl (fun (r : Nat) _ => (r + n / r) / 2) (2 ^ (Nat.log2 n / 2 + 1)) : Nat) : Int)

/-- ln z of a positive finite value. -/
def fxLog : Fp → Int
  | .fin _ m e =>
    let k := Nat.log2 m
    let x := fxRat m (2 ^ k)
    let (x, up) := if 3 * fxOne ≤ 2 * x then (x / 2, 1) else (x, 0)
    2 * fxAtanh (fxDiv (x - fxOne) (x + fxOne)) + (e + k + up) * fxLn2
  | _ => 0

/-! The functions of the table (R200). -/

/-- σ(z). -/
def fxSigma (z : Int) : Int :=
  let e := fxExp (-(z.natAbs : Int))
  if 0 ≤ z then fxDiv fxOne (fxOne + e) else fxDiv e (fxOne + e)

/-- σ(z) (1 − σ(z)). -/
def fxDSigma (z : Int) : Int :=
  let e := fxExp (-(z.natAbs : Int))
  fxDiv (fxDiv e (fxOne + e)) (fxOne + e)

/-- φ(z), the density of the normal distribution. -/
def fxDensity (z : Int) : Int := fxDiv (fxExp (-(fxMul z z) / 2)) (fxSqrt (2 * fxPi))

/-- 1 + u/3 × (1 + u/5 × (1 + …)). -/
def fxNormalSeries (u : Int) : Nat → Nat → Int
  | 0, _ => fxOne
  | n + 1, k => fxOne + fxMul u (fxNormalSeries u n (k + 1)) / (2 * k + 1)

/-- Φ(z), the normal distribution function; 0 or 1 beyond ±20, where it is nearer to them than any bound. -/
def fxNormal (z : Int) : Int :=
  let a : Int := z.natAbs
  let upper := if 20 * fxOne < a then fxOne else fxOne / 2 + fxMul (fxDensity a) (fxMul a (fxNormalSeries (fxMul a a) 600 1))
  if 0 ≤ z then upper else fxOne - upper

/-- 2 × 0.797 884 6 × (z + 0.044 715 z³), at which σ is ½ (1 + tanh …) of GELU_TANH; and its derivative. -/
def fxTanhArg (z : Int) : Int := 2 * fxMul (fxRat 7978846 10000000) (z + fxMul (fxRat 44715 1000000) (fxMul z (fxMul z z)))
def fxDTanhArg (z : Int) : Int := 2 * fxMul (fxRat 7978846 10000000) (fxOne + 3 * fxMul (fxRat 44715 1000000) (fxMul z z))

/-- The exact value of a tabled function, or of its derivative, at a finite argument at which it is finite. -/
def fnExact (idx : Nat) (deriv : Bool) (v : Fp) : Int :=
  let z := fxOf v
  match idx, deriv with
  | 0x04, false => fxMul z (fxNormal z)
  | 0x04, true => fxNormal z + fxMul z (fxDensity z)
  | 0x05, false => fxMul z (fxSigma (fxTanhArg z))
  | 0x05, true => fxSigma (fxTanhArg z) + fxMul z (fxMul (fxDSigma (fxTanhArg z)) (fxDTanhArg z))
  | 0x06, false => fxMul z (fxSigma z)
  | 0x06, true => fxMul (fxSigma z) (fxOne + fxMul z (fxOne - fxSigma z))
  | 0x07, false | 0x09, true => fxSigma z
  | 0x07, true => fxDSigma z
  | 0x08, false => let t := fxExp (-2 * (z.natAbs : Int)); let y := fxDiv (fxOne - t) (fxOne + t); if 0 ≤ z then y else -y
  | 0x08, true => 4 * fxDSigma (2 * z)
  | 0x09, false => max z 0 + fxLog1p (fxExp (-(z.natAbs : Int)))
  | 0x0A, _ => fxExp z
  | 0x0B, false => fxDiv fxOne (fxSqrt z)
  | 0x0B, true => -(fxDiv (fxDiv fxOne (fxSqrt z)) z) / 2
  | 0x0C, false | 0x0D, true => fxDiv fxOne z
  | 0x0C, true => -(fxDiv (fxDiv fxOne z) z)
  | 0x0D, false => fxLog v
  | _, _ => 0

/-- The bound of a tabled function in units in the last place (R200). -/
def fnUlp (idx : Nat) (deriv : Bool) : Nat :=
  match idx, deriv with
  | 0x04, false | 0x05, false | 0x06, false | 0x09, false => 4
  | 0x04, true | 0x05, true | 0x06, true => 8
  | 0x07, true | 0x08, true | 0x0B, true | 0x0C, true => 4
  | _, _ => 2

/-- Does an FP32 result keep the bound of R200: so many units in its last place, or 4 × 2^−149 where the magnitude is below 2^−120? -/
def fnWithin (ulp : Nat) (x : Int) (w : Word) : Bool :=
  match f32 w with
  | .fin neg m e =>
    let d := (fxOf (.fin neg m e) - x).natAbs
    if x.natAbs < 2 ^ 200 then decide (d ≤ 2 ^ 173) else decide (d ≤ ulp * 2 ^ (e + 320).toNat)
  | _ => false

/-- The result of a tabled function at a finite argument: the table's own where it keeps the bound of R200. What the table gives is free inside
the bound; for the rest the correctly rounded value stands, which R121 makes infinite beyond the FP32 range (R201, log 4). -/
def tabledFn (idx : Nat) (deriv : Bool) (z : Word) : Word :=
  let x := fnExact idx deriv (f32 z)
  let w := Config.tableFn idx deriv z
  if fnWithin (fnUlp idx deriv) x w then w else toF32 (.fin (decide (x < 0)) x.natAbs (-320))

end Sys2Proof.Machine
end

