-- ==== Sys2Proof/Machine/Hbm.lean ====
section
/-!
DEFINITION. HBM controllers (spec/07_hbm.md): the window, slots and write direction of a pseudo-channel, the outer code, scrubbing, the in-order
path. A write takes effect on memory, and a read takes its data, at acceptance, which is the ordering point (R15, R277).
-/
namespace Sys2Proof.Machine

/-- The HBM-controller clock of a stack. -/
def State.hbmCycle (s : State) (n : Nat) : Nat := (s.clockAt (if n < 12 then 5 else 6)).toNat

/-- The context and array of an engine number that issues requests (R255, R630): the RUN of an array, or the work of a gather engine or tier
ferry. -/
def State.engineCtx (s : State) (e : Nat) : Option (Nat × Nat) :=
  if e < 128 then (s.runOnArray (e / 16)).map fun r => (r.ctx, e / 16)
  else
    let i := if e < 132 then 0x18 + (e - 128) else if 136 ≤ e ∧ e < 144 then 0x10 + (e - 136) else 0x1C
    (s.engine i).work.head?.map fun w => (w.ctx, 0xFF)

/-! Requests. -/

def HbmPending.len (r : HbmPending) : Nat := if r.req.isWrite then r.req.data.length else r.req.size
def HbmPending.firstCw (r : HbmPending) : Nat := r.req.addr / 32
def HbmPending.lastCw (r : HbmPending) : Nat := (r.req.addr + r.len - 1) / 32
/-- The codewords that a request reaches, and those of them whose bursts have still to be served. -/
def HbmPending.cws (r : HbmPending) : List Nat := (List.range (r.lastCw + 1 - r.firstCw)).map (r.firstCw + ·)
def HbmPending.left (r : HbmPending) : List Nat := r.cws.filter fun c => !r.served.contains c
def HbmPending.covers (r : HbmPending) (cw : Nat) : Bool := decide (r.firstCw ≤ cw) && decide (cw ≤ r.lastCw)
def HbmPending.meets (r t : HbmPending) : Bool := decide (r.firstCw ≤ t.lastCw) && decide (t.firstCw ≤ r.lastCw)

/-- Must `r` wait for a request accepted before it (R277)? -/
def HbmPending.behind (r : HbmPending) (l : List HbmPending) : Bool :=
  l.any fun t => decide (t.seq < r.seq) && r.meets t && (r.req.isWrite || t.req.isWrite)

/-- Poison of the codewords that a write covers whole is gone with its acceptance (R264). -/
def State.cleanWhole (s : State) (a n : Nat) : State :=
  if s.hbm.poisoned = [] then s
  else (List.range ((a % 32 + n + 31) / 32)).foldl (fun s c =>
    let cwA := a - a % 32 + 32 * c
    if a ≤ cwA ∧ cwA + 32 ≤ a + n then s.setPoison (s.codeword cwA) false else s) s

/-- What acceptance does to memory: a write's bytes and invalidations; a read's data (R15, R244, R277, R282). -/
def State.accept (s : State) (q : HbmReq) (seq at_ : Nat) : HbmPending × State :=
  let r : HbmPending := { req := q, at_ := at_, seq := seq, slotted := false, poison := [], served := [], bad := false }
  if q.isWrite then (r, ((s.wrBytes q.addr q.data).cleanWhole q.addr q.data.length).snoop q.addr q.data.length)
  else ({ r with req := { q with data := s.rdN q.addr q.size }, poison := r.cws.filter fun c => s.isPoisoned (32 * c) }, s)

/-- One request lies within one granule of 256 bytes, which one pseudo-channel holds (R258). -/
def inGranule (q : HbmReq) : Bool :=
  let n := if q.isWrite then q.data.length else q.size
  decide (0 < n) && decide (q.addr / 256 = (q.addr + n - 1) / 256)

/-- Does a full window refuse an access to bytes of HBM (R275, R279)? -/
def State.windowFull (s : State) (a n : Nat) : Bool :=
  (List.range ((a + n - 1) / 256 + 1 - a / 256)).any fun i => match s.pcPlace (256 * (a / 256 + i)) with
    | some (st, pc, _, _) => decide (128 ≤ ((s.stack st).pc pc).window.length)
    | none => false

/-- A read's answer leaves, or its receiver takes poisoned data and its context is faulted (R265). -/
def State.answerRead (s : State) (r : HbmPending) : State :=
  if r.bad then
    let s := s.sendOut .readPoisoned
    match s.engineCtx r.req.tag with
    | some (c, a) => s.faultCtx c 3 a 0x0302 r.req.tag r.req.addr
    | none => s
  else s.sendOut (.readBytes r.req.data)

/-- HBM_REQUEST_ACCEPT: a request enters its pseudo-channel's window (R275); a full window refuses it, and a fenced access is not performed and
faults its context (R453). A request for a held line is passed to the shared cache, which serves it (R282). -/
def hbmRequestAccept (n : Nat) (q : HbmReq) (s : State) : State :=
  let len := if q.isWrite then q.data.length else q.size
  match s.pcPlace q.addr with
  | none => s
  | some (st, pc, _, _) =>
    if st ≠ n ∨ !inGranule q then s
    else if s.fenced q.isWrite q.addr len && !(decide (144 ≤ q.tag) && decide (q.tag < 168)) then
      (match s.engineCtx q.tag with
       | some (c, a) => s.faultCtx c 2 a 0 q.tag q.addr
       | none => s)
    else
      let k := s.stack n
      if s.lineHeld q.addr then
        let (r, s) := s.accept q k.seq (s.hbmCycle n)
        let s := (s.setStack n { k with seq := k.seq + 1 }).useLine (q.addr / 256) true q.isWrite
        if q.isWrite then s else s.answerRead { r with bad := r.poison != [] }
      else if 128 ≤ (k.pc pc).window.length then s
      else
        let (r, s) := s.accept q k.seq (s.hbmCycle n)
        let p := k.pc pc
        s.setStack n ({ k with seq := k.seq + 1 }.setPc pc { p with window := p.window ++ [r] })

def execHbmRequestAccept (stack : Fin 24) (q : HbmReq) (s : State) : Host.Outcome State Fault Refusal :=
  live s (hbmRequestAccept stack.val q)

/-! Slots (R275-R278). -/

/-- Bank and row of a request. -/
def State.bankRow (s : State) (r : HbmPending) : Nat × Nat :=
  match s.pcPlace r.req.addr with
  | some (_, _, b, row) => (b, row)
  | none => (0, 0)

def HbmPending.aged (now : Nat) (r : HbmPending) : Bool := decide (2048 ≤ now - r.at_)

/-- The order of R276 among requests that may have a slot. -/
def pickRequest (now : Nat) (openHit : HbmPending → Bool) (l : List HbmPending) : Option HbmPending :=
  (l.find? (HbmPending.aged now)).orElse fun _ => (l.find? openHit).orElse fun _ => l.head?

/-- Are writes served ahead of reads (R278)? -/
def drainsWrites (p : Pchan) (now : Nat) : Bool :=
  let ws := p.window.filter fun r => r.req.isWrite && !r.slotted
  (p.draining && decide (8 < ws.length)) || decide (32 ≤ ws.length) || ws.any (HbmPending.aged now)

/-! The outer code (R261-R273). -/

/-- What decoding a codeword gives. -/
inductive Decoded where
  | correct (pin : Option Nat)   -- with the pin outside the marks that was corrected
  | bad
  | wrong (pin : Option Nat) (others : List Nat)   -- miscorrected, outside the marks in `pin`; all of these may differ from what was written (R263)
  deriving DecidableEq, Repr

/-- R262, R263: up to one symbol outside the marks is corrected, and up to 3 or 2 of them, by the number of marks, never pass unnoticed. A pattern
beyond that may be miscorrected, in at most one symbol outside the marks, of the decoder's choice. -/
def decodeWord (marks wrong : List Nat) (cw fresh : Nat) : Decoded :=
  let k := wrong.filter fun i => decide (i < 36) && !marks.contains i
  match k with
  | [] => .correct none
  | [i] => .correct (some i)
  | _ =>
    if (k.length + marks.length ≤ 3 ∧ marks.length < 2) ∨ !Config.miscorrects cw fresh then .bad
    else
      let free := (List.range 36).filter fun i => !marks.contains i
      .wrong free[Config.choiceNat fresh % (free.length + 1)]? (k ++ marks)

/-- The symbol outside the marks that the decoder took to be in error. -/
def Decoded.pin : Decoded → Option Nat
  | .correct p => p
  | .bad => none
  | .wrong p _ => p

/-- The symbols that a decoding may give other values than those written. -/
def Decoded.free : Decoded → List Nat
  | .correct _ | .bad => []
  | .wrong p others => p.toList ++ others

/-- A codeword becomes poisoned, unless a write that was accepted after the read replaces it whole. -/
def State.poisonUnless (s : State) (cw : Nat) (later : List HbmPending) : State :=
  if later.any fun w => w.req.isWrite && decide (w.req.addr ≤ 32 * cw) && decide (32 * cw + 32 ≤ w.req.addr + w.len) then s
  else s.setPoison (s.codeword (32 * cw)) true

/-- A miscorrection puts free bytes in the symbols that it reaches, but for bytes that later writes replace (R263, R267). -/
def State.miscorrect (s : State) (cw : Nat) (pins : List Nat) (later : List HbmPending) : State :=
  if pins = [] then s
  else (List.range 32).foldl (fun s i =>
    let a := 32 * cw + i
    if !pins.contains i || later.any fun w => w.req.isWrite && decide (w.req.addr ≤ a) && decide (a < w.req.addr + w.len) then s
    else s.wrBytes a [Config.freeByte s.fresh a]) s

/-- A codeword that a read corrected outside the marks joins the write-backs of its pseudo-channel (R267). -/
def State.queueBack (s : State) (n q cw : Nat) : State :=
  let k := s.stack n
  let p := k.pc q
  s.setStack n (k.setPc q { p with scrubQ := p.scrubQ ++ [cw] })

/-- The controller reads a codeword with the given symbols in error and decodes it; counts, marks, poison and events follow (R262-R272). One that
was poisoned is uncorrectable. `later` are writes accepted after the read, and `back` tells whether a correction is written back: a merge read's is
not, since a write of the codeword follows. -/
def State.readCodeword (s : State) (cw : Nat) (poisoned back : Bool) (pins : List Nat) (later : List HbmPending) : Decoded × State :=
  match s.pcPlace (32 * cw) with
  | none => (.correct none, s)
  | some (n, q, _, _) =>
    if poisoned then (.bad, (s.raiseUe n q (32 * cw)).countUe n q)
    else
      let marks := s.marks n q
      let d := decodeWord marks pins cw s.fresh
      let s := match d with
        | .bad => ((s.poisonUnless cw later).raiseUe n q (32 * cw)).countUe n q
        | .correct _ | .wrong _ _ => s.miscorrect cw d.free later
      let s := match d.pin with
        | some pin => if back then (s.countCe n q pin).queueBack n q cw else s.countCe n q pin
        | none => s
      (d, s.tick)

/-- What a read's data become by the decoding of one of its codewords: free bytes in the symbols of a miscorrection. -/
def HbmPending.take (r : HbmPending) (cw : Nat) (d : Decoded) (fresh : Nat) : HbmPending :=
  { r with
    served := cw :: r.served, bad := r.bad || d == .bad
    req := { r.req with data := if d.free = [] then r.req.data else (List.range r.len).map fun i =>
      let a := r.req.addr + i
      if a / 32 = cw ∧ d.free.contains (a % 32) then Config.freeByte fresh a else r.req.data.getD i 0 } }

/-! Slots, bursts and completion (R264, R267, R275-R278). -/

/-- The writes that one burst of codeword `cw` carries: those waiting, from `w` on, that no read of it accepted in between separates (R277). -/
def mergedWrites (w : HbmPending) (cw : Nat) (l : List HbmPending) : List HbmPending :=
  l.filter fun t => t.req.isWrite && !t.slotted && t.covers cw && !t.served.contains cw && decide (w.seq ≤ t.seq)
    && !(l.any fun r => !r.req.isWrite && decide (w.seq < r.seq) && decide (r.seq < t.seq) && r.covers cw)

/-- A burst's codeword: written whole it is clean; else it is read, with symbols in error that are free values, and merged. An uncorrectable one
is left poisoned, with the event and the count of a demand read (R264, R269). -/
def State.writeCodeword (s : State) (cw : Nat) (ws later : List HbmPending) : State :=
  if (List.range 32).all fun i => ws.any fun w => decide (w.req.addr ≤ 32 * cw + i) && decide (32 * cw + i < w.req.addr + w.len) then
    s.setPoison (s.codeword (32 * cw)) false
  else (s.readCodeword cw (s.isPoisoned (32 * cw)) false (Config.symbolErrors cw s.fresh) later).2

/-- The request that takes the next slot of a pseudo-channel by R276 and R278, if any may. -/
def State.nextRequest (s : State) (n pc : Nat) : Option HbmPending :=
  let k := s.stack n
  let p := k.pc pc
  let now := s.hbmCycle n
  let slots : List HbmPending := p.window.filter fun r => r.slotted
  if 64 ≤ slots.length ∨ (k.chan (pc / 2)).resetAt.isSome then none
  else
    let may (r : HbmPending) : Bool :=
      !r.slotted && !r.behind (k.inorder ++ p.window)
        && decide ((slots.filter fun (t : HbmPending) => (s.bankRow t).1 == (s.bankRow r).1).length < 16)
    let openHit (r : HbmPending) : Bool := Tab.get (fun _ => none) p.openRows (s.bankRow r).1 == some (s.bankRow r).2
    let writes := p.window.filter fun r => r.req.isWrite && may r
    let reads := p.window.filter fun r => !r.req.isWrite && may r
    if drainsWrites p now then (pickRequest now openHit writes).orElse (fun _ => pickRequest now openHit reads)
    else pickRequest now openHit reads

/-- Does the head of a stack's in-order queue wait for a bank of a pseudo-channel? -/
def State.inorderWaits (s : State) (n pc : Nat) : Bool :=
  match (s.stack n).inorder with
  | [] => false
  | r :: _ => match s.pcPlace r.req.addr with
    | some (_, q, _, _) => q == pc
    | none => false

/-- The bursts of a write that has its slot. Each write in a burst is served for that codeword; one served whole leaves, and the write itself keeps
its slot until the end of the reference period (log 40). -/
def State.writeSlot (s : State) (n pc : Nat) (r : HbmPending) : State :=
  let k := s.stack n
  let p := k.pc pc
  let all := k.inorder ++ p.window
  let group (cw : Nat) : List HbmPending := mergedWrites r cw all
  let window := p.window.map fun t =>
    let t' := { t with served := (r.left.filter fun cw => (group cw).contains t) ++ t.served }
    if t == r then { t' with slotted := true } else t'
  let s := s.setStack n (k.setPc pc { p with window := window.filter fun t => !t.req.isWrite || t.slotted || t.left != [] })
  r.left.foldl (fun s cw => s.writeCodeword cw (group cw) (all.filter fun t => t.req.isWrite && decide (r.seq ≤ t.seq))) s

/-- HBM_SLOT_GRANT. A write's bursts leave with its slot; a read keeps its slot until HBM_READ_COMPLETE. Where no request can take the slot, the
oldest write-back of the scrub class takes it (R267, R268). -/
def hbmSlotGrant (n pc : Nat) (s : State) : State :=
  let k := s.stack n
  let p := k.pc pc
  let q := { p with draining := drainsWrites p (s.hbmCycle n) }
  if (k.chan (pc / 2)).resetAt.isSome then s
  else match s.nextRequest n pc with
  | none => s.setStack n (k.setPc pc (if s.inorderWaits n pc then q else { q with scrubQ := q.scrubQ.drop 1 }))
  | some r =>
    let q := { q with openRows := Tab.set (fun _ => none) q.openRows (s.bankRow r).1 (some (s.bankRow r).2) }
    if r.req.isWrite then (s.setStack n (k.setPc pc q)).writeSlot n pc r
    else s.setStack n (k.setPc pc { q with window := q.window.map fun t => if t == r then { t with slotted := true } else t })

def execHbmSlotGrant (stack : Fin 24) (q : Fin 32) (s : State) : Host.Outcome State Fault Refusal :=
  live s (hbmSlotGrant stack.val q.val)

/-- HBM_READ_COMPLETE: the next burst of the oldest slotted read of the pseudo-channel, with `e` the symbols in error. Every read that waits for the
same codeword takes the same burst (R277), and a read whose last burst this was is answered. -/
def hbmReadComplete (n pc : Nat) (e : SymbolErrors) (s : State) : State :=
  let k := s.stack n
  let p := k.pc pc
  match p.window.find? fun r => r.slotted && !r.req.isWrite with
  | none => s
  | some r =>
    let cw := r.left.headD r.firstCw
    let all := k.inorder ++ p.window
    let shares (t : HbmPending) : Bool := !t.req.isWrite && t.covers cw && !t.served.contains cw && !t.behind all
    let fresh := s.fresh
    let (d, s) := s.readCodeword cw (r.poison.contains cw) true (e.pins.map Fin.val) (all.filter fun t => decide (r.seq < t.seq))
    let took := p.window.map fun t => if shares t then t.take cw d fresh else t
    let whole (t : HbmPending) : Bool := !t.req.isWrite && t.left == []
    let k := s.stack n
    let s := s.setStack n (k.setPc pc { k.pc pc with window := took.filter fun t => !whole t })
    (took.filter whole).foldl State.answerRead s

def execHbmReadComplete (stack : Fin 24) (q : Fin 32) (e : SymbolErrors) (s : State) : Host.Outcome State Fault Refusal :=
  live s (hbmReadComplete stack.val q.val e)

/-- The slots of writes whose bursts have left are free again with the end of a reference period (log 40). -/
def State.freeWriteSlots (s : State) : State :=
  let stk := s.hbm.stk.foldl (fun (t : Tab Stack) e =>
    Tab.set (fun _ => Stack.reset) t e.1 { e.2 with pcs := e.2.pcs.foldl (fun (u : Tab Pchan) p =>
      Tab.set (fun _ => Pchan.reset) u p.1 { p.2 with window := p.2.window.filter fun r => !(r.slotted && r.req.isWrite) }) e.2.pcs }) s.hbm.stk
  { s with hbm := { s.hbm with stk := stk } }

/-- Does the oldest outstanding request of an engine wait in a window for a slot (R279)? -/
def State.waitsForSlot (s : State) (tag : Nat) : Bool :=
  let mine := s.hbm.stk.flatMap fun k => k.2.pcs.flatMap fun p => p.2.window.filter fun r => r.req.tag == tag
  mine.any fun r => !r.slotted && mine.all fun t => decide (r.at_ ≤ t.at_)

/-! Scrubbing (R268, R269). -/

/-- SCRUB_READ: a codeword that has not been read in the present interval is read, corrected and counted like a demand read; nothing receives its
data. The read yields to every request that can take a slot. -/
def scrubRead (addr : Nat) (e : SymbolErrors) (s : State) : State :=
  match s.pcPlace addr with
  | none => s
  | some (n, q, _, _) =>
    let k := s.stack n
    let cw := addr / 32
    if k.scrubbed.contains cw ∨ (k.chan (q / 2)).resetAt.isSome ∨ (s.nextRequest n q).isSome ∨ s.inorderWaits n q then s
    else
      let s := s.setStack n { k with scrubbed := cw :: k.scrubbed }
      (s.readCodeword cw (s.isPoisoned addr) true (e.pins.map Fin.val) ((k.inorder ++ (k.pc q).window).filter fun r => r.req.isWrite)).2

def execScrubRead (addr : Nat) (e : SymbolErrors) (s : State) : Host.Outcome State Fault Refusal := live s (scrubRead addr e)

/-- SCRUB_INTERVAL_END: after SCRUB_HOURS hours of the always-on counter the counts restart at 0 (R268, R269). -/
def scrubIntervalEnd (n : Nat) (s : State) : State :=
  let k := s.stack n
  if k.intervalAt + s.hbm.scrubHours.toNat * 360000000000 ≤ s.now then
    s.setStack n { k with
      intervalAt := s.now, scrubbed := []
      pcs := (List.range 32).foldl (fun t q => Tab.modify (fun _ => Pchan.reset) t q fun p => { p with ce := 0, pins := [] }) k.pcs
      chans := (List.range 16).foldl (fun t c => Tab.modify (fun _ => Chan.reset) t c fun x => { x with ue := 0 }) k.chans }
  else s

def execScrubIntervalEnd (stack : Fin 24) (s : State) : Host.Outcome State Fault Refusal := live s (scrubIntervalEnd stack.val)

/-! The in-order path (R280). -/

/-- Accept an access on the in-order queue of stack `n`. -/
def State.acceptNow (s : State) (n : Nat) (q : HbmReq) : State :=
  let k := s.stack n
  let (r, s) := s.accept q k.seq (s.hbmCycle n)
  s.setStack n { k with seq := k.seq + 1, inorder := k.inorder ++ [r] }

/-- A host, management or debug access comes to the in-order path of the stack that holds its first byte: into the queue, or, while that is full,
to wait for a place in it behind those that wait already (R280). -/
def State.acceptInOrder (s : State) (q : HbmReq) : State :=
  match s.hbmPlace q.addr with
  | none => s
  | some (n, _) =>
    let k := s.stack n
    if 8 ≤ k.inorder.length ∨ k.atDoor ≠ [] then s.setStack n { k with atDoor := k.atDoor ++ [q] }
    else s.acceptNow n q

/-- A place in the in-order queue has become free, and the oldest access that waits for one takes it. -/
def State.nextInOrder (s : State) (n : Nat) : State :=
  let k := s.stack n
  match k.atDoor with
  | [] => s
  | q :: rest => (s.setStack n { k with atDoor := rest }).acceptNow n q

/-- TIER_UNCORRECTED for a DDR5 address or, with `flash`, for a byte of a flash object (R300). -/
def State.raiseTierBad (s : State) (flash : Option Nat) (a : Nat) : State :=
  let (id, off, tier) := match flash with
    | some obj => (obj, a, 2)
    | none => (match s.objAt a 1 with | some o => (o.id.toNat, a - o.base, 1) | none => (0, regionOff a, 1))
  s.raise0 0x0304 srcTier (leBytes 8 id ++ leBytes 6 off ++ leBytes 1 tier)

/-- Report every poisoned codeword of a read, or the uncorrectable burst of a read of DDR5 (R265, R266, R300). -/
def State.reportPoison (s : State) (a n : Nat) : State :=
  if region a = 1 then
    match s.ddrBad a n with
    | some b => (s.raiseTierBad none (max a b)).tick
    | none => s
  else
    (List.range ((a % 32 + n + 31) / 32)).foldl (fun s c =>
      let cwA := a - a % 32 + 32 * c
      if s.isPoisoned cwA then
        match s.pcPlace cwA with
        | some (st, q, _, _) => (s.raiseUe st q cwA).countUe st q
        | none => s
      else s) s

/-- The bursts of an in-order read, one codeword after another; those of a held line come from the shared cache (R280, R282). -/
def State.inorderRead (s : State) (r : HbmPending) (later : List HbmPending) : HbmPending × State :=
  r.cws.foldl (fun (x : HbmPending × State) cw =>
    if x.2.lineHeld (32 * cw) then (x.1.take cw (if x.1.poison.contains cw then .bad else .correct none) x.2.fresh, x.2)
    else
      let (d, s) := x.2.readCodeword cw (x.1.poison.contains cw) true (Config.symbolErrors cw x.2.fresh) later
      (x.1.take cw d x.2.fresh, s)) (r, s)

end Sys2Proof.Machine
end

