-- ==== Sys2Proof/Machine/Atomics.lean ====
section
/-!
DEFINITION. The shared cache and its atomic operations (R281-R293).
-/
namespace Sys2Proof.Machine

def isArrayFerry (e : Nat) : Bool := decide (e < 0x10)
def isTierFerry (e : Nat) : Bool := decide (0x10 ≤ e) && decide (e < 0x18)
def isGather (e : Nat) : Bool := decide (0x18 ≤ e) && decide (e < 0x1C)

/-- The engine number of R255 and R630 of a ferry or gather engine. -/
def engineSource (e : Nat) : Nat := if e < 0x10 then 16 * (e / 2) + 7 + e % 2 else if e < 0x18 then 136 + (e - 0x10) else 128 + (e - 0x18)

/-- The array that an engine's fault names. -/
def engineArray (e : Nat) : Nat := if e < 0x10 then e / 2 else 0xFF

/-! Work of a ferry or gather engine. -/

/-- The work at the head of an engine's list. -/
def Engine.head (g : Engine) : Option Work := g.work.head?

def State.setHead (s : State) (e : Nat) (w : Work) : State :=
  let g := s.engine e
  s.setEngine e { g with work := w :: g.work.tail, noProg := 0 }

/-- The present record or step of an engine's work has had every write accepted: progress (R254, R547). -/
def State.wrote (s : State) (e : Nat) (w : Work) : State :=
  let g := s.engine e
  s.setEngine e { g with work := { w with written := true } :: g.work.tail, noProg := 0, held := 0, moved := true }

/-- May an engine go on with a work: it is not taken for a save or restore, and a RUN's programs go on only while the RUN holds its arrays
(R320, R389). -/
def State.mayWork (s : State) (e : Nat) (w : Work) : Bool :=
  !(s.engine e).forSave
    && (match w.run with
        | none => true
        | some k => (match s.runOf k with | some r => r.phase == RunPhase.granted && r.restoring == 0 | none => false))

/-- The work that an engine may go on with now, with its record of 64 bytes. -/
def State.activeWork (s : State) (e : Nat) : Option Work :=
  match (s.engine e).head with
  | some w => if s.mayWork e w && !w.written then some w else none
  | none => none

/-- Has the sequencer of its array reached the tile at which a gather step is issued (R368)? -/
def State.stepDue (s : State) (w : Work) : Bool :=
  w.run.isNone || decide (w.tile ≤ (s.array w.array).pos)

/-- Fault the context of an engine's work. -/
def State.faultWork (s : State) (e : Nat) (w : Work) (cause code source detail : Nat) : State :=
  s.faultCtx w.ctx cause (if e < 0x10 then e / 2 else 0xFF) code source detail

/-! Operations (R287). -/

/-- Is an operation defined, with a word of 2^size × 16 bits? -/
def atomicDefined (op size : Nat) : Bool :=
  if 1 ≤ op ∧ op ≤ 9 then size == 1 || size == 2
  else if op = 0x10 then size == 1
  else if op = 0x11 then size == 0
  else false

def atomicFloat (op : Nat) : Bool := op == 0x10 || op == 0x11

/-- The new value of a word of `n` bits. -/
def atomicNew (op n old operand compare : Nat) : Nat :=
  let x := operand % 2 ^ n
  match op with
  | 0x01 => (old + x) % 2 ^ n
  | 0x02 => old &&& x
  | 0x03 => old ||| x
  | 0x04 => old ^^^ x
  | 0x05 => min old x
  | 0x06 => max old x
  | 0x07 => if signedOf n old ≤ signedOf n x then old else x
  | 0x08 => if signedOf n old ≤ signedOf n x then x else old
  | 0x09 => if old = compare % 2 ^ n then x else old
  | 0x10 => (fadd (BitVec.ofNat 32 old) (BitVec.ofNat 32 x)).toNat
  | 0x11 => encodeFp bf16 .rne (f32 (toF32 (Fp.add (decodeFp bf16 old) (decodeFp bf16 x))))
  | _ => old

/-- FAULT cause of an atomic operation; 0 for none (R290, R292, R453). -/
def State.atomicFault (s : State) (op size a : Nat) : Nat :=
  let len := 2 ^ (size + 1)
  if !atomicDefined op size || !isHbm a || a % len != 0 || !s.mapped a then 2
  else if s.deterministic && atomicFloat op then 9
  else if s.fenced true a len then 2
  else if s.poisonIn a len then 3
  else 0

/-- Perform an atomic operation that is not refused: the old value, and the state after it. The line becomes held, and a change is reported to
the owning controller (R281, R283). -/
def State.atomicDo (s : State) (op size a operand compare : Nat) : Nat × State :=
  let len := 2 ^ (size + 1)
  let old := s.rdLe a len
  let new := atomicNew op (8 * len) old operand compare
  let s := s.useLine (a / 256) true (new != old)
  (old, if new = old then s else s.storeLe a len new)

/-- Who issues an atomic operation of a task: its context, its array and its source number (R288). -/
structure Issuer where
  ctx    : Nat
  array  : Nat
  source : Nat
  deriving DecidableEq, Repr

/-- An atomic operation of a task: the old value, or, where it is refused, none and the fault of the context (R290, R292). -/
def State.taskAtomic (s : State) (i : Issuer) (op size a operand compare : Nat) : Option Nat × State :=
  match s.atomicFault op size a with
  | 0 => let (old, s) := s.atomicDo op size a operand compare; (some old, s)
  | cause =>
    let len := 2 ^ (size + 1)
    let s := if cause = 3 then s.reportPoison a len else s
    (none, s.faultCtx i.ctx cause i.array (if cause = 3 then 0x0302 else 0) i.source a)

/-- Set bits of a byte by the or of its aligned 32-bit word; the answer is the old byte. -/
def State.orByte (s : State) (i : Issuer) (a mask : Nat) : Option Nat × State :=
  match s.taskAtomic i 3 1 (a / 4 * 4) (mask * 2 ^ (8 * (a % 4))) 0 with
  | (some old, s) => (some (old / 2 ^ (8 * (a % 4)) % 256), s)
  | x => x

/-! Atomic steps (R289, R368). -/

/-- The operation that ATOMIC stands for: its own, or, from a gather engine, that of the atomic step at which its list stands once it is due, with
the step's own operands. A step with a reserved field set is an invalid record. -/
def State.issued (s : State) (q : AtomicReq) : Except State AtomicReq :=
  if q.engine < 128 ∨ 132 ≤ q.engine then .ok q
  else
    let e := q.engine - 128 + 0x18
    match s.activeWork e with
    | none => .error s
    | some w =>
      let b := s.rdN w.addr 48
      let op := fieldAt b 0 1
      if w.run.isNone ∨ !s.stepDue w ∨ op = 0 ∨ 0x11 < op then .error s
      else if fieldAt b 4 4 ≠ 0 ∨ !zeroAt b 0xA 6 ∨ (op ≠ 9 ∧ fieldAt b 0x20 8 ≠ 0) then
        .error (s.faultWork e w 1 0 (engineSource e) w.pos)
      else .ok { q with
        ctx := some (Fin.ofNat 64 w.ctx), op := BitVec.ofNat 8 op, size := BitVec.ofNat 8 (fieldAt b 1 1), addr := fieldAt b 0x10 8
        operand := BitVec.ofNat 64 (fieldAt b 0x18 8), compare := BitVec.ofNat 64 (fieldAt b 0x20 8), ret := fieldAt b 0x28 8 }

/-- The step of a gather engine has been performed. -/
def State.atomicStepDone (s : State) (q : AtomicReq) : State :=
  if q.engine < 128 ∨ 132 ≤ q.engine then s
  else match s.activeWork (q.engine - 128 + 0x18) with
    | some w => s.wrote (q.engine - 128 + 0x18) w
    | none => s

/-- Perform an operation, and write the old value to RET when it is asked for; or refuse it and fault the issuer's context (R287-R292). -/
def State.doAtomic (s : State) (q : AtomicReq) : State :=
  let fault (s : State) (cause code detail : Nat) : State :=
    match q.ctx with
    | some c => s.faultCtx c.val cause (if q.engine < 128 then q.engine / 16 else 0xFF) code q.engine detail
    | none => s
  match s.atomicFault q.op.toNat q.size.toNat q.addr with
  | 0 =>
    let (old, t) := s.atomicDo q.op.toNat q.size.toNat q.addr q.operand.toNat q.compare.toNat
    if q.ret = 0 then t.atomicStepDone q
    else
      let len := 2 ^ (q.size.toNat + 1)
      let w := t.writeFault (match q.ctx with | some c => c.val | none => 64) q.ret len
      if w = 0 then (t.storeLe q.ret len old).atomicStepDone q else fault t w 0 q.ret
  | 3 => fault (s.reportPoison q.addr (2 ^ (q.size.toNat + 1))) 3 0x0302 q.addr
  | cause => fault s cause 0 q.addr

/-- ATOMIC (R287-R292). -/
def atomic (q : AtomicReq) (s : State) : State :=
  match s.issued q with
  | .ok q => s.doAtomic q
  | .error s => s

def execAtomic (q : AtomicReq) (s : State) : Host.Outcome State Fault Refusal := live s (atomic q)

end Sys2Proof.Machine
end

