-- ==== Sys2Proof/Machine/Streams.lean ====
section
/-!
DEFINITION. Tensor and stream descriptors (R219-R227): decoding, the addresses of a stream's rows, element indexes, validity.
-/
namespace Sys2Proof.Machine

/-- A tensor descriptor (R219). -/
structure TensorDesc where
  tensor   : Nat
  fmt      : Nat
  variant  : Bool
  frozen   : Bool
  scale    : Nat
  rowElems : Nat
  reserved : Bool
  deriving DecidableEq, Repr

def tensorDescOf (b : List Byte) : TensorDesc :=
  { tensor := fieldAt b 0 4, fmt := fieldAt b 4 1 % 16, variant := bitOf (fieldAt b 4 1) 4, frozen := bitOf (fieldAt b 5 1) 0,
    scale := fieldAt b 8 8, rowElems := fieldAt b 0x10 4,
    reserved := !(fieldAt b 4 1 < 32 && fieldAt b 5 1 < 2 && zeroAt b 6 2 && zeroAt b 0x14 12) }

def State.tensorDesc (s : State) (a : Nat) : TensorDesc := tensorDescOf (s.rdN a 32)

/-- Has a format variants (R186)? -/
def hasVariant (num : Nat) : Bool := num == 6 || num == 7

/-- A tensor descriptor that no rule calls invalid (R219, R220, R227, R634). -/
def TensorDesc.ok (t : TensorDesc) : Bool :=
  !t.reserved && decide (1 ≤ t.fmt) && decide (t.fmt ≤ 10) && (!t.variant || hasVariant t.fmt)
    && (if t.fmt = 9 ∨ t.fmt = 10 then t.scale != 0 else t.fmt == 4 || t.fmt == 5 || t.scale == 0)

/-- A stream descriptor (R221). -/
structure StreamDesc where
  base    : Nat
  tdesc   : Nat
  attach  : Nat
  index   : Nat
  mxscale : Nat
  eidx    : Nat
  role    : Nat
  flags   : Nat
  ndim    : Nat
  idim    : Nat
  wide    : Bool
  rowBytes : Nat
  laneOff : Nat
  pfdist  : Nat
  sync    : Nat
  lslots  : Nat
  lready  : Nat
  counts  : List Nat
  lslotBytes : Nat
  strides : List Int
  reserved : Bool
  deriving DecidableEq, Repr

def streamDescOf (b : List Byte) : StreamDesc :=
  { base := fieldAt b 0 8, tdesc := fieldAt b 8 8, attach := fieldAt b 0x10 8, index := fieldAt b 0x18 8, mxscale := fieldAt b 0x20 8,
    eidx := fieldAt b 0x28 6, role := fieldAt b 0x30 1, flags := fieldAt b 0x31 1, ndim := fieldAt b 0x32 1, idim := fieldAt b 0x33 1 % 8,
    wide := bitOf (fieldAt b 0x33 1) 3, rowBytes := fieldAt b 0x34 2, laneOff := fieldAt b 0x36 2, pfdist := fieldAt b 0x38 2,
    sync := fieldAt b 0x3A 2, lslots := fieldAt b 0x3C 2, lready := fieldAt b 0x3E 2,
    counts := (List.range 5).map (fun j => fieldAt b (0x40 + 4 * j) 4), lslotBytes := fieldAt b 0x54 4,
    strides := (List.range 5).map (fun j => signedOf 64 (fieldAt b (0x58 + 8 * j) 8)),
    reserved := !(zeroAt b 0x2E 2 && fieldAt b 0x31 1 < 8 && fieldAt b 0x33 1 < 16) }

def State.streamDesc (s : State) (a : Nat) : StreamDesc := streamDescOf (s.rdN a 128)

def StreamDesc.reuse (d : StreamDesc) : Bool := bitOf d.flags 0
def StreamDesc.prefetch (d : StreamDesc) : Bool := bitOf d.flags 1
def StreamDesc.keep (d : StreamDesc) : Bool := bitOf d.flags 2

/-- Address of index entry `i` (R223). -/
def StreamDesc.indexAddr (d : StreamDesc) (i : Nat) : Nat := d.index + i * (if d.wide then 4 else 2)
def StreamDesc.indexBytes (d : StreamDesc) : Nat := if d.wide then 4 else 2

/-- Rows of a stream: the product of the extents of dimensions 1 to NDIM − 1. -/
def StreamDesc.rows (d : StreamDesc) : Nat := (d.counts.take (d.ndim - 1)).foldl (· * ·) 1

/-- The counters of row `n`, dimension 1 first (R222). -/
def rowCounters : List Nat → Nat → List Nat
  | [], _ => []
  | c :: cs, n => n % c :: rowCounters cs (n / c)

def StreamDesc.counters (d : StreamDesc) (n : Nat) : List Nat := rowCounters (d.counts.take (d.ndim - 1)) n

/-- Row numbers recombined from counters (R226). -/
def recombine : List Nat → List Nat → Nat
  | c :: cs, i :: is => i + c * recombine cs is
  | _, _ => 0

/-- A row of a stream as R222 and R223 generate it. -/
structure RowAt where
  addr : Nat
  num  : Nat                     -- its row number after the substitution of R226
  null : Bool
  deriving DecidableEq, Repr

/-- Address of the index entry that row `n` takes, if the stream has an index stream. -/
def StreamDesc.rowIndexAddr (d : StreamDesc) (n : Nat) : Option Nat :=
  if d.idim = 0 ∨ d.index = 0 then none else some (d.indexAddr ((d.counters n).getD (d.idim - 1) 0))

/-- Row `n` from a base: the stream's BASE or that of the present landing slot. Addresses are numbers of 64 bits. -/
def State.rowAt (s : State) (d : StreamDesc) (base n : Nat) : RowAt :=
  let cs := d.counters n
  let (cs, null) : List Nat × Bool := match d.rowIndexAddr n with
    | some a =>
      let e := s.rdLe a d.indexBytes
      (cs.set (d.idim - 1) e, e == 2 ^ (8 * d.indexBytes) - 1)
    | none => (cs, false)
  let off : Int := ((cs.zip d.strides).map fun (i, st) => (i : Int) * st).foldl (· + ·) 0
  { addr := (((base : Int) + off) % 2 ^ 64).toNat, num := recombine (d.counts.take (d.ndim - 1)) cs, null := null }

/-- The element index of element `c` of a row (R226). -/
def StreamDesc.elemIndex (d : StreamDesc) (t : TensorDesc) (num c : Nat) : Nat := d.eidx + num * t.rowElems + c

/-- The end of the address region that an address lies in, by the table of R23. -/
def regionEnd (a : Nat) : Option Nat :=
  if a < ad1Base then some ad1Base
  else if a < hbmEnd then some hbmEnd
  else
    let size := match region a with | 1 => 0x400_0000_0000 | 2 => 0x2000_0000 | 3 => 0x400_0000 | 4 => 2 ^ 48 | _ => 0
    if regionOff a < size then some (region a * 2 ^ 48 + size) else none

/-- Does a row cross the end of its address region, or of the scratchpad part of its array window (R227)? -/
def rowCrosses (a n : Nat) : Bool :=
  (match regionEnd a with | some e => decide (e < a + n) | none => false)
    || (region a == 2 && decide (regionOff a % 0x400_0000 < 0x300_0000) && decide (0x300_0000 < regionOff a % 0x400_0000 + n))

/-- The MX scale address of the block that begins at byte address `a` (R224). -/
def StreamDesc.mxScaleAddr (d : StreamDesc) (num a : Nat) : Nat :=
  (((d.mxscale : Int) + ((a : Int) - d.base) / blockBytes num) % 2 ^ 64).toNat

/-- MXSCALE is 0 on a stream whose format is not MX (R221, R634). -/
def StreamDesc.scaleOk (d : StreamDesc) (num : Nat) : Bool := isMx num || d.mxscale == 0

/-- Do R224 and R225 hold of a stream? -/
def StreamDesc.shapeOk (d : StreamDesc) (num : Nat) (sp24 : Bool) : Bool :=
  let width := if sp24 then 2048 else 1024
  decide (1 ≤ d.rowBytes) && decide (d.rowBytes ≤ width) && decide (d.laneOff + d.rowBytes ≤ width)
    && (!isMx num || (d.base % blockBytes num == 0 && d.rowBytes % blockBytes num == 0 && d.laneOff % blockBytes num == 0
        && (d.strides.take (d.ndim - 1)).all fun st => st % (blockBytes num : Int) == 0))

/-- What R227 says of a stream by itself, whatever tile it serves. -/
def StreamDesc.plainOk (d : StreamDesc) : Bool :=
  !d.reserved && decide (d.role ≤ 0xA) && decide (1 ≤ d.ndim) && decide (d.ndim ≤ 6) && decide (d.idim < d.ndim)
    && ((d.counts.take (d.ndim - 1)).all fun c => c != 0) && (!d.reuse || d.role == 3) && (!d.keep || d.lslots != 0)
    && (d.lslots == 0 || decide (d.role ≤ 3))

/-- May a feeder of array `a` reach a data row at an address, by the stream's role (R217)? -/
def roleReaches (role a addr : Nat) : Bool :=
  let own := region addr == 2 && regionOff addr / 0x400_0000 == a && decide (regionOff addr % 0x400_0000 < 0x300_0000)
  if role ≤ 3 then own else own || (isHbm addr && dieOf addr == a / 4)

/-- May a feeder of array `a` read metadata at an address (R218)? -/
def metaReaches (a addr : Nat) : Bool :=
  (region addr == 2 && regionOff addr / 0x400_0000 == a && decide (regionOff addr % 0x400_0000 < 0x300_0000))
    || (isHbm addr && dieOf addr == a / 4)

/-- The position of the first tile at or after `from_` whose number modulo 65,536 is `tile`. -/
def tileFrom (from_ tile : Nat) : Nat := from_ + (tile + 65536 - from_ % 65536) % 65536

/-- Signal a context-relative object from a task; one outside the range faults the context (R367). -/
def State.signalTask (s : State) (c obj array source : Nat) : State :=
  if obj = 0xFFFF then s
  else
    match s.objOf c obj with
    | some o => s.signal o 1
    | none => s.faultCtx c 8 array 0 source obj

/-! Registered streams (R241). -/

/-- Register a stream with its die's cache as a step begins, or set its walk to the step's rows; a full table refuses it, once, and it runs
unregistered (R241). -/
def State.registerStream (s : State) (die desc engine ctx base row last : Nat) : State :=
  let d := s.streamDesc desc
  let a := (s.rowAt d base row).addr
  if !d.prefetch || !isHbm a || dieOf a != die then s
  else
    let x := s.dscAt die
    let mine (r : DscStream) : Bool := r.desc == desc && r.engine == engine
    if x.streams.any mine then
      s.setDsc die { x with streams := x.streams.map fun r => if mine r then { r with base := base, row := row, part := 0, last := last } else r }
    else if x.refused.any mine then s
    else if 1024 ≤ x.streams.length then
      s.setDsc die { x with
        refused := ⟨desc, engine, ctx, base, row, 0, last⟩ :: x.refused, counts := Tab.modify (fun _ => (0 : DWord)) x.counts 7 (· + 1) }
    else s.setDsc die { x with streams := x.streams ++ [⟨desc, engine, ctx, base, row, 0, last⟩] }

/-- Release the streams that a test selects, on both dies. -/
def State.releaseStreams (s : State) (p : DscStream → Bool) : State :=
  [0, 1].foldl (fun s die =>
    let x := s.dscAt die
    s.setDsc die { x with streams := x.streams.filter fun r => !p r, refused := x.refused.filter fun r => !p r }) s

/-- A consumer has taken a row of a registered stream: its walk goes on behind it (R242); a stationary block's rows are taken from the last down,
so its walk ends before it. -/
def State.streamTaken (s : State) (die desc engine row : Nat) (down : Bool) : State :=
  let x := s.dscAt die
  let mine (r : DscStream) : Bool := r.desc == desc && r.engine == engine && (if down then decide (row < r.last) else decide (r.row ≤ row))
  let walk (r : DscStream) : DscStream := if down then { r with last := row } else { r with row := row + 1, part := 0 }
  if x.streams.any mine then s.setDsc die { x with streams := x.streams.map fun r => if mine r then walk r else r }
  else s

end Sys2Proof.Machine
end

