-- ==== Sys2Proof/Machine/Tiles.lean ====
section
/-!
DEFINITION. Tiles and their arithmetic: tile records and their validity (R64, R65, R109), stationary blocks as wake loads have shifted them in
(R75, R112), carriers (R52-R56, R115-R117), and the bank entry of every result (R59, R113, R119).
-/
namespace Sys2Proof.Machine

/-! Tile records (R63-R67). -/

/-- A 128-bit tile record. -/
def tileRecOf (b : List Byte) : TileRec :=
  let w := leNat (b.take 16)
  { mode := bits w 0 2, fmt := bits w 2 4, act := bits w 6 1, park := bits w 7 1, lden := bitOf w 8, ldreg := bits w 9 1, badd := bitOf w 10,
    final := bitOf w 11, m := bits w 12 12, r := bits w 24 11, c := bits w 35 11, ldext := bits w 46 11, brow := bits w 64 11,
    reserved := bits w 57 7 != 0 || bits w 75 53 != 0 }

/-- BF16 and FP16 tiles (R112). -/
def is16 (fmt : Nat) : Bool := fmt == 0xC || fmt == 0xD
/-- MXFP4 and FP4-E2M1 tiles (R110). -/
def is4 (fmt : Nat) : Bool := fmt == 0xA || fmt == 0xB

/-- The format number and variant of the first and the second operand of an FMT code (R96, R109). -/
def fmtOperands (fmt : Nat) : Option ((Nat × Bool) × (Nat × Bool)) :=
  match fmt with
  | 0x0 => some ((4, false), (4, false))
  | 0x1 => some ((4, false), (5, false))
  | 0x2 => some ((5, false), (5, false))
  | 0x3 => some ((6, false), (6, false))
  | 0x4 => some ((6, false), (6, true))
  | 0x5 => some ((6, true), (6, true))
  | 0x6 => some ((7, true), (7, true))
  | 0x7 => some ((7, true), (7, false))
  | 0x8 => some ((7, false), (7, false))
  | 0x9 => some ((10, false), (10, false))
  | 0xA => some ((8, false), (8, false))
  | 0xB => some ((9, false), (9, false))
  | 0xC => some ((2, false), (2, false))
  | 0xD => some ((3, false), (3, false))
  | _ => none

def TileRec.row (t : TileRec) : Bool := t.mode == 0
def TileRec.col (t : TileRec) : Bool := t.mode == 1
def TileRec.hold (t : TileRec) : Bool := t.mode == 2

/-- Is a record valid by itself (R65, R109)? What depends on the tile that follows, on its streams and on its epilogue is checked beside. -/
def TileRec.ok (t : TileRec) : Bool :=
  !t.reserved && decide (t.mode ≤ 2) && (fmtOperands t.fmt).isSome && (t.row || !is4 t.fmt)
    && decide (1 ≤ t.r) && decide (t.r ≤ 1024) && decide (1 ≤ t.c) && decide (t.c ≤ 1024) && decide (t.m ≤ 2048)
    && (!t.lden || (decide (1 ≤ t.ldext) && decide (t.ldext ≤ 1024)))
    && (t.m != 0 || (t.lden && !t.hold))
    && (t.hold || !t.lden || t.ldreg != t.act)
    && decide (t.brow + (if t.hold then t.r else t.m) ≤ 2048)

/-- Bank rows that a tile may write: first and count (R59). -/
def TileRec.bankRows (t : TileRec) : Nat × Nat := (t.brow, if t.hold then t.r else t.m)

/-- Does a tile write the east bank? -/
def TileRec.east (t : TileRec) : Bool := t.col

/-- Does a tile read the west, or the north, moving lanes (R59)? -/
def TileRec.usesWest (t : TileRec) : Bool := !t.col && t.m != 0
def TileRec.usesNorth (t : TileRec) : Bool := !t.row && t.m != 0

/-- The operand format of a tile's stream by role (R109, R227): stationary W, moving X, moving dY. A hold tile's load is not its operand. -/
def TileRec.streamFmt (t : TileRec) (role : Nat) : Option (Nat × Bool) :=
  match fmtOperands t.fmt with
  | none => none
  | some (f, g) =>
    if role ≤ 1 then (if t.hold then none else some f)
    else if role = 2 then some (if t.hold then f else g)
    else some g

/-! Operand rows. -/

/-- The code of element `e` of a lane row in a tile's lanes (R110, R112): a byte, a nibble of a byte, or a byte pair. -/
def LaneRow.code (x : LaneRow) (fmt e : Nat) : Nat :=
  let lane (i : Nat) : Nat := (x.lanes.getD i 0).toNat
  if is4 fmt then (if e % 2 = 0 then lane (e / 2) % 16 else lane (e / 2) / 16)
  else if is16 fmt then lane (2 * e) + 256 * lane (2 * e + 1)
  else lane e

/-- The value of element `e` of a moving vector, with its block scale (R100, R111). -/
def LaneRow.value (x : LaneRow) (fmt : Nat) (f : Nat × Bool) (e : Nat) : Fp :=
  applyScale (x.scales.getD e 127) (decodeElem f.1 f.2 (x.code fmt e))

/-! Stationary blocks. -/

/-- What the chains have shifted into cell (k, n): the row and the lane position in it, or, behind every injection, the cell whose undefined
value has moved there. An injection by the north chain moves every row one south, one by the west chain every column one east, so cells
beyond a load keep what stood there before it, shifted (R75, R76, R78). -/
def shifted : List Injection → Nat → Nat → (LaneRow × Nat) ⊕ (Nat × Nat)
  | [], k, n => .inr (k, n)
  | i :: rest, k, n =>
    if i.north then (match k with | 0 => .inl (i.row, n) | k + 1 => shifted rest k n)
    else (match n with | 0 => .inl (i.row, k) | n + 1 => shifted rest k n)

def RegBlock.at_ (b : RegBlock) (k n : Nat) : (LaneRow × Nat) ⊕ (Nat × Nat) := shifted b.hist k n

/-- One injection (R75). No cell lies more than 2,047 injections deep. -/
def RegBlock.inject (b : RegBlock) (north : Bool) (row : LaneRow) (cyc : Nat) : RegBlock :=
  { b with hist := ({ row := row, north := north } :: b.hist).take 2047, lastAt := cyc }

/-- The element of an injection that lane position `p` holds, `h` being the nibble of a 4-bit value. -/
def laneElem (fmt p h : Nat) : Nat := if is4 fmt then 2 * p + h else if is16 fmt then p / 2 else p

/-- An undefined stationary value: what no load has replaced since reset, a resume or an abandoned load (log 3). -/
def RegBlock.freeCode (b : RegBlock) (fmt k n h : Nat) : Nat :=
  let byte (i : Nat) : Nat := (Config.freeLane b.epoch k i).toNat
  if is4 fmt then (if h = 0 then byte n % 16 else byte n / 16) else if is16 fmt then byte n + 256 * byte (n + 1) else byte n

/-- The stationary value that physical cell (k, n) holds, at nibble `h`, in the first operand's format; zero where it is cleared (R155). -/
def RegBlock.value (b : RegBlock) (fmt : Nat) (f : Nat × Bool) (k n h : Nat) : Fp :=
  match b.at_ k n with
  | .inl (x, p) =>
    let e := laneElem fmt p h
    if x.clear.getD (e / 32) false then .fin false 0 0 else x.value fmt f e
  | .inr (i, j) => decodeElem f.1 f.2 (b.freeCode fmt i j h)

/-- The select of a 2:4 value (R146, R150). -/
def RegBlock.sel (b : RegBlock) (fmt k n h : Nat) : Nat :=
  match b.at_ k n with
  | .inl (x, p) => x.sels.getD (laneElem fmt p h) 0
  | .inr (i, j) => b.freeCode fmt i j h % 4

/-! Carriers. -/

/-- The class of a carrier (R116). -/
inductive Cls where
  | finite
  | posInf
  | negInf
  | nan
  deriving DecidableEq, Repr

/-- A carrier: significand, exponent, class; its value is S × 2^(E − 30). -/
structure Carrier where
  s   : Int
  e   : Int
  cls : Cls
  deriving DecidableEq, Repr

/-- The zero carrier (R52). -/
def Carrier.zero : Carrier := { s := 0, e := -512, cls := .finite }

/-- Arithmetic right shift, discarding toward −∞ (R54). -/
def asr (s : Int) (k : Nat) : Int := s / (2 ^ k : Nat)

/-- Restore 2^30 ≤ |S| < 2^31, or the zero carrier (R52, R55). -/
def normalise (s e : Int) : Int × Int :=
  if s = 0 then (0, -512)
  else
    let l := Nat.log2 s.natAbs
    if l ≤ 30 then (s * (2 ^ (30 - l) : Nat), e - (30 - l : Nat))
    else
      let t := asr s (l - 30)
      if t.natAbs < 2 ^ 31 then (t, e + (l - 30 : Nat)) else (asr s (l - 29), e + (l - 29 : Nat))

/-- IEEE 754 addition of classes (R116). -/
def Cls.add (a b : Cls) : Cls :=
  match a, b with
  | .nan, _ | _, .nan => .nan
  | .finite, x => x
  | x, .finite => x
  | x, y => if x = y then x else .nan

/-- The class that a product brings (R116). -/
def clsOf (v : Fp) : Cls :=
  match v with
  | .fin _ _ _ => .finite
  | .inf s => if s then .negInf else .posInf
  | .nan => .nan

/-- A product with an operand of zero is not absorbed (R115). -/
def product (a b : Fp) : Option Fp := if a.isZero || b.isZero then none else some (a.mul b)

/-- Place a finite non-zero product as P × 2^(e_p − 30) with 2^30 ≤ |P| < 2^31 (R53). A product of listed formats has at most 22 bits. -/
def place30 (neg : Bool) (mag : Nat) (e : Int) : Int × Int :=
  let l := Nat.log2 mag
  let p : Int := (mag * 2 ^ (30 - l) : Nat)
  (if neg then -p else p, e + l)

/-- One crossing of a stand: align, absorb, normalise (R54, R55, R116). -/
def Carrier.cross (c : Carrier) (ps : List Fp) : Carrier :=
  let fs := ps.filterMap fun v => match v with | .fin s m e => if m = 0 then none else some (place30 s m e) | _ => none
  let cls := ps.foldl (fun k v => k.add (clsOf v)) c.cls
  match fs with
  | [] => { c with cls := cls }
  | _ =>
    let e1 := fs.foldl (fun (a : Int) p => max a p.2) c.e
    let s := fs.foldl (fun (a : Int) p => a + asr p.1 (e1 - p.2).toNat) (asr c.s (e1 - c.e).toNat)
    let (s, e) := normalise s e1
    { s := s, e := e, cls := cls }

/-- The edge's conversion to FP32 (R119). -/
def Carrier.toWord (c : Carrier) : Word :=
  match c.cls with
  | .nan => fnan
  | .posInf => fposInf
  | .negInf => fnegInf
  | .finite => if c.s = 0 then fzero else toF32 (.fin (decide (c.s < 0)) c.s.natAbs (c.e - 30))

/-! Results. -/

/-- The first operand's and the second operand's format of a tile. -/
def TileRec.ops (t : TileRec) : (Nat × Bool) × (Nat × Bool) := (fmtOperands t.fmt).getD ((10, false), (10, false))

/-- The physical row of logical row `κ` and its nibble. -/
def rowOfLogical (fmt κ : Nat) : Nat × Nat := if is4 fmt then (κ / 2, κ % 2) else if is16 fmt then (2 * κ, 0) else (κ, 0)

/-- The moving element that the cell of logical stationary row `κ` taps: its own, or with 2:4 the one that its select names (R145, R148). -/
def tapped (b : RegBlock) (fmt k n h κ : Nat) (sp24 : Bool) : Nat := if sp24 then 4 * (κ / 2) + b.sel fmt k n h else κ

/-- The products that a row-mode carrier of column `n` absorbs in stand row `i` (R56, R110, R112, R145). -/
def rowProducts (t : TileRec) (sp24 : Bool) (b : RegBlock) (x : LaneRow) (n i : Nat) : List Fp :=
  let ks := if is4 t.fmt then (List.range 4).map (4 * i + ·) else if is16 t.fmt then [i] else [2 * i, 2 * i + 1]
  ks.filterMap fun κ =>
    let (k, h) := rowOfLogical t.fmt κ
    if t.r ≤ k then none
    else product (b.value t.fmt t.ops.1 k n h) (x.value t.fmt t.ops.2 (tapped b t.fmt k n h κ sp24))

/-- Result of a row-mode vector in column `n` (R59, R60). Stands beyond R pass the carrier on unchanged (R90, R91). -/
def rowEntry (t : TileRec) (sp24 : Bool) (b : RegBlock) (x : LaneRow) (n : Nat) : Word :=
  ((List.range ((t.r + 1) / 2)).foldl (fun (c : Carrier) i => c.cross (rowProducts t sp24 b x n i)) Carrier.zero).toWord

/-- The products that a column-mode carrier of row `k` absorbs in stand column `j` (R56, R113). -/
def colProducts (t : TileRec) (b : RegBlock) (y : LaneRow) (k j : Nat) : List Fp :=
  let ns := if is16 t.fmt then [2 * j, 2 * j + 1] else (List.range 4).map (4 * j + ·)
  ns.filterMap fun ν =>
    let n := if is16 t.fmt then 2 * ν else ν
    if t.c ≤ n then none else product (y.value t.fmt t.ops.2 ν) (b.value t.fmt t.ops.1 k n 0)

/-- Result of a column-mode vector in row `k`. -/
def colEntry (t : TileRec) (b : RegBlock) (y : LaneRow) (k : Nat) : Word :=
  ((List.range ((t.c + 3) / 4)).foldl (fun (c : Carrier) j => c.cross (colProducts t b y k j)) Carrier.zero).toWord

/-- The product of one issued slot of a hold tile at cell (k, n). -/
def holdProduct (t : TileRec) (k n : Nat) (x : Slot) : List Fp :=
  match x.west, x.north with
  | some w, some y => (product (w.value t.fmt t.ops.1 (laneElem t.fmt k 0)) (y.value t.fmt t.ops.2 (laneElem t.fmt n 0))).toList
  | _, _ => []

/-- A of cell (k, n) after a hold tile: one crossing for each pair of moving vectors 2j and 2j + 1, of which a dropped one brings nothing (R56,
R57, R61). -/
def holdCarrier (t : TileRec) (k n : Nat) : List Slot → Carrier → Carrier
  | [], c => c
  | [x], c => c.cross (holdProduct t k n x)
  | x :: y :: rest, c =>
    if x.idx / 2 = y.idx / 2 then holdCarrier t k n rest (c.cross (holdProduct t k n x ++ holdProduct t k n y))
    else holdCarrier t k n (y :: rest) (c.cross (holdProduct t k n x))

/-- The drained result of cell (k, n). -/
def holdEntry (t : TileRec) (slots : List Slot) (k n : Nat) : Word := (holdCarrier t k n slots Carrier.zero).toWord

/-! Bank entries. -/

/-- An FP32 bank entry as it stands. -/
def State.bankWord (s : State) (a : Nat) (east : Bool) (row col : Nat) : Word :=
  BitVec.ofNat 32 (leNat (s.mem.readN (bankAddr a east row col) 4))

/-- Write or add one bank entry, which makes its row live (R58, R120, R388). -/
def State.bankWrite (s : State) (a : Nat) (east badd : Bool) (row col : Nat) (v : Word) : State :=
  let w := if badd then fadd (s.bankWord a east row col) v else v
  let x := s.array a
  let s := { s with mem := s.mem.writeN (bankAddr a east row col) (leBytes 4 w.toNat) }
  s.setArray a { x with liveRows := Tab.set (fun _ => false) x.liveRows (if east then 2048 + row else row) true }

/-- Does entry `col` of a result row exist in a tile's format (R113)? -/
def entryExists (fmt col : Nat) : Bool := !is16 fmt || col % 2 == 0

/-! Tiles and drains under way (R67, R82, R94). -/

/-- The last entry of a result row of `w` physical entries that is written. -/
def lastEntry (fmt w : Nat) : Nat := if is16 fmt then (w - 1) / 2 * 2 else w - 1

/-- The cycle of a drain's last bank write. -/
def Drain.doneAt (d : Drain) : Nat := d.front + 2047 + lastEntry d.fmt d.c

/-- The cycle in which a drain's last value, row 0 of column 1,023, is emitted, written or not (R82, R83). -/
def Drain.overAt (d : Drain) : Nat := d.front + 3069

/-- Has a drain bank writes left? -/
def ArrayUnit.draining (x : ArrayUnit) : Bool := x.drains.any fun d => decide (x.cyc < d.doneAt)

/-- Is a tile in flight? A hold tile is until the last cell inside R × C has parked (R67, R94). -/
def ArrayUnit.tileInFlight (x : ArrayUnit) : Bool :=
  x.inflight != [] || x.drains.any fun d => decide (x.cyc + 2 ≤ d.front + d.r + d.c)

end Sys2Proof.Machine
end

