-- ==== Sys2Proof/Machine/Feeders.lean ====
section
/-!
DEFINITION. The west and north feeders (R216-R234, R238): attachments, the rows that a stream delivers to the lanes, stream programs, operand
queues, landings as a feeder reads them, empty marks.
-/
namespace Sys2Proof.Machine

/-! Sparsity attachments (R141-R162). -/

/-- A sparsity attachment; all zero where a stream has none. -/
structure Attach where
  flags     : Nat
  occStride : Nat
  occAddr   : Nat
  selAddr   : Nat
  selStride : Nat
  reserved  : Bool
  deriving DecidableEq, Repr

def attachOf (b : List Byte) : Attach :=
  { flags := fieldAt b 0 1, occStride := fieldAt b 4 4, occAddr := fieldAt b 8 8, selAddr := fieldAt b 0x10 8, selStride := fieldAt b 0x18 4,
    reserved := !(decide (fieldAt b 0 1 < 16) && zeroAt b 1 3 && zeroAt b 0x1C 4) }

def Attach.none_ : Attach := { flags := 0, occStride := 0, occAddr := 0, selAddr := 0, selStride := 0, reserved := false }

def State.attach (s : State) (d : StreamDesc) : Attach := if d.attach = 0 then Attach.none_ else attachOf (s.rdN d.attach 32)

def Attach.occ (a : Attach) : Bool := bitOf a.flags 0
def Attach.sp24 (a : Attach) : Bool := bitOf a.flags 1
def Attach.zskip (a : Attach) : Bool := bitOf a.flags 2
def Attach.emitOcc (a : Attach) : Bool := bitOf a.flags 3

/-- Does a stream of a role allow the flags of its attachment (R142, R143)? -/
def Attach.ok (a : Attach) (role : Nat) : Bool :=
  !a.reserved && (if role ≤ 1 then decide (a.flags < 4) else if role ≤ 3 then decide (a.flags < 8)
    else if role ≤ 5 then a.flags == 0 || a.flags == 8 else a.flags == 0)

/-- Address of the map word of a tensor position, and its bit (R152). -/
def Attach.occWord (a : Attach) (row col : Nat) : Nat := a.occAddr + row / 32 * a.occStride + 8 * (col / 32 / 64)

/-- Does a stored position lie in a clearing (R152, R153)? -/
def State.clearing (s : State) (a : Attach) (row col : Nat) : Bool := a.occ && !bitOf (s.rdLe (a.occWord row col) 8) (col / 32 % 64)

/-! Rows as the lanes receive them (R222-R227). -/

/-- Elements of a row and the element position of its first lane. FP6 rows are unpacked to one element a lane (log 30). -/
def StreamDesc.elems (d : StreamDesc) (num : Nat) : Nat := d.rowBytes * 8 / elemBits num
def StreamDesc.firstElem (d : StreamDesc) (num : Nat) : Nat := d.laneOff * 8 / elemBits num

/-- Tensor row and column of element `c` of row number `n` (R226). -/
def StreamDesc.place (d : StreamDesc) (t : TensorDesc) (n c : Nat) : Nat × Nat :=
  (d.elemIndex t n c / t.rowElems, d.elemIndex t n c % t.rowElems)

/-- The stored row and column of element `c` of row number `n`: its tensor position, but on a north stationary stream of a 4-bit format, whose
memory row k holds rows 2k and 2k + 1 of the tensor nibble by nibble, row 2k + c mod 2 and column c div 2 (R110, R146, R152-R154). -/
def StreamDesc.stored (d : StreamDesc) (t : TensorDesc) (n c : Nat) : Nat × Nat :=
  let p := d.place t n c
  if d.role = 0 ∧ elemBits t.fmt = 4 then (2 * p.1 + p.2 % 2, p.2 / 2) else p

/-- The block of a tensor position (R101). -/
def TensorDesc.blockOf (t : TensorDesc) (p : Nat × Nat) : Nat := p.1 * ceilDiv t.rowElems 32 + p.2 / 32

/-- The bump of a block in a scale record (R128). -/
def State.bump (s : State) (rec_ i : Nat) : Nat :=
  if i % 2 = 0 then s.rdLe (rec_ + 0x80 + i / 2) 1 % 16 else s.rdLe (rec_ + 0x80 + i / 2) 1 / 16

/-- The scale exponent of a block of a delayed-scaled tensor: T + b, at most 127; 0 without a record (R130, R220). -/
def State.scaleExp (s : State) (rec_ i : Nat) : Int :=
  if rec_ = 0 then 0 else min 127 (signedOf 8 (s.rdLe (rec_ + 8) 1) + s.bump rec_ i)

/-- The E8M0 scale of element `c` of a row (R102, R224). -/
def State.elemScale (s : State) (d : StreamDesc) (t : TensorDesc) (row : RowAt) (c : Nat) : Nat :=
  if row.null then 127
  else if isMx t.fmt then s.rdLe (d.mxScaleAddr t.fmt (row.addr + c / 32 * blockBytes t.fmt)) 1
  else if isDelayed t.fmt then (s.scaleExp t.scale (t.blockOf (d.place t row.num c)) + 127).toNat
  else 127

/-- Is an element code zero: +0, −0, or 0x00 of INT8 (R156)? -/
def zeroCode (num code : Nat) : Bool := if num = 10 then code == 0 else code % 2 ^ (elemBits num - 1) == 0

/-- The elements of a row: code, scale, and whether it lies in a clearing, whose elements are zeros whatever the memory holds (R153). -/
def State.rowElements (s : State) (d : StreamDesc) (t : TensorDesc) (att : Attach) (row : RowAt) : List (Nat × Nat × Bool) :=
  let bs := if row.null then [] else s.rdN row.addr d.rowBytes
  (List.range (d.elems t.fmt)).map fun c =>
    let p := d.stored t row.num c
    if s.clearing att p.1 p.2 then (0, 127, true) else (if row.null then 0 else elemAt t.fmt bs c, s.elemScale d t row c, false)

/-- Is element `c` of a row known zero (R156)? With ZSKIP every element of its group of 32, from the tensor's origin, is looked at. -/
def knownZero (d : StreamDesc) (t : TensorDesc) (att : Attach) (num_ : Nat) (els : List (Nat × Nat × Bool)) (c : Nat) : Bool :=
  match els[c]? with
  | none => true
  | some e =>
    e.2.2 || (att.zskip && ((List.range els.length).all fun c' =>
      let p := d.place t num_ c
      let q := d.place t num_ c'
      p.1 != q.1 || p.2 / 32 != q.2 / 32 || (match els[c']? with | some x => zeroCode t.fmt x.1 && x.2.1 != 0xFF | none => true)))

/-- The lanes of a row (R103, R110, R112, R225). -/
def lanesOf (d : StreamDesc) (num : Nat) (codes : List Nat) : List Byte :=
  if num = 7 then List.replicate (d.firstElem num) 0 ++ codes.map (BitVec.ofNat 8) else List.replicate d.laneOff 0 ++ packElems num codes

/-! FP32 products (R114). -/

/-- The high part of an FP32 value: BF16 to nearest even, a finite value that would become infinite the largest finite one. -/
def highPart (w : Nat) : Nat :=
  let v := decodeFp fp32 w
  let h := encodeFp bf16 .rne v
  if v.isFin ∧ bf16.maxCode < h % 2 ^ 15 then h - 1 else h

/-- The low part: what the high part leaves, in BF16; +0 where the value is not finite. -/
def lowPart (w : Nat) : Nat :=
  let v := decodeFp fp32 w
  if v.isFin then encodeFp bf16 .rne (f32 (toF32 (v.add (decodeFp bf16 (highPart w)).neg))) else 0

/-- The part of an FP32 value that a stream delivers in a pass of R114. -/
def fp32Part (high : Bool) (w : Nat) : Nat := if high then highPart w else lowPart w

/-- Row `n` of a stream as a queue entry of tile `tile`: `limit` is how many elements from lane 0 the tile reads (R158), `high` the part of an
FP32 value that it takes. -/
def State.laneRow (s : State) (d : StreamDesc) (t : TensorDesc) (att : Attach) (base n tile idx limit : Nat) (last stationary high : Bool) :
    LaneRow :=
  let row := s.rowAt d base n
  let els := s.rowElements d t att row
  let num := if t.fmt = 1 then 2 else t.fmt
  let e0 := d.firstElem num
  let scaled := isMx t.fmt || isDelayed t.fmt
  let lanes := lanesOf d num (els.map fun e => if t.fmt = 1 then fp32Part high e.1 else e.1)
  { tile := tile, idx := idx, lanes := if !stationary && att.sp24 then padTo 2048 lanes else lanes
    scales := if scaled then List.replicate e0 127 ++ els.map (fun e => e.2.1) else []
    sels := if stationary && att.sp24 then
        List.replicate e0 0 ++ (List.range els.length).map fun c =>
          let p := d.stored t row.num c
          bits (s.rdLe (att.selAddr + p.1 * att.selStride + p.2 / 4) 1) (2 * (p.2 % 4)) 2
      else []
    clear := if stationary && att.occ then List.replicate e0 false ++ els.map (fun e => e.2.2) else []
    empty := !stationary && (List.range els.length).all fun c => decide (limit ≤ e0 + c) || knownZero d t att row.num els c
    last := last }

/-- What an access of array `a`'s feeder to a data row or a metadata word meets: nothing, a place that its role may not reach (R218), or a cause
of R381 at an address. -/
inductive Trouble where
  | none
  | invalid
  | fault (cause addr n : Nat)
  deriving DecidableEq, Repr

def Trouble.orElse (x y : Trouble) : Trouble := match x with | .none => y | _ => x

/-- One access. -/
def State.accessTrouble (s : State) (c : Nat) (reaches : Bool) (addr n : Nat) : Trouble :=
  if !s.mappedRange addr n then .fault 2 addr n
  else if !reaches then .invalid
  else match s.readFault c addr n with
    | 0 => .none
    | cause => .fault cause addr n

/-- The metadata words that row `n` of a stream needs besides its index entry, as address and length: map words, selects, MX scales. What belongs
to the elements of a clearing is not read (R153). -/
def State.rowMeta (s : State) (d : StreamDesc) (t : TensorDesc) (att : Attach) (row : RowAt) (stationary : Bool) : List (Nat × Nat) :=
  let els := List.range (d.elems t.fmt)
  let read := els.filter fun c => let p := d.stored t row.num c; !s.clearing att p.1 p.2
  let words (l : List Nat) : List Nat := l.eraseDups
  (if att.occ then words (els.map fun c => let p := d.stored t row.num c; att.occWord p.1 p.2) else []).map (fun x => (x, 8))
    ++ (if stationary && att.sp24 then words (read.map fun c => let p := d.stored t row.num c; att.selAddr + p.1 * att.selStride + p.2 / 4)
        else []).map (fun x => (x, 1))
    ++ (if isMx t.fmt then words (read.map fun c => d.mxScaleAddr t.fmt (row.addr + c / 32 * blockBytes t.fmt)) else []).map (fun x => (x, 1))

/-- The bytes of a row that are read: all of it, or what its map leaves (R153). -/
def State.rowData (s : State) (d : StreamDesc) (t : TensorDesc) (att : Attach) (row : RowAt) : List (Nat × Nat) :=
  if att.occ then
    ((List.range (d.elems t.fmt)).filter fun c => let p := d.stored t row.num c; !s.clearing att p.1 p.2).map fun c =>
      (row.addr + c * elemBits t.fmt / 8, ceilDiv ((c + 1) * elemBits t.fmt) 8 - c * elemBits t.fmt / 8)
  else [(row.addr, d.rowBytes)]

/-- Every access that row `n` of a feeder's stream makes, in the order in which its address is formed. -/
def State.rowTrouble (s : State) (c a : Nat) (d : StreamDesc) (t : TensorDesc) (att : Attach) (base n : Nat) (stationary : Bool) : Trouble :=
  let md (x : Trouble) (q : Nat × Nat) : Trouble := x.orElse (s.accessTrouble c (metaReaches a q.1) q.1 q.2)
  let idx : Trouble := match d.rowIndexAddr n with | some i => md .none (i, d.indexBytes) | none => .none
  match idx with
  | .none =>
    let row := s.rowAt d base n
    if row.null then .none
    else if rowCrosses row.addr d.rowBytes then .invalid
    else
      let data (x : Trouble) (q : Nat × Nat) : Trouble :=
        x.orElse (s.accessTrouble c (roleReaches d.role a q.1 && roleReaches d.role a (q.1 + q.2 - 1)) q.1 q.2)
      (s.rowData d t att row).foldl data ((s.rowMeta d t att row stationary).foldl md .none)
  | x => x

/-- What reading a step's descriptors meets: the stream descriptor, its tensor descriptor and scale record, its attachment (R24, R25, R143,
R218). -/
def State.descTrouble (s : State) (c a desc : Nat) : Trouble :=
  let d := s.streamDesc desc
  let t := s.tensorDesc d.tdesc
  (((s.accessTrouble c true desc 128).orElse (if d.tdesc = 0 then .none else s.accessTrouble c true d.tdesc 32)).orElse
    (if isDelayed t.fmt ∧ t.scale ≠ 0 then s.accessTrouble c true t.scale 0x20 else .none)).orElse
      (if d.attach = 0 then .none else s.accessTrouble c (metaReaches a d.attach) d.attach 32)

/-! Stream programs (R228-R230). -/

def ArrayUnit.feeder (x : ArrayUnit) (f : Nat) : Feeder := Tab.get (fun _ => Feeder.reset) x.feeders f
def ArrayUnit.setFeeder (x : ArrayUnit) (f : Nat) (g : Feeder) : ArrayUnit := { x with feeders := Tab.set (fun _ => Feeder.reset) x.feeders f g }
def State.feeder (s : State) (a f : Nat) : Feeder := (s.array a).feeder f
def State.updFeeder (s : State) (a f : Nat) (h : Feeder → Feeder) : State := s.setArray a ((s.array a).setFeeder f (h (s.feeder a f)))

/-- A stream step of a program. -/
structure StreamStep where
  desc  : Nat
  start : Nat
  nrows : Nat
  tile  : Nat
  deriving DecidableEq, Repr

def State.streamStep (s : State) (g : Feeder) (i : Nat) : StreamStep :=
  let b := s.rdN (g.prog + 16 * i) 16
  { desc := fieldAt b 0 8, start := fieldAt b 8 4, nrows := fieldAt b 0xC 2, tile := fieldAt b 0xE 2 }

/-- The record at a position of the tile list. -/
def State.tileRec (s : State) (x : ArrayUnit) (p : Nat) : TileRec := tileRecOf (s.rdN (x.tileList + 16 * p) 16)

/-- The hold-table entry of the hold tile at a position (R207). -/
def State.holdWord (s : State) (x : ArrayUnit) (p : Nat) : Nat :=
  s.rdLe (x.holdTable + 4 * ((List.range p).filter fun q => (s.tileRec x q).hold).length) 4

/-- The context whose work an array holds. -/
def State.arrayCtx (s : State) (a : Nat) : Nat := match s.runOnArray a with | some r => r.ctx | none => (s.array a).lastCtx.getD 0

/-- The bindings with a frozen tensor of the RUN on an array. -/
def State.frozen (s : State) (a : Nat) : List Nat := match s.runOnArray a with | some r => r.frozen | none => []

/-- Does the sequencer skip the tile at a position (R208)? -/
def State.skips (s : State) (a p : Nat) : Bool :=
  s.frozen a != [] && decide (p < (s.array a).ntiles) && (s.tileRec (s.array a) p).hold
    && (s.frozen a).contains (s.holdWord (s.array a) p % 65536)

/-- Tile-list positions of steps whose TILE fields are given: the steps of a list stand in the order of their tiles (R228, R368), so that each
serves the first tile of its number at or after the one before it. -/
def tilePositions (tiles : List Nat) : Nat := tiles.foldl tileFrom 0

/-- The last tile before position `p` that is not skipped (R208). -/
def State.prevTile (s : State) (a : Nat) : Nat → Option Nat
  | 0 => none
  | p + 1 => if s.skips a p then State.prevTile s a p else some p

/-- The front that the load of the tile at `p` rides: the hold tile before it parks into LDREG (R84). -/
def State.rides (s : State) (a p : Nat) : Bool :=
  let x := s.array a
  let t := s.tileRec x p
  match s.prevTile a p with
  | some q => let h := s.tileRec x q; t.lden && h.hold && h.park == t.ldreg
  | none => false

/-- Does the load of the tile at `p` take the north chain (R74)? -/
def State.northLoad (s : State) (a p : Nat) : Bool := (s.tileRec (s.array a) p).row || s.rides a p

/-- Is a step of role `role` one for the moving, or the stationary, lanes of feeder `f` (0 west, 1 north)? -/
def roleOf (f : Nat) (stationary : Bool) : Nat := if f = 0 then (if stationary then 1 else 2) else (if stationary then 0 else 3)

/-- The tile-list position that step `i` of a feeder's program serves. -/
def State.stepPos (s : State) (g : Feeder) (i : Nat) : Nat := tilePositions ((List.range (i + 1)).map fun j => (s.streamStep g j).tile)

/-- Is program step `i` performed on the given lanes: of their role, for a tile that is not skipped, and on the chain that the load takes? A
step that none of the feeder's lanes can run counts as a moving one, which finds it invalid. -/
def State.stepServes (s : State) (a f i : Nat) (stationary : Bool) : Bool :=
  let g := s.feeder a f
  let st := s.streamStep g i
  let role := (s.streamDesc st.desc).role
  let p := s.stepPos g i
  if s.skips a p then false
  else if stationary then role == roleOf f true && s.northLoad a p == (f == 1)
  else role != roleOf f true

/-- The next program step for the given lanes, from step `i` on. -/
def State.nextStep (s : State) (a f : Nat) (stationary : Bool) (i : Nat) : Nat → Option Nat
  | 0 => none
  | n + 1 => if s.stepServes a f i stationary then some i else State.nextStep s a f stationary (i + 1) n

/-- Does a later step of the program read the same descriptor? -/
def State.laterStep (s : State) (a f i : Nat) (stationary : Bool) : Bool :=
  let g := s.feeder a f
  (List.range (g.count - i - 1)).any fun k =>
    (s.streamStep g (i + 1 + k)).desc == (s.streamStep g i).desc && s.stepServes a f (i + 1 + k) stationary

/-- The step that serves the tile at `p` on the given lanes. -/
def State.stepOfTile (s : State) (a f p : Nat) (stationary : Bool) : Option Nat :=
  (List.range (s.feeder a f).count).find? fun i => s.stepPos (s.feeder a f) i == p && s.stepServes a f i stationary

/-- Source number of feeder `f`. -/
def feederSource (a f : Nat) : Nat := 16 * a + 1 + f

/-- The last row of a step has been written or has left its operand queue: SYNC, once in the RUN, after the last step of its descriptor (R190,
R230). -/
def State.streamDone (s : State) (a f i : Nat) (stationary : Bool) : State :=
  let g := s.feeder a f
  let desc := (s.streamStep g i).desc
  let d := s.streamDesc desc
  if d.sync = 0xFFFF ∨ s.laterStep a f i stationary ∨ g.synced.contains desc then s
  else (s.updFeeder a f fun g => { g with synced := desc :: g.synced }).signalTask (s.arrayCtx a) d.sync a (feederSource a f)

/-- A row leaves an operand queue. -/
def State.rowLeft (s : State) (a f : Nat) (stationary : Bool) (x : LaneRow) : State :=
  if !x.last then s
  else match s.stepOfTile a f x.tile stationary with
    | some i => s.streamDone a f i stationary
    | none => s

/-! Validity of a step (R154, R218, R227, R229). -/

/-- Elements from lane 0 that a tile reads on a moving stream (R158). -/
def TileRec.reads (t : TileRec) (west sp24 : Bool) : Nat :=
  let k := if west then t.r else t.c
  let e := if is4 t.fmt then 2 * k else if is16 t.fmt then k / 2 else k
  if sp24 then 2 * e else e

/-- The pass of an FP32 product that the tile at `p` runs (R114). DESIGN CHOICE (log 30): no field names it, so tiles of one mode, block shape and
bank rows that follow one another count 0, 1, 2, 0, …, and a tile with BADD = 0 begins anew. -/
def State.fp32Pass (s : State) (a : Nat) : Nat → Nat
  | 0 => 0
  | p + 1 =>
    let x := s.array a
    let t := s.tileRec x (p + 1)
    let u := s.tileRec x p
    if !t.badd || t.mode != u.mode || t.fmt != u.fmt || t.m != u.m || t.r != u.r || t.c != u.c || t.brow != u.brow then 0
    else (State.fp32Pass s a p + 1) % 3

/-- The first tile after `p` that takes register `reg` as ACT: the user of a load that the tile at `p` carries. -/
def State.loadUser (s : State) (a reg : Nat) : Nat → Nat → Nat
  | 0, p => p
  | n + 1, p =>
    let t := s.tileRec (s.array a) p
    if !s.skips a p && !t.hold && t.act == reg then p else State.loadUser s a reg n (p + 1)

/-- Does a stream of the given role take the high part of FP32 values for the tile at `p`? The passes are a_l·w_h, a_h·w_l and a_h·w_h; a is
the moving operand of a row- or column-mode tile and the west one of a hold tile (R114, log 30). -/
def State.takesHigh (s : State) (a p role : Nat) : Bool :=
  let x := s.array a
  let t := s.tileRec x p
  if role ≤ 1 then s.fp32Pass a (s.loadUser a t.ldreg (x.ntiles - (p + 1)) (p + 1)) != 1
  else if t.hold && role == 3 then s.fp32Pass a p != 1
  else s.fp32Pass a p != 0

/-- Is an operand stream's format the tile's: that of R109, or FP32 for one pass of R114? -/
def TileRec.fmtOk (r : TileRec) (role : Nat) (t : TensorDesc) : Bool :=
  match r.streamFmt role with
  | some w => w == (t.fmt, t.variant) || (r.fmt == 0xC && t.fmt == 1)
  | none => true

/-- Does every row of a moving stream with block scales or zero-skip begin a block, and does its first lane (R227)? -/
def State.blocksAligned (s : State) (d : StreamDesc) (t : TensorDesc) (st : StreamStep) : Bool :=
  d.laneOff % blockBytes t.fmt == 0
    && (List.range st.nrows).all fun i => (d.place t (s.rowAt d d.base (st.start + i)).num 0).2 % 32 == 0

/-- Is a step valid for the tile it serves? The tile is still to issue, but for a load still under way, and for a step of no rows. Of a step with
REUSE only the address fields are not used (R234). -/
def State.stepOk (s : State) (a f p : Nat) (st : StreamStep) (stationary : Bool) : Bool :=
  let x := s.array a
  let rec_ := s.tileRec x p
  let d := s.streamDesc st.desc
  let t := s.tensorDesc d.tdesc
  let att := s.attach d
  (decide (x.pos ≤ p) || st.nrows == 0 || (stationary && x.loads.any fun l => l.tile == p))
    && decide (p < x.ntiles) && d.role == roleOf f stationary
    && st.nrows == (if stationary then rec_.ldext else rec_.m) && (!stationary || rec_.lden)
    && (stationary || (if f = 0 then !rec_.col else !rec_.row))
    && d.plainOk && d.tdesc != 0 && t.ok && d.shapeOk t.fmt (att.sp24 && !stationary) && att.ok d.role && rec_.fmtOk d.role t && d.scaleOk t.fmt
    && (d.reuse || (decide (t.rowElems ≠ 0)
        && (stationary || !(isMx t.fmt || (isDelayed t.fmt && t.scale != 0) || att.zskip) || s.blocksAligned d t st)
        && (!stationary || !att.occ || (let q := d.stored t (s.rowAt d d.base st.start).num 0; q.1 % 32 == 0 && q.2 % 32 == 0))))

/-- Does the reuse buffer serve a step: it holds vectors, of a stream of the same context with the same M (R206)? -/
def State.reuseOk (s : State) (a m : Nat) : Bool :=
  let x := s.array a
  x.reuse != [] && x.reuseCtx == some (s.arrayCtx a) && x.reuseM == m

/-- ARRn_STATUS.FAULT and ARRn_FAULT.DETAIL of an array that stops. -/
def State.noteFault (s : State) (a code detail : Nat) : State :=
  s.setArray a { s.array a with fault := BitVec.ofNat 8 code, detail := BitVec.ofNat 64 detail }

/-- FAULT 2 is an unmapped address that one of the array's engines has computed (R25). -/
def State.noteUnmapped (s : State) (a cause addr n : Nat) : State :=
  if cause = 2 ∧ !s.mappedRange addr n then s.noteFault a 2 addr else s

/-- Mark the tile at `p` as one whose stream is invalid. -/
def State.badStream (s : State) (a f p : Nat) : State :=
  s.updFeeder a f fun g => { g with badTile := some (match g.badTile with | some q => min p q | none => p) }

/-! Landings (R238). -/

/-- Waits of a feeder: its moving lanes are numbered by the feeder, its stationary lanes by the feeder and 2. -/
def slotWaiter (a f : Nat) (stationary : Bool) : Waiter := .slot a (if stationary then f + 2 else f)

def Feeder.cursor (g : Feeder) (desc : Nat) : Cursor :=
  (g.cursors.find? fun c => c.desc == desc).getD { desc := desc, slot := 0, held := false, waiting := false }

def Feeder.setCursor (g : Feeder) (c : Cursor) : Feeder := { g with cursors := c :: g.cursors.filter fun x => x.desc != c.desc }

/-- May a step begin to read its slot? Where it holds none yet it queues the wait on the slot's ready object, and a cursor whose slot a step
before it still holds makes it wait. A cursor both held and waiting marks a step that begins again after a pre-emption. -/
def State.slotReady (s : State) (a f : Nat) (stationary : Bool) (desc : Nat) (d : StreamDesc) : State × Bool :=
  if d.lslots = 0 then (s, true)
  else
    let c := (s.feeder a f).cursor desc
    if c.held then
      if c.waiting then (s.updFeeder a f fun g => g.setCursor { c with waiting := false }, true) else (s, d.keep)
    else if c.waiting then (s, false)
    else
      match s.objOf (s.arrayCtx a) (d.lready + c.slot) with
      | none => (s.faultCtx (s.arrayCtx a) 8 a 0 (feederSource a f) (d.lready + c.slot), false)
      | some o =>
        ((s.updFeeder a f fun g => g.setCursor { c with waiting := true }).enqueue
          [(o, { who := slotWaiter a f stationary, n := 1, takes := true })], false)

/-- The base of the rows that the lanes read in their present step. -/
def Feeder.stepBase (g : Feeder) (desc : Nat) (d : StreamDesc) : Nat :=
  if d.lslots = 0 then d.base else d.base + (g.cursor desc).slot * d.lslotBytes

/-! Queues (R230-R234). -/

/-- Entries that rows take in a moving queue; a doubled vector takes two, and a dropped one none (R149, R159). -/
def queued (l : List LaneRow) : Nat :=
  (l.map fun x => if x.empty then 0 else if 1024 < x.lanes.length then 2 else 1).foldl (· + ·) 0

/-- Is there room for a row: 64 entries, or 16 in staging? -/
def roomFor (hold : Bool) (g : Feeder) (doubled : Bool) : Bool :=
  if hold then decide (g.staging.length < 16) else decide (queued g.moving + (if doubled then 2 else 1) ≤ 64)

/-- Put a vector into the staging queue of a hold tile, or into the moving queue; a dropped last vector leaves its mark there (R159, R233). A
vector that enters the north moving queue from a stream without REUSE joins the reuse buffer (R204, R234). -/
def State.pushMoving (s : State) (a f : Nat) (hold fill : Bool) (x : LaneRow) : State :=
  if hold then s.updFeeder a f fun g => { g with staging := g.staging ++ [x] }
  else
    let s := if x.empty && !x.last then s else s.updFeeder a f fun g => { g with moving := g.moving ++ [x] }
    if f = 1 ∧ fill ∧ !x.empty then s.setArray a { s.array a with reuse := (s.array a).reuse ++ [x] } else s

/-- What follows an access that a feeder may not make: the row reads as zeros, and the tile is marked or the context faulted (R25, R218). -/
def State.feederTrouble (s : State) (a f p : Nat) (tr : Trouble) : State :=
  match tr with
  | .none => s
  | .invalid => s.badStream a f p
  | .fault cause addr n =>
    let s := s.noteUnmapped a cause addr n
    let s := if cause = 3 then s.reportPoison addr n else s
    s.faultCtx (s.arrayCtx a) cause a (if cause = 3 then 0x0302 else 0) (feederSource a f) addr

/-- A row of zeros in place of one that could not be read. -/
def zeroRow (tile idx : Nat) (last : Bool) : LaneRow :=
  { tile := tile, idx := idx, lanes := [], scales := [], sels := [], clear := [], empty := false, last := last }

/-- Do an array's feeders work: its RUN holds it and is bound, or tiles already issued are still to complete (R71, R95)? -/
def State.feeds (s : State) (a : Nat) : Bool :=
  let x := s.array a
  x.owner.isSome && !x.scrubbing && x.state != 4 && s.clockRuns a
    && (match s.runOnArray a with
        | some r => r.bound && r.restoring == 0 && (r.phase == RunPhase.granted || (r.phase == RunPhase.preempting && !x.quiesced))
        | none => x.inflight != [])

/-! The steps of the drain feeders (R228-R230). -/

def ArrayUnit.edge (x : ArrayUnit) (east : Bool) : Edge := if east then x.east else x.south
def ArrayUnit.setEdge (x : ArrayUnit) (east : Bool) (e : Edge) : ArrayUnit := if east then { x with east := e } else { x with south := e }
def State.setEdge (s : State) (a : Nat) (east : Bool) (e : Edge) : State := s.setArray a ((s.array a).setEdge east e)

/-- The drain feeder of a bank, and the sources of R255 and R630. -/
def drainOf (east : Bool) : Nat := if east then 3 else 2
def edgeSource (a : Nat) (east : Bool) : Nat := 16 * a + (if east then 6 else 5)

/-- How many of `n` steps from step `i` on serve the tile at `p`. -/
def State.stepsFor (s : State) (g : Feeder) (p : Nat) : Nat → Nat → Nat
  | 0, _ => 0
  | n + 1, i => if s.stepPos g i = p then State.stepsFor s g p n (i + 1) + 1 else 0

/-- The first of `n` steps from step `i` on with a role. -/
def State.stepWithRole (s : State) (g : Feeder) (role : Nat) : Nat → Nat → Option Nat
  | 0, _ => none
  | n + 1, i => if (s.streamDesc (s.streamStep g i).desc).role = role then some i else State.stepWithRole s g role n (i + 1)

/-- The step of an epilogue with a role. -/
def State.epiStep (s : State) (a : Nat) (east : Bool) (e : Epilogue) (role : Nat) : Option Nat :=
  s.stepWithRole (s.feeder a (drainOf east)) role e.nstep e.step

/-- The address of stream row `k` of a step. -/
def State.stepRow (s : State) (st : StreamStep) (d : StreamDesc) (base k : Nat) : RowAt := s.rowAt d base (st.start + k)

/-! Scratchpad banks (R235, R236). -/

/-- The banks of array `a`'s scratchpad that an access reaches: 512-byte units, by offset bits [13:9]. -/
def scratchBanks (a addr n : Nat) : List Nat :=
  if region addr == 2 && regionOff addr / 0x400_0000 == a && decide (regionOff addr % 0x400_0000 < 0x300_0000) && n != 0 then
    let u := regionOff addr / 512
    ((List.range ((regionOff addr + n - 1) / 512 + 1 - u)).map fun i => (u + i) % 32).eraseDups
  else []

/-- The row that the moving or stationary lanes of a feeder would read next, once its step is ready: `none` where a queue is full, the step is
over, or the lanes have read a row in the present array cycle. -/
def State.nextRead (s : State) (a f : Nat) (stationary : Bool) : Option (StreamStep × StreamDesc × Nat) :=
  let g := s.feeder a f
  let i := if stationary then g.spos else g.mpos
  let k := if stationary then g.srow else g.mrow
  let st := s.streamStep g i
  let d := s.streamDesc st.desc
  let p := s.stepPos g i
  if !s.feeds a || !(if stationary then g.sReady && !g.sActive else g.mReady && !g.mActive) || decide (st.nrows ≤ k)
      || (g.badTile.isSome && decide ((s.array a).pos ≤ p)) then none
  else if stationary then (if g.stationary.length < 64 then some (st, d, k) else none)
  else
    let hold := (s.tileRec (s.array a) p).hold
    if roomFor hold g (s.attach d).sp24 && (hold || g.staging == []) then some (st, d, k) else none

/-- Row number in the sequence of a step's `k`-th read: a block's rows go in from the last down (R75). -/
def StreamStep.rowNo (st : StreamStep) (stationary : Bool) (k : Nat) : Nat := if stationary then st.start + (st.nrows - 1 - k) else st.start + k

/-- The scratchpad banks of the metadata of a lane's next row (R218). -/
def State.metaBanks (s : State) (a f : Nat) (stationary : Bool) (st : StreamStep) (d : StreamDesc) (k : Nat) : List Nat :=
  if d.reuse then []
  else
    let n := st.rowNo stationary k
    let row := s.rowAt d ((s.feeder a f).stepBase st.desc d) n
    let idx := match d.rowIndexAddr n with | some i => scratchBanks a i d.indexBytes | none => []
    if row.null then idx
    else (idx ++ (s.rowMeta d (s.tensorDesc d.tdesc) (s.attach d) row stationary).flatMap fun q => scratchBanks a q.1 q.2).eraseDups

/-- The banks that the lanes want for data in the present cycle: those of their next row, once its metadata have been read. -/
def State.laneWants (s : State) (a f : Nat) (stationary : Bool) : List Nat :=
  match s.nextRead a f stationary with
  | none => []
  | some (st, d, k) =>
    let g := s.feeder a f
    if d.reuse || (s.metaBanks a f stationary st d k != [] && !(if stationary then g.sMeta else g.mMeta)) then []
    else
      let row := s.rowAt d (g.stepBase st.desc d) (st.rowNo stationary k)
      if row.null then [] else scratchBanks a row.addr d.rowBytes

/-- The banks that the lanes want for metadata. -/
def State.metaWants (s : State) (a f : Nat) (stationary : Bool) : List Nat :=
  match s.nextRead a f stationary with
  | none => []
  | some (st, d, k) => if (if stationary then (s.feeder a f).sMeta else (s.feeder a f).mMeta) then [] else s.metaBanks a f stationary st d k

/-- The row that a drain feeder writes next, as step, descriptor and stream row: of the output, else of the stash. -/
def State.nextWrite (s : State) (a : Nat) (east : Bool) : Option (StreamStep × StreamDesc × Nat) :=
  let f := drainOf east
  let g := s.feeder a f
  let x := s.array a
  match (x.edge east).queue with
  | [] => none
  | e :: _ =>
    let role := if g.output != [] then 4 else 5
    if !(x.edge east).running || g.mActive || (g.output == [] && g.stash == []) || x.state == 4 || x.quiesced || !s.clockRuns a then none
    else match s.epiStep a east e role with
      | some j => let st := s.streamStep g j; some (st, s.streamDesc st.desc, if role = 4 then g.mrow else g.srow)
      | none => none

def State.writeWants (s : State) (a : Nat) (east : Bool) : List Nat :=
  match s.nextWrite a east with
  | some (st, d, k) => let row := s.stepRow st d d.base k; if row.null then [] else scratchBanks a row.addr d.rowBytes
  | none => []

/-- What the units before unit `u` want, in the order of R236: 0 west moving, 1 north moving, 2 and 3 stationary west and north, 4 and 5 drain
writes south and east, 6 side streams, 7 metadata, 8 ferries and windows. -/
def State.wantsBefore (s : State) (a u : Nat) (sides : List Nat) : List Nat :=
  let l : List (Nat × (Unit → List Nat)) :=
    [(0, fun _ => s.laneWants a 0 false), (1, fun _ => s.laneWants a 1 false), (2, fun _ => s.laneWants a 0 true)
     , (3, fun _ => s.laneWants a 1 true), (4, fun _ => s.writeWants a false), (5, fun _ => s.writeWants a true), (6, fun _ => sides)
     , (7, fun _ => s.metaWants a 0 false ++ s.metaWants a 1 false ++ s.metaWants a 0 true ++ s.metaWants a 1 true)]
  (l.filter fun e => decide (e.1 < u)).flatMap fun e => e.2 ()

/-- Does a unit's access win the banks that it wants: none has been served in the present cycle, and no unit before it wants one (R235, R236)? -/
def State.wins (s : State) (a u : Nat) (sides banks : List Nat) : Bool :=
  banks == [] || (!(((s.array a).granted.flatMap Prod.snd).any banks.contains) && !((s.wantsBefore a u sides).any banks.contains))

/-- A unit's banks are taken for the present cycle. -/
def State.grant (s : State) (a u : Nat) (banks : List Nat) : State :=
  if banks = [] then s else s.setArray a { s.array a with granted := (u, banks) :: (s.array a).granted }

/-! Reading (R230-R234). -/

/-- Read one row of a moving step. -/
def State.readMoving (s : State) (a f p : Nat) (st : StreamStep) (d : StreamDesc) (base k : Nat) : State :=
  let rec_ := s.tileRec (s.array a) p
  let last := decide (k + 1 = st.nrows)
  let s := s.updFeeder a f fun g => { g with mrow := k + 1, mActive := true, mMeta := false }
  if d.reuse then
    let x := match (s.array a).reuse.find? fun r => r.idx == k with
      | some r => { r with tile := p, last := last }
      | none => { zeroRow p k last with empty := true }
    s.pushMoving a f rec_.hold false x
  else
    let t := s.tensorDesc d.tdesc
    let att := s.attach d
    match s.rowTrouble (s.arrayCtx a) a d t att base (st.start + k) false with
    | .none =>
      s.pushMoving a f rec_.hold true
        (s.laneRow d t att base (st.start + k) p k (rec_.reads (f == 0) att.sp24) last false (s.takesHigh a p d.role))
    | tr => (s.pushMoving a f rec_.hold true (zeroRow p k last)).feederTrouble a f p tr

/-- Read one row of a stationary step: the block's rows go in from the last down (R75); stream row j holds block row j (log 30). -/
def State.readStationary (s : State) (a p : Nat) (st : StreamStep) (d : StreamDesc) (base k : Nat) : LaneRow × Trouble :=
  let t := s.tensorDesc d.tdesc
  let att := s.attach d
  let n := st.rowNo true k
  let last := decide (k + 1 = st.nrows)
  match s.rowTrouble (s.arrayCtx a) a d t att base n true with
  | .none => (s.laneRow d t att base n p k 0 last true (s.takesHigh a p d.role), .none)
  | tr => (zeroRow p k last, tr)

/-- A step that fills the reuse buffer afresh begins (R204). -/
def State.beginFill (s : State) (a f : Nat) (st : StreamStep) (d : StreamDesc) : State :=
  if f = 1 ∧ !d.reuse then s.setArray a { s.array a with reuse := [], reuseM := st.nrows, reuseCtx := some (s.arrayCtx a) } else s

/-- Register the stream of a step that begins with the die's cache (R241). -/
def State.beginStream (s : State) (a f : Nat) (st : StreamStep) (d : StreamDesc) : State :=
  s.registerStream (a / 4) st.desc (feederSource a f) (s.arrayCtx a) ((s.feeder a f).stepBase st.desc d) st.start (st.start + st.nrows)

/-- Make the next moving step ready: it is checked, its landing slot is waited for, and a filling step empties the reuse buffer. A step waits
behind the vectors of an earlier hold tile in staging, so that the moving queue and the reuse buffer keep the order of the program; only a west
hold stream follows them there. -/
def State.readyMoving (s : State) (a f : Nat) : State :=
  let g := s.feeder a f
  match s.nextStep a f false g.mpos (g.count - g.mpos) with
  | none => s
  | some i =>
    let s := if i = g.mpos then s else s.updFeeder a f fun g => { g with mpos := i, mrow := 0, mReady := false, mMeta := false }
    let g := s.feeder a f
    let st := s.streamStep g i
    let d := s.streamDesc st.desc
    let p := s.stepPos g i
    if g.mReady ∨ g.badTile.isSome ∨ (g.staging ≠ [] ∧ (f = 1 ∨ !(s.tileRec (s.array a) p).hold)) then s
    else match s.descTrouble (s.arrayCtx a) a st.desc with
      | .none =>
        if !(s.stepOk a f p st false && (!d.reuse || s.reuseOk a st.nrows)) then s.badStream a f (max p (s.array a).pos)
        else
          match (if d.reuse then (s, true) else s.slotReady a f false st.desc d) with
          | (s, false) => s
          | (s, true) => (if d.reuse then s else (s.beginFill a f st d).beginStream a f st d).updFeeder a f fun g => { g with mReady := true }
      | tr => s.feederTrouble a f (max p (s.array a).pos) tr

/-- The moving step is over once its last row has been read. -/
def State.endMoving (s : State) (a f : Nat) : State :=
  let g := s.feeder a f
  let st := s.streamStep g g.mpos
  if !g.mReady ∨ g.mrow < st.nrows then s
  else
    let i := g.mpos
    let s := s.updFeeder a f fun g => { g with mpos := i + 1, mrow := 0, mReady := false }
    if st.nrows = 0 then s.streamDone a f i false else s

def State.endStationary (s : State) (a f : Nat) : State :=
  let g := s.feeder a f
  if !g.sReady ∨ g.srow < (s.streamStep g g.spos).nrows then s
  else s.updFeeder a f fun g => { g with spos := g.spos + 1, srow := 0, sReady := false }

/-- Does a full window of HBM refuse the lanes' next row (R279)? -/
def State.laneRefused (s : State) (a f : Nat) (st : StreamStep) (d : StreamDesc) (stationary : Bool) (k : Nat) : Bool :=
  let row := s.rowAt d ((s.feeder a f).stepBase st.desc d) (st.rowNo stationary k)
  !d.reuse && !row.null && s.windowFull row.addr d.rowBytes

/-- Read the row that the lanes want, if no full window refuses it and they win its banks; a lost one is a bank conflict of the feeder (R236,
R279). -/
def State.readLane (s : State) (a f : Nat) (stationary : Bool) : State :=
  match s.nextRead a f stationary with
  | none => s
  | some (st, d, k) =>
    let g := s.feeder a f
    let p := s.stepPos g (if stationary then g.spos else g.mpos)
    let u := if stationary then 2 + f else f
    let banks := s.laneWants a f stationary
    if (s.metaBanks a f stationary st d k != [] && !(if stationary then g.sMeta else g.mMeta)) || s.laneRefused a f st d stationary k then s
    else if !s.wins a u [] banks then s.updFeeder a f fun g => { g with conflict := true }
    else
      let s := s.grant a u banks
      let s := if d.reuse then s else s.streamTaken (a / 4) st.desc (feederSource a f) (st.rowNo stationary k) stationary
      let base := g.stepBase st.desc d
      if stationary then
        let (x, tr) := s.readStationary a p st d base k
        (s.updFeeder a f fun g => { g with
          srow := k + 1, sActive := true, sMeta := false, stationary := g.stationary ++ [x] }).feederTrouble a f p tr
      else s.readMoving a f p st d base k

/-- Read the metadata of the lanes' next row from the scratchpad (R236). -/
def State.readMeta (s : State) (a f : Nat) (stationary : Bool) (sides : List Nat) : State :=
  let g := s.feeder a f
  let i := if stationary then g.spos else g.mpos
  let k := if stationary then g.srow else g.mrow
  let st := s.streamStep g i
  let d := s.streamDesc st.desc
  if !(if stationary then g.sReady && !g.sMeta else g.mReady && !g.mMeta) || decide (st.nrows ≤ k) || !s.feeds a then s
  else
    let banks := s.metaBanks a f stationary st d k
    if banks = [] then s
    else if !s.wins a 7 sides banks then s.updFeeder a f fun g => { g with conflict := true }
    else (s.grant a 7 banks).updFeeder a f fun g => if stationary then { g with sMeta := true } else { g with mMeta := true }

/-- Make the next stationary step ready. -/
def State.readyStationary (s : State) (a f : Nat) : State :=
  let g := s.feeder a f
  match s.nextStep a f true g.spos (g.count - g.spos) with
  | none => s
  | some i =>
    let s := if i = g.spos then s else s.updFeeder a f fun g => { g with spos := i, srow := 0, sReady := false, sMeta := false }
    let g := s.feeder a f
    let st := s.streamStep g i
    let d := s.streamDesc st.desc
    let p := s.stepPos g i
    if g.sReady ∨ g.badTile.isSome then s
    else match s.descTrouble (s.arrayCtx a) a st.desc with
      | .none =>
        if !s.stepOk a f p st true then s.badStream a f (max p (s.array a).pos)
        else
          match s.slotReady a f true st.desc d with
          | (s, false) => s
          | (s, true) => (s.beginStream a f st d).updFeeder a f fun g => { g with sReady := true }
      | tr => s.feederTrouble a f (max p (s.array a).pos) tr

/-- FEEDER_STEP of the west or north feeder: in one array cycle its moving and its stationary lanes each read at most one row (R73, R230-R234,
R238). `sides` are the banks that side streams want. -/
def State.operandStep (s : State) (a f : Nat) (sides : List Nat) : State :=
  let s := ((s.readyMoving a f).readLane a f false).endMoving a f
  let s := ((s.readyStationary a f).readLane a f true).endStationary a f
  (s.readMeta a f false sides).readMeta a f true sides

/-! Empty marks (R233). -/

/-- EMPTY_MARK: the next vector of a hold tile leaves both staging queues; it moves into both moving queues unless either feeder marks it empty,
and a dropped last vector leaves its mark. -/
def emptyMark (a : Nat) (s : State) : State :=
  if !s.feeds a then s
  else
    match (s.feeder a 0).staging, (s.feeder a 1).staging with
    | w :: ws, n :: ns =>
      if w.tile ≠ n.tile ∨ w.idx ≠ n.idx ∨ !roomFor false (s.feeder a 0) false ∨ !roomFor false (s.feeder a 1) false then s
      else
        let drop := w.empty || n.empty
        let fill := match s.stepOfTile a 1 n.tile false with
          | some i => !(s.streamDesc (s.streamStep (s.feeder a 1) i).desc).reuse
          | none => false
        let s := s.updFeeder a 0 fun g => { g with staging := ws }
        let s := s.updFeeder a 1 fun g => { g with staging := ns }
        (s.pushMoving a 0 false false { w with empty := drop }).pushMoving a 1 false fill { n with empty := drop }
    | _, _ => s

def execEmptyMark (a : Fin 8) (s : State) : Host.Outcome State Fault Refusal := live s (emptyMark a.val)

/-! Slots (R238). -/

/-- Is a cursor's slot to be returned: held, not kept, and no row of the step that read it is still to be read or in a queue? -/
def State.slotDue (s : State) (a f : Nat) (stationary : Bool) (c : Cursor) : Bool :=
  let g := s.feeder a f
  let (pos, row) := if stationary then (g.spos, g.srow) else (g.mpos, g.mrow)
  let d := s.streamDesc c.desc
  let mine (i : Nat) : Bool := (s.streamStep g i).desc == c.desc && s.stepServes a f i stationary
  c.held && !c.waiting && !d.keep && d.role == roleOf f stationary && !(row != 0 && (s.streamStep g pos).desc == c.desc)
    && (match ((List.range pos).filter mine).getLast? with
        | some i =>
          let tile := s.stepPos g i
          !((if stationary then g.stationary else g.moving ++ g.staging).any fun x => x.tile == tile)
        | none => false)

/-- Return one slot: the free object is signalled, and the cursor advances. -/
def State.returnSlot (s : State) (a f : Nat) (c : Cursor) : State :=
  let d := s.streamDesc c.desc
  (s.updFeeder a f fun g => g.setCursor { c with slot := (c.slot + 1) % d.lslots, held := false }).signalTask (s.arrayCtx a) (d.lready + d.lslots) a
    (feederSource a f)

/-- Return every slot that is due. -/
def State.returnSlots (s : State) (a f : Nat) : State :=
  ((s.feeder a f).cursors.filter fun c => s.slotDue a f false c || s.slotDue a f true c).foldl (fun (s : State) c => s.returnSlot a f c) s

/-- LANDING_SLOT_RETURN (R238). -/
def landingSlotReturn (a f : Nat) (s : State) : State := if (s.array a).owner.isSome then s.returnSlots a f else s

def execLandingSlotReturn (a : Fin 8) (feeder : Fin 2) (s : State) : Host.Outcome State Fault Refusal :=
  live s (landingSlotReturn a.val feeder.val)

/-- A completed wait of one of a feeder's lanes gives its cursor the slot. -/
def State.takeSlot (s : State) (a f : Nat) (stationary : Bool) : State :=
  let w := slotWaiter a f stationary
  if !s.waited w then s
  else
    let s := s.consume w
    match (s.feeder a f).cursors.find? fun c => c.waiting && !c.held && (s.streamDesc c.desc).role == roleOf f stationary with
    | some c => s.updFeeder a f fun g => g.setCursor { c with held := true, waiting := true }
    | none => s

end Sys2Proof.Machine
end

