-- ==== Sys2Proof/Machine/Scales.lean ====
section
/-!
DEFINITION. Conversion of result rows into a tensor's format: scale records and their rolls (R128-R134), MX block scales (R127), stochastic
rounding (R125), occupancy maps that a writer produces (R162).
-/
namespace Sys2Proof.Machine

/-! The roll of a scale record (R131, R132, R134). -/

/-- The largest element of a delayed-scaled format (R131). -/
def recFmax (num : Nat) : Nat := match num with | 4 => 448 | 5 => 57344 | 9 => 6 | _ => 127

/-- Address of the OVF bitmap of a record (R128). -/
def State.ovfBase (s : State) (rec_ : Nat) : Nat := rec_ + 0x80 + roundUp (ceilDiv (s.rdLe (rec_ + 0x0C) 4) 2) 64

/-- DEPTH as a roll reads it (R134). -/
def State.histDepth (s : State) (rec_ : Nat) : Nat := clampNat 1 16 (s.rdLe (rec_ + 0x0A) 1)

/-- The history after a push: the newest first, nothing at DEPTH or beyond. -/
def State.pushedHist (s : State) (rec_ : Nat) : List Nat :=
  let d := s.histDepth rec_
  let h := (s.rdLe (rec_ + 0x10) 4 :: (List.range 15).map fun i => s.rdLe (rec_ + 0x20 + 4 * i) 4).take d
  h ++ List.replicate (16 - d) 0

/-- The maximum of a history: an infinity, a NaN or a negative pattern counts as 0 (R134). -/
def histMax (h : List Nat) : Nat := h.foldl (fun a x => if x < 0x7F800000 then max a x else a) 0

/-- The smallest t' with a × 2^margin ≤ fmax × 2^t', or T where a is 0, within ±127. -/
def rolledT (num a margin : Nat) (t : Int) : Int :=
  if a = 0 then max (-127) (min 127 t)
  else
    let v := (f32 (BitVec.ofNat 32 a)).scale margin
    match (List.range 255).find? fun (i : Nat) => Fp.cmp v (.fin false (recFmax num) ((i : Int) - 127)) != some .gt with
    | some i => (i : Int) - 127
    | none => 127

/-- A bump after a roll. -/
def rolledBump (ovf : Bool) (t tNew : Int) (b : Nat) : Nat :=
  if ovf then (min 15 (max 0 (t + b + 1 - tNew))).toNat else (max 0 ((b : Int) - max 0 (tNew - t))).toNat

/-- What a roll into a newer step writes behind the STEP that its compare-and-swap has taken (R131). -/
def State.rollRecord (s : State) (rec_ num : Nat) : State :=
  let n := s.rdLe (rec_ + 0x0C) 4
  let t := signedOf 8 (s.rdLe (rec_ + 8) 1)
  let hist := s.pushedHist rec_
  let tNew := rolledT num (histMax hist) (s.rdLe (rec_ + 9) 1 % 4) t
  let ob := s.ovfBase rec_
  let nb (i : Nat) : Nat := if i < n then rolledBump (bitOf (s.rdLe (ob + i / 8) 1) (i % 8)) t tNew (s.bump rec_ i) else 0
  let bumps := (List.range (ceilDiv n 2)).map fun j => BitVec.ofNat 8 (nb (2 * j) + 16 * nb (2 * j + 1))
  let s := s.store (rec_ + 8) (leBytes 1 (toBits 8 tNew))
  let s := s.store (rec_ + 0x0B) (leBytes 1 (s.rdLe (rec_ + 0x0B) 1 / 8 * 8))
  let s := s.store (rec_ + 0x10) (leBytes 12 0)
  let s := s.store (rec_ + 0x20) (hist.flatMap (leBytes 4))
  let s := s.store (rec_ + 0x80) bumps
  s.store ob (List.replicate (ceilDiv n 8) 0)

/-- Before a conversion at step `step`: a newer step rolls the record under a compare-and-swap on STEP, an older one marks it STALE (R131, R133,
R288). -/
def State.meetStep (s : State) (i : Issuer) (rec_ num : Nat) (step : Word) : State :=
  let at_ := s.rdLe rec_ 4
  if at_ < step.toNat then
    match s.taskAtomic i 9 1 rec_ step.toNat at_ with
    | (some old, s) => if old = at_ then s.rollRecord rec_ num else s
    | (none, s) => s
  else if step.toNat < at_ then (s.orByte i (rec_ + 0x0B) 1).2
  else s

/-! Conversion of one stream row. -/

/-- Who converts, into what. -/
structure OutSpec where
  by_     : Issuer
  num     : Nat
  variant : Bool
  sr      : Bool
  tensor  : Word
  seed    : DWord
  step    : Word
  deriving DecidableEq, Repr

/-- One converted element: its block, its code, its E8M0 scale, and whether it overflowed or was non-finite. -/
structure Conv where
  block : Nat
  code  : Nat
  scale : Nat
  overflow : Bool
  nonfin : Bool
  value : Word
  deriving DecidableEq, Repr

/-- The rounding of element `c` of stream row `n` (R124, R125). -/
def OutSpec.rounding (o : OutSpec) (d : StreamDesc) (t : TensorDesc) (n c : Nat) : Rounding :=
  if o.sr && o.num != 1 then .stoch (stochDraw o.seed o.tensor o.step (d.elemIndex t n c % 2 ^ 48)) else .rne

/-- The scale record that a conversion uses, or 0 (R220). -/
def OutSpec.record (o : OutSpec) (t : TensorDesc) : Nat := if isDelayed o.num then t.scale else 0

/-- Convert the values of stream row `n` at the present scales (R121-R123, R127, R130). -/
def State.convertRow (s : State) (o : OutSpec) (d : StreamDesc) (t : TensorDesc) (n : Nat) (vals : List Word) : List Conv :=
  let scaleOf (i : Nat) : Nat := mxScale o.num o.variant (((vals.drop (32 * i)).take 32).map f32)
  (List.range vals.length).map fun c =>
    let w := vals.getD c 0
    let block := t.blockOf (d.place t n c)
    if isMx o.num then
      let x := scaleOf (c / 32)
      if x = 0xFF then { block := block, code := 0, scale := x, overflow := false, nonfin := !ffinite w, value := w }
      else
        let r := convertElem o.num o.variant (o.rounding d t n c) ((x : Int) - 127) (f32 w)
        { block := block, code := r.code, scale := x, overflow := false, nonfin := r.nonfin, value := w }
    else
      let e := s.scaleExp (o.record t) block
      let r := convertElem o.num o.variant (o.rounding d t n c) e (f32 w)
      { block := block, code := r.code, scale := (e + 127).toNat, overflow := r.overflow, nonfin := r.nonfin, value := w }

/-- The value that a stored element reads back as (R202). -/
def OutSpec.readBack (o : OutSpec) (x : Conv) : Word :=
  if o.num = 1 then x.value else toF32 (applyScale x.scale (decodeElem o.num o.variant x.code))

/-- An element overflow in block `i`: its OVF bit and the guarded count, and the one event of the step (R130), by atomics (R129). -/
def State.blockOverflow (s : State) (o : OutSpec) (rec_ i : Nat) : State :=
  match s.orByte o.by_ (s.ovfBase rec_ + i / 8) (2 ^ (i % 8)) with
  | (none, s) => s
  | (some old, s) =>
    let s := if bitOf old (i % 8) then s else (s.taskAtomic o.by_ 1 1 (rec_ + 0x18) 1 0).2
    match s.orByte o.by_ (rec_ + 0x0B) 4 with
    | (none, s) => s
    | (some f, s) =>
      if bitOf f 2 then s
      else s.raiseCtx o.by_.ctx 0x0201 o.by_.source (leBytes 4 (s.rdLe (rec_ + 4) 4) ++ leBytes 4 (s.rdLe rec_ 4) ++ leBytes 4 i)

/-- The updates that a row's conversion makes to its scale record: AMAX, the flags, OVF with its count (R129, R130). The NONFINITE count follows
with the epilogue (R190). -/
def State.recordRow (s : State) (o : OutSpec) (rec_ : Nat) (xs : List Conv) : State :=
  let amax := xs.foldl (fun a x => let m := (fabs x.value).toNat; if m < 0x7F800000 then max a m else a) 0
  match s.taskAtomic o.by_ 6 1 (rec_ + 0x10) amax 0 with
  | (none, s) => s
  | (some _, s) =>
    let s := if xs.any fun x => x.nonfin then (s.orByte o.by_ (rec_ + 0x0B) 2).2 else s
    (xs.filter fun x => x.overflow).foldl (fun (s : State) x => s.blockOverflow o rec_ x.block) s

/-- The map words and bits of the blocks in which a row holds an element that is not zero (R156, R162). -/
def OutSpec.mapBits (o : OutSpec) (d : StreamDesc) (t : TensorDesc) (att : Attach) (n : Nat) (xs : List Conv) : List (Nat × Nat) :=
  ((List.range xs.length).filterMap fun c =>
    match xs[c]? with
    | some x =>
      if zeroCode o.num x.code && x.scale != 0xFF && !x.nonfin then none
      else let p := d.place t n c; some (att.occWord p.1 p.2, p.2 / 32 % 64)
    | none => none).eraseDups

/-- Set those bits with the or atomic of the shared cache (R162). -/
def State.emitMap (s : State) (o : OutSpec) (l : List (Nat × Nat)) : State :=
  l.foldl (fun (s : State) e => (s.taskAtomic o.by_ 3 2 e.1 (2 ^ e.2) 0).2) s

/-- What writing bytes at an address meets. -/
def State.writeTrouble (s : State) (c : Nat) (reaches : Bool) (addr n : Nat) : Trouble :=
  if !s.mappedRange addr n then .fault 2 addr n
  else if !reaches then .invalid
  else match s.writeFault c addr n with
    | 0 => .none
    | cause => .fault cause addr n

/-- The MX scale bytes of a row, as address and value (R224). -/
def OutSpec.scaleBytes (o : OutSpec) (d : StreamDesc) (row : RowAt) (xs : List Conv) : List (Nat × Nat) :=
  if isMx o.num then
    (List.range (ceilDiv xs.length 32)).map fun i =>
      (d.mxScaleAddr o.num (row.addr + i * blockBytes o.num), (xs.getD (32 * i) ⟨0, 0, 0, false, false, 0⟩).scale)
  else []

/-- What a drain feeder's write of a row with its scales and its map bits meets (R217, R218, R380). -/
def State.drainTrouble (s : State) (o : OutSpec) (d : StreamDesc) (row : RowAt) (scales map_ : List (Nat × Nat)) : Trouble :=
  let k := d.rowBytes
  let a := o.by_.array
  let md (n : Nat) (x : Trouble) (e : Nat × Nat) : Trouble := x.orElse (s.writeTrouble o.by_.ctx (metaReaches a e.1) e.1 n)
  if s.mappedRange row.addr k ∧ rowCrosses row.addr k then .invalid
  else
    let data := s.writeTrouble o.by_.ctx (roleReaches d.role a row.addr && roleReaches d.role a (row.addr + k - 1)) row.addr k
    map_.foldl (md 8) (scales.foldl (md 1) data)

/-- Convert and write stream row `n`: what it met, how many elements were non-finite, and the state after (R129, R130, R162, R190). -/
def State.writeConverted (s : State) (o : OutSpec) (d : StreamDesc) (base n : Nat) (vals : List Word) : Trouble × Nat × State :=
  let t := s.tensorDesc d.tdesc
  let rec_ := o.record t
  let s := if rec_ = 0 then s else s.meetStep o.by_ rec_ o.num o.step
  let row := s.rowAt d base n
  if row.null then (.none, 0, s)
  else
    let xs := s.convertRow o d t row.num vals
    let scales := o.scaleBytes d row xs
    let att := s.attach d
    let map_ := if att.emitOcc then o.mapBits d t att row.num xs else []
    match s.drainTrouble o d row scales map_ with
    | .none =>
      let s := if rec_ = 0 then s else s.recordRow o rec_ xs
      let s := s.store row.addr ((packElems o.num (xs.map fun x => x.code)).take d.rowBytes)
      let s := scales.foldl (fun (s : State) e => s.storeLe e.1 1 e.2) s
      (.none, (xs.filter fun x => x.nonfin).length, s.emitMap o map_)
    | tr => (tr, 0, s)

end Sys2Proof.Machine
end

