-- ==== Sys2Proof/Machine/Stages.lean ====
section
/-!
DEFINITION. Epilogue records (R186, R189) and the arithmetic of their stages (R185, R187-R202, R212-R215): function values, row reductions,
softmax, normalisations, routing and combining. Every step is binary32 with rounding to nearest even (R120).
-/
namespace Sys2Proof.Machine

/-! The epilogue record (R186). -/

structure EpiRec where
  nstage  : Nat
  outFmt  : Nat
  outVar  : Bool
  flags   : Nat
  stashFmt : Nat
  stashVar : Bool
  tensor  : Word
  codes   : List (Nat × Nat)     -- stage code and argument
  ncol    : Nat
  pairRow : Nat
  eps     : Word
  alpha   : Word
  nexp    : Nat
  topk    : Nat
  rflags  : Nat
  stat    : Nat
  aux     : Nat
  qbase   : Nat
  kbase   : Nat
  reserved : Bool
  deriving DecidableEq, Repr

/-- A variant bit is reserved for a format without variants (R634). -/
def fmtByteOk (b : Nat) : Bool := decide (b < 32) && (!bitOf b 4 || b % 16 == 6 || b % 16 == 7)

def epiRecOf (b : List Byte) : EpiRec :=
  { nstage := fieldAt b 0 1, outFmt := fieldAt b 1 1 % 16, outVar := bitOf (fieldAt b 1 1) 4, flags := fieldAt b 2 1
    stashFmt := fieldAt b 3 1 % 16, stashVar := bitOf (fieldAt b 3 1) 4, tensor := BitVec.ofNat 32 (fieldAt b 4 4)
    codes := (List.range (min 8 (fieldAt b 0 1))).map fun i => (fieldAt b (8 + 2 * i) 1, fieldAt b (9 + 2 * i) 1)
    ncol := fieldAt b 0x18 2, pairRow := fieldAt b 0x1A 2, eps := BitVec.ofNat 32 (fieldAt b 0x1C 4)
    alpha := BitVec.ofNat 32 (fieldAt b 0x20 4), nexp := fieldAt b 0x24 2, topk := fieldAt b 0x26 1, rflags := fieldAt b 0x27 1
    stat := fieldAt b 0x28 8, aux := fieldAt b 0x30 8, qbase := fieldAt b 0x38 4, kbase := fieldAt b 0x3C 4
    reserved := !(fmtByteOk (fieldAt b 1 1) && fmtByteOk (fieldAt b 3 1) && decide (fieldAt b 2 1 < 16)) }

def EpiRec.match_ (r : EpiRec) : Bool := bitOf r.flags 0
def EpiRec.sr (r : EpiRec) : Bool := bitOf r.flags 1
def EpiRec.sigmoid (r : EpiRec) : Bool := bitOf r.rflags 0
def EpiRec.norm (r : EpiRec) : Bool := bitOf r.rflags 1
def EpiRec.has (r : EpiRec) (code : Nat) : Bool := r.codes.any fun c => c.1 == code

/-- Does a stage write the stash stream? -/
def stashes (c : Nat × Nat) : Bool := c.1 == 6 || (c.1 == 0x12 && bitOf c.2 3)

/-- The side stream that a stage reads, as a mask. -/
def sidesOf (c : Nat × Nat) : Nat :=
  match c.1 with
  | 0x01 | 0x03 | 0x04 | 0x0B => if bitOf c.2 0 then 2 else 1
  | 0x0D | 0x11 | 0x15 => 1
  | 0x12 => if c.2 % 4 = 2 then 0 else 1
  | 0x13 | 0x14 => 3
  | _ => 0

/-- The listed stage codes, function indices and P sources (R187, R189, R196, R200). Argument bits that a stage does not name are not looked at
(R634). -/
def stageOk (c : Nat × Nat) : Bool :=
  match c.1 with
  | 0x05 | 0x11 => decide (c.2 ≤ 0x0D)
  | 0x12 => c.2 % 4 != 3
  | 0x01 | 0x02 | 0x03 | 0x04 | 0x06 | 0x07 | 0x08 | 0x09 | 0x0A | 0x0B | 0x0C | 0x0D | 0x13 | 0x14 | 0x15 | 0x16 => true
  | _ => false

/-- The passes of a stage (R187, R196). -/
def passesOf (c : Nat × Nat) : Nat :=
  match c.1 with
  | 0x07 | 0x08 | 0x0C | 0x13 | 0x14 | 0x16 => 2
  | 0x09 => 3
  | 0x12 => if bitOf c.2 2 then 1 else 2
  | _ => 1

/-- The passes of an epilogue: the most among its stages (R184). -/
def EpiRec.passes (r : EpiRec) : Nat := r.codes.foldl (fun p c => max p (passesOf c)) 1

/-- The logical width of a full block, and the segments of a row (R182). -/
def blockWidth (fmt : Nat) : Nat := if is16 fmt then 512 else 1024
def EpiRec.nseg (r : EpiRec) (fmt : Nat) : Nat := ceilDiv r.ncol (blockWidth fmt)

/-- Is a record valid by itself, for a tile of the given format (R189)? DCOMBINE is the stage that needs an output format, and its TOPK is the
k of R213. -/
def EpiRec.ok (r : EpiRec) (fmt : Nat) : Bool :=
  let router := r.has 0x0C || r.has 0x16
  !r.reserved && decide (r.rflags < 4) && decide (1 ≤ r.nstage) && decide (r.nstage ≤ 8) && decide (1 ≤ r.ncol) && decide (r.ncol ≤ 4 * blockWidth fmt)
    && r.codes.all stageOk && decide (r.outFmt ≤ 10) && decide (r.stashFmt ≤ 10)
    && (!r.codes.any stashes || r.stashFmt != 0) && (!r.has 0x15 || r.outFmt != 0)
    && (!(router || r.has 0x15) || (decide (1 ≤ r.topk) && decide (r.topk ≤ 8)))
    && (!router || (r.nexp == r.ncol && decide (r.nexp ≤ 4096)))
    && (r.pairRow != 0xFFFF || !(r.codes.any fun c => c.1 == 0x12 && c.2 % 4 == 2))

/-! Functions (R200, R201). -/

/-- z > 0. -/
def fpos (z : Word) : Bool := flt fzero z

/-- The limit of a tabled function at an infinity; NaN where there is none. A limit of zero is +0 (log 4). -/
def fnLimit (idx : Nat) (deriv neg : Bool) : Word :=
  match idx, deriv, neg with
  | 0x04, false, false | 0x05, false, false | 0x06, false, false | 0x09, false, false | 0x0A, _, false | 0x0D, false, false => fposInf
  | 0x04, true, false | 0x05, true, false | 0x06, true, false | 0x07, false, false | 0x08, false, false | 0x09, true, false => fone
  | 0x08, false, true => fneg fone
  | 0x0B, _, true | 0x0D, _, true => fnan
  | _, _, _ => fzero

/-- The value at ±0 of the functions that R201 gives there, for f and f′ alike. -/
def fnAtZero (idx : Nat) (z : Word) : Option Word :=
  match idx with
  | 0x0B => some fposInf
  | 0x0C => some (if z = 0#32 then fposInf else fnegInf)
  | 0x0D => some fnegInf
  | _ => none

/-- f(z) or f′(z) of function `idx` (R200, R201). -/
def evalFn (alpha : Word) (idx : Nat) (deriv : Bool) (z : Word) : Word :=
  match f32 z with
  | .nan => fnan
  | v =>
    match idx, deriv with
    | 0x00, false => z
    | 0x00, true => fone
    | 0x01, false => if fpos z then z else fzero
    | 0x01, true => if fpos z then fone else fzero
    | 0x02, false =>
      if fpos z then z else if z = fnegInf ∧ (f32 alpha).isZero then fzero else fmul alpha z
    | 0x02, true => if fpos z then fone else alpha
    | 0x03, false => if fpos z then fmul z z else fzero
    | 0x03, true => if fpos z then fmul (fofNat 2) z else fzero
    | _, _ =>
      match v with
      | .inf neg => fnLimit idx deriv neg
      | _ =>
        if v.isZero then (fnAtZero idx z).getD (tabledFn idx deriv z)
        else if (idx = 0x0B ∨ idx = 0x0D) ∧ z.toNat ≥ 2 ^ 31 then fnan
        else tabledFn idx deriv z

def fexp (z : Word) : Word := evalFn fzero 0x0A false z
def frcp (z : Word) : Word := evalFn fzero 0x0C false z
def frsqrt (z : Word) : Word := evalFn fzero 0x0B false z

/-! Row reductions (R185). -/

/-- One level of the pairwise tree. DESIGN CHOICE (log 31): the last lane of an odd number passes up as it is. -/
def treeLevel (op : Word → Word → Word) : List Word → List Word
  | a :: b :: rest => op a b :: treeLevel op rest
  | l => l

def treeOf (op : Word → Word → Word) : Nat → List Word → Word
  | 0, l => l.headD 0
  | n + 1, l => match l with
    | [x] => x
    | _ => treeOf op n (treeLevel op l)

/-- Segments of a row. -/
def segments (w : Nat) (l : List Word) : List (List Word) :=
  (List.range (ceilDiv l.length w)).map fun i => (l.drop (w * i)).take w

/-- A row reduction: each segment by its tree, then the segments in order. -/
def reduceRow (op : Word → Word → Word) (w : Nat) (l : List Word) : Word :=
  match (segments w l).map (treeOf op 12) with
  | [] => fzero
  | x :: xs => xs.foldl op x

def sumRow (w : Nat) (l : List Word) : Word := reduceRow fadd w l
def dotRow (w : Nat) (a b : List Word) : Word := sumRow w (List.zipWith fmul a b)

/-! Softmax (R192-R196). -/

/-- x′ of logical column `c` of row `m` (R192). -/
def EpiRec.logit (r : EpiRec) (m c : Nat) (x : Word) : Word :=
  let x := if bitOf r.flags 2 then fmul x r.alpha else x
  if bitOf r.flags 3 && decide (r.qbase + m < r.kbase + c) then fnegInf else x

def EpiRec.logits (r : EpiRec) (m : Nat) (l : List Word) : List Word := (List.range l.length).map fun c => r.logit m c (l.getD c 0)

/-- The running maximum and sum of pass 1 (R193, R194). -/
def softmaxStats (w : Nat) (xs : List Word) : Word × Word :=
  (segments w xs).foldl (fun (acc : Word × Word) seg =>
    let m := fmax acc.1 (treeOf fmax 12 seg)
    let old := if acc.1 = fnegInf then fzero else fmul acc.2 (fexp (fsub acc.1 m))
    let new := if m = fnegInf then fzero else treeOf fadd 12 (seg.map fun x => fexp (fsub x m))
    (m, fadd old new)) (fnegInf, fzero)

/-- P of pass 2. -/
def softmaxP (xs : List Word) (m l : Word) : List Word :=
  if m = fnegInf then xs.map fun _ => fzero else xs.map fun x => fmul (fexp (fsub x m)) (frcp l)

/-! Routing (R163, R164). -/

/-- The scores of a row of logits. DESIGN CHOICE (log 31): LOGIT_SCALE and LOGIT_MASK form the logits of ROUTE too, as they do those that DROUTE
re-forms from the same row (R192). -/
def EpiRec.scores (r : EpiRec) (w m : Nat) (l : List Word) : List Word :=
  let xs := r.logits m l
  if r.sigmoid then xs.map (evalFn fzero 7 false)
  else let (mx, sum) := softmaxStats w xs; softmaxP xs mx sum

/-- Does expert `a` with score `x` rank before expert `b` with score `y`: higher score, then lower index; NaN below every number (R164)? -/
def ranksBefore (a b : Nat × Word) : Bool :=
  match (f32 a.2).isNan, (f32 b.2).isNan with
  | true, true => decide (a.1 < b.1)
  | true, false => false
  | false, true => true
  | false, false => flt b.2 a.2 || (!flt a.2 b.2 && decide (a.1 < b.1))

/-- The best remaining expert. -/
def bestOf (l : List (Nat × Word)) : Option (Nat × Word) :=
  l.foldl (fun (b : Option (Nat × Word)) x => match b with | none => some x | some y => if ranksBefore x y then some x else some y) none

def topK : Nat → List (Nat × Word) → List (Nat × Word)
  | 0, _ => []
  | k + 1, l => match bestOf l with
    | none => []
    | some b => b :: topK k (l.filter fun x => x.1 != b.1)

/-- Gates of the chosen experts: divided by their sum when NORM = 1. -/
def EpiRec.gates (r : EpiRec) (chosen : List Word) : List Word :=
  if r.norm then
    let z := chosen.foldl fadd fzero
    chosen.map fun g => fdiv g z
  else chosen

/-- The route record of row `m` (R165). DESIGN CHOICE (log 31): TOKEN is the row's number in its tile, which begins again at 0 in every router
tile. -/
def EpiRec.routeRecord (r : EpiRec) (w m : Nat) (l : List Word) : List Byte :=
  let p := r.scores w m l
  let best := topK r.topk ((List.range p.length).map fun i => (i, p.getD i 0))
  let g := r.gates (best.map Prod.snd)
  leBytes 4 m ++ leBytes 1 best.length ++ leBytes 1 (bit (l.any fun x => !ffinite x)) ++ leBytes 2 0
    ++ padTo 16 (best.flatMap fun b => leBytes 2 b.1) ++ padTo 32 (g.flatMap fun x => leBytes 4 x.toNat) ++ leBytes 8 0

/-- K, experts and gates of a route record. -/
def routeOf (b : List Byte) : List (Nat × Word) :=
  (List.range (min 8 (fieldAt b 4 1))).map fun j => (fieldAt b (8 + 2 * j) 2, BitVec.ofNat 32 (fieldAt b (0x18 + 4 * j) 4))

/-- The gradient of a row of logits (R214): `dg` are the gate gradients in rank order. -/
def EpiRec.routeGrad (r : EpiRec) (w m : Nat) (l : List Word) (route : List (Nat × Word)) (dg : List Word) : List Word :=
  let xs := r.logits m l
  let p := r.scores w m l
  let pc := route.map fun c => p.getD c.1 0
  let z := pc.foldl fadd fzero
  let dgs := (List.range route.length).map fun j => dg.getD j 0
  let ds := if r.norm then
      let t := (List.zipWith fmul dgs (pc.map fun x => fdiv x z)).foldl fadd fzero
      dgs.map fun d => fdiv (fsub d t) z
    else dgs
  let u := (List.zipWith fmul ds pc).foldl fadd fzero
  (List.range l.length).map fun e =>
    match (List.range route.length).find? fun j => (route.getD j (0, 0)).1 == e with
    | some j =>
      if r.sigmoid then fmul (ds.getD j 0) (evalFn fzero 7 true (xs.getD e 0)) else fmul (p.getD e 0) (fsub (ds.getD j 0) u)
    | none => if r.sigmoid then fzero else fmul (p.getD e 0) (fneg u)

/-! Normalisation (R197, R198). -/

/-- Mean of a row. -/
def meanRow (w : Nat) (l : List Word) : Word := fdiv (sumRow w l) (fofNat l.length)

/-- RMSNORM: the scaled row, and r. -/
def EpiRec.rmsNorm (r : EpiRec) (w : Nat) (x : List Word) : List Word × Word :=
  let k := frsqrt (fadd (fdiv (dotRow w x x) (fofNat x.length)) r.eps)
  (x.map fun v => fmul v k, k)

/-- LAYERNORM: the row, μ and r. -/
def EpiRec.layerNorm (r : EpiRec) (w : Nat) (x : List Word) : List Word × Word × Word :=
  let mu := meanRow w x
  let d := x.map fun v => fsub v mu
  let k := frsqrt (fadd (fdiv (dotRow w d d) (fofNat x.length)) r.eps)
  (d.map fun v => fmul v k, mu, k)

/-- The normalised input that a backward stage forms again from the stashed one. -/
def reNorm (x : List Word) (mu k : Word) : List Word := x.map fun v => fmul (fsub v mu) k

/-- DRMSNORM and DLAYERNORM: dx from g, x̂, γ and r. -/
def dNorm (layer : Bool) (w : Nat) (g xh gam : List Word) (k : Word) : List Word :=
  let gp := List.zipWith fmul g gam
  let a := meanRow w gp
  let b := fdiv (dotRow w gp xh) (fofNat g.length)
  List.zipWith (fun p x => fmul k (fsub (if layer then fsub p a else p) (fmul x b))) gp xh

end Sys2Proof.Machine
end

