-- ==== Sys2Proof/Machine/Edge.lean ====
section
/-!
DEFINITION. The edge units and the drain feeders (R180-R191, R213-R215, R228-R236): the rows that an epilogue holds and reads, its stages over
them row by row as its segments stream, the side streams, and the output and stash rows that the drain feeder converts and writes.
-/
namespace Sys2Proof.Machine

/-! Held rows (R182, R183). -/

def State.epiRec (s : State) (addr : Nat) : EpiRec := epiRecOf (s.rdN addr 64)

/-- Epilogue rows of a tile: one for each moving vector. DESIGN CHOICE (log 31): of a hold tile, whose bank rows are the rows of dW, one for each
logical row of dW: R of them, or R / 2 in BF16 and FP16, whose results lie in the even bank rows (R113, R182). -/
def epiRows (mode fmt m r : Nat) : Nat := if mode = 2 then (if is16 fmt then r / 2 else r) else m
def Epilogue.rows (e : Epilogue) : Nat := epiRows e.mode e.fmt e.m e.r

/-- Bank rows that one segment's rows span. -/
def Epilogue.span (e : Epilogue) : Nat := if e.mode = 2 then e.r else e.m

/-- The bank row, from the first of its segment, of epilogue row `i`. -/
def Epilogue.step_ (e : Epilogue) (i : Nat) : Nat := if e.mode = 2 ∧ is16 e.fmt then 2 * i else i

/-- The bank row of segment `g` of row `i`, and of the paired row (R182, R183). -/
def Epilogue.bankRow (e : Epilogue) (nseg g i : Nat) : Nat := e.brow - (nseg - 1 - g) * e.m + e.step_ i
def Epilogue.pairRow (e : Epilogue) (r : EpiRec) (g i : Nat) : Nat := r.pairRow + g * e.m + e.step_ i

/-- Does a held epilogue hold bank row `row`? -/
def State.epiHolds (s : State) (e : Epilogue) (row : Nat) : Bool :=
  let r := s.epiRec e.rec_
  let nseg := r.nseg e.fmt
  (List.range nseg).any fun g =>
    (decide (e.bankRow nseg g 0 ≤ row) && decide (row < e.bankRow nseg g 0 + e.span))
      || (r.pairRow != 0xFFFF && decide (e.pairRow r g 0 ≤ row) && decide (row < e.pairRow r g 0 + e.span))

/-- Is bank row `row` of a bank held for an epilogue? -/
def State.rowHeld (s : State) (a : Nat) (east : Bool) (row : Nat) : Bool := ((s.array a).edge east).queue.any fun e => s.epiHolds e row

/-! Rows and side streams. -/

/-- The segments of a bank region as one row of NCOL logical columns. -/
def State.bankCols (s : State) (a : Nat) (east : Bool) (fmt ncol : Nat) (rowOf : Nat → Nat) : List Word :=
  let w := blockWidth fmt
  (List.range ncol).map fun c => s.bankWord a east (rowOf (c / w)) (if is16 fmt then 2 * (c % w) else c % w)

/-- Stream rows that one row of `ncol` elements fills (log 31). -/
def StreamDesc.rowsPer (d : StreamDesc) (num ncol : Nat) : Nat := max 1 (ceilDiv (ceilDiv (ncol * elemBits num) 8) (max 1 d.rowBytes))

/-- What reading row `n` of a side stream meets. -/
def State.sideTrouble (s : State) (a : Nat) (d : StreamDesc) (t : TensorDesc) (n : Nat) : Trouble :=
  s.rowTrouble (s.arrayCtx a) a d t Attach.none_ d.base n false

/-- Stream row `n` of a side stream, widened exactly to FP32; zeros where it could not be read (R186, R218). -/
def State.sideValues (s : State) (a f tile : Nat) (d : StreamDesc) (n : Nat) : List Word × State :=
  let t := s.tensorDesc d.tdesc
  match s.sideTrouble a d t n with
  | .none =>
    ((s.rowElements d t Attach.none_ (s.rowAt d d.base n)).map fun e => toF32 (applyScale e.2.1 (decodeElem t.fmt t.variant e.1)), s)
  | tr => (List.replicate (d.elems t.fmt) fzero, s.feederTrouble a f tile tr)

/-- Is side 0 the combine buffer, of which the stages name the rows themselves (R177, R213)? -/
def EpiRec.combines (r : EpiRec) : Bool := r.has 0x0D || r.has 0x15

/-- The side streams of a record, as a mask; and of them those that are read in row order, through their queues. -/
def EpiRec.sides (r : EpiRec) : Nat := r.codes.foldl (fun m c => m ||| sidesOf c) 0
def EpiRec.queued (r : EpiRec) (k : Nat) : Bool := bitOf r.sides k && !(k == 0 && r.combines)

/-- The side queues (R231): rows one behind the other as words; stream rows read for the present epilogue. -/
def Feeder.side (g : Feeder) (k : Nat) : List Word := if k = 0 then g.side0 else g.side1
def Feeder.sideRead (g : Feeder) (k : Nat) : Nat := if k = 0 then g.rows0 else g.rows1
def Feeder.setSide (g : Feeder) (k : Nat) (l : List Word) (n : Nat) : Feeder :=
  if k = 0 then { g with side0 := l, rows0 := n } else { g with side1 := l, rows1 := n }

/-! Stages. -/

/-- What an epilogue works on: its array and bank, its record, its place. -/
structure EpiEnv where
  a    : Nat
  east : Bool
  e    : Epilogue
  r    : EpiRec
  seed : DWord
  step : Word
  deriving DecidableEq, Repr

/-- An epilogue under way. -/
structure Pass where
  s      : State
  v      : List Word
  out    : List (List Word)
  stash  : List (List Word)
  gain   : List Word
  offset : List Word
  emits  : Bool                  -- the row still stands for the output stream
  deriving DecidableEq, Repr

def EpiEnv.w (x : EpiEnv) : Nat := blockWidth x.e.fmt
def EpiEnv.ctx (x : EpiEnv) (s : State) : Nat := s.arrayCtx x.a
def EpiEnv.f (x : EpiEnv) : Nat := drainOf x.east
def EpiEnv.by_ (x : EpiEnv) (s : State) : Issuer := { ctx := x.ctx s, array := x.a, source := edgeSource x.a x.east }

/-- The environment of the epilogue at the head of an edge unit's queue. -/
def State.epiEnv (s : State) (a : Nat) (east : Bool) (e : Epilogue) : EpiEnv :=
  let (seed, step) := match s.runOnArray a with | some r => (r.seed, r.step) | none => (0, 0)
  { a := a, east := east, e := e, r := s.epiRec e.rec_, seed := seed, step := step }

/-- The program step of an epilogue with a role, and its descriptor. -/
def State.envStep (s : State) (x : EpiEnv) (role : Nat) : Option (StreamStep × StreamDesc) :=
  (s.epiStep x.a x.east x.e role).map fun j => let st := s.streamStep (s.feeder x.a x.f) j; (st, s.streamDesc st.desc)

/-- Rows of NCOL columns that one epilogue row puts on the output, and on the stash. -/
def EpiRec.outRows (r : EpiRec) : Nat := if r.outFmt = 0 then 0 else if r.has 0x15 then r.topk else 1
def EpiRec.stashRows (r : EpiRec) : Nat := (r.codes.filter stashes).length

/-- Row `n` of the combine buffer as `ncol` values: the edge unit has the drain feeder read it where it lies (log 31). -/
def State.combineRow (s : State) (x : EpiEnv) (n : Nat) : List Word × State :=
  match s.envStep x 6 with
  | none => (List.replicate x.r.ncol fzero, s)
  | some (st, d) =>
    let per := d.rowsPer (s.tensorDesc d.tdesc).fmt x.r.ncol
    let (l, s) := (List.range per).foldl (fun (acc : List Word × State) q =>
      let (v, s) := acc.2.sideValues x.a x.f x.e.tile d (st.start + n * per + q)
      (acc.1 ++ v, s)) ([], s)
    ((l ++ List.replicate x.r.ncol fzero).take x.r.ncol, s)

/-- Row `i` of side stream `k`: the head of its queue. -/
def State.sideRow (s : State) (x : EpiEnv) (k i : Nat) : List Word × State :=
  if k = 0 ∧ x.r.combines then s.combineRow x i else (((s.feeder x.a x.f).side k).take x.r.ncol, s)

/-- A read or write of the edge unit at an address: performed unless it is forbidden, which faults the context (R25, R380). Once the context is
faulted the unit is abandoned (R265, R381). -/
def State.edgeAccess (s : State) (x : EpiEnv) (write : Bool) (addr n : Nat) (f : State → State) : State :=
  if (s.runOnArray x.a).isNone then s
  else match (if write then s.writeFault (s.arrayCtx x.a) addr n else s.readFault (s.arrayCtx x.a) addr n) with
  | 0 => f s
  | cause =>
    let s := (if cause = 3 then s.reportPoison addr n else s).noteUnmapped x.a cause addr n
    s.faultCtx (s.arrayCtx x.a) cause x.a (if cause = 3 then 0x0302 else 0) (edgeSource x.a x.east) addr

/-- Write statistics word `k` of row `m` (R188). -/
def State.statWord (s : State) (x : EpiEnv) (m k : Nat) (v : Word) : State :=
  s.edgeAccess x true (x.r.stat + 16 * m + 4 * k) 4 fun s => s.storeLe (x.r.stat + 16 * m + 4 * k) 4 v.toNat

/-- Read statistics word `k` of row `m`. -/
def State.readStat (s : State) (x : EpiEnv) (m k : Nat) : Word := BitVec.ofNat 32 (s.rdLe (x.r.stat + 16 * m + 4 * k) 4)

/-- The logits of the paired region's row `m` (R183). -/
def State.pairedRow (s : State) (x : EpiEnv) (m : Nat) : List Word :=
  s.bankCols x.a x.east x.e.fmt x.r.ncol fun g => x.e.pairRow x.r g m

/-- The conversion of the output (role 4) or the stash (role 5). -/
def EpiEnv.outSpec (x : EpiEnv) (s : State) (role : Nat) : OutSpec :=
  { by_ := x.by_ s, num := if role = 4 then x.r.outFmt else x.r.stashFmt, variant := if role = 4 then x.r.outVar else x.r.stashVar
    sr := role == 4 && x.r.sr, tensor := x.r.tensor, seed := x.seed, step := x.step }

/-- The values of stash row `i` of the epilogue as its stash stores them, read back exactly (R202). -/
def State.stashBack (s : State) (x : EpiEnv) (i : Nat) (v : List Word) : State × List Word :=
  match s.envStep x 5 with
  | none => (s, v)
  | some (st, d) =>
    let t := s.tensorDesc d.tdesc
    let o := x.outSpec s 5
    let s := if o.record t = 0 then s else s.meetStep o.by_ (o.record t) o.num o.step
    let per := d.rowsPer o.num x.r.ncol
    let n := d.elems o.num
    (s, (List.range per).flatMap fun q =>
      (s.convertRow o d t (s.rowAt d d.base (st.start + i * per + q)).num ((v.drop (q * n)).take n)).map o.readBack)

/-- What the module's dispatches say of a combine buffer: k, the parts a row may have, and the rows that have returned of slots that were not
dropped (R177, R178). The completed dispatches of a context stay known to its later epilogues. -/
def State.combineOf (s : State) (ctx base : Nat) : Option (Nat × Nat × List Nat) :=
  let ds := s.engines.flatMap fun e => e.2.dispatches
  match ds.find? fun d => d.ctx == ctx && s.rdLe (d.rec_ + 0x28) 8 == base with
  | some d =>
    let place := s.rdLe d.rec_ 8
    let m := max 1 (s.rdLe (place + 7) 1)
    some (s.rdLe (place + 6) 1, m, d.got.filter fun n => !d.dropped.any fun k => k / m == n / m)
  | none => none

/-- The first row of the combine buffer that a tile's side stream reads: its START in rows of NCOL columns. -/
def State.combineStart (s : State) (x : EpiEnv) : Nat :=
  match s.envStep x 6 with
  | none => 0
  | some (st, d) => st.start / d.rowsPer (s.tensorDesc d.tdesc).fmt x.r.ncol

/-- The summed part rows of slot `j` of the tile's row `i`; `none` where the slot was dropped (R173, R177, R178). DESIGN CHOICE (log 33): where no
dispatch of the context has named the buffer, each slot has the one row i × TOPK + j and none was dropped. -/
def State.slotSum (s : State) (x : EpiEnv) (i j : Nat) : Option (List Word) × State :=
  let base := match s.envStep x 6 with | some (_, d) => d.base | none => 0
  match s.combineOf (x.ctx s) base with
  | none => let (y, s) := s.combineRow x (i * x.r.topk + j); (some y, s)
  | some (k, maxParts, got) =>
    let first := s.combineStart x
    let rows := ((List.range maxParts).map fun q => (i * k + j) * maxParts + q).filter fun n => got.contains (first + n)
    match rows with
    | [] => (none, s)
    | n :: ns =>
      let (y, s) := ns.foldl (fun (acc : List Word × State) n =>
        let (z, s) := acc.2.combineRow x n
        (List.zipWith fadd acc.1 z, s)) (s.combineRow x n)
      (some y, s)

/-- The route record of token `i` (R165). -/
def State.routeAt (s : State) (x : EpiEnv) (i : Nat) : List (Nat × Word) := routeOf (s.rdN (x.r.aux + 64 * i) 64)

/-- COMBINE of token `i` (R177). -/
def State.combine (s : State) (x : EpiEnv) (i : Nat) : List Word × State :=
  let route := s.routeAt x i
  (List.range route.length).foldl (fun (acc : List Word × State) j =>
    match acc.2.slotSum x i j with
    | (none, s) => (acc.1, s)
    | (some y, s) => (List.zipWith fadd acc.1 (y.map fun v => fmul (route.getD j (0, 0)).2 v), s)) (List.replicate x.r.ncol fzero, s)

/-- DCOMBINE of token `i`: a row for each of TOPK slots, and the gate gradients; a slot that is dropped or not used gives +0 (R213, log 31). -/
def State.dcombine (s : State) (x : EpiEnv) (i : Nat) (v : List Word) : List (List Word) × List Word × State :=
  let route := s.routeAt x i
  (List.range x.r.topk).foldl (fun (acc : List (List Word) × List Word × State) j =>
    match (if j < route.length then acc.2.2.slotSum x i j else (none, acc.2.2)) with
    | (none, s) => (acc.1 ++ [v.map fun _ => fzero], acc.2.1 ++ [fzero], s)
    | (some y, s) => (acc.1 ++ [v.map fun d => fmul (route.getD j (0, 0)).2 d], acc.2.1 ++ [dotRow x.w v y], s)) ([], [], s)

/-- Add a row into column accumulators (R185, R199). -/
def addCols (acc l : List Word) : List Word := if acc = [] then l else List.zipWith fadd acc l

/-- One stage of row `m` (R187). -/
def EpiEnv.stage (x : EpiEnv) (m : Nat) (p : Pass) (c : Nat × Nat) : Pass :=
  let side (s : State) (k : Nat) := s.sideRow x k m
  let pick (k : Nat) := if bitOf k 0 then 1 else 0
  match c.1 with
  | 0x01 | 0x03 => let (y, s) := side p.s (pick c.2); { p with s := s, v := List.zipWith fadd p.v y }
  | 0x02 => { p with v := p.v.map fun z => fmul z x.r.alpha }
  | 0x04 => let (y, s) := side p.s (pick c.2); { p with s := s, v := List.zipWith fmul p.v y }
  | 0x05 => { p with v := p.v.map (evalFn x.r.alpha c.2 false) }
  | 0x06 =>
    let (s, back) := if x.r.match_ then p.s.stashBack x (m * x.r.stashRows + p.stash.length) p.v else (p.s, p.v)
    { p with s := s, stash := p.stash ++ [p.v], v := back }
  | 0x07 =>
    let xs := x.r.logits m p.v
    let (mx, l) := softmaxStats x.w xs
    { p with s := (p.s.statWord x m 0 mx).statWord x m 1 l, v := softmaxP xs mx l }
  | 0x08 => let (y, k) := x.r.rmsNorm x.w p.v; { p with s := p.s.statWord x m 3 k, v := y }
  | 0x09 => let (y, mu, k) := x.r.layerNorm x.w p.v; { p with s := (p.s.statWord x m 2 mu).statWord x m 3 k, v := y }
  | 0x0A => { p with s := (p.s.statWord x m 0 (reduceRow fmax x.w p.v)).statWord x m 1 (sumRow x.w p.v) }
  | 0x0B => let (y, s) := side p.s (pick c.2); { p with s := s.statWord x m (c.2 / 2 % 4) (dotRow x.w p.v y) }
  | 0x0C => { p with s := p.s.edgeAccess x true (x.r.aux + 64 * m) 64 fun s => s.store (x.r.aux + 64 * m) (x.r.routeRecord x.w m p.v) }
  | 0x0D => let (y, s) := p.s.combine x m; { p with s := s, v := y }
  | 0x11 => let (z, s) := side p.s 0; { p with s := s, v := List.zipWith (fun v z => fmul v (evalFn x.r.alpha c.2 true z)) p.v z }
  | 0x12 =>
    let st := (p.s.readStat x m 0, p.s.readStat x m 1)
    let (prob, s) := match c.2 % 4 with
      | 0 => side p.s 0
      | 1 => let (l, s) := side p.s 0; (softmaxP (x.r.logits m l) st.1 st.2, s)
      | _ => (softmaxP (x.r.logits m (p.s.pairedRow x m)) st.1 st.2, p.s)
    let d := if bitOf c.2 2 then s.readStat x m 2 else dotRow x.w p.v prob
    let ds := if (c.2 % 4 != 0 && st.1 == fnegInf) || (c.2 % 4 == 0 && prob.all fun q => q == fzero) then p.v.map (fun _ => fzero)
      else List.zipWith (fun q g => fmul q (fsub g d)) prob p.v
    { p with s := s, v := ds, stash := if bitOf c.2 3 then p.stash ++ [prob] else p.stash }
  | 0x13 | 0x14 =>
    let layer := c.1 == 0x14
    let (y, s) := side p.s 0
    let (gam, s) := side s 1
    let k := s.readStat x m 3
    let xh := reNorm y (if layer then s.readStat x m 2 else fzero) k
    { p with
      s := s, v := dNorm layer x.w p.v xh gam k
      gain := if bitOf c.2 0 then addCols p.gain (List.zipWith fmul p.v xh) else p.gain
      offset := if bitOf c.2 0 && layer then addCols p.offset p.v else p.offset }
  | 0x15 =>
    let (rows, dg, s) := p.s.dcombine x m p.v
    let s := s.edgeAccess x true (x.r.stat + 32 * m) 32 fun s => s.store (x.r.stat + 32 * m) (padTo 32 (dg.flatMap fun g => leBytes 4 g.toNat))
    { p with s := s, out := p.out ++ rows, emits := false }
  | 0x16 =>
    let dg := (List.range 8).map fun j => BitVec.ofNat 32 (p.s.rdLe (x.r.stat + 32 * m + 4 * j) 4)
    { p with v := x.r.routeGrad x.w m p.v (p.s.routeAt x m) dg }
  | _ => p

/-- All stages over row `m`; what is left stands for the output stream (R190). -/
def EpiEnv.row (x : EpiEnv) (p : Pass) (m : Nat) : Pass :=
  let nseg := x.r.nseg x.e.fmt
  let v := p.s.bankCols x.a x.east x.e.fmt x.r.ncol fun g => x.e.bankRow nseg g m
  let q := x.r.codes.foldl (x.stage m) { p with v := v, emits := true }
  if q.emits && x.r.outFmt != 0 then { q with out := q.out ++ [q.v] } else q

/-- What the stages read of row statistics and route records, as address and length. Only a DSOFTMAX with P in side 0 and its own D reads no
statistics word (R196). -/
def EpiRec.tableReads (r : EpiRec) (rows : Nat) : List (Nat × Nat) :=
  r.codes.flatMap fun c => match c.1 with
    | 0x12 => if c.2 % 8 = 0 then [] else [(r.stat, 16 * rows)]
    | 0x13 | 0x14 => [(r.stat, 16 * rows)]
    | 0x0D | 0x15 => [(r.aux, 64 * rows)]
    | 0x16 => [(r.stat, 32 * rows), (r.aux, 64 * rows)]
    | _ => []

/-! An epilogue runs (R180-R184, R232). -/

/-- May an edge unit work: its array's RUN holds it, nothing has stopped it, and its clock runs (R71, R95)? -/
def State.edgeRuns (s : State) (a : Nat) : Bool :=
  let x := s.array a
  !x.quiesced && s.clockRuns a && (s.runOnArray a).isSome && !x.scrubbing && x.state != 4

/-- Register a step's stream for the epilogue rows that it serves (R241). -/
def State.registerStep (s : State) (a f : Nat) (st : StreamStep) (d : StreamDesc) (num ncol : Nat) : State :=
  s.registerStream (a / 4) st.desc (feederSource a f) (s.arrayCtx a) d.base st.start (st.start + st.nrows * d.rowsPer num ncol)

/-- EPILOGUE_START: the first waiting epilogue of a free edge unit whose rows have passed to it begins: its side streams are registered, and
what it reads of statistics and route records is looked at (R180, R183, R241). Its segments then stream with the array's cycles (R184). -/
def epilogueStart (a : Nat) (east : Bool) (s : State) : State :=
  let u := (s.array a).edge east
  match u.queue with
  | [] => s
  | e :: rest =>
    if !e.ready || u.running || !s.edgeRuns a then s
    else
      let x := s.epiEnv a east e
      let c := s.arrayCtx a
      let s := [6, 7].foldl (fun (s : State) role => match s.envStep x role with
        | some (st, d) => s.registerStep a x.f st d (s.tensorDesc d.tdesc).fmt x.r.ncol
        | none => s) s
      let s := (x.r.tableReads e.rows).foldl (fun (s : State) q => s.edgeAccess x false q.1 q.2 id) s
      if (s.ctx c).state = 5 || (s.runOnArray a).isNone then s
      else
        let e := { e with beat := 0, row := 0, nonfin := 0, stashNonfin := 0, gain := [], offset := [] }
        let s := s.setEdge a east { u with running := true, queue := e :: rest }
        s.updFeeder a (drainOf east) fun g => { g with
          output := [], stash := [], mrow := 0, srow := 0, side0 := [], side1 := [], rows0 := 0, rows1 := 0 }

def execEpilogueStart (a : Fin 8) (east : Bool) (s : State) : Host.Outcome State Fault Refusal := live s (epilogueStart a.val east)

/-- Is there room for what one row puts out: 64 entries of one segment each (R231)? -/
def EpiEnv.room (x : EpiEnv) (g : Feeder) : Bool :=
  let n := x.r.nseg x.e.fmt
  decide ((g.output.length + x.r.outRows) * n ≤ 64) && decide ((g.stash.length + x.r.stashRows) * n ≤ 64)

/-- Has every queued side stream its next row? -/
def EpiEnv.sidesReady (x : EpiEnv) (g : Feeder) : Bool :=
  [0, 1].all fun k => !x.r.queued k || decide (x.r.ncol ≤ (g.side k).length)

/-- The last row of a queued side stream leaves its queue: SYNC, if this was its last step (R230). -/
def State.sideLeft (s : State) (x : EpiEnv) (k : Nat) : State :=
  if !x.r.queued k then s
  else
    let s := s.updFeeder x.a x.f fun g => g.setSide k ((g.side k).drop x.r.ncol) (g.sideRead k)
    if x.e.rows ≤ x.e.row + 1 then
      (match s.epiStep x.a x.east x.e (6 + k) with | some j => s.streamDone x.a x.f j false | none => s)
    else s

/-- Row `e.row` runs through the stages; its output and stash rows are queued for the drain feeder. -/
def State.edgeRow (s : State) (x : EpiEnv) : State :=
  let e := x.e
  let p := x.row { s := s, v := [], out := [], stash := [], gain := e.gain, offset := e.offset, emits := true } e.row
  let s := p.s
  if (s.runOnArray x.a).isNone then s
  else
    let s := s.updFeeder x.a x.f fun g => { g with output := g.output ++ p.out, stash := g.stash ++ p.stash }
    let s := [0, 1].foldl (fun (s : State) k => s.sideLeft x k) s
    let u := (s.array x.a).edge x.east
    s.setEdge x.a x.east { u with cause := 0, queue := { e with beat := e.beat + 1, row := e.row + 1, gain := p.gain, offset := p.offset } :: u.queue.drop 1 }

/-- The array cycle of an edge unit: one segment streams. The passes before the last stream every segment of every row; in the last one a row has
run through its stages once its last segment has streamed, and stands still while a side row is missing or there is no room for what it puts
out (R184, R232, R254, log 31). -/
def State.edgeCycle (s : State) (a : Nat) (east : Bool) : State :=
  let u := (s.array a).edge east
  let note (c : Nat) : State := s.setEdge a east { u with cause := c }
  match u.queue with
  | [] => note 1
  | e :: rest =>
    if !s.edgeRuns a then note (if (s.array a).state = 2 then 8 else 1)
    else if !u.running then note 1
    else
      let x := s.epiEnv a east e
      let g := s.feeder a x.f
      let n := x.r.nseg e.fmt
      let early := (x.r.passes - 1) * n * e.rows
      if e.rows ≤ e.row then note 1
      else if e.beat < early ∨ (e.beat + 1 - early) % n ≠ 0 then
        s.setEdge a east { u with cause := 0, queue := { e with beat := e.beat + 1 } :: rest }
      else if !x.room g then note 3
      else if !x.sidesReady g then note 2
      else s.edgeRow x

/-! The drain feeders (R216, R229-R236). -/

/-- The output or stash row at the head of its queue, of which stream row `k` of the epilogue's is written next. -/
def Feeder.drainHead (g : Feeder) (role : Nat) : List Word := if role = 4 then g.output.headD [] else g.stash.headD []

/-- What has been written of the row at the head of a queue: the next stream row, and the row leaves once its last one is written. -/
def Feeder.written (g : Feeder) (role : Nat) (last : Bool) : Feeder :=
  if role = 4 then { g with mrow := g.mrow + 1, mActive := true, output := if last then g.output.drop 1 else g.output }
  else { g with srow := g.srow + 1, mActive := true, stash := if last then g.stash.drop 1 else g.stash }

/-- The stream of a drain feeder's step is released unless a later step of the program reads or writes it (R241). -/
def State.releaseDrained (s : State) (a f j : Nat) : State :=
  let g := s.feeder a f
  let desc := (s.streamStep g j).desc
  if (List.range (g.count - j - 1)).any fun i => (s.streamStep g (j + 1 + i)).desc == desc then s
  else s.releaseStreams fun y => y.engine == feederSource a f && y.desc == desc

/-- Does a full window of HBM refuse the row that a drain feeder writes next, or the side row that it reads next (R279)? -/
def State.writeRefused (s : State) (a : Nat) (east : Bool) : Bool :=
  match s.nextWrite a east with
  | some (st, d, k) => let row := s.stepRow st d d.base k; !row.null && s.windowFull row.addr d.rowBytes
  | none => false

/-- One stream row of the output, or else of the stash, is converted and written, if it wins its scratchpad banks and no full window of HBM
refuses it (R190, R230, R236, R279). -/
def State.writeDrained (s : State) (a : Nat) (east : Bool) : State :=
  let f := drainOf east
  let u := (s.array a).edge east
  match u.queue, s.nextWrite a east with
  | e :: _, some (st, d, k) =>
    let banks := s.writeWants a east
    if s.writeRefused a east then s
    else if !s.wins a (if east then 5 else 4) [] banks then s.updFeeder a f fun g => { g with conflict := true }
    else
      let x := s.epiEnv a east e
      let role := if (s.feeder a f).output != [] then 4 else 5
      let o := x.outSpec s role
      let per := d.rowsPer o.num x.r.ncol
      let n := d.elems o.num
      let v := ((s.feeder a f).drainHead role).drop (k % per * n) |>.take n
      let s := s.grant a (if east then 5 else 4) banks
      let s := if k = 0 then s.registerStep a f st d o.num x.r.ncol else s
      let s := s.updFeeder a f fun g => g.written role (k % per + 1 == per)
      let (tr, nf, s) := s.writeConverted o d d.base (st.start + k) v
      let s := s.feederTrouble a f e.tile tr
      let u := (s.array a).edge east
      let s := s.setEdge a east { u with queue := u.queue.map fun y =>
        if y.tile ≠ e.tile then y else if role = 4 then { y with nonfin := y.nonfin + nf } else { y with stashNonfin := y.stashNonfin + nf } }
      if k + 1 < st.nrows * per then s
      else match s.epiStep a east e role with | some j => s.streamDone a f j false | none => s
  | _, _ => s

/-- The next stream row that a side stream's queue has room for: 32 entries of one segment each (R231). -/
def State.nextSide (s : State) (a : Nat) (east : Bool) : Option (Nat × StreamStep × StreamDesc × Nat) :=
  let f := drainOf east
  let g := s.feeder a f
  let u := (s.array a).edge east
  match u.queue with
  | [] => none
  | e :: _ =>
    if !u.running || g.sActive || !s.edgeRuns a then none
    else
      let x := s.epiEnv a east e
      let next (k : Nat) : Option (Nat × StreamStep × StreamDesc × Nat) :=
        if !x.r.queued k then none
        else match s.envStep x (6 + k) with
          | none => none
          | some (st, d) =>
            let per := d.rowsPer (s.tensorDesc d.tdesc).fmt x.r.ncol
            if g.sideRead k < st.nrows * per ∧ ((g.side k).length / x.r.ncol + 1) * x.r.nseg e.fmt ≤ 32 then some (k, st, d, g.sideRead k) else none
      match next 0, next 1 with
      | some y, some z => if g.side1.length < g.side0.length then some z else some y
      | some y, none => some y
      | none, z => z

/-- The scratchpad banks of that row with its metadata. -/
def State.sideBanks (s : State) (a : Nat) (east : Bool) : List Nat :=
  match s.nextSide a east with
  | none => []
  | some (_, st, d, k) =>
    let n := st.start + k
    let row := s.rowAt d d.base n
    let idx := match d.rowIndexAddr n with | some i => scratchBanks a i d.indexBytes | none => []
    if row.null then idx
    else (idx ++ scratchBanks a row.addr d.rowBytes
      ++ (s.rowMeta d (s.tensorDesc d.tdesc) Attach.none_ row false).flatMap fun q => scratchBanks a q.1 q.2).eraseDups

/-- The banks that the side streams of both drain feeders want. -/
def State.sideWants (s : State) (a : Nat) : List Nat := s.sideBanks a false ++ s.sideBanks a true

def State.sideRefused (s : State) (a : Nat) (east : Bool) : Bool :=
  match s.nextSide a east with
  | some (_, st, d, k) => let row := s.stepRow st d d.base k; !row.null && s.windowFull row.addr d.rowBytes
  | none => false

/-- One stream row of a side stream is read, if it wins its scratchpad banks: behind the last column of a row nothing of it is kept. -/
def State.readSide (s : State) (a : Nat) (east : Bool) : State :=
  let f := drainOf east
  match ((s.array a).edge east).queue, s.nextSide a east with
  | e :: _, some (k, st, d, i) =>
    let banks := s.sideBanks a east
    if s.sideRefused a east then s
    else if !s.wins a 6 [] banks then s.updFeeder a f fun g => { g with conflict := true }
    else
      let x := s.epiEnv a east e
      let num := (s.tensorDesc d.tdesc).fmt
      let n := d.elems num
      let (v, t) := s.sideValues a f e.tile d (st.start + i)
      let v := (v ++ List.replicate n fzero).take (min n (x.r.ncol - i % d.rowsPer num x.r.ncol * n))
      let t := t.grant a 6 banks
      (t.streamTaken (a / 4) st.desc (feederSource a f) (st.start + i) false).updFeeder a f fun g =>
        { g.setSide k (g.side k ++ v) (i + 1) with sActive := true }
  | _, _ => s

/-- FEEDER_STEP (R230): feeder 0 west, 1 north, 2 south drain, 3 east drain. In one array cycle a drain feeder writes at most one row, which its
edge unit has produced, and reads at most one row of a side stream. -/
def feederStep (a f : Nat) (s : State) : State :=
  if f < 2 then (if s.feeds a then s.operandStep a f (s.sideWants a) else s)
  else if s.edgeRuns a then (s.writeDrained a (f == 3)).readSide a (f == 3)
  else s

def execFeederStep (a : Fin 8) (feeder : Fin 4) (s : State) : Host.Outcome State Fault Refusal := live s (feederStep a.val feeder.val)

/-- LANDING_SLOT_READY (R238): the ready object of the slot that the lanes wait for has given its count: they hold the slot, and their feeder goes
on with its step. -/
def landingSlotReady (a f : Nat) (s : State) : State :=
  if !(s.waited (slotWaiter a f false) || s.waited (slotWaiter a f true)) then s
  else
    let s := (s.takeSlot a f false).takeSlot a f true
    if s.feeds a then s.operandStep a f (s.sideWants a) else s

def execLandingSlotReady (a : Fin 8) (feeder : Fin 2) (s : State) : Host.Outcome State Fault Refusal := live s (landingSlotReady a.val feeder.val)

/-! Completion (R190, R388). -/

/-- Add a count of non-finite elements to the scale record of a stream's tensor, by the add atomic of the shared cache (R129, R190). -/
def State.addNonfinite (s : State) (x : EpiEnv) (role k : Nat) : State :=
  match s.envStep x role with
  | some (_, d) =>
    let o := x.outSpec s role
    let rec_ := o.record (s.tensorDesc d.tdesc)
    if k = 0 ∨ rec_ = 0 then s else (s.taskAtomic o.by_ 1 1 (rec_ + 0x14) k 0).2
  | none => s

/-- Add column accumulators to the FP32 row at an address (R199). -/
def State.addColumns (s : State) (x : EpiEnv) (addr : Nat) (l : List Word) : State :=
  if l = [] then s
  else s.edgeAccess x true addr (4 * l.length) fun s =>
    s.store addr ((List.range l.length).flatMap fun c =>
      leBytes 4 (fadd (BitVec.ofNat 32 (s.rdLe (addr + 4 * c) 4)) (l.getD c 0)).toNat)

/-- EPILOGUE_COMPLETE: every row of a running epilogue has run through its stages and is written: the updates that are not idempotent, once; its
streams have completed their steps; and its held rows are released and no longer live (R183, R190, R230, R388). -/
def epilogueComplete (a : Nat) (east : Bool) (s : State) : State :=
  let u := (s.array a).edge east
  let f := drainOf east
  let g := s.feeder a f
  match u.queue with
  | [] => s
  | e :: _ =>
    if !u.running || decide (e.row < e.rows) || g.output != [] || g.stash != [] || !s.edgeRuns a then s
    else
      let x := s.epiEnv a east e
      let s := (s.addNonfinite x 4 e.nonfin).addNonfinite x 5 e.stashNonfin
      let s := (s.addColumns x x.r.aux e.gain).addColumns x (x.r.aux + 4 * x.r.ncol) e.offset
      if (s.runOnArray a).isNone then s
      else
        let s := (List.range e.nstep).foldl (fun (s : State) i => (s.streamDone a f (e.step + i) false).releaseDrained a f (e.step + i)) s
        let y := s.array a
        let off := if east then 2048 else 0
        let live' := Tab.drop y.liveRows fun row =>
          decide (off ≤ row) && decide (row < off + 2048) && s.epiHolds e (row - off)
        let u := y.edge east
        s.setArray a ({ y with liveRows := live' }.setEdge east { u with queue := u.queue.drop 1, running := false })

def execEpilogueComplete (a : Fin 8) (east : Bool) (s : State) : Host.Outcome State Fault Refusal := live s (epilogueComplete a.val east)

end Sys2Proof.Machine
end

