-- ==== Sys2Proof/Machine/Tiers.lean ====
section
/-!
DEFINITION. The tiers below HBM (R297-R314): what training and mounting find, reads of DDR5, objects and their space, and the translation layer
of the tray flash: stripes, decoding, wear, relocation, the directory.
-/
namespace Sys2Proof.Machine

/-! Board DDR5 (R297-R300). -/

/-- The ratings of a channel's DIMMs; no channel takes more than two. -/
def ddrRatings (c : Nat) : List Nat := (List.range (min 2 (Config.ddrDimms c))).map (Config.ddrRating c)

/-- Does a channel train, at the counter `fresh`? One without a DIMM or with a DIMM rated below DDR5-5600 does not (R297). -/
def ddrChannelTrains (fresh c : Nat) : Bool :=
  Config.ddrDimms c != 0 && ((ddrRatings c).all fun r => decide (5600 ≤ r)) && Config.ddrTrains c fresh

/-- TIER_DDR_CAP.SPEED: 0 without a trained channel; else 1, DDR5-5600, where a channel holds two DIMMs or a DIMM is rated below DDR5-6400, and
2, DDR5-6400 (R297). -/
def ddrSpeedOf (trained : List Nat) : Nat :=
  if trained = [] then 0
  else if (List.range 8).any fun c => decide (2 ≤ Config.ddrDimms c) || (ddrRatings c).any fun r => decide (r < 6400) then 1
  else 2

/-- Populated DDR5 in MiB: granules rotate over the trained channels, so each serves as much as the smallest holds (R297; log 19). -/
def ddrPopulated (trained : List Nat) : Nat :=
  let sizes := trained.map fun c => ((List.range (min 2 (Config.ddrDimms c))).map (Config.ddrMib c)).foldl (· + ·) 0
  trained.length * sizes.foldl min (sizes.headD 0)

/-- DDR5 trains: the speed, the channels, and the populated part less the reserve (R297, R299). -/
def State.trainDdr (s : State) : State :=
  let trained := (List.range 8).filter (ddrChannelTrains s.fresh)
  State.tick { s with tier := { s.tier with
    ddrSpeed := BitVec.ofNat 8 (ddrSpeedOf trained), ddrChannels := BitVec.ofNat 8 ((trained.map fun c => 2 ^ c).foldl (· + ·) 0)
    ddrUsableMib := BitVec.ofNat 32 (ddrPopulated trained - 512) } }

/-- What a read of DDR5 does beside giving its data: a burst with more than two devices in error that passes unnoticed holds free bytes (R298;
log 19), and a read of an array ferry or gather engine, for which `clean` is set, brings clean lines in (R281). -/
def State.ddrRead (s : State) (clean : Bool) (a n : Nat) : State :=
  if region a ≠ 1 then s
  else
    let wrong := (burstsOf a n).filter fun b => decide (2 < s.ddrDevices b) && !s.ddrBurstBad b
    let s := wrong.foldl (fun s b => s.wrBytes b ((List.range 64).map fun i => Config.freeByte s.fresh (b + i))) s
    if clean then s.ddrTouch a n else s

/-! Objects and the space of DDR5 (R308-R314). -/

/-- Does a DDR5 range meet an object or a stash reserve? -/
def State.ddrUsed (s : State) (a n : Nat) : Bool :=
  (s.tier.objs.any fun o => o.base != 0 && !o.stash && rangesMeet a n o.base o.size)
    || s.tier.stashes.any fun t => t.quota != 0 && rangesMeet a n t.reserve ((t.quota + 1) * t.slotBytes)

/-- The ends of what is used, where a free range may begin. -/
def State.ddrEnds (s : State) : List Nat :=
  (s.tier.objs.filter fun o => o.base != 0 && !o.stash).map (fun o => roundUp (o.base + o.size) 4096)
    ++ (s.tier.stashes.filter fun t => t.quota != 0).map fun t => t.reserve + (t.quota + 1) * t.slotBytes

def smallestOf : List Nat → Option Nat
  | [] => none
  | x :: xs => match smallestOf xs with
    | some y => some (min x y)
    | none => some x

/-- The lowest free range of the usable DDR5 (log 21). -/
def State.ddrFind (s : State) (n : Nat) : Option Nat :=
  smallestOf ((2 ^ 48 :: s.ddrEnds).filter fun a =>
    decide (a + n ≤ 2 ^ 48 + s.tier.ddrUsableMib.toNat * 2 ^ 20) && !s.ddrUsed a n)

/-- Add an object. -/
def State.addObj (s : State) (o : Obj) : State := { s with tier := { s.tier with objs := s.tier.objs ++ [o], serial := s.tier.serial + 1 } }

/-- Remove an object, with its directory entries (R307, R314). -/
def State.removeObj (s : State) (id : Nat) : State :=
  let keep (l : List Obj) : List Obj := l.filter fun o => o.id.toNat != id
  { s with tier := { s.tier with objs := keep s.tier.objs, dirA := keep s.tier.dirA, dirB := keep s.tier.dirB } }

/-- Rewrite an object. -/
def State.updObj (s : State) (id : Nat) (f : Obj → Obj) : State :=
  { s with tier := { s.tier with objs := s.tier.objs.map fun o => if o.id.toNat = id then f o else o } }

/-- The identifier with the next serial number (R308). -/
def State.nextId (s : State) (tier : Nat) : Nat := tier * 2 ^ 62 + s.tier.serial % 2 ^ 62

/-! The translation layer: stripes and pages (R301). -/

def Nand.pageBytes (g : Nand) : Nat := 4096 * g.codewords
/-- Object bytes of one extent: fifteen data pages in each stripe. -/
def Nand.extentBytes (g : Nand) : Nat := 15 * g.pages * g.pageBytes
/-- The die of a block, and the blocks of a die. -/
def Nand.dieOf (g : Nand) (b : Nat) : Nat := b / g.dieBlocks
def Nand.blocksOf (g : Nand) (die : Nat) : List Nat := (List.range g.dieBlocks).map (die * g.dieBlocks + ·)

/-- The channel whose page of a stripe holds the parity of the other fifteen, and the channel of the stripe's `k`-th data page. -/
def parityChannel (stripe : Nat) : Nat := stripe % 16
def dataChannel (stripe k : Nat) : Nat := if k < parityChannel stripe then k else k + 1

/-- A data page of a flash object by its number, as bytes; what the object does not reach reads as 0. -/
def State.flashPage (s : State) (o : Obj) (page : Nat) : List Byte :=
  (List.range s.tier.nand.pageBytes).map fun i =>
    let off := page * s.tier.nand.pageBytes + i
    if off < o.written then s.mem.read (flashKey o.id.toNat off) else 0

/-- XOR of pages, byte by byte. -/
def xorPages (n : Nat) (l : List (List Byte)) : List Byte :=
  l.foldl (fun acc p => (List.range n).map fun i => acc.getD i 0 ^^^ p.getD i 0) (List.replicate n 0)

/-- The page of a stripe on a channel: a data page, or the parity of the stripe's data pages (R301). -/
def State.stripePage (s : State) (o : Obj) (stripe channel : Nat) : List Byte :=
  let data (k : Nat) : List Byte := s.flashPage o (15 * stripe + k)
  if channel = parityChannel stripe then xorPages s.tier.nand.pageBytes ((List.range 15).map data)
  else data (if channel < parityChannel stripe then channel else channel - 1)

/-- What reconstruction from the other fifteen pages of a stripe gives (R302). -/
def State.rebuilt (s : State) (o : Obj) (stripe channel : Nat) : List Byte :=
  xorPages s.tier.nand.pageBytes (((List.range 16).filter (· != channel)).map (s.stripePage o stripe))

/-! Blocks (R303-R306). -/

def State.block (s : State) (b : Nat) : Block := Tab.get (fun _ => Block.reset) s.tier.blocks b
def State.setBlock (s : State) (b : Nat) (x : Block) : State :=
  { s with tier := { s.tier with blocks := Tab.set (fun _ => Block.reset) s.tier.blocks b x } }

def Obj.inBlock (o : Obj) (b : Nat) : Bool := o.extents.any fun e => e.contains b

/-- May the layer use a block: neither marked bad by the factory nor retired (R305)? -/
def State.blockGood (s : State) (b : Nat) : Bool := !s.tier.nand.bad.contains b && !(s.block b).retired

/-- Does a block hold data? -/
def State.blockHolds (s : State) (b : Nat) : Bool := s.tier.objs.any fun o => o.inBlock b

/-- Does a block hold sealed data? -/
def State.holdsSealed (s : State) (b : Nat) : Bool := s.tier.objs.any fun o => o.sealed && o.inBlock b

/-- The free block with the lowest erase count on a die (R303). -/
def State.freeBlock (s : State) (die : Nat) : Option Nat :=
  ((s.tier.nand.blocksOf die).filter fun b => s.blockGood b && !s.blockHolds b).foldl (fun (r : Option Nat) b =>
    match r with
    | none => some b
    | some c => if (s.block b).erases < (s.block c).erases then some b else some c) none

/-- The highest erase count on a die. -/
def State.highestErase (s : State) (die : Nat) : Nat := ((s.tier.nand.blocksOf die).map fun b => (s.block b).erases).foldl max 0

/-! Capacity (R301, R305, R307). -/

/-- Blocks of a die that hold data or may: the good ones less the spares, at least 4 % of them (R301). -/
def State.dieUsable (s : State) (die : Nat) : Nat :=
  let good := ((s.tier.nand.blocksOf die).filter s.blockGood).length
  good - max (ceilDiv (4 * good) 100) (Config.nandSpares good)

/-- Capacity in bytes after stripe parity and spares: a stripe takes a block on each of the sixteen channels (R301; log 20). -/
def State.flashUsable (s : State) : Nat :=
  let g := s.tier.nand
  let channel (c : Nat) : Nat := ((List.range g.dies).map fun i => s.dieUsable (c * g.dies + i)).foldl (· + ·) 0
  (smallestOf ((List.range 16).map channel)).getD 0 * g.extentBytes

/-- Flash bytes not held by objects. -/
def State.flashFree (s : State) : Nat :=
  s.flashUsable - ((s.tier.objs.filter fun o => o.base == 0).map fun o => o.size).foldl (· + ·) 0

/-- USABLE_GIB and FREE_GIB follow the blocks and the objects. -/
def State.refreshFlash (s : State) : State :=
  { s with tier := { s.tier with
    flashUsableGib := BitVec.ofNat 32 (s.flashUsable / 2 ^ 30), flashFreeGib := BitVec.ofNat 32 (s.flashFree / 2 ^ 30) } }

/-- A block whose program or erase has failed, or whose data had to be rebuilt, is retired at once; the capacity falls (R302, R305). -/
def State.retire (s : State) (b : Nat) : State := (s.setBlock b { s.block b with retired := true }).refreshFlash

/-- Erase a block: it counts, and the page reads start again; one whose erase fails is retired (R304, R305). -/
def State.eraseBlock (s : State) (b : Nat) : State :=
  let fails := Config.nandEraseFails b s.fresh
  let s := s.tick
  if fails then s.retire b else s.setBlock b { erases := (s.block b).erases + 1, reads := 0, used := false, retired := (s.block b).retired }

/-- Take a free block of a die for new data: the one with the lowest erase count, erased first where it has been used (R303, R305; log 20). -/
def State.takeBlock (die : Nat) : Nat → State → Option Nat × State
  | 0, s => (none, s)
  | f + 1, s =>
    match s.freeBlock die with
    | none => (none, s)
    | some b =>
      let s := if (s.block b).used then s.eraseBlock b else s
      if s.blockGood b then (some b, s.setBlock b { s.block b with used := true }) else State.takeBlock die f s

/-- The block number that stands for a page which is still in staging, since its channel has no free block. -/
def Nand.noBlock (g : Nand) : Nat := 16 * g.dies * g.dieBlocks

/-- The sixteen blocks of a new extent, each on a die of its channel that the layer chooses among those with a free block. -/
def State.newExtent (s : State) : List Nat × State :=
  let g := s.tier.nand
  (List.range 16).foldl (fun (x : List Nat × State) c =>
    let dies := ((List.range g.dies).map (c * g.dies + ·)).filter fun d => (x.2.freeBlock d).isSome
    match dies[Config.choiceNat x.2.fresh % dies.length]? with
    | none => (x.1 ++ [g.noBlock], x.2)
    | some d =>
      let (b, s) := State.takeBlock d g.dieBlocks x.2.tick
      (x.1 ++ [b.getD g.noBlock], s)) ([], s)

/-- Give a flash object the extents that its first `n` bytes need. -/
def State.growExtents (id n : Nat) : Nat → State → State
  | 0, s => s
  | f + 1, s =>
    match s.objById id with
    | none => s
    | some o =>
      if ceilDiv n s.tier.nand.extentBytes ≤ o.extents.length then s
      else
        let (e, s) := s.newExtent
        State.growExtents id n f (s.updObj id fun o => { o with extents := o.extents ++ [e] })

/-- Put a block in the place of another in every extent, in the layer's map and in both directory copies. -/
def State.replaceBlock (s : State) (b t : Nat) : State :=
  let f (o : Obj) : Obj := { o with extents := o.extents.map fun e => e.map fun x => if x = b then t else x }
  { s with tier := { s.tier with objs := s.tier.objs.map f, dirA := s.tier.dirA.map f, dirB := s.tier.dirB.map f } }

/-- Move a block's data to the free block of lowest erase count on its die; no object, offset or byte changes (R303, R306). The old block is then
erased, or retired. Where the die has no free block the data stay. -/
def State.relocate (s : State) (b : Nat) (retiring : Bool) : State :=
  match State.takeBlock (s.tier.nand.dieOf b) s.tier.nand.dieBlocks s with
  | (none, s) => s
  | (some t, s) =>
    let s := s.replaceBlock b t
    if retiring then s.retire b else s.eraseBlock b

/-! Reads of flash (R302, R304). -/

/-- Block and page of a byte of an object, with the codeword in the block, the stripe of the object and the channel. -/
structure FlashPlace where
  block    : Nat
  codeword : Nat
  stripe   : Nat
  channel  : Nat
  deriving DecidableEq, Repr

def Nand.place (g : Nand) (o : Obj) (off : Nat) : FlashPlace :=
  let page := off / g.pageBytes
  let stripe := page / 15
  let ch := dataChannel stripe (page % 15)
  { block := (o.extents.getD (stripe / g.pages) []).getD ch g.noBlock
    codeword := stripe % g.pages * g.codewords + off % g.pageBytes / 4096, stripe := stripe, channel := ch }

/-- Count page reads of a block since its last erase. -/
def State.countReads (s : State) (b n : Nat) : State := s.setBlock b { s.block b with reads := (s.block b).reads + n }

/-- Read one codeword of a flash object: up to seven re-reads, a soft-decision read, the other fifteen pages of the stripe, in this order; `first`
tells whether it is the first of its page in the access. It answers whether the codeword was read. Data rebuilt from the stripe are relocated, and
their block is retired (R302). -/
def State.readFlashCodeword (s : State) (id off : Nat) (first : Bool) : Bool × State :=
  match s.objById id with
  | none => (false, s)
  | some o =>
    let p := s.tier.nand.place o off
    let k := Config.nandDecode p.block p.codeword s.fresh
    let s := s.tick.countReads p.block (bit first + min k 7 + bit (8 ≤ k))
    if k < 9 then (true, s)
    else
      let others := ((o.extents.getD (p.stripe / s.tier.nand.pages) []).filter fun b => b != p.block && b != s.tier.nand.noBlock)
      let s := others.foldl (fun s b => s.countReads b 1) s
      if 10 ≤ k then (false, s) else (true, s.relocate p.block true)

/-- Read a range of a flash object: the first byte of the first codeword that cannot be read, if any, and the state after. -/
def State.readFlash (s : State) (id off n : Nat) : Option Nat × State :=
  (List.range ((off + n + 4095) / 4096 - off / 4096)).foldl (fun (x : Option Nat × State) i =>
    let at_ := 4096 * (off / 4096 + i)
    if x.1.isSome then x
    else match x.2.readFlashCodeword id at_ (i == 0 || at_ % x.2.tier.nand.pageBytes == 0) with
      | (true, s) => (none, s)
      | (false, s) => (some (max at_ off), s)) (none, s)

/-- Bytes of a flash object that stand in the staging area: those of the last stripe while it is not whole (R305). -/
def State.staged (s : State) (o : Obj) : Nat := if o.sealed then 0 else o.written % (15 * s.tier.nand.pageBytes)

/-! The directory and mounting (R301, R307). -/

/-- Write a sealed object's entry into both directory copies, one after the other. -/
def State.enterDirectory (s : State) (o : Obj) : State :=
  let s := { s with tier := { s.tier with dirA := s.tier.dirA ++ [o] } }
  { s with tier := { s.tier with dirB := s.tier.dirB ++ [o] } }

/-- The flash is mounted: its geometry and bad blocks are found, and the directory gives the objects (R301, R305, R307). -/
def State.mountFlash (s : State) : State :=
  let blocks := 16 * Config.nandDies * Config.nandDieBlocks
  let g : Nand := { codewords := Config.nandCodewords, pages := Config.nandPages, dieBlocks := Config.nandDieBlocks, dies := Config.nandDies
                    bad := (List.range blocks).filter Config.nandBad }
  State.refreshFlash { s with tier := { s.tier with nand := g, objs := s.tier.objs.filter (fun o => o.base != 0) ++ s.tier.dirA } }

/-! Tier maintenance (R298, R303-R306). -/

/-- DDR5_SCRUB: once in 24 hours every corrected word is written back; no value changes and no event is raised (R298). -/
def ddr5Scrub (s : State) : State :=
  if s.tier.ddrScrubAt + 8640000000000 ≤ s.now then { s with tier := { s.tier with ddrScrubAt := s.now } } else s

def execDdr5Scrub (s : State) : Host.Outcome State Fault Refusal := live s ddr5Scrub

/-- FLASH_READ_RELOCATE: a block that has served 100,000 page reads since its last erase has its data relocated (R304). -/
def flashReadRelocate (b : Nat) (s : State) : State :=
  if s.blockGood b && s.blockHolds b && decide (100000 ≤ (s.block b).reads) then s.relocate b false else s

def execFlashReadRelocate (block : Nat) (s : State) : Host.Outcome State Fault Refusal := live s (flashReadRelocate block)

/-- FLASH_WEAR_RELOCATE: a block that holds sealed data and stands 2,000 or more erases below the highest count on its die is relocated (R303). -/
def flashWearRelocate (b : Nat) (s : State) : State :=
  if s.blockGood b && s.holdsSealed b && decide ((s.block b).erases + 2000 ≤ s.highestErase (s.tier.nand.dieOf b)) then s.relocate b false else s

def execFlashWearRelocate (block : Nat) (s : State) : Host.Outcome State Fault Refusal := live s (flashWearRelocate block)

/-- FLASH_PROGRAM_FAIL: a program or erase of a block has failed: it is retired at once, and what it holds is programmed again elsewhere, from the
staged copy (R305). -/
def flashProgramFail (b : Nat) (s : State) : State :=
  if !s.blockGood b then s
  else
    let s := s.retire b
    if s.blockHolds b then s.relocate b true else s

def execFlashProgramFail (block : Nat) (s : State) : Host.Outcome State Fault Refusal := live s (flashProgramFail block)

end Sys2Proof.Machine
end

