-- ==== Sys2Proof/Machine/Ferries.lean ====
section
/-!
DEFINITION. Ferry records and the engines that run them (R309-R323, R335-R337): validity, accesses and what holds them, COPY, landings, object
records, check values.
-/
namespace Sys2Proof.Machine

/-! Records (R315-R318). -/

/-- A ferry record. -/
structure FerryRec where
  bytes : List Byte
  deriving DecidableEq, Repr

def FerryRec.f (r : FerryRec) (off len : Nat) : Nat := fieldAt r.bytes off len
def FerryRec.op (r : FerryRec) : Nat := r.f 0x35 1
def FerryRec.src (r : FerryRec) : Nat := r.f 0x00 8
def FerryRec.dst (r : FerryRec) : Nat := r.f 0x08 8
def FerryRec.obj (r : FerryRec) : Nat := if r.op ≤ 2 then r.f 0x10 8 else r.f 0x08 8
def FerryRec.objOff (r : FerryRec) : Nat := r.f 0x18 8
def FerryRec.count (r : FerryRec) : Nat := r.f 0x20 4
def FerryRec.tensor (r : FerryRec) : Nat := r.f 0x24 4
def FerryRec.lslotBytes (r : FerryRec) : Nat := r.f 0x28 4
def FerryRec.lslots (r : FerryRec) : Nat := r.f 0x2C 2
def FerryRec.lready (r : FerryRec) : Nat := r.f 0x2E 2
def FerryRec.sync (r : FerryRec) : Nat := r.f 0x30 2
def FerryRec.srcFmt (r : FerryRec) : Nat := r.f 0x32 2 % 16
def FerryRec.dstFmt (r : FerryRec) : Nat := r.f 0x32 2 / 16 % 16
def FerryRec.sr (r : FerryRec) : Bool := bitOf (r.f 0x32 2) 8
def FerryRec.chkOn (r : FerryRec) : Bool := bitOf (r.f 0x34 1) 7
def FerryRec.chkUnit (r : FerryRec) : Nat := r.f 0x34 1 % 16
/-- Is the flash object of a transfer record its destination? -/
def FerryRec.objIsDst (r : FerryRec) : Bool := bitOf (r.f 0x36 1) 0
def FerryRec.fromFlash (r : FerryRec) : Bool := r.obj != 0 && !r.objIsDst
def FerryRec.toFlash (r : FerryRec) : Bool := r.obj != 0 && r.objIsDst

def State.ferryRec (s : State) (a : Nat) : FerryRec := ⟨s.rdN a 64⟩

/-- Bytes of an element of formats 1 to 5. -/
def fmtSize (num : Nat) : Nat := elemBits num / 8

/-- Destination bytes of a record: those of a COPY after conversion, or the rows of a gather or scatter (R315, R318, R322). -/
def FerryRec.dstBytes (r : FerryRec) (rowBytes : Nat) : Nat :=
  if r.op ≠ 0 then r.count * rowBytes
  else if r.srcFmt = 0 then r.count
  else r.count * fmtSize r.dstFmt / fmtSize r.srcFmt

/-- A ferry or gather stream without a tensor descriptor, of a given role, valid under R227. The rows of a gather or scatter may have 4 KiB
(R248, before R225; log 34). -/
def StreamDesc.ferryOk (d : StreamDesc) (role : Nat) (wide : Bool) : Bool :=
  d.plainOk && d.role == role && d.tdesc == 0 && d.mxscale == 0
    && (if wide then decide (1 ≤ d.rowBytes) && decide (d.laneOff + d.rowBytes ≤ 4096) else d.shapeOk 0 false)

/-- Does a stream's row size divide a byte count and hold whole elements (R318)? -/
def StreamDesc.rowsFit (d : StreamDesc) (bytes fmt : Nat) : Bool :=
  bytes % d.rowBytes == 0 && (fmt == 0 || d.rowBytes % fmtSize fmt == 0)

def FerryRec.reservedClear (r : FerryRec) : Bool :=
  if r.op ≤ 2 then
    decide (r.f 0x32 2 < 512) && r.f 0x34 1 / 16 % 8 == 0 && decide (r.f 0x36 1 < 2) && zeroAt r.bytes 0x37 9
  else zeroAt r.bytes 0x19 23 && zeroAt r.bytes 0x32 3 && zeroAt r.bytes 0x36 10

/-- Does one of the first `n` rows of a stream, from one of the given bases, cross an end that no row may cross (R227)? -/
def State.rowsCross (s : State) (d : StreamDesc) (bases : List Nat) (n : Nat) : Bool :=
  bases.any fun b => (List.range n).any fun i => !(s.rowAt d b i).null && rowCrosses (s.rowAt d b i).addr d.rowBytes

/-- Bases of a record's destination: each slot of its landing, or the stream's BASE (R321). -/
def FerryRec.bases (r : FerryRec) (d : StreamDesc) : List Nat := (List.range (max 1 r.lslots)).map fun k => d.base + k * r.lslotBytes

/-- No row of a record's streams crosses an end (R227). The rows that a gather or scatter indexes are judged as it computes them. -/
def State.rowsInside (s : State) (r : FerryRec) : Bool :=
  let sd := s.streamDesc r.src
  let dd := s.streamDesc r.dst
  let rows (d : StreamDesc) (bytes : Nat) : Nat := if r.op ≠ 0 then r.count else bytes / d.rowBytes
  (r.fromFlash || (r.op != 0 && sd.index != 0) || !s.rowsCross sd [sd.base] (rows sd r.count))
    && (r.toFlash || (r.op != 0 && dd.index != 0) || !s.rowsCross dd (r.bases dd) (rows dd (r.dstBytes dd.rowBytes)))

/-- A transfer record's streams; the two sides of a gather or scatter have rows of one size (R248, R317, R318). -/
def State.transferOk (s : State) (r : FerryRec) : Bool :=
  let sd := s.streamDesc r.src
  let dd := s.streamDesc r.dst
  let srcRole := if r.op = 1 then 0xA else 0x8
  let dstRole := if r.op = 2 then 0xA else 0x9
  let srcOk := if r.fromFlash then r.src == 0
    else r.src != 0 && s.mappedRange r.src 128 && sd.ferryOk srcRole (r.op != 0) && (r.op != 0 || sd.rowsFit r.count r.srcFmt)
  let dstOk := if r.toFlash then r.dst == 0
    else r.dst != 0 && s.mappedRange r.dst 128 && dd.ferryOk dstRole (r.op != 0) && (r.op != 0 || dd.rowsFit (r.dstBytes dd.rowBytes) r.dstFmt)
  srcOk && dstOk && (r.op == 0 || sd.rowBytes == dd.rowBytes) && s.rowsInside r

/-- R311: a flash object is written in order. The test is made when the record first starts (R320). -/
def State.flashInOrder (s : State) (r : FerryRec) : Bool :=
  !r.toFlash || (match s.objById r.obj with
    | some o => o.written == r.objOff
    | none => true)

/-- A record that engine `e` may run (R317), but for the test of R311. -/
def State.recordOk (s : State) (e : Nat) (r : FerryRec) : Bool :=
  r.reservedClear && decide (r.op ≤ 5)
    && (if r.op ≤ 2 then
        (r.obj == 0 || (isTierFerry e && r.op == 0)) && (r.op == 0 || isGather e) && decide (1 ≤ r.count)
          && (r.op == 0 || decide (r.count ≤ 4096)) && decide (r.srcFmt ≤ 5) && decide (r.dstFmt ≤ 5)
          && ((r.srcFmt == 0) == (r.dstFmt == 0)) && (r.op != 0 || r.srcFmt == 0 || r.count % fmtSize r.srcFmt == 0)
          && s.transferOk r && (r.lslots == 0 || decide (r.dstBytes (s.streamDesc r.dst).rowBytes ≤ r.lslotBytes))
      else
        isTierFerry e && (r.op != 3 || (r.src != 0 && r.f 0x10 8 % 4096 == 0 && decide (4096 ≤ r.f 0x10 8)
          && (r.f 0x18 1 == 1 || r.f 0x18 1 == 2))))

/-! Work of an engine. -/

/-- Is an engine in the middle of a record, by R547: with work, held by no synchronisation wait, no pre-emption and no power limit? -/
def State.engineBusy (s : State) (e : Nat) : Bool :=
  match (s.engine e).head with
  | some w => s.mayWork e w && !w.waiting && !(isGather e && !s.stepDue w) && !(isArrayFerry e && s.heldByPower (e / 2))
  | none => false

/-! Accesses (R28, R236, R241, R279, R281). -/

/-- The rows of a stream that hold bytes, as addresses and sizes. -/
def State.streamRows (s : State) (d : StreamDesc) (base n k : Nat) : List (Nat × Nat) :=
  (List.range k).filterMap fun i => let row := s.rowAt d base (n + i); if row.null then none else some (row.addr, d.rowBytes)

/-- The arrays that run a tile while accesses reach their accumulator banks (R28). -/
def State.busyArrays (s : State) (l : List (Nat × Nat)) : List Nat :=
  (List.range 8).filter fun a => l.any fun q =>
    [q.1, q.1 + q.2 - 1].any fun b => s.bankBusy b && regionOff b / 0x400_0000 == a

/-- The scratchpad banks of a row, by array, where the array's clock runs (R235). -/
def State.rowBanks (s : State) (q : Nat × Nat) : List (Nat × List Nat) :=
  (List.range 8).filterMap fun a =>
    let b := scratchBanks a q.1 q.2
    if b != [] && s.clockRuns a then some (a, b) else none

/-- An engine's access is held, under a counter of R255. -/
def State.heldBy (s : State) (e cause : Nat) : State := s.setEngine e { s.engine e with held := cause }

/-- Does an engine's access go ahead in the present cycle, or what holds it? A bank of an array that runs a tile holds it until the next tile
boundary, which waits for it (R28); a lost scratchpad bank, for a cycle (R27, R236); a full window of an HBM controller refuses it (R279). The first
row of each side stands for the access (log 34). -/
def State.access (s : State) (e : Nat) (reads writes : List (Nat × Nat)) : Bool × State :=
  let busy := s.busyArrays (reads ++ writes)
  let banks := (reads.take 1 ++ writes.take 1).flatMap s.rowBanks
  if busy ≠ [] then
    (false, busy.foldl (fun (s : State) a =>
      let x := s.array a
      if x.bankWait.contains e then s else s.setArray a { x with bankWait := x.bankWait ++ [e] }) (s.heldBy e 4))
  else if banks.any fun b => !s.wins b.1 8 (s.sideWants b.1) b.2 then (false, s.heldBy e 4)
  else if (reads.take 1).any fun q => s.windowFull q.1 q.2 then (false, s.heldBy e 2)
  else if (writes.take 1).any fun q => s.windowFull q.1 q.2 then (false, s.heldBy e 3)
  else
    let s := banks.foldl (fun s b => s.grant b.1 8 b.2) s
    (true, (List.range 8).foldl (fun (s : State) a =>
      let x := s.array a
      if x.bankWait.contains e then s.setArray a { x with bankWait := x.bankWait.filter (· != e) } else s) (s.heldBy e 0))

/-- The die on which an engine runs, for its stream cache: an array ferry's and a gather engine's. -/
def engineDie (e : Nat) : Option Nat := if isArrayFerry e then some (e / 8) else if isGather e then some ((e - 0x18) / 2) else none

/-- Register an engine's stream with its die's cache (R241). -/
def State.engineStream (s : State) (e c desc base last : Nat) : State :=
  match engineDie e with
  | some die => if desc = 0 then s else s.registerStream die desc (engineSource e) c base 0 last
  | none => s

/-- An engine has taken the rows of a stream (R242). -/
def State.engineTook (s : State) (e desc rows : Nat) : State :=
  match engineDie e with
  | some die => if rows = 0 then s else s.streamTaken die desc (engineSource e) (rows - 1) false
  | none => s

/-! Reading and writing rows. -/

/-- Rows of a stream as one byte string, or the cause and address of the first that cannot be read. -/
def State.readRows (s : State) (c : Nat) (d : StreamDesc) (base : Nat) : Nat → Nat → Except (Nat × Nat) (List Byte)
  | 0, _ => .ok []
  | k + 1, n =>
    let row := s.rowAt d base n
    if row.null then
      match State.readRows s c d base k (n + 1) with
      | .ok l => .ok (List.replicate d.rowBytes 0 ++ l)
      | e => e
    else
      match s.readFault c row.addr d.rowBytes with
      | 0 =>
        (match State.readRows s c d base k (n + 1) with
         | .ok l => .ok (s.rdN row.addr d.rowBytes ++ l)
         | e => e)
      | cause => .error (cause, row.addr)

/-- Fetch rows for an engine, with what reads of DDR5 do beside (R281, R298); or the cause and address of the first that cannot be read. -/
def State.fetchRows (s : State) (e c : Nat) (d : StreamDesc) (base k n : Nat) : Except (Nat × Nat) (List Byte × State) :=
  match s.readRows c d base k n with
  | .error x => .error x
  | .ok bs =>
    let ddr := (s.streamRows d base n k).filter fun q => region q.1 == 1
    if ddr = [] then .ok (bs, s)
    else
      let t := ddr.foldl (fun s q => s.ddrRead (isArrayFerry e || isGather e) q.1 q.2) s
      match t.readRows c d base k n with
      | .error x => .error x
      | .ok bs => .ok (bs, t.tick)

/-- Write bytes as rows of a stream from row `n`, until the first row that cannot be written: its cause and address. -/
def State.writeRows (c : Nat) (d : StreamDesc) (base : Nat) : Nat → Nat → List Byte → State → State × Option (Nat × Nat)
  | 0, _, _, s => (s, none)
  | k + 1, n, bs, s =>
    let row := s.rowAt d base n
    if row.null then State.writeRows c d base k (n + 1) (bs.drop d.rowBytes) s
    else
      match s.writeFault c row.addr d.rowBytes with
      | 0 => State.writeRows c d base k (n + 1) (bs.drop d.rowBytes) (s.store row.addr (bs.take d.rowBytes))
      | cause => (s, some (cause, row.addr))

/-- OBJECT_SEALED_WRITE (R312), then the fault of the writer. -/
def State.sealedWrite (s : State) (c e addr : Nat) : State :=
  let (id, off) := match s.objAt addr 1 with | some o => (o.id.toNat, addr - o.base) | none => (0, 0)
  let s := s.raiseCtx c 0x0306 srcTier (leBytes 8 id ++ leBytes 6 off ++ leBytes 1 e)
  s.faultCtx c 5 (engineArray e) 0x0306 srcTier addr

/-- What follows a row that an engine could not read or write (R25, R265, R300, R310, R312, R380). -/
def State.rowFault (s : State) (c e cause addr n : Nat) : State :=
  if cause = 5 then s.sealedWrite c e addr
  else if cause = 3 ∧ region addr = 1 then (s.reportPoison addr n).faultCtx c 3 (engineArray e) 0x0304 srcTier addr
  else if cause = 3 then (s.reportPoison addr n).faultCtx c 3 (engineArray e) 0x0302 (engineSource e) addr
  else s.faultCtx c cause (engineArray e) 0 (engineSource e) addr

/-! Conversion (R318). -/

/-- Convert a byte string of elements; `draw` gives the rounding of element `i`. -/
def convertBytes (srcFmt dstFmt : Nat) (draw : Nat → Rounding) (bs : List Byte) : List Byte :=
  packElems dstFmt ((List.range (bs.length / fmtSize srcFmt)).map fun i =>
    (convertElem dstFmt false (draw i) 0 (decodeElem srcFmt false (elemAt srcFmt bs i))).code)

/-- The rounding of the elements of a record's destination. -/
def FerryRec.draws (r : FerryRec) (w : Work) (d : StreamDesc) (i : Nat) : Rounding :=
  if !r.sr then .rne
  else
    let per := d.rowBytes / fmtSize r.dstFmt
    let idx := if r.toFlash then r.objOff / fmtSize r.dstFmt + i else d.eidx + i / per * per + i % per
    .stoch (stochDraw w.seed (BitVec.ofNat 32 r.tensor) w.step idx)

/-! Check values (R335-R337). -/

/-- Reverse the low `n` bits. -/
def reflectBits (n v : Nat) : Nat := (List.range n).foldl (fun acc i => 2 * acc + bit (v.testBit i)) 0

/-- One bit step of a check value. -/
def chkBit (w poly x : Nat) : Nat :=
  if x.testBit (w - 1) then ((2 * x) % 2 ^ w) ^^^ poly else (2 * x) % 2 ^ w

def chkByte (c : Chk) (x : Nat) (b : Byte) : Nat :=
  let w := c.width.toNat
  let b := if c.refin then reflectBits 8 b.toNat else b.toNat
  (List.range 8).foldl (fun x _ => chkBit w (c.poly.toNat % 2 ^ w) x) (x ^^^ (b * 2 ^ (w - 8)))

/-- The check value of a chunk, after the 8 folded bytes (R336). -/
def chkValue (c : Chk) (folded : List Byte) (chunk : List Byte) : Nat :=
  let w := c.width.toNat
  let x := (folded ++ chunk).foldl (chkByte c) (c.init.toNat % 2 ^ w)
  let x := if c.refout then reflectBits w x else x
  if c.invert then x ^^^ (2 ^ w - 1) else x

/-- The address that R336 folds for byte `pos` of one side. -/
def State.sideAddr (s : State) (r : FerryRec) (d : StreamDesc) (base : Nat) (flash : Bool) (chunkPos pos : Nat) : Nat :=
  if flash then r.objOff + chunkPos else (s.rowAt d base (pos / d.rowBytes)).addr + pos % d.rowBytes

/-- Check the chunks of a record's source bytes from chunk `i` on; the state holds the results. A bad result base faults the context. -/
def State.checkChunks (r : FerryRec) (c e : Nat) (sd dd : StreamDesc) (sbase dbase : Nat) : Nat → Nat → List Byte → State → State
  | 0, _, _, s => s
  | k + 1, i, bs, s =>
    if bs = [] then s
    else
      let u := s.chkAt r.chkUnit
      let len := 2 ^ u.chunkLog2.toNat
      let pos := i * len
      let dpos := if r.srcFmt = 0 then pos else pos * fmtSize r.dstFmt / fmtSize r.srcFmt
      let folded := if u.fold then u.seq.toNat
        else if u.addrSide then s.sideAddr r dd dbase r.toFlash pos dpos else s.sideAddr r sd sbase r.fromFlash pos pos
      let v := chkValue u (leBytes 8 folded) (bs.take len)
      let at_ := u.resbase.toNat + 8 * u.index.toNat
      if u.resbase.toNat % 8 ≠ 0 ∨ !isHbm u.resbase.toNat ∨ s.writeFault c at_ 8 ≠ 0 then
        s.faultCtx c 2 (engineArray e) 0 (engineSource e) at_
      else
        let u := { u with seq := if u.fold then u.seq + 1 else u.seq, index := BitVec.ofNat 32 ((u.index.toNat + 1) % 2 ^ u.entriesLog2.toNat) }
        State.checkChunks r c e sd dd sbase dbase k (i + 1) (bs.drop len)
          (({ s with chk := Tab.set (fun _ => Chk.reset) s.chk r.chkUnit u }).storeLe at_ 8 v)

/-! COPY (R318). -/

/-- The source bytes of a COPY, with the state after the reads; or the state after the fault of what cannot be read. A flash object is read only
sealed and within its size, and what its reads do not recover is reported (R300, R302). -/
def State.copySource (s : State) (e c : Nat) (r : FerryRec) (sd : StreamDesc) : Except State (List Byte × State) :=
  if r.fromFlash then
    match s.objById r.obj with
    | some o =>
      if o.base ≠ 0 ∨ !o.sealed ∨ o.size < r.objOff + r.count then .error (s.rowFault c e 2 r.objOff 1)
      else match s.readFlash r.obj r.objOff r.count with
        | (none, s) => .ok (s.mem.readN (flashKey r.obj r.objOff) r.count, s)
        | (some off, s) => .error ((s.raiseTierBad (some r.obj) off).faultCtx c 3 (engineArray e) 0x0304 srcTier off)
    | none => .error (s.rowFault c e 2 r.objOff 1)
  else match s.fetchRows e c sd sd.base (r.count / sd.rowBytes) 0 with
    | .ok x => .ok x
    | .error (cause, a) => .error (s.rowFault c e cause a sd.rowBytes)

/-- The destination of a COPY: rows of a stream, or the next bytes of a flash object of this context, of which the layer has programmed what whole
stripes hold; a record resumed goes on behind the bytes already accepted (R305, R310-R312, R320). -/
def State.copyDest (s : State) (w : Work) (r : FerryRec) (dd : StreamDesc) (base : Nat) (bs : List Byte) : State × Option (Nat × Nat) :=
  if r.toFlash then
    match s.objById r.obj with
    | some o =>
      if o.sealed then (s, some (5, r.objOff + w.doneBytes))
      else if o.ctx ≠ w.ctx ∨ o.base ≠ 0 ∨ o.size < r.objOff + bs.length then (s, some (2, r.objOff))
      else
        let n := r.objOff + bs.length
        let s := { s with mem := s.mem.writeN (flashKey r.obj (r.objOff + w.doneBytes)) (bs.drop w.doneBytes) }
        (State.growExtents r.obj n n (s.updObj r.obj fun o => { o with written := n }), none)
    | none => (s, some (2, r.objOff))
  else State.writeRows w.ctx dd base (bs.length / dd.rowBytes) 0 bs s

/-- What follows a refused destination of a record. -/
def State.destFault (s : State) (e : Nat) (w : Work) (r : FerryRec) (dd : StreamDesc) (cause a : Nat) : State :=
  if cause = 5 ∧ r.toFlash then
    (s.raiseCtx w.ctx 0x0306 srcTier (leBytes 8 r.obj ++ leBytes 6 a ++ leBytes 1 e)).faultCtx w.ctx 5 (engineArray e) 0x0306 srcTier a
  else s.rowFault w.ctx e cause a dd.rowBytes

/-- The check values of a record's source bytes, if it asks for them; the unit serves the record from then on (R335-R337). -/
def State.checkRecord (s : State) (e : Nat) (w : Work) (r : FerryRec) (sd dd : StreamDesc) (dbase : Nat) (bs : List Byte) : State :=
  if !r.chkOn || w.doneBytes != 0 then s
  else State.checkChunks r w.ctx e sd dd sd.base dbase (bs.length / 512 + 1) 0 bs
    { s with chk := Tab.modify (fun _ => Chk.reset) s.chk r.chkUnit fun u => { u with owner := some e } }

/-- Rows of a record's two sides. -/
def FerryRec.srcRows (r : FerryRec) (sd : StreamDesc) : Nat := if r.fromFlash then 0 else if r.op ≠ 0 then r.count else r.count / sd.rowBytes
def FerryRec.dstRows (r : FerryRec) (dd : StreamDesc) : Nat := if r.toFlash then 0 else r.dstBytes dd.rowBytes / dd.rowBytes

/-- Perform a COPY record into `base`: source, checks, conversion, destination. It answers whether every write has been accepted. -/
def State.copyRecord (s : State) (e : Nat) (w : Work) (r : FerryRec) (base : Nat) : Bool × State :=
  let sd := s.streamDesc r.src
  let dd := s.streamDesc r.dst
  match s.copySource e w.ctx r sd with
  | .error s => (false, s)
  | .ok (bs, s) =>
    let s := s.checkRecord e w r sd dd base bs
    if (s.ctx w.ctx).state = 5 then (false, s)
    else
      let out := if r.srcFmt = 0 then bs else convertBytes r.srcFmt r.dstFmt (r.draws w dd) bs
      match s.copyDest w r dd base out with
      | (s, none) => (true, s)
      | (s, some (cause, a)) => (false, s.destFault e w r dd cause a)

/-- A check unit that another engine's record holds makes a record wait (R335). -/
def State.chkWaits (s : State) (e : Nat) (r : FerryRec) : Bool :=
  r.chkOn && (match (s.chkAt r.chkUnit).owner with | some o => o != e | none => false)

/-- Begin a transfer record into `base`, once its accesses go ahead: its streams are registered, and it is performed (R28, R236, R241, R279). -/
def State.runRecord (s : State) (e : Nat) (w : Work) (r : FerryRec) (base : Nat) (perform : State → Bool × State) : Bool × State :=
  let sd := s.streamDesc r.src
  let dd := s.streamDesc r.dst
  match s.access e (s.streamRows sd sd.base 0 (r.srcRows sd)) (s.streamRows dd base 0 (r.dstRows dd)) with
  | (false, s) => (false, s)
  | (true, s) =>
    let s := (s.engineStream e w.ctx r.src sd.base (r.srcRows sd)).engineStream e w.ctx r.dst base (r.dstRows dd)
    match perform s with
    | (false, s) => (false, s)
    | (true, s) => (true, (s.engineTook e r.src (r.srcRows sd)).engineTook e r.dst (r.dstRows dd))

/-- What a record that begins must meet beside: a flash object is written in order (R311, R317, R320). -/
def State.startOk (s : State) (e : Nat) (w : Work) (r : FerryRec) : Bool := s.recordOk e r && (w.doneBytes != 0 || s.flashInOrder r)

/-- The transfer record of OP `op` at which an engine's work stands, if it may begin: an invalid one faults (R317). -/
def State.transferRec (s : State) (e op : Nat) (landing : Bool) (f : Work → FerryRec → State → State) : State :=
  match s.activeWork e with
  | none => s
  | some w =>
    let r := s.ferryRec (w.addr + 64 * w.pos)
    if r.op ≠ op ∨ isGather e && w.run.isSome then s
    else if !s.startOk e w r then s.faultWork e w 1 0 (engineSource e) w.pos
    else if (r.lslots != 0) != landing || s.chkWaits e r then s
    else f w r s

/-- COPY: the record that the engine's work stands at, where it names no landing (R318). -/
def copy (e : Nat) (s : State) : State :=
  s.transferRec e 0 false fun w r s =>
    let base := (s.streamDesc r.dst).base
    match s.runRecord e w r base fun s => s.copyRecord e w r base with
    | (true, s) => s.wrote e { w with doneBytes := if r.toFlash then r.dstBytes 0 else 0 }
    | (false, s) => s

def execCopy (engine : Fin 24) (s : State) : Host.Outcome State Fault Refusal := live s (copy engine.val)

/-! Landings (R321-R323). -/

/-- Take the free count of a landing: queue the wait, or take what has completed. It answers whether the count is held. -/
def State.takeFree (s : State) (e : Nat) (w : Work) (r : FerryRec) : Option (Work × State) :=
  if w.freeTaken then some (w, s)
  else
    match s.objOf w.ctx (r.lready + r.lslots) with
    | none => none
    | some o =>
      let s := if w.waiting then s else s.enqueue [(o, { who := .landing e, n := 1, takes := true })]
      if s.waited (.landing e) then some ({ w with waiting := false, freeTaken := true }, s.consume (.landing e))
      else some ({ w with waiting := true }, s)

/-- A record that fills a landing: the free count, the writes into the cursor's slot, the ready object, the cursor (R322). -/
def State.fillSlot (s : State) (e : Nat) (w : Work) (r : FerryRec) (perform : Work → Nat → State → Bool × State) : State :=
  match s.takeFree e w r with
  | none => s.faultWork e w 8 0 (engineSource e) (r.lready + r.lslots)
  | some (w, s) =>
    let s := s.setHead e w
    if !w.freeTaken then s
    else
      let base := (s.streamDesc r.dst).base + w.cursor % r.lslots * r.lslotBytes
      match s.runRecord e w r base (perform w base) with
      | (false, s) => s
      | (true, s) =>
        let s := s.wrote e { w with freeTaken := false, cursor := (w.cursor + 1) % r.lslots }
        s.signalTask w.ctx (r.lready + w.cursor % r.lslots) (engineArray e) (engineSource e)

/-- LANDING_FILL: a COPY record whose destination is a landing (R322). -/
def landingFill (e : Nat) (s : State) : State :=
  s.transferRec e 0 true fun w r s => s.fillSlot e w r fun w base s => s.copyRecord e w r base

def execLandingFill (engine : Fin 24) (s : State) : Host.Outcome State Fault Refusal := live s (landingFill engine.val)

/-! Object records (R308-R316). -/

/-- An object record of the engine's head work with the given OP: invalid records fault, and `f` has its effect. -/
def State.objRecord (s : State) (e op : Nat) (f : Work → FerryRec → State → State) : State :=
  match s.activeWork e with
  | none => s
  | some w =>
    let r := s.ferryRec (w.addr + 64 * w.pos)
    if r.op ≠ op ∨ isGather e then s
    else if !s.recordOk e r then s.faultWork e w 1 0 (engineSource e) w.pos
    else f w r s

/-- CREATE (R309, R316): identifier and base go to RET; 0 and 0 where the space is lacking. -/
def create (e : Nat) (s : State) : State :=
  s.objRecord e 3 fun w r s =>
    let size := r.f 0x10 8
    let tier := r.f 0x18 1
    let place := if tier = 1 then s.ddrFind size else if size ≤ s.flashFree then some 0 else none
    match s.writeFault w.ctx r.src 16 with
    | 0 =>
      (match place with
       | none => (s.store r.src (leBytes 16 0)).wrote e w
       | some base =>
         let id := s.nextId tier
         let s := s.addObj { id := BitVec.ofNat 64 id, base := base, size := size, written := 0, sealed := false, ctx := w.ctx, stash := false, extents := [] }
         (s.refreshFlash.store r.src (leBytes 8 id ++ leBytes 8 base)).wrote e w)
    | cause => s.rowFault w.ctx e cause r.src 16

def execCreate (engine : Fin 24) (s : State) : Host.Outcome State Fault Refusal := live s (create engine.val)

/-- SEAL (R307, R309, R312, R313): an open object of this context becomes sealed. A flash object shrinks to what was written; once its pages are
programmed its entry goes into both directory copies. -/
def sealObject (e : Nat) (s : State) : State :=
  s.objRecord e 4 fun w r s =>
    match s.objById r.obj with
    | some o =>
      if o.sealed then s.wrote e w
      else if o.ctx ≠ w.ctx then s.faultWork e w 2 0 srcTier r.obj
      else if o.base ≠ 0 then (s.updObj r.obj fun o => { o with sealed := true }).wrote e w
      else
        let t : Obj := { o with sealed := true, size := min o.size o.written }
        ((s.updObj r.obj fun _ => t).enterDirectory t).refreshFlash.wrote e w
    | none => s.faultWork e w 2 0 srcTier r.obj

def execSeal (engine : Fin 24) (s : State) : Host.Outcome State Fault Refusal := live s (sealObject engine.val)

/-- RELEASE (R309, R314): any context may release a sealed object, and its creator an open one. -/
def release (e : Nat) (s : State) : State :=
  s.objRecord e 5 fun w r s =>
    match s.objById r.obj with
    | some o =>
      if !o.sealed && o.ctx != w.ctx then s.faultWork e w 2 0 srcTier r.obj
      else (s.removeObj r.obj).refreshFlash.wrote e w
    | none => s.faultWork e w 2 0 srcTier r.obj

def execRelease (engine : Fin 24) (s : State) : Host.Outcome State Fault Refusal := live s (release engine.val)

/-! Completion (R319). -/

/-- Bytes of the gather step at an address: a 16-byte header and its body. -/
def State.stepBytes (s : State) (a : Nat) : Nat := if 1 ≤ s.rdLe a 1 ∧ s.rdLe a 1 ≤ 0x11 then 48 else 32

/-- The SYNC object of the record or step that a work stands at. -/
def State.workSync (s : State) (e : Nat) (w : Work) : Nat :=
  if isGather e ∧ w.run.isSome then s.rdLe (w.addr + 2) 2 else (s.ferryRec (w.addr + 64 * w.pos)).sync

/-- The work after its present record or step; the next step of a gather list stands at the first tile of its number from there on. -/
def State.advanceWork (s : State) (e : Nat) (w : Work) : Work :=
  let w := { w with pos := w.pos + 1, written := false, freeTaken := false, waiting := false, abandoned := false, doneBytes := 0 }
  if isGather e ∧ w.run.isSome then
    let addr := w.addr + s.stepBytes w.addr
    { w with addr := addr, tile := tileFrom w.tile (s.rdLe (addr + 8) 2) }
  else w

/-- Descriptors that the record or step at which a work stands names. -/
def State.workStreams (s : State) (e : Nat) (w : Work) : List Nat :=
  if isGather e ∧ w.run.isSome then
    let op := s.rdLe w.addr 1
    if op = 0x20 ∨ op = 0x21 then [s.rdLe (w.addr + 16) 8, s.rdLe (w.addr + 24) 8] else if op = 0x23 then [s.rdLe (w.addr + 16) 8] else []
  else
    let r := s.ferryRec (w.addr + 64 * w.pos)
    if r.op ≤ 2 then [r.src, r.dst] else []

/-- Descriptors that a list's records or steps from a work on name. -/
def State.streamsFrom (s : State) (e : Nat) : Nat → Work → List Nat
  | 0, _ => []
  | f + 1, w => if w.count ≤ w.pos then [] else s.workStreams e w ++ State.streamsFrom s e f (s.advanceWork e w)

/-- RECORD_COMPLETE: every write of the head record has been accepted: its check unit is free, streams that no later record names are released
(R241), SYNC is signalled, then the next record; with its last record a FERRY command has performed (R319). -/
def recordComplete (e : Nat) (s : State) : State :=
  match (s.engine e).head with
  | none => s
  | some w =>
    if !w.written then s
    else
      let sync := s.workSync e w
      let later := s.streamsFrom e (w.count - w.pos) (s.advanceWork e w)
      let over_ := (s.workStreams e w).filter fun d => !later.contains d
      let s := (s.freeUnits [e]).releaseStreams fun x => x.engine == engineSource e && over_.contains x.desc
      let g := s.engine e
      let s := if w.pos + 1 < w.count then s.setEngine e { g with work := s.advanceWork e w :: g.work.tail, noProg := 0 }
        else
          let s := s.setEngine e { g with work := g.work.tail, noProg := 0 }
          match w.cmd with
          | some k => s.updCmd k fun c => { c with phase := .performed }
          | none => s
      s.signalTask w.ctx sync (engineArray e) (engineSource e)

def execRecordComplete (engine : Fin 28) (s : State) : Host.Outcome State Fault Refusal := live s (recordComplete engine.val)

/-! Cycles of the ferries and gather engines (R176, R252, R254, R279, R322, R335). -/

/-- Does a dispatch stand at which a gather engine waits for counts or rows (R176)? -/
def State.awaitsPackets (s : State) (e : Nat) (w : Work) : Bool :=
  isGather e && w.run.isSome && s.rdLe w.addr 1 == 0x22
    && (s.engine e).dispatches.any fun d => d.array == w.array && d.rec_ == s.rdLe (w.addr + 16) 8 && !d.complete

/-- The counter of R255 for the cycles of a reference period of a ferry or gather engine: progress in it, no work, or the first cause that holds its
work; a step whose tile has not come is no work yet (log 34). -/
def State.engineCause (s : State) (e : Nat) : Nat :=
  let g := s.engine e
  if g.moved then 0
  else match g.head with
    | none => 1
    | some w =>
      if isGather e && !s.stepDue w then 1
      else if g.forSave || !s.mayWork e w then 8
      else if isArrayFerry e && s.heldByPower (e / 2) then 7
      else if w.waiting || s.awaitsPackets e w then 6
      else if g.held ≠ 0 then g.held
      else if s.waitsForSlot (engineSource e) then 4
      else 2

end Sys2Proof.Machine
end

