-- ==== Sys2Proof/Machine/Validate.lean ====
section
/-!
DEFINITION. What a command processor checks in a fetched descriptor (R347-R352, R370-R378, R395): the first failing check in the order written
here gives reason and detail (the order among several failures is log 17). A check is `none` when it holds.
-/
namespace Sys2Proof.Machine

/-- A failed check: reason and detail. -/
abbrev Check := Option (Nat × Nat)

def need (b : Bool) (reason detail : Nat) : Check := if b then none else some (reason, detail)

def firstFail (l : List Check) : Check := l.findSome? id

/-- A structure of `n` bytes that the command processor reads: mapped, outside region 0x03, not poisoned (reason 4). -/
def State.readable (s : State) (a n detail : Nat) : Check :=
  need (s.mappedRange a n && region a != 3 && !s.poisonIn a n) 4 detail

/-! Format 1 (R372). -/

/-- Widen a 32-byte format-1 descriptor to format 2. -/
def State.widen (s : State) (b : List Byte) : List Byte :=
  let cls := fieldAt b 0 1
  let f := (b.drop 8).take 24
  let c := fieldAt b 2 1
  let common := leBytes 1 cls ++ leBytes 1 (fieldAt b 1 1) ++ leBytes 2 (s.ctxid (c % 64)).toNat ++ (b.drop 4).take 4 ++ leBytes 4 0
    ++ leBytes 1 (fieldAt b 3 1) ++ leBytes 1 2 ++ leBytes 2 0
  let fields :=
    if cls = 1 then f.take 16 ++ List.replicate 32 0
    else if cls = 2 then
      f.take 2 ++ List.replicate 6 0 ++ (f.drop 18).take 4 ++ List.replicate 4 0 ++ (f.drop 2).take 8 ++ List.replicate 8 0
        ++ (f.drop 10).take 8 ++ List.replicate 8 0
    else if cls = 5 then
      f.take 2 ++ (if fieldAt f 0 1 = 1 then leBytes 2 0 ++ leBytes 2 4096 else leBytes 4 0) ++ leBytes 2 0 ++ (f.drop 8).take 8
        ++ List.replicate 32 0
    else f ++ List.replicate 24 0
  padTo 64 (common ++ fields)

/-- Reserved bits of a format-1 descriptor. -/
def widenReserved (b : List Byte) : Bool :=
  let cls := fieldAt b 0 1
  decide (fieldAt b 2 1 < 64)
    && (if cls = 0 then fieldAt b 27 1 == 0
        else if cls = 1 then zeroAt b 24 8
        else if cls = 2 then zeroAt b 30 2
        else if cls = 5 then zeroAt b 10 6 && zeroAt b 24 8
        else true)

/-! Common fields. -/

def classExists (compat : Bool) (cls : Nat) : Bool := if compat then cls == 0 || cls == 1 || cls == 2 || cls == 5 else decide (cls ≤ 5)

/-- Checks of bytes 0x00-0x0F (R347, R352, R372). -/
def checkCommon (compat : Bool) (d : List Byte) : Check :=
  let cls := fieldAt d 0 1
  firstFail [
    need (fieldAt d 0x0D 1 == 2) 1 0x0D,
    need (decide (cls ≤ 5)) 2 0,
    need (classExists compat cls) 12 0,
    need (decide (fieldAt d 1 1 < 8)) 1 1,
    need (zeroAt d 0x0E 2) 1 0x0E,
    need (decide (fieldAt d 0x0C 1 < 16)) 13 0x0C]

/-- The context exists with the descriptor's generation and belongs to the ring's session (R350). -/
def State.checkCtx (s : State) (session : Option Nat) (d : List Byte) : Check :=
  match s.ctxLive (BitVec.ofNat 16 (fieldAt d 2 2)) with
  | some c => need (match session with | some n => (s.ctx c).session == n | none => true) 3 2
  | none => some (3, 2)

/-- WAITOBJ and SIGOBJ lie in the context's range (R367). -/
def State.checkObjs (s : State) (d : List Byte) : Check :=
  let n := (s.ctx (fieldAt d 2 2 % 64)).syncCount
  firstFail [
    need (fieldAt d 4 2 == 0xFFFF || decide (fieldAt d 4 2 < n)) 5 4,
    need (fieldAt d 6 2 == 0xFFFF || decide (fieldAt d 6 2 < n)) 5 6]

/-- A class field of a descriptor. -/
def cf (d : List Byte) (off len : Nat) : Nat := fieldAt d (0x10 + off) len

/-! RUN (R348, R349, R370). -/

/-- The highest UNIT of a section of a kind; a kind without units has 0 (R370). -/
def unitLimit (kind : Nat) : Nat := if kind = 2 then 3 else if kind = 3 ∨ kind = 5 ∨ kind = 6 then 1 else 0

/-- Checks of a task image header against the capability record (R292, R370). -/
def State.checkImage (s : State) (d : List Byte) : Check :=
  let h := s.rdN (cf d 0 8) 64
  let sects := fieldAt h 0x14 2
  let dir := cf d 0 8 + fieldAt h 0x18 8
  firstFail [
    need (zeroAt h 0x0B 1 && zeroAt h 0x16 2 && zeroAt h 0x28 24 && fieldAt h 7 1 == 0) 1 0x10,
    need (fieldAt h 0 2 == 2) 13 0x10,
    need (fieldAt h 2 2 == s.boot.numrev.toNat) 6 0x10,
    need (decide (fieldAt h 4 2 ≤ 2)) 7 0x10,
    need (decide (fieldAt h 8 2 < 2 ^ 14)) 7 0x10,
    need (decide (1 ≤ fieldAt h 0x0A 1) && decide (fieldAt h 0x0A 1 ≤ 8)) 7 0x10,
    need (fieldAt h 0x0A 1 == popcount 8 (cf d 0x12 1)) 7 0x22,
    need (decide (fieldAt h 0x0C 2 ≤ (s.ctx (fieldAt d 2 2 % 64)).syncCount)) 7 0x10,
    need (fieldAt h 0x0E 2 == cf d 0x10 2) 7 0x20,
    need (decide (fieldAt h 0x10 4 ≤ 49152)) 7 0x10,
    need (decide (1 ≤ sects) && decide (sects ≤ 1024)) 13 0x10,
    need (!(bitOf (fieldAt h 6 2) 6 && s.deterministic)) 8 0x10,
    s.readable dir (16 * sects) 0x10,
    need (isHbm dir) 4 0x10,
    need ((List.range sects).all fun i => s.rdLe (dir + 16 * i + 3) 1 == 0 && (unitLimit (s.rdLe (dir + 16 * i) 1) != 0
      || s.rdLe (dir + 16 * i + 2) 1 == 0)) 1 0x10,
    need ((List.range sects).all fun i =>
      let e := dir + 16 * i
      decide (1 ≤ s.rdLe e 1) && decide (s.rdLe e 1 ≤ 8) && decide (s.rdLe (e + 1) 1 < fieldAt h 0x0A 1)
        && decide (s.rdLe (e + 2) 1 ≤ unitLimit (s.rdLe e 1))) 13 0x10]

/-- Can a stash descriptor be installed for context `c`, or is it already (R326)? -/
def State.stashOk (s : State) (c a : Nat) : Bool :=
  let b := s.rdN a 32
  let units := if fieldAt b 0x12 2 = 0 then 0 else (fieldAt b 0x12 2 + 1) * fieldAt b 8 8
  (s.tier.stashes.any fun t => t.ctx == c && t.id == fieldAt b 0x18 1)
    || (zeroAt b 0x19 7 && isHbm (fieldAt b 0 8) && fieldAt b 0 8 % 4096 == 0 && fieldAt b 8 8 % 4096 == 0 && decide (4096 ≤ fieldAt b 8 8)
        && decide (1 ≤ fieldAt b 0x10 2) && decide (fieldAt b 0x10 2 ≤ 256) && decide (fieldAt b 0x12 2 ≤ 4096)
        && decide (1 ≤ fieldAt b 0x14 4) && decide (fieldAt b 0x14 4 ≤ 600000)
        && s.mappedRange (fieldAt b 0 8) (fieldAt b 0x10 2 * fieldAt b 8 8)
        && decide (s.tier.stashes.length < 256) && (units == 0 || (s.ddrFind units).isSome))

/-- Install the stash of a descriptor that is not installed yet (R326). -/
def State.installStash (s : State) (c a : Nat) : State :=
  let b := s.rdN a 32
  let id := fieldAt b 0x18 1
  if s.tier.stashes.any fun t => t.ctx == c && t.id == id then s
  else
    let quota := fieldAt b 0x12 2
    let reserve := if quota = 0 then 0 else (s.ddrFind ((quota + 1) * fieldAt b 8 8)).getD 0
    let t : Stash := { ctx := c, id := id, base := fieldAt b 0 8, slotBytes := fieldAt b 8 8, h := fieldAt b 0x10 2, quota := quota
                       timeoutMs := fieldAt b 0x14 4, reserve := reserve, heldUnits := 0, mbs := [], waiting := [], since := none }
    { s with tier := { s.tier with stashes := s.tier.stashes ++ [t] } }

/-- The first stash binding of a table that cannot be installed after those before it (R326): `n` entries from entry `i`, the first at `a`. -/
def State.stashBindings (c : Nat) : Nat → Nat → Nat → State → Option Nat
  | 0, _, _, _ => none
  | n + 1, i, a, s =>
    let addr := s.rdLe (a + 8) 8
    if s.rdLe a 1 ≠ 3 then State.stashBindings c n (i + 1) (a + 32) s
    else if !s.stashOk c addr then some i
    else State.stashBindings c n (i + 1) (a + 32) (s.installStash c addr)

/-- Checks of entry `i` of a binding table (R24, R210, R290, R295, R349). -/
def State.checkBinding (s : State) (i a step : Nat) : Check :=
  let b := s.rdN a 32
  let kind := fieldAt b 0 1
  let addr := fieldAt b 8 8
  let tdesc := fieldAt b 0x10 8
  let claim := fieldAt b 0x18 8
  let grad := kind == 2
  firstFail [
    need (zeroAt b 1 3) 1 i,
    need (decide (1 ≤ kind) && decide (kind ≤ 4)) 13 i,
    need (grad || fieldAt b 4 4 == 0) 1 i,
    need (grad || claim == 0) 1 i,
    need (decide (kind ≤ 2) || tdesc == 0) 1 i,
    need (s.mapped addr && region addr != 3) 4 i,
    (if kind ≤ 2 then s.readable tdesc 32 i else none),
    need (!grad || (isHbm claim && s.mapped claim && claim % 8 == 0)) 4 i,
    need (!grad || step != 0xFFFFFFFF) 13 0x24,
    (if kind = 3 then s.readable addr 32 i else none)]

def State.checkRun (s : State) (d : List Byte) : Check :=
  let c := fieldAt d 2 2 % 64
  let nb := cf d 0x10 2
  firstFail [
    need (zeroAt d 0x2C 4 && zeroAt d 0x38 8) 1 0x2C,
    need (cf d 0 8 % 64 == 0) 13 0x10,
    need (isHbm (cf d 0 8)) 4 0x10,
    s.readable (cf d 0 8) 64 0x10,
    need (cf d 8 8 % 32 == 0) 13 0x18,
    need (decide (nb ≤ 4096)) 13 0x20,
    need (decide (cf d 0x13 1 ≤ 7)) 13 0x23,
    s.checkImage d,
    s.readable (cf d 8 8) (32 * nb) 0x18,
    (List.range nb).findSome? fun i => s.checkBinding i (cf d 8 8 + 32 * i) (cf d 0x14 4),
    (State.stashBindings c nb 0 (cf d 8 8) s).map fun i => (10, i)]

/-! FERRY (R24, R317). -/

/-- A record's stream bases are mapped and outside region 0x03. -/
def State.basesMapped (s : State) (r : FerryRec) : Bool :=
  decide (2 < r.op)
    || ((r.src == 0 || (s.mapped (s.streamDesc r.src).base && region (s.streamDesc r.src).base != 3))
        && (r.dst == 0 || (s.mapped (s.streamDesc r.dst).base && region (s.streamDesc r.dst).base != 3)))

/-- The address that a CREATE returns its identifier to is mapped. -/
def State.retMapped (s : State) (r : FerryRec) : Bool := r.op != 3 || s.mappedRange r.src 16

/-- The objects of a record lie in the context's range: SYNC, and LREADY to LREADY + LSLOTS of a landing (R321, R367). -/
def FerryRec.objsOk (r : FerryRec) (count : Nat) : Bool :=
  (r.sync == 0xFFFF || decide (r.sync < count)) && (decide (2 < r.op) || r.lslots == 0 || decide (r.lready + r.lslots < count))

/-- R311 for the record at place `i` of a list: at fetch it is tested for the first record that writes a flash object, and for the others when they
start (R317, R320; log 20). -/
def State.flashFirst (s : State) (a i : Nat) : Bool :=
  let r := s.ferryRec (a + 64 * i)
  ((List.range i).any fun j => (s.ferryRec (a + 64 * j)).toFlash && (s.ferryRec (a + 64 * j)).obj == r.obj) || s.flashInOrder r

def State.checkFerry (s : State) (d : List Byte) : Check :=
  let n := cf d 8 2
  let a := cf d 0 8
  let count := (s.ctx (fieldAt d 2 2 % 64)).syncCount
  firstFail [
    need (zeroAt d 0x1B 5 && zeroAt d 0x2C 20) 1 0x1B,
    need (decide (1 ≤ n) && decide (n ≤ 4096)) 13 0x18,
    need (decide (cf d 0x0A 1 ≤ 0x1B)) 13 0x1A,
    need (a % 64 == 0) 13 0x10,
    s.readable a (64 * n) 0x10,
    (List.range n).findSome? fun i =>
      firstFail [need (s.recordOk (cf d 0x0A 1) (s.ferryRec (a + 64 * i)) && s.flashFirst a i) 9 i,
        need ((s.ferryRec (a + 64 * i)).objsOk count) 5 i,
        need (s.basesMapped (s.ferryRec (a + 64 * i)) && s.retMapped (s.ferryRec (a + 64 * i))) 4 i]]

/-! SYNC, HINT, TABLE. -/

def State.checkSync (s : State) (d : List Byte) : Check :=
  let op := cf d 0 1
  let n := cf d 1 1
  let cnt := (s.ctx (fieldAt d 2 2 % 64)).syncCount
  firstFail [
    need (decide (1 ≤ op) && decide (op ≤ (if s.compat then 5 else 6))) 13 0x10,
    need (decide (1 ≤ n) && decide (n ≤ (if s.compat then 4 else 8)) && (op != 5 || n == 1)) 13 0x11,
    need (zeroAt d 0x16 2 && zeroAt d 0x1C 4) 1 0x16,
    (if op = 6 then none else (List.range n).findSome? fun j => need (decide (cf d (0x10 + 2 * j) 2 < cnt)) 5 (0x20 + 2 * j)),
    (if op = 5 then need (zeroAt d 0x34 12) 1 0x34
     else (List.range n).findSome? fun j => need (cf d (0x20 + 2 * j) 2 != 0) 13 (0x30 + 2 * j))]

def checkHint (d : List Byte) : Check :=
  firstFail [
    need (decide (10 ≤ cf d 0 2) && decide (cf d 0 2 ≤ 200)) 13 0x10,
    need (decide (1 ≤ cf d 2 4) && decide (cf d 2 4 ≤ 1000000)) 13 0x12,
    need (cf d 6 1 != 0) 13 0x16,
    need (decide (cf d 7 1 ≤ 2)) 13 0x17,
    need (zeroAt d 0x1A 38) 1 0x1A]

/-- Decode an entry of a cyclic table (R395). -/
def tableEntryOf (b : List Byte) : TableEntry :=
  { offset := fieldAt b 0 4, budget := fieldAt b 4 4, ctx := BitVec.ofNat 16 (fieldAt b 8 2), arrays := BitVec.ofNat 8 (fieldAt b 0x0A 1),
    stepFromPeriod := bitOf (fieldAt b 0x0B 1) 0, desc := fieldAt b 0x10 8 }

/-- Checks of entry `i` of a cyclic table, after an entry with offset `prev`. -/
def State.checkEntry (s : State) (session : Option Nat) (i period prev a : Nat) : Check :=
  let b := s.rdN a 32
  firstFail [
    need (zeroAt b 0x0C 4 && zeroAt b 0x18 8 && decide (fieldAt b 0x0B 1 < 2)) 1 i,
    need (decide (fieldAt b 0 4 < period) && decide (prev ≤ fieldAt b 0 4)) 13 i,
    need (fieldAt b 4 4 != 0) 13 i,
    need (fieldAt b 0x0A 1 != 0) 13 i,
    (match s.ctxLive (BitVec.ofNat 16 (fieldAt b 8 2)) with
     | some c => need (match session with | some n => (s.ctx c).session == n | none => true) 3 i
     | none => some (3, i)),
    s.readable (fieldAt b 0x10 8) 64 i]

def State.checkTable (s : State) (session : Option Nat) (d : List Byte) : Check :=
  let op := cf d 0 1
  let a := cf d 8 8
  let n := cf d 2 2
  let st := (s.table (cf d 1 1)).state
  firstFail [
    need (decide (1 ≤ op) && decide (op ≤ 3)) 13 0x10,
    need (decide (cf d 1 1 ≤ 7)) 13 0x11,
    need (zeroAt d 0x14 4 && zeroAt d 0x20 32) 1 0x14,
    (if op = 1 then
      firstFail [
        need (decide (1 ≤ n) && decide (n ≤ 64)) 13 0x12,
        need (decide (st ≤ 1)) 13 0x11,
        s.readable a (32 + 32 * n) 0x18,
        need (zeroAt (s.rdN a 32) 5 27) 1 0x18,
        need (decide (100 ≤ s.rdLe a 4) && decide (s.rdLe (a + 4) 1 ≤ 7)) 13 0x18,
        (List.range n).findSome? fun i =>
          s.checkEntry session i (s.rdLe a 4) (if i = 0 then 0 else s.rdLe (a + 32 * i) 4) (a + 32 + 32 * i)]
     else if op = 2 then need (st == 1) 13 0x11
     else none)]

/-! CTX (R350, R375-R378, R394). -/

/-- A context parameter block (R376) as a context of session `n`, not yet existing. -/
def ctxOfBlock (b : List Byte) (session base count cev : Nat) : Ctx :=
  { Ctx.reset with
    session := session, syncBase := base, syncCount := count, cevring := cev
    saveAd0 := fieldAt b 0 8, saveAd1 := fieldAt b 8 8, saveSlot := fieldAt b 0x10 4, resMask := BitVec.ofNat 8 (fieldAt b 0x14 1)
    slowRep := bitOf (fieldAt b 0x15 1) 0, slowThresh := BitVec.ofNat 16 (fieldAt b 0x16 2)
    resOffKib := fieldAt b 0x18 2, resLenKib := fieldAt b 0x1A 2
    saves := ((List.range 4).map fun i => (fieldAt b (0x1C + 4 * i) 2, fieldAt b (0x1E + 4 * i) 2)).filter fun p => p.2 != 0 }

/-- Does a partition overlap one that an existing context holds, on any array of both (R378)? -/
def State.partitionTaken (s : State) (x : Ctx) (own : Nat) : Bool :=
  x.resMask != 0 && s.ctxs.any fun e =>
    e.1 != own && e.2.holdsPart && (e.2.resMask &&& x.resMask) != 0 && rangesMeet x.resOffKib x.resLenKib e.2.resOffKib e.2.resLenKib

/-- No two of the listed ranges meet. -/
def apart : List (Nat × Nat) → Bool
  | [] => true
  | (a, n) :: l => (l.all fun r => !rangesMeet a n r.1 r.2) && apart l

def Ctx.saveKib (x : Ctx) : Nat := (x.saves.map Prod.snd).foldl (· + ·) 0

/-- R378, but for the overlap with other contexts' partitions. -/
def blockOk (b : List Byte) (x : Ctx) : Bool :=
  let res := if x.resMask = 0 then [] else [(x.resOffKib, x.resLenKib)]
  let slotsOk (base : Nat) (die : Nat) : Bool := base % 4096 == 0 && isHbm base && dieOf base == die && isHbm (base + 4 * x.saveSlot - 1)
    && dieOf (base + 4 * x.saveSlot - 1) == die
  decide (fieldAt b 0x15 1 < 2) && zeroAt b 0x2C 20 && x.saveSlot % 4096 == 0 && x.resOffKib % 16 == 0 && x.resLenKib % 16 == 0
    && (x.resMask != 0 || x.resLenKib == 0) && ((x.saves ++ res).all fun p => decide (p.1 + p.2 ≤ 49152)) && apart (x.saves ++ res)
    && decide (x.saveKib ≤ 8192)
    && decide (0x100_0000 + 1024 * x.saveKib + (if x.resMask = 0 then 0 else 1024 * x.resLenKib) ≤ x.saveSlot)
    && slotsOk x.saveAd0 0 && slotsOk x.saveAd1 1

/-- Does an object range meet that of a live context (R350)? Compatibility mode shares objects (R373). -/
def State.objsTaken (s : State) (base count : Nat) : Bool :=
  !s.compat && s.ctxs.any fun e => e.2.state != 0 && rangesMeet base count e.2.syncBase e.2.syncCount

def State.checkCreate (s : State) (session : Nat) (d : List Byte) : Check :=
  let c := fieldAt d 2 2 % 64
  let base := cf d 2 2
  let count := cf d 4 2
  let b := s.rdN (cf d 8 8) 64
  let x := ctxOfBlock b session base count (cf d 1 1)
  firstFail [
    need (decide (cf d 1 1 < 16)) 13 0x11,
    need (fieldAt d 4 2 == 0xFFFF) 5 4,
    need (fieldAt d 6 2 == 0xFFFF) 5 6,
    need (decide (1 ≤ count) && decide (count ≤ 16384)) 13 0x14,
    need (decide (base + count ≤ 16384) && !s.objsTaken base count) 5 0x12,
    s.readable (cf d 8 8) 64 0x18,
    need (blockOk b x && s.mappedRange x.saveAd0 (4 * x.saveSlot) && s.mappedRange x.saveAd1 (4 * x.saveSlot) && !s.partitionTaken x c) 13 0x18,
    need ((s.ctx c).state == 0) 13 2]

def State.checkCtxClass (s : State) (session : Option Nat) (d : List Byte) : Check :=
  let op := cf d 0 1
  let st := (s.ctx (fieldAt d 2 2 % 64)).state
  firstFail [
    need (decide (1 ≤ op) && decide (op ≤ 4)) 13 0x10,
    need (zeroAt d 0x16 2 && zeroAt d 0x20 32) 1 0x16,
    (if op = 1 then s.checkCreate (session.getD 0) d
     else firstFail [
        s.checkCtx session d, s.checkObjs d,
        need (cf d 8 8 == 0) 1 0x18,
        (if op = 2 then need (st == 1 || st == 2) 13 2
         else if op = 3 then need (st == 4) 13 2
         else need (st != 6) 13 2)])]

/-! A descriptor as a whole. -/

/-- Validate a format-2 descriptor of a ring of `session`, or of a cyclic table when there is none (R352). -/
def State.validate (s : State) (session : Option Nat) (d : List Byte) : Check :=
  let cls := fieldAt d 0 1
  firstFail [
    checkCommon s.compat d,
    (if cls = 5 then s.checkCtxClass session d
     else firstFail [
        s.checkCtx session d, s.checkObjs d,
        (match cls with
         | 0 => s.checkRun d
         | 1 => s.checkFerry d
         | 2 => s.checkSync d
         | 3 => checkHint d
         | _ => s.checkTable session d)])]

end Sys2Proof.Machine
end

