-- ==== Sys2Proof/Machine/Rings.lean ====
section
/-!
DEFINITION. Doorbells, head writes, the fetching of descriptors and the start of commands (R338-R346, R351-R356, R637).
-/
namespace Sys2Proof.Machine

/-! What the host writes into its own memory before it rings (R340). -/

/-- The host's own writes; they need no reset and no link of the module. -/
def State.hostWrites (s : State) (l : List HostWrite) : State :=
  { s with mem := l.foldl (fun m w => m.writeN (hostKey w.addr) w.bytes) s.mem }

/-- Does a BAR2 write reach the module: the link is up and the function is not in D3hot (log 16)? While a function reset runs
no ring is there that a write could reach (R539). -/
def State.bar2 (s : State) : Bool := s.hif.up && !s.hif.d3hot

/-- Slots of a submission ring. -/
def Ring.slots (r : Ring) : Nat := 2 ^ r.sizeLog2

/-- Slots of the admin ring (R637). -/
def AdminRing.slots (r : AdminRing) : Nat := 16 * 2 ^ r.size.toNat

/-- A doorbell error: upper bits set, or a tail that overfills the ring (R342). -/
def doorbellBad (head : Word) (slots : Nat) (v : DWord) : Bool :=
  decide (2 ^ 32 ≤ v.toNat) || decide (slots < (BitVec.ofNat 32 v.toNat - head).toNat)

/-- DESCRIPTOR_INVALID with reason 11 on ring 0. What its TAG, COUNT and DETAIL hold, where no descriptor is at fault, is not said: free
values (R342; log 17). -/
def State.doorbellError (s : State) (k : CmdKey) : State :=
  let v (i : Nat) : Word := Config.freeWord (s.fresh + i)
  s.tick.tick.tick.rejectDesc { k with count := v 0 } 0xFFFF (v 1).toNat 0 11 (v 2).toNat

/-- DOORBELL: the host's writes, then the new tail of a ring that exists and is not stopped (R339-R342). -/
def doorbell (ring pageOffset bytes : Nat) (v : DWord) (host : List HostWrite) (s : State) : State :=
  let s := s.hostWrites host
  if !s.bar2 || pageOffset != 0 || bytes != 8 then s
  else
    match s.ring ring with
    | none => s
    | some r =>
      if r.stopped then s
      else if doorbellBad r.head r.slots v then
        (s.setRing ring (some { r with stopped := true })).doorbellError ⟨ring, r.head⟩
      else s.setRing ring (some { r with tail := BitVec.ofNat 32 v.toNat })

def execDoorbell (ring : Fin 256) (pageOffset bytes : Nat) (value : DWord) (host : List HostWrite) (s : State) :
    Host.Outcome State Fault Refusal := live s (doorbell ring.val pageOffset bytes value host)

/-- ADMIN_DOORBELL: the same for the admin ring while it is enabled (R637). -/
def adminDoorbell (pageOffset bytes : Nat) (v : DWord) (host : List HostWrite) (s : State) : State :=
  let s := s.hostWrites host
  let r := s.hif.admin
  if !s.bar2 || pageOffset != 0 || bytes != 8 || !r.enable || r.stopped then s
  else if doorbellBad r.head r.slots v then
    State.doorbellError { s with hif := { s.hif with admin := { r with stopped := true } } } ⟨0x100, r.head⟩
  else { s with hif := { s.hif with admin := { r with tail := BitVec.ofNat 32 v.toNat } } }

def execAdminDoorbell (pageOffset bytes : Nat) (value : DWord) (host : List HostWrite) (s : State) : Host.Outcome State Fault Refusal :=
  live s (adminDoorbell pageOffset bytes value host)

/-- A head write that breaks the book of an event ring: upper bits set, or a head that passes W or moves backwards (R356). -/
def headBad (r : EvRing) (v : DWord) : Bool :=
  decide (2 ^ 32 ≤ v.toNat) || decide (r.unread < (BitVec.ofNat 32 v.toNat - r.h).toNat)

/-- EVENT_HEAD_WRITE: the host's head count, or a head error; two free slots end the dropping of R359 (R355, R356, R359). -/
def eventHeadWrite (n pageOffset bytes : Nat) (v : DWord) (s : State) : State :=
  let r := s.evring n
  if !s.bar2 || pageOffset != 0 || bytes != 8 || !r.enable then s
  else if headBad r v then s.setEvring n { r with headErr := satInc r.headErr }
  else
    let h := BitVec.ofNat 32 v.toNat
    let free := r.slots - (r.w - h).toNat
    s.setEvring n { r with h := h, dropping := r.dropping && decide (free < 2) }

def execEventHeadWrite (n : Fin 16) (pageOffset bytes : Nat) (value : DWord) (s : State) : Host.Outcome State Fault Refusal :=
  live s (eventHeadWrite n.val pageOffset bytes value)

/-! Fetching (R343, R344, R352). -/

/-- May the module fetch descriptors at all (R585)? A function in D3hot issues no request (log 16). -/
def State.mayFetch (s : State) : Bool := s.hif.up && !s.hif.d3hot

/-- Does a ring have a descriptor to fetch? -/
def State.fetchable (s : State) (r : Nat) : Bool :=
  match s.ring r with
  | some x => !x.stopped && x.deleting.isNone && x.head != x.tail
  | none => false

/-- Commands of a command processor that are fetched and not started: at most 32 are taken ahead (R343). -/
def State.ahead (s : State) (cp : Nat) : Nat :=
  (s.hif.cmds.filter fun c => decide (c.key.ring < 256) && c.key.ring % 4 == cp && c.phase == Phase.fetched).length

/-- The rings of a command processor that have something to fetch, from its present one on, in cyclic order. -/
def State.candidates (s : State) (cp current : Nat) : List Nat :=
  ((List.range 64).map fun i => (current + 4 * i) % 256).filter fun r => r % 4 == cp && s.fetchable r

/-- The next ring by weighted round robin: the present one up to WEIGHT descriptors, then the next (R343). -/
def State.nextRing (s : State) (cp : Nat) : Option (Nat × CmdProc) :=
  let x := Tab.get (fun _ => CmdProc.reset) s.hif.cps cp
  let current := x.current / 4 * 4 % 256 + cp
  let weight := match s.ring current with | some r => r.weight | none => 0
  match s.candidates cp current with
  | [] => none
  | r :: rest =>
    if r = current ∧ x.served < weight then some (r, { x with current := r, served := x.served + 1 })
    else
      let q := if r = current then rest.headD r else r
      some (q, { x with current := q, served := 1 })

/-- A fetched command as it joins the list. -/
def newCmd (k : CmdKey) (d : List Byte) : Cmd :=
  { key := k, desc := d, block := [], phase := .fetched, queued := false, taken := false, startedAt := 0, status := 0, result := 0, gen := 0 }

/-- Validate a fetched descriptor: reject it, complete it at once for a faulted context or one being torn down, or let it wait for its start
(R352, R382, R402). -/
def State.takeDesc (s : State) (k : CmdKey) (session : Nat) (raw : List Byte) : State :=
  let d := if s.compat then s.widen raw else raw
  let tag := fieldAt d 8 4
  let evring := fieldAt d 0x0C 1
  let check : Check := if s.compat && !widenReserved raw then some (1, 0) else s.validate (some session) d
  match check with
  | some (reason, detail) => s.rejectDesc k (s.rejectedCtx d reason) tag evring reason detail
  | none =>
    let c := newCmd k d
    let creates := c.creates
    let c := if creates then { c with block := s.rdN (c.fld 8 8) 64 } else c
    let st := (s.ctx c.ctx).state
    let status : Nat := if creates then 0 else if st = 5 ∧ ¬ (c.cls = 5 ∧ c.fld 0 1 = 4) then 2 else if st = 6 then 3 else 0
    if status ≠ 0 then s.complete c status 0 0 else s.setCmds (s.hif.cmds ++ [c])

/-- Fetch one descriptor of ring `r`: head, HEADPTR, validation. -/
def State.fetchRing (s : State) (r : Nat) (x : Ring) : State :=
  let size := if s.compat then 32 else 64
  let raw := s.mem.readN (hostKey (x.base + size * (x.head.toNat % x.slots))) size
  let s := s.setRing r (some { x with head := x.head + 1 })
  let s := { s with mem := s.mem.writeN (hostKey x.headptr) (leBytes 8 (x.head + 1).toNat) }
  s.takeDesc ⟨r, x.head⟩ x.session raw

/-- Fetch one admin descriptor with its parameter block (R351, R637). A PLEN above 4,096 reads no block, and the request is refused later. -/
def State.fetchAdmin (s : State) : State :=
  let x := s.hif.admin
  let d := s.mem.readN (hostKey (x.base.toNat * 4096 + 64 * (x.head.toNat % x.slots))) 64
  let plen := cf d 4 4
  let params := if plen ≤ 4096 then s.mem.readN (hostKey (cf d 0x10 8)) plen else []
  let req : AdminReq := { transport := 0, port := none, src := 0, isLocal := true, count := x.head, desc := d, params := params }
  { s with
    hif := { s.hif with admin := { x with head := x.head + 1 }, adminQ := s.hif.adminQ ++ [req] }
    mem := s.mem.writeN (hostKey (x.headptr.toNat * 8)) (leBytes 8 (x.head + 1).toNat) }

/-- COMMAND_FETCH: one descriptor from the rings of a command processor, or from the admin ring (R343, R352, R637). -/
def commandFetch (f : FetchFrom) (s : State) : State :=
  if !s.mayFetch then s
  else
    match f with
    | .admin => if s.hif.admin.enable ∧ ¬ s.hif.admin.stopped ∧ s.hif.admin.head ≠ s.hif.admin.tail then s.fetchAdmin else s
    | .rings cp =>
      let beat (s : State) (x : CmdProc) : State :=
        { s with hif := { s.hif with cps := Tab.set (fun _ => CmdProc.reset) s.hif.cps cp.val { x with heartbeat := s.now } } }
      let idle := beat s (Tab.get (fun _ => CmdProc.reset) s.hif.cps cp.val)
      if 32 ≤ s.ahead cp.val then idle
      else
        match s.nextRing cp.val with
        | none => idle
        | some (r, x) =>
          match s.ring r with
          | none => s
          | some ring => ((beat s x).fetchRing r ring).hubMoved (132 + cp.val)

def execCommandFetch (from_ : FetchFrom) (s : State) : Host.Outcome State Fault Refusal := live s (commandFetch from_)

/-! Starting (R345, R384, R385). -/

/-- Context state 1, 2 or 3 from its RUNs (R374). -/
def State.refreshCtx (s : State) (c : Nat) : State :=
  let x := s.ctx c
  if x.state = 1 ∨ x.state = 2 ∨ x.state = 3 then
    let rs := s.runs.filter fun r => r.ctx == c
    s.setCtx c { x with state := if rs.isEmpty then 1 else if rs.all (fun r => r.phase == RunPhase.preempted) then 3 else 2 }
  else s

/-- A landing wait that stands for engine `e`'s head leaves its queue; a count that it has taken stays taken (R320). -/
def State.endLandingWait (s : State) (e : Nat) : State :=
  let took := s.waited (.landing e)
  let g := s.engine e
  let s := s.setEngine e { g with work := g.work.map fun w => if w.waiting then { w with waiting := false, freeTaken := took } else w }
  { s with sync := s.sync.forget fun w => w == .landing e }

/-- A pre-emption request reaches a RUN's arrays and engines, and the two ferries of each of its arrays (R71, R320, R385). What is written of a
record in progress stands and the record runs again; a record whose every write is accepted only awaits its completion. -/
def State.preempt (s : State) (k : CmdKey) (by_ : Nat) : State :=
  match s.runOf k with
  | none => s
  | some r =>
    let s := s.updRun k fun r => { r with phase := .preempting, preemptor := by_, preemptAt := s.now, saved := 0, saveKib := 0, everPreempted := true }
    let mine := (maskList 8 r.arrays.toNat).flatMap fun a => [2 * a, 2 * a + 1]
    let s := mine.foldl (fun (s : State) e => s.setEngine e { s.engine e with forSave := true }) s
    let mine := mine ++ (s.engines.filter fun e => e.2.work.any fun w => w.run == some k).map Prod.fst
    let s := mine.foldl State.endLandingWait s
    let s := (maskList 8 r.arrays.toNat).foldl (fun (s : State) a =>
      let s := s.abandonLoads a
      let x := s.array a
      s.setArray a { x with state := if x.state = 4 then 4 else 2, quiesced := false }) s
    { s with engines := s.engines.map fun (e, g) =>
        (e, { g with work := g.work.map fun w => if w.run == some k || mine.contains e then { w with abandoned := true } else w }) }

/-- Pre-empt every RUN of strictly lower priority that holds an array which request `r` needs (R385). -/
def State.preemptLower (s : State) (r : Run) : State :=
  (s.runs.filter fun q => q.phase == RunPhase.granted && decide (q.prio < r.prio) && (q.arrays &&& r.arrays) != 0).foldl
    (fun s q => s.preempt q.key r.ctx) s

/-- A RUN's record as it starts (R345, R348). -/
def runOfCmd (c : Cmd) (prio order : Nat) (solo : Bool) : Run :=
  { key := c.key, ctx := c.ctx, tag := BitVec.ofNat 32 c.tag, image := c.fld 0 8, bindings := c.fld 8 8, nbind := c.fld 0x10 2
    arrays := BitVec.ofNat 8 (c.fld 0x12 1), prio := prio, step := BitVec.ofNat 32 (c.fld 0x14 4), mb := BitVec.ofNat 32 (c.fld 0x18 4)
    seed := BitVec.ofNat 64 (c.fld 0x20 8), order := order, phase := .waiting, bound := false, saved := 0, restoring := 0, preemptor := 0
    preemptAt := 0, saveKib := 0, everPreempted := false, solo := solo, cycles := 0, tiles := 0, frozen := [], kept := [] }

/-- A started RUN requests its arrays, pre-empting what its priority allows (R384, R385). -/
def State.request (s : State) (c : Cmd) (prio : Nat) : State :=
  let others := s.runs.any fun r => r.ctx != c.ctx
  let r := runOfCmd c prio s.runSeq (!others)
  let s := { s with runs := (s.runs.map fun (q : Run) => if q.ctx == c.ctx then q else { q with solo := false }) ++ [r], runSeq := s.runSeq + 1 }
  (s.preemptLower r).refreshCtx c.ctx

/-- Does a device address lie in HBM of a die that has not trained (R572)? -/
def State.untrainedAt (s : State) (a : Nat) : Bool := isHbm a && !bitOf s.boot.trained.toNat (dieOf a)

/-- Does a RUN or FERRY lie on a die whose HBM has not trained: its arrays, its bindings, or its records' streams (R572)? -/
def State.awaitsTraining (s : State) (c : Cmd) : Bool :=
  let die (d : Nat) : Bool := !bitOf s.boot.trained.toNat d
  if c.cls = 0 then
    ((maskList 8 (c.fld 0x12 1)).any fun a => die (a / 4))
      || (List.range (c.fld 0x10 2)).any fun i => s.untrainedAt (s.rdLe (c.fld 8 8 + 32 * i + 8) 8)
  else if c.cls = 1 then
    let e := c.fld 0x0A 1
    (isArrayFerry e && die (e / 8)) || (isGather e && die ((e - 0x18) / 2))
      || (List.range (c.fld 8 2)).any fun i =>
        let r := s.ferryRec (c.fld 0 8 + 64 * i)
        decide (r.op ≤ 2) && ((r.src != 0 && s.untrainedAt (s.streamDesc r.src).base) || (r.dst != 0 && s.untrainedAt (s.streamDesc r.dst).base))
  else false

/-- Take the command's WAITOBJ count: queue for it, or find it taken (R345, R363). -/
def State.takeWaitobj (s : State) (c : Cmd) : State :=
  if c.waitobj = 0xFFFF ∨ c.taken then s.updCmd c.key fun x => { x with taken := true }
  else
    let s := if c.queued then s
      else
        match s.objOf c.ctx c.waitobj with
        | some o => (s.updCmd c.key fun x => { x with queued := true }).enqueue [(o, ⟨.waitobj c.key, 1, true⟩)]
        | none => s
    if s.waited (.waitobj c.key) then (s.consume (.waitobj c.key)).updCmd c.key fun x => { x with taken := true } else s

/-- The first command of a ring that has not started, and whether every earlier one has completed. -/
def State.startCandidate (s : State) (ring : Nat) : Option (Cmd × Bool) :=
  let mine := s.hif.cmds.filter fun c => c.key.ring == ring
  match mine.find? fun c => c.phase == Phase.fetched with
  | some c => some (c, mine.head? == some c)
  | none => none

/-- Start a command whose count is taken, unless a saved context or an untrained die holds it at its start (R345, R393, R572). -/
def State.startNow (s : State) (c : Cmd) : State :=
  if c.cls = 0 ∧ (s.ctx c.ctx).state = 4 then s
  else if s.awaitsTraining c then s
  else
    let s := s.updCmd c.key fun x => { x with phase := .started, startedAt := s.now }
    if c.cls = 0 then s.request c (c.fld 0x13 1) else s

/-- COMMAND_START: the next command of a ring starts in count order, once a FENCE is met and its WAITOBJ count is taken (R345). -/
def commandStart (ring : Nat) (s : State) : State :=
  match s.startCandidate ring with
  | none => s
  | some (c, first) =>
    if 256 ≤ ring ∨ (bitOf c.flags 1 ∧ ¬ first) then s
    else
      let s := s.takeWaitobj c
      match s.cmd c.key with
      | some x => if x.taken then s.startNow x else s
      | none => s

def execCommandStart (ring : Nat) (s : State) : Host.Outcome State Fault Refusal := live s (commandStart ring)

end Sys2Proof.Machine
end

