-- ==== Sys2Proof/Machine/SyncOps.lean ====
section
/-!
DEFINITION. The operations on synchronisation objects as SYNC commands and engines apply them, and remote signals (R361-R367, R423).
-/
namespace Sys2Proof.Machine

/-- OP of a SYNC command. -/
def Cmd.syncOp (c : Cmd) : Nat := c.fld 0 1
def Cmd.nobj (c : Cmd) : Nat := c.fld 1 1
/-- OBJ[j] and N[j] of a SYNC command. -/
def Cmd.syncObj (c : Cmd) (j : Nat) : Nat := c.fld (0x10 + 2 * j) 2
def Cmd.syncN (c : Cmd) (j : Nat) : Nat := c.fld (0x20 + 2 * j) 2
def Cmd.timeoutUs (c : Cmd) : Nat := c.fld 8 4

/-- A started SYNC command with the given operation that has not yet been applied. -/
def State.syncCmd (s : State) (k : CmdKey) (op : Nat) : Option Cmd :=
  match s.cmd k with
  | some c => if c.cls = 2 ∧ c.syncOp = op ∧ c.phase = .started then some c else none
  | none => none

/-- The operation has been applied: what is left is its completion. -/
def State.performed (s : State) (k : CmdKey) : State := s.updCmd k fun c => { c with phase := .performed }

/-- SIGNAL: N[j] to each OBJ[j] in list order, or an engine's own signal (R361, R362). -/
def signal (by_ : SyncBy) (s : State) : State :=
  match by_ with
  | .engine obj n => s.signal obj.val n
  | .cmd k =>
    match s.syncCmd k 1 with
    | none => s
    | some c =>
      State.performed ((List.range c.nobj).foldl (fun (s : State) j => s.signalRel c.ctx (c.syncObj j) (BitVec.ofNat 32 (c.syncN j))) s) k

def execSignal (by_ : SyncBy) (s : State) : Host.Outcome State Fault Refusal := live s (signal by_)

/-- The waits of a WAIT, WAIT_GE or WAIT_ANY command, one for each listed object. -/
def State.syncWaits (s : State) (c : Cmd) (takes any : Bool) : List (Nat × Wait) :=
  (List.range c.nobj).filterMap fun j =>
    match s.objOf c.ctx (c.syncObj j) with
    | some o => some (o, ⟨if any then .syncAny c.key j else .syncWait c.key j, BitVec.ofNat 32 (c.syncN j), takes⟩)
    | none => none

/-- Queue the waits of a started wait command at once (R364, R365). -/
def State.startWaits (s : State) (k : CmdKey) (op : Nat) (takes any : Bool) : State :=
  match s.syncCmd k op with
  | none => s
  | some c => (s.performed k).enqueue (s.syncWaits c takes any)

/-- WAIT: a place in the queue of each object; each takes its count when it stands at the head and is satisfied (R361, R363, R365). -/
def wait (by_ : SyncBy) (s : State) : State :=
  match by_ with
  | .engine obj n => (s.enqueue [(obj.val, ⟨.engine s.fresh, n, true⟩)]).tick
  | .cmd k => s.startWaits k 2 true false

def execWait (by_ : SyncBy) (s : State) : Host.Outcome State Fault Refusal := live s (wait by_)

/-- WAIT_GE: as WAIT, and the count stays (R361, R363, R365). -/
def waitGe (by_ : SyncBy) (s : State) : State :=
  match by_ with
  | .engine obj n => (s.enqueue [(obj.val, ⟨.engine s.fresh, n, false⟩)]).tick
  | .cmd k => s.startWaits k 3 false false

def execWaitGe (by_ : SyncBy) (s : State) : Host.Outcome State Fault Refusal := live s (waitGe by_)

/-- WAIT_ANY: one wait in every queue, of which exactly one takes (R364). -/
def waitAny (k : CmdKey) (s : State) : State := s.startWaits k 4 true true

def execWaitAny (key : CmdKey) (s : State) : Host.Outcome State Fault Refusal := live s (waitAny key)

/-- SET: the count becomes N[0] + N[1] × 65,536 (R361). -/
def set (by_ : SyncBy) (s : State) : State :=
  match by_ with
  | .engine obj n => s.setSync obj.val n
  | .cmd k =>
    match s.syncCmd k 5 with
    | none => s
    | some c =>
      let s := s.performed k
      match s.objOf c.ctx (c.syncObj 0) with
      | some o => s.setSync o (BitVec.ofNat 32 (c.syncN 0 + 65536 * c.syncN 1))
      | none => s

def execSet (by_ : SyncBy) (s : State) : Host.Outcome State Fault Refusal := live s (set by_)

/-- A REMOTE_SIGNAL packet (R423). -/
def State.remotePacket (s : State) (device rctx obj : Nat) (n : Word) : Packet :=
  { packetTo (BitVec.ofNat 16 device) s.fab.id 7 1 s.fab.hopLimit with
    ctx := BitVec.ofNat 16 rctx, arg := BitVec.ofNat 64 (obj + 2 ^ 32 * n.toNat) }

/-- REMOTE_SIGNAL: one packet for each object, in list order (R366, R423). -/
def remoteSignal (k : CmdKey) (s : State) : State :=
  match s.syncCmd k 6 with
  | none => s
  | some c =>
    State.performed ((List.range c.nobj).foldl (fun (s : State) j =>
      s.inject (s.remotePacket (c.fld 2 2) (c.fld 4 2) (c.syncObj j) (BitVec.ofNat 32 (c.syncN j)))) s) k

def execRemoteSignal (key : CmdKey) (s : State) : Host.Outcome State Fault Refusal := live s (remoteSignal key)

/-- The list positions whose wait has completed. -/
def State.waitsDone (s : State) (c : Cmd) : List Nat :=
  (List.range c.nobj).filter fun j => s.waited (if c.syncOp = 4 then .syncAny c.key j else .syncWait c.key j)

/-- Have a wait command's waits completed: all of them, or the one of a WAIT_ANY? -/
def State.waitOver (s : State) (c : Cmd) : Bool :=
  c.phase == Phase.performed && (if c.syncOp = 4 then !(s.waitsDone c).isEmpty else (s.waitsDone c).length == c.nobj)

/-- SYNC_WAIT_TIMEOUT: on a wait that has not completed TIMEOUT_US after its start, the unfinished waits leave their queues and the command
completes with STATUS 1, its RESULT naming the waits that completed (R354, R365). -/
def syncWaitTimeout (k : CmdKey) (s : State) : State :=
  match s.cmd k with
  | none => s
  | some c =>
    let isWait := c.cls = 2 ∧ (c.syncOp = 2 ∨ c.syncOp = 3 ∨ c.syncOp = 4)
    if ¬ isWait ∨ c.phase = .fetched ∨ c.timeoutUs = 0 ∨ s.now < c.startedAt + 100 * c.timeoutUs ∨ s.waitOver c then s
    else s.complete c 1 (if c.syncOp = 4 then 0 else maskOf (s.waitsDone c)) 0

def execSyncWaitTimeout (key : CmdKey) (s : State) : Host.Outcome State Fault Refusal := live s (syncWaitTimeout key)

/-- REMOTE_SIGNAL_RECEIVE: the count is added when the packet's context lives here with its generation and holds the object; otherwise the
packet is dropped as stale. Of one sender's signals to one object the oldest comes first (R366, R403). -/
def remoteSignalReceive (p : Packet) (s : State) : State :=
  let same (q : Packet) : Bool := q.vc == 7 && q.type == 1 && q.src == p.src && q.ctx == p.ctx && q.arg.toNat % 65536 == p.arg.toNat % 65536
  if p.vc ≠ 7 ∨ p.type ≠ 1 ∨ (s.fab.inbox.find? fun e => same e.2).any fun e => e.2 != p then s
  else
    match s.receive p with
    | none => s
    | some (port, s) =>
      match s.ctxLive p.ctx with
      | none => s.stale p.src p.ctx 7 port
      | some c =>
        match s.objOf c (p.arg.toNat % 65536) with
        | none => s.stale p.src p.ctx 7 port
        | some o => s.signal o (BitVec.ofNat 32 (p.arg.toNat / 2 ^ 32))

def execRemoteSignalReceive (p : Packet) (s : State) : Host.Outcome State Fault Refusal := live s (remoteSignalReceive p)

end Sys2Proof.Machine
end

