-- ==== Sys2Proof/Machine/Power.lean ====
section
/-!
DEFINITION. The power controller (R503-R530): cap, duty, floor timer, hints, droop, rail dips, heat, and the margin plan.
-/
namespace Sys2Proof.Machine

/-! Requests for a reset (R535, R540). -/

/-- Scope of the function or module reset that is in progress or requested; 0 for none. -/
def State.resetScope (s : State) : Nat :=
  max (if s.inFunctionReset then 4 else 0) <| max (match s.rst.active with | some r => r.scope | none => 0) (match s.rst.pending with | some r => r.scope | none => 0)

/-- Request a function, warm or cold reset. It is absorbed by one of the same or a larger scope (R535). -/
def State.requestReset (s : State) (r : InReset) : State :=
  if r.scope ≤ s.resetScope then s
  else { s with rst := { s.rst with pending := some r, capturing := if r.captured then some s.now else none } }

/-- A request for a warm reset (R540). -/
def State.requestWarm (s : State) (source index watchdog : Nat) (capture counted : Bool) : State :=
  s.requestReset { scope := 5, source := source, index := index, watchdog := watchdog, at_ := s.now, counted := counted, captured := capture }

/-- A request for a cold reset (R540). -/
def State.requestCold (s : State) (source index : Nat) : State :=
  s.requestReset { scope := 6, source := source, index := index, watchdog := 0, at_ := s.now, counted := false, captured := false }

/-! Evaluation (R503-R506, R522-R524, R527). -/

/-- Power that the memory-heavy hints in force predict until their phases begin (R513). -/
def State.hintedW (s : State) : Nat :=
  ((s.pwr.hints.filter fun h => h.kind == 1 && decide (s.now < h.at_ + 100 * h.leadUs)).map fun h => h.watts).foldl (· + ·) 0

/-- One adjustment of F and d (R506, R511, R513). The prediction of a hint lowers F and never d. -/
def Pwr.adjust (p : Pwr) (now cap total predicted : Nat) : Pwr :=
  if cap < total then
    if 600 < p.fMhz then { p with fMhz := max 600 (p.fMhz - 100) }
    else if 1 < p.duty then { p with duty := p.duty - 1, floor := true, floorAt := if p.floor then p.floorAt else now }
    else p
  else if cap < predicted then (if 600 < p.fMhz then { p with fMhz := max 600 (p.fMhz - 100) } else p)
  else if 100 * predicted < 97 * cap then
    if p.duty < 8 then
      let d := p.duty + 1
      { p with duty := d, floor := p.floor && decide (d < 8), capRaised := p.capRaised && decide (d < 8) }
    else { p with fMhz := min 2400 (p.fMhz + 25) }
  else p

/-- The thermal level that a reading leads to: limit from 105 °C until 100 °C, throttle from 95 °C until 93 °C (R523). -/
def thermalLevel (old t : Nat) : Nat :=
  if 1050 ≤ t ∨ (old = 2 ∧ 1000 < t) then 2 else if 950 ≤ t ∨ (1 ≤ old ∧ 930 < t) then 1 else 0

/-- THERMAL_THROTTLE (R524). -/
def State.raiseThermal (s : State) (die level tj stack fDie : Nat) : State :=
  s.raise0 0x0603 srcPower (leBytes 1 die ++ leBytes 1 level ++ leBytes 2 tj ++ leBytes 1 stack ++ leBytes 2 fDie)

/-- Is a stack of an array die at the HBM level? -/
def State.stackHot (s : State) (d : Nat) : Bool := (List.range 12).any fun i => (s.stack (12 * d + i)).hot

/-- PWR_THERM.HOT: some die is at the throttle, limit or HBM level (R523). -/
def State.refreshHot (s : State) : State :=
  { s with pwr := { s.pwr with hot := decide (s.thermal 0 ≠ 0) || decide (s.thermal 1 ≠ 0) || decide (s.thermal 2 ≠ 0) || s.stackHot 0 || s.stackHot 1 } }

/-- Take one die's reading: its level, and the events of entry. Dies are 0 AD0, 1 hub, 2 AD1. -/
def State.readDie (s : State) (die : Nat) (t : BitVec 12) : State :=
  let old := s.thermal die
  let l := thermalLevel old t.toNat
  let s := { s with pwr := { s.pwr with tj := Tab.set (fun _ => 0) s.pwr.tj die t, level := Tab.set (fun _ => 0) s.pwr.level die l } }
  let f := s.fDie (if die = 2 then 1 else 0)
  let s := if old = 0 ∧ 1 ≤ l then s.raiseThermal die 1 t.toNat 0xFF f else s
  if old < 2 ∧ l = 2 then s.raiseThermal die 2 t.toNat 0xFF f else s

/-- Does something throttle array die `d`: its own reading, the hub's, or a stack of it (R523)? -/
def State.throttled (s : State) (d : Nat) : Bool :=
  decide (950 ≤ s.tj (if d = 0 then 0 else 2)) || decide (950 ≤ s.tj 1)
    || (List.range 12).any fun i => decide (950 ≤ (s.stack (12 * d + i)).temp.toNat)

/-- F_die falls by 25 MHz below F at each evaluation while its die is throttled (R523). -/
def State.throttleDie (s : State) (d : Nat) : State :=
  if s.throttled d then
    { s with pwr := { s.pwr with fDie := Tab.set (fun _ => 2400) s.pwr.fDie d (max 600 (min s.pwr.fMhz (s.fDie d) - 25)) } }
  else s

/-- A reading of 115 °C or more: THERM_TRIP_N goes low, and a cold reset is requested (R523). -/
def State.trip (s : State) (x : PowerSample) : State :=
  if 1150 ≤ x.tjAd0.toNat ∨ 1150 ≤ x.tjHub.toNat ∨ 1150 ≤ x.tjAd1.toNat then
    State.requestCold { s with pins := { s.pins with thermTripN := false } } 5 0
  else s

/-- POWER_EVALUATION: the readings of the 10 µs that have ended, then F and d, the thermal levels, F_die, the trip, drift, and the array
clocks downward (R503, R506, R507, R522-R524, R527). -/
def powerEvaluation (x : PowerSample) (s : State) : State :=
  let total := x.cappedW.toNat + x.uncappedW.toNat
  let p := { s.pwr with cappedW := x.cappedW, uncappedW := x.uncappedW }
  let s := { s with pwr := p.adjust s.now p.capW.toNat total (total + s.hintedW) }
  let s := ((s.readDie 0 x.tjAd0).readDie 1 x.tjHub).readDie 2 x.tjAd1
  let s := ((s.throttleDie 0).throttleDie 1).refreshHot
  let s := { s with flash := { s.flash with margin := { s.flash.margin with pending := s.flash.margin.pending ||| x.drift } } }
  (s.trip x).reclockAll

def execPowerEvaluation (x : PowerSample) (s : State) : Host.Outcome State Fault Refusal := liveMp s (powerEvaluation x)

/-- RAIL_TARGET_REACHED: the die's regulator reports its target, and its arrays' clocks rise to their limits (R507, R604). -/
def railTargetReached (die : Nat) (s : State) : State := s.raiseClocks die

def execRailTargetReached (die : Fin 2) (s : State) : Host.Outcome State Fault Refusal := live s (railTargetReached die.val)

/-- CAP_UNREACHABLE: the floor timer has reached 10 ms with d = 1 and the power above the cap (R511). -/
def capUnreachable (s : State) : State :=
  let total := s.pwr.cappedW.toNat + s.pwr.uncappedW.toNat
  if !s.pwr.floor || s.pwr.duty != 1 || s.pwr.capRaised || decide (s.now < s.pwr.floorAt + 1000000) || decide (total ≤ s.pwr.capW.toNat) then s
  else
    State.raise0 { s with pwr := { s.pwr with capRaised := true } } 0x0601 srcPower
      (leBytes 2 s.pwr.capW.toNat ++ leBytes 2 total ++ leBytes 2 s.pwr.uncappedW.toNat)

def execCapUnreachable (s : State) : Host.Outcome State Fault Refusal := live s capUnreachable

/-- CAP_IN_N_LOW: the board limit halts every array at its next tile boundary, from the pin or from the array rails' current (R512). -/
def capInNLow (fromPin : Bool) (s : State) : State :=
  let p := if fromPin then { s.pwr with capLow := true } else { s.pwr with overCurrent := true }
  { s with pwr := { p with boardHalt := true, halts := if p.boardHalt then p.halts else p.halts + 1 } }

def execCapInNLow (fromPin : Bool) (s : State) : Host.Outcome State Fault Refusal := live s (capInNLow fromPin)

/-- BOARD_HALT_END: both conditions have been absent for 100 µs (R512). -/
def boardHaltEnd (s : State) : State := { s with pwr := { s.pwr with boardHalt := false, capLow := false, overCurrent := false } }

def execBoardHaltEnd (s : State) : Host.Outcome State Fault Refusal := live s boardHaltEnd

/-- THROTTLE_RISE: once per millisecond while its readings are at or below 93 °C, F_die rises by 25 MHz until it rejoins F (R523). -/
def throttleRise (d : Nat) (s : State) : State :=
  let cool := decide (s.tj (if d = 0 then 0 else 2) ≤ 930) && decide (s.tj 1 ≤ 930)
    && (List.range 12).all fun i => decide ((s.stack (12 * d + i)).temp.toNat ≤ 930)
  let last := Tab.get (fun _ => 0) s.pwr.riseAt d
  if !cool || decide (s.now < last + 100000) then s
  else
    let f := s.fDie d + 25
    { s with pwr := { s.pwr with
        fDie := Tab.set (fun _ => 2400) s.pwr.fDie d (if s.pwr.fMhz ≤ f then 2400 else f)
        riseAt := Tab.set (fun _ => 0) s.pwr.riseAt d s.now } }

def execThrottleRise (die : Fin 2) (s : State) : Host.Outcome State Fault Refusal := live s (throttleRise die.val)

/-- HBM_SENSOR_READ: a stack's own sensor; at 95 °C its die is throttled, with one event for each entry of the die (R522-R524). -/
def hbmSensorRead (n : Nat) (t : BitVec 12) (s : State) : State :=
  let d := n / 12
  let k := s.stack n
  let was := s.stackHot d
  let hot := decide (950 ≤ t.toNat) || (k.hot && decide (930 < t.toNat))
  let s := (s.setStack n { k with temp := t, hot := hot }).refreshHot
  if hot ∧ ¬ was then s.raiseThermal (2 * d) 3 t.toNat n (s.fDie d) else s

def execHbmSensorRead (stack : Fin 24) (temp : BitVec 12) (s : State) : Host.Outcome State Fault Refusal :=
  live s (hbmSensorRead stack.val temp)

/-! Hints (R513, R514, R606). -/

/-- LOADHINT_N is low while a compute-heavy hint is in force (R606). -/
def State.refreshLoadHint (s : State) : State :=
  { s with pins := { s.pins with loadHintN := !(s.pwr.hints.any fun h => h.kind == 0) } }

/-- Accept a started HINT of the given kind: it is performed, and has its effect unless the floor timer runs (R513, R514). -/
def State.acceptHint (s : State) (k : CmdKey) (kind : Nat) (f : Cmd → State → State) : State :=
  match s.cmd k with
  | none => s
  | some c =>
    if c.cls ≠ 3 ∨ c.fld 7 1 ≠ kind ∨ c.phase ≠ .started then s
    else (if s.pwr.floor then s.performed k else f c (s.performed k)).refreshLoadHint

/-- Put a hint in force. -/
def State.addHint (s : State) (c : Cmd) : State :=
  { s with pwr := { s.pwr with hints := s.pwr.hints ++ [{ at_ := s.now, leadUs := c.fld 0 2, durUs := c.fld 2 4
                                                          arrays := BitVec.ofNat 8 (c.fld 6 1), kind := c.fld 7 1, watts := c.fld 8 2 }] } }

/-- HINT_COMPUTE_HEAVY: the rails of the affected dies rise by 20 mV while the hint is in force (`State.railTarget`), and LOADHINT_N falls. -/
def hintComputeHeavy (k : CmdKey) (s : State) : State := s.acceptHint k 0 fun c s => s.addHint c

def execHintComputeHeavy (key : CmdKey) (s : State) : Host.Outcome State Fault Refusal := live s (hintComputeHeavy key)

/-- HINT_MEMORY_HEAVY: WATTS join the prediction of uncapped power until the phase begins. -/
def hintMemoryHeavy (k : CmdKey) (s : State) : State := s.acceptHint k 1 fun c s => s.addHint c

def execHintMemoryHeavy (key : CmdKey) (s : State) : Host.Outcome State Fault Refusal := live s (hintMemoryHeavy key)

/-- Take arrays out of the hints in force; a hint with no array left has ended (R513). -/
def endHints (arrays : Byte) (l : List HintInForce) : List HintInForce :=
  (l.map fun h => { h with arrays := h.arrays &&& ~~~arrays }).filter fun h => h.arrays != 0

/-- HINT_END: a hint of kind 2 ends the hints in force for its arrays. -/
def hintEnd (k : CmdKey) (s : State) : State :=
  s.acceptHint k 2 fun c s => { s with pwr := { s.pwr with hints := endHints (BitVec.ofNat 8 (c.fld 6 1)) s.pwr.hints } }

def execHintEnd (key : CmdKey) (s : State) : Host.Outcome State Fault Refusal := live s (hintEnd key)

/-- HINT_LAPSE: hints end LEAD_US + DURATION_US + 100 µs after they were accepted. -/
def hintLapse (s : State) : State :=
  State.refreshLoadHint
    { s with pwr := { s.pwr with hints := s.pwr.hints.filter fun h => decide (s.now < h.at_ + 100 * (h.leadUs + h.durUs + 100)) } }

def execHintLapse (s : State) : Host.Outcome State Fault Refusal := live s hintLapse

/-! Rails (R518-R521, R525). -/

/-- Need of a point in the plan's units of 2.5 mV: the nominal voltage V(f_p) = 550 + 20 p mV and the point's offset (R525, R526). -/
def pointUnits (offsets : List Int) (p : Nat) : Int := 220 + 8 * (p : Int) + offsets.getD p 0

/-- Voltage that an array needs at a frequency, in twelfths of a millivolt, in which both the curve and the plan's units are whole: the need of the
lowest point at or above it, or the nominal curve plus 50 mV without a plan (R525, R526). -/
def State.needTwelfths (s : State) (a mhz : Nat) : Int :=
  if s.flash.planValid then 30 * pointUnits (Tab.get (fun _ => []) s.flash.margin.offsets a) (ceilDiv (mhz - 600) 120)
  else 7200 + 2 * ((mhz : Int) - 600)

/-- Rail target of an array die, in twelfths of a millivolt: the highest need among its running arrays, the need at 600 MHz without one, and 20 mV more under a
compute-heavy hint for one of its arrays (R513, R525). -/
def State.railTarget (s : State) (d : Nat) : Int :=
  let mine := (List.range 4).map fun i => 4 * d + i
  let running := mine.filter fun a => (s.array a).owner.isSome
  let need := if running = [] then (mine.map fun a => s.needTwelfths a 600).foldl max 0
    else (running.map fun a => s.needTwelfths a (s.arrayMhz a)).foldl max 0
  let hinted := s.pwr.hints.any fun h => h.kind == 0 && mine.any fun a => h.arrays.toNat.testBit a
  need + (if hinted then 240 else 0)

/-- The arrays whose clocks a rail's dip pauses (R519). -/
def railArrays (rail : Nat) : List Nat := if rail = 0 then [0, 1, 2, 3] else if rail = 1 then [4, 5, 6, 7] else List.range 8

/-- Set or clear a rail's bit in the pauses of its arrays. -/
def State.pauseRail (s : State) (rail : Nat) (on : Bool) : State :=
  (railArrays rail).foldl (fun (s : State) a =>
    let x := s.array a
    s.setArray a { x with paused := BitVec.ofNat 12 (setBitOf x.paused.toNat rail on) }) s

def State.dip (s : State) (rail : Nat) : Option Dip := Tab.get (fun _ => none) s.pwr.dips rail
def State.setDip (s : State) (rail : Nat) (x : Option Dip) : State :=
  { s with pwr := { s.pwr with dips := Tab.set (fun _ => none) s.pwr.dips rail x } }

/-- RAIL_WARNING: the rail is below its warning level, and the clocks of its arrays pause at a cycle boundary (R519). -/
def railWarning (rail : Nat) (mv : BitVec 16) (s : State) : State :=
  let d : Dip := match s.dip rail with
    | some d => { d with minMv := if mv < d.minMv then mv else d.minMv }
    | none => { since := s.now, minMv := mv, raised := false }
  (s.setDip rail (some d)).pauseRail rail true

def execRailWarning (rail : Fin 12) (mv : BitVec 16) (s : State) : Host.Outcome State Fault Refusal := live s (railWarning rail.val mv)

/-- VWARN's payload. -/
def State.raiseVwarn (s : State) (rail duration : Nat) (d : Dip) : State :=
  s.raise0 0x0602 srcPower (leBytes 1 rail ++ leBytes 3 0 ++ leBytes 4 duration ++ leBytes 2 d.minMv.toNat)

/-- RAIL_RECOVER: the clocks restart, and VWARN gives the dip's duration and lowest voltage (R519, R520). -/
def railRecover (rail : Nat) (s : State) : State :=
  match s.dip rail with
  | none => s
  | some d => ((s.setDip rail none).pauseRail rail false).raiseVwarn rail (min (2 ^ 32 - 1) (s.now - d.since)) d

def execRailRecover (rail : Fin 12) (s : State) : Host.Outcome State Fault Refusal := live s (railRecover rail.val)

/-- VWARN: a dip that has lasted 100 ms, once (R520). -/
def vwarn (rail : Nat) (s : State) : State :=
  match s.dip rail with
  | none => s
  | some d =>
    if d.raised ∨ s.now < d.since + 10000000 then s
    else (s.setDip rail (some { d with raised := true })).raiseVwarn rail (2 ^ 32 - 1) d

def execVwarn (rail : Fin 12) (s : State) : Host.Outcome State Fault Refusal := live s (vwarn rail.val)

/-- RAIL_RESET_LEVEL: a rail crossing a reset level: VAON makes a cold reset, any other rail a counted warm reset (R521, R540). -/
def railResetLevel (rail : Nat) (s : State) : State :=
  if rail = 11 then s.requestCold 4 11 else s.requestWarm 4 rail 0 false true

def execRailResetLevel (rail : Fin 12) (s : State) : Host.Outcome State Fault Refusal := liveReset s (railResetLevel rail.val)

/-! Droop (R515-R517). -/

/-- DROOP_TRIP: a detector trips, and its array's clock is stretched (R515). -/
def droopTrip (a det : Nat) (depth : BitVec 16) (s : State) : State :=
  let x := s.array a
  s.setArray a { x with
    detectors := BitVec.ofNat 16 (setBitOf x.detectors.toNat det true)
    stretching := true
    stretchFrom := if x.stretching then x.stretchFrom else s.now
    episodes := if x.stretching then x.episodes else x.episodes + 1
    deepestMv := max x.deepestMv depth.toNat }

def execDroopTrip (a : Fin 8) (detector : Fin 16) (depthMv : BitVec 16) (s : State) : Host.Outcome State Fault Refusal :=
  live s (droopTrip a.val detector.val depthMv)

/-- DROOP_STRETCH_END: 100 ns after the last detector released, the stretch ends (R515). -/
def droopStretchEnd (a : Nat) (s : State) : State :=
  let x := s.array a
  if !x.stretching then s
  else s.setArray a { x with detectors := 0, stretching := false, stretchNs := x.stretchNs + 10 * (s.now - x.stretchFrom) }

def execDroopStretchEnd (a : Fin 8) (s : State) : Host.Outcome State Fault Refusal := live s (droopStretchEnd a.val)

/-- DROOP_SUMMARY: at the end of an interval with episodes, their number, total and depth (R517). -/
def droopSummary (a : Nat) (s : State) : State :=
  let x := s.array a
  if s.now < x.summaryAt + 100000 * s.pwr.summaryMs.toNat then s
  else
    let s := s.setArray a { x with episodes := 0, stretchNs := 0, deepestMv := 0, summaryAt := s.now }
    if x.episodes = 0 then s
    else s.raise0 0x0605 srcPower (leBytes 1 a ++ leBytes 1 0 ++ leBytes 2 x.deepestMv ++ leBytes 4 x.episodes ++ leBytes 4 x.stretchNs)

def execDroopSummary (a : Fin 8) (s : State) : Host.Outcome State Fault Refusal := live s (droopSummary a.val)

/-! Ageing (R526-R530). -/

/-- POH_HOUR: one more power-on hour in flash; 500 hours after the plan every domain is pending (R527). -/
def pohHour (s : State) : State :=
  let poh := s.flash.poh + 1
  let old := decide (500 ≤ poh.toNat - s.flash.margin.hours.toNat)
  { s with flash := { s.flash with
      poh := poh
      margin := { s.flash.margin with pending := if old then 0x3FF else s.flash.margin.pending } } }

def execPohHour (s : State) : Host.Outcome State Fault Refusal := liveMp s pohHour

/-- Does a RUN hold or request an array (R528)? -/
def State.requested (s : State) (a : Nat) : Bool :=
  (s.array a).owner.isSome || s.runs.any fun r => r.arrays.toNat.testBit a

/-- FMAX of a plan: the highest point whose need is at most 850 mV (R529). -/
def fmaxPoint (need : List Nat) : Nat := ((List.range 16).filter fun p => decide (need.getD p 0 ≤ 850)).foldl max 0

/-- The offsets of a plan, from the needs of the 16 points in mV, rounded up to whole units of 2.5 mV (R526; log 39). -/
def planOffsets (need : List Nat) : List Int :=
  (List.range 16).map fun p => (ceilDiv (2 * need.getD p 0) 5 : Int) - (220 + 8 * (p : Int))

/-- The offset that a plan made now gives VDD_HUB (0) or VDD_SRAM (1), within ±25 mV (R525, R528). -/
def State.newOffset (s : State) (rail : Nat) : Int := max (-25) (min 25 (Config.railOffset rail s.flash.poh.toNat))

/-- The readings of the ring oscillators now: 64 of AD0, 16 of the hub and 64 of AD1 (R14), which a plan keeps as its baseline (R526). -/
def State.oscillators (s : State) : Tab Nat :=
  (List.range 144).foldl (fun t i => Tab.set (fun _ => 0) t i (Config.oscillator i s.flash.poh.toNat)) []

/-- Write an array's new plan: needs with the 30 mV guard as offsets, the oscillators' readings, FMAX_MHZ, and the array's bit of PENDING; the
hub's and SRAM's offsets are derived with it. With no bit left the plan is complete and its age restarts (R528, R529). -/
def State.writePlan (s : State) (a : Nat) (need : List Nat) : State :=
  let m := s.flash.margin
  let pending := BitVec.ofNat 10 (setBitOf m.pending.toNat a false % 256)
  { s with flash := { s.flash with
      planValid := s.flash.planValid || pending == 0
      margin := { offsets := Tab.set (fun _ => []) m.offsets a (planOffsets need)
                  baseline := s.oscillators
                  fmax := Tab.set (fun _ => 0) m.fmax a (BitVec.ofNat 8 (fmaxPoint need))
                  hubOff := s.newOffset 0
                  sramOff := s.newOffset 1
                  hours := if pending = 0 then s.flash.poh else m.hours
                  pending := pending } } }

/-- MARGIN_LOW for a plan that leaves less than 15 mV at 2,400 MHz; a plan that lowers FMAX_MHZ is one of these (R529). -/
def State.marginLow (s : State) (a : Nat) (need : List Nat) : State :=
  let n := need.getD 15 0
  if 835 < n then
    s.raise0 0x0604 srcMp (leBytes 1 a ++ leBytes 1 0 ++ leBytes 2 n ++ leBytes 2 (toBits 16 (850 - (n : Int)))
      ++ leBytes 2 (600 + 120 * fmaxPoint need) ++ leBytes 4 s.flash.margin.hours.toNat)
  else s

/-- REPLAN: the management processor re-plans a pending array that no RUN holds or requests; one that is requested is left for later. A
pending hub or SRAM domain alone is re-derived without touching the array (R528, R529). -/
def replan (a : Nat) (r : ReplanReading) (s : State) : State :=
  let pending := s.flash.margin.pending.toNat
  if s.boot.image.isNone then s
  else if bitOf pending a then
    if s.requested a then s
    else
      let need := r.needMv.map (· + 30)
      (((s.writePlan a need).marginLow a need).reclock a).service
  else if pending % 256 = 0 ∧ pending ≠ 0 then
    State.service { s with flash := { s.flash with margin := { s.flash.margin with
      pending := 0, hours := s.flash.poh, hubOff := s.newOffset 0, sramOff := s.newOffset 1 }, planValid := true } }
  else s

def execReplan (a : Fin 8) (r : ReplanReading) (s : State) : Host.Outcome State Fault Refusal := liveMp s (replan a.val r)

end Sys2Proof.Machine
end

