-- ==== Sys2Proof/Machine/Contexts.lean ====
section
/-!
DEFINITION. Contexts: creation, save, restore, teardown (R374-R382, R393, R394, R402, R639), and cyclic tables (R395-R399).
-/
namespace Sys2Proof.Machine

/-- A started command of the given class and operation that has not yet been performed. -/
def State.opCmd (s : State) (k : CmdKey) (cls op : Nat) : Option Cmd :=
  match s.cmd k with
  | some c => if c.cls = cls ∧ c.fld 0 1 = op ∧ c.phase = .started then some c else none
  | none => none

/-! CTX (R375, R393, R394). -/

/-- The open session under which a ring was made; 0xFF, the number of none, where that session has ended (R350). -/
def State.sessionOfRing (s : State) (ring : Nat) : Nat :=
  match s.ring ring with
  | some r => (match s.session r.session with | .opened _ _ _ _ => r.session | _ => 0xFF)
  | none => 0xFF

/-- CTX_CREATE: unless its identifier, objects or partitions have been taken since its validation, the context exists with the next generation,
idle, and the command completes with that generation (R350, R375, R376). -/
def ctxCreate (k : CmdKey) (s : State) : State :=
  match s.opCmd k 5 1 with
  | none => s
  | some c =>
    let x := ctxOfBlock c.block (s.sessionOfRing k.ring) (c.fld 2 2) (c.fld 4 2) (c.fld 1 1)
    if (s.ctx c.ctx).state ≠ 0 ∨ s.objsTaken x.syncBase x.syncCount ∨ s.partitionTaken x c.ctx then s.complete c 5 0 0
    else
      let gen := (s.ctx c.ctx).gen + 1
      (s.setCtx c.ctx { x with state := 1, gen := gen, holdsPart := true }).complete c 0 0 gen.toNat

def execCtxCreate (key : CmdKey) (s : State) : Host.Outcome State Fault Refusal := live s (ctxCreate key)

/-- Arrays on which a context reserves a partition. -/
def Ctx.resArrays (x : Ctx) : List Nat := maskList 8 x.resMask.toNat

/-- Address of a context's save slot for an array (R376). -/
def Ctx.slot (x : Ctx) (a : Nat) : Nat := if a < 4 then x.saveAd0 + a * x.saveSlot else x.saveAd1 + (a - 4) * x.saveSlot

/-- Address of the partition image in a save slot (R377). -/
def Ctx.imageAt (x : Ctx) (a : Nat) : Nat := x.slot a + 0x100_0000 + 1024 * x.saveKib

/-- Address and length of a context's partition on an array. -/
def Ctx.partAt (x : Ctx) (a : Nat) : Nat := windowBase a + 1024 * x.resOffKib
def Ctx.partLen (x : Ctx) : Nat := 1024 * x.resLenKib

/-- CTX_SAVE: once every started RUN of the context has completed, its partitions are written to their images and released, and the context is
saved (R393). One that is no longer idle or active is refused with STATUS 5 (log 24). -/
def ctxSave (k : CmdKey) (s : State) : State :=
  match s.opCmd k 5 2 with
  | none => s
  | some c =>
    let x := s.ctx c.ctx
    if s.runs.any fun r => r.ctx == c.ctx then s
    else if x.state ≠ 1 ∧ x.state ≠ 2 then s.complete c 5 0 0
    else
      let s := x.resArrays.foldl (fun (s : State) a => s.store (x.imageAt a) (s.rdN (x.partAt a) x.partLen)) s
      (s.setCtx c.ctx { x with state := 4, holdsPart := false }).complete c 0 0 0

def execCtxSave (key : CmdKey) (s : State) : Host.Outcome State Fault Refusal := live s (ctxSave key)

/-- CTX_RESTORE: the partitions are taken back and their images copied in; where another context has taken an overlapping partition, STATUS 2,
and the context stays saved (R394). -/
def ctxRestore (k : CmdKey) (s : State) : State :=
  match s.opCmd k 5 3 with
  | none => s
  | some c =>
    let x := s.ctx c.ctx
    if x.state ≠ 4 then s.complete c 5 0 0
    else if s.partitionTaken x c.ctx then s.complete c 2 0 0
    else
      let s := x.resArrays.foldl (fun (s : State) a => s.store (x.partAt a) (s.rdN (x.imageAt a) x.partLen)) s
      (s.setCtx c.ctx { x with state := 1, holdsPart := true }).complete c 0 0 0

def execCtxRestore (key : CmdKey) (s : State) : Host.Outcome State Fault Refusal := live s (ctxRestore key)

/-! Teardown (R402, R639). -/

/-- A running table that names a context stops: it releases nothing more, and what it released and had not started is dropped (R399). -/
def State.stopTable (s : State) (t : Nat) (cmd : Option CmdKey) : State :=
  let x := s.table t
  if x.state ≠ 2 then s
  else
    let gone (c : Cmd) : Bool := c.key.ring == 0x200 + t && c.phase == Phase.fetched
    let s := { s with
      sync := s.sync.forget fun w => (s.hif.cmds.filter gone).any fun c => w.ofCmd c.key
      hif := { s.hif with cmds := s.hif.cmds.filter fun c => !gone c } }
    (s.setTable t { x with
      periods := BitVec.ofNat 32 (x.begun s.now), state := 3, insts := x.insts.filter fun i => i.started.isSome, stopCmd := cmd }).settleTable t

/-- The tables that name a context. -/
def State.tablesOf (s : State) (c : Nat) : List Nat :=
  (List.range 8).filter fun t => (s.table t).entries.any fun e => e.ctx.toNat % 64 == c

/-- CTX_TEARDOWN: issue stops with no save, engines abandon, waits end, its tables stop, and every other fetched command of the context completes
with STATUS 3 and is counted (R402 steps 1 and 2). Arrays finish their issued tiles and pass with ARRAY_QUIESCENT. -/
def ctxTeardown (k : CmdKey) (s : State) : State :=
  match s.opCmd k 5 4 with
  | none => s
  | some c =>
    let n := c.ctx
    let x := s.ctx n
    if x.state = 0 ∨ x.state = 6 then s
    else
      let others (y : Cmd) : Bool := y.ofCtx n && y.key != k
      let s := s.setCtx n { x with state := 6, teardown := some k, discarded := (s.hif.cmds.filter others).length }
      let s := s.abandonCtx n
      let s := { s with runs := s.runs.filter fun (r : Run) => r.ctx != n }
      let s := (s.tablesOf n).foldl (fun s t => s.stopTable t none) s
      s.completeAll others 3

def execCtxTeardown (key : CmdKey) (s : State) : Host.Outcome State Fault Refusal := live s (ctxTeardown key)

/-- Does some array still hold work of a context that has no RUN any more? -/
def State.arraysBusy (s : State) (c : Nat) : Bool :=
  (List.range 8).any fun a => (s.array a).owner.isSome && (s.runOnArray a).isNone && (s.array a).lastCtx == some c

/-- Return a context's resources (R402 step 4): stream registrations, open objects, stashes, partition, objects with their waits, and the plans
that name it (R440). -/
def State.returnResources (s : State) (c : Nat) : State :=
  let x := s.ctx c
  let s := s.releaseStreams fun y => y.ctx == c
  let open_ := s.tier.objs.filter fun o => !o.sealed && o.ctx == c
  let s := open_.foldl (fun (s : State) o => s.removeObj o.id.toNat) s
  let s := { s with tier := { s.tier with
    stashes := s.tier.stashes.filter fun t => t.ctx != c, objs := s.tier.objs.filter fun o => !(o.stash && o.ctx == c) } }
  let s := State.refreshFlash s
  let plans := (s.red.plans.filter fun e => match e.2 with | some p => p.ctx.toNat % 64 == c | none => false).map Prod.fst
  let s := plans.foldl (fun (s : State) j => (s.leavePlan j).removePlan j) s
  { s with sync := { s.sync with
      objs := Tab.drop s.sync.objs fun o => decide (x.syncBase ≤ o) && decide (o < x.syncBase + x.syncCount)
      done := s.sync.done.filter fun w => !s.waitOfCtx c w } }

/-- The identifier becomes free; HIF_CTXc keeps its last generation, fault and ratio (R374, R402). -/
def State.freeCtx (s : State) (c : Nat) : State :=
  let x := s.ctx c
  s.setCtx c { Ctx.reset with gen := x.gen, fault := x.fault, slowdown := x.slowdown }

/-- CTX_TEARDOWN_DONE: once its arrays are quiescent, the context's resources are returned, the record is posted, the identifier becomes free
and the command completes, with CVEC as its only completion signal (R402, R639). -/
def ctxTeardownDone (k : CmdKey) (s : State) : State :=
  match s.opCmd k 5 4 with
  | none => s
  | some c =>
    let n := c.ctx
    let x := s.ctx n
    if x.state ≠ 6 ∨ x.teardown ≠ some k ∨ s.arraysBusy n then s
    else
      let id := s.ctxid n
      let s := (s.returnResources n).freeCtx n
      let s := s.raiseOn c.evring 0x0503 id srcSched
        (leBytes 4 c.tag ++ leBytes 2 x.gen.toNat ++ leBytes 2 0 ++ leBytes 4 x.discarded)
      let s := s.dropCmd k
      let s := if bitOf c.flags 2 then s.raiseCvec k.ring else s
      s.finishDelete k.ring

def execCtxTeardownDone (key : CmdKey) (s : State) : Host.Outcome State Fault Refusal := live s (ctxTeardownDone key)

/-! Cyclic tables (R395-R399). -/

/-- TABLE_INSTALL: the hub copies the table; one that runs or stops by now is refused with STATUS 5 (R395; log 24). -/
def tableInstall (k : CmdKey) (s : State) : State :=
  match s.opCmd k 4 1 with
  | none => s
  | some c =>
    let t := c.fld 1 1
    let x := s.table t
    let a := c.fld 8 8
    if 2 ≤ x.state then s.complete c 5 0 0
    else
      (s.setTable t { x with
        state := 1, period := s.rdLe a 4, prio := s.rdLe (a + 4) 1, insts := [], stopCmd := none
        entries := (List.range (c.fld 2 2)).map fun i => tableEntryOf (s.rdN (a + 32 + 32 * i) 32) }).performed k

def execTableInstall (key : CmdKey) (s : State) : Host.Outcome State Fault Refusal := live s (tableInstall key)

/-- TABLE_START: S is the count of the next reference period, and releases begin (R396). -/
def tableStart (k : CmdKey) (s : State) : State :=
  match s.opCmd k 4 2 with
  | none => s
  | some c =>
    let t := c.fld 1 1
    let x := s.table t
    if x.state ≠ 1 then s.complete c 5 0 0
    else
      (s.setTable t { x with
        state := 2, s := BitVec.ofNat 48 (s.now + 1), startNow := s.now + 1, nextEntry := 0, nextPeriod := 0, insts := [], periods := 0
        stopCmd := none }).performed k

def execTableStart (key : CmdKey) (s : State) : Host.Outcome State Fault Refusal := live s (tableStart key)

/-- TABLE_STOP: nothing more is released, and the command is performed once every started instance has completed; a table that does not run has
nothing to stop (R399). -/
def tableStop (k : CmdKey) (s : State) : State :=
  match s.opCmd k 4 3 with
  | none => s
  | some c =>
    let t := c.fld 1 1
    match (s.table t).state with
    | 2 => s.stopTable t (some k)
    | 3 => s
    | _ => s.performed k

def execTableStop (key : CmdKey) (s : State) : Host.Outcome State Fault Refusal := live s (tableStop key)

/-- Release time of the next entry (R396). -/
def CTable.nextRelease (x : CTable) : Nat :=
  x.startNow + x.nextPeriod * x.period + (match x.entries[x.nextEntry]? with | some e => e.offset | none => 0)

/-- TABLE_ENTRY_RELEASE: the next entry of a running table, at S + p × PERIOD + OFFSET (R396). -/
def tableEntryRelease (t : Nat) (s : State) : State :=
  let x := s.table t
  if x.state ≠ 2 ∨ s.now < x.nextRelease ∨ x.entries = [] then s
  else
    let wraps : Bool := x.nextEntry + 1 == x.entries.length
    s.setTable t { x with
      insts := x.insts ++ [{ entry := x.nextEntry, period := x.nextPeriod, release := x.nextRelease, started := none, overrun := false }]
      nextEntry := if wraps then 0 else x.nextEntry + 1
      nextPeriod := if wraps then x.nextPeriod + 1 else x.nextPeriod }

def execTableEntryRelease (t : Fin 8) (s : State) : Host.Outcome State Fault Refusal := live s (tableEntryRelease t.val)

/-- The previous instance of an instance, if it has not completed (R397). -/
def CTable.previous (x : CTable) (i : Instance) : Option Instance :=
  let (e, p) := if i.entry = 0 then (x.entries.length - 1, i.period - 1) else (i.entry - 1, i.period)
  if i.entry = 0 ∧ i.period = 0 then none else x.insts.find? fun j => j.entry == e && j.period == p

/-- May an instance start as far as its table's previous instance goes: completed when they share an array, else started (R397)? -/
def CTable.clear (x : CTable) (i : Instance) (arrays : Byte) : Bool :=
  match x.previous i with
  | none => true
  | some j =>
    let shared := match x.entries[j.entry]? with | some e => (e.arrays &&& arrays) != 0 | none => false
    !shared && j.started.isSome

/-- The descriptor of an entry's RUN: CTXID and ARRAYS from the entry, STEP from the period when it says so (R395, R397). -/
def State.entryDesc (s : State) (e : TableEntry) (period : Nat) : List Byte :=
  let d := s.rdN e.desc 64
  let step := if e.stepFromPeriod then leBytes 4 period else (d.drop 0x24).take 4
  d.take 2 ++ leBytes 2 e.ctx.toNat ++ (d.drop 4).take 0x1E ++ [e.arrays] ++ (d.drop 0x23).take 1 ++ step ++ d.drop 0x28

/-- Mark an instance's start. -/
def State.markStarted (s : State) (t : Nat) (i : Instance) : State :=
  let x := s.table t
  s.setTable t { x with insts := x.insts.map fun j => if j.entry = i.entry ∧ j.period = i.period then { j with started := some s.now } else j }

/-- Fetch and check an instance's RUN: a bad descriptor is rejected and counts as completed, and a faulted context completes it with
STATUS 2 (R382, R397). -/
def State.fetchInstance (s : State) (t : Nat) (i : Instance) (e : TableEntry) : State :=
  let k : CmdKey := ⟨0x200 + t, instanceCount i⟩
  let d := s.entryDesc e i.period
  let check : Check := if fieldAt d 0 1 ≠ 0 then some (2, 0) else s.validate none d
  match check with
  | some (reason, detail) => (s.rejectDesc k (s.rejectedCtx d reason) (fieldAt d 8 4) (fieldAt d 0x0C 1) reason detail).instanceDone k
  | none =>
    let c := newCmd k d
    if (s.ctx c.ctx).state = 5 then s.complete c 2 0 0 else if (s.ctx c.ctx).state = 6 then s.complete c 3 0 0
    else s.setCmds (s.hif.cmds ++ [c])

/-- Start a fetched instance under R345, at the table's priority. -/
def State.startInstance (s : State) (t : Nat) (i : Instance) (c : Cmd) : State :=
  let s := s.takeWaitobj c
  match s.cmd c.key with
  | some x =>
    if !x.taken || (s.ctx x.ctx).state = 4 || s.awaitsTraining x then s
    else
      let s := s.updCmd x.key fun y => { y with phase := .started, startedAt := s.now }
      (s.markStarted t i).request x (s.table t).prio
  | none => s

/-- TABLE_ENTRY_START: the oldest released instance that has not started, once its previous instance lets it (R397). -/
def tableEntryStart (t : Nat) (s : State) : State :=
  let x := s.table t
  match x.insts.find? fun i => i.started.isNone with
  | none => s
  | some i =>
    match x.entries[i.entry]? with
    | none => s
    | some e =>
      if x.state ≠ 2 ∨ !x.clear i e.arrays then s
      else
        let k : CmdKey := ⟨0x200 + t, instanceCount i⟩
        let s := if (s.cmd k).isSome then s else s.fetchInstance t i e
        match s.cmd k with
        | some c => s.startInstance t i c
        | none => s

def execTableEntryStart (t : Fin 8) (s : State) : Host.Outcome State Fault Refusal := live s (tableEntryStart t.val)

/-- SLOT_OVERRUN: an instance that has not completed BUDGET periods after its start, once (R398). -/
def slotOverrun (t : Nat) (s : State) : State :=
  let x := s.table t
  let late (i : Instance) : Bool :=
    match i.started, x.entries[i.entry]? with
    | some at_, some e => !i.overrun && decide (at_ + e.budget ≤ s.now)
    | _, _ => false
  match x.insts.find? late with
  | none => s
  | some i =>
    match i.started, x.entries[i.entry]? with
    | some at_, some e =>
      let s := s.setTable t { x with
        overruns := satInc x.overruns
        insts := x.insts.map fun j => if j.entry = i.entry ∧ j.period = i.period then { j with overrun := true } else j }
      s.raiseCtx (e.ctx.toNat % 64) 0x0501 srcSched
        (leBytes 1 t ++ leBytes 1 i.entry ++ leBytes 2 0 ++ leBytes 4 i.period ++ leBytes 4 e.budget ++ leBytes 4 (at_ - i.release))
    | _, _ => s

def execSlotOverrun (t : Fin 8) (s : State) : Host.Outcome State Fault Refusal := live s (slotOverrun t.val)

end Sys2Proof.Machine
end

