-- ==== Sys2Proof/Machine/Registers.lean ====
section
/-!
DEFINITION. BAR0 (spec/19_registers.md): what a write of each register does, by its fields' access types (R4, R5, R586), the registers with rows
of their own, and the debug block (R627-R629). While the function is in D3hot BAR accesses have no effect (R583; log 16).
-/
namespace Sys2Proof.Machine

/-- BAR0 answers: the function is not in D3hot, and no function reset runs (R539). -/
def State.barLive (s : State) : Bool := !s.hif.d3hot && !s.inFunctionReset

/-- A BAR0 write reaches its register only then. -/
def State.bar (s : State) (f : State → State) : State := if s.barLive then f s else s

/-- A BAR0 read likewise; while a function reset runs it returns all ones (R539). -/
def State.barRead (s : State) (f : State → State) : State :=
  if s.barLive then f s else if s.hif.d3hot then s else s.sendOut (.readData (BitVec.allOnes 64))

/-! Device configuration and memory set-up. -/

/-- DEVCFG (R371): COMPAT only without straps, submission rings and contexts; DETERMINISTIC only without contexts. -/
def State.writeDevcfg (s : State) (w : BarWrite) : State :=
  let v := mergeBar w (bar0Read s 0x10)
  { s with
    compat := if s.strapped || s.ringExists || s.contextExists then s.compat else bitOf v 0
    deterministic := if s.contextExists then s.deterministic else bitOf v 1 }

/-- MEM_HBM_ILV (R33). -/
def State.writeIlv (s : State) (w : BarWrite) : State :=
  let v := mergeBar w (bar0Read s 0x200000)
  if s.contextExists then s else { s with hbm := { s.hbm with ilvAd0 := bitOf v 0, ilvAd1 := bitOf v 1 } }

/-- MEM_HBM_ERRCFG, with the limits of its rows. -/
def State.writeErrcfg (s : State) (w : BarWrite) : State :=
  let v := mergeBar w (bar0Read s 0x200010)
  { s with hbm := { s.hbm with
    scrubHours := BitVec.ofNat 8 (clampNat 1 168 (bits v 48 8))
    ceReport := fieldBv 16 v 32
    ueCondemn := fieldBv 8 v 24
    ceCondemnLog2 := BitVec.ofNat 8 (clampNat 8 31 (bits v 16 8))
    pinMark := BitVec.ofNat 16 (atLeastOne (bits v 0 16)) } }

/-- MEM_SC_CFG (R296): only without contexts and plans. Another number of slices for the partition empties the shared cache, changed held lines
written back first (log 15). -/
def State.writeScCfg (s : State) (w : BarWrite) : State :=
  let v := mergeBar w (bar0Read s 0x200018)
  if s.contextExists || s.planExists then s
  else
    let slices := BitVec.ofNat 5 (min 16 (bits v 0 5))
    let u := if slices = s.hbm.rslotSlices then s else { s.writeHeldBack with hbm := { s.hbm with lines := [] } }
    { u with hbm := { u.hbm with ddrCache := bitOf v 8, rslotSlices := slices } }

/-! Host interface. -/

/-- HIF_EVBASEn: only while the ring is disabled. -/
def State.writeEvbase (s : State) (n : Nat) (w : BarWrite) : State :=
  let r := s.evring n
  if r.enable then s else s.setEvring n { r with base := fieldBv 52 (mergeBar w (fld 12 52 r.base.toNat)) 12 }

/-- Post the events that ring 0 was to carry since a module-scale reset, in order (R557). -/
def State.postHeld (s : State) : State :=
  let l := s.hif.held
  l.foldl (fun s e => s.place 0 e) { s with hif := { s.hif with held := [], holding := false } }

/-- HIF_EVCFGn (R355): SIZE_LOG2 only while the ring is disabled; enabling restarts W and H at 0. -/
def State.writeEvcfg (s : State) (n : Nat) (w : BarWrite) : State :=
  let r := s.evring n
  let v := mergeBar w (regEvcfg r)
  let t : EvRing := { r with
    coalUs := fieldBv 16 v 32, coalCount := fieldBv 8 v 24, vector := fieldBv 11 v 10
    sizeLog2 := if r.enable then r.sizeLog2 else BitVec.ofNat 4 (min 10 (fieldBv 4 v 1).toNat), enable := bitOf v 0 }
  if bitOf v 0 && !r.enable then
    let s := s.setEvring n { t with w := 0, h := 0, sinceIrq := 0, firstAt := none, dropping := false }
    if n = 0 then s.postHeld else s
  else s.setEvring n t

/-- HIF_ADMIN_BASE: only while the admin ring is disabled. -/
def State.writeAdminBase (s : State) (w : BarWrite) : State :=
  let r := s.hif.admin
  if r.enable then s
  else { s with hif := { s.hif with admin := { r with base := fieldBv 52 (mergeBar w (fld 12 52 r.base.toNat)) 12 } } }

/-- HIF_ADMIN_CFG (R637): enabling restarts head and tail and clears a stop. -/
def State.writeAdminCfg (s : State) (w : BarWrite) : State :=
  let r := s.hif.admin
  let v := mergeBar w (regAdminCfg r)
  let t : AdminRing := if r.enable then { r with enable := bitOf v 0 }
    else { r with headptr := fieldBv 61 v 3, size := fieldBv 2 v 1, enable := bitOf v 0 }
  let t : AdminRing := if bitOf v 0 && !r.enable then { t with head := 0, tail := 0, stopped := false } else t
  { s with hif := { s.hif with admin := t } }

/-- HIF_BAR4_WIN: bits of BASE below the BAR4 size are ignored (R588). -/
def State.writeBar4Win (s : State) (w : BarWrite) : State :=
  let v := bits (mergeBar w (regBar4 s.hif)) 30 18
  { s with hif := { s.hif with bar4Base := BitVec.ofNat 18 (v / 2 ^ s.hif.bar4Log2Gib * 2 ^ s.hif.bar4Log2Gib) } }

/-- A vector that waits is sent once neither its mask nor the function mask holds it (R589). -/
def State.flushVector (s : State) (v : Nat) : State :=
  let e := Tab.get (fun _ => MsixEntry.reset) s.hif.msix v
  if e.pending && !e.masked && !s.hif.functionMask && s.hif.up then
    ({ s with hif := { s.hif with msix := Tab.set (fun _ => MsixEntry.reset) s.hif.msix v { e with pending := false } } }).sendOut (.msix v)
  else s

/-- A write of the MSI-X table (R589): half 0 is the message address, half 1 the message data and the vector control word. -/
def State.writeMsix (s : State) (v half : Nat) (w : BarWrite) : State :=
  let e := Tab.get (fun _ => MsixEntry.reset) s.hif.msix v
  let x := mergeBar w (regMsix e half)
  let e : MsixEntry := if half = 0 then { e with addr := BitVec.ofNat 64 x } else { e with data := BitVec.ofNat 32 x, masked := bitOf x 32 }
  ({ s with hif := { s.hif with msix := Tab.set (fun _ => MsixEntry.reset) s.hif.msix v e } }).flushVector v

/-! Arrays and power. -/

/-- ARRn_CLK.TARGET_MHZ: 600 to 2,400 in steps of 25; a lower frequency applies at once, a higher one when the rail has reached it (R93, R507). -/
def State.writeArrClk (s : State) (a : Nat) (w : BarWrite) : State :=
  let v := clampNat 600 2400 (bits (mergeBar w (s.array a).targetMhz.toNat) 0 12) / 25 * 25
  (s.setArray a { s.array a with targetMhz := BitVec.ofNat 12 v }).reclock a

/-- ARRn_WDOG. -/
def State.writeArrWdog (s : State) (a : Nat) (w : BarWrite) : State :=
  let v := mergeBar w (regArrWdog (s.array a))
  s.setArray a { s.array a with wdogEn := bitOf v 31, wdogLimit := BitVec.ofNat 24 (max 100 (bits v 0 24)) }

/-- PWR_CAP.WATTS: 1,200 to MAX_W (R504). -/
def State.writeCap (s : State) (w : BarWrite) : State :=
  let v := bits (mergeBar w (fld 32 16 s.pwr.maxW.toNat + s.pwr.capW.toNat)) 0 16
  { s with pwr := { s.pwr with capW := BitVec.ofNat 16 (clampNat 1200 s.pwr.maxW.toNat v) } }

/-- PWR_DROOP_CFG. -/
def State.writeDroopCfg (s : State) (w : BarWrite) : State :=
  let v := mergeBar w (bar0Read s 0x400010)
  { s with pwr := { s.pwr with
    summaryMs := BitVec.ofNat 32 (atLeastOne (bits v 32 32)), stretch := fieldBv 2 v 8
    droopMv := BitVec.ofNat 8 (clampNat 10 80 (bits v 0 8)) } }

/-- PWR_IO. -/
def State.writePwrIo (s : State) (w : BarWrite) : State :=
  { s with pwr := { s.pwr with fast := fieldBv 8 (mergeBar w s.pwr.fast.toNat) 0 } }

/-- CLK_SSC: taken at the next warm module reset (R531). -/
def State.writeSsc (s : State) (w : BarWrite) : State :=
  { s with pwr := { s.pwr with sscNext := bitOf (mergeBar w (bit s.pwr.sscNext)) 0 } }

/-! Fabric. -/

/-- FAB_DEVID.HOPLIMIT. -/
def State.writeDevid (s : State) (w : BarWrite) : State :=
  { s with fab := { s.fab with hopLimit := BitVec.ofNat 8 (atLeastOne (bits (mergeBar w (bar0Read s 0x300000)) 16 8)) } }

/-- FAB_ETH. -/
def State.writeEth (s : State) (w : BarWrite) : State :=
  let v := mergeBar w (bar0Read s 0x300010)
  { s with fab := { s.fab with tagged := bitOf v 63, vlan := fieldBv 12 v 48, etherType := fieldBv 16 v 32, pfx := fieldBv 32 v 0 } }

def State.setRoute (s : State) (entry : Nat) (v : BitVec 16) : State :=
  if entry < 256 then { s with fab := { s.fab with groups := Tab.set (fun _ => 0) s.fab.groups entry v } }
  else { s with fab := { s.fab with members := Tab.set (fun _ => 0) s.fab.members (entry - 256) v } }

/-- FAB_ROUTE_GRPg for entries 0-255, FAB_ROUTE_MBRm for 256-511 (R426). -/
def State.writeRoute (s : State) (entry : Nat) (w : BarWrite) : State :=
  let old := if entry < 256 then Tab.get (fun _ => (0 : BitVec 16)) s.fab.groups entry
    else Tab.get (fun _ => (0 : BitVec 16)) s.fab.members (entry - 256)
  s.setRoute entry (fieldBv 16 (mergeBar w old.toNat) 0)

/-! Resets. -/

/-- RST_WDOG. -/
def State.writeRstWdog (s : State) (w : BarWrite) : State :=
  let v := mergeBar w (regRstWdog s.rst)
  { s with rst := { s.rst with
    cpEn := bitOf v 63, ferryEn := bitOf v 62, creditEn := bitOf v 61, cpMs := BitVec.ofNat 16 (clampNat 10 60000 (bits v 32 16))
    creditMs := BitVec.ofNat 16 (atLeastOne (bits v 16 16)), ferryMs := BitVec.ofNat 16 (atLeastOne (bits v 0 16)) } }

/-- RST_ESC. -/
def State.writeEsc (s : State) (w : BarWrite) : State :=
  let v := mergeBar w (regEsc s)
  { s with rst := { s.rst with
    arrWindowS := BitVec.ofNat 8 (atLeastOne (bits v 8 8)), arrLimit := BitVec.ofNat 4 (atLeastOne (bits v 4 4)) } }

/-- RST_DUMP.VALID: a 1 clears it. -/
def State.writeDump (s : State) (w : BarWrite) : State :=
  if bitOf (onesOf w) 63 then { s with rst := { s.rst with dumpValid := false } } else s

/-- RST_CAPCFGa. -/
def State.writeCapcfg (s : State) (a : Nat) (w : BarWrite) : State :=
  let v := mergeBar w (regCapcfg s.rst a)
  { s with rst := { s.rst with capLen := Tab.set (fun _ => 0) s.rst.capLen a (fieldBv 16 v 16)
                               capOff := Tab.set (fun _ => 0) s.rst.capOff a (fieldBv 16 v 0) } }

/-! Telemetry. -/

/-- Copy every TEL_STALL counter into its snapshot copy (R256). -/
def State.doSnap (s : State) : State := if s.tel.busy then s else { s with tel := { s.tel with snap := s.tel.live } }

/-- Set every TEL_STALL counter to 0. -/
def State.doClear (s : State) : State := if s.tel.busy then s else { s with tel := { s.tel with live := [] } }

/-- TEL_STALL_CTL: VIEW; then SNAP, then CLEAR where a write asks for both (log 16). -/
def State.writeTelCtl (s : State) (w : BarWrite) : State :=
  let s := { s with tel := { s.tel with view := bitOf (mergeBar w (8 * bit s.tel.view)) 3 } }
  let s := if bitOf (onesOf w) 0 then s.doSnap else s
  if bitOf (onesOf w) 1 then s.doClear else s

/-! Check-value units. -/

/-- A register of a check-value unit; writes are ignored while it is busy (R337). -/
def Chk.write (c : Chk) (o : Nat) (w : BarWrite) : Chk :=
  let v := mergeBar w (regChk c o)
  if c.owner.isSome then c
  else
    match o with
    | 0x00 => { c with
        entriesLog2 := BitVec.ofNat 8 (min 24 (bits v 32 8)), chunkLog2 := BitVec.ofNat 5 (clampNat 9 24 (bits v 24 5))
        tap := bitOf v 14, addrSide := bitOf v 13, fold := bitOf v 12, invert := bitOf v 11, refout := bitOf v 10, refin := bitOf v 9
        width := BitVec.ofNat 7 (clampNat 8 64 (bits v 0 7)) }
    | 0x08 => { c with poly := BitVec.ofNat 64 v }
    | 0x10 => { c with init := BitVec.ofNat 64 v }
    | 0x18 => { c with resbase := BitVec.ofNat 64 v }
    | 0x20 => { c with seq := BitVec.ofNat 64 v }
    | 0x28 => { c with index := fieldBv 32 v 0 }
    | _ => c

def State.writeChk (s : State) (u o : Nat) (w : BarWrite) : State :=
  { s with chk := Tab.modify (fun _ => Chk.reset) s.chk u fun c => c.write o w }

/-! Debug access (R627-R629). -/

/-- DBG_CTL: ENABLE takes a 1 only with the DEBUG flag of the configuration record and an open session (R627). -/
def State.writeDbgCtl (s : State) (w : BarWrite) : State :=
  let v := mergeBar w (bit s.dbg.enable)
  let allowed := (match s.boot.cfg with | some c => bitOf c.flags.toNat 0 | none => false) && s.anyOpen
  let en := if bitOf v 0 && !s.dbg.enable then allowed else bitOf v 0
  { s with dbg := { s.dbg with enable := en, err := s.dbg.err && !bitOf (onesOf w) 2 } }

/-- DBG_ADDR. -/
def State.writeDbgAddr (s : State) (w : BarWrite) : State :=
  let v := mergeBar w (bar0Read s 0x700008)
  { s with dbg := { s.dbg with space := bitOf v 63, addr := fieldBv 53 v 3 } }

/-- The device address of the dump area: the upper 256 MiB of the 512 MiB reserve above the usable DDR5 (R299, R554). -/
def State.dumpBase (s : State) : Nat := 2 ^ 48 + s.tier.ddrUsableMib.toNat * 2 ^ 20 + 2 ^ 28

def State.dbgAdvance (s : State) : State := { s with dbg := { s.dbg with addr := s.dbg.addr + 1 } }
def State.dbgErr (s : State) : State := { s with dbg := { s.dbg with err := true } }

/-- Hold a bank access until the next tile boundary. -/
def State.holdAccess (s : State) (n : Nat) (w : WinAccess) : State :=
  s.setArray n { s.array n with window := (s.array n).window ++ [w] }

/-- The engine number under which debug accesses stand in an in-order queue; no engine has it. -/
def dbgTag : Nat := 0x200

/-- A debug access has completed: DBG_ADDR advances, and a read that gives no data reads as all ones. -/
def State.dbgOver (s : State) (read : Option DWord) : State :=
  let s := State.dbgAdvance { s with dbg := { s.dbg with busy := false } }
  match read with | some v => s.sendOut (.readData v) | none => s

/-- Begin a debug access at DBG_ADDR (R628, R629): one of HBM takes the in-order path, and one of a bank whose array runs a tile waits for the tile
boundary. Refused accesses set ERR and read as all ones; the address advances after them too (log 16). -/
def State.dbgStart (s : State) (write : Option DWord) : State :=
  let ones : Option DWord := match write with | none => some (BitVec.allOnes 64) | some _ => none
  let a := 8 * s.dbg.addr.toNat
  let bytes : List Byte := match write with | some v => leBytes 8 v.toNat | none => []
  if !s.dbg.enable then (match ones with | some v => s.sendOut (.readData v) | none => s)
  else if s.dbg.space then
    if 2 ^ 28 ≤ a then s.dbgErr.dbgOver ones
    else
      match write with
      | none => s.dbgOver (some (BitVec.ofNat 64 (leNat (s.mem.readN (s.dumpBase + a) 8))))
      | some _ => s.dbgOver none
  else if !s.mappedRange a 8 then s.dbgErr.dbgOver ones
  else if region a = 3 then
    match write with
    | some v => (s.wrSlot a v).dbgOver none
    | none => s.dbgOver (some (s.rdSlot a))
  else if s.fenced write.isSome a 8 || (write.isSome && match s.objAt a 8 with | some o => o.sealed | none => false) then s.dbgErr.dbgOver ones
  else if isHbm a then
    State.acceptInOrder { s with dbg := { s.dbg with busy := true } } { addr := a, data := bytes, size := 8, isWrite := write.isSome, tag := dbgTag }
  else if s.bankBusy a then
    { s.holdAccess (regionOff a / 0x400_0000) { offset := regionOff a % 0x400_0000, size := 8, isWrite := write.isSome, data := bytes } with
      dbg := { s.dbg with busy := true } }
  else
    match write with
    | some v => (s.storeLe a 8 v.toNat).dbgOver none
    | none =>
      if s.poisonIn a 8 then (s.reportPoison a 8).dbgErr.dbgOver ones
      else s.dbgOver (some (BitVec.ofNat 64 (s.rdLe a 8)))

/-- Begin the accesses that wait, oldest first, until one takes time (R628). -/
def State.dbgServe : Nat → State → State
  | 0, s => s
  | n + 1, s =>
    if s.dbg.busy then s
    else match s.dbg.waiting with
      | [] => s
      | w :: rest => State.dbgServe n (State.dbgStart { s with dbg := { s.dbg with waiting := rest } } w)

/-- An access of DBG_DATA: served at once, or after those that came before it. -/
def State.dbgAccess (s : State) (write : Option DWord) : State :=
  State.dbgServe (s.dbg.waiting.length + 1) { s with dbg := { s.dbg with waiting := s.dbg.waiting ++ [write] } }

/-- The access in progress has completed, with what a read gives; the next ones are served. -/
def State.dbgDone (s : State) (read : Option DWord) : State :=
  if !s.dbg.busy then s else State.dbgServe s.dbg.waiting.length (s.dbgOver read)

/-- The answer of an in-order access that has been served: to the debug block, or as the completion of a read. -/
def State.inOrderDone (s : State) (r : HbmPending) : State :=
  if r.req.tag = dbgTag then
    if r.req.isWrite then s.dbgDone none
    else if r.bad then (if s.dbg.busy then s.dbgErr else s).dbgDone (some (BitVec.allOnes 64))
    else s.dbgDone (some (BitVec.ofNat 64 (leNat r.req.data)))
  else if r.req.isWrite then s
  else s.sendOut (if r.bad then .readPoisoned else .readBytes r.req.data)

/-- IN_ORDER_ACCESS: a management access takes the stack's in-order queue, or the head of the queue takes the next free slot of its bank and is
served. -/
def inOrderAccess (n : Nat) (access : Option HbmReq) (s : State) : State :=
  match access with
  | some q => s.acceptInOrder q
  | none =>
    let k := s.stack n
    match k.inorder with
    | [] => s
    | r :: rest =>
      match s.pcPlace r.req.addr with
      | none => (s.setStack n { k with inorder := rest }).nextInOrder n
      | some (_, q, b, row) =>
        let p := k.pc q
        if (k.chan (q / 2)).resetAt.isSome || r.behind p.window
            || decide (16 ≤ (p.window.filter fun t => t.slotted && (s.bankRow t).1 == b).length) then s
        else
          let p := { p with openRows := Tab.set (fun _ => none) p.openRows b (some row) }
          let s := s.setStack n ({ k with inorder := rest }.setPc q p)
          let later := (rest ++ p.window).filter fun t => decide (r.seq < t.seq)
          let (r, s) := if r.req.isWrite then
              (r, r.cws.foldl (fun s cw => if s.lineHeld (32 * cw) then s.useLine (cw / 8) true true else s.writeCodeword cw [r] (r :: later)) s)
            else s.inorderRead r later
          (s.nextInOrder n).inOrderDone r

def execInOrderAccess (c : InOrderCmd) (s : State) : Host.Outcome State Fault Refusal := live s (inOrderAccess c.stack.val c.access)

/-! The write of any register (R624). -/
/-! The write of any register (R624). -/

/-- A write of array n's block. -/
def State.writeArr (s : State) (a o : Nat) (w : BarWrite) : State :=
  match o with
  | 0x00 => s.writeArrClk a w
  | 0x18 => s.writeArrWdog a w
  | _ => s

/-- A write of port p's block. -/
def State.writePort (s : State) (p o : Nat) (w : BarWrite) : State :=
  match o with
  | 0x00 => s.writePortCfg p (mergeBar w (regPortCfg (s.port p)))
  | 0x10 => s.writeVcbuf p (mergeBar w (regVcbuf (s.port p)))
  | _ => s

/-- What a write of a register does; an offset without a register, and a register with read-only fields alone, ignore it. -/
def State.writeReg (s : State) (off : Nat) (w : BarWrite) : State :=
  if off % 8 ≠ 0 then s
  else if off = 0x10 then s.writeDevcfg w
  else if 0x20000 ≤ off ∧ off < 0x20200 then
    (match (off - 0x20000) % 0x20 with
     | 0x00 => s.writeEvbase ((off - 0x20000) / 0x20) w
     | 0x08 => s.writeEvcfg ((off - 0x20000) / 0x20) w
     | _ => s)
  else if off = 0x20200 then s.writeAdminBase w
  else if off = 0x20208 then s.writeAdminCfg w
  else if off = 0x20408 then s.writeBar4Win w
  else if 0x30000 ≤ off ∧ off < 0x38000 then s.writeMsix ((off - 0x30000) / 0x10) ((off - 0x30000) % 0x10 / 8) w
  else if 0x100000 ≤ off ∧ off < 0x180000 then s.writeArr ((off - 0x100000) / 0x10000) (off % 0x10000) w
  else if off = 0x200000 then s.writeIlv w
  else if off = 0x200010 then s.writeErrcfg w
  else if off = 0x200018 then s.writeScCfg w
  else if off = 0x300000 then s.writeDevid w
  else if off = 0x300010 then s.writeEth w
  else if 0x301000 ≤ off ∧ off < 0x301400 then s.writePort ((off - 0x301000) / 0x40) (off % 0x40) w
  else if 0x310000 ≤ off ∧ off < 0x311000 then s.writeRoute ((off - 0x310000) / 8) w
  else if off = 0x400000 then s.writeCap w
  else if off = 0x400010 then s.writeDroopCfg w
  else if off = 0x400040 then s.writePwrIo w
  else if off = 0x410008 then s.writeRstWdog w
  else if off = 0x410010 then s.writeEsc w
  else if off = 0x410020 then s.writeDump w
  else if 0x410040 ≤ off ∧ off < 0x410080 then s.writeCapcfg ((off - 0x410040) / 8) w
  else if off = 0x420000 then s.writeSsc w
  else if off = 0x500000 then s.writeTelCtl w
  else if 0x600000 ≤ off ∧ off < 0x600400 then s.writeChk ((off - 0x600000) / 0x40) (off % 0x40) w
  else if off = 0x700000 then s.writeDbgCtl w
  else if off = 0x700008 then s.writeDbgAddr w
  else if off = 0x700010 ∧ w.half = .full then s.dbgAccess (some w.value)
  else s

/-! The rows. -/

/-- REGISTER_WRITE (R4, R5, R586). -/
def registerWrite (offset : Nat) (w : BarWrite) (s : State) : State := s.bar fun s => s.writeReg offset w
def execRegisterWrite (offset : Nat) (w : BarWrite) (s : State) : Host.Outcome State Fault Refusal := live s (registerWrite offset w)

/-- An access that BAR0 does not accept: not 4 or 8 bytes, or not aligned (R586). -/
def badAccess (offset size : Nat) : Bool := !((size == 4 || size == 8) && offset % size == 0)

/-- BAR0_BAD_ACCESS: a read returns all ones, and nothing else happens. An access that R586 accepts is not this row's. -/
def bar0BadAccess (offset size : Nat) (isWrite : Bool) (s : State) : State :=
  if badAccess offset size && !isWrite then s.sendOut (.readData (BitVec.allOnes 64)) else s
def execBar0BadAccess (offset size : Nat) (isWrite : Bool) (s : State) : Host.Outcome State Fault Refusal :=
  live s (bar0BadAccess offset size isWrite)

/-- EVCFG_READ_CLEAR: a read of HIF_EVCFGn returns it and clears LOST and HEADERR where the access reaches them (R4). -/
def evcfgReadClear (n : Nat) (half : Half) (s : State) : State := s.barRead fun s =>
  let r := s.evring n
  let s := s.sendOut (.readData (halfOf half (regEvcfg r)))
  s.setEvring n { r with lost := if reaches half 48 then 0 else r.lost, headErr := if reaches half 5 then 0 else r.headErr }
def execEvcfgReadClear (n : Fin 16) (half : Half) (s : State) : Host.Outcome State Fault Refusal := live s (evcfgReadClear n.val half)

/-- BAR4_WIN_READ_CLEAR: a read of HIF_BAR4_WIN returns it and clears UNMAPPED (R4). -/
def bar4WinReadClear (half : Half) (s : State) : State := s.barRead fun s =>
  let s := s.sendOut (.readData (halfOf half (regBar4 s.hif)))
  if reaches half 48 then { s with hif := { s.hif with unmapped := 0 } } else s
def execBar4WinReadClear (half : Half) (s : State) : Host.Outcome State Fault Refusal := live s (bar4WinReadClear half)

/-- MEM_HBM_ILV_WRITE. -/
def memHbmIlvWrite (w : BarWrite) (s : State) : State := s.bar fun s => s.writeIlv w
def execMemHbmIlvWrite (w : BarWrite) (s : State) : Host.Outcome State Fault Refusal := live s (memHbmIlvWrite w)

/-- MEM_SC_CFG_WRITE. -/
def memScCfgWrite (w : BarWrite) (s : State) : State := s.bar fun s => s.writeScCfg w
def execMemScCfgWrite (w : BarWrite) (s : State) : Host.Outcome State Fault Refusal := live s (memScCfgWrite w)

/-- DEVCFG_WRITE. -/
def devcfgWrite (w : BarWrite) (s : State) : State := s.bar fun s => s.writeDevcfg w
def execDevcfgWrite (w : BarWrite) (s : State) : Host.Outcome State Fault Refusal := live s (devcfgWrite w)

/-- ARRN_CLK_WRITE. -/
def arrnClkWrite (a : Nat) (w : BarWrite) (s : State) : State := s.bar fun s => s.writeArrClk a w
def execArrnClkWrite (a : Fin 8) (w : BarWrite) (s : State) : Host.Outcome State Fault Refusal := live s (arrnClkWrite a.val w)

/-- PWR_CAP_WRITE. -/
def pwrCapWrite (w : BarWrite) (s : State) : State := s.bar fun s => s.writeCap w
def execPwrCapWrite (w : BarWrite) (s : State) : Host.Outcome State Fault Refusal := live s (pwrCapWrite w)

/-- FAB_PORT_CFG_WRITE. -/
def fabPortCfgWrite (p : Nat) (w : BarWrite) (s : State) : State := s.bar fun s => s.writePort p 0x00 w
def execFabPortCfgWrite (p : Fin 16) (w : BarWrite) (s : State) : Host.Outcome State Fault Refusal := live s (fabPortCfgWrite p.val w)

/-- FAB_PORT_VCBUF_WRITE. -/
def fabPortVcbufWrite (p : Nat) (w : BarWrite) (s : State) : State := s.bar fun s => s.writePort p 0x10 w
def execFabPortVcbufWrite (p : Fin 16) (w : BarWrite) (s : State) : Host.Outcome State Fault Refusal := live s (fabPortVcbufWrite p.val w)

/-- FAB_ROUTE_WRITE. -/
def fabRouteWrite (entry : Nat) (w : BarWrite) (s : State) : State := s.bar fun s => s.writeRoute entry w
def execFabRouteWrite (entry : Fin 512) (w : BarWrite) (s : State) : Host.Outcome State Fault Refusal := live s (fabRouteWrite entry.val w)

/-- HIF_EVCFG_ENABLE. -/
def hifEvcfgEnable (n : Nat) (w : BarWrite) (s : State) : State := s.bar fun s => s.writeEvcfg n w
def execHifEvcfgEnable (n : Fin 16) (w : BarWrite) (s : State) : Host.Outcome State Fault Refusal := live s (hifEvcfgEnable n.val w)

/-- HIF_ADMIN_ENABLE. -/
def hifAdminEnable (w : BarWrite) (s : State) : State := s.bar fun s => s.writeAdminCfg w
def execHifAdminEnable (w : BarWrite) (s : State) : Host.Outcome State Fault Refusal := live s (hifAdminEnable w)

/-- HIF_BAR4_WIN_WRITE. -/
def hifBar4WinWrite (w : BarWrite) (s : State) : State := s.bar fun s => s.writeBar4Win w
def execHifBar4WinWrite (w : BarWrite) (s : State) : Host.Outcome State Fault Refusal := live s (hifBar4WinWrite w)

/-- SNAP. -/
def snap (s : State) : State := s.bar State.doSnap
def execSnap (s : State) : Host.Outcome State Fault Refusal := live s snap

/-- CLEAR. -/
def clear (s : State) : State := s.bar State.doClear
def execClear (s : State) : Host.Outcome State Fault Refusal := live s clear

/-- DBG_ENABLE_WRITE. -/
def dbgEnableWrite (w : BarWrite) (s : State) : State := s.bar fun s => s.writeDbgCtl w
def execDbgEnableWrite (w : BarWrite) (s : State) : Host.Outcome State Fault Refusal := live s (dbgEnableWrite w)

/-- DBG_DATA_READ. -/
def dbgDataRead (s : State) : State := s.barRead fun s => s.dbgAccess none
def execDbgDataRead (s : State) : Host.Outcome State Fault Refusal := live s dbgDataRead

/-- DBG_DATA_WRITE. -/
def dbgDataWrite (value : DWord) (s : State) : State := s.bar fun s => s.dbgAccess (some value)
def execDbgDataWrite (value : DWord) (s : State) : Host.Outcome State Fault Refusal := live s (dbgDataWrite value)

/-- EVENT_COAL_TIMEOUT: COAL_US after the first record since the last interrupt, the ring's vector is raised (R360). -/
def eventCoalTimeout (n : Nat) (s : State) : State :=
  let r := s.evring n
  match r.firstAt with
  | some t =>
    if r.coalUs ≠ 0 ∧ r.sinceIrq ≠ 0 ∧ t + 100 * r.coalUs.toNat ≤ s.now then
      (s.setEvring n { r with sinceIrq := 0, firstAt := none }).msix r.vector.toNat
    else s
  | none => s
def execEventCoalTimeout (n : Fin 16) (s : State) : Host.Outcome State Fault Refusal := live s (eventCoalTimeout n.val)

/-- MSIX_UNMASK: a vector or the function is unmasked, and what waits is sent (R589). -/
def msixUnmask (u : Unmask) (s : State) : State :=
  match u with
  | .vector v =>
    let e := Tab.get (fun _ => MsixEntry.reset) s.hif.msix v.val
    ({ s with hif := { s.hif with msix := Tab.set (fun _ => MsixEntry.reset) s.hif.msix v.val { e with masked := false } } }).flushVector v.val
  | .function =>
    let s := { s with hif := { s.hif with functionMask := false } }
    s.hif.msix.foldl (fun s e => s.flushVector e.1) s
def execMsixUnmask (u : Unmask) (s : State) : Host.Outcome State Fault Refusal := live s (msixUnmask u)

end Sys2Proof.Machine
end

