-- ==== Sys2Proof/Machine/Resets.lean ====
section
/-!
DEFINITION. Resets, watchdogs, sample capture, boot and recovery (R533-R573). A source requests a reset; the reset rows perform it; RESET_STRETCH_END
runs the boot ROM; HBM_TRAINED and RESET_DONE bring the module back into service.
-/
namespace Sys2Proof.Machine

/-- What acts even after boundary cells have driven the outputs: the cold module reset and the sources that lead to it (R598). -/
def always (s : State) (f : State → State) : Host.Outcome State Fault Refusal := .next { f s with pending := s.pending }

/-! Small resets (R535-R538). -/

/-- Request an array, port or HBM channel reset; one for a unit that is in such a reset, or under a larger one, is absorbed (R535). -/
def State.requestSmall (s : State) (r : SmallReset) : State :=
  if s.resetScope ≠ 0 ∨ (s.rst.small.any fun q => q.scope == r.scope && q.index == r.index) then s
  else { s with rst := { s.rst with small := s.rst.small ++ [r] } }

def State.dropSmall (s : State) (r : SmallReset) : State := { s with rst := { s.rst with small := s.rst.small.filter fun q => q != r } }

/-- RESET_DONE of R557. -/
def State.raiseDone (s : State) (scope source index watchdog flags mapped began : Nat) : State :=
  s.raise0 0x0702 srcReset
    (leBytes 1 scope ++ leBytes 1 source ++ leBytes 1 index ++ leBytes 1 watchdog ++ leBytes 1 flags ++ leBytes 1 s.flash.count24
      ++ leBytes 1 mapped ++ leBytes 1 0 ++ leBytes 4 ((s.now - began) / 100000))

/-- A small reset has completed: RESET_DONE, and COMMAND_DONE of the admin RESET that asked for it (R541, R557). -/
def State.smallDone (s : State) (r : SmallReset) (index : Nat) : State :=
  let s := (s.dropSmall r).raiseDone r.scope r.source index r.watchdog (8 * bit s.flash.oos) 0 r.at_
  match r.req with
  | some q => s.answerAdmin q 0 []
  | none => s

/-- A small reset has begun; it is held for 100 µs (R534). -/
def State.beginSmall (s : State) (r : SmallReset) : State :=
  { s with rst := { s.rst with small := s.rst.small.map fun q => if q = r then { q with began := some s.now } else q } }

/-- A port leaves reset: it begins to train once its receive buffer is empty (R432, R533). -/
def State.portLeaves (s : State) (p : Nat) : State :=
  let x := s.port p
  if x.state = 5 ∧ x.mode ≠ 0 ∧ s.boot.level ≠ 0 ∧ !s.portStays p then s.setPort p (x.train s.now) else s

/-- The array and port resets that have been held for 100 µs complete (R534, R557). -/
def State.endSmall (s : State) : State :=
  s.rst.small.foldl (fun (s : State) r =>
    match r.began with
    | some t =>
      if s.now < t + 10000 then s
      else
        let s := s.smallDone r r.index
        if r.scope = 2 then s.portLeaves r.index else s
    | none => s) s

/-- HANG_DETECTED (R548). -/
def State.raiseHang (s : State) (watchdog unit action cause : Nat) (ctx : BitVec 16) (detail : Nat) : State :=
  s.raise0 0x0701 srcReset
    (leBytes 1 watchdog ++ leBytes 1 unit ++ leBytes 1 action ++ leBytes 1 cause ++ leBytes 2 ctx.toNat ++ leBytes 2 0 ++ leBytes 8 detail)

/-- A watchdog whose action is a warm module reset: escalation with capture, counted (R540, R547). -/
def State.fireWarm (s : State) (watchdog unit cause : Nat) (ctx : BitVec 16) (detail : Nat) : State :=
  (s.raiseHang watchdog unit 4 cause ctx detail).requestWarm 10 unit watchdog true true

/-- Has an array had its limit of watchdog resets (R549)? -/
def State.arrayAtLimit (s : State) (a : Nat) : Bool := decide (s.rst.arrLimit.toNat ≤ s.arrResets a)

/-- Watchdog 1 or 2 fires on an array: its reset is requested; on one that has had its limit, ACTION is 4 and ARRAY_RESET_ESCALATE follows. -/
def State.fireArray (s : State) (a watchdog cause : Nat) (ctx : BitVec 16) (detail : Nat) : State :=
  (s.raiseHang watchdog a (if s.arrayAtLimit a then 4 else 1) cause ctx detail).requestSmall
    { scope := 1, index := a, source := 10, watchdog := watchdog, at_ := s.now, req := none }

/-- The array sequencer's state after an array reset: every register of its reset scope, with what R536 and R533 leave alone. -/
def ArrayUnit.afterReset (x : ArrayUnit) : ArrayUnit :=
  { ArrayUnit.reset with
    targetMhz := x.targetMhz, wdogEn := x.wdogEn, wdogLimit := x.wdogLimit, lastCtx := x.lastCtx, paused := x.paused
    detectors := x.detectors, stretching := x.stretching, stretchFrom := x.stretchFrom, episodes := x.episodes, stretchNs := x.stretchNs
    deepestMv := x.deepestMv, summaryAt := x.summaryAt, resetTimes := x.resetTimes }

/-- Does a telemetry key belong to an engine of array `a` (R255)? -/
def telOfArray (a k : Nat) : Bool := k / 256 == a && decide (a < 8)

/-- Contexts with work on an array: its RUN, and FERRY commands on its two ferries (the latter are log 25). -/
def State.ctxsOnArray (s : State) (a : Nat) : List Nat :=
  (match s.runOnArray a with | some r => [r.ctx] | none => [])
    ++ ((s.engine (2 * a)).work ++ (s.engine (2 * a + 1)).work).map fun w => w.ctx

/-- Reset one array: its contexts fault with cause 11 first, then its units take their reset values (R533, R536). -/
def State.resetArray (s : State) (a : Nat) : State :=
  let s := (s.ctxsOnArray a).foldl (fun (s : State) c => s.faultCtx c 11 a 0 srcReset 0) s
  let s := s.releaseStreams fun x => decide (x.engine < 128) && x.engine / 16 == a
  let s := (s.setEngine (2 * a) Engine.reset).setEngine (2 * a + 1) Engine.reset
  let s := { s with tel := { s.tel with live := Tab.drop s.tel.live (telOfArray a), snap := Tab.drop s.tel.snap (telOfArray a) } }
  s.setArray a (s.array a).afterReset

/-- ARRAY_RESET: a requested array reset that does not escalate is performed; it completes after the 100 µs of R534 (R536, R541, R549). -/
def arrayReset (a : Nat) (s : State) : State :=
  match s.smallReset 1 a with
  | none => s
  | some r =>
    let dog := r.watchdog = 1 ∨ r.watchdog = 2
    if r.began.isSome ∨ (dog ∧ s.arrayAtLimit a) then s
    else
      let s := s.resetArray a
      let x := s.array a
      let s := if dog then s.setArray a { x with resetTimes := s.now :: x.resetTimes.take 15 } else s
      s.beginSmall r

def execArrayReset (a : Fin 8) (s : State) : Host.Outcome State Fault Refusal := live s (arrayReset a.val)

/-- ARRAY_RESET_ESCALATE: an array reset that has not completed in 1 ms, or one of an array at its limit, becomes a warm module reset (R549). -/
def arrayResetEscalate (a : Nat) (s : State) : State :=
  match s.smallReset 1 a with
  | none => s
  | some r =>
    if s.now < r.at_ + 100000 ∧ ¬ ((r.watchdog = 1 ∨ r.watchdog = 2) ∧ s.arrayAtLimit a) then s
    else (s.dropSmall r).requestWarm 10 a r.watchdog true true

def execArrayResetEscalate (a : Fin 8) (s : State) : Host.Outcome State Fault Refusal := liveReset s (arrayResetEscalate a.val)

/-- A port's link, buffer, books and counters go; a port that was up drains, and any other that is on stays down until the reset ends (R432,
R533). -/
def State.resetPort (s : State) (p : Nat) : State :=
  let s := s.portOff p
  let x := s.port p
  let x : Port := { x with peer := 0, peerValid := false, lastDown := 0, counters := [], trained := false, rxPackets := x.rxPackets }
  s.setPort p (if x.state = 4 ∨ x.mode = 0 ∨ s.boot.level = 0 then x else { x with state := 5 })

/-- Port resets from watchdog 5 within 60 s (R550). -/
def State.portResets (s : State) (p : Nat) : Nat := ((s.port p).resets.filter fun t => decide (s.now < t + 6000000000)).length

/-- PORT_RESET: performed, and the port that has had its eighth from watchdog 5 within 60 s is held down; it completes after the 100 µs of R534
(R533, R550). -/
def portReset (p : Nat) (s : State) : State :=
  match s.smallReset 2 p with
  | none => s
  | some r =>
    if r.began.isSome then s
    else
    let s := s.resetPort p
    let s := if r.watchdog = 5 then s.setPort p { s.port p with resets := s.now :: (s.port p).resets.take 15 } else s
    let s := if r.watchdog = 5 ∧ 8 ≤ s.portResets p then
        let s := { s with rst := { s.rst with portHeld := BitVec.ofNat 16 (setBitOf s.rst.portHeld.toNat p true) } }
        let x := s.port p
        s.setPort p { x with state := if x.state = 4 then 4 else 5 }
      else s
    s.beginSmall r

def execPortReset (p : Fin 16) (s : State) : Host.Outcome State Fault Refusal := live s (portReset p.val)

/-- Every line of a channel leaves its die's stream cache, uncounted; a fill under way is discarded when it comes (R247). -/
def State.dropChannelLines (s : State) (n c : Nat) : State :=
  let die := n / 12
  let x := s.dscAt die
  let mine (l : DscLine) : Bool := match s.pcPlace (256 * l.line) with | some (m, q, _, _) => m == n && q / 2 == c | none => false
  s.setDsc die { x with lines := x.lines.filterMap fun l => if mine l then (if l.inflight then some { l with dropped := true } else none) else some l }

/-- HBM_CHANNEL_RESET: the controller stops issuing to the channel; what it has accepted stays in its windows, but for writes whose bursts have left,
and the channel's lines leave the stream cache (R247, R537). -/
def hbmChannelReset (n c : Nat) (s : State) : State :=
  match s.smallReset 3 (16 * n + c) with
  | none => s
  | some _ =>
    let k := s.stack n
    if (k.chan c).resetAt.isSome then s
    else
      let k := k.setChan c { k.chan c with resetAt := some s.now }
      let halt (k : Stack) (q : Nat) : Stack :=
        let window := (k.pc q).window.filter fun r => !(r.slotted && r.req.isWrite)
        k.setPc q { k.pc q with window := window.map fun r => { r with slotted := false }, openRows := [] }
      (s.setStack n (halt (halt k (2 * c)) (2 * c + 1))).dropChannelLines n c

def execHbmChannelReset (stack : Fin 24) (channel : Fin 16) (s : State) : Host.Outcome State Fault Refusal :=
  live s (hbmChannelReset stack.val channel.val)

/-- HBM_CHANNEL_RETRAINED, 100 µs after the reset began or later (R534): the channel leaves self-refresh, its requests are served again, and its reset completes (R537, R557). -/
def hbmChannelRetrained (n c : Nat) (s : State) : State :=
  let k := s.stack n
  match (k.chan c).resetAt, s.smallReset 3 (16 * n + c) with
  | some t, some r =>
    if s.now < t + 10000 then s
    else (s.setStack n (k.setChan c { k.chan c with resetAt := none, servedFrom := s.hbmCycle n })).smallDone r n
  | _, _ => s

def execHbmChannelRetrained (stack : Fin 24) (channel : Fin 16) (s : State) : Host.Outcome State Fault Refusal :=
  live s (hbmChannelRetrained stack.val channel.val)

/-- HBM_RETRAIN_TIMEOUT: retraining has not succeeded 5 ms after the channel reset began: it ends, and a warm module reset follows (R538). -/
def hbmRetrainTimeout (n c : Nat) (s : State) : State :=
  let k := s.stack n
  match (k.chan c).resetAt, s.smallReset 3 (16 * n + c) with
  | some t, some r =>
    if s.now < t + 500000 then s
    else ((s.setStack n (k.setChan c { k.chan c with resetAt := none })).dropSmall r).requestWarm 10 n r.watchdog true true
  | _, _ => s

def execHbmRetrainTimeout (stack : Fin 24) (channel : Fin 16) (s : State) : Host.Outcome State Fault Refusal :=
  live s (hbmRetrainTimeout stack.val channel.val)

/-! Watchdogs (R547, R548). -/

/-- Has an engine been in a record without progress for FERRY_MS? Watchdogs of a unit in reset are suspended (R535). -/
def State.engineHangs (s : State) (e : Nat) : Bool :=
  s.resetScope == 0 && s.rst.ferryEn && s.engineBusy e && decide (100000 * s.rst.ferryMs.toNat ≤ (s.engine e).noProg)

/-- CTXID of an engine's work. -/
def State.engineCtxid (s : State) (e : Nat) : BitVec 16 := match (s.engine e).head with | some w => s.ctxid w.ctx | none => 0xFFFF

/-- FERRY_WATCHDOG: watchdog 2, whose action is a reset of the ferry's array. -/
def ferryWatchdog (e : Nat) (s : State) : State :=
  if s.engineHangs e ∧ (s.smallReset 1 (e / 2)).isNone then s.fireArray (e / 2) 2 0 (s.engineCtxid e) (s.array (e / 2)).tiles.toNat else s

def execFerryWatchdog (engine : Fin 16) (s : State) : Host.Outcome State Fault Refusal := live s (ferryWatchdog engine.val)

/-- GATHER_WATCHDOG: watchdog 3. -/
def gatherWatchdog (g : Nat) (s : State) : State :=
  if s.engineHangs (0x18 + g) then s.fireWarm 3 g 0 (s.engineCtxid (0x18 + g)) 0 else s

def execGatherWatchdog (g : Fin 4) (s : State) : Host.Outcome State Fault Refusal := live s (gatherWatchdog g.val)

/-- TIER_FERRY_WATCHDOG: watchdog 4. -/
def tierFerryWatchdog (t : Nat) (s : State) : State :=
  if s.engineHangs (0x10 + t) then s.fireWarm 4 t 0 (s.engineCtxid (0x10 + t)) 0 else s

def execTierFerryWatchdog (t : Fin 8) (s : State) : Host.Outcome State Fault Refusal := live s (tierFerryWatchdog t.val)

/-- The channels of a port whose head packet has waited for CREDIT_MS. -/
def State.creditStarved (s : State) (p : Nat) : List Nat :=
  (List.range 8).filter fun v => match Tab.get (fun _ => none) (s.port p).waitSince v with
    | some t => decide (t + 100000 * s.rst.creditMs.toNat ≤ s.now)
    | none => false

/-- CREDIT_WATCHDOG: watchdog 5, whose action is a port reset, the eighth of which holds the port down (R547, R550). -/
def creditWatchdog (p : Nat) (s : State) : State :=
  if s.resetScope ≠ 0 || (s.smallReset 2 p).isSome || !s.rst.creditEn || (s.port p).state != 2 || (s.creditStarved p).isEmpty then s
  else
    (s.raiseHang 5 p (if 7 ≤ s.portResets p then 5 else 2) 0 0xFFFF (maskOf (s.creditStarved p))).requestSmall
      { scope := 2, index := p, source := 10, watchdog := 5, at_ := s.now, req := none }

def execCreditWatchdog (p : Fin 16) (s : State) : Host.Outcome State Fault Refusal := live s (creditWatchdog p.val)

/-- CP_HEARTBEAT_WATCHDOG: watchdog 6. -/
def cpHeartbeatWatchdog (cp : Nat) (s : State) : State :=
  let x := Tab.get (fun _ => CmdProc.reset) s.hif.cps cp
  if s.resetScope = 0 ∧ s.rst.cpEn ∧ x.heartbeat + 100000 * s.rst.cpMs.toNat ≤ s.now then s.fireWarm 6 cp 0 0xFFFF 0 else s

def execCpHeartbeatWatchdog (cp : Fin 4) (s : State) : Host.Outcome State Fault Refusal := live s (cpHeartbeatWatchdog cp.val)

/-- MP_WATCHDOG: watchdog 7, source 6 of R540. -/
def mpWatchdog (s : State) : State :=
  if 5 ≤ s.resetScope then s else (s.raiseHang 7 0 4 0 0xFFFF 0).requestWarm 6 0 7 true true

def execMpWatchdog (s : State) : Host.Outcome State Fault Refusal := live s mpWatchdog

/-- HBM_CHANNEL_WATCHDOG: watchdog 8: a request at the given address, accepted by the channel 1 ms ago or more, has not completed. -/
def hbmChannelWatchdog (n c addr : Nat) (s : State) : State :=
  let k := s.stack n
  let late (r : HbmPending) : Bool := r.req.addr == addr && decide (max r.at_ (k.chan c).servedFrom + 1600000 ≤ s.hbmCycle n)
  if s.resetScope ≠ 0 || (s.smallReset 3 (16 * n + c)).isSome || (k.chan c).resetAt.isSome || !((k.pc (2 * c)).window.any late || (k.pc (2 * c + 1)).window.any late) then s
  else
    (s.raiseHang 8 n 3 0 0xFFFF addr).requestSmall { scope := 3, index := 16 * n + c, source := 10, watchdog := 8, at_ := s.now, req := none }

def execHbmChannelWatchdog (stack : Fin 24) (channel : Fin 16) (addr : Nat) (s : State) : Host.Outcome State Fault Refusal :=
  live s (hbmChannelWatchdog stack.val channel.val addr)

/-! Sources on pins and the link (R540, R583). -/

/-- POWER_ON: source 1. -/
def powerOn (s : State) : State := s.requestCold 1 0
def execPowerOn (s : State) : Host.Outcome State Fault Refusal := always s powerOn

/-- PWR_OK_LOW: source 2. Within a cold reset it releases THERM_TRIP_N all the same (R615). -/
def pwrOkLow (s : State) : State :=
  State.requestCold { s with pins := { s.pins with thermTripN := s.pins.thermTripN || s.resetScope == 6 } } 2 0
def execPwrOkLow (s : State) : Host.Outcome State Fault Refusal := always s pwrOkLow

/-- PERST_N_LOW: source 3. -/
def perstNLow (s : State) : State := s.requestWarm 3 0 0 false false
def execPerstNLow (s : State) : Host.Outcome State Fault Refusal := liveReset s perstNLow

/-- Request a function reset from a source (R535, R540). -/
def State.requestFunction (s : State) (source : Nat) : State :=
  s.requestReset { scope := 4, source := source, index := 0, watchdog := 0, at_ := s.now, counted := false, captured := false }

/-- FUNCTION_LEVEL_RESET: source 11, which a Hot Reset and a transition from D3hot to D0 are also. -/
def functionLevelReset (s : State) : State := s.requestFunction 11
def execFunctionLevelReset (s : State) : Host.Outcome State Fault Refusal := liveReset s functionLevelReset

/-! Function reset (R539). -/

/-- The heartbeat counts of the command processors start again (R535). -/
def Hif.beatAll (h : Hif) (now : Nat) : Hif :=
  { h with cps := (List.range 4).foldl (fun t i => Tab.modify (fun _ => CmdProc.reset) t i fun x => { x with heartbeat := now }) h.cps }

/-- The host interface after a function reset: rings, contexts' commands and event rings go; the link and configuration space stay. -/
def Hif.afterFunction (h : Hif) : Hif :=
  { Hif.reset with
    held := h.held, holding := true, eventLog := h.eventLog, adminQ := h.adminQ.filter (fun r => r.transport != 0), staleDrops := h.staleDrops
    msix := h.msix, functionMask := h.functionMask, up := h.up, flitMode := h.flitMode, speed := h.speed, width := h.width
    d3hot := h.d3hot, relaxed := h.relaxed, bar4Log2Gib := h.bar4Log2Gib }

/-- A stack after a function reset: every channel has been reset; its counts, marks, live list and accepted requests stay. -/
def Stack.afterFunction (k : Stack) : Stack := { k with chans := k.chans.map fun (c : Nat × Chan) => (c.1, { c.2 with resetAt := none }) }

/-- FUNCTION_RESET, in R539's order, as one step. -/
def functionReset (s : State) : State :=
  match s.rst.pending with
  | none => s
  | some r =>
    if r.scope ≠ 4 then s
    else
      let s := { s with ctxs := s.ctxs.map (fun (c : Nat × Ctx) => (c.1, { c.2 with state := 0 })), runs := [] }
      let s := (List.range 8).foldl State.resetArray s
      let s := (((List.range 16).foldl State.resetPort s).writeHeldBack).freeUnits (List.range 0x1C)
      let s := { s with
        arrays := s.arrays.map fun (x : Nat × ArrayUnit) => (x.1, { x.2 with lastCtx := x.2.lastCtx.map fun _ => 64 })
        hbm := { s.hbm with stk := s.hbm.stk.map (fun (k : Nat × Stack) => (k.1, k.2.afterFunction)), lines := [] }
        tier := { s.tier with objs := s.tier.objs.filter (fun o => o.sealed && !o.stash), stashes := [] }
        dsc := s.dsc.map fun (d : Nat × Dsc) => (d.1, { d.2 with streams := [], refused := [] }) }
      let s := s.refreshFlash
      { s with
        hif := s.hif.afterFunction.beatAll s.now, sync := { objs := [], done := [] }, ctxs := [], tables := [], engines := []
        red := { s.red with plans := [] }, sec := { s.sec with sessions := [] }, dbg := Dbg.reset
        rst := { s.rst with pending := none, small := [], capturing := none, recovering := some { r with at_ := s.now } } }

def execFunctionReset (s : State) : Host.Outcome State Fault Refusal := live s functionReset

/-! Sample capture (R554, R555). -/

/-- The range of array `a` to capture, in KiB: offset and length, cut at the end of the scratchpad. -/
def State.capRange (s : State) (a : Nat) : Nat × Nat :=
  let off := (Tab.get (fun _ => 0) s.rst.capOff a).toNat
  (off, min (Tab.get (fun _ => 0) s.rst.capLen a).toNat (49152 - min off 49152))

/-- The ranges in array order up to 65,536 KiB in all: array, offset, length, offset of the sample in KiB from the first. -/
def State.capList (s : State) : List (Nat × Nat × Nat × Nat) :=
  ((List.range 8).foldl (fun (acc : List (Nat × Nat × Nat × Nat) × Nat) a =>
    let (off, len) := s.capRange a
    let n := min len (65536 - acc.2)
    (acc.1 ++ [(a, off, n, acc.2)], acc.2 + n)) ([], 0)).1

def State.capKib (s : State) : Nat := (s.capList.map fun e => e.2.2.1).foldl (· + ·) 0

/-- Present power-on second (R551): POH and the seconds of the present hour, which the always-on counter tells. -/
def State.powerSecond (s : State) : Nat := s.flash.poh.toNat * 3600 + s.now / 100000000 % 3600

/-- The header of the dump (R555). -/
def State.dumpHeader (s : State) (r : InReset) (complete : Bool) (bytes : Nat) : List Byte :=
  leBytes 4 0x504D5544 ++ leBytes 2 1 ++ leBytes 1 (bit complete) ++ leBytes 1 r.source ++ leBytes 1 r.watchdog ++ leBytes 1 r.index
    ++ leBytes 2 (s.rst.dumpSeq + 1).toNat ++ leBytes 4 bytes ++ leBytes 8 s.powerSecond ++ leBytes 4 s.hif.eventLog.length ++ leBytes 4 0
    ++ (s.capList.flatMap fun e => leBytes 4 e.2.1 ++ leBytes 4 e.2.2.1 ++ leBytes 8 (0x10000 + 1024 * e.2.2.2))

/-- TEL_STALL counters of engines 0-255, ten each. -/
def State.dumpStalls (s : State) : List Byte :=
  (List.range 256).flatMap fun e => (List.range 10).flatMap fun c => leBytes 8 (Tab.get (fun _ => (0 : DWord)) s.tel.live (16 * e + c)).toNat

/-- ARRn_CLK, STATUS, TILES and WDOG of each array. -/
def State.dumpArrays (s : State) : List Byte :=
  (List.range 8).flatMap fun a => (List.range 4).flatMap fun i => leBytes 8 (regArr s a (8 * i))

/-- Does a capture precede this reset (R555)? -/
def State.captures (s : State) (r : InReset) : Bool := r.captured && s.tier.ddrSpeed != 0 && s.capKib != 0

/-- Write the dump: samples through the array windows, then the records, and RST_DUMP. -/
def State.capture (s : State) (r : InReset) : State :=
  let d := s.dumpBase
  let samples := s.capList.foldl (fun (m : Memory) e =>
    m.writeN (d + 0x10000 + 1024 * e.2.2.2) (s.mem.readN (windowBase e.1 + 1024 * e.2.1) (1024 * e.2.2.1))) s.mem
  let mem := (((samples.writeN d (s.dumpHeader r true (1024 * s.capKib))).writeN (d + 0x1000) s.hif.eventLog.reverse.flatten).writeN
    (d + 0x3000) s.dumpStalls).writeN (d + 0x8000) s.dumpArrays
  { s with
    mem := mem
    rst := { s.rst with dumpValid := true, dumpComplete := true, dumpSeq := s.rst.dumpSeq + 1
                        dumpBytes := BitVec.ofNat 32 (1024 * s.capKib), captureEvent := true, capturing := none } }

/-- CAPTURE_ABANDON: a capture that has not finished at 10 ms is left with COMPLETE = 0; what it had copied is not told (R554). -/
def captureAbandon (s : State) : State :=
  match s.rst.capturing, s.rst.pending with
  | some t, some r =>
    if s.now < t + 1000000 ∨ !s.captures r then s
    else
      let d := s.dumpBase
      let bytes := Config.choiceNat s.fresh % (1024 * s.capKib + 1)
      let mem := (s.mem.scramble d (d + 0x1000_0000) s.fresh).writeN d (s.dumpHeader r false bytes)
      { s.tick with
        mem := mem
        rst := { s.rst with dumpValid := true, dumpComplete := false, dumpSeq := s.rst.dumpSeq + 1, dumpBytes := BitVec.ofNat 32 bytes
                            captureEvent := true, capturing := none } }
  | _, _ => s

def execCaptureAbandon (s : State) : Host.Outcome State Fault Refusal := live s captureAbandon

/-! Module resets (R533, R542-R546). -/

/-- The keys of one die's HBM, and of DDR5. -/
def dieKeys (d : Nat) : Nat × Nat := (12 * d * 2 ^ 36, 12 * (d + 1) * 2 ^ 36)
def ddrKeys : Nat × Nat := (2 ^ 48, 2 ^ 49)

/-- A stack's contents become undefined: no codeword of it is poisoned any more. -/
def dropPoison (t : Tab Bool) (r : Nat × Nat) : Tab Bool := Tab.drop t fun cw => decide (r.1 ≤ 32 * cw) && decide (32 * cw < r.2)

def State.scrambleRange (s : State) (r : Nat × Nat) : State :=
  { s.tick with mem := s.mem.scramble r.1 r.2 s.fresh, hbm := { s.hbm with poisoned := dropPoison s.hbm.poisoned r } }

/-- The live lists alone outlast a reset until the training that evaluates the mapping again. -/
def keepLive (t : Tab Stack) : Tab Stack :=
  t.foldl (fun (u : Tab Stack) k => Tab.set (fun _ => Stack.reset) u k.1 { Stack.reset with live := k.2.live }) []

/-- The repair record as the reset applies it (R273). -/
def Flash.applyClear (f : Flash) : Flash := if f.cleared then { f with marks := [], condemned := [], reasons := [], cleared := false } else f

/-- The reset controller with the cause latched, holding the module (R540). -/
def Rst.latch (old : Rst) (r : InReset) : Rst :=
  { Rst.reset with
    causeWatchdog := BitVec.ofNat 8 r.watchdog, causeScope := BitVec.ofNat 8 r.scope, causeSource := BitVec.ofNat 8 r.source
    causeIndex := BitVec.ofNat 8 r.index, causeCounted := r.counted, causeCaptured := r.captured
    dumpValid := old.dumpValid, dumpComplete := old.dumpComplete, dumpSeq := old.dumpSeq, dumpBytes := old.dumpBytes
    captureEvent := old.captureEvent, active := some r }

/-- The straps, which only a cold module reset samples (R570). -/
def Boot.straps (b : Boot) : Boot :=
  { Boot.reset with masterSel := b.masterSel, compatN := b.compatN, bootSrc := b.bootSrc, trayPos := b.trayPos, identityOk := b.identityOk }

/-- The state as a warm module reset leaves it (R533, R543, R546). -/
def State.warmed (s : State) (r : InReset) : State :=
  { State.reset with
    pending := s.pending, now := s.now, fresh := s.fresh, out := s.out, mem := s.mem.zero (2 ^ 49) (2 ^ 49 + 0x2000_0000)
    compat := s.strapped, strapped := s.strapped
    hbm := { Mem.reset with ilvAd0 := s.hbm.ilvAd0, ilvAd1 := s.hbm.ilvAd1, mappedAd0 := s.hbm.mappedAd0, mappedAd1 := s.hbm.mappedAd1
                            stk := keepLive s.hbm.stk, poisoned := s.hbm.poisoned }
    tier :=
      { Tier.reset with
        objs := s.tier.objs.filter (fun o => o.sealed && !o.stash), serial := s.tier.serial, blocks := s.tier.blocks
        nand := s.tier.nand, dirA := s.tier.dirA, dirB := s.tier.dirB, ddrScrubAt := s.tier.ddrScrubAt }
    fab := { Fab.reset with id := s.fab.id, valid := s.fab.valid }
    pwr := { Pwr.reset with maxW := s.pwr.maxW, capW := s.pwr.maxW, ssc := s.pwr.sscNext }
    rst := s.rst.latch r, flash := s.flash.applyClear, boot := s.boot.straps
    sec := { s.sec with sessions := [] }, tap := s.tap, eid := 0x20 + s.boot.trayPos.zeroExtend 8
    pins := { s.pins with rstOutN := false, alertN := false } }

/-- WARM_MODULE_RESET: a requested warm reset: the capture that its source asks for, DOWN on every port that is up, and the reset, held until
RESET_STRETCH_END. An HBM or DDR5 rail's crossing leaves that memory undefined (R533, R542, R554). -/
def warmModuleReset (s : State) : State :=
  match s.rst.pending with
  | none => s
  | some r =>
    if r.scope ≠ 5 then s
    else
      let taken := s.captures r
      let s := if s.rst.capturing.isSome && taken then s.capture r else s
      let s := (List.range 16).foldl State.portOff s
      let s := s.warmed { r with at_ := s.now, captured := taken }
      let s := if r.source = 4 ∧ 5 ≤ r.index ∧ r.index ≤ 7 then (s.scrambleRange (dieKeys 0)).scrambleRange (dieKeys 1) else s
      if r.source = 4 ∧ r.index = 8 then
        let s := s.scrambleRange ddrKeys
        { s with tier := { s.tier with objs := s.tier.objs.filter fun o => o.base == 0 } }
      else s

def execWarmModuleReset (s : State) : Host.Outcome State Fault Refusal := liveReset s warmModuleReset

/-- COLD_MODULE_RESET: everything, the always-on domain included; HBM and DDR5 are undefined afterwards, and only flash keeps its contents. After
a trip THERM_TRIP_N stays low until PWR_OK falls or power goes (R533, R543, R546, R615). -/
def coldModuleReset (s : State) : State :=
  match s.rst.pending with
  | none => s
  | some r =>
    if r.scope ≠ 6 then s
    else
      let t : State := { State.reset with
        pending := s.pending, fresh := s.fresh, out := s.out, mem := s.mem.zero (2 ^ 49) (2 ^ 49 + 0x2000_0000)
        hbm := { Mem.reset with stk := keepLive s.hbm.stk, mappedAd0 := s.hbm.mappedAd0, mappedAd1 := s.hbm.mappedAd1 }
        tier :=
          { Tier.reset with
            objs := s.tier.objs.filter (fun o => o.sealed && o.base == 0), serial := s.tier.serial, blocks := s.tier.blocks
            nand := s.tier.nand, dirA := s.tier.dirA, dirB := s.tier.dirB }
        rst := Rst.reset.latch { r with at_ := 0 }, flash := s.flash.applyClear
        pins := { rstOutN := false, alertN := false, thermTripN := r.source == 1 || r.source == 2 || r.source == 4 || s.pins.thermTripN, loadHintN := true } }
      ((t.scrambleRange (dieKeys 0)).scrambleRange (dieKeys 1)).scrambleRange ddrKeys

def execColdModuleReset (s : State) : Host.Outcome State Fault Refusal := always s coldModuleReset

/-! Boot (R560-R568). -/

/-- What of R562 a signed component fails: a reason of FIRMWARE_REJECTED, or none. The order among several failures is log 17. -/
def State.signedBad (s : State) (c : Component) : Option Nat :=
  if !c.magicOk then some 5
  else if Config.sha512 c.pubKey ≠ Config.romKeyHash c.keyIndex then some 1
  else if s.flash.revoke.getLsbD c.keyIndex.val then some 4
  else if !Config.ecdsaVerify c.pubKey c.header c.sig then some 1
  else none

/-- R562 for a firmware image. -/
def State.imageBad (s : State) (c : Component) : Option Nat :=
  match s.signedBad c with
  | some r => some r
  | none => if Config.sha512 c.body ≠ c.bodyHash then some 2 else if c.version < s.flash.fwSvn then some 3 else none

/-- R567 for a configuration record. -/
def State.configBad (s : State) (c : Component) : Option Nat :=
  match s.signedBad c with
  | some r => some r
  | none => if c.identity ≠ Config.identityHash then some 7 else if c.version < s.flash.cfgVersion then some 3 else none

/-- R568 for an operator key record, under the configuration record in use. -/
def State.opKeyBad (s : State) (cfg : Option Component) (c : Component) : Option Nat :=
  match cfg with
  | none => some 1
  | some g =>
    if !c.magicOk then some 5
    else if Config.sha512 c.pubKey ≠ g.ownerHash ∨ !Config.ecdsaVerify c.pubKey c.header c.sig then some 1
    else if c.version < s.flash.keyVersion then some 3
    else none

/-- FIRMWARE_REJECTED. -/
def State.raiseRejected (s : State) (source reason version counter : Nat) : State :=
  s.raise0 0x0802 srcMp (leBytes 1 source ++ leBytes 1 reason ++ leBytes 2 version ++ leBytes 2 counter)

/-- The slots in the order that BOOT_SRC gives; `true` is slot B (R563). -/
def State.slotOrder (s : State) : List Bool :=
  match s.boot.bootSrc.toNat with
  | 0 =>
    let key (c : Option Component) : Nat := match c with | some c => c.version.toNat * 2 ^ 64 + c.build | none => 0
    if key s.flash.slotA < key s.flash.slotB then [true, false] else [false, true]
  | 1 => [false]
  | 2 => [true]
  | _ => []

/-- Try the slots in order; a slot that fails is reported, and an accepted one begins another boot (R564). -/
def State.tryslots : List Bool → State → State
  | [], s => s
  | b :: rest, s =>
    let c := if b then s.flash.slotB else s.flash.slotA
    let fails := if b then s.flash.failsB else s.flash.failsA
    let bad : Option Nat := match c with
      | none => some 5
      | some c => (match s.imageBad c with | some r => some r | none => if 3 ≤ fails then some 5 else none)
    let version := match c with | some c => c.version.toNat | none => 0
    match bad, c with
    | none, some c =>
      { s with
        flash := if b then { s.flash with failsB := fails + 1 } else { s.flash with failsA := fails + 1 }
        boot := { s.boot with slot := b, image := some c, fwSvnRunning := c.version, numrev := c.numrev } }
    | some r, _ => State.tryslots rest (s.raiseRejected (if b then 2 else 1) r version s.flash.fwSvn.toNat)
    | none, none => s

/-- The valid copy with the highest version (R559). -/
def bestCopy (bad : Component → Option Nat) : List Component → Option Component
  | [] => none
  | c :: cs =>
    match bad c, bestCopy bad cs with
    | none, some d => if d.version ≤ c.version then some c else some d
    | none, none => some c
    | some _, r => r

/-- Take the configuration record (R567), then the operator key record (R568), and raise their counters (R569). Without a valid configuration
record the reason is that of the newest copy, 7 without a copy (log 26). -/
def State.takeRecords (s : State) : State :=
  let cfg := bestCopy s.configBad s.flash.config
  let s := match cfg with
    | some c => { s with
        flash := { s.flash with cfgVersion := c.version }, boot := { s.boot with cfg := some c }
        pwr := { s.pwr with maxW := c.maxW, capW := c.maxW } }
    | none =>
      let (reason, v) := match s.flash.config with | c :: _ => ((s.configBad c).getD 7, c.version.toNat) | [] => (7, 0)
      State.raiseRejected { s with pwr := { s.pwr with maxW := 1200, capW := 1200 } } 4 reason v s.flash.cfgVersion.toNat
  match bestCopy (s.opKeyBad cfg) s.flash.opkey with
  | some k => { s with flash := { s.flash with keyVersion := k.version }, boot := { s.boot with opKey := some (Config.eciesOpen k.opKey) } }
  | none => match s.flash.opkey with
    | k :: _ => s.raiseRejected 5 ((s.opKeyBad cfg k).getD 1) k.version.toNat s.flash.keyVersion.toNat
    | [] => s

/-- Stamps of the reset log within 24 hours of the present power-on second (R551). -/
def State.stamps24 (s : State) : List Nat := s.flash.resetLog.filter fun t => decide (s.powerSecond < t + 86400)

/-- OUT_OF_SERVICE (R552). -/
def State.raiseOos (s : State) : State :=
  s.raise0 0x0703 srcMp (leBytes 1 s.flash.count24 ++ leBytes 1 s.oosThreshold ++ leBytes 2 0 ++ leBytes 4 (s.stamps24.getLastD 0)
    ++ leBytes 4 (s.stamps24.headD 0))

/-- The firmware appends a counted warm reset to the log and sets the latch at the threshold; a latch that is set is reported at every boot
(R551, R552). -/
def State.logReset (s : State) (r : InReset) : State :=
  let s := if r.counted then { s with flash := { s.flash with resetLog := (s.powerSecond :: s.flash.resetLog).take 15 } } else s
  let s := { s with flash := { s.flash with count24 := s.stamps24.length } }
  let s := if s.oosThreshold ≤ s.flash.count24 then { s with flash := { s.flash with oos := true } } else s
  if s.flash.oos then s.raiseOos else s

/-- DDR5 trains and the flash is mounted (R297, R301). -/
def State.findTiers (s : State) : State := s.trainDdr.mountFlash

/-- The boot ROM, and the firmware if one is accepted (R561-R568). -/
def State.bootRom (s : State) (r : InReset) : State :=
  if !s.boot.identityOk then s.raiseRejected 0 6 0 0
  else if !s.flash.rppOk then s.raiseRejected 0 8 0 0
  else
    let s := (State.tryslots s.slotOrder s).takeRecords
    if s.boot.image.isNone then s else s.findTiers.logReset r

/-- The straps of a cold module reset: MASTER_SEL in bit 0, COMPAT_N in bit 1, BOOT_SRC in bits 3:2, TRAY_POS in bits 5:4 (R570). -/
def State.sampleStraps (s : State) (v : BitVec 6) (pufOk : Bool) : State :=
  { s with
    boot := { s.boot with masterSel := v.getLsbD 0, compatN := v.getLsbD 1, bootSrc := BitVec.ofNat 2 (v.toNat / 4)
                          trayPos := BitVec.ofNat 2 (v.toNat / 16), identityOk := pufOk }
    strapped := !v.getLsbD 1, compat := !v.getLsbD 1, eid := BitVec.ofNat 8 (0x20 + v.toNat / 16) }

/-- RESET_STRETCH_END: 100 µs after the reset began, or after the input that held it rose, the stretch ends: straps at a cold reset, then the
boot ROM; the hub leaves reset, and events wait for ring 0 (R534, R557, R570). -/
def resetStretchEnd (straps : BitVec 6) (pufOk : Bool) (s : State) : State :=
  match s.rst.active with
  | none => s
  | some r =>
    if s.now < r.at_ + 10000 ∨ s.rst.pending.isSome then s
    else
      let s := if r.scope = 6 then s.sampleStraps straps pufOk else s
      let s := { s with
        rst := { s.rst with active := none, recovering := some r }
        boot := { s.boot with resetEndAt := s.now }
        hif := s.hif.beatAll s.now
        pins := { s.pins with rstOutN := decide (r.at_ + 200000 ≤ s.now), loadHintN := true } }
      s.bootRom r

def execResetStretchEnd (straps : BitVec 6) (pufOk : Bool) (s : State) : Host.Outcome State Fault Refusal :=
  liveReset s (resetStretchEnd straps pufOk)

/-! HBM training and the end of recovery (R538, R556, R557, R572). -/

/-- HBM_CHANNEL_MAPPED_OUT with PENDING = 0 (R274). -/
def State.raiseMapped (s : State) (n c : Nat) : State :=
  s.raise0 0x0303 (srcHbm n) (leBytes 1 n ++ leBytes 1 c ++ leBytes 1 (Tab.get (fun _ => 0) s.flash.reasons (16 * n + c)) ++ leBytes 1 0)

/-- Evaluate one stack's live list from the repair record, with the events of channels that the mapping leaves out for the first time. -/
def State.mapStack (s : State) (n : Nat) : State :=
  let k := s.stack n
  let live := (List.range 32).filter fun q => !bitOf (s.condemned n).toNat (q / 2)
  let gone := (List.range 16).filter fun c => k.live.contains (2 * c) && !live.contains (2 * c)
  let s := s.setStack n { k with live := live, intervalAt := s.now }
  let s := { s with rst := { s.rst with newlyMapped := s.rst.newlyMapped + gone.length } }
  gone.foldl (fun s c => s.raiseMapped n c) s

/-- Evaluate the mapping of a die at its training: MEM_HBM_CAP, and undefined contents where the mapping changes (R257-R259, R274). -/
def State.mapDie (s : State) (d : Nat) : State :=
  let mine := (List.range 12).map fun i => 12 * d + i
  let before := mine.map fun n => (s.stack n).live
  let s := mine.foldl State.mapStack s
  let after := mine.map fun n => (s.stack n).live
  let mapped := (after.map fun l => 16 - l.length / 2).foldl (· + ·) 0
  let s := { s with hbm := if d = 0 then { s.hbm with mappedAd0 := BitVec.ofNat 8 mapped } else { s.hbm with mappedAd1 := BitVec.ofNat 8 mapped } }
  if before = after then s else s.scrambleRange (dieKeys d)

/-- HBM_TRAINED: the channels that failed their training are condemned with reason 4, the die's mapping is evaluated, and service may begin
(R538, R572). A slot that reaches provisional service has not failed this boot (R564). -/
def hbmTrained (d : Nat) (failed : List (Nat × Nat)) (s : State) : State :=
  if s.boot.image.isNone ∨ bitOf s.boot.trained.toNat d then s
  else
    let s := (failed.filter fun f => f.1 / 12 == d).foldl (fun (s : State) f => s.condemn f.1 f.2 4) s
    let s := s.mapDie d
    let s := State.service { s with boot := { s.boot with trained := BitVec.ofNat 2 (setBitOf s.boot.trained.toNat d true) } }
    if s.boot.level = 0 then s
    else { s with flash := if s.boot.slot then { s.flash with failsB := 0 } else { s.flash with failsA := 0 } }

def execHbmTrained (die : Fin 2) (failed : List (Fin 24 × Fin 16)) (s : State) : Host.Outcome State Fault Refusal :=
  liveMp s (hbmTrained die.val (failed.map fun f => (f.1.val, f.2.val)))

/-- Is a recovery complete: that of a function reset 100 µs after its start (R534); else when every enabled port is up, or 3 s after the ports began
to train (R556)? -/
def State.recovered (s : State) (r : InReset) : Bool :=
  if r.scope = 4 then decide (r.at_ + 10000 ≤ s.now) else s.portsComplete || s.portsTimedOut

/-- The recovery is over; the ports of a function reset leave it. -/
def State.endRecovery (s : State) : State :=
  let s : State := { s with rst := { s.rst with recovering := none, captureEvent := false, newlyMapped := 0 } }
  (List.range 16).foldl State.portLeaves s

/-- RESET_DONE: posted with its flags, with SAMPLE_CAPTURED where a capture was made; service is evaluated first (R554, R556, R557). -/
def resetDone (s : State) : State :=
  let s := s.service
  match s.rst.recovering with
  | none => s
  | some r =>
    if !s.recovered r then s
    else
      let flags := bit r.counted + 2 * bit r.captured + 4 * bit (r.scope != 4 && !s.portsComplete) + 8 * bit s.flash.oos
      let s := s.raiseDone r.scope r.source r.index r.watchdog flags s.rst.newlyMapped r.at_
      let s := if s.rst.captureEvent then
          s.raise0 0x0704 srcReset (leBytes 2 s.rst.dumpSeq.toNat ++ leBytes 1 (bit s.rst.dumpComplete) ++ leBytes 1 0
            ++ leBytes 4 s.rst.dumpBytes.toNat ++ leBytes 8 s.dumpBase)
        else s
      s.endRecovery

def execResetDone (s : State) : Host.Outcome State Fault Refusal := liveMp s resetDone

end Sys2Proof.Machine
end

