-- ==== Sys2Proof/Machine/Reduction.lean ====
section
/-!
DEFINITION. Gradient reduction (R436-R480): plans, bucket senders, nodes and slots, tokens, gathers and broadcasts. The arithmetic of the update
units is in Machine/Update.lean.
-/
namespace Sys2Proof.Machine

/-! Plans and buckets. -/

def Plan.bucketAt (p : Plan) (i : Nat) : Option Bucket := Tab.get (fun _ => none) p.buckets i
def Plan.setBucket (p : Plan) (i : Nat) (b : Bucket) : Plan := { p with buckets := Tab.set (fun _ => none) p.buckets i (some b) }
def Plan.mapBuckets (p : Plan) (f : Bucket → Bucket) : Plan :=
  { p with buckets := p.buckets.map fun (e : Nat × Option Bucket) => (e.1, e.2.map f) }
def Plan.listBuckets (p : Plan) : List (Nat × Bucket) := p.buckets.filterMap fun e => e.2.map fun b => (e.1, b)
def Plan.isMaster (p : Plan) : Bool := p.self_ == p.master
def Plan.sharded (p : Plan) : Bool := bitOf p.mode.toNat 0
/-- CLIP: 0 none, 1 hardware, 2 software. -/
def Plan.clipMode (p : Plan) : Nat := bits p.mode.toNat 1 2
/-- NFPOLICY: false skips the step, true the block. -/
def Plan.nfBlock (p : Plan) : Bool := bitOf p.mode.toNat 3
def Plan.ctxNo (p : Plan) : Nat := p.ctx.toNat % 64

def Bucket.isLocal (b : Bucket) : Bool := bitOf b.flags.toNat 0
def Bucket.isOwner (b : Bucket) : Bool := bitOf b.flags.toNat 1
def Bucket.upVc (b : Bucket) : Fin 8 := if bitOf b.flags.toNat 2 then 3 else 2
def Bucket.noEm (b : Bucket) : Bool := bitOf b.flags.toNat 3
def Bucket.oneBit (b : Bucket) : Bool := b.wfmt == 12
/-- Inputs of a node: the remote ones and the local one. -/
def Bucket.ninAll (b : Bucket) : Nat := b.nin + bit b.isLocal
/-- F of R447. -/
def Bucket.shift (b : Bucket) : Nat := (if b.nleaf ≤ 1 then 0 else Nat.log2 (b.nleaf - 1) + 1) - 6

/-- The place of a job's plan. -/
def State.planOfJob (s : State) (job : Nat) : Option (Nat × Plan) :=
  (List.range 16).findSome? fun j => match s.plan j with
    | some p => if p.job.toNat = job then some (j, p) else none
    | none => none

/-- The entry of a bucket identifier. -/
def Plan.entryOf (p : Plan) (bucket : Nat) : Option (Nat × Bucket) := p.listBuckets.find? fun e => e.2.bucket.toNat == bucket

def State.updPlan (s : State) (j : Nat) (f : Plan → Plan) : State :=
  match s.plan j with
  | some p => s.setPlan j (some (f p))
  | none => s

def State.updBucket (s : State) (j i : Nat) (f : Bucket → Bucket) : State :=
  s.updPlan j fun p => match p.bucketAt i with | some b => p.setBucket i (f b) | none => p

def State.bucketOf (s : State) (j i : Nat) : Option (Plan × Bucket) :=
  match s.plan j with
  | some p => (p.bucketAt i).map fun b => (p, b)
  | none => none

/-- Count in RED_CNT: 0 SLOT_WAIT_CYCLES, 1 STALE_STEP, 2 KEY_MISMATCH, 3 CHUNKS_SENT, 4 OVF_BLOCKS, 5 NF_BLOCKS. -/
def State.countRed (s : State) (i k : Nat) : State :=
  { s with red := { s.red with counts := Tab.modify (fun _ => (0 : DWord)) s.red.counts i fun c => c + BitVec.ofNat 64 k } }

/-! Packets (R441). -/

/-- A packet of a job to member `m`: device and context from the member table, read in place. -/
def State.jobPacket (s : State) (p : Plan) (m : Nat) (vc : Fin 8) (type : BitVec 5) (bucket : Word) (arg : Nat) (payload : List Byte) : Packet :=
  { packetTo (BitVec.ofNat 16 (s.rdLe (p.members + 8 * m) 2)) s.fab.id vc type s.fab.hopLimit with
    job := p.job, ctx := BitVec.ofNat 16 (s.rdLe (p.members + 8 * m + 2) 2), bucket := bucket, step := p.openStep
    arg := BitVec.ofNat 64 arg, payload := payload }

/-- The member index of a device. -/
def State.memberOf (s : State) (p : Plan) (device : BitVec 16) : Option Nat :=
  (List.range p.nmember).find? fun i => s.rdLe (p.members + 8 * i) 2 == device.toNat

/-! The step's end for a member (R467-R473). -/

/-- The books of a bucket at an installation and after an abort: no chunk, full credits, nothing sent (R445, R450). -/
def Bucket.fresh (b : Bucket) (job : Nat) : Bucket :=
  { b with
    slots := [], seqs := [], outSeq := 0, credits := Config.parentDepth job b.bucket.toNat, sending := none, readyWait := false, pending := []
    gathering := false, gathWait := false, gathered := [], scalesGot := [] }

/-- What a step leaves behind in a bucket when it closes; a gather that failed ends with its step. -/
def Bucket.closed (b : Bucket) : Bucket :=
  { b with
    sentStep := false, exhausted := false, delivered := 0, held := false, shadow := false, shadowWritten := false, hyper := [], nextScales := []
    ovfBlocks := [], nfBlocks := [], ovfRaised := false, gsq := 0, wsq := 0, dsq := 0, gathering := b.gathering && !b.gatherBad, gatherBad := false }

/-- Steps 1 to 4 of R473: senders, gathers, slots, sequence counts, credits, and no STATUS or NORM any more. -/
def State.stopStep (s : State) (j : Nat) : State :=
  let s := (s.leavePlan j).updPlan j fun p => { p.mapBuckets (fun b => b.fresh p.job.toNat) with stopped := true }
  { s with sync := s.sync.forget fun w => match w with | .ready q _ | .gath q _ => q == j | _ => false }

/-- Close the open step: the next one opens, and STEPOBJ is signalled (R467). A recorded gather version belongs to its step (R469). -/
def State.closeStep (s : State) (j kind : Nat) : State :=
  match s.plan j with
  | none => s
  | some p =>
    let q := p.mapBuckets fun b => { b.closed with gatherV := if p.sharded then none else b.gatherV }
    let s := s.setPlan j (some { q with
      openStep := p.openStep + 1, state := 1, lastToken := kind, tokenSent := false, clipSent := false, clip := fone, clipGot := false
      stopped := false, firstSent := false, finalSent := false, firstFrom := [], finalFrom := [], norms := [], normSent := false
      nfSeen := false, nfRaised := false, ovfRaised := false })
    s.signalRel p.ctxNo p.stepObj.toNat 1

/-- One telemetry record of an owned bucket (R480). -/
def State.telemetry (s : State) (j i outcome : Nat) : State :=
  match s.bucketOf j i with
  | none => s
  | some (p, b) =>
    let zero := outcome = 2 ∨ outcome = 3
    let bs := leBytes 4 b.bucket.toNat ++ leBytes 4 p.openStep.toNat ++ leBytes 4 p.version.toNat ++ leBytes 1 outcome ++ leBytes 3 0
      ++ leBytes 4 (s.rdLe (b.shard + 0x2C) 4) ++ leBytes 4 b.ovfBlocks.length ++ leBytes 4 b.nfBlocks.length ++ leBytes 4 p.clip.toNat
      ++ leBytes 8 (if zero then 0 else b.wsq.toNat) ++ leBytes 8 b.gsq.toNat ++ leBytes 8 (if zero then 0 else b.dsq.toNat) ++ leBytes 8 0
    (s.store (p.telem + 64 * (p.telemIdx.toNat % p.telemSlots)) bs).updPlan j fun p => { p with telemIdx := p.telemIdx + 1 }

/-- The entries that this member owns, in order. -/
def Plan.owned (p : Plan) : List Nat := (p.listBuckets.filter fun e => e.2.isOwner).map Prod.fst

def State.telemetryAll (s : State) (j outcome : Nat) : State :=
  match s.plan j with
  | some p => p.owned.foldl (fun s i => s.telemetry j i outcome) s
  | none => s

/-- The scales that take effect at an owner: every next scale on COMMIT, the doublings of OVF blocks on SKIP (R458). -/
def State.takeScales (s : State) (j i : Nat) (commit : Bool) : State :=
  match s.bucketOf j i with
  | none => s
  | some (_, b) =>
    b.nextScales.foldl (fun (s : State) e => if commit || b.ovfBlocks.contains e.1 then s.storeLe (b.agreed + e.1) 1 e.2.toNat else s) s

/-! The compute copy (R459, R468, R469). -/

/-- Bytes of a chunk's compute copy without its scales, by CFMT. -/
def chunkBytes (cfmt : Nat) : Nat := 128 * elemBits cfmt

/-- The shard descriptor's bytes, CFMT and the base of state copy `v` mod 2. -/
def State.shardDesc (s : State) (b : Bucket) : List Byte := s.rdN b.shard 64
def copyBase (desc : List Byte) (v : Nat) : Nat := fieldAt desc (8 * (v % 2)) 8

/-- Address of region `k` of a state copy: 0 masters, 1 first moment, 2 second moment, 3 factors, 4 compute copy. -/
def State.regionAt (s : State) (b : Bucket) (v k : Nat) : Nat :=
  let desc := s.shardDesc b
  copyBase desc v + (shardOffsets (shardSizes desc b.nchunk (s.beta1Zero desc))).getD k 0

/-- A chunk's compute copy, then its MX scales: the payload of GATHER_DATA and BCAST_DATA. -/
def State.chunkData (s : State) (b : Bucket) (v c : Nat) : List Byte :=
  let cfmt := fieldAt (s.shardDesc b) 0x2B 1 % 16
  let n := chunkBytes cfmt
  let base := s.regionAt b v (if cfmt = 1 then 0 else 4)
  s.rdN (base + c * n) n ++ (if isMx cfmt then s.rdN (base + b.nchunk * n + 32 * c) 32 else [])

/-- Write a received chunk into a replica buffer; the payload's length tells whether it carries scales. -/
def State.putChunk (s : State) (b : Bucket) (v c : Nat) (payload : List Byte) : State :=
  let base := if v % 2 = 0 then b.repl0 else b.repl1
  let n := if payload.length % 64 = 32 then payload.length - 32 else payload.length
  (s.store (base + c * n) (payload.take n)).store (base + b.nchunk * n + 32 * c) (payload.drop n)

/-- The agreed scales of 32 chunks from chunk `c` on. -/
def State.scaleData (s : State) (b : Bucket) (c : Nat) : List Byte := padTo 1024 (s.rdN (b.agreed + 32 * c) (32 * min 32 (b.nchunk - c)))

/-- Write received scales, as far as the bucket reaches. -/
def State.putScales (s : State) (b : Bucket) (c : Nat) (payload : List Byte) : State :=
  s.store (b.agreed + 32 * c) (payload.take (32 * min 32 (b.nchunk - c)))

/-- First chunks of the groups of 32. -/
def Bucket.groups (b : Bucket) : List Nat := (List.range (ceilDiv b.nchunk 32)).map fun g => 32 * g

/-- Broadcast an owned bucket to its children: the compute copy unless the step was skipped, and the agreed scales (R458, R468). -/
def State.broadcast (s : State) (j i : Nat) (data : Bool) : State :=
  match s.bucketOf j i with
  | none => s
  | some (p, b) =>
    let v := p.version.toNat
    b.bcast.foldl (fun (s : State) m =>
      let s := if data then (List.range b.nchunk).foldl (fun (s : State) c =>
          s.inject (s.jobPacket p m 4 2 b.bucket (c + 2 ^ 32 * v) (s.chunkData b v c))) s
        else s
      b.groups.foldl (fun (s : State) c => s.inject (s.jobPacket p m 4 3 b.bucket (c + 2 ^ 32 * v) (s.scaleData b c))) s) s

/-! Events of a plan. -/

def State.raisePlan (s : State) (p : Plan) (code : Nat) (payload : List Byte) : State := s.raiseCtx p.ctxNo code srcRed payload

/-- NONFINITE_GRAD, once for the open step. -/
def State.raiseNf (s : State) (j : Nat) : State :=
  match s.plan j with
  | some p =>
    if p.nfRaised then s
    else (s.setPlan j (some { p with nfRaised := true })).raisePlan p 0x0202 (leBytes 2 p.job.toNat ++ leBytes 2 0 ++ leBytes 4 p.openStep.toNat)
  | none => s

/-- STEP_ABORT. -/
def State.raiseStepAbort (s : State) (p : Plan) (source reason final : Nat) : State :=
  s.raisePlan p 0x0403 (leBytes 2 p.job.toNat ++ leBytes 1 source ++ leBytes 1 reason ++ leBytes 4 p.openStep.toNat ++ leBytes 1 final)

/-! Tokens (R467-R473). -/

/-- Send a token to the job-tree children. -/
def State.sendToken (s : State) (p : Plan) (kind reason hi : Nat) : State :=
  p.children.foldl (fun (s : State) m => s.inject (s.jobPacket p m 4 1 0 (kind + 256 * reason + 2 ^ 32 * hi) [])) s

/-- COMMIT at a member (R468): V, the scales, the records, the broadcasts, the close. -/
def State.applyCommit (s : State) (j : Nat) : State :=
  let s := s.updPlan j fun p => { p with version := p.version + 1 }
  match s.plan j with
  | none => s
  | some p =>
    let s := p.owned.foldl (fun s i => s.takeScales j i true) s
    let s := s.telemetryAll j 1
    let s := if p.sharded then s else p.owned.foldl (fun s i => s.broadcast j i true) s
    s.closeStep j 2

/-- SKIP at a member (R472). -/
def State.applySkip (s : State) (j : Nat) : State :=
  match s.plan j with
  | none => s
  | some p =>
    let s := p.owned.foldl (fun s i => s.takeScales j i false) s
    let s := (s.telemetryAll j 2).raiseNf j
    let s := if p.sharded then s else p.owned.foldl (fun s i => s.broadcast j i false) s
    s.closeStep j 3

/-- Close a step as a token ABORT does (R473): shadows are discarded, ABORTOBJ is signalled. -/
def State.closeAborted (s : State) (j : Nat) : State :=
  match s.plan j with
  | none => s
  | some p => ((s.telemetryAll j 3).closeStep j 4).signalRel p.ctxNo p.abortObj.toNat 1

/-- ABORT at a member (R473). -/
def State.applyAbort (s : State) (j reason : Nat) : State :=
  match s.plan j with
  | none => s
  | some p => ((s.stopStep j).raiseStepAbort p 2 reason 0).closeAborted j

/-- The master sends a closing token and applies it (R467). -/
def State.masterToken (s : State) (j kind reason : Nat) : State :=
  match s.plan j with
  | none => s
  | some p =>
    if p.tokenSent then s
    else
      let s := (s.setPlan j (some { p with tokenSent := true })).sendToken p kind reason (if kind = 2 then (p.version + 1).toNat else 0)
      if kind = 2 then s.applyCommit j else if kind = 3 then s.applySkip j else s.applyAbort j reason

/-- An abort request for a plan's open step: at the master it makes ABORT, elsewhere it goes to the master (R446, R470, R471). -/
def State.requestAbort (s : State) (j reason : Nat) : State :=
  match s.plan j with
  | none => s
  | some p => if p.isMaster then s.masterToken j 4 reason else s.inject (s.jobPacket p p.master 2 4 0 reason [])

/-! Statuses (R466, R467, R476-R478). -/

/-- NF and OVFBLOCKS of what this member owns. -/
def Plan.ownNf (p : Plan) : Nat := bit (p.listBuckets.any fun e => e.2.nfBlocks != [])
def Plan.ownOvf (p : Plan) : Nat := (p.listBuckets.map fun e => e.2.ovfBlocks.length).foldl (· + ·) 0

/-- Has every LOCAL contribution of the open step been sent? -/
def Plan.contributed (p : Plan) : Bool := p.listBuckets.all fun e => !e.2.isLocal || e.2.sentStep
def Plan.allHeld (p : Plan) : Bool := p.listBuckets.all fun e => !e.2.isOwner || e.2.held
def Plan.allShadows (p : Plan) : Bool := p.listBuckets.all fun e => !e.2.isOwner || e.2.shadow

/-- Have all job-tree children reported? -/
def Plan.childrenIn (p : Plan) (l : List (Nat × Nat × Nat × Nat)) : Bool := p.children.all fun m => l.any fun e => e.1 == m

/-- A member's status with its children's: OR of NF, saturating sum of OVFBLOCKS, sum of members. -/
def Plan.combine (p : Plan) (l : List (Nat × Nat × Nat × Nat)) : Nat × Nat × Nat :=
  l.foldl (fun acc e => (acc.1 ||| e.2.1, min (2 ^ 32 - 1) (acc.2.1 + e.2.2.1), acc.2.2 + e.2.2.2)) (p.ownNf, p.ownOvf, 1)

def statusPayload (x : Nat × Nat × Nat) : List Byte := leBytes 4 x.1 ++ leBytes 4 x.2.1 ++ leBytes 4 x.2.2

/-- Send CLIP to the children, and take it (R477-R479); the update itself follows from `clipGot`. -/
def State.masterClip (s : State) (j : Nat) (c : Word) : State :=
  match s.plan j with
  | none => s
  | some p =>
    if p.clipSent || p.tokenSent then s
    else (s.setPlan j (some { p with clipSent := true, clipGot := true, clip := c, state := 1 })).sendToken p 1 0 c.toNat

/-- The partial ‖g‖² of this member: its buckets' sums in entry order (R476). -/
def Plan.normSum (p : Plan) : DWord := (p.listBuckets.filter fun e => e.2.isOwner).foldl (fun t e => dadd t e.2.gsq) 0

/-- Insert a NORM at its member index. -/
def Plan.putNorm (p : Plan) (m : Nat) (x : DWord) (nf : Nat) : Plan :=
  { p with norms := (p.norms.filter fun e => e.1 != m) ++ [(m, x, nf)], nfSeen := p.nfSeen || nf != 0 }

/-- The fold of R477 in ascending member index. -/
def Plan.foldNorms (p : Plan) : DWord :=
  (List.range p.nmember).foldl (fun t m => match p.norms.find? fun e => e.1 == m with | some e => dadd t e.2.1 | none => t) 0

/-- c of R477. -/
def clipOf (t : DWord) (maxNorm : Word) : Word :=
  let root := toF64 (Fp.sqrt (f64 t))
  match Fp.cmp (f64 root) (f32 maxNorm) with
  | some .gt => toF32 (f64 (toF64 (Fp.div (f32 maxNorm) (f64 root))))
  | some _ => fone
  | none => toF32 (f64 (toF64 (Fp.div (f32 maxNorm) (f64 root))))

/-- The master's decision when the NORMs have arrived: SKIP as soon as one carries NF under NFPOLICY = 0, else CLIP (R477). -/
def State.decideNorms (s : State) (j : Nat) : State :=
  match s.plan j with
  | none => s
  | some p =>
    if !p.isMaster then s
    else if p.nfSeen && !p.nfBlock then s.masterToken j 3 0
    else if p.norms.length = p.nmember then s.masterClip j (clipOf p.foldNorms p.maxNorm)
    else s

/-- First round of CLIP = 2: once held and contributed and the children's first STATUS are in (R466, R478). -/
def State.firstRound (s : State) (j : Nat) : State :=
  match s.plan j with
  | none => s
  | some p =>
    if p.clipMode ≠ 2 || p.stopped || p.firstSent || !p.allHeld || !p.contributed || !p.childrenIn p.firstFrom then s
    else
      let s := s.setPlan j (some { p with firstSent := true, state := 2 })
      let x := p.combine p.firstFrom
      if !p.isMaster then s.inject (s.jobPacket p p.treeParent 2 3 0 (p.self_ + 65536) (statusPayload x))
      else if x.2.2 ≠ p.nmember then s
      else if x.1 ≠ 0 && !p.nfBlock then s.masterToken j 3 0
      else s.signalRel p.ctxNo p.normObj.toNat 1

/-- NORM of CLIP = 1: once every owned bucket is held (R476). DESIGN CHOICE: a member that owns nothing sends its +0 once it has sent its
contributions, as in the chapter's worked step (log 27). -/
def State.normRound (s : State) (j : Nat) : State :=
  match s.plan j with
  | none => s
  | some p =>
    if p.clipMode ≠ 1 || p.stopped || p.normSent || !p.allHeld || (p.owned.isEmpty && !p.contributed) then s
    else
      let q := { p with normSent := true, state := 2 }
      if p.isMaster then (s.setPlan j (some (q.putNorm p.self_ p.normSum p.ownNf))).decideNorms j
      else (s.setPlan j (some q)).inject
        (s.jobPacket p p.master 2 2 0 p.self_ (leBytes 8 p.normSum.toNat ++ leBytes 4 p.ownNf ++ leBytes 4 p.ownOvf))

/-- The final STATUS, or the master's closing token (R466, R467); with CLIP ≠ 0 no member's shadows count as complete before CLIP. -/
def State.finalRound (s : State) (j : Nat) : State :=
  match s.plan j with
  | none => s
  | some p =>
    if p.stopped || p.finalSent || (p.clipMode ≠ 0 && !p.clipGot) || !p.allShadows || !p.contributed || !p.childrenIn p.finalFrom then s
    else
      let s := s.setPlan j (some { p with finalSent := true })
      let x := p.combine p.finalFrom
      if !p.isMaster then s.inject (s.jobPacket p p.treeParent 2 3 0 p.self_ (statusPayload x))
      else if x.2.2 ≠ p.nmember then s
      else if x.1 ≠ 0 && !p.nfBlock then s.masterToken j 3 0
      else s.masterToken j 2 0

/-- What a member's progress may make due. -/
def State.rounds (s : State) (j : Nat) : State := ((s.normRound j).firstRound j).finalRound j

/-! Nodes (R445-R449). -/

/-- One chunk as it reaches a node: the value of each element, the saturated elements, and the bitmaps. -/
structure ChunkIn where
  vals : List Int
  satd : List Nat
  ovf  : Word
  nf   : Word
  deriving DecidableEq, Repr

/-- The chunk that a chunk record spells (R447). -/
def Bucket.chunkOf (b : Bucket) (raw : Bool) (r : List Byte) : ChunkIn :=
  if raw then
    { vals := (List.range 1024).map (fun k => if bitOf (r.getD (k / 8) 0).toNat (k % 8) then 1 else -1), satd := []
      ovf := BitVec.ofNat 32 (fieldAt r 128 4), nf := BitVec.ofNat 32 (fieldAt r 132 4) }
  else
    let m : Int := if b.oneBit then (2 ^ b.shift : Nat) else 1
    { vals := (r.take 1024).map (fun c => if c = 0x80 then 0 else m * signedOf 8 c.toNat)
      satd := (List.range 1024).filter fun k => r.getD k 0 == 0x80
      ovf := BitVec.ofNat 32 (fieldAt r 1024 4), nf := BitVec.ofNat 32 (fieldAt r 1028 4) }

/-- Rounded division by 2^f, to nearest even (R448). -/
def roundDiv (z : Int) (f : Nat) : Int := if z < 0 then -(roundShift .rne z.natAbs f : Int) else roundShift .rne z.natAbs f

/-- The output code of an element, and whether its block overflows. -/
def Bucket.outCode (b : Bucket) (x : RSlot) (k : Nat) (z : Int) : Byte × Bool :=
  let v := if b.oneBit then roundDiv z b.shift else z
  if x.satur.contains k || decide (127 < v) || decide (v < -127) then (0x80, true) else (BitVec.ofNat 8 (toBits 8 v), false)

/-- The output of a full slot: a code chunk record (R448). -/
def Bucket.outRecord (b : Bucket) (x : RSlot) : List Byte :=
  let cs := (x.acc.zip (List.range 1024)).map fun (z, k) => b.outCode x k z
  let flagged := (List.range 32).filter fun g => ((cs.drop (32 * g)).take 32).any Prod.snd
  cs.map Prod.fst ++ leBytes 4 (x.ovf.toNat ||| maskOf flagged) ++ leBytes 4 x.nf.toNat

/-- Add an input's next chunk to its slot (R445-R447); `false` for a key mismatch. -/
def Bucket.addChunk (b : Bucket) (input chunk : Nat) (step : Word) (c : ChunkIn) : Bool × Bucket :=
  let q := Tab.get (fun _ => 0) b.seqs input
  let pos := q % b.depth
  let b := { b with seqs := Tab.set (fun _ => 0) b.seqs input (q + 1) }
  let x := (Tab.get (fun _ => none) b.slots pos).getD
    { step := step, chunk := chunk, acc := List.replicate 1024 0, satur := [], ovf := 0, nf := 0, added := [], sent := false }
  if x.step ≠ step ∨ x.chunk ≠ chunk then (false, b)
  else
    let x := { x with
      acc := List.zipWith (· + ·) x.acc c.vals, satur := x.satur ++ c.satd, ovf := x.ovf ||| c.ovf, nf := x.nf ||| c.nf
      added := x.added ++ [input] }
    (true, { b with slots := Tab.set (fun _ => none) b.slots pos (some x) })

/-- The lane position of the node's next output, when its slot is full (R445, R448). -/
def Bucket.nextOut (b : Bucket) : Option (Nat × RSlot) :=
  if b.depth = 0 then none
  else
    match Tab.get (fun _ => none) b.slots (b.outSeq % b.depth) with
    | some x => if !x.sent && x.added.length == b.ninAll && !(b.pending.any fun e => e.1 == b.outSeq % b.depth) then some (b.outSeq % b.depth, x) else none
    | none => none

/-- SLOT_EXHAUSTED, at the first wait for a credit of the job's step (R450). -/
def State.exhaust (s : State) (j i chunk : Nat) : State :=
  match s.bucketOf j i with
  | none => s
  | some (p, b) =>
    if p.listBuckets.any fun e => e.2.exhausted then s
    else (s.updBucket j i fun b => { b with exhausted := true }).raisePlan p 0x0404
      (leBytes 2 p.job.toNat ++ leBytes 2 0 ++ leBytes 4 b.bucket.toNat ++ leBytes 4 p.openStep.toNat ++ leBytes 4 chunk)

/-- A CONTRIB to the parent. -/
def State.sendContrib (s : State) (p : Plan) (b : Bucket) (raw : Bool) (step : Word) (first : Nat) (records : List (List Byte)) : State :=
  s.inject { s.jobPacket p b.parent b.upVc 1 b.bucket (first + 2 ^ 32 * records.length + 2 ^ 34 * bit raw) records.flatten with step := step }

/-- Let a node's full slots leave, in order: to the update unit at the owner, else to the parent while credits last, three consecutive chunks at
most in one packet (R448, R450). -/
def State.nodeOut (j i : Nat) : Nat → State → State
  | 0, s => s
  | n + 1, s =>
    match s.bucketOf j i with
    | none => s
    | some (p, b) =>
      match b.nextOut with
      | none => s
      | some (pos, x) =>
        if b.isOwner then
          State.nodeOut j i n (s.updBucket j i fun b => { b with pending := b.pending ++ [(pos, x)], outSeq := b.outSeq + 1 })
        else if b.credits = 0 then s.exhaust j i x.chunk
        else
          let take (b : Bucket) (pos : Nat) (x : RSlot) : Bucket :=
            { b with slots := Tab.set (fun _ => none) b.slots pos (some { x with sent := true }), outSeq := b.outSeq + 1, credits := b.credits - 1 }
          let more (b : Bucket) (x : RSlot) : Option (Nat × RSlot) := match b.nextOut with
            | some (q, y) => if b.credits ≠ 0 ∧ y.step = x.step ∧ y.chunk = x.chunk + 1 then some (q, y) else none
            | none => none
          let b1 := take b pos x
          let (b2, records) : Bucket × List (List Byte) := match more b1 x with
            | none => (b1, [b.outRecord x])
            | some (q, y) =>
              let b2 := take b1 q y
              (match more b2 y with
               | none => (b2, [b.outRecord x, b.outRecord y])
               | some (r, z) => (take b2 r z, [b.outRecord x, b.outRecord y, b.outRecord z]))
          let s := (s.updBucket j i fun _ => b2).countRed 3 records.length
          State.nodeOut j i n (s.sendContrib p b false x.step x.chunk records)

/-- A chunk of input `input` reaches the node of entry `i` (R446). -/
def State.nodeIn (s : State) (j i input chunk : Nat) (step : Word) (c : ChunkIn) : State :=
  match s.bucketOf j i with
  | none => s
  | some (_, b) =>
    if b.depth = 0 then s
    else
      let s := s.hubMoved 169
      match b.addChunk input chunk step c with
      | (true, b) => s.updBucket j i fun _ => b
      | (false, b) => ((s.updBucket j i fun _ => b).countRed 2 1).requestAbort j 3

/-- R452 for a packet of an installed plan: hold, drop as stale, or take. -/
inductive StepCheck where
  | hold
  | stale
  | take
  deriving DecidableEq, Repr

def Plan.checkStep (p : Plan) (step : Word) : StepCheck :=
  if p.openStep < step then .hold else if step < p.openStep then .stale else .take

/-- A delivered packet of the given channel and type, at the head of its channel, whose job has a plan here: its place. Without a plan it is taken and dropped (log 27). -/
def State.jobOf (s : State) (p : Packet) (vc : List Nat) (type : Nat) : Option (Nat × Plan) :=
  if !vc.contains p.vc.val || p.type.toNat != type || (s.receive p).isNone then none else s.planOfJob p.job.toNat

/-- Take a delivered packet out of the inbox. -/
def State.takePacket (s : State) (p : Packet) : State := match s.receive p with | some (_, s) => s | none => s

/-- The effect of a delivered packet of a job, by channel and type. -/
def State.onPacket (s : State) (p : Packet) (vc : List Nat) (type : Nat) (f : Nat → Plan → State → State) : State :=
  if !vc.contains p.vc.val || p.type.toNat != type then s
  else
    match s.receive p with
    | none => s
    | some (_, t) => match t.planOfJob p.job.toNat with
      | some (j, q) => f j q t
      | none => t

/-- The same for the packets that R452 orders by step. -/
def State.onStep (s : State) (p : Packet) (vc : List Nat) (type : Nat) (f : Nat → Plan → State → State) : State :=
  match s.jobOf p vc type with
  | some (_, q) =>
    (match q.checkStep p.step with
     | .hold => s
     | .stale => (s.takePacket p).countRed 1 1
     | .take => s.onPacket p vc type f)
  | none => s.onPacket p vc type f

/-- CONTRIB: its chunks are added to their slots, and what is full leaves (R446-R448, R452). -/
def contrib (p : Packet) (s : State) : State :=
  s.onStep p [2, 3] 1 fun j q s =>
    match q.entryOf p.bucket.toNat, s.memberOf q p.src with
    | some (i, b), some m =>
      (match b.inputs.findIdx? fun x => x == m with
       | none => s
       | some input =>
         let n := bits p.arg.toNat 32 2
         let raw := bitOf p.arg.toNat 34
         let size := if raw then 136 else 1032
         let s := (List.range n).foldl (fun (s : State) k =>
           s.nodeIn j i input (bits p.arg.toNat 0 32 + k) p.step (b.chunkOf raw ((p.payload.drop (size * k)).take size))) s
         State.nodeOut j i b.depth s)
    | _, _ => s

def execContrib (p : Packet) (s : State) : Host.Outcome State Fault Refusal := live s (contrib p)

/-- Does a packet carry a chunk of a bucket up? -/
def carries (q : Plan) (b : Bucket) (x : RSlot) (p : Packet) : Bool :=
  (p.vc.val == 2 || p.vc.val == 3) && p.type == 1 && p.job == q.job && p.bucket == b.bucket && p.step == x.step
    && decide (bits p.arg.toNat 0 32 ≤ x.chunk) && decide (x.chunk < bits p.arg.toNat 0 32 + bits p.arg.toNat 32 2)

/-- Has the packet that carries a slot's sum left: is it neither before the switch nor at a port? -/
def State.hasLeft (s : State) (q : Plan) (b : Bucket) (x : RSlot) : Bool :=
  b.isOwner || !((s.fab.inject.any fun p => carries q b x p) || s.fab.ports.any fun e => e.2.queued.any fun w => w.1.isNone && carries q b x w.2)

/-- SLOT_FREE: every slot of the bucket whose sum has left is freed, and its inputs get their credits back, combined (R449). -/
def slotFree (j i : Nat) (s : State) : State :=
  match s.bucketOf j i with
  | none => s
  | some (q, b) =>
    let gone (e : Nat × Option RSlot) : Bool := match e.2 with | some x => x.sent && s.hasLeft q b x | none => false
    let n := (b.slots.filter gone).length
    if n = 0 then s
    else
      let s := (s.leaveSlots b gone).updBucket j i fun b => { b with slots := b.slots.filter fun e => !gone e }
      b.inputs.foldl (fun (s : State) m => s.inject { s.jobPacket q m 3 2 b.bucket n [] with step := 0 }) s

def execSlotFree (plan : Fin 16) (bucket : Nat) (s : State) : Host.Outcome State Fault Refusal := live s (slotFree plan.val bucket)

/-! Contributing (R442-R444, R450). -/

/-- One element of R107: code, new error memory, overflow, non-finite. A 1-bit code stands for its value 1 or -1, so the code 0 of a non-finite element
is -1. -/
def quantise (oneBit : Bool) (x : Nat) (g e : Word) : Int × Word × Bool × Bool :=
  let v := fadd g e
  if !ffinite v then (if oneBit then -1 else 0, 0, false, true)
  else
    let rest (k : Int) : Word := toF32 (Fp.add (f32 v) (Fp.fin (decide (k < 0)) k.natAbs ((x : Int) - 127)).neg)
    if oneBit then
      let neg := match Fp.cmp (f32 v) (.fin false 0 0) with | some .lt => true | _ => false
      let k : Int := if neg then -1 else 1
      (k, rest k, false, false)
    else
      match (f32 v).scale (127 - (x : Int)) with
      | .fin neg m ex =>
        let q := if 0 ≤ ex then m <<< ex.toNat else roundShift .rne m (-ex).toNat
        let k : Int := if neg then -(min q 127 : Nat) else (min q 127 : Nat)
        (k, rest k, decide (127 < q), false)
      | _ => (0, 0, false, true)

/-- Words of a byte string. -/
def wordsOf (n : Nat) (bs : List Byte) : List Word := (List.range n).map fun k => BitVec.ofNat 32 (fieldAt bs (4 * k) 4)

/-- The local contribution's chunk `c`: its elements' codes or bits, the new error memory, the bitmaps. -/
def State.quantiseChunk (s : State) (b : Bucket) (c : Nat) : List Int × List Word × Word × Word :=
  let g := wordsOf 1024 (s.rdN (b.gradAddr + 4096 * c) 4096)
  let e := if b.noEm then List.replicate 1024 0 else wordsOf 1024 (s.rdN (b.errAddr + 4096 * c) 4096)
  let x := s.rdN (b.agreed + 32 * c) 32
  let l := (List.range 1024).map fun k => quantise b.oneBit (x.getD (k / 32) 0).toNat (g.getD k 0) (e.getD k 0)
  let flag (f : Int × Word × Bool × Bool → Bool) : Word := BitVec.ofNat 32 (maskOf ((List.range 32).filter fun k => ((l.drop (32 * k)).take 32).any f))
  (l.map Prod.fst, l.map (fun t => t.2.1), flag (fun t => t.2.2.1), flag (fun t => t.2.2.2))

/-- The chunk record of a pass-through's chunk. -/
def Bucket.rawRecord (b : Bucket) (codes : List Int) (ovf nf : Word) : List Byte :=
  (if b.oneBit then (List.range 128).map fun k => BitVec.ofNat 8 (maskOf ((List.range 8).filter fun t => codes.getD (8 * k + t) 0 == 1))
   else codes.map fun z => BitVec.ofNat 8 (toBits 8 z)) ++ leBytes 4 ovf.toNat ++ leBytes 4 nf.toNat

/-- Chunks of the local input that sit in slots of this device's node. -/
def Bucket.localInSlots (b : Bucket) : Nat := (b.slots.filter fun e => match e.2 with | some x => x.added.contains b.nin | none => false).length

/-- Credits that the local contribution may spend. -/
def Bucket.localCredits (b : Bucket) : Nat := if b.depth = 0 then b.credits else b.depth - b.localInSlots

/-- Can the sender read a chunk's gradient, error memory and scales, and write the error memory back? The FAULT cause and the address if not. -/
def State.senderFault (s : State) (p : Plan) (b : Bucket) (c : Nat) : Option (Nat × Nat × Nat) :=
  let c' := p.ctxNo
  let checks := [(s.readFault c' (b.gradAddr + 4096 * c) 4096, b.gradAddr + 4096 * c, 4096),
    (if b.noEm then 0 else s.readFault c' (b.errAddr + 4096 * c) 4096, b.errAddr + 4096 * c, 4096),
    (s.readFault c' (b.agreed + 32 * c) 32, b.agreed + 32 * c, 32),
    (if b.noEm then 0 else s.writeFault c' (b.errAddr + 4096 * c) 4096, b.errAddr + 4096 * c, 4096)]
  checks.find? fun e => e.1 != 0

/-- Send the local contribution's chunks while credits last. -/
def State.sendChunks (j i : Nat) : Nat → State → State
  | 0, s => s
  | n + 1, s =>
    match s.bucketOf j i with
    | none => s
    | some (p, b) =>
      match b.sending with
      | none => s
      | some c =>
        if b.nchunk ≤ c then s.updBucket j i fun b => { b with sending := none, sentStep := true }
        else if b.localCredits = 0 then s.exhaust j i c
        else
          match s.senderFault p b c with
          | some (cause, a, len) =>
            let s := s.updBucket j i fun b => { b with sending := none }
            let s := if cause = 3 then s.reportPoison a len else s
            (s.faultCtx p.ctxNo cause 0xFF (if cause = 3 then 0x0302 else 0) srcRed a).requestAbort j 4
          | none =>
            let (codes, errs, ovf, nf) := s.quantiseChunk b c
            let s := if b.noEm then s else s.store (b.errAddr + 4096 * c) (errs.flatMap fun w => leBytes 4 w.toNat)
            let s := (s.updBucket j i fun b => { b with sending := some (c + 1) }).hubMoved 168
            if b.depth = 0 then
              let s := (s.updBucket j i fun b => { b with credits := b.credits - 1 }).countRed 3 1
              State.sendChunks j i n (s.sendContrib p b b.oneBit p.openStep c [b.rawRecord codes ovf nf])
            else
              let s := s.nodeIn j i b.nin c p.openStep { vals := codes, satd := [], ovf := ovf, nf := nf }
              State.sendChunks j i n (State.nodeOut j i b.depth s)

/-- BUCKET_CONTRIBUTE: READYOBJ yields, and the local contribution goes on as far as credits allow (R442). -/
def bucketContribute (j i : Nat) (s : State) : State :=
  match s.bucketOf j i with
  | none => s
  | some (p, b) =>
    if !b.isLocal || b.sentStep || p.stopped then s
    else
      let s := if b.sending.isSome || b.readyWait then s
        else match s.objOf p.ctxNo b.readyObj.toNat with
          | some o => (s.updBucket j i fun b => { b with readyWait := true }).enqueue [(o, ⟨.ready j i, 1, true⟩)]
          | none => s
      let s := if b.sending.isNone && s.waited (.ready j i) then
          (s.consume (.ready j i)).updBucket j i fun b => { b with readyWait := false, sending := some 0 }
        else s
      (State.sendChunks j i (b.nchunk + 1) s).rounds j

def execBucketContribute (plan : Fin 16) (bucket : Nat) (s : State) : Host.Outcome State Fault Refusal :=
  live s (bucketContribute plan.val bucket)

/-- CREDIT: credits come back to the input, and the node's waiting output may leave (R450). -/
def credit (p : Packet) (s : State) : State :=
  s.onPacket p [3] 2 fun j q s =>
    match q.entryOf p.bucket.toNat with
    | none => s
    | some (i, b) => State.nodeOut j i b.depth (s.updBucket j i fun b => { b with credits := b.credits + bits p.arg.toNat 0 32 })

def execCredit (p : Packet) (s : State) : Host.Outcome State Fault Refusal := live s (credit p)

/-! Master and tree (R466, R471, R477). -/

/-- A NORM packet enters the master's fold table (R477). -/
def takeNorm (p : Packet) (s : State) : State :=
  s.onStep p [2] 2 fun j q s =>
    if !q.isMaster || q.clipMode != 1 then s
    else (s.setPlan j (some (q.putNorm (bits p.arg.toNat 0 16) (BitVec.ofNat 64 (fieldAt p.payload 0 8)) (fieldAt p.payload 8 4)))).decideNorms j

/-- STATUS from a job-tree child for the open step (R466, R467, R478). -/
def status (p : Packet) (s : State) : State :=
  s.onPacket p [2] 3 fun j q s =>
    let m := bits p.arg.toNat 0 16
    let x := (m, fieldAt p.payload 0 4, fieldAt p.payload 4 4, fieldAt p.payload 8 4)
    if p.step ≠ q.openStep ∨ q.stopped then s
    else if bitOf p.arg.toNat 16 then
      (s.setPlan j (some { q with firstFrom := (q.firstFrom.filter fun e => e.1 != m) ++ [x] })).firstRound j
    else (s.setPlan j (some { q with finalFrom := (q.finalFrom.filter fun e => e.1 != m) ++ [x] })).finalRound j

def execStatus (p : Packet) (s : State) : Host.Outcome State Fault Refusal := live s (status p)

/-- ABORT_REQ at the master (R471). -/
def abortReq (p : Packet) (s : State) : State :=
  s.onPacket p [2] 4 fun j q s => if q.isMaster && p.step == q.openStep then s.masterToken j 4 (bits p.arg.toNat 0 8) else s

def execAbortReq (p : Packet) (s : State) : Host.Outcome State Fault Refusal := live s (abortReq p)

/-- A token of the given kind for the open step: forwarded to the children, then applied (R467). -/
def State.onToken (s : State) (p : Packet) (kind : Nat) (f : Nat → Plan → State → State) : State :=
  if bits p.arg.toNat 0 8 ≠ kind then s
  else s.onPacket p [4] 1 fun j q s =>
    if p.step ≠ q.openStep then s
    else f j q (s.sendToken q kind (bits p.arg.toNat 8 8) (bits p.arg.toNat 32 32))

/-- TOKEN_COMMIT (R468). -/
def tokenCommit (p : Packet) (s : State) : State := s.onToken p 2 fun j _ s => s.applyCommit j
def execTokenCommit (p : Packet) (s : State) : Host.Outcome State Fault Refusal := live s (tokenCommit p)

/-- TOKEN_SKIP (R472). -/
def tokenSkip (p : Packet) (s : State) : State := s.onToken p 3 fun j _ s => s.applySkip j
def execTokenSkip (p : Packet) (s : State) : Host.Outcome State Fault Refusal := live s (tokenSkip p)

/-- TOKEN_ABORT (R473). -/
def tokenAbort (p : Packet) (s : State) : State := s.onToken p 4 fun j _ s => s.applyAbort j (bits p.arg.toNat 8 8)
def execTokenAbort (p : Packet) (s : State) : Host.Outcome State Fault Refusal := live s (tokenAbort p)

/-! Gathers and broadcasts (R468-R470). -/

/-- GATHER_START: GATHOBJ yields, and the owner is asked for every chunk of the bucket (R469). -/
def gatherStart (j i : Nat) (s : State) : State :=
  match s.bucketOf j i with
  | none => s
  | some (p, b) =>
    if !p.sharded || b.gathObj = 0xFFFF || b.gathering || p.stopped then s
    else
      let s := if b.gathWait then s
        else match s.objOf p.ctxNo b.gathObj.toNat with
          | some o => (s.updBucket j i fun b => { b with gathWait := true }).enqueue [(o, ⟨.gath j i, 1, true⟩)]
          | none => s
      if !s.waited (.gath j i) then s
      else
        let s := (s.consume (.gath j i)).updBucket j i fun b => { b with gathWait := false, gathering := true, gathered := [], scalesGot := [] }
        s.inject (s.jobPacket p (Config.ownerMember p.job.toNat b.bucket.toNat) 0 1 b.bucket (2 ^ 32 * b.nchunk) [])

def execGatherStart (plan : Fin 16) (bucket : Nat) (s : State) : Host.Outcome State Fault Refusal := live s (gatherStart plan.val bucket)

/-- GATHER_REQ at the owner: the chunks of its current copy and their scales, with V (R469). -/
def gatherReq (p : Packet) (s : State) : State :=
  s.onStep p [0] 1 fun _ q s =>
    match q.entryOf p.bucket.toNat, s.memberOf q p.src with
    | some (_, b), some m =>
      if !b.isOwner then s
      else
        let v := q.version.toNat
        let first := bits p.arg.toNat 0 32
        let n := min (bits p.arg.toNat 32 32) (b.nchunk - first)
        let s := (List.range n).foldl (fun (s : State) k =>
          s.inject (s.jobPacket q m 1 1 b.bucket (first + k + 2 ^ 32 * v) (s.chunkData b v (first + k)))) s
        (b.groups.filter fun c => decide (first < c + 32) && decide (c < first + n)).foldl (fun (s : State) c =>
          s.inject (s.jobPacket q m 1 2 b.bucket (c + 2 ^ 32 * v) (s.scaleData b c))) s
    | _, _ => s

def execGatherReq (p : Packet) (s : State) : Host.Outcome State Fault Refusal := live s (gatherReq p)

/-- Has a whole bucket arrived? Then ARRIVEOBJ is signalled (R468, R469). -/
def State.arrived (s : State) (j i : Nat) : State :=
  match s.bucketOf j i with
  | none => s
  | some (p, b) =>
    if (List.range b.nchunk).all (fun c => b.gathered.contains c) && b.groups.all (fun c => b.scalesGot.contains c) then
      (s.updBucket j i fun b => { b with gathered := [], scalesGot := [], gathering := false }).signalRel p.ctxNo b.arriveObj.toNat 1
    else s

/-- A gather's answer with version `v`: the first of the step records it; another version stops the gather with PARAM_VERSION and an abort
request with reason 2; else `f` writes it (R469, R470). -/
def State.onGather (s : State) (j i v : Nat) (f : Bucket → State → State) : State :=
  match s.bucketOf j i with
  | none => s
  | some (p, b) =>
    if !b.gathering || b.gatherBad then s
    else
      match b.gatherV with
      | some w =>
        if w.toNat = v then (f b s).arrived j i
        else
          let s := s.updBucket j i fun b => { b with gatherBad := true }
          (s.raisePlan p 0x0402 (leBytes 2 p.job.toNat ++ leBytes 4 p.openStep.toNat ++ leBytes 4 b.bucket.toNat ++ leBytes 2 w.toNat ++ leBytes 2 v)).requestAbort j 2
      | none => (f b (s.updBucket j i fun b => { b with gatherV := some (BitVec.ofNat 32 v) })).arrived j i

/-- GATHER_DATA (R469, R470). -/
def gatherData (p : Packet) (s : State) : State :=
  s.onPacket p [1] 1 fun j q s =>
    match q.entryOf p.bucket.toNat with
    | none => s
    | some (i, _) =>
      let c := bits p.arg.toNat 0 32
      let v := bits p.arg.toNat 32 32
      s.onGather j i v fun b s => (s.putChunk b v c p.payload).updBucket j i fun b => { b with gathered := b.gathered ++ [c] }

def execGatherData (p : Packet) (s : State) : Host.Outcome State Fault Refusal := live s (gatherData p)

/-- GATHER_SCALES (R458, R469). -/
def gatherScales (p : Packet) (s : State) : State :=
  s.onPacket p [1] 2 fun j q s =>
    match q.entryOf p.bucket.toNat with
    | none => s
    | some (i, _) =>
      let c := bits p.arg.toNat 0 32
      s.onGather j i (bits p.arg.toNat 32 32) fun b s => (s.putScales b c p.payload).updBucket j i fun b => { b with scalesGot := b.scalesGot ++ [c] }

def execGatherScales (p : Packet) (s : State) : Host.Outcome State Fault Refusal := live s (gatherScales p)

/-- Forward a broadcast packet to this member's broadcast children. -/
def State.forwardBcast (s : State) (q : Plan) (b : Bucket) (p : Packet) : State :=
  b.bcast.foldl (fun (s : State) m =>
    s.inject { s.jobPacket q m 4 p.type p.bucket p.arg.toNat p.payload with step := p.step }) s

/-- A broadcast of another version begins a new arrival. -/
def Bucket.arrivalOf (b : Bucket) (v : Nat) : Bucket :=
  if b.gatherV = some (BitVec.ofNat 32 v) then b else { b with gatherV := some (BitVec.ofNat 32 v), gathered := [], scalesGot := [] }

/-- BCAST_DATA (R468). -/
def bcastData (p : Packet) (s : State) : State :=
  s.onPacket p [4] 2 fun j q s =>
    match q.entryOf p.bucket.toNat with
    | none => s
    | some (i, b) =>
      let c := bits p.arg.toNat 0 32
      let v := bits p.arg.toNat 32 32
      let s := (s.forwardBcast q b p).putChunk b v c p.payload
      (s.updBucket j i fun b => let b := b.arrivalOf v; { b with gathered := b.gathered ++ [c] }).arrived j i

def execBcastData (p : Packet) (s : State) : Host.Outcome State Fault Refusal := live s (bcastData p)

/-- BCAST_SCALES (R458, R468). -/
def bcastScales (p : Packet) (s : State) : State :=
  s.onPacket p [4] 3 fun j q s =>
    match q.entryOf p.bucket.toNat with
    | none => s
    | some (i, b) =>
      let c := bits p.arg.toNat 0 32
      let s := (s.forwardBcast q b p).putScales b c p.payload
      (s.updBucket j i fun b => let b := b.arrivalOf (bits p.arg.toNat 32 32); { b with scalesGot := b.scalesGot ++ [c] }).arrived j i

def execBcastScales (p : Packet) (s : State) : Host.Outcome State Fault Refusal := live s (bcastScales p)

end Sys2Proof.Machine
end

