-- ==== Sys2Proof/Machine/Update.lean ====
section
/-!
DEFINITION. The update units (R454-R464, R476): summed codes become gradients, masters, moments and compute copies of the shadow.
-/
namespace Sys2Proof.Machine

/-- A hyper-parameter block (R460), decoded by `hyperOf`. -/
structure Hyper where
  lrm    : Word
  lrexp  : Int
  nesterov : Bool
  beta1  : Word
  beta2  : Word
  eps    : Word
  wd     : Word
  bc1    : Word
  bc2    : Word
  gscale : Word
  eps2   : Word
  dclip  : Word
  deriving DecidableEq, Repr

def hyperOf (b : List Byte) : Hyper :=
  let w (off : Nat) : Word := BitVec.ofNat 32 (fieldAt b off 4)
  { lrm := w 0, lrexp := signedOf 8 (fieldAt b 4 1), nesterov := bitOf (fieldAt b 5 1) 0, beta1 := w 8, beta2 := w 0xC, eps := w 0x10
    wd := w 0x14, bc1 := w 0x18, bc2 := w 0x1C, gscale := w 0x20, eps2 := w 0x24, dclip := w 0x28 }

/-- What the update of one bucket reads of its descriptors. -/
structure Shard where
  b     : Bucket
  h     : Hyper
  opt   : Nat
  mfmt  : Nat
  mofmt : Nat
  cnum  : Nat
  cvar  : Bool
  hold  : Nat
  rows  : Nat
  cols  : Nat
  padmap : Nat
  cur   : Nat                    -- V mod 2
  offs  : List Nat               -- region offsets in a copy
  copies : Nat × Nat
  nfBlock : Bool
  margin : Nat
  deriving DecidableEq, Repr

def State.shardOf (s : State) (p : Plan) (b : Bucket) : Shard :=
  let d := s.shardDesc b
  let h := hyperOf (if b.hyper = [] then s.rdN (fieldAt d 0x10 8) 64 else b.hyper)
  { b := b, h := h, opt := fieldAt d 0x28 1, mfmt := fieldAt d 0x29 1, mofmt := fieldAt d 0x2A 1
    cnum := fieldAt d 0x2B 1 % 16, cvar := bitOf (fieldAt d 0x2B 1) 4, hold := fieldAt d 0x18 8, rows := fieldAt d 0x20 4
    cols := fieldAt d 0x24 4, padmap := fieldAt d 0x30 8, cur := p.version.toNat % 2
    offs := shardOffsets (shardSizes d b.nchunk (h.beta1 <<< 1 == 0)), copies := (fieldAt d 0 8, fieldAt d 8 8), nfBlock := p.nfBlock, margin := p.margin }

/-- Address of a region of the current or the shadow copy. -/
def Shard.at_ (x : Shard) (shadow : Bool) (k : Nat) : Nat :=
  (if (x.cur == 0) != shadow then x.copies.1 else x.copies.2) + x.offs.getD k 0

/-- Elements of the bucket. -/
def Shard.elems (x : Shard) : Nat := 1024 * x.b.nchunk

def Shard.factored (x : Shard) : Bool := x.opt == 4
/-- R464: a bucket is streamed when CLIP = 0 and OPT ≠ 4. -/
def streams (p : Plan) (x : Shard) : Bool := p.clipMode == 0 && !x.factored
def Shard.hasM (x : Shard) : Bool := !x.factored || x.h.beta1 <<< 1 != 0
def Shard.hasV (x : Shard) : Bool := x.opt == 2

/-- Is element `k` of the bucket padding (R438)? -/
def State.isPad (s : State) (x : Shard) (k : Nat) : Bool := x.padmap != 0 && bitOf (s.rd (x.padmap + k / 8)).toNat (k % 8)

/-! Gradients (R454, R455). -/

/-- Agreed scale of block `b`. -/
def State.agreedOf (s : State) (x : Shard) (b : Nat) : Nat := (s.rd (x.b.agreed + b)).toNat

/-- The FP32 gradient of a code, before clipping; +0 for padding. -/
def State.gradOf (s : State) (x : Shard) (k : Nat) (code : Byte) : Word :=
  if s.isPad x k then 0
  else
    let z := signedOf 8 code.toNat
    let e : Int := (s.agreedOf x (k / 32) : Int) - 127 + (if x.b.oneBit then x.b.shift else 0)
    toF32 (Fp.mul (.fin (decide (z < 0)) z.natAbs e) (f32 x.h.gscale))

/-- Is a block kept (R455)? -/
def Shard.kept (x : Shard) (ovf nf : Bool) : Bool := ovf || (nf && x.nfBlock)

/-! Next scales (R457). -/

/-- The least k with a × 2^margin ≤ 127 × 2^k, for a ≠ 0. -/
def leastK (a : Nat) : Int :=
  let ok (k : Int) : Bool := if 0 ≤ k then decide (a ≤ 127 * 2 ^ k.toNat) else decide (a * 2 ^ (-k).toNat ≤ 127)
  ((List.range 32).map fun (i : Nat) => (i : Int) - 16).find? ok |>.getD 16

/-- ⌊log₂ (p / q)⌋ for p, q ≠ 0. -/
def floorLog2 (p q : Nat) : Int :=
  let k : Int := (Nat.log2 p : Int) - Nat.log2 q
  let below : Bool := if 0 ≤ k then decide (p < q * 2 ^ k.toNat) else decide (p * 2 ^ (-k).toNat < q)
  if below then k - 1 else k

/-- x′ of one block from its non-padding codes (R438, R457). -/
def Shard.nextScale (x : Shard) (agreed : Nat) (ovf : Bool) (all real : List Byte) : Byte :=
  let mags (l : List Byte) : List Nat := l.map fun c => (signedOf 8 c.toNat).natAbs
  let s := (mags real).foldl (· + ·) 0
  let a := (mags all).foldl max 0
  let v : Int :=
    if ovf then min 254 (agreed + 1)
    else if !x.b.oneBit then (if a = 0 then max 1 ((agreed : Int) - 1) else agreed + leastK (a * 2 ^ x.margin))
    else if s = 0 then agreed
    else 127 + ((agreed : Int) - 127 + x.b.shift) + floorLog2 s (real.length * x.b.nleaf)
  BitVec.ofNat 8 (max 1 (min 254 v)).toNat

/-! State of an element (R460, R462). -/

/-- The master value w: FP32, or RN32(hi + res × 2^LREXP). -/
def Shard.masterOf (x : Shard) (raw : Nat) : Word :=
  if x.mfmt = 2 then toF32 (Fp.add (decodeFp bf16 (raw % 65536)) ((decodeFp bf16 (raw / 65536)).scale x.h.lrexp)) else BitVec.ofNat 32 raw

/-- The new master from the direction d; the scaling by 2^LREXP is exact (R462). -/
def Shard.stepMaster (x : Shard) (raw : Nat) (d : Word) : Nat :=
  if x.mfmt = 2 then
    let u := fmul x.h.lrm d
    let r2 := fsub (toF32 (decodeFp bf16 (raw / 65536))) u
    let t := toF32 (Fp.add (decodeFp bf16 (raw % 65536)) ((f32 r2).scale x.h.lrexp))
    let hi := encodeFp bf16 .rne (f32 t)
    let res := encodeFp bf16 .rne ((f32 (fsub t (toF32 (decodeFp bf16 hi)))).scale (-x.h.lrexp))
    hi + 65536 * res
  else (toF32 (Fp.add (f32 (BitVec.ofNat 32 raw)) ((f32 (fmul x.h.lrm d)).scale x.h.lrexp).neg)).toNat

/-- A moment block of 32 from its region, widened to FP32. -/
def State.loadMoment (s : State) (x : Shard) (region blk : Nat) : List Word :=
  let base := x.at_ false region
  match x.mofmt with
  | 1 => wordsOf 32 (s.rdN (base + 128 * blk) 128)
  | 2 => let bs := s.rdN (base + 64 * blk) 64
         (List.range 32).map fun k => toF32 (decodeFp bf16 (fieldAt bs (2 * k) 2))
  | _ => let bs := s.rdN (base + 32 * blk) 32
         let sc := (s.rd (base + x.elems + blk)).toNat
         (List.range 32).map fun k => toF32 (applyScale sc (decodeElem 4 false (bs.getD k 0).toNat))

/-- Write a moment block of the shadow. -/
def State.storeMoment (s : State) (x : Shard) (region blk : Nat) (ws : List Word) : State :=
  let base := x.at_ true region
  match x.mofmt with
  | 1 => s.store (base + 128 * blk) (ws.flatMap fun w => leBytes 4 w.toNat)
  | 2 => s.store (base + 64 * blk) (ws.flatMap fun w => leBytes 2 (encodeFp bf16 .rne (f32 w)))
  | _ =>
    let (sc, codes) := mxBlock 6 false (ws.map f32)
    (s.store (base + 32 * blk) (codes.map fun c => BitVec.ofNat 8 c)).storeLe (base + x.elems + blk) 1 sc

/-- Copy a moment block of the current copy into the shadow. -/
def State.keepMoment (s : State) (x : Shard) (region blk : Nat) : State :=
  let n := match x.mofmt with | 1 => 128 | 2 => 64 | _ => 32
  let s := s.store (x.at_ true region + n * blk) (s.rdN (x.at_ false region + n * blk) n)
  if x.mofmt = 1 ∨ x.mofmt = 2 then s
  else s.storeLe (x.at_ true region + x.elems + blk) 1 (s.rdLe (x.at_ false region + x.elems + blk) 1)

/-- The compute copy of one block of new masters (R460). -/
def State.storeCompute (s : State) (x : Shard) (blk : Nat) (ws : List Word) : State :=
  if x.cnum = 1 then s
  else
    let base := x.at_ true 4
    let n := blockBytes x.cnum
    let vs := ws.map f32
    if isMx x.cnum then
      let (sc, codes) := mxBlock x.cnum x.cvar vs
      (s.store (base + n * blk) (packElems x.cnum codes)).storeLe (base + x.b.nchunk * chunkBytes x.cnum + blk) 1 sc
    else s.store (base + n * blk) (packElems x.cnum (vs.map fun v => (convertElem x.cnum x.cvar .rne 0 v).code))

def State.keepCompute (s : State) (x : Shard) (blk : Nat) : State :=
  if x.cnum = 1 then s
  else
    let n := blockBytes x.cnum
    let tail := x.b.nchunk * chunkBytes x.cnum + blk
    let s := s.store (x.at_ true 4 + n * blk) (s.rdN (x.at_ false 4 + n * blk) n)
    if isMx x.cnum then s.storeLe (x.at_ true 4 + tail) 1 (s.rdLe (x.at_ false 4 + tail) 1) else s

/-- A kept block goes unchanged from the current copy into the shadow (R455). -/
def State.keepBlock (s : State) (x : Shard) (blk : Nat) : State :=
  let s := s.store (x.at_ true 0 + 128 * blk) (s.rdN (x.at_ false 0 + 128 * blk) 128)
  let s := if x.hasM then s.keepMoment x 1 blk else s
  let s := if x.hasV then s.keepMoment x 2 blk else s
  s.keepCompute x blk

/-! Directions (R461). -/

def one_minus (a : Word) : Word := fsub fone a
def fsign (a : Word) : Word :=
  match f32 a with
  | .nan => fnan
  | .inf neg => if neg then fneg fone else fone
  | .fin neg m _ => if m = 0 then fzero else if neg then fneg fone else fone

/-- Direction and new moments of one element of the unfactored optimisers. -/
def Shard.direction (x : Shard) (w g m v : Word) : Word × Word × Word :=
  let h := x.h
  match x.opt with
  | 1 =>
    let m := fadd (fmul h.beta1 m) g
    let d := if h.nesterov then fadd g (fmul h.beta1 m) else m
    (fadd d (fmul h.wd w), m, v)
  | 2 =>
    let m := fadd (fmul h.beta1 m) (fmul (one_minus h.beta1) g)
    let v := fadd (fmul h.beta2 v) (fmul (one_minus h.beta2) (fmul g g))
    let d := fdiv (fmul m h.bc1) (fadd (fsqrt (fmul v h.bc2)) h.eps)
    (fadd d (fmul h.wd w), m, v)
  | _ =>
    let c := fadd (fmul h.beta1 m) (fmul (one_minus h.beta1) g)
    (fadd (fsign c) (fmul h.wd w), fadd (fmul h.beta2 m) (fmul (one_minus h.beta2) g), v)

/-- Running norms of a bucket's new masters and changes, in element order. -/
abbrev Norms := DWord × DWord

def sq64 (v : Fp) : DWord := toF64 (Fp.mul v v)

/-- Add one element to the norms. -/
def addNorm (n : Norms) (old new : Word) : Norms :=
  (dadd n.1 (sq64 (f32 new)), dadd n.2 (sq64 (f64 (toF64 (Fp.add (f32 new) (f32 old).neg)))))

/-- Update one block with its directions: masters, compute copy, norms of what is not padding. -/
def State.stepBlock (s : State) (x : Shard) (blk : Nat) (ds : List Word) (n : Norms) : State × Norms :=
  let raws := (wordsOf 32 (s.rdN (x.at_ false 0 + 128 * blk) 128)).map BitVec.toNat
  let news := List.zipWith x.stepMaster raws ds
  let olds := raws.map x.masterOf
  let ws := news.map x.masterOf
  let n := (List.range 32).foldl (fun (n : Norms) k =>
    if s.isPad x (32 * blk + k) then n else addNorm n (olds.getD k 0) (ws.getD k 0)) n
  let s := s.store (x.at_ true 0 + 128 * blk) (news.flatMap fun v => leBytes 4 v)
  (s.storeCompute x blk ws, n)

/-- Update one block of an unfactored optimiser from its clipped gradients. -/
def State.updateBlock (s : State) (x : Shard) (blk : Nat) (gs : List Word) (n : Norms) : State × Norms :=
  let ws := ((wordsOf 32 (s.rdN (x.at_ false 0 + 128 * blk) 128)).map BitVec.toNat).map x.masterOf
  let ms := s.loadMoment x 1 blk
  let vs := if x.hasV then s.loadMoment x 2 blk else List.replicate 32 0
  let l := (List.range 32).map fun k => x.direction (ws.getD k 0) (gs.getD k 0) (ms.getD k 0) (vs.getD k 0)
  let s := s.storeMoment x 1 blk (l.map fun t => t.2.1)
  let s := if x.hasV then s.storeMoment x 2 blk (l.map fun t => t.2.2) else s
  s.stepBlock x blk (l.map Prod.fst) n

/-! One chunk at the update unit. -/

/-- A summed chunk as the unit holds it: 1,024 codes and one flag byte for each block (bit 0 OVF, bit 1 NF). -/
structure Summed where
  codes : List Byte
  flags : List Byte
  deriving DecidableEq, Repr

def summedOf (r : List Byte) : Summed :=
  { codes := r.take 1024
    flags := (List.range 32).map fun k => BitVec.ofNat 8 (bit (bitOf (fieldAt r 1024 4) k) + 2 * bit (bitOf (fieldAt r 1028 4) k)) }

def Summed.ovf (c : Summed) (k : Nat) : Bool := bitOf (c.flags.getD k 0).toNat 0
def Summed.nf (c : Summed) (k : Nat) : Bool := bitOf (c.flags.getD k 0).toNat 1
def Summed.block (c : Summed) (k : Nat) : List Byte := (c.codes.drop (32 * k)).take 32

/-- Gradients of a block, before clipping. -/
def State.blockGrads (s : State) (x : Shard) (blk : Nat) (codes : List Byte) : List Word :=
  (codes.zip (List.range 32)).map fun (c, k) => s.gradOf x (32 * blk + k) c

/-- What accepting a chunk books for its bucket: blocks flagged, next scales, ‖g‖² (R455, R457, R476). -/
def State.bookChunk (s : State) (x : Shard) (c : Nat) (d : Summed) (b : Bucket) : Bucket :=
  let blocks := List.range 32
  let real (k : Nat) : List Byte := ((d.block k).zip (List.range 32)).filterMap fun (v, e) => if s.isPad x (1024 * c + 32 * k + e) then none else some v
  let scales := blocks.foldl (fun (t : Tab Byte) k =>
    Tab.set (fun _ => 0) t (32 * c + k) (x.nextScale (s.agreedOf x (32 * c + k)) (d.ovf k) (d.block k) (real k))) b.nextScales
  let gsq := (blocks.filter fun k => !x.kept (d.ovf k) (d.nf k)).foldl (fun (t : DWord) k =>
    (s.blockGrads x (32 * c + k) (d.block k)).foldl (fun (t : DWord) g => dadd t (sq64 (f32 g))) t) b.gsq
  { b with
    nextScales := scales, gsq := gsq
    ovfBlocks := b.ovfBlocks ++ ((blocks.filter d.ovf).map fun k => 32 * c + k)
    nfBlocks := b.nfBlocks ++ ((blocks.filter d.nf).map fun k => 32 * c + k) }

/-- Events and counters of an accepted chunk: BLOCK_OVERFLOW once per job and step; NONFINITE_GRAD once per step under NFPOLICY = 1 (R455,
R472). -/
def State.reportChunk (s : State) (j i c : Nat) (d : Summed) : State :=
  match s.bucketOf j i with
  | none => s
  | some (p, b) =>
    let ov := (List.range 32).filter d.ovf
    let nf := (List.range 32).filter d.nf
    let s := (s.countRed 4 ov.length).countRed 5 nf.length
    let s := match ov with
      | k :: _ => if p.ovfRaised then s
          else (s.updPlan j fun p => { p with ovfRaised := true }).raisePlan p 0x0201
            (leBytes 4 (2 ^ 31 + b.bucket.toNat % 2 ^ 31) ++ leBytes 4 p.openStep.toNat ++ leBytes 4 (32 * c + k))
      | [] => s
    if p.nfBlock && nf != [] then s.raiseNf j else s

/-- Update one chunk's blocks into the shadow at clipping coefficient `clip`. -/
def State.updateChunkBlocks (s : State) (x : Shard) (clip : Option Word) (c : Nat) (d : Summed) (n : Norms) : State × Norms :=
  (List.range 32).foldl (fun (acc : State × Norms) k =>
    let blk := 32 * c + k
    if x.kept (d.ovf k) (d.nf k) then (acc.1.keepBlock x blk, acc.2)
    else
      let gs := acc.1.blockGrads x blk (d.block k)
      let gs := match clip with | some w => gs.map fun g => fmul g w | none => gs
      acc.1.updateBlock x blk gs acc.2) (s, n)

/-- A chunk in the hold area (R459, R464). -/
def State.heldChunk (s : State) (x : Shard) (c : Nat) : Summed :=
  { codes := s.rdN (x.hold + 1024 * c) 1024, flags := s.rdN (x.hold + x.elems + 32 * c) 32 }

/-! The factored method (R461). -/

/-- Clipped gradient of element `k` from the hold area; +0 beyond what is held. -/
def State.heldGrad (s : State) (x : Shard) (clip : Option Word) (k : Nat) : Word :=
  let g := s.gradOf x k (s.rd (x.hold + k))
  match clip with | some w => fmul g w | none => g

/-- Is element `k` in a kept block? -/
def State.heldKept (s : State) (x : Shard) (k : Nat) : Bool :=
  let f := (s.rd (x.hold + x.elems + k / 32)).toNat
  x.kept (bitOf f 0) (bitOf f 1)

def natWord (n : Nat) : Word := fofNat n

/-- The three passes over the hold area: the vectors r and c into the shadow, then the update of every element (R461). -/
def State.factoredUpdate (s : State) (x : Shard) (clip : Option Word) : State × Norms :=
  let h := x.h
  let gs : List Word := (List.range (x.rows * x.cols)).map (s.heldGrad x clip)
  let g2 (i j : Nat) : Word := let g := gs.getD (i * x.cols + j) 0; fadd (fmul g g) h.eps2
  let rs := (List.range x.rows).map fun i => (List.range x.cols).foldl (fun t j => fadd t (fdiv (g2 i j) (natWord x.cols))) fzero
  let cs := (List.range x.cols).map fun j => (List.range x.rows).foldl (fun t i => fadd t (fdiv (g2 i j) (natWord x.rows))) fzero
  let blend (old new : List Word) : List Word := List.zipWith (fun o n => fadd (fmul h.beta2 o) (fmul (one_minus h.beta2) n)) old new
  let r := blend (wordsOf x.rows (s.rdN (x.at_ false 3) (4 * x.rows))) rs
  let c := blend (wordsOf x.cols (s.rdN (x.at_ false 3 + 4 * x.rows) (4 * x.cols))) cs
  let rm := r.foldl (fun t v => fadd t (fdiv v (natWord x.rows))) fzero
  let us := (List.range (x.rows * x.cols)).map fun k =>
    fdiv (gs.getD k 0) (fsqrt (fdiv (fmul (r.getD (k / x.cols) 0) (c.getD (k % x.cols) 0)) rm))
  let q := us.foldl (fun t u => fadd t (fmul u u)) fzero
  let div := fmax fone (fdiv (fsqrt (fdiv q (natWord (x.rows * x.cols)))) h.dclip)
  let s := s.store (x.at_ true 3) ((r ++ c).flatMap fun w => leBytes 4 w.toNat)
  (List.range (x.elems / 32)).foldl (fun (acc : State × Norms) blk =>
    let s := acc.1
    if s.heldKept x (32 * blk) then (s.keepBlock x blk, acc.2)
    else
      let u := (List.range 32).map fun k => fdiv (us.getD (32 * blk + k) 0) div
      let ws := ((wordsOf 32 (s.rdN (x.at_ false 0 + 128 * blk) 128)).map BitVec.toNat).map x.masterOf
      let u := if x.hasM then List.zipWith (fun m u => fadd (fmul h.beta1 m) (fmul (one_minus h.beta1) u)) (s.loadMoment x 1 blk) u else u
      let s := if x.hasM then s.storeMoment x 1 blk u else s
      s.stepBlock x blk (List.zipWith (fun u w => fadd u (fmul h.wd w)) u ws) acc.2) (s, (0, 0))

/-- A bucket's update unit has made progress: parameters updated since the last module reset (UPD_UNITn.PARAMS). -/
def State.countUpd (s : State) (b : Bucket) (params : Nat) : State :=
  match s.unitOf b with
  | some n =>
    let s := s.hubMoved (144 + n)
    { s with upd := Tab.modify (fun _ => Upd.reset) s.upd n fun u => { u with params := u.params + BitVec.ofNat 48 params } }
  | none => s

/-- The bytes, as address and length, that a unit reads besides a chunk's codes to accept chunk `c`: the descriptor, the hyper-parameter block when a
step's update begins, the agreed scales, the padding map. -/
def State.acceptReads (s : State) (x : Shard) (c : Nat) : List (Nat × Nat) :=
  [(x.b.shard, 64), (if x.b.hyper = [] then fieldAt (s.shardDesc x.b) 0x10 8 else 0, if x.b.hyper = [] then 64 else 0),
   (x.b.agreed + 32 * c, 32), (x.padmap + 128 * c, if x.padmap = 0 then 0 else 128)]

/-- The bytes of the current copy that the update of chunk `c` reads: masters, moments, their scales, and the compute copy, which kept blocks
need. -/
def Shard.stateReads (x : Shard) (c : Nat) : List (Nat × Nat) :=
  let moment (k : Nat) : List (Nat × Nat) :=
    let base := x.at_ false k
    match x.mofmt with
    | 1 => [(base + 4096 * c, 4096)]
    | 2 => [(base + 2048 * c, 2048)]
    | _ => [(base + 1024 * c, 1024), (base + x.elems + 32 * c, 32)]
  (x.at_ false 0 + 4096 * c, 4096) :: ((if x.hasM then moment 1 else []) ++ (if x.hasV then moment 2 else [])
    ++ if x.cnum = 1 then [] else [(x.at_ false 4 + c * chunkBytes x.cnum, chunkBytes x.cnum)])

/-- What the update of a held bucket reads: the hold area, every chunk's state and scales, the factor vectors. -/
def State.heldReads (s : State) (x : Shard) : List (Nat × Nat) :=
  (x.hold, x.elems + 32 * x.b.nchunk) :: (if x.factored then [(x.at_ false 3, 4 * (x.rows + x.cols))] else [])
    ++ (List.range x.b.nchunk).flatMap fun c => s.acceptReads x c ++ x.stateReads c

/-- The first of the given ranges that holds poisoned data. -/
def State.poisonedOf (s : State) (l : List (Nat × Nat)) : Option (Nat × Nat) := l.find? fun r => r.2 != 0 && s.poisonIn r.1 r.2

/-- A unit that has read poisoned data writes nothing and stops, the context is faulted, and the step's abort is asked for with reason 4 (R265,
R473). -/
def State.unitPoisoned (s : State) (j i : Nat) (p : Plan) (r : Nat × Nat) : State :=
  let s := s.updBucket j i fun b => { b with pending := [] }
  (((s.reportPoison r.1 r.2).faultCtx p.ctxNo 3 0xFF 0x0302 srcRed r.1)).requestAbort j 4

/-- Update a held bucket from its hold area into the shadow; SHADOW_COMPLETE ends it (R464). -/
def State.updateHeld (s : State) (j i : Nat) (clip : Option Word) : State :=
  match s.bucketOf j i with
  | none => s
  | some (p, b) =>
    let x := s.shardOf p b
    match s.poisonedOf (s.heldReads x) with
    | some r => s.unitPoisoned j i p r
    | none =>
      let (s, n) := if (s.unitOf b).isNone then (s, ((0, 0) : Norms))
        else if x.factored then s.factoredUpdate x clip
        else (List.range b.nchunk).foldl (fun (acc : State × Norms) c => acc.1.updateChunkBlocks x clip c (acc.1.heldChunk x c) acc.2) (s, (0, 0))
      (s.updBucket j i fun b => { b with shadowWritten := true, wsq := n.1, dsq := n.2 }).countUpd b 0

/-- Every held bucket of a plan begins its update. -/
def State.updateAllHeld (s : State) (j : Nat) (clip : Option Word) : State :=
  match s.plan j with
  | none => s
  | some p => (p.listBuckets.filter fun e => e.2.isOwner && e.2.held && !e.2.shadowWritten).foldl (fun (s : State) e => s.updateHeld j e.1 clip) s

/-- Once the coefficient has arrived, every held bucket is updated with it (R479). -/
def State.updateClipped (s : State) (j : Nat) : State :=
  match s.plan j with
  | some q => if q.clipGot then (s.updateAllHeld j (some q.clip)).rounds j else s
  | none => s

/-- A chunk as the unit has accepted it, streamed into the shadow or written into the hold area; the last one completes the shadow or holds the
bucket, and at CLIP = 0 a factored update then begins. -/
def State.takeChunk (s : State) (j i c : Nat) (x : Shard) (d : Summed) (p : Plan) (b : Bucket) (last : Bool) : State :=
  if streams p x then
    let (s, n) := if (s.unitOf b).isSome then s.updateChunkBlocks x none c d (b.wsq, b.dsq) else (s, (b.wsq, b.dsq))
    let s := s.updBucket j i fun b => { b with shadowWritten := true, wsq := n.1, dsq := n.2, shadow := last }
    (s.countUpd b 1024).rounds j
  else
    let s := (s.store (x.hold + 1024 * c) d.codes).store (x.hold + x.elems + 32 * c) d.flags
    let s := (s.updBucket j i fun b => { b with held := last }).countUpd b 0
    if !last then s
    else if p.clipMode = 0 then s.updateHeld j i none
    else
      let all := match s.plan j with | some p => p.allHeld | none => false
      let s := if p.clipMode = 2 && all then s.telemetryAll j 0 else s
      (s.rounds j).updateClipped j

/-- UPDATE_CHUNK: the unit accepts the next chunk (R449, R454-R464), unless what it reads for it is poisoned (R265). -/
def updateChunk (j i : Nat) (s : State) : State :=
  match s.bucketOf j i with
  | none => s
  | some (p, b) =>
    match b.pending with
    | [] => s
    | (pos, slot) :: rest =>
      let x := s.shardOf p b
      let c := slot.chunk
      match s.poisonedOf (s.acceptReads x c ++ if streams p x then x.stateReads c else []) with
      | some r => s.unitPoisoned j i p r
      | none =>
        let d := summedOf (b.outRecord slot)
        let booked := s.bookChunk x c d { b with
          pending := rest, slots := Tab.set (fun _ => none) b.slots pos (some { slot with sent := true }), delivered := b.delivered + 1
          hyper := if b.hyper = [] then s.rdN (fieldAt (s.shardDesc b) 0x10 8) 64 else b.hyper }
        ((s.updBucket j i fun _ => booked).reportChunk j i c d).takeChunk j i c x d p b (booked.delivered == b.nchunk)

def execUpdateChunk (plan : Fin 16) (bucket : Nat) (s : State) : Host.Outcome State Fault Refusal := live s (updateChunk plan.val bucket)

/-- NORM at the master: with the last one it decides, and the master's own held buckets are updated (R477, R479). -/
def norm (p : Packet) (s : State) : State :=
  match s.planOfJob p.job.toNat with
  | some (j, _) => (takeNorm p s).updateClipped j
  | none => takeNorm p s

def execNorm (p : Packet) (s : State) : Host.Outcome State Fault Refusal := live s (norm p)

/-- TOKEN_CLIP: the coefficient, and the update of every held bucket with its gradients scaled (R479). -/
def tokenClip (p : Packet) (s : State) : State :=
  s.onToken p 1 fun j _ s =>
    let c : Word := BitVec.ofNat 32 (bits p.arg.toNat 32 32)
    (s.updPlan j fun q => { q with clip := c, clipGot := true, state := 1 }).updateAllHeld j (some c) |>.rounds j

def execTokenClip (p : Packet) (s : State) : Host.Outcome State Fault Refusal := live s (tokenClip p)

/-- SHADOW_COMPLETE: the update of a held bucket has finished (R466). -/
def shadowComplete (j i : Nat) (s : State) : State :=
  match s.bucketOf j i with
  | none => s
  | some (_, b) =>
    if !b.isOwner || !b.held || !b.shadowWritten || b.shadow then s
    else ((s.updBucket j i fun b => { b with shadow := true }).countUpd b (1024 * b.nchunk)).rounds j

def execShadowComplete (plan : Fin 16) (bucket : Nat) (s : State) : Host.Outcome State Fault Refusal := live s (shadowComplete plan.val bucket)

end Sys2Proof.Machine
end

