-- ==== Sys2Proof/Machine/Admin.lean ====
section
/-!
DEFINITION. Admin requests on the three transports, sessions and lockout (R346, R351, R424, R575-R578), and the admin operations.
-/
namespace Sys2Proof.Machine

/-! A request's fields (R347, the ADMIN class). -/

def AdminReq.op (q : AdminReq) : Nat := fieldAt q.desc 0x10 2
def AdminReq.session (q : AdminReq) : Nat := fieldAt q.desc 0x12 1
def AdminReq.plen (q : AdminReq) : Nat := fieldAt q.desc 0x14 4
def AdminReq.seq (q : AdminReq) : Nat := fieldAt q.desc 0x18 8
def AdminReq.mac (q : AdminReq) : List Byte := (q.desc.drop 0x28).take 16
def AdminReq.block (q : AdminReq) : List Byte := q.params.take q.plen
/-- A field of the parameter block. -/
def AdminReq.par (q : AdminReq) (off len : Nat) : Nat := fieldAt q.block off len

/-- Is every reserved field of the descriptor 0, its FMT 2, and its class ADMIN (R347, R351)? -/
def AdminReq.descOk (q : AdminReq) : Bool :=
  fieldAt q.desc 0 1 == 8 && decide (fieldAt q.desc 1 1 < 8) && fieldAt q.desc 0x0D 1 == 2 && zeroAt q.desc 0x0E 2 && zeroAt q.desc 0x13 1
    && zeroAt q.desc 0x38 8

/-- Is an operation accepted on a transport (R575)? -/
def opAccepted (op transport : Nat) : Bool :=
  match transport with
  | 0 => [0x01, 0x02, 0x03, 0x04, 0x10, 0x11, 0x12, 0x13, 0x20, 0x30, 0x31, 0x32, 0x33, 0x34, 0x35].contains op
  | 1 => [0x01, 0x02, 0x10, 0x11, 0x12, 0x13].contains op
  | _ => [0x01, 0x02, 0x10, 0x30, 0x31, 0x32, 0x33, 0x34, 0x35].contains op

/-- Is an operation one of the list of R347's admin operations? -/
def opKnown (op : Nat) : Bool := opAccepted op 0

/-! Lockout and failures (R578). -/

/-- Is a transport locked at this time? -/
def State.lockedOut (s : State) (t : Nat) : Bool :=
  match Tab.get (fun _ => none) s.sec.locked t with
  | some since => decide (s.now < since + 6000000000)
  | none => false

def State.rejectSession (s : State) (q : AdminReq) (reason session : Nat) : State :=
  s.raise0 0x0801 srcMp
    (leBytes 1 q.transport ++ leBytes 1 reason ++ leBytes 1 session ++ leBytes 1 (s.fails q.transport) ++ leBytes 8 q.seq)

/-- A failure: the count, SESSION_REJECTED, and at 5 or more the lock with its own event. -/
def State.sessionFailure (s : State) (q : AdminReq) (reason session : Nat) : State :=
  let t := q.transport
  let n := min 7 (s.fails t + 1)
  let s := State.rejectSession { s with sec := { s.sec with fails := Tab.set (fun _ => 0) s.sec.fails t n } } q reason session
  if n < 5 then s
  else State.rejectSession { s with sec := { s.sec with locked := Tab.set (fun _ => none) s.sec.locked t (some s.now) } } q 6 session

/-! Keys and codes (R576). -/

def asciiBytes (l : List Nat) : List Byte := l.map fun n => BitVec.ofNat 8 n
/-- "RSNX-OPEN", "RSNX-SESSION" and "RSNX-ACCEPT". -/
def txtOpen : List Byte := asciiBytes [82, 83, 78, 88, 45, 79, 80, 69, 78]
def txtSession : List Byte := asciiBytes [82, 83, 78, 88, 45, 83, 69, 83, 83, 73, 79, 78]
def txtAccept : List Byte := asciiBytes [82, 83, 78, 88, 45, 65, 67, 67, 69, 80, 84]

def proofOf (kOp nm nh : List Byte) (session t : Nat) : List Byte :=
  padTo 64 (Config.hmacSha512 kOp (txtOpen ++ nm ++ nh ++ leBytes 1 session ++ leBytes 1 t ++ Config.identityHash))
def sessionKey (kOp nm nh : List Byte) (session t : Nat) : List Byte :=
  Config.hkdfSha512 kOp (nh ++ nm) (txtSession ++ leBytes 1 session ++ leBytes 1 t ++ Config.identityHash)
def proofM (ks nm nh : List Byte) : List Byte := Config.hmacSha512 ks (txtAccept ++ nh ++ nm)
/-- The MAC over the descriptor with MAC = 0 and the parameter block. -/
def AdminReq.macUnder (q : AdminReq) (ks : List Byte) : List Byte :=
  padTo 16 (Config.hmacSha512 ks (q.desc.take 0x28 ++ List.replicate 16 0 ++ q.desc.drop 0x38 ++ q.block))

/-- R577: the session is open on this transport, the MAC is right, and SEQ exceeds every earlier one. The reason of the failure otherwise. -/
def State.verifyFail (s : State) (q : AdminReq) : Option Nat :=
  match s.session q.session with
  | .opened t _ ks last =>
    if t ≠ q.transport then some 4
    else if q.macUnder ks ≠ q.mac then some 2
    else (match last with
      | some n => if q.seq ≤ n then some 3 else none
      | none => none)
  | _ => some 4

/-- A verified request advances its session's SEQ. -/
def State.advanceSeq (s : State) (q : AdminReq) : State :=
  match s.session q.session with
  | .opened t p ks _ => { s with sec := { s.sec with sessions := Tab.set (fun _ => .free) s.sec.sessions q.session (.opened t p ks (some q.seq)) } }
  | _ => s

/-! Serving (R351, R575). -/

/-- Admin requests run one at a time: a deletion or a small reset that a request has begun must complete first. -/
def State.adminBusy (s : State) : Bool :=
  s.hif.rings.any (fun e => match e.2 with | some r => (match r.deleting with | some (some _) => true | _ => false) | none => false)
    || s.rst.small.any fun r => r.req.isSome

def State.popAdmin (s : State) : State := { s with hif := { s.hif with adminQ := s.hif.adminQ.drop 1 } }

/-- Every check before the operation itself: the lockout, the verification, and the cases of R351. `none` when the request has been disposed of. -/
def State.checkAdmin (s : State) (q : AdminReq) : State × Bool :=
  if s.lockedOut q.transport then ({ s with sec := { s.sec with refused := if s.sec.refused + 1 = 0 then s.sec.refused else s.sec.refused + 1 } }, false)
  else
    match (if q.op = 1 then none else s.verifyFail q) with
    | some reason => (s.sessionFailure q reason q.session, false)
    | none =>
      let s := if q.op = 1 then s else s.advanceSeq q
      if !q.descOk || !opAccepted q.op q.transport || decide (4096 < q.plen) then (s.answerAdmin q 4 [], false) else (s, true)

/-- Requests whose OP is reserved have no command of their own: they are disposed of when they reach the front. -/
def State.clearUnknown : Nat → State → State
  | 0, s => s
  | n + 1, s =>
    match s.hif.adminQ with
    | q :: _ => if opKnown q.op || s.adminBusy then s else State.clearUnknown n (s.popAdmin.checkAdmin q).1
    | [] => s

/-- An MCTP message for the module at a tray position: this module takes its own, and a tray master forwards those of the other three over the
sideband, which it does not while it is in reset (R483, R484, R591; log 6). -/
def State.mctp (s : State) (position : Nat) (bytes : List Byte) (own : State → State) : State :=
  if position = s.boot.trayPos.toNat then own s else if s.boot.masterSel then s.sendOut (.sideband (0x60 + position) bytes) else s

/-- A request that arrives over MCTP joins the queue. -/
def State.arriveAdmin (s : State) (f : AdminFrom) : State :=
  match f with
  | .queued => s
  | .mctp pos d p => s.mctp pos.val (padTo 64 d ++ p) fun s =>
    { s with hif := { s.hif with adminQ := s.hif.adminQ ++
        [{ transport := 1, port := none, src := 0, isLocal := true, count := 0, desc := padTo 64 d, params := p }] } }

/-- Serve the front request when it asks for operation `op`. `ok` is the check of its parameter block (R351); `act` performs it and answers
itself. -/
def State.serveAdmin (s : State) (f : AdminFrom) (op : Nat) (ok : AdminReq → Bool) (act : AdminReq → State → State) : State :=
  let elsewhere := match f with | .queued => false | .mctp pos _ _ => pos.val != s.boot.trayPos.toNat
  let s := s.arriveAdmin f
  let s := if elsewhere then s else State.clearUnknown s.hif.adminQ.length s
  match s.hif.adminQ with
  | [] => s
  | q :: _ =>
    if elsewhere || q.op != op || s.adminBusy then s
    else
      match s.popAdmin.checkAdmin q with
      | (s, false) => s
      | (s, true) => if ok q then act q s else s.answerAdmin q 4 []

/-- An operation that answers at once with a status. -/
def answering (act : AdminReq → State → State × Nat) (q : AdminReq) (s : State) : State :=
  let (s, status) := act q s
  s.answerAdmin q status []

/-! OPEN_SESSION, CLOSE_SESSION, reservations (R575-R578). -/

/-- The answer block of OPEN_SESSION. -/
def openAnswer (n : Nat) (nm pm : List Byte) : List Byte := leBytes 1 n ++ List.replicate 7 0 ++ padTo 32 nm ++ padTo 64 pm

/-- Complete an OPEN_SESSION: on the admin ring the answer goes to RESP, ahead of COMMAND_DONE. -/
def State.answerOpen (s : State) (q : AdminReq) (block : List Byte) : State :=
  if q.transport = 0 then
    State.adminDone (if s.hif.up then { s with mem := s.mem.writeN (hostKey (q.par 8 8)) block } else s) q 0
  else s.answerAdmin q 0 block

def State.setSession (s : State) (n : Nat) (x : Session) : State :=
  { s with sec := { s.sec with sessions := Tab.set (fun _ => .free) s.sec.sessions n x } }

/-- Phase 1: the lowest free number, and a fresh nonce. -/
def openPhase1 (q : AdminReq) (s : State) : State :=
  match (List.range 4).find? fun n => s.session n == .free with
  | none => (s.rejectSession q 5 0xFF).answerAdmin q 4 []
  | some n =>
    let nm := padTo 32 (Config.nonce s.fresh)
    State.answerOpen (State.setSession s.tick n (.reserved q.transport ((q.block.drop 0x10).take 32) nm s.now)) q (openAnswer n nm [])

/-- Phase 2: the same NH within 10 s, then the proof. -/
def openPhase2 (q : AdminReq) (s : State) : State :=
  let n := q.par 1 1
  match s.session n with
  | .free => s.rejectSession q 7 n
  | .opened _ _ _ _ => s.sessionFailure q 4 n
  | .reserved t nh nm since =>
    if t ≠ q.transport then s.sessionFailure q 4 n
    else if (q.block.drop 0x10).take 32 ≠ nh ∨ since + 1000000000 < s.now then (s.setSession n .free).rejectSession q 7 n
    else
      match s.boot.opKey with
      | none => s.sessionFailure q 1 n
      | some k =>
        if proofOf k nm nh n t ≠ (q.block.drop 0x30).take 64 then s.sessionFailure q 1 n
        else
          let ks := sessionKey k nm nh n t
          let s := s.setSession n (.opened t q.port ks none)
          State.answerOpen { s with sec := { s.sec with fails := Tab.set (fun _ => 0) s.sec.fails t 0 } } q (openAnswer n nm (proofM ks nm nh))

def openSession (f : AdminFrom) (s : State) : State :=
  s.serveAdmin f 0x01
    (fun q => q.session == 0xFF && q.plen == 112 && zeroAt q.block 2 6
      && ((q.par 0 1 == 1 && q.par 1 1 == 0 && zeroAt q.block 0x30 64) || (q.par 0 1 == 2 && decide (q.par 1 1 < 4))))
    fun q s => if q.par 0 1 = 1 then openPhase1 q s else openPhase2 q s
def execOpenSession (r : AdminFrom) (s : State) : Host.Outcome State Fault Refusal := liveMp s (openSession r)

/-- SESSION_RESERVATION_LAPSE (R576). -/
def sessionReservationLapse (n : Nat) (s : State) : State :=
  match s.session n with
  | .reserved _ _ _ since => if since + 1000000000 < s.now then s.setSession n .free else s
  | _ => s
def execSessionReservationLapse (n : Fin 4) (s : State) : Host.Outcome State Fault Refusal := live s (sessionReservationLapse n.val)

/-- LOCKOUT_END: 60 s have passed; the count stands (R578). -/
def lockoutEnd (t : Nat) (s : State) : State :=
  if s.lockedOut t then s else { s with sec := { s.sec with locked := Tab.set (fun _ => none) s.sec.locked t none } }
def execLockoutEnd (t : Fin 3) (s : State) : Host.Outcome State Fault Refusal := live s (lockoutEnd t.val)

/-- Begin the deletion of a ring: it stops fetching, its unstarted commands complete with STATUS 3, and it is deleted once its started ones
have completed (R346). -/
def State.deleteRing (s : State) (n : Nat) (q : Option AdminReq) : State :=
  match s.ring n with
  | none => s
  | some r =>
    let s := s.setRing n (some { r with deleting := some q })
    let s := s.completeAll (fun c => c.key.ring == n && c.phase == Phase.fetched) 3
    s.finishDelete n

/-- Delete every ring of a session (R346, R577). -/
def State.deleteRingsOf (s : State) (session : Nat) : State :=
  (List.range 256).foldl (fun (s : State) n =>
    match s.ring n with
    | some r => if r.session = session ∧ r.deleting.isNone then s.deleteRing n none else s
    | none => s) s

def closeSession (f : AdminFrom) (s : State) : State :=
  s.serveAdmin f 0x02 (fun _ => true) fun q s => ((s.endSessions fun n => n == q.session).deleteRingsOf q.session).answerAdmin q 0 []
def execCloseSession (r : AdminFrom) (s : State) : Host.Outcome State Fault Refusal := liveMp s (closeSession r)

/-! Rings (R338, R346, R552, R571). -/

def ringCreateOk (q : AdminReq) : Bool :=
  q.plen == 32 && q.par 0 8 % 4096 == 0 && q.par 8 8 % 8 == 0 && decide (4 ≤ q.par 0x11 1) && decide (q.par 0x11 1 ≤ 16)
    && decide (1 ≤ q.par 0x12 1) && decide (q.par 0x12 1 ≤ 16) && zeroAt q.block 0x13 1
    && (decide (q.par 0x14 2 < 2048) || q.par 0x14 2 == 0xFFFF) && zeroAt q.block 0x16 10

def ringCreate (f : AdminFrom) (s : State) : State :=
  s.serveAdmin f 0x03 ringCreateOk (answering fun q s =>
    if s.flash.oos || s.boot.level == 0 || (s.ring (q.par 0x10 1)).isSome then (s, 4)
    else (s.setRing (q.par 0x10 1) (some {
      base := q.par 0 8, headptr := q.par 8 8, sizeLog2 := q.par 0x11 1, weight := q.par 0x12 1, cvec := BitVec.ofNat 16 (q.par 0x14 2)
      session := q.session, head := 0, tail := 0, stopped := false, deleting := none }), 0))
def execRingCreate (r : AdminFrom) (s : State) : Host.Outcome State Fault Refusal := liveMp s (ringCreate r)

def ringDelete (f : AdminFrom) (s : State) : State :=
  s.serveAdmin f 0x04 (fun q => q.plen == 1) fun q s =>
    match s.ring (q.par 0 1) with
    | some r => if r.session = q.session ∧ r.deleting.isNone then s.deleteRing (q.par 0 1) (some q) else s.answerAdmin q 4 []
    | none => s.answerAdmin q 4 []
def execRingDelete (r : AdminFrom) (s : State) : Host.Outcome State Fault Refusal := liveMp s (ringDelete r)

/-! Resets and management (R273, R527, R541, R553). -/

def resetOk (q : AdminReq) : Bool :=
  let scope := q.par 0 1
  let index := q.par 1 1
  q.plen == 8 && decide (1 ≤ scope) && decide (scope ≤ 6)
    && (if scope = 1 then decide (index < 8) else if scope = 2 then decide (index < 16) else index == 0)
    && (scope != 3 || (decide (q.par 2 1 < 24) && decide (q.par 3 1 < 16))) && decide (q.par 4 1 < 2) && zeroAt q.block 5 3
    && !(q.transport == 2 && (scope == 1 || scope == 3))

def reset (f : AdminFrom) (s : State) : State :=
  s.serveAdmin f 0x10 resetOk fun q s =>
    let source := 7 + q.transport
    match q.par 0 1 with
    | 4 => s.requestFunction source
    | 5 => s.requestWarm source 0 0 (q.par 4 1 == 1) false
    | 6 => s.requestCold source 0
    | scope => s.requestSmall { scope := scope, index := if scope = 3 then 16 * q.par 2 1 + q.par 3 1 else q.par 1 1, source := source, watchdog := 0
                                at_ := s.now, req := some q }
def execReset (r : AdminFrom) (s : State) : Host.Outcome State Fault Refusal := liveMp s (reset r)

def clearRepair (f : AdminFrom) (s : State) : State :=
  s.serveAdmin f 0x11 (fun _ => true) (answering fun _ s => ({ s with flash := { s.flash with cleared := true } }, 0))
def execClearRepair (r : AdminFrom) (s : State) : Host.Outcome State Fault Refusal := liveMp s (clearRepair r)

def clearOutOfService (f : AdminFrom) (s : State) : State :=
  s.serveAdmin f 0x12 (fun _ => true) fun _ s =>
    State.requestWarm { s with flash := { s.flash with oos := false, resetLog := [], count24 := 0 } } 12 0 0 false false
def execClearOutOfService (r : AdminFrom) (s : State) : Host.Outcome State Fault Refusal := liveMp s (clearOutOfService r)

def marginReplan (f : AdminFrom) (s : State) : State :=
  s.serveAdmin f 0x13 (fun _ => true) (answering fun _ s =>
    ({ s with flash := { s.flash with margin := { s.flash.margin with pending := 0x3FF } } }, 0))
def execMarginReplan (r : AdminFrom) (s : State) : Host.Outcome State Fault Refusal := liveMp s (marginReplan r)

/-! Fabric management (R424). -/

def assignDevid (f : AdminFrom) (s : State) : State :=
  s.serveAdmin f 0x30 (fun q => q.plen == 8 && zeroAt q.block 2 6) (answering fun q s =>
    let id := BitVec.ofNat 16 (q.par 0 2)
    if id ≠ s.fab.id ∧ s.red.plans.any (fun e => e.2.isSome) then (s, 4) else ({ s with fab := { s.fab with id := id, valid := true } }, 0))
def execAssignDevid (r : AdminFrom) (s : State) : Host.Outcome State Fault Refusal := liveMp s (assignDevid r)

def routeWrite (f : AdminFrom) (s : State) : State :=
  s.serveAdmin f 0x31
    (fun q => decide (1 ≤ q.par 2 2) && decide (q.par 0 2 + q.par 2 2 ≤ 512) && q.plen == 8 + 2 * q.par 2 2 && zeroAt q.block 4 4)
    (answering fun q s =>
      ((List.range (q.par 2 2)).foldl (fun (s : State) i => s.setRoute (q.par 0 2 + i) (BitVec.ofNat 16 (q.par (8 + 2 * i) 2))) s, 0))
def execRouteWrite (r : AdminFrom) (s : State) : Host.Outcome State Fault Refusal := liveMp s (routeWrite r)

/-! Plans (R439-R441, R473, R475, R479). -/

/-- A bucket entry as the hub copies it. -/
def State.readBucket (s : State) (job a : Nat) : Bucket :=
  let e := s.rdN a 96
  let f (off len : Nat) : Nat := fieldAt e off len
  let list (base n : Nat) : List Nat := (List.range n).map fun k => s.rdLe (base + 2 * k) 2
  { entry := a, bucket := BitVec.ofNat 32 (f 0 4), wfmt := f 4 1, flags := BitVec.ofNat 8 (f 5 1), nin := f 6 1, depth := f 7 1, nchunk := f 8 4
    lane := f 0x0C 2, parent := f 0x0E 2, readyObj := BitVec.ofNat 16 (f 0x10 2), arriveObj := BitVec.ofNat 16 (f 0x12 2), nleaf := f 0x14 4
    gradAddr := f 0x18 8, errAddr := f 0x20 8, agreed := f 0x28 8, inputs := list (f 0x30 8) (f 6 1), shard := f 0x38 8, repl0 := f 0x40 8
    repl1 := f 0x48 8, gathObj := BitVec.ofNat 16 (f 0x50 2), bcast := list (f 0x58 8) (f 0x52 1), slots := [], seqs := [], outSeq := 0
    credits := Config.parentDepth job (f 0 4), sending := none, sentStep := false, exhausted := false, readyWait := false, delivered := 0, held := false
    shadow := false, shadowWritten := false, hyper := [], nextScales := [], ovfBlocks := [], nfBlocks := [], ovfRaised := false, pending := [], gsq := 0, wsq := 0
    dsq := 0, gatherV := none, gatherBad := false, gathered := [], scalesGot := [], gathWait := false, gathering := false }

/-- The plan of a header (R440). -/
def State.readPlan (s : State) (a : Nat) (ctx : BitVec 16) : Plan :=
  let h := s.rdN a 128
  let f (off len : Nat) : Nat := fieldAt h off len
  let job := f 0 2 % 4096
  { addr := a, job := BitVec.ofNat 12 job, ctx := ctx, self_ := f 4 2, master := f 6 2, nmember := f 8 4, mode := BitVec.ofNat 8 (f 0x10 1)
    margin := f 0x11 1, normObj := BitVec.ofNat 16 (f 0x12 2), stepObj := BitVec.ofNat 16 (f 0x14 2), abortObj := BitVec.ofNat 16 (f 0x16 2)
    maxNorm := BitVec.ofNat 32 (f 0x18 4), members := f 0x20 8, telem := f 0x30 8, telemSlots := f 0x38 4, treeParent := f 0x3C 2
    children := (List.range (f 0x3E 1)).map fun k => f (0x40 + 2 * k) 2
    buckets := (List.range (f 0x0C 4)).map fun i => (i, some (s.readBucket job (f 0x28 8 + 96 * i)))
    nbucket := f 0x0C 4, openStep := BitVec.ofNat 32 (f 0x1C 4), version := 0, state := 1, telemIdx := 0, lastToken := 0, tokenSent := false
    clipSent := false, clip := fone, clipGot := false, stopped := false, firstSent := false, finalSent := false, firstFrom := [], finalFrom := []
    norms := [], normSent := false, nfSeen := false, nfRaised := false, ovfRaised := false }

/-- Reserved fields of a plan: header, bucket entries, owned shard descriptors, member table. -/
def State.planReserved (s : State) (p : Plan) : Bool :=
  let h := s.rdN p.addr 128
  decide (fieldAt h 0 2 < 4096) && decide (p.mode.toNat < 16) && zeroAt h 0x3F 1 && zeroAt h 0x60 32
    && p.listBuckets.all (fun e =>
      let b := e.2
      let r := s.rdN b.entry 96
      decide (b.flags.toNat < 16) && zeroAt r 0x53 5 && (b.isOwner || b.shard == 0) && (!b.isOwner || zeroAt (s.rdN b.shard 64) 0x38 8))
    && (List.range p.nmember).all fun m => s.rdLe (p.members + 8 * m + 4) 4 == 0

/-- A shard lies in HBM of one die: its descriptor, its two state copies and its hold area. -/
def State.shardInHbm (s : State) (b : Bucket) : Bool :=
  let die := dieOf (s.rdLe b.shard 8)
  let inHbm (a n : Nat) : Bool := isHbm a && s.mappedRange a n && dieOf a == die && dieOf (a + n - 1) == die
  inHbm b.shard 64 && (s.shardRanges b).all fun r => inHbm r.1 r.2.1

/-- A bucket whose elements do not fill it has padding: R × C falls short of its elements. -/
def State.padded (s : State) (b : Bucket) : Bool := decide (s.rdLe (b.shard + 0x20) 4 * s.rdLe (b.shard + 0x24) 4 < 1024 * b.nchunk)

def Plan.depths (p : Plan) : Nat := p.listBuckets.foldl (fun n e => n + e.2.depth) 0

/-- The refusals of R438, R439, R476 and R571. -/
def State.planOk (s : State) (p : Plan) : Bool :=
  let used := s.red.plans.foldl (fun n e => match e.2 with | some q => n + q.depths | none => n) 0
  s.boot.level == 2 && isHbm p.addr && s.mappedRange p.addr 128 && s.planReserved p && p.job != 0 && (s.planOfJob p.job.toNat).isNone
    && (s.ctxLive p.ctx).isSome && decide (used + p.depths ≤ 1024 * s.hbm.rslotSlices.toNat)
    && (p.clipMode != 1 || decide (p.nmember ≤ 4096))
    && p.listBuckets.all fun e =>
      let b := e.2
      !b.isOwner || (s.shardInHbm b && !(b.oneBit && s.rdLe (b.shard + 0x30) 8 == 0 && s.padded b))

def planInstall (f : AdminFrom) (s : State) : State :=
  s.serveAdmin f 0x32 (fun q => q.plen == 16 && zeroAt q.block 10 6) (answering fun q s =>
    let p := s.readPlan (q.par 0 8) (BitVec.ofNat 16 (q.par 8 2))
    match (List.range 16).find? fun j => (s.plan j).isNone with
    | some j => if s.planOk p then (s.setPlan j (some p), 0) else (s, 4)
    | none => (s, 4))
def execPlanInstall (r : AdminFrom) (s : State) : Host.Outcome State Fault Refusal := liveMp s (planInstall r)

/-- A JOB field: bits [15:12] are 0. -/
def jobField (q : AdminReq) : Bool := decide (q.par 0 2 < 4096)

def planRemove (f : AdminFrom) (s : State) : State :=
  s.serveAdmin f 0x33 (fun q => q.plen == 8 && jobField q && zeroAt q.block 2 6) (answering fun q s =>
    match s.planOfJob (q.par 0 2) with
    | some (j, _) => ((s.leavePlan j).removePlan j, 0)
    | none => (s, 4))
def execPlanRemove (r : AdminFrom) (s : State) : Host.Outcome State Fault Refusal := liveMp s (planRemove r)

/-- STEP_ABORT of the fabric manager for the open step (R471, R473). -/
def State.fabricAbort (s : State) (j : Nat) (p : Plan) (reason : Nat) (final : Bool) : State :=
  let s := (s.stopStep j).raiseStepAbort p 1 reason (bit final)
  if p.isMaster then s.masterToken j 4 reason
  else if final then s.closeAborted j
  else s.updPlan j fun p => { p with state := 3 }

def stepAbort (f : AdminFrom) (s : State) : State :=
  s.serveAdmin f 0x34 (fun q => q.plen == 8 && jobField q && decide (q.par 3 1 < 2)) (answering fun q s =>
    match s.planOfJob (q.par 0 2) with
    | some (j, p) => if q.par 4 4 = p.openStep.toNat then (s.fabricAbort j p (q.par 2 1) (q.par 3 1 == 1), 0) else (s, 0)
    | none => (s, 4))
def execStepAbort (r : AdminFrom) (s : State) : Host.Outcome State Fault Refusal := liveMp s (stepAbort r)

/-- Has some shadow of the open step been written? -/
def Plan.wroteShadow (p : Plan) : Bool := p.listBuckets.any fun e => e.2.shadowWritten

def revert (f : AdminFrom) (s : State) : State :=
  s.serveAdmin f 0x35 (fun q => q.plen == 8 && jobField q && zeroAt q.block 2 2) (answering fun q s =>
    match s.planOfJob (q.par 0 2) with
    | some (j, p) =>
      if p.lastToken = 2 ∧ !p.wroteShadow ∧ BitVec.ofNat 32 (q.par 4 4) = p.version - 1 then
        (s.setPlan j (some { p with version := p.version - 1 }), 0)
      else (s, 4)
    | none => (s, 4))
def execRevert (r : AdminFrom) (s : State) : Host.Outcome State Fault Refusal := liveMp s (revert r)

/-- CLIP_COEFF on the master: JOB (2), reserved (2), STEP (4), c (4) (R478, R479). -/
def clipCoeff (f : AdminFrom) (s : State) : State :=
  s.serveAdmin f 0x20 (fun q => q.plen == 12 && jobField q && zeroAt q.block 2 2) (answering fun q s =>
    match s.planOfJob (q.par 0 2) with
    | some (j, p) =>
      if p.clipMode = 2 ∧ p.isMaster ∧ q.par 4 4 = p.openStep.toNat then
        let c : Word := BitVec.ofNat 32 (q.par 8 4)
        ((s.masterClip j c).updateClipped j, 0)
      else (s, 4)
    | none => (s, 4))
def execClipCoeff (r : AdminFrom) (s : State) : Host.Outcome State Fault Refusal := liveMp s (clipCoeff r)

end Sys2Proof.Machine
end

