-- ==== Sys2Proof/Machine/Arrays.lean ====
section
/-!
DEFINITION. The array sequencer (R59-R95): the validity of a tile with its streams and epilogue, what holds its issue, claims, vector slots,
wake loads, the wake exchange, bank writes, stall counters and the tile watchdog.
-/
namespace Sys2Proof.Machine

/-! Registers (R85). -/

/-- The array cycle that the sequencer's decisions in the present one are for: a vector that leaves its operand queue now reaches cell (0, 0)
in the next cycle, and a load or a front decided now takes effect there (R59, R77, R81). -/
def ArrayUnit.slotCycle (x : ArrayUnit) : Nat := x.cyc + 1

/-- Does a register hold parked results that its other use must await (R85)? -/
def ArrayUnit.parked (x : ArrayUnit) (reg : Nat) : Bool := x.drains.any fun d => d.reg == reg && decide (x.slotCycle < d.front + 1024)

/-! Tiles to come (R208). -/

/-- The first position from `p` on that is not skipped. -/
def State.nextTile (s : State) (a p : Nat) : Nat → Nat
  | 0 => p
  | n + 1 => if s.skips a p then State.nextTile s a (p + 1) n else p

/-- Pass over the skipped hold tiles at the present position, with their hold-table entries, epilogue records and drain steps (R181, R208,
R228). -/
def State.skipTiles (a : Nat) : Nat → State → State
  | 0, s => s
  | n + 1, s =>
    let x := s.array a
    if !s.skips a x.pos then s
    else
      let g := x.feeder 2
      let d := x.south.dnext
      let south := if (s.tileRec x x.pos).final then
          { x.south with pos := x.south.pos + 1, dnext := d + s.stepsFor g x.pos (g.count - d) d }
        else x.south
      State.skipTiles a n (s.setArray a { x with pos := x.pos + 1, holdPos := x.holdPos + 1, south := south })

/-! Operands (R69, R218, R229). -/

/-- What the moving lanes of a feeder have for a tile. -/
inductive Lane where
  | ready
  | late
  | waits                        -- for a landing's ready object
  | bad                          -- a step that serves another tile, or none
  deriving DecidableEq, Repr

/-- The moving lanes of feeder `f` as the tile at `p` finds them. -/
def State.lane (s : State) (a f p : Nat) : Lane :=
  let g := s.feeder a f
  match g.moving with
  | x :: _ => if x.tile = p then .ready else .bad
  | [] =>
    match s.nextStep a f false g.mpos (g.count - g.mpos) with
    | none => if g.staging = [] then .bad else .late
    | some i =>
      if p < s.stepPos g i ∧ g.staging = [] then .bad
      else if g.cursors.any fun c => c.waiting && !c.held && (s.streamDesc c.desc).role == roleOf f false then .waits
      else .late

/-- The feeders whose moving lanes a tile reads. -/
def TileRec.lanes (t : TileRec) : List Nat := (if t.usesWest then [0] else []) ++ (if t.usesNorth then [1] else [])

/-- Is the moving stream of a row-mode tile doubled (R148)? -/
def State.movingSp24 (s : State) (a p : Nat) : Bool :=
  match s.stepOfTile a 0 p false with
  | some i => (s.attach (s.streamDesc (s.streamStep (s.feeder a 0) i).desc)).sp24
  | none => false

/-! Validity (R65, R66, R151, R189, R207). -/

/-- The drain steps of the FINAL tile at `p` are those that come next, and every one names the tile; `rows` are what its epilogue produces on the
output, the stash and the sides (R228, R229). DEDUCED (log 31): NROWS counts rows of NCOL columns, each of which takes as many stream rows as it
fills; the rows of a combine buffer are not counted. -/
def State.drainStepsOk (s : State) (a : Nat) (east : Bool) (p : Nat) (rows : Nat → Option Nat) : Bool :=
  let g := s.feeder a (drainOf east)
  let d := ((s.array a).edge east).dnext
  (decide (g.count ≤ d) || decide (p ≤ s.stepPos g d))
    && (List.range (s.stepsFor g p (g.count - d) d)).all fun i =>
      let st := s.streamStep g (d + i)
      let role := (s.streamDesc st.desc).role
      decide (4 ≤ role) && decide (role ≤ 7) && (match rows role with | some n => st.nrows == n | none => true)

/-- The drain program serves the tile at `p` with a valid stream of the given role; `num` is the format of its rows where the epilogue record
gives it. -/
def State.drainOk (s : State) (a : Nat) (east : Bool) (p role num : Nat) : Bool :=
  let g := s.feeder a (drainOf east)
  let d := ((s.array a).edge east).dnext
  match s.stepWithRole g role (s.stepsFor g p (g.count - d) d) d with
  | none => false
  | some j =>
    let d := s.streamDesc (s.streamStep g j).desc
    let t := s.tensorDesc d.tdesc
    let n := if num = 0 then t.fmt else num
    d.plainOk && d.tdesc != 0 && t.ok && decide (t.rowElems ≠ 0) && d.shapeOk n false && d.scaleOk n && (s.attach d).ok role

/-- Has an earlier tile with FINAL = 0 and the same M written the bank rows that begin at `row` (R182)? -/
def State.segmentWritten (s : State) (a p : Nat) (t : TileRec) (row : Nat) : Bool :=
  (List.range p).any fun q =>
    let u := s.tileRec (s.array a) q
    !s.skips a q && u.hold == t.hold && u.east == t.east && !u.final && u.m == t.m && u.brow == row && is16 u.fmt == is16 t.fmt

/-- The epilogue record of a FINAL tile is there and valid, with the streams that it names (R181-R183, R189, R229). DESIGN CHOICE (log 31): a
FINAL tile for which the list has no record left, and a paired region that passes bank row 2,047, make the record invalid. -/
def State.epilogueOk (s : State) (a p : Nat) (t : TileRec) : Bool :=
  if !t.final then true
  else
    let e := (s.array a).edge t.east
    let r := s.epiRec (e.list + 64 * e.pos)
    let nseg := r.nseg t.fmt
    let n := epiRows t.mode t.fmt t.m t.r
    decide (e.pos < e.count) && r.ok t.fmt
      && ((List.range (nseg - 1)).all fun g =>
        decide ((nseg - 1 - g) * t.m ≤ t.brow) && s.segmentWritten a p t (t.brow - (nseg - 1 - g) * t.m))
      && (r.pairRow == 0xFFFF || decide (r.pairRow + (nseg - 1) * t.m + (if t.hold then t.r else t.m) ≤ 2048))
      && s.drainStepsOk a t.east p (fun role => match role with
        | 4 => some (n * r.outRows)
        | 5 => some (n * r.stashRows)
        | 6 => if r.combines then none else some n
        | _ => some n)
      && (r.outFmt == 0 || s.drainOk a t.east p 4 r.outFmt) && (!r.codes.any stashes || s.drainOk a t.east p 5 r.stashFmt)
      && (!bitOf r.sides 0 || s.drainOk a t.east p 6 0) && (!bitOf r.sides 1 || s.drainOk a t.east p 7 0)

/-- Bindings of the RUN on an array: address of entry `i`. -/
def Run.binding (r : Run) (i : Nat) : Nat := r.bindings + 32 * i

/-- The hold-table entry of a hold tile names a gradient binding (R207). -/
def State.holdOk (s : State) (a p : Nat) (t : TileRec) : Bool :=
  if !t.hold then true
  else
    let w := s.holdWord (s.array a) p
    match s.runOnArray a with
    | some r => !bitOf w 30 && decide (w % 65536 < r.nbind) && s.rdLe (r.binding (w % 65536)) 1 == 2
    | none => true

/-- Is the tile at `p` valid, as far as it can be judged before its wake load has completed? -/
def State.tileOk (s : State) (a p : Nat) : Bool :=
  let x := s.array a
  let t := s.tileRec x p
  let q := s.nextTile a (p + 1) (x.ntiles - (p + 1))
  let u := s.tileRec x q
  t.ok && (!t.hold || decide (x.ntiles ≤ q) || u.hold || u.act != t.park)
    && t.lanes.all (fun f => s.lane a f p != Lane.bad)
    && (!t.lden || (s.stepOfTile a (if s.northLoad a p then 1 else 0) p true).isSome)
    && ([0, 1, 2, 3].all fun f => match (s.feeder a f).badTile with | some b => decide (p < b) | none => true)
    && s.epilogueOk a p t && s.holdOk a p t

/-- Must issue end here: the tile at the present position is invalid, or a feeder has met an invalid address (R66, R218)? -/
def State.mustStop (s : State) (a : Nat) : Bool :=
  let x := s.array a
  if x.pos < x.ntiles then !s.tileOk a x.pos else [0, 1, 2, 3].any fun f => (s.feeder a f).badTile.isSome

/-- The 2:4 mark of the ACT register suits the tile (R151). -/
def State.markOk (s : State) (a p : Nat) (t : TileRec) : Bool :=
  let mark := ((s.array a).block t.act).sp24
  if t.hold then true else if t.col then !mark else t.m == 0 || mark == s.movingSp24 a p

/-! What holds a tile's vector 0 (R69, R85-R87, R254, R508). -/

/-- A sync step of a task image (R368). -/
structure SyncStep where
  op   : Nat
  nobj : Nat
  objs : List Nat
  n    : Word
  device : Nat
  rctx : Nat
  tile : Nat
  ret  : Nat
  deriving DecidableEq, Repr

def State.syncStepAt (s : State) (x : ArrayUnit) (i : Nat) : SyncStep :=
  let b := s.rdN (x.syncList + 32 * i) 32
  { op := fieldAt b 0 1, nobj := fieldAt b 1 1, objs := [fieldAt b 2 2], n := BitVec.ofNat 32 (fieldAt b 4 4), device := fieldAt b 8 2
    rctx := fieldAt b 0xA 2, tile := fieldAt b 0xC 2, ret := fieldAt b 0x10 8 }

/-- Is an operation one that waits: WAIT, WAIT_GE or WAIT_ANY? -/
def syncWaiting (op : Nat) : Bool := op == 2 || op == 3 || op == 4

/-- The tile-list position of a sync step: the steps stand in the order of their tiles (R368). -/
def State.syncPosAt (s : State) (x : ArrayUnit) (i : Nat) : Nat := tilePositions ((List.range (i + 1)).map fun j => (s.syncStepAt x j).tile)

/-- Does a waiting sync step at or before tile `p` hold it (R368)? -/
def State.syncHolds (s : State) (a p : Nat) : Bool :=
  let x := s.array a
  (List.range (x.nsync - x.syncPos)).any fun i =>
    syncWaiting (s.syncStepAt x (x.syncPos + i)).op && decide (s.syncPosAt x (x.syncPos + i) ≤ p)

/-- The previous tile has issued its last slot, and a previous hold tile its exchange front (condition 1 of R69). -/
def ArrayUnit.between (x : ArrayUnit) : Bool :=
  !(x.inflight.any fun t => t.tr.hold)
    && (match x.inflight.getLast? with
        | some t => (match t.ended with | some e => decide (e ≤ x.slotCycle) | none => false)
        | none => true)

/-- Do abandoned epilogues or repeated loads still have to run before the first resumed tile (R191, R636)? -/
def ArrayUnit.resuming (x : ArrayUnit) : Bool :=
  x.loads.any (fun l => l.repeat_) || (x.south.queue ++ x.east.queue).any fun e => decide (e.tile < x.resumeAt)

/-- Does the power controller withhold the issue of tiles in the present cycle (R508, R512)? -/
def State.withheld (s : State) (a : Nat) : Bool := s.heldByPower a || decide (1024 * s.pwr.duty ≤ (s.array a).slotCycle % 8192)

/-- Every cause that holds the tile at `p` in the present cycle, by counter number of R255. -/
def State.holdsOf (s : State) (a p : Nat) : List Nat :=
  let x := s.array a
  let t := s.tileRec x p
  let lanes := t.lanes.map fun f => s.lane a f p
  let rows := t.bankRows
  (if x.resuming then [8] else [])
    ++ (if s.withheld a then [7] else [])
    ++ (if s.syncHolds a p || lanes.contains Lane.waits then [6] else [])
    ++ (if !t.hold && ((x.loads.any fun l => l.reg == t.act) || (t.m != 0 && x.parked t.act)) then [5] else [])
    ++ (if (t.row && (match x.lastFront with | some f => decide (x.slotCycle < f + 1024) | none => false))
          || (List.range rows.2).any (fun i => s.rowHeld a t.east (rows.1 + i)) then [3] else [])
    ++ (if lanes.contains Lane.late then [2] else [])
    ++ (if x.window != [] || x.bankWait != [] then [4] else [])

/-- The cause under which a held cycle counts (R254); IDLE where nothing holds. -/
def firstCause (l : List Nat) : Nat := ([8, 7, 6, 5, 3, 2, 4].find? fun c => l.contains c).getD 1

/-! Claims (R210, R211). -/

/-- Claim the block of the hold tile at `p`: the state after it, or the state after the fault of a block already claimed or refused. -/
def State.claim (s : State) (a p : Nat) (r : Run) (t : TileRec) : Bool × State :=
  let w := s.holdWord (s.array a) p
  if !t.hold || bitOf w 31 then (true, s)
  else
    let block := w / 65536 % 16384
    let at_ := s.rdLe (r.binding (w % 65536) + 0x18) 8 + 8 * block
    let c := r.step.toNat * 2 ^ 32 + r.mb.toNat
    match s.atomicFault 9 2 at_ with
    | 0 =>
      let (old, s) := s.atomicDo 9 2 at_ c c
      if old = c then
        let s := s.raiseCtx r.ctx 0x0405 (16 * a) (leBytes 2 w ++ leBytes 2 block ++ leBytes 4 r.step.toNat ++ leBytes 4 r.mb.toNat)
        (false, s.faultCtx r.ctx 4 a 0x0405 (16 * a) block)
      else (true, (s.atomicDo 9 2 at_ c old).2)
    | cause =>
      let s := (if cause = 3 then s.reportPoison at_ 8 else s).noteUnmapped a cause at_ 8
      (false, s.faultCtx r.ctx cause a (if cause = 3 then 0x0302 else 0) (16 * a) at_)

/-! Vector slots (R59, R61, R159). -/

/-- The head of a moving queue leaves it. -/
def State.popMoving (s : State) (a f : Nat) : State :=
  match (s.feeder a f).moving with
  | x :: rest => (s.updFeeder a f fun g => { g with moving := rest }).rowLeft a f false x
  | [] => s

/-- Rewrite the last tile in flight. -/
def State.updLast (s : State) (a : Nat) (f : Tile → Tile) : State :=
  let x := s.array a
  match x.inflight.reverse with
  | t :: rest => s.setArray a { x with inflight := (f t :: rest).reverse, progressed := true }
  | [] => s

/-- The heads of the moving queues that a tile reads, if all are there and serve it. -/
def State.heads (s : State) (a : Nat) (t : TileRec) (p : Nat) : Option (List LaneRow) :=
  let l := t.lanes.filterMap fun f => (s.feeder a f).moving.head?
  if l.length = t.lanes.length ∧ l.all (fun x => x.tile == p) then some l else none

/-- Issue the next slot of the tile last begun: its operands leave their queues in the cycle before they reach the array (R59). What remains of
dropped vectors at the head of the queues is passed over at once, so that the tile ends with its last issued slot. -/
def State.issueSlot (s : State) (a : Nat) : State :=
  let x := s.array a
  match x.inflight.getLast? with
  | none => s
  | some t =>
    let slot (w n : Option LaneRow) (i : Nat) : Slot := { at_ := x.slotCycle, idx := i, west := w, north := n }
    if t.ended.isSome then s
    else if t.tr.m = 0 then s.updLast a fun t => { t with slots := [slot none none 0], ended := some (x.slotCycle + 1) }
    else
      match s.heads a t.tr t.pos with
      | some (h :: hs) =>
        let s := t.tr.lanes.foldl (fun (s : State) f => s.popMoving a f) s
        if h.empty then
          s.updLast a fun t =>
            if t.slots = [] then { t with slots := [slot none none h.idx], ended := some (x.slotCycle + 1) } else { t with ended := some x.slotCycle }
        else
          let w := if t.tr.usesWest then some h else none
          let n := if t.tr.usesWest then hs.head? else some h
          let s := s.updLast a fun t => { t with slots := t.slots ++ [slot w n h.idx], ended := if h.last then some (x.slotCycle + 1) else none }
          if h.last then s
          else
            match s.heads a t.tr t.pos with
            | some (m :: _) =>
              if m.empty then (t.tr.lanes.foldl (fun (s : State) f => s.popMoving a f) s).updLast a fun t => { t with ended := some (x.slotCycle + 1) }
              else s
            | _ => s
      | _ => s

/-- Begin the tile at `p`: its front, its epilogue's hold on bank rows, its wake load, and its first slot (R69, R77, R79, R183). -/
def State.beginTile (s : State) (a p : Nat) (r : Run) (t : TileRec) : State :=
  let x := s.array a
  let e := x.edge t.east
  let rides := if s.rides a p then x.lastFront else none
  let load : WakeLoad := { reg := t.ldreg, tile := p, north := s.northLoad a p, ext := t.ldext, rides := rides, after := x.slotCycle, started := false,
                           done := 0, lastAt := 0, repeat_ := false, slot := none }
  let g := x.feeder (drainOf t.east)
  let k := s.stepsFor g p (g.count - e.dnext) e.dnext
  let epi : Epilogue := { tile := p, rec_ := e.list + 64 * e.pos, brow := t.brow, m := t.m, fmt := t.fmt, c := t.c, r := t.r, mode := t.mode,
                          step := e.dnext, nstep := k, ready := false, beat := 0, row := 0, nonfin := 0, stashNonfin := 0, gain := [], offset := [] }
  let tile : Tile := { pos := p, tr := t, t0 := x.slotCycle, slots := [], ended := none, block := x.block t.act, sp24 := t.row && s.movingSp24 a p }
  let x := if t.final then x.setEdge t.east { e with pos := e.pos + 1, dnext := e.dnext + k, queue := e.queue ++ [epi] } else x
  (s.setArray a { x with
    inflight := x.inflight ++ [tile], loads := if t.lden then x.loads ++ [load] else x.loads
    actReg := if t.hold then x.actReg else t.act == 1, mode := BitVec.ofNat 2 t.mode, state := 1, ctx := BitVec.ofNat 6 r.ctx
    pos := p + 1, holdPos := if t.hold then x.holdPos + 1 else x.holdPos, began := true }).issueSlot a

/-- May a RUN's tiles issue on an array at all? -/
def State.mayIssue (s : State) (a : Nat) (r : Run) : Bool :=
  let x := s.array a
  r.phase == RunPhase.granted && r.bound && r.restoring == 0 && !x.scrubbing && x.state != 4 && s.clockRuns a

/-- The position of the invalid record: the present tile, or an earlier one of which a stream has been found invalid since (R66, R218). -/
def State.badPos (s : State) (a : Nat) : Nat :=
  [0, 1, 2, 3].foldl (fun p f => match (s.feeder a f).badTile with | some b => min p b | none => p) (s.array a).pos

/-- An invalid tile: the context faults once the tiles issued before it have completed (R66). -/
def State.stopTile (s : State) (a : Nat) (r : Run) : State :=
  let x := s.array a
  if x.inflight != [] || x.draining then s
  else (s.noteFault a 1 (s.badPos a)).faultCtx r.ctx 1 a 0 (16 * a) (s.badPos a)

/-- TILE_ISSUE: the next tile is checked and its vector 0 issues at the earliest cycle at which every condition holds (R65, R66, R69, R210). -/
def tileIssue (a : Nat) (s : State) : State :=
  match s.runOnArray a with
  | none => s
  | some r =>
    if !s.mayIssue a r then s
    else
      let s := State.skipTiles a ((s.array a).ntiles - (s.array a).pos) s
      let x := s.array a
      let t := s.tileRec x x.pos
      if s.mustStop a then s.stopTile a r
      else if x.ntiles ≤ x.pos ∨ !x.between ∨ s.holdsOf a x.pos ≠ [] then s
      else if !s.markOk a x.pos t then s.stopTile a r
      else
        match s.claim a x.pos r t with
        | (true, s) => s.beginTile a x.pos r t
        | (false, s) => s

def execTileIssue (a : Fin 8) (s : State) : Host.Outcome State Fault Refusal := live s (tileIssue a.val)

/-! Bank writes (R59, R67, R68, R113, R160). -/

/-- Entries of a result row. -/
def TileRec.width (t : TileRec) : Nat := if t.col then t.r else t.c

/-- The slot position from which a tile's dropped vectors are written: its last slot, or later where the end was learnt later. -/
def Tile.zeroBase (t : Tile) : Option Nat :=
  match t.ended, t.slots.getLast? with
  | some e, some l => some (max l.at_ (e - 1024))
  | _, _ => none

/-- The cycle of a tile's last bank write; a load-only tile has none, and a hold tile writes through its drain. -/
def Tile.doneAt (t : Tile) : Option Nat :=
  if t.tr.hold then none
  else if t.tr.m = 0 then t.ended
  else t.zeroBase.map fun b => b + 1024 + lastEntry t.tr.fmt t.tr.width

/-- The entry of a result row that is written in cycle `cyc` for a slot at `at_`. -/
def TileRec.dueEntry (t : TileRec) (cyc at_ : Nat) : Option Nat :=
  if at_ + 1024 ≤ cyc ∧ cyc - at_ - 1024 < t.width ∧ entryExists t.fmt (cyc - at_ - 1024) then some (cyc - at_ - 1024) else none

/-- One bank entry is written, and the RUN's time runs up to it (R400). -/
def State.writeEntry (s : State) (a : Nat) (east badd : Bool) (row n : Nat) (v : Word) : State :=
  let s := s.bankWrite a east badd row n v
  let x := s.array a
  s.setArray a { x with eLast := x.eCount + 1, progressed := true }

/-- The writes of one row-mode or column-mode tile in the present cycle. -/
def State.tileWrites (s : State) (a : Nat) (t : Tile) : State :=
  let cyc := (s.array a).cyc
  if t.tr.hold || t.tr.m = 0 then s
  else
    let r := t.tr
    let s := match t.zeroBase with
      | some b =>
        (match r.dueEntry cyc b with
         | some n =>
           ((List.range r.m).filter fun m => !t.slots.any fun x => x.idx == m && (x.west.isSome || x.north.isSome)).foldl
             (fun (s : State) m => s.writeEntry a r.east r.badd (r.brow + m) n fzero) s
         | none => s)
      | none => s
    t.slots.foldl (fun (s : State) x =>
      match r.dueEntry cyc x.at_, x.west, x.north with
      | some n, some w, _ => s.writeEntry a r.east r.badd (r.brow + x.idx) n (rowEntry r t.sp24 t.block w n)
      | some n, none, some y => s.writeEntry a r.east r.badd (r.brow + x.idx) n (colEntry r t.block y n)
      | none, _, _ | some _, none, none => s) s

/-- The writes of one drain in the present cycle (R82, R83). -/
def State.drainWrites (s : State) (a : Nat) (d : Drain) : State :=
  let cyc := (s.array a).cyc
  let t : TileRec := { mode := 2, fmt := d.fmt, act := 0, park := d.reg, lden := false, ldreg := 0, badd := d.badd, final := d.final, m := 0,
                       r := d.r, c := d.c, ldext := 0, brow := d.brow, reserved := false }
  let s := if d.front + 1023 ≤ cyc ∧ cyc ≤ d.front + 3069 then s.setArray a { s.array a with progressed := true } else s
  (List.range d.r).foldl (fun (s : State) k =>
    let n := k + cyc - (d.front + 2047)
    if d.front + 2047 ≤ k + cyc ∧ n < d.c ∧ entryExists d.fmt n ∧ entryExists d.fmt k then
      s.writeEntry a false d.badd (d.brow + k) n (holdEntry t d.slots k n)
    else s) s


/-- A tile has completed: it is counted, and its rows pass to the edge unit (R183, R400). -/
def State.tileDone (s : State) (a p : Nat) (east final : Bool) : State :=
  let x := s.array a
  let u := x.edge east
  let x := if final then x.setEdge east { u with queue := u.queue.map fun e => if e.tile = p then { e with ready := true } else e } else x
  let s := s.setArray a { x with tiles := x.tiles + 1 }
  match s.runOnArray a with
  | some r => s.updRun r.key fun r => { r with tiles := r.tiles + 1 }
  | none => s

/-- Every bank write of the present cycle, and the tiles that complete with it. -/
def State.cycleWrites (s : State) (a : Nat) : State :=
  let cyc := (s.array a).cyc
  let s := (s.array a).drains.foldl (fun (s : State) d => s.drainWrites a d) s
  let s := (s.array a).inflight.foldl (fun (s : State) t => s.tileWrites a t) s
  let x := s.array a
  let ended (t : Tile) : Bool := match t.doneAt with | some c => decide (c ≤ cyc) | none => false
  let s := s.setArray a { x with
    inflight := x.inflight.filter fun t => !ended t, drains := x.drains.filter fun d => decide (cyc < max d.doneAt d.overAt) }
  let s := (x.inflight.filter ended).foldl (fun (s : State) t => s.tileDone a t.pos t.tr.east t.tr.final) s
  (x.drains.filter fun d => d.doneAt == cyc).foldl (fun (s : State) d => s.tileDone a d.tile false d.final) s

/-! Wake loads (R73-R78, R84, R636). -/

def laneOfChain (north : Bool) : Nat := if north then 1 else 0

/-- The row that a running load injects next, if it has arrived; the state after it has left its queue. -/
def State.nextInjection (s : State) (a : Nat) (l : WakeLoad) : Option LaneRow × State :=
  let f := laneOfChain l.north
  if l.repeat_ then
    match s.stepOfTile a f l.tile true with
    | none => (some (zeroRow l.tile l.done false), s)
    | some i =>
      let st := s.streamStep (s.feeder a f) i
      let d := s.streamDesc st.desc
      let base := if d.lslots = 0 then d.base else d.base + l.slot.getD ((s.feeder a f).cursor st.desc).slot * d.lslotBytes
      let (x, tr) := s.readStationary a l.tile st d base l.done
      (some x, s.feederTrouble a f l.tile tr)
  else
    match (s.feeder a f).stationary with
    | [] => (none, s)
    | x :: rest =>
      if x.tile ≠ l.tile then (none, s.badStream a f l.tile)
      else (some x, (s.updFeeder a f fun g => { g with stationary := rest }).rowLeft a f true x)

/-- May a load inject in the present cycle: a riding one follows its drain (R84)? -/
def WakeLoad.due (l : WakeLoad) (cyc : Nat) : Bool :=
  l.started && decide (l.done < l.ext) && (match l.rides with | some f => decide (f + 1023 + (1024 - l.ext) + l.done ≤ cyc) | none => true)

/-- The landing slot that the stationary stream of a tile reads now. -/
def State.loadSlot (s : State) (a : Nat) (l : WakeLoad) : Nat :=
  let f := laneOfChain l.north
  match s.stepOfTile a f l.tile true with
  | some i => ((s.feeder a f).cursor (s.streamStep (s.feeder a f) i).desc).slot
  | none => 0

/-- One injection of one load; the first notes what the load read, for a repeat of it (R636). -/
def State.injectLoad (s : State) (a : Nat) (l : WakeLoad) : State :=
  let source := if l.done = 0 then some (l.tile, l.slot.getD (s.loadSlot a l)) else ((s.array a).block l.reg).source
  match s.nextInjection a l with
  | (none, s) => s
  | (some row, s) =>
    let x := s.array a
    let x := x.setBlock l.reg { (x.block l.reg).inject l.north row x.cyc with source := source }
    s.setArray a { x with
      progressed := true
      loads := x.loads.map fun m => if m.tile == l.tile && m.reg == l.reg && m.started then { m with done := m.done + 1, lastAt := x.cyc } else m }

def State.cycleInject (s : State) (a : Nat) : State :=
  let x := s.array a
  (x.loads.filter fun l => l.due x.cyc).foldl (fun (s : State) l => s.injectLoad a l) s

/-- Must a waiting load still wait: for its tile's vector 0, for its chain, or for its register (R77, R85)? -/
def ArrayUnit.loadWaits (x : ArrayUnit) (before : List WakeLoad) (l : WakeLoad) : Bool :=
  decide (x.slotCycle < l.after) || (before.any fun m => m.north == l.north || m.reg == l.reg) || (l.rides.isNone && x.parked l.reg)

/-- The first load that may start. -/
def ArrayUnit.nextLoad (x : ArrayUnit) : List WakeLoad → List WakeLoad → Option WakeLoad
  | _, [] => none
  | before, l :: rest => if !l.started && !x.loadWaits before l then some l else ArrayUnit.nextLoad x (before ++ [l]) rest

/-- The 2:4 mark that a load sets: that of its stationary stream (R150). -/
def State.loadSp24 (s : State) (a : Nat) (l : WakeLoad) : Bool :=
  let f := laneOfChain l.north
  match s.stepOfTile a f l.tile true with
  | some i => (s.attach (s.streamDesc (s.streamStep (s.feeder a f) i).desc)).sp24
  | none => false

/-- WAKE_LOAD_START (R77): the register begins to shift; a riding load follows the drain's zeros, which the exchange front has put there (R84). No
load starts once a pre-emption request has reached the array (R71). -/
def wakeLoadStart (a : Nat) (s : State) : State :=
  let x := s.array a
  if !s.clockRuns a || x.state = 4 || x.state = 2 || x.quiesced then s
  else
    match x.nextLoad [] x.loads with
    | none => s
    | some l =>
      let x := x.setBlock l.reg { x.block l.reg with sp24 := s.loadSp24 a l }
      s.setArray a { x with loads := x.loads.map fun m => if m == l then { m with started := true } else m }

def execWakeLoadStart (a : Fin 8) (s : State) : Host.Outcome State Fault Refusal := live s (wakeLoadStart a.val)

/-- WAKE_LOAD_COMPLETE (R78): the last injection of a load has entered lane 0. -/
def wakeLoadComplete (a : Nat) (s : State) : State :=
  let x := s.array a
  match x.loads.find? fun l => l.started && l.done == l.ext with
  | none => s
  | some l => s.setArray a { x with loads := x.loads.erase l }

def execWakeLoadComplete (a : Fin 8) (s : State) : Host.Outcome State Fault Refusal := live s (wakeLoadComplete a.val)

/-! The wake exchange (R81-R88). -/

/-- What holds the exchange front of a hold tile: the previous front (R86), or its PARK register while a cell of it is being loaded or holds
values that have not been emitted (R78, R82, R87). DESIGN CHOICE (log 35): a load into PARK of this or an earlier tile that still waits for its
chain holds the front too, though R87 names only a register that is being loaded. -/
def ArrayUnit.frontHolds (x : ArrayUnit) (t : Tile) : List Nat :=
  let b := x.block t.tr.park
  (if x.loads.any (fun l => l.reg == t.tr.park && (l.started || decide (l.tile ≤ t.pos)))
      || (b.source.isSome && decide (x.slotCycle ≤ b.lastAt + 1023))
      || x.drains.any (fun d => d.reg == t.tr.park && decide (x.slotCycle ≤ d.overAt)) then [5] else [])
    ++ (match x.lastFront with | some f => if x.slotCycle < f + 1024 then [3] else [] | none => [])

/-- The hold tile in flight, if its last slot has issued. -/
def ArrayUnit.holdEnded (x : ArrayUnit) : Option Tile :=
  x.inflight.find? fun t => t.tr.hold && (match t.ended with | some e => decide (e ≤ x.slotCycle) | none => false)

/-- EXCHANGE_FRONT: the accumulated results are parked, and their drain begins; the register is left with the zeros that the chain feeds behind
them (R81, R84). -/
def exchangeFront (a : Nat) (s : State) : State :=
  let x := s.array a
  match x.holdEnded with
  | none => s
  | some t =>
    if x.state = 4 || !s.clockRuns a || x.frontHolds t ≠ [] then s
    else
      let f := x.slotCycle
      let d : Drain := { reg := t.tr.park, front := f, brow := t.tr.brow, badd := t.tr.badd, fmt := t.tr.fmt, r := t.tr.r, c := t.tr.c
                         tile := t.pos, slots := t.slots, final := t.tr.final }
      let zero : Injection := { row := zeroRow 0 0 false, north := true }
      let x := x.setBlock t.tr.park { hist := List.replicate 1024 zero, source := none, sp24 := false, lastAt := f, epoch := 0 }
      s.setArray a { x with inflight := x.inflight.filter fun u => u.pos != t.pos, drains := x.drains ++ [d], lastFront := some f }

def execExchangeFront (a : Fin 8) (s : State) : Host.Outcome State Fault Refusal := live s (exchangeFront a.val)

/-! Stall counters (R252-R255). -/

/-- Does a RUN that waits for its arrays need array `a` (R384)? -/
def State.awaited (s : State) (a : Nat) : Bool :=
  s.runs.any fun r => (r.phase == RunPhase.waiting || r.phase == RunPhase.preempted) && bitOf r.arrays.toNat a

/-- The counter of the sequencer's present cycle. Once a tile's vector 0 has issued only a missing operand holds it: the conditions of R69 and the
duty of R508 are for vector 0. -/
def State.sequencerCause (s : State) (a : Nat) : Nat :=
  let x := s.array a
  if x.state = 4 then 1
  else if x.inflight.any fun t => t.slots.any fun y => y.at_ == x.slotCycle then 0
  else
    match s.runOnArray a with
    | none => if s.awaited a then 8 else 1
    | some r =>
      if r.phase != RunPhase.granted || x.scrubbing || r.restoring != 0 then 8
      else if !r.bound then 1
      else
        match x.inflight.find? fun t => t.ended.isNone with
        | some t => if (t.tr.lanes.map fun f => s.lane a f t.pos).contains Lane.waits then 6 else 2
        | none =>
          let front := match x.holdEnded with | some t => x.frontHolds t | none => []
          if x.ntiles ≤ x.pos then firstCause front else firstCause (front ++ s.holdsOf a x.pos)

/-- What holds the west or north feeder, by counter number: a landing's ready object; a full queue, which counts as power throttle while the issue
that would empty it is withheld (log 35); the other feeder's empty mark; a bank (R232, R233, R236, R254). -/
def State.operandHolds (s : State) (a f : Nat) : List Nat :=
  let g := s.feeder a f
  let full : Bool :=
    (g.mReady && decide (g.mrow < (s.streamStep g g.mpos).nrows)
      && (let d := s.streamDesc (s.streamStep g g.mpos).desc
          !roomFor (s.tileRec (s.array a) (s.stepPos g g.mpos)).hold g (s.attach d).sp24))
    || (g.sReady && decide (g.srow < (s.streamStep g g.spos).nrows) && decide (64 ≤ g.stationary.length))
  (if g.cursors.any fun c => c.waiting && !c.held then [6] else [])
    ++ (if full then (if s.withheld a then [7, 3] else [3]) else []) ++ (if g.staging != [] then [2] else []) ++ (if g.conflict then [4] else [])

/-- What holds a drain feeder: a full side queue or a refused write, a refused read, a bank (R232, R236, R279). -/
def State.drainHolds (s : State) (a : Nat) (east : Bool) : List Nat :=
  let g := s.feeder a (drainOf east)
  let u := (s.array a).edge east
  let sidesFull : Bool := match u.queue with
    | e :: _ => u.running && (let x := s.epiEnv a east e; [0, 1].any fun k =>
        x.r.queued k && decide (32 < ((g.side k).length / x.r.ncol + 1) * x.r.nseg e.fmt))
    | [] => false
  (if sidesFull || s.writeRefused a east then [3] else []) ++ (if s.sideRefused a east then [2] else []) ++ (if g.conflict then [4] else [])

/-- The counter of a feeder's present cycle, but for the bank slot of HBM. -/
def State.feederHeld (s : State) (a f : Nat) : Nat :=
  let g := s.feeder a f
  let x := s.array a
  if g.mActive || g.sActive then 0
  else if x.state = 4 then 1
  else
    match s.runOnArray a with
    | none => if s.awaited a then 8 else 1
    | some r =>
      if r.phase != RunPhase.granted || x.scrubbing || r.restoring != 0 then 8
      else if 2 ≤ f then
        match s.drainHolds a (f == 3) with
        | [] => if (s.nextWrite a (f == 3)).isSome || (s.nextSide a (f == 3)).isSome then 2 else 1
        | l => firstCause l
      else
        match s.operandHolds a f with
        | [] =>
          if (s.nextStep a f false g.mpos (g.count - g.mpos)).isNone && (s.nextStep a f true g.spos (g.count - g.spos)).isNone then 1 else 2
        | l => firstCause l

/-- The counter of a feeder's present cycle: a feeder whose oldest outstanding request waits for a bank slot of HBM counts no empty operand but a bank
conflict (R279). -/
def State.feederCause (s : State) (a f : Nat) : Nat :=
  let c := s.feederHeld a f
  if c = 2 ∧ s.waitsForSlot (16 * a + 1 + f) then 4 else c

/-- The counter of an edge unit's present cycle: what became of it, or the pre-emption that its waiting epilogues are held by (R191, R252). -/
def State.edgeCause (s : State) (a : Nat) (east : Bool) : Nat :=
  let u := (s.array a).edge east
  if (s.array a).state = 4 then 1 else if u.cause = 1 ∧ (s.array a).state = 2 ∧ u.queue ≠ [] then 8 else u.cause

/-- Quarters of a target-clock cycle by which a stretched cycle exceeds its length (R253, PWR_DROOP.STRETCH). -/
def State.stretchQuarters (s : State) (a : Nat) : Nat := if (s.array a).stretching then s.pwr.stretch.toNat + 1 else 0

/-- Count the present cycle and begin the next (R40, R92, R252, R253, R400). -/
def State.cycleCount (s : State) (a : Nat) : State :=
  let x := s.array a
  let cause := s.sequencerCause a
  let causes := [cause] ++ (List.range 4).map (fun f => s.feederCause a f) ++ [s.edgeCause a false, s.edgeCause a true]
  let quarters := x.stretchRem + s.stretchQuarters a
  let s := (List.range 7).foldl (fun (s : State) i => s.countStall (16 * a + i) (causes.getD i 1) 1) s
  let s := if quarters / 4 = 0 then s else (List.range 7).foldl (fun (s : State) i => s.countStall (16 * a + i) 9 (quarters / 4)) s
  let x := [0, 1, 2, 3].foldl (fun (x : ArrayUnit) f => x.setFeeder f { x.feeder f with mActive := false, sActive := false, conflict := false }) (s.array a)
  s.setArray a { x with
    cause := cause, stretchRem := quarters % 4, counter := x.counter + 1, cyc := x.cyc + 1, granted := []
    eCount := if x.began && cause != 8 then x.eCount + 1 else x.eCount }

/-- ARRAY_CYCLE: the next cycle of an array whose clock runs begins. What the sequencer decided in the cycle before takes effect: rows are
injected and bank entries written; the next vector of the tile in issue leaves its queue (R59); and the edge units stream a segment each
(R184). -/
def arrayCycle (a : Nat) (s : State) : State :=
  if !s.clockRuns a then s
  else
    let s := s.cycleCount a
    if (s.array a).state = 4 then s else ((((s.issueSlot a).cycleWrites a).cycleInject a).edgeCycle a false).edgeCycle a true

def execArrayCycle (a : Fin 8) (s : State) : Host.Outcome State Fault Refusal := live s (arrayCycle a.val)

/-! The tile watchdog (R94, R95). -/

/-- TILE_WATCHDOG: the count has reached LIMIT: the array stops at once, with the event and the array reset that follows (R95, R547, R549). -/
def tileWatchdog (a : Nat) (s : State) : State :=
  let x := s.array a
  if s.resetScope ≠ 0 || (s.smallReset 1 a).isSome || !x.wdogEn || decide (x.noProg < x.wdogLimit.toNat) || x.state = 4 then s
  else
    let c := s.arrayCtx a
    let s := (s.setArray a { x with state := 4 }).noteFault a 3 x.tiles.toNat
    let s := s.raiseCtx c 0x0101 (16 * a) (leBytes 1 a ++ leBytes 1 x.cause ++ leBytes 6 0 ++ leBytes 8 x.tiles.toNat)
    s.fireArray a 1 x.cause (s.ctxid c) x.tiles.toNat

def execTileWatchdog (a : Fin 8) (s : State) : Host.Outcome State Fault Refusal := live s (tileWatchdog a.val)

end Sys2Proof.Machine
end

