-- ==== Sys2Proof/Machine/Dsc.lean ====
section
/-!
DEFINITION. The die stream caches (R239-R247): the walk of a registered stream, fills, and what a consumer takes. Data come from memory at the
moment a consumer takes its line, which is what R245 promises; the cache decides the counters.
-/
namespace Sys2Proof.Machine

def Dsc.bump (x : Dsc) (i : Nat) : Dsc := { x with counts := Tab.modify (fun _ => (0 : DWord)) x.counts i (· + 1) }

/-- Sets of 16 ways: 64 MiB / 256 / 16 = 16,384; a line's set is its number modulo that (log 14). -/
def dscSet (line : Nat) : Nat := line % 16384

/-- The entry with the least age. -/
def oldestLine : List DscLine → Option DscLine
  | [] => none
  | l :: ls => match oldestLine ls with
    | some m => if m.age < l.age then some m else some l
    | none => some l

/-- Make room in a line's set (R243). -/
def Dsc.room (x : Dsc) (line : Nat) : Dsc :=
  let ways := x.lines.filter fun l => dscSet l.line == dscSet line && !l.inflight
  if ways.length < 16 then x
  else
    match oldestLine (ways.filter fun l => !l.prefetched) with
    | some l => { x with lines := x.lines.erase l }
    | none =>
      match oldestLine ways with
      | some l => ({ x with lines := x.lines.erase l } : Dsc).bump 3
      | none => x

/-- Allocate a filled line. -/
def Dsc.fill (x : Dsc) (line : Nat) (stream : Option Nat) (prefetched : Bool) : Dsc :=
  let x := x.room line
  let l : DscLine := { line := line, stream := stream, prefetched := prefetched, inflight := false, dropped := false, age := x.clock + 1 }
  { x with clock := x.clock + 1, lines := x.lines ++ [l] }

/-- Lines of a stream that are in flight or filled and not yet taken (R242). -/
def Dsc.ahead (x : Dsc) (desc : Nat) : Nat :=
  (x.lines.filter fun l => l.stream == some desc && (l.prefetched || l.inflight) && !l.dropped).length

/-- PREFETCH_ISSUE: the prefetcher of a registered stream takes one step of its walk: it asks for the next line of the present row, or goes on
to the next row (R242). It stops at the stream's last row, at the step's last row, at an unmapped address, and at PFDIST lines ahead. -/
def prefetchIssue (die desc : Nat) (s : State) : State :=
  let x := s.dscAt die
  match x.streams.find? fun r => r.desc == desc with
  | none => s
  | some r =>
    let d := s.streamDesc desc
    let indexed := match d.rowIndexAddr r.row with | some i => s.mappedRange i d.indexBytes | none => true
    if x.ahead desc ≥ (if d.pfdist = 0 then 64 else d.pfdist) ∨ r.last ≤ r.row ∨ d.rows ≤ r.row ∨ !indexed then s
    else
      let row := s.rowAt d r.base r.row
      let line := row.addr / 256 + r.part
      let walk (q : DscStream) (y : Dsc) : State := s.setDsc die { y with streams := y.streams.map fun t => if t == r then q else t }
      if row.null then walk { r with row := r.row + 1, part := 0 } x
      else if !s.mappedRange row.addr d.rowBytes ∨ !isHbm row.addr ∨ dieOf row.addr ≠ die then s
      else
        let next : DscStream := if line = (row.addr + d.rowBytes - 1) / 256 then { r with row := r.row + 1, part := 0 }
          else { r with part := r.part + 1 }
        if x.lines.any fun l => l.line == line && !l.dropped then walk next x
        else
          let x := x.bump 2
          let l : DscLine := { line := line, stream := some desc, prefetched := true, inflight := true, dropped := false, age := x.clock }
          walk next { x with lines := x.lines ++ [l] }

def execPrefetchIssue (d : Fin 2) (desc : Nat) (s : State) : Host.Outcome State Fault Refusal := live s (prefetchIssue d.val desc)

/-- PREFETCH_FILL: a fill arrives. One that a write has invalidated is discarded, and a poisoned one is not allocated (R244, R265). -/
def prefetchFill (die line : Nat) (s : State) : State :=
  let x := s.dscAt die
  match x.lines.find? fun l => l.line == line && l.inflight with
  | none => s
  | some l =>
    let x := { x with lines := x.lines.erase l }
    if l.dropped ∨ s.poisonIn (256 * line) 256 then s.setDsc die x
    else s.setDsc die (x.fill line l.stream true)

def execPrefetchFill (d : Fin 2) (line : Nat) (s : State) : Host.Outcome State Fault Refusal := live s (prefetchFill d.val line)

/-- LINE_TAKE: a consumer takes a line. A line present is a hit; a missing one, or one whose fill was invalidated, is read afresh and
allocated; a poisoned one is not allocated and faults the stream's context (R240, R245, R265). A consumer waits for a fill in flight. -/
def lineTake (die line desc : Nat) (s : State) : State :=
  let x := s.dscAt die
  let clock := x.clock + 1
  if !isHbm (256 * line) ∨ dieOf (256 * line) ≠ die then s
  else
    match x.lines.find? fun l => l.line == line && !l.dropped with
    | some l =>
      if l.inflight then s
      else
        let taken := { l with prefetched := l.prefetched && l.stream != some desc, age := if l.prefetched && l.stream != some desc then l.age else clock }
        let x : Dsc := { x with clock := clock, lines := x.lines.map fun m => if m == l then taken else m }
        s.setDsc die (x.bump 0)
    | none =>
      if s.poisonIn (256 * line) 256 then
        let s := (s.setDsc die (x.bump 1)).reportPoison (256 * line) 256
        match x.streams.find? fun r => r.desc == desc with
        | some r => s.faultCtx r.ctx 3 (if r.engine < 128 then r.engine / 16 else 0xFF) 0x0302 r.engine (256 * line)
        | none => s
      else s.setDsc die ((x.bump 1).fill line none false)

def execLineTake (d : Fin 2) (line desc : Nat) (s : State) : Host.Outcome State Fault Refusal := live s (lineTake d.val line desc)

end Sys2Proof.Machine
end

