-- ==== Sys2Proof/Machine/Runs.lean ====
section
/-!
DEFINITION. RUNs (R345-R348, R368, R383-R392, R400, R401): binding, the grant of arrays, scrubs, the loading of a task image's programs, sync
steps, quiescence, saving, restoring, and the completion of commands.
-/
namespace Sys2Proof.Machine

/-! The programs of a task image (R228, R370). -/

/-- An array without programs and without work; its clock, its watchdog, its counters, its reuse buffer and what lies in its banks stay. -/
def ArrayUnit.clearWork (x : ArrayUnit) : ArrayUnit :=
  { x with
    state := if x.state = 4 then 4 else 0, noProg := 0, tileList := 0, ntiles := 0, pos := 0, resumeAt := 0, holdTable := 0, holdPos := 0
    syncList := 0, nsync := 0, syncPos := 0, syncWaits := false, stashList := 0, nstash := 0, stashPos := 0, inflight := [], loads := []
    drains := [], feeders := [], south := Edge.reset, east := Edge.reset, liveRows := [], began := false, eCount := 0, eLast := 0
    quiesced := false }

/-- A section of a task image. -/
structure Section where
  kind  : Nat
  array : Nat
  unit_ : Nat
  count : Nat
  addr  : Nat
  deriving DecidableEq, Repr

def State.sections (s : State) (image : Nat) : List Section :=
  (List.range (s.rdLe (image + 0x14) 2)).map fun i =>
    let b := s.rdN (image + s.rdLe (image + 0x18) 8 + 16 * i) 16
    { kind := fieldAt b 0 1, array := fieldAt b 1 1, unit_ := fieldAt b 2 1, count := fieldAt b 4 4, addr := image + fieldAt b 8 8 }

/-- The physical array of logical array `i` (R348). -/
def Run.physical (r : Run) (i : Nat) : Nat := (maskList 8 r.arrays.toNat).getD i 0

/-- The work that a RUN's program gives an engine. -/
def Run.work (r : Run) (a addr count : Nat) : Work :=
  { addr := addr, count := count, pos := 0, ctx := r.ctx, run := some r.key, cmd := none, array := a, seed := r.seed, step := r.step, cursor := 0,
    freeTaken := false, waiting := false, written := false, abandoned := false, doneBytes := 0, tile := 0 }

def State.addWork (s : State) (e : Nat) (w : Work) : State := s.setEngine e { s.engine e with work := (s.engine e).work ++ [w] }

/-- The cursors of the hand-off records that a gather list names start at 0 when its RUN begins (R486). -/
def State.dropCursors (s : State) : Nat → Nat → List (Nat × Nat) → List (Nat × Nat)
  | 0, _, cs => cs
  | n + 1, a, cs =>
    s.dropCursors n (a + s.stepBytes a) (if s.rdLe a 1 = 0x23 then cs.filter fun c => c.1 != s.rdLe (a + 24) 8 else cs)

/-- Give one section to its unit. -/
def State.loadSection (s : State) (r : Run) (t : Section) : State :=
  let a := r.physical t.array
  let x := s.array a
  match t.kind with
  | 1 => s.setArray a { x with tileList := t.addr, ntiles := t.count }
  | 2 => s.setArray a (x.setFeeder (t.unit_ % 4) { Feeder.reset with prog := t.addr, count := t.count })
  | 3 => s.setArray a (x.setEdge (t.unit_ == 1) { Edge.reset with list := t.addr, count := t.count })
  | 4 => s.setArray a { x with holdTable := t.addr }
  | 5 => if t.count = 0 then s else s.addWork (2 * a + t.unit_ % 2) (r.work a t.addr t.count)
  | 6 =>
    let e := 0x18 + 2 * (a / 4) + t.unit_ % 2
    let s := s.setEngine e { s.engine e with handoffs := s.dropCursors t.count t.addr (s.engine e).handoffs }
    if t.count = 0 then s else s.addWork e { r.work a t.addr t.count with tile := tileFrom 0 (s.rdLe (t.addr + 8) 2) }
  | 7 => s.setArray a { x with syncList := t.addr, nsync := t.count }
  | _ => s.setArray a { x with stashList := t.addr, nstash := t.count }

/-- May an engine go on with a work as far as its RUN is concerned? -/
def State.workHeld (s : State) (w : Work) : Bool :=
  match w.run with
  | none => true
  | some k => (match s.runOf k with | some r => r.phase == RunPhase.granted | none => false)

/-- Every engine puts the work of RUNs that hold their arrays, and of FERRY commands, before that of pre-empted RUNs (R320). -/
def State.arrange (s : State) : State :=
  { s with engines := s.engines.foldl (fun (t : Tab Engine) (eg : Nat × Engine) =>
      Tab.set (fun _ => Engine.reset) t eg.1
        { eg.2 with work := (eg.2.work.filter fun w => s.workHeld w) ++ eg.2.work.filter fun w => !s.workHeld w }) s.engines }

/-- Load a RUN's programs into its arrays and engines. -/
def State.loadPrograms (s : State) (r : Run) : State :=
  let s := (maskList 8 r.arrays.toNat).foldl (fun (s : State) a => s.setArray a (s.array a).clearWork) s
  ((s.sections r.image).foldl (fun (s : State) t => s.loadSection r t) s).arrange

/-- An array passes out of a RUN's hands. -/
def State.freeArray (s : State) (a : Nat) : State :=
  let s := s.releaseStreams fun y => decide (y.engine < 128) && y.engine / 16 == a
  let s := { s with sync := s.sync.forget fun w => match w with | .step b _ _ => a == b | .slot b _ => a == b | _ => false }
  let s := [2 * a, 2 * a + 1].foldl (fun (s : State) e => s.setEngine e { s.engine e with forSave := false }) s
  s.setArray a { (s.array a).clearWork with owner := none }

/-! RUN (R208, R326, R348). -/

/-- Install the stashes of a binding table, as far as each can be; the answer is whether all could. -/
def State.installStashes (r : Run) : Nat → Nat → State → Bool × State
  | 0, _, s => (true, s)
  | n + 1, i, s =>
    let addr := s.rdLe (r.binding i + 8) 8
    if s.rdLe (r.binding i) 1 ≠ 3 then State.installStashes r n (i + 1) s
    else if !s.stashOk r.ctx addr then (false, s)
    else State.installStashes r n (i + 1) (s.installStash r.ctx addr)

/-- Bindings whose gradient tensor is frozen now (R208). -/
def State.frozenBindings (s : State) (r : Run) : List Nat :=
  (List.range r.nbind).filter fun i =>
    s.rdLe (r.binding i) 1 == 2 && (s.tensorDesc (s.rdLe (r.binding i + 0x10) 8)).frozen

/-- A RUN ends: its arrays are free, and its work and the dispatches that have not completed are gone. -/
def State.endRun (s : State) (r : Run) : State :=
  let s := ((maskList 8 r.arrays.toNat).filter fun a => (s.array a).owner == some r.key).foldl State.freeArray s
  let s := { s with engines := s.engines.foldl (fun (t : Tab Engine) (eg : Nat × Engine) =>
    Tab.set (fun _ => Engine.reset) t eg.1
      { eg.2 with
        work := eg.2.work.filter fun w => w.run != some r.key
        held := if eg.2.work.head?.any fun (w : Work) => w.run == some r.key then 0 else eg.2.held
        noProg := if eg.2.work.head?.any fun (w : Work) => w.run == some r.key then 0 else eg.2.noProg
        dispatches := eg.2.dispatches.filter fun d => d.complete || !(d.ctx == r.ctx && bitOf r.arrays.toNat d.array) }) s.engines }
  State.refreshCtx { s with runs := s.runs.filter fun (q : Run) => q.key != r.key } r.ctx

/-- RUN: the started command binds its image: stashes are installed, frozen tensors noted, and, where its arrays are granted already, its programs
loaded. A stash that can no longer be installed ends it with STATUS 5 (R326, R348, R354). -/
def run (k : CmdKey) (s : State) : State :=
  match s.cmd k, s.runOf k with
  | some c, some r =>
    if c.cls ≠ 0 ∨ c.phase ≠ .started ∨ r.bound then s
    else
      match State.installStashes r r.nbind 0 s with
      | (false, s) => (s.endRun r).complete c 5 0 0
      | (true, s) =>
        let s := s.updRun k fun q => { q with bound := true, frozen := s.frozenBindings r }
        if r.phase = .granted ∧ r.restoring = 0 then s.loadPrograms r else s
  | _, _ => s

def execRun (key : CmdKey) (s : State) : Host.Outcome State Fault Refusal := live s (run key)

/-! FERRY (R317-R320). -/

/-- FERRY: the records of a started command join its engine's work. -/
def ferry (k : CmdKey) (s : State) : State :=
  match s.cmd k with
  | none => s
  | some c =>
    let e := c.fld 0x0A 1
    if c.cls ≠ 1 ∨ c.phase ≠ .started ∨ (s.engines.any fun g => g.2.work.any fun w => w.cmd == some k) then s
    else
      (s.addWork e { addr := c.fld 0 8, count := c.fld 8 2, pos := 0, ctx := c.ctx, run := none, cmd := some k, array := engineArray e
                     seed := BitVec.ofNat 64 (c.fld 0x10 8), step := BitVec.ofNat 32 (c.fld 0x18 4), cursor := 0, freeTaken := false
                     waiting := false, written := false, abandoned := false, doneBytes := 0, tile := 0 }).arrange

def execFerry (key : CmdKey) (s : State) : Host.Outcome State Fault Refusal := live s (ferry key)

/-! The grant (R384-R386, R552, R572). -/

def Run.asks (r : Run) : Bool := r.phase == RunPhase.waiting || r.phase == RunPhase.preempted

/-- The rank of requests: priority, then start order. -/
def Run.before (p q : Run) : Bool := decide (q.prio < p.prio) || (p.prio == q.prio && decide (p.order < q.order))

/-- Can an array be granted now? -/
def State.grantable (s : State) (a : Nat) : Bool :=
  (s.array a).owner.isNone && s.boot.level != 0 && !s.flash.oos && !(s.boot.level == 1 && bitOf s.flash.margin.pending.toNat a)
    && !s.rst.small.any fun r => r.scope == 1 && r.index == a

/-- May request `r` be granted, past the requests that rank before it? -/
def State.mayGrant (s : State) (r : Run) : Bool :=
  r.asks && ((maskList 8 r.arrays.toNat).all fun a => s.grantable a)
    && s.runs.all fun q => !(q.asks && q.before r && (q.arrays &&& r.arrays) != 0)

/-- The first in rank of a list. -/
def firstRun : List Run → Option Run
  | [] => none
  | r :: rs => match firstRun rs with
    | some q => if q.before r then some q else some r
    | none => some r

/-- One array of a granted request: another context's array is scrubbed first, and the ferries of one to be restored are taken (R386, R391). -/
def State.grantArray (s : State) (r : Run) (a : Nat) : State :=
  let x := s.array a
  let restoring := r.phase == RunPhase.preempted
  let s := if restoring then [2 * a, 2 * a + 1].foldl (fun (s : State) e => s.setEngine e { s.engine e with forSave := true }) s else s
  s.setArray a { x with
    owner := some r.key, lastCtx := some r.ctx, ctx := BitVec.ofNat 6 r.ctx
    scrubbing := match x.lastCtx with | some c => c != r.ctx | none => false }

/-- ARRAY_GRANT: all arrays of the first request that can be granted, at once (R384). -/
def arrayGrant (s : State) : State :=
  match firstRun (s.runs.filter fun r => s.mayGrant r) with
  | none => s
  | some r =>
    let again := r.phase == RunPhase.preempted
    let s := (maskList 8 r.arrays.toNat).foldl (fun (s : State) a => s.grantArray r a) s
    let s := s.updRun r.key fun q => { q with phase := .granted, restoring := if again then r.arrays else 0 }
    let s := (if r.bound ∧ !again then s.loadPrograms r else s).arrange
    s.refreshCtx r.ctx

def execArrayGrant (s : State) : Host.Outcome State Fault Refusal := live s arrayGrant

/-- What is left of address ranges without one range. -/
def withoutRange (l : List (Nat × Nat)) (lo hi : Nat) : List (Nat × Nat) :=
  l.flatMap fun r =>
    if hi ≤ r.1 ∨ r.2 ≤ lo then [r] else (if r.1 < lo then [(r.1, lo)] else []) ++ (if hi < r.2 then [(hi, r.2)] else [])

/-- Partitions held on an array, as offsets in its scratchpad. -/
def State.partitionsOn (s : State) (a : Nat) : List (Nat × Nat) :=
  (s.ctxs.filter fun e => e.2.state != 0 && e.2.holdsPart && bitOf e.2.resMask.toNat a).map fun e =>
    (1024 * e.2.resOffKib, 1024 * (e.2.resOffKib + e.2.resLenKib))

/-- ARRAY_SCRUB_DONE: both banks, and the scratchpad outside the partitions, are zero (R386). -/
def arrayScrubDone (a : Nat) (s : State) : State :=
  if !(s.array a).scrubbing then s
  else
    let b := windowBase a
    let rs := (s.partitionsOn a).foldl (fun l p => withoutRange l p.1 p.2) [(0, 0x300_0000)]
    let m := rs.foldl (fun (m : Memory) p => m.zero (b + p.1) (b + p.2)) (s.mem.zero (b + 0x300_0000) (b + 0x400_0000))
    State.setArray { s with mem := m } a { s.array a with scrubbing := false }

def execArrayScrubDone (a : Fin 8) (s : State) : Host.Outcome State Fault Refusal := live s (arrayScrubDone a.val)

/-! Sync steps (R366-R368). -/

/-- Has every tile before position `p` issued? -/
def State.reached (s : State) (a p : Nat) : Bool := decide (p ≤ s.nextTile a (s.array a).pos ((s.array a).ntiles - (s.array a).pos))

/-- Is every write that the RUN's engines made for tiles before `p` accepted: tiles, drains, epilogues, and gather steps before it? -/
def State.writesDone (s : State) (a p : Nat) (r : Run) : Bool :=
  let x := s.array a
  s.reached a p && x.inflight.all (fun t => decide (p ≤ t.pos)) && x.drains.all (fun d => decide (p ≤ d.tile) || decide (d.doneAt ≤ x.cyc))
    && (x.south.queue ++ x.east.queue).all (fun e => decide (p ≤ e.tile))
    && s.engines.all fun g => decide (g.1 < 0x18) || g.2.work.all fun w =>
        !(w.run == some r.key && w.array == a) || decide (p ≤ w.tile)

/-- The sync step at hand is over. -/
def State.syncNext (s : State) (a : Nat) : State := s.setArray a { s.array a with syncPos := (s.array a).syncPos + 1, syncWaits := false }

/-- The completed wait of the sync step at hand, by list position. -/
def State.syncTaken (s : State) (a : Nat) (st : SyncStep) : Option Nat :=
  (List.range st.nobj).find? fun j => s.waited (.step a (s.array a).syncPos j)

/-- A waiting sync step whose wait has completed: a WAIT_ANY reports its position, and issue goes on (R364, R368). -/
def State.finishWait (s : State) (a : Nat) (r : Run) (st : SyncStep) : State :=
  match s.syncTaken a st with
  | none => s
  | some j =>
    let s := (s.consume (.step a (s.array a).syncPos j)).syncNext a
    if st.op ≠ 4 ∨ st.ret = 0 then s
    else match s.writeFault r.ctx st.ret 1 with
      | 0 => s.storeLe st.ret 1 j
      | cause => s.faultCtx r.ctx cause a 0 (16 * a) st.ret

/-- Absolute objects of a sync step, if every one lies in the context's range. -/
def State.stepObjs (s : State) (c : Nat) (st : SyncStep) : Option (List Nat) :=
  let l := (List.range st.nobj).map fun j => s.objOf c (st.objs.headD 0 + j)
  if l.all Option.isSome then some (l.filterMap id) else none

/-- SYNC_STEP: the next sync step of the RUN on an array (R368). A reserved OP or NOBJ is an invalid record (log 32). -/
def syncStep (a : Nat) (s : State) : State :=
  match s.runOnArray a with
  | none => s
  | some r =>
    let x := s.array a
    if !s.mayIssue a r ∨ x.nsync ≤ x.syncPos then s
    else
      let st := s.syncStepAt x x.syncPos
      let p := s.syncPosAt x x.syncPos
      if st.op = 0 ∨ 6 < st.op ∨ (if st.op = 4 then st.nobj = 0 ∨ 8 < st.nobj else st.nobj ≠ 1) then s.faultCtx r.ctx 1 a 0 (16 * a) x.syncPos
      else if st.op = 6 then
        if !s.writesDone a p r then s else (s.inject (s.remotePacket st.device st.rctx (st.objs.headD 0) st.n)).syncNext a
      else
        match s.stepObjs r.ctx st with
        | none => s.faultCtx r.ctx 8 a 0 (16 * a) (st.objs.headD 0)
        | some os =>
          if syncWaiting st.op then
            if x.syncWaits then s.finishWait a r st
            else if !s.reached a p then s
            else
              let ws := (List.range os.length).map fun j => (os.getD j 0, ({ who := .step a x.syncPos j, n := st.n, takes := st.op != 3 } : Wait))
              ((s.setArray a { x with syncWaits := true }).enqueue ws).finishWait a r st
          else if !s.writesDone a p r then s
          else ((if st.op = 1 then s.signal (os.headD 0) st.n else s.setSync (os.headD 0) st.n)).syncNext a

def execSyncStep (a : Fin 8) (s : State) : Host.Outcome State Fault Refusal := live s (syncStep a.val)

/-! Quiescence (R71, R191, R238, R402, R636). -/

/-- The first program step of the given lanes that serves a tile at or after `p`. -/
def State.stepFrom (s : State) (a f p : Nat) (stationary : Bool) : Nat :=
  let g := s.feeder a f
  ((List.range g.count).find? fun i =>
    s.stepServes a f i stationary && decide (p ≤ s.stepPos g i)).getD g.count

/-- Feeder `f` returns to the first tile that has not issued: what it had read ahead is discarded, and a slot that a step to be performed again
holds is kept for it. -/
def State.rewind (s : State) (a f : Nat) : State :=
  let s := ((s.takeSlot a f false).takeSlot a f true).returnSlots a f
  let g := s.feeder a f
  let p := (s.array a).pos
  let m := s.stepFrom a f p false
  let t := s.stepFrom a f p true
  let began (desc : Nat) : Bool := (List.range g.count).any fun i =>
    (s.streamStep g i).desc == desc
      && ((decide (m ≤ i) && (decide (i < g.mpos) || (i == g.mpos && g.mrow != 0)) && s.stepServes a f i false)
        || (decide (t ≤ i) && (decide (i < g.spos) || (i == g.spos && g.srow != 0)) && s.stepServes a f i true))
  s.setArray a ((s.array a).setFeeder f { g with
    mpos := m, mrow := 0, mReady := false, mMeta := false, spos := t, srow := 0, sReady := false, sMeta := false, moving := [], stationary := [], staging := []
    cursors := g.cursors.map fun c => { c with waiting := c.held && (c.waiting || began c.desc) }
    badTile := match g.badTile with | some b => if p ≤ b then none else some b | none => none })


/-- An edge unit abandons the epilogue that runs: it runs again from its first pass (R191). -/
def Edge.abandon (u : Edge) : Edge :=
  { u with
    running := false, cause := 1
    queue := u.queue.map fun e => { e with beat := 0, row := 0, nonfin := 0, stashNonfin := 0, gain := [], offset := [] } }

/-- ARRAY_QUIESCENT: an array under a pre-emption request whose issued tiles and drains are over abandons its feeders' reading ahead, its waits and
its epilogues (R71, R191); one whose RUN is gone is free (R381, R402). -/
def arrayQuiescent (a : Nat) (s : State) : State :=
  let x := s.array a
  match x.owner with
  | none => s
  | some k =>
    if x.inflight != [] || x.drains != [] then s
    else
      match s.runOf k with
      | none => s.freeArray a
      | some r =>
        if r.phase != RunPhase.preempting || x.quiesced || x.scrubbing then s
        else
          let st := s.syncStepAt x x.syncPos
          let s := if x.syncWaits then s.finishWait a r st else s
          let s := (s.rewind a 0).rewind a 1
          let s := { s with sync := s.sync.forget fun w => match w with | .step b _ _ => a == b | .slot b _ => a == b | _ => false }
          let s := s.releaseStreams fun y => decide (y.engine < 128) && y.engine / 16 == a
          let s := [2, 3].foldl (fun (s : State) f => s.updFeeder a f fun g => { g with
            output := [], stash := [], mrow := 0, srow := 0, side0 := [], side1 := [], rows0 := 0, rows1 := 0 }) s
          let x := s.array a
          s.setArray a { x with state := 3, quiesced := true, syncWaits := false, south := x.south.abandon, east := x.east.abandon }

def execArrayQuiescent (a : Fin 8) (s : State) : Host.Outcome State Fault Refusal := live s (arrayQuiescent a.val)

/-! Saving and restoring (R377, R388-R392, R636). -/

/-- The save ranges with their places behind the bank rows of a slot: scratchpad offset, slot offset, bytes. -/
def packRanges : List (Nat × Nat) → Nat → List (Nat × Nat × Nat)
  | [], _ => []
  | (o, l) :: rest, at_ => (1024 * o, at_, 1024 * l) :: packRanges rest (at_ + 1024 * l)

/-- The save set of an array: address, place in the context's slot, bytes (R377, R388). -/
def State.saveSet (s : State) (c a : Nat) (rows : List Nat) : List (Nat × Nat × Nat) :=
  let x := s.ctx c
  (rows.map fun r => (windowBase a + 0x300_0000 + 4096 * r, x.slot a + 4096 * r, 4096))
    ++ (packRanges x.saves 0x100_0000).map fun p => (windowBase a + p.1, x.slot a + p.2.1, p.2.2)

/-- CTX_PREEMPTED, once every array of the RUN is saved (R390). -/
def State.preempted (s : State) (r : Run) : State :=
  let s := s.updRun r.key fun q => { q with phase := .preempted, restoring := 0 }
  let s := (s.arrange).refreshCtx r.ctx
  s.raiseCtx r.ctx 0x0502 srcSched
    (leBytes 4 r.tag.toNat ++ leBytes 1 r.arrays.toNat ++ leBytes 1 r.preemptor ++ leBytes 2 0 ++ leBytes 4 r.saveKib
      ++ leBytes 4 ((s.now - r.preemptAt) / 100))

/-- SAVE_DONE: the save set of a quiescent array lies in the context's slot, and the array passes on; its place in its programs is kept. An array
whose restore had not been completed keeps its earlier save set (R389, R390). -/
def saveDone (a : Nat) (s : State) : State :=
  let x := s.array a
  match s.runOnArray a with
  | none => s
  | some r =>
    if r.phase != RunPhase.preempting || !x.quiesced then s
    else
      let rows := (x.liveRows.filter fun e => e.2).map Prod.fst
      let set := if bitOf r.restoring.toNat a then [] else s.saveSet r.ctx a rows
      let s := set.foldl (fun (s : State) e => s.store e.2.1 (s.rdN e.1 e.2.2)) s
      let kib := (set.map fun e => e.2.2 / 1024).foldl (· + ·) 0
      let s := s.updRun r.key fun q => { q with
        saved := q.saved ||| BitVec.ofNat 8 (2 ^ a), saveKib := q.saveKib + kib
        kept := if bitOf r.restoring.toNat a || !r.bound then q.kept else (a, x) :: q.kept.filter fun e => e.1 != a }
      let s := s.freeArray a
      match s.runOf r.key with
      | some q => if q.saved = q.arrays then s.preempted q else s
      | none => s

def execSaveDone (a : Fin 8) (s : State) : Host.Outcome State Fault Refusal := live s (saveDone a.val)

/-- A pre-empted RUN's place in its programs on the array as it is now. -/
def ArrayUnit.resume (y x : ArrayUnit) : ArrayUnit :=
  { y with
    state := 1, tileList := x.tileList, ntiles := x.ntiles, pos := x.pos, resumeAt := x.pos, holdTable := x.holdTable, holdPos := x.holdPos
    syncList := x.syncList, nsync := x.nsync, syncPos := x.syncPos, syncWaits := false, stashList := x.stashList, nstash := x.nstash
    stashPos := x.stashPos, feeders := x.feeders, south := x.south, east := x.east, reuse := x.reuse, reuseM := x.reuseM
    reuseCtx := x.reuseCtx, liveRows := x.liveRows, began := x.began, eCount := x.eCount, eLast := x.eLast, quiesced := false
    inflight := [], loads := [], drains := [], s0 := x.s0, s1 := x.s1 }

/-- Is register `reg` needed as ACT by a tile that has not issued, before any load of the list into it (R636)? -/
def State.regNeeded (s : State) (a reg : Nat) : Nat → Nat → Bool
  | 0, _ => false
  | n + 1, p =>
    let t := s.tileRec (s.array a) p
    if s.skips a p then State.regNeeded s a reg n (p + 1)
    else if !t.hold && t.act == reg then true
    else if t.lden && t.ldreg == reg then false
    else State.regNeeded s a reg n (p + 1)

/-- The last load into a register before position `p`. -/
def State.lastLoad (s : State) (a reg p : Nat) : Option Nat :=
  ((List.range p).reverse.find? fun q => !s.skips a q && (s.tileRec (s.array a) q).lden && (s.tileRec (s.array a) q).ldreg == reg)

/-- Queue the repeated loads of a resumed array; its registers hold undefined values until then (R72, R636). -/
def State.repeatLoads (s : State) (a : Nat) : State :=
  let s := (s.undefine a 0).undefine a 1
  [0, 1].foldl (fun (s : State) reg =>
    let x := s.array a
    if !s.regNeeded a reg (x.ntiles - x.pos) x.pos then s
    else match s.lastLoad a reg x.pos with
      | none => s
      | some q =>
        let t := s.tileRec x q
        let slot := match (x.block reg).source with | some (p, n) => if p = q then some n else none | none => none
        s.setArray a { x with loads := x.loads ++ [{ reg := reg, tile := q, north := s.northLoad a q, ext := t.ldext, rides := none, after := x.cyc
                                                     started := false, done := 0, lastAt := 0, repeat_ := true, slot := slot }] }) s

/-- RESTORE_DONE: the save set of one array is written back; once every array is restored the RUN resumes (R391, R636). -/
def restoreDone (a : Nat) (s : State) : State :=
  let y := s.array a
  match s.runOnArray a with
  | none => s
  | some r =>
    if r.phase != RunPhase.granted || !bitOf r.restoring.toNat a || y.scrubbing then s
    else
      let s := match r.kept.find? fun e => e.1 == a with
        | some (_, x) =>
          let set := s.saveSet r.ctx a ((x.liveRows.filter fun e => e.2).map Prod.fst)
          let s := set.foldl (fun (s : State) e => s.store e.1 (s.rdN e.2.1 e.2.2)) s
          (s.setArray a (y.resume x)).repeatLoads a
        | none => s
      let s := [2 * a, 2 * a + 1].foldl (fun (s : State) e => s.setEngine e { s.engine e with forSave := false }) s
      let left := r.restoring &&& ~~~(BitVec.ofNat 8 (2 ^ a))
      let s := s.updRun r.key fun q => { q with restoring := left, kept := q.kept.filter fun e => e.1 != a }
      if left ≠ 0 then s
      else if r.bound ∧ r.kept = [] then s.loadPrograms { r with restoring := 0 }
      else s

def execRestoreDone (a : Fin 8) (s : State) : Host.Outcome State Fault Refusal := live s (restoreDone a.val)

/-! Completion (R353, R400, R401). -/

/-- Are an array's units done with a RUN's programs? -/
def State.arrayOver (s : State) (a : Nat) : Bool :=
  let x := s.array a
  let fed (f : Nat) : Bool :=
    let g := s.feeder a f
    (s.nextStep a f false g.mpos (g.count - g.mpos)).isNone && (s.nextStep a f true g.spos (g.count - g.spos)).isNone
      && g.moving.isEmpty && g.staging.isEmpty && g.stationary.isEmpty && g.badTile.isNone
  decide (x.ntiles ≤ x.pos) && x.inflight.isEmpty && !x.draining && x.loads.isEmpty && x.south.queue.isEmpty && x.east.queue.isEmpty
    && fed 0 && fed 1 && [2, 3].all (fun f => (s.feeder a f).badTile.isNone) && decide (x.nsync ≤ x.syncPos) && decide (x.nstash ≤ x.stashPos)

/-- Has a RUN done everything? -/
def State.runOver (s : State) (r : Run) : Bool :=
  r.phase == RunPhase.granted && r.bound && r.restoring == 0 && ((maskList 8 r.arrays.toNat).all fun a => s.arrayOver a && !(s.array a).scrubbing)
    && s.engines.all (fun g => g.2.work.all (fun w => w.run != some r.key)
        && g.2.dispatches.all fun d => d.complete || !(d.ctx == r.ctx && bitOf r.arrays.toNat d.array))
    && s.tier.stashes.all fun t => t.ctx != r.ctx || t.waiting.all fun w => !bitOf r.arrays.toNat w.array

/-- The ratio E / (T × s) in unsigned 8.8, saturating (R401); at the end of the range too where T or s is 0, of which the spec says nothing
(log 24). -/
def slowRatio (e t : Nat) (c : Calib) : Nat := if t * c.cycles = 0 then 0xFFFF else min 0xFFFF (e * c.tiles * 256 / (t * c.cycles))

/-- Measure a completed RUN: the ratio of a calibrated pair, or its calibration (R400, R401). -/
def State.measure (s : State) (r : Run) : State :=
  let e := ((maskList 8 r.arrays.toNat).map fun a => (s.array a).eLast).foldl (· + ·) 0
  let x := s.ctx r.ctx
  match x.calib.find? fun c => c.image == r.image with
  | some c =>
    let ratio := slowRatio e r.tiles c
    let s := s.setCtx r.ctx { x with slowdown := BitVec.ofNat 16 ratio, calib := c :: x.calib.filter fun d => d.image != r.image }
    if x.slowRep ∧ x.slowThresh.toNat ≤ ratio then
      s.raiseCtx r.ctx 0x0504 srcSched
        (leBytes 4 r.tag.toNat ++ leBytes 4 r.tiles ++ leBytes 2 ratio ++ leBytes 1 r.arrays.toNat ++ leBytes 1 0 ++ leBytes 4 (c.cycles / c.tiles))
    else s
  | none =>
    if r.everPreempted ∨ !r.solo ∨ r.tiles = 0 then s
    else s.setCtx r.ctx { x with calib := (({ image := r.image, cycles := e, tiles := r.tiles } : Calib) :: x.calib).take 4 }

/-- The position that a WAIT_ANY took, and the waits of a completed wait command forgotten. -/
def State.consumeWaits (s : State) (c : Cmd) : State :=
  (s.waitsDone c).foldl (fun (s : State) j => s.consume (if c.syncOp = 4 then .syncAny c.key j else .syncWait c.key j)) s

/-- COMMAND_DONE: a command whose effects have been accepted completes (R353): a performed one, a wait whose waits have completed, a RUN whose
programs are over. -/
def commandDone (k : CmdKey) (s : State) : State :=
  match s.cmd k with
  | none => s
  | some c =>
    if c.cls = 0 then
      match s.runOf k with
      | none => s
      | some r => if !s.runOver r then s else ((s.measure r).endRun r).complete c 0 0 0
    else if c.phase ≠ .performed then s
    else if c.cls = 2 ∧ syncWaiting c.syncOp then
      if !s.waitOver c then s else (s.consumeWaits c).complete c 0 (if c.syncOp = 4 then (s.waitsDone c).headD 0 else 0) 0
    else s.complete c c.status c.result c.gen

def execCommandDone (key : CmdKey) (s : State) : Host.Outcome State Fault Refusal := live s (commandDone key)

end Sys2Proof.Machine
end

