-- ==== Sys2Proof/Machine/Gathers.lean ====
section
/-!
DEFINITION. The gather engines (R165-R179, R248-R251, R290, R422, R485-R496): gathers and scatters, expert dispatch, hand-offs, folds.
-/
namespace Sys2Proof.Machine

/-! Steps (R368). -/

/-- The record address that a step's body begins with. -/
def State.stepBody (s : State) (w : Work) : Nat := s.rdLe (w.addr + 16) 8

/-- The dispatch that stands for the step at which a work stands. -/
def State.dispatchOf (s : State) (e : Nat) (w : Work) : Option Dispatch :=
  (s.engine e).dispatches.find? fun d => d.array == w.array && d.rec_ == s.stepBody w && !d.complete

/-- Rewrite a dispatch of an engine. -/
def State.setDispatch (s : State) (e : Nat) (d d' : Dispatch) : State :=
  s.setEngine e { s.engine e with dispatches := (s.engine e).dispatches.map fun x => if x == d then d' else x }

/-- Has a work's present record or step begun? -/
def State.workBegun (s : State) (e : Nat) (w : Work) : Bool :=
  w.waiting || w.written || w.freeTaken || (w.run.isSome && s.rdLe w.addr 1 == 0x22 && (s.dispatchOf e w).isSome)

/-- The lists of several arrays share a gather engine: while the step of the first has not begun and is not due, the first due one goes before
it (log 34). -/
def State.turnWork (s : State) (e : Nat) : State :=
  let g := s.engine e
  match g.work with
  | w :: rest =>
    if s.workBegun e w || s.stepDue w then s
    else match rest.find? fun v => s.mayWork e v && s.stepDue v with
      | some v => s.setEngine e { g with work := v :: w :: rest.erase v }
      | none => s
  | [] => s

/-- A gather step's OP that is listed; a SIZE that its OP does not allow makes it reserved (R290, R368). -/
def gatherOpOk (op size : Nat) : Bool := atomicDefined op size || (decide (0x20 ≤ op) && decide (op ≤ 0x24) && size == 0)

/-- The gather step of the given OP at the head of engine `e`, if it is due; a reserved OP faults the context, and a header field outside its
range is an invalid record. -/
def State.gatherStep (s : State) (e op : Nat) (f : Work → State → State) : State :=
  let s := s.turnWork e
  match s.activeWork e with
  | none => s
  | some w =>
    let h := s.rdN w.addr 16
    let moves := fieldAt h 0 1 = 0x20 ∨ fieldAt h 0 1 = 0x21
    if w.run.isNone ∨ !s.stepDue w then s
    else if !gatherOpOk (fieldAt h 0 1) (fieldAt h 1 1) then s.faultWork e w 2 0 (engineSource e) w.pos
    else if !zeroAt h 0xA 6 ∨ (if moves then fieldAt h 4 4 = 0 ∨ 4096 < fieldAt h 4 4 else fieldAt h 4 4 ≠ 0) then
      s.faultWork e w 1 0 (engineSource e) w.pos
    else if fieldAt h 0 1 ≠ op then s
    else f w s

/-! GATHER and SCATTER (R248-R251). -/

/-- May the indexed side of a gather or scatter address a row (R217)? -/
def gatherReaches (a : Nat) : Bool := isHbm a || region a == 1 || (region a == 2 && decide (regionOff a % 0x400_0000 < 0x300_0000))

/-- The first row from `n` on whose address the role does not reach. -/
def State.outOfReach (s : State) (d : StreamDesc) (base n k : Nat) : Option Nat :=
  if d.role ≠ 0xA then none
  else ((List.range k).map fun i => s.rowAt d base (n + i)).findSome? fun r =>
    if r.null || gatherReaches r.addr && gatherReaches (r.addr + d.rowBytes - 1) then none else some r.addr

/-- One batch: rows `n` to `n + k − 1` are read, and written in index order. It answers what was read. -/
def State.moveBatch (s : State) (e c : Nat) (sd dd : StreamDesc) (dbase n k : Nat) : List Byte × State × Option (Nat × Nat) :=
  match s.outOfReach sd sd.base n k, s.outOfReach dd dbase n k with
  | some a, _ => ([], s, some (2, a))
  | none, some a => ([], s, some (2, a))
  | none, none =>
    match s.fetchRows e c sd sd.base k n with
    | .error x => ([], s, some x)
    | .ok (bs, s) => (bs, State.writeRows c dd dbase k n bs s)

/-- Batch after batch: no write of the next before every write of the one before. -/
def State.moveBatches (e c : Nat) (sd dd : StreamDesc) (dbase batch rows : Nat) : Nat → Nat → State → State × Option (Nat × Nat)
  | 0, _, s => (s, none)
  | f + 1, n, s =>
    if rows ≤ n then (s, none)
    else match s.moveBatch e c sd dd dbase n (min batch (rows - n)) with
      | (_, s, none) => State.moveBatches e c sd dd dbase batch rows f (n + batch) s
      | (_, x) => x

/-- Move rows of a work, with what a row that cannot be read or written does. -/
def State.moveRows (s : State) (e : Nat) (w : Work) (sd dd : StreamDesc) (dbase batch rows : Nat) : Bool × State :=
  match State.moveBatches e w.ctx sd dd dbase batch rows (rows + 1) 0 s with
  | (s, none) => (true, s)
  | (s, some (cause, a)) => (false, s.rowFault w.ctx e cause a (max sd.rowBytes dd.rowBytes))

/-- The rows of a record with OP 1 or 2: one batch, whose source bytes a check-value unit may see (R249, R250, R315, R335). -/
def State.moveRecordRows (s : State) (e : Nat) (w : Work) (r : FerryRec) (base : Nat) : Bool × State :=
  let sd := s.streamDesc r.src
  let dd := s.streamDesc r.dst
  match s.moveBatch e w.ctx sd dd base 0 r.count with
  | (bs, s, none) =>
    let s := s.checkRecord e w r sd dd base bs
    ((s.ctx w.ctx).state != 5, s)
  | (_, s, some (cause, a)) => (false, s.rowFault w.ctx e cause a (max sd.rowBytes dd.rowBytes))

/-- A record of a FERRY command with OP 1 or 2; a landing as destination has its free count taken and its slot filled as by a COPY (R317, R322). -/
def State.moveRecord (s : State) (e op : Nat) : State :=
  let s := s.transferRec e op false fun w r s =>
    let base := (s.streamDesc r.dst).base
    match s.runRecord e w r base fun s => s.moveRecordRows e w r base with
    | (true, s) => s.wrote e w
    | (false, s) => s
  s.transferRec e op true fun w r s => s.fillSlot e w r fun w base s => s.moveRecordRows e w r base

/-- A step of a task image: every row of the indexed stream, BATCH rows at a time. -/
def State.moveStep (s : State) (e op : Nat) : State :=
  s.gatherStep e op fun w s =>
    let sa := s.stepBody w
    let da := s.rdLe (w.addr + 24) 8
    let sd := s.streamDesc sa
    let dd := s.streamDesc da
    let srcRole := if op = 0x20 then 0xA else 8
    let dstRole := if op = 0x20 then 9 else 0xA
    let rows := if op = 0x20 then sd.rows else dd.rows
    let batch := s.rdLe (w.addr + 4) 4
    if !s.mappedRange sa 128 ∨ !s.mappedRange da 128 then s.faultWork e w 2 0 (engineSource e) (if s.mappedRange sa 128 then da else sa)
    else if !sd.ferryOk srcRole true ∨ !dd.ferryOk dstRole true ∨ sd.rowBytes ≠ dd.rowBytes then s.faultWork e w 1 0 (engineSource e) w.pos
    else match s.access e (s.streamRows sd sd.base 0 rows) (s.streamRows dd dd.base 0 rows) with
      | (false, s) => s
      | (true, s) =>
        let s := (s.engineStream e w.ctx sa sd.base rows).engineStream e w.ctx da dd.base rows
        match s.moveRows e w sd dd dd.base batch rows with
        | (true, s) => ((s.engineTook e sa rows).engineTook e da rows).wrote e w
        | (false, s) => s

/-- GATHER (R249): the step or record at the head of a gather engine. -/
def gather (g : Nat) (s : State) : State := (s.moveRecord (0x18 + g) 1).moveStep (0x18 + g) 0x20

def execGather (g : Fin 4) (s : State) : Host.Outcome State Fault Refusal := live s (gather g.val)

/-- SCATTER (R250). -/
def scatter (g : Nat) (s : State) : State := (s.moveRecord (0x18 + g) 2).moveStep (0x18 + g) 0x21

def execScatter (g : Fin 4) (s : State) : Host.Outcome State Fault Refusal := live s (scatter g.val)

/-! Dispatch records and placement tables (R166, R174). -/

structure DispRec where
  at_    : Nat
  place  : Nat
  route  : Nat
  group  : Nat
  admits : Nat
  stats  : Nat
  combine : Nat
  ntok   : Nat
  tgroup : Nat
  step   : Nat
  g      : Nat
  flags  : Nat
  deriving DecidableEq, Repr

def State.dispRec (s : State) (a : Nat) : DispRec :=
  let b := s.rdN a 64
  { at_ := a, place := fieldAt b 0 8, route := fieldAt b 8 8, group := fieldAt b 0x10 8, admits := fieldAt b 0x18 8, stats := fieldAt b 0x20 8
    combine := fieldAt b 0x28 8, ntok := fieldAt b 0x30 4, tgroup := fieldAt b 0x34 4, step := fieldAt b 0x38 4
    g := if fieldAt b 0x3C 2 = 0 then 65536 else fieldAt b 0x3C 2, flags := fieldAt b 0x3E 1 }

/-- Arrival order is honoured only while the module is not deterministic (R178). -/
def State.arrival (s : State) (d : DispRec) : Bool := bitOf d.flags 0 && !s.deterministic
def DispRec.rotate (d : DispRec) : Bool := bitOf d.flags 1
def DispRec.reuse (d : DispRec) : Bool := bitOf d.flags 2

structure Placement where
  at_    : Nat
  tag    : Nat
  nexp   : Nat
  k      : Nat
  maxParts : Nat
  rowBytes : Nat
  deriving DecidableEq, Repr

def State.placement (s : State) (a : Nat) : Placement :=
  let b := s.rdN a 32
  { at_ := a, tag := fieldAt b 0 4, nexp := fieldAt b 4 2, k := fieldAt b 6 1, maxParts := fieldAt b 7 1, rowBytes := fieldAt b 8 4 }

structure Expert where
  first  : Nat
  ntriples : Nat
  nrep   : Nat
  cf     : Nat
  capMax : Nat
  deriving DecidableEq, Repr

def State.expert (s : State) (p : Placement) (e : Nat) : Expert :=
  let b := s.rdN (p.at_ + 32 + 16 * e) 16
  { first := fieldAt b 0 2, ntriples := fieldAt b 2 1, nrep := fieldAt b 3 1, cf := fieldAt b 4 2, capMax := fieldAt b 8 4 }

structure Triple where
  device : Nat
  array  : Nat
  replica : Nat
  recv   : Nat
  deriving DecidableEq, Repr

def State.triple (s : State) (p : Placement) (t : Nat) : Triple :=
  let b := s.rdN (p.at_ + 32 + 16 * p.nexp + 16 * t) 16
  { device := fieldAt b 0 2, array := fieldAt b 2 1, replica := fieldAt b 3 1, recv := fieldAt b 8 8 }

/-- The home of an expert: the device of its first triple (R167). -/
def State.homeOf (s : State) (p : Placement) (e : Nat) : Nat := (s.triple p (s.expert p e).first).device

/-- Experts homed at a device, ascending. -/
def State.homed (s : State) (p : Placement) (dev : Nat) : List Nat := (List.range p.nexp).filter fun e => s.homeOf p e == dev

/-- Capacity of an expert (R168). -/
def capacity (x : Expert) (d : DispRec) (p : Placement) : Nat := min x.capMax (ceilDiv (x.cf * d.tgroup * p.k) (256 * p.nexp))

/-- The parts of a replica: triple indexes, in triple order. -/
def State.parts (s : State) (p : Placement) (x : Expert) (r : Nat) : List Nat :=
  ((List.range x.ntriples).map (x.first + ·)).filter fun t => (s.triple p t).replica == r

/-- Pairs of an expert among the local tokens: token and slot, in local order (R165). -/
def State.pairsOf (s : State) (d : DispRec) (e : Nat) : List (Nat × Nat) :=
  (List.range d.ntok).flatMap fun i =>
    let r := routeOf (s.rdN (d.route + 64 * i) 64)
    ((List.range r.length).filter fun j => (r.getD j (0, 0)).1 == e).map fun j => (i, j)

/-- The group's devices, and the position before rotation at which this device stands; one that is not in its own list sends as position 0
(DESIGN CHOICE; log 33). -/
def State.groupDevice (s : State) (d : DispRec) (i : Nat) : Nat := s.rdLe (d.group + 2 * i) 2
def State.ownPosition (s : State) (d : DispRec) : Nat := ((List.range d.g).find? fun i => s.groupDevice d i == s.fab.id.toNat).getD 0

/-- Source positions in global order (R169). -/
def DispRec.order (d : DispRec) : List Nat := (List.range d.g).map fun i => (i + (if d.rotate then d.step % d.g else 0)) % d.g

/-- The job of a context's plan, which its packets carry. -/
def State.ctxJob (s : State) (c : Nat) : BitVec 12 :=
  (s.red.plans.findSome? fun e => match e.2 with | some p => if p.ctx.toNat % 64 = c then some p.job else none | none => none).getD 0

/-- A token-dispatch packet of a context (R175, R422). -/
def State.dispatchPacket (s : State) (c dst type arg : Nat) (payload : List Byte) : Packet :=
  { packetTo (BitVec.ofNat 16 dst) s.fab.id 5 (BitVec.ofNat 5 type) s.fab.hopLimit with
    job := s.ctxJob c, ctx := s.ctxid c, arg := BitVec.ofNat 64 arg, payload := payload }

/-- Cut a list into pieces of at most `n`. -/
def pieces {α : Type} (n : Nat) : Nat → List α → List (List α)
  | 0, _ => []
  | f + 1, l => if l.isEmpty then [] else l.take n :: pieces n f (l.drop n)

/-- Inject packets in order. -/
def State.injectAll (s : State) (l : List Packet) : State := l.foldl State.inject s

/-- Without repeats, in order of first occurrence. -/
def distinct (l : List Nat) : List Nat := l.foldl (fun acc x => if acc.contains x then acc else acc ++ [x]) []

/-- COUNT packets of a source to every home (R170, R422). -/
def State.countPackets (s : State) (c : Nat) (d : DispRec) : List Packet :=
  let p := s.placement d.place
  (distinct ((List.range p.nexp).map fun e => s.homeOf p e)).flatMap fun dev =>
    let es := (s.homed p dev).map fun e => leBytes 2 e ++ leBytes 2 0 ++ leBytes 4 (s.pairsOf d e).length
    (pieces 512 (es.length + 1) es).map fun l => s.dispatchPacket c dev 1 (p.tag + 2 ^ 32 * s.ownPosition d) l.flatten

/-- The segments of one row: the payload behind the prefix, at most 4,032 bytes each (R422). -/
def segmentsOf (bytes : Nat) : Nat := max 1 (ceilDiv bytes 4032)

/-- The ROW packets of one pair to one part: `i` is the row that is sent, of the token, or with REUSE of the pair (R179, R213). Its bytes are free
values (R174; log 33). -/
def State.rowPackets (s : State) (c : Nat) (d : DispRec) (p : Placement) (i t row combine : Nat) : List Packet :=
  (List.range (segmentsOf p.rowBytes)).map fun g =>
    let n := min 4032 (p.rowBytes - 4032 * g)
    s.dispatchPacket c (s.triple p t).device 3 (t + 2 ^ 16 * row + 2 ^ 48 * g)
      (leBytes 4 combine ++ leBytes 4 0 ++ (List.range n).map fun b => Config.tokenByte d.at_ i (4032 * g + b))

/-- The counts that a home holds of a dispatch's pairs: its own, or, with REUSE, those of the dispatch of its context that wrote the admit table
(R170, R179). -/
def State.countsOf (s : State) (e : Nat) (d : DispRec) (x : Dispatch) : List (Nat × Nat × Nat) :=
  if !d.reuse then x.counts
  else match (s.engine e).dispatches.find? fun y => y.ctx == x.ctx && y.counts != [] && (s.dispRec y.rec_).admits == d.admits with
    | some y => y.counts
    | none => []

/-- kept_e of R170 as a source that sends `c` pairs from position `first` on, of which `a` are admitted, can tell it: from the counts where the
expert is homed here; the capacity where pairs are dropped; the sum where this source is the last in global order; else a free value within the
limits that this leaves (R170, R171; log 33). -/
def State.keptOf (s : State) (d : DispRec) (p : Placement) (counts : List (Nat × Nat × Nat)) (e c a first : Nat) : Nat :=
  let cap := capacity (s.expert p e) d p
  if s.homeOf p e = s.fab.id.toNat ∧ counts ≠ [] then
    min cap (((counts.filter fun n => n.2.1 == e).map fun n => n.2.2).foldl (· + ·) 0)
  else if a < c then cap
  else if d.order.getLast? = some (s.ownPosition d) then min cap (first + c)
  else min (max cap (first + a)) (max (first + a) (Config.keptCount d.admits e c first))

/-- What a source sends of one expert's pairs: packets, the combine rows that it then awaits, and the combine rows of the dropped (R170, R171, R177). -/
def State.sendExpert (s : State) (c : Nat) (d : DispRec) (p : Placement) (counts : List (Nat × Nat × Nat)) (e a first : Nat) : List Packet × List Nat × List Nat :=
  let ex := s.expert p e
  let pairs := s.pairsOf d e
  let kept := s.keptOf d p counts e pairs.length a first
  let one (n : Nat) (pr : Nat × Nat) : List (List Packet × Nat) :=
    let pos := first + n
    let r := if s.arrival d then pr.1 % max 1 ex.nrep else pos * ex.nrep / max 1 kept
    let ts := s.parts p ex r
    (List.range ts.length).map fun q =>
      let combine := (pr.1 * p.k + pr.2) * p.maxParts + q
      (s.rowPackets c d p (if d.reuse then pr.1 * p.k + pr.2 else pr.1) (ts.getD q 0) (if s.arrival d then 0 else pos - ceilDiv (r * kept) (max 1 ex.nrep)) combine, combine)
  let sent := (List.range (min a pairs.length)).flatMap fun n => one n (pairs.getD n (0, 0))
  (sent.flatMap Prod.fst, sent.map Prod.snd, (pairs.drop a).map fun pr => (pr.1 * p.k + pr.2) * p.maxParts)

/-- Every admitted row is sent, expert by expert (R175). -/
def State.sendRows (s : State) (e : Nat) (x : Dispatch) : State :=
  let d := s.dispRec x.rec_
  let p := s.placement d.place
  let counts := s.countsOf e d x
  let outs := (List.range p.nexp).map fun n =>
    if s.arrival d then s.sendExpert x.ctx d p counts n (s.pairsOf d n).length 0
    else match x.admits.find? fun a => a.1 == n with
      | some a => s.sendExpert x.ctx d p counts n a.2.1 a.2.2
      | none => s.sendExpert x.ctx d p counts n 0 0
  let y := { x with sent := true, returns := outs.flatMap (fun o => o.2.1), dropped := x.dropped ++ outs.flatMap fun o => o.2.2 }
  (s.setDispatch e x y).injectAll (outs.flatMap Prod.fst)

/-- The admit table as an earlier dispatch wrote it (R179). -/
def State.admitTable (s : State) (d : DispRec) (n : Nat) : List (Nat × Nat × Nat) :=
  (List.range n).map fun e => (e, s.rdLe (d.admits + 8 * e) 4, s.rdLe (d.admits + 8 * e + 4) 4)

/-- DISPATCH: the step begins: a source sends its counts to every home, or, with REUSE or in arrival order, its rows at once (R170, R178, R179). With
both, arrival order wins and the admit table is not read (DESIGN CHOICE; log 33). What stood of an earlier dispatch of the same record is
forgotten. -/
def dispatch (g : Nat) (s : State) : State :=
  let e := 0x18 + g
  s.gatherStep e 0x22 fun w s =>
    if (s.dispatchOf e w).isSome then s.setHead e { w with waiting := true }
    else
      let a := s.stepBody w
      let d := s.dispRec a
      let p := s.placement d.place
      let at_ := w.addr
      if s.rdLe (at_ + 24) 8 ≠ 0 then s.faultWork e w 1 0 (engineSource e) w.pos
      else if !s.mappedRange a 64 ∨ !s.mappedRange d.place 32 then s.faultWork e w 2 0 (engineSource e) (if s.mappedRange a 64 then d.place else a)
      else
        let quick := s.arrival d || d.reuse
        let x : Dispatch := { rec_ := a, ctx := w.ctx, array := w.array, sync := BitVec.ofNat 16 (s.rdLe (at_ + 2) 2), counts := []
                              answered := quick || (s.homed p s.fab.id.toNat).isEmpty
                              admits := if d.reuse && !s.arrival d then s.admitTable d p.nexp else [], sent := false, returns := [], dropped := []
                              arrived := [], got := [], complete := false }
        let s := s.setHead e { w with waiting := true }
        let old := (s.engine e).dispatches.filter fun y => !(y.ctx == w.ctx && y.rec_ == a && y.complete)
        let s := s.setEngine e { s.engine e with dispatches := x :: old, moved := true }
        if quick then s.sendRows e x else s.injectAll (s.countPackets w.ctx d)

def execDispatch (g : Fin 4) (s : State) : Host.Outcome State Fault Refusal := live s (dispatch g.val)

/-- Has a dispatch ended at this device, as source and as home (R175)? -/
def Dispatch.over (x : Dispatch) : Bool := x.sent && x.answered && x.returns.all fun r => x.got.contains r || x.dropped.contains r

/-- DISPATCH_COMPLETE: the object that the step names is signalled, and the engine goes on (R175). -/
def dispatchComplete (g : Nat) (s : State) : State :=
  let e := 0x18 + g
  match s.activeWork e with
  | none => s
  | some w =>
    if w.run.isNone ∨ s.rdLe w.addr 1 ≠ 0x22 then s
    else match s.dispatchOf e w with
      | none => s
      | some x =>
        if !x.over then s
        else
          let s := s.setDispatch e x { x with complete := true }
          let rest := (s.engine e).work.tail
          let s := s.setEngine e { s.engine e with work := if w.pos + 1 < w.count then s.advanceWork e w :: rest else rest, noProg := 0 }
          s.signalTask w.ctx x.sync.toNat (engineArray e) (engineSource e)

def execDispatchComplete (g : Fin 4) (s : State) : Host.Outcome State Fault Refusal := live s (dispatchComplete g.val)

/-! Packets of a dispatch (R422). -/

/-- The dispatch of a live context that a test selects, with its engine: one still going on before a completed one. -/
def State.findDispatch (s : State) (c : Nat) (f : Dispatch → Bool) : Option (Nat × Dispatch) :=
  let all := (s.engines.filter fun g => isGather g.1).flatMap fun g => (g.2.dispatches.filter fun d => d.ctx == c && f d).map fun d => (g.1, d)
  match all.find? fun x => !x.2.complete with
  | some x => some x
  | none => all.head?

/-- Receive a packet of TYPE `type` of the token-dispatch channel: a stale one is dropped and counted, one whose turn has not come or without
a dispatch here stays where it is (R403, R418, R487). -/
def State.onDispatch (s : State) (p : Packet) (type : Nat) (f : Dispatch → Bool) (act : Nat → Nat → Dispatch → State → State) : State :=
  if p.vc ≠ 5 ∨ p.type.toNat ≠ type then s
  else match s.receiveIf s.inTurn p with
    | none => s
    | some (port, t) =>
      match s.ctxLive p.ctx with
      | none => t.stale p.src p.ctx 5 port
      | some c => match t.findDispatch c f with
        | none => s
        | some (e, d) => act c e d t

/-- Entries of `n` bytes of a payload. -/
def entriesOf (n : Nat) (l : List Byte) : List (List Byte) := (List.range (l.length / n)).map fun i => (l.drop (n * i)).take n

/-- Does a home hold a count from every source for every expert that it homes (R422)? -/
def State.countsWhole (s : State) (d : DispRec) (es : List Nat) (counts : List (Nat × Nat × Nat)) : Bool :=
  s.fab.valid && (List.range d.g).all fun i => es.all fun e => counts.any fun n => n.1 == i && n.2.1 == e

/-- The count of one source for one expert. -/
def countOf (counts : List (Nat × Nat × Nat)) (i e : Nat) : Nat := match counts.find? fun n => n.1 == i && n.2.1 == e with | some n => n.2.2 | none => 0

/-- P_s of R170: the counts of the sources before source `i` in global order. -/
def DispRec.prior (d : DispRec) (counts : List (Nat × Nat × Nat)) (i e : Nat) : Nat :=
  ((d.order.takeWhile fun j => j != i).map fun j => countOf counts j e).foldl (· + ·) 0

/-- The home's answer: admit counts to every source, and the statistics entries (R170, R173). -/
def State.answer (s : State) (c e : Nat) (x : Dispatch) : State :=
  let d := s.dispRec x.rec_
  let p := s.placement d.place
  let es := s.homed p s.fab.id.toNat
  let packets := (List.range d.g).flatMap fun i =>
    let entries := es.map fun n =>
      let prior := d.prior x.counts i n
      leBytes 2 n ++ leBytes 2 0 ++ leBytes 4 (min (countOf x.counts i n) (capacity (s.expert p n) d p - prior)) ++ leBytes 4 prior
    (pieces 341 (entries.length + 1) entries).map fun l => s.dispatchPacket c (s.groupDevice d i) 2 p.tag l.flatten
  let s := (s.setDispatch e x { x with answered := true }).injectAll packets
  es.foldl (fun (s : State) n =>
    let routed := ((List.range d.g).map fun i => countOf x.counts i n).foldl (· + ·) 0
    let kept := min routed (capacity (s.expert p n) d p)
    match s.writeFault c (d.stats + 16 * n) 16 with
    | 0 => s.store (d.stats + 16 * n) (leBytes 4 routed ++ leBytes 4 kept ++ leBytes 4 (routed - kept) ++ leBytes 4 0)
    | cause => s.faultCtx c cause 0xFF 0 (engineSource e) (d.stats + 16 * n)) s

/-- COUNT (R170, R172, R173, R422): a home holds the counts of one more packet, and answers once they are whole; another placement tag faults its
context. -/
def count (p : Packet) (s : State) : State :=
  s.onDispatch p 1 (fun d => !d.answered && !d.complete) fun c e x s =>
    let d := s.dispRec x.rec_
    let pl := s.placement d.place
    if p.arg.toNat % 2 ^ 32 ≠ pl.tag then s.faultCtx c 7 0xFF 0 (engineSource e) (p.arg.toNat % 2 ^ 32)
    else
      let i := p.arg.toNat / 2 ^ 32 % 65536
      let new := (entriesOf 8 p.payload).map fun b => (i, fieldAt b 0 2, fieldAt b 4 4)
      let y := { x with counts := (x.counts.filter fun n => !new.any fun m => m.1 == n.1 && m.2.1 == n.2.1) ++ new }
      let s := s.setDispatch e x y
      if s.countsWhole d (s.homed pl s.fab.id.toNat) y.counts then s.answer c e y else s

def execCount (p : Packet) (s : State) : Host.Outcome State Fault Refusal := live s (count p)

/-- ADMIT: the admit table takes the home's counts; once every expert's is there, the rows are sent (R170, R171, R174). -/
def admitCounts (p : Packet) (s : State) : State :=
  s.onDispatch p 2 (fun d => !d.sent && !d.complete) fun c e x s =>
    let d := s.dispRec x.rec_
    let pl := s.placement d.place
    let new := (entriesOf 12 p.payload).map fun b => (fieldAt b 0 2, fieldAt b 4 4, fieldAt b 8 4)
    let y := { x with admits := (x.admits.filter fun n => !new.any fun m => m.1 == n.1) ++ new }
    let s := s.setDispatch e x y
    let s := new.foldl (fun (s : State) a =>
      match s.writeFault c (d.admits + 8 * a.1) 8 with
      | 0 => s.store (d.admits + 8 * a.1) (leBytes 4 a.2.1 ++ leBytes 4 a.2.2)
      | cause => s.faultCtx c cause 0xFF 0 (engineSource e) (d.admits + 8 * a.1)) s
    if (List.range pl.nexp).all fun n => y.admits.any fun a => a.1 == n then s.sendRows e y else s

def execAdmitCounts (p : Packet) (s : State) : Host.Outcome State Fault Refusal := live s (admitCounts p)

/-- The expert of a triple. -/
def State.expertOfTriple (s : State) (p : Placement) (t : Nat) : Nat :=
  ((List.range p.nexp).find? fun e => let x := s.expert p e; decide (x.first ≤ t) && decide (t < x.first + x.ntriples)).getD 0

/-- Write one segment of a row, or fault the context that it belongs to. -/
def State.writeSegment (s : State) (c e at_ : Nat) (bs : List Byte) : State :=
  match s.writeFault c at_ bs.length with
  | 0 => s.store at_ bs
  | cause => s.faultCtx c cause 0xFF 0 (engineSource e) at_

/-- A part returns one output row for a pair that it has received whole: its bytes are free values, and it leaves at once (R177; log 33). -/
def State.returnRow (s : State) (c dst t bytes combine : Nat) : State :=
  s.injectAll ((List.range (segmentsOf bytes)).map fun g =>
    s.dispatchPacket c dst 4 (combine + 2 ^ 32 * g)
      ((List.range (min 4032 (bytes - 4032 * g))).map fun b => Config.partByte t (2 ^ 32 * dst + combine) (4032 * g + b)))

/-- ROW (R171, R178, R422): a part writes the segment into its receive buffer; in arrival order it takes the next free row, and a pair beyond its
share is answered by a drop mark. With its last segment the part returns the pair's output row (R177). -/
def row (p : Packet) (s : State) : State :=
  s.onDispatch p 3 (fun _ => true) fun c e x s =>
    let d := s.dispRec x.rec_
    let pl := s.placement d.place
    let t := p.arg.toNat % 65536
    let seg := p.arg.toNat / 2 ^ 48
    let combine := fieldAt p.payload 0 4
    let write (s : State) (n : Nat) : State :=
      let s := s.writeSegment c e ((s.triple pl t).recv + n * pl.rowBytes + 4032 * seg) (p.payload.drop 8)
      if segmentsOf pl.rowBytes ≤ seg + 1 ∧ (s.ctx c).state ≠ 5 then s.returnRow c p.src.toNat t pl.rowBytes combine else s
    if !s.arrival d then write s (p.arg.toNat / 65536 % 2 ^ 32)
    else
      let mine := x.arrived.filter fun a => a.1 == t
      let key := (t, p.src.toNat, combine)
      match (List.range mine.length).find? fun n => mine.getD n (0, 0, 0) == key with
      | some n => write s n
      | none =>
        let ex := s.expert pl (s.expertOfTriple pl t)
        if seg = 0 ∧ mine.length < ceilDiv (capacity ex d pl) (max 1 ex.nrep) then
          write (s.setDispatch e x { x with arrived := x.arrived ++ [key] }) mine.length
        else if seg = 0 then s.inject (s.dispatchPacket c p.src.toNat 5 combine [])
        else s

def execRow (p : Packet) (s : State) : Host.Outcome State Fault Refusal := live s (row p)

/-- RETURN (R177, R422): the source writes the segment at its combine row; with the last segment the row has arrived. -/
def return_ (p : Packet) (s : State) : State :=
  let n := p.arg.toNat % 2 ^ 32
  s.onDispatch p 4 (fun d => d.returns.contains n && !d.got.contains n) fun c e x s =>
    let d := s.dispRec x.rec_
    let pl := s.placement d.place
    let seg := p.arg.toNat / 2 ^ 32 % 65536
    let s := if segmentsOf pl.rowBytes ≤ seg + 1 then s.setDispatch e x { x with got := x.got ++ [n] } else s
    s.writeSegment c e (d.combine + n * pl.rowBytes + 4032 * seg) p.payload

def execReturn (p : Packet) (s : State) : Host.Outcome State Fault Refusal := live s (return_ p)

/-- DROP_MARK (R178): the pair is treated as dropped. -/
def dropMark (p : Packet) (s : State) : State :=
  let n := p.arg.toNat % 2 ^ 32
  s.onDispatch p 5 (fun d => d.returns.contains n) fun _ e x s => s.setDispatch e x { x with dropped := x.dropped ++ [n] }

def execDropMark (p : Packet) (s : State) : Host.Outcome State Fault Refusal := live s (dropMark p)

/-! Hand-offs (R485-R487). -/

structure HandoffRec where
  rbase  : Nat
  slotBytes : Nat
  slots  : Nat
  lready : Nat
  device : Nat
  rctx   : Nat
  bytes  : Nat
  reserved : Bool
  deriving DecidableEq, Repr

def State.handoffRec (s : State) (a : Nat) : HandoffRec :=
  let b := s.rdN a 32
  { rbase := fieldAt b 0 8, slotBytes := fieldAt b 8 4, slots := fieldAt b 0xC 2, lready := fieldAt b 0xE 2, device := fieldAt b 0x10 2
    rctx := fieldAt b 0x12 2, bytes := fieldAt b 0x14 4, reserved := !zeroAt b 0x18 8 }

/-- The packets of one fill (R486). -/
def State.handoffPackets (s : State) (h : HandoffRec) (c slot : Nat) (bs : List Byte) : List Packet :=
  let n := ceilDiv bs.length 4064
  (List.range n).map fun i =>
    let head := leBytes 8 h.rbase ++ leBytes 4 h.slotBytes ++ leBytes 2 h.slots ++ leBytes 2 h.lready ++ leBytes 2 slot
      ++ leBytes 1 (bit (i + 1 == n)) ++ leBytes 1 0 ++ leBytes 4 (4064 * i) ++ leBytes 8 0
    { s.dispatchPacket c h.device 8 0 (head ++ (bs.drop (4064 * i)).take 4064) with ctx := BitVec.ofNat 16 h.rctx }

/-- HANDOFF: one fill is cut into packets and sent; the cursor of the hand-off record advances (R485, R486). -/
def handoff (g : Nat) (s : State) : State :=
  let e := 0x18 + g
  s.gatherStep e 0x23 fun w s =>
    let sa := s.stepBody w
    let ra := s.rdLe (w.addr + 24) 8
    let d := s.streamDesc sa
    let h := s.handoffRec ra
    if !s.mappedRange sa 128 ∨ !s.mappedRange ra 32 then s.faultWork e w 2 0 (engineSource e) (if s.mappedRange sa 128 then ra else sa)
    else if !d.ferryOk 8 false ∨ h.reserved ∨ h.slots = 0 ∨ 256 < h.slots ∨ h.bytes = 0 ∨ h.slotBytes < h.bytes then
      s.faultWork e w 1 0 (engineSource e) w.pos
    else match s.access e (s.streamRows d d.base 0 (ceilDiv h.bytes d.rowBytes)) [] with
    | (false, s) => s
    | (true, s) =>
      let s := s.engineStream e w.ctx sa d.base (ceilDiv h.bytes d.rowBytes)
      match s.fetchRows e w.ctx d d.base (ceilDiv h.bytes d.rowBytes) 0 with
      | .error (cause, a) => s.rowFault w.ctx e cause a d.rowBytes
      | .ok (bs, s) =>
        let s := s.engineTook e sa (ceilDiv h.bytes d.rowBytes)
        let x := s.engine e
        let slot := match x.handoffs.find? fun c => c.1 == ra with | some c => c.2 | none => 0
        let s := s.setEngine e { x with handoffs := (ra, (slot + 1) % h.slots) :: x.handoffs.filter fun c => c.1 != ra }
        (s.injectAll (s.handoffPackets h w.ctx slot (bs.take h.bytes))).wrote e w

def execHandoff (g : Fin 4) (s : State) : Host.Outcome State Fault Refusal := live s (handoff g.val)

/-- HANDOFF_RECEIVE: the first packet of a fill takes a free count, or is held; each packet's data are written, and the last signals the slot's
ready object (R403, R487). -/
def handoffReceive (p : Packet) (s : State) : State :=
  if p.vc ≠ 5 ∨ p.type ≠ 8 then s
  else match s.receiveIf s.inTurn p with
    | none => s
    | some (port, t) =>
      match s.ctxLive p.ctx with
      | none => t.stale p.src p.ctx 5 port
      | some c =>
        let f (o n : Nat) : Nat := fieldAt p.payload o n
        let free := f 0xE 2 + f 0xC 2
        let fault (t : State) (cause detail : Nat) : State := t.faultCtx c cause 0xFF 0 srcSwitch detail
        let deliver (t : State) : State :=
          let at_ := f 0 8 + f 0x10 2 * f 8 4 + f 0x14 4
          match t.writeFault c at_ (p.payload.length - 32) with
          | 0 =>
            let t := t.store at_ (p.payload.drop 32)
            if f 0x12 1 = 1 then t.signalTask c (f 0xE 2 + f 0x10 2) 0xFF srcSwitch else t
          | cause => fault t cause at_
        if f 0x14 4 ≠ 0 then deliver t
        else match s.objOf c free with
          | none => fault t 8 free
          | some o =>
            if (s.obj o).count = 0 ∨ (s.obj o).queue ≠ [] then s
            else deliver { t with sync := t.sync.setObj o { t.obj o with count := (t.obj o).count - 1 } }

def execHandoffReceive (p : Packet) (s : State) : Host.Outcome State Fault Refusal := live s (handoffReceive p)

/-! Folds (R493-R496). -/

/-- ACC after folding a slot: a copy for the first micro-batch, else FP32 sums (R495). -/
def State.folded (s : State) (first : Bool) (acc slot n : Nat) : List Byte :=
  if first then s.rdN slot (4 * n)
  else (List.range n).flatMap fun i =>
    leBytes 4 (fadd (BitVec.ofNat 32 (s.rdLe (acc + 4 * i) 4)) (BitVec.ofNat 32 (s.rdLe (slot + 4 * i) 4))).toNat

/-- The sum of a fold whose turn has come. -/
def State.foldNow (s : State) (e : Nat) (w : Work) (acc slot elems obj : Nat) (first : Bool) : State :=
  let n := 4 * elems
  if !isHbm slot ∨ dieOf slot ≠ (e - 0x18) / 2 then s.faultWork e w 2 0 (engineSource e) slot
  else match s.access e [(slot, n)] [(acc, n)] with
  | (false, s) => s
  | (true, s) =>
    match s.readFault w.ctx slot n, (if first then 0 else s.readFault w.ctx acc n), s.writeFault w.ctx acc n with
    | 0, 0, 0 =>
      let s := (s.store acc (s.folded first acc slot elems)).wrote e { w with waiting := false, freeTaken := false }
      s.signalTask w.ctx obj (engineArray e) (engineSource e)
    | 0, 0, cause => s.rowFault w.ctx e cause acc n
    | 0, cause, _ => s.rowFault w.ctx e cause acc n
    | cause, _, _ => s.rowFault w.ctx e cause slot n

/-- FOLD: the step waits until FOLDOBJ has reached its index, without taking, then folds its slot into ACC and signals FOLDOBJ (R495). -/
def fold (g : Nat) (s : State) : State :=
  let e := 0x18 + g
  s.gatherStep e 0x24 fun w s =>
    let ra := s.stepBody w
    let b := s.rdN ra 32
    let i := (s.rdLe (w.addr + 24) 4 + 2 ^ 32 - fieldAt b 0x18 4) % 2 ^ 32
    let win := fieldAt b 0x1C 1
    let obj := fieldAt b 0x1E 2
    let now (w : Work) (s : State) : State :=
      s.foldNow e w (fieldAt b 0 8) (fieldAt b 8 8 + i % win * fieldAt b 0x10 4) (fieldAt b 0x14 4) obj (i == 0)
    if !s.mappedRange ra 32 then s.faultWork e w 2 0 (engineSource e) ra
    else if win = 0 ∨ 4 < win ∨ !zeroAt b 0x1D 1 ∨ s.rdLe (w.addr + 28) 4 ≠ 0 ∨ fieldAt b 0x10 4 % 4096 ≠ 0 ∨ fieldAt b 0x10 4 < 4 * fieldAt b 0x14 4 then
      s.faultWork e w 1 0 (engineSource e) w.pos
    else if i = 0 ∨ w.freeTaken then now w s
    else match s.objOf w.ctx obj with
      | none => s.faultWork e w 8 0 (engineSource e) obj
      | some o =>
        let s := if w.waiting then s else s.enqueue [(o, { who := .landing e, n := BitVec.ofNat 32 i, takes := false })]
        if s.waited (.landing e) then
          let w := { w with waiting := false, freeTaken := true }
          now w ((s.consume (.landing e)).setHead e w)
        else s.setHead e { w with waiting := true }

def execFold (g : Fin 4) (s : State) : Host.Outcome State Fault Refusal := live s (fold g.val)

end Sys2Proof.Machine
end

