-- ==== Sys2Proof/Machine/Management.lean ====
section
/-!
DEFINITION. The management interfaces, attestation, the PCI Express endpoint, the test access port, and the accesses through Spans and array
windows (R18, R19, R26-R28, R70, R569, R574, R579-R598).
-/
namespace Sys2Proof.Machine

/-! PLDM (R569, R594). -/

/-- What the verification of a component finds, by its kind, and the counter it is held against. -/
def State.componentBad (s : State) (c : Component) : Option Nat × Nat :=
  match c.kind with
  | 0 => (s.imageBad c, s.flash.fwSvn.toNat)
  | 4 => (s.configBad c, s.flash.cfgVersion.toNat)
  | 5 => (s.opKeyBad s.boot.cfg c, s.flash.keyVersion.toNat)
  | _ => (some 5, 0)

/-- Write an accepted component: an image into the slot that is not running, a record over its older copy. -/
def State.writeComponent (s : State) (c : Component) : State :=
  match c.kind with
  | 0 =>
    if s.boot.image.isSome && !s.boot.slot then { s with flash := { s.flash with slotB := some c, failsB := 0 } }
    else { s with flash := { s.flash with slotA := some c, failsA := 0 } }
  | 4 => { s with flash := { s.flash with config := c :: s.flash.config.take 1 } }
  | _ => { s with flash := { s.flash with opkey := c :: s.flash.opkey.take 1 } }

/-- PLDM_FIRMWARE_COMPONENT (R569). -/
def pldmFirmwareComponent (c : Component) (s : State) : State :=
  match s.componentBad c with
  | (some reason, counter) => s.raiseRejected 3 reason c.version.toNat counter
  | (none, _) => s.writeComponent c
def execPldmFirmwareComponent (c : Component) (s : State) : Host.Outcome State Fault Refusal := liveMp s (pldmFirmwareComponent c)

/-- PLDM_EVENT_COLLECT: the oldest event goes; ALERT_N rises when none remains (R594). -/
def pldmEventCollect (s : State) : State :=
  match s.pldm with
  | [] => s
  | e :: rest => State.sendOut { s with pldm := rest, pins := { s.pins with alertN := rest == [] } } (.pldm e)
def execPldmEventCollect (s : State) : Host.Outcome State Fault Refusal := live s pldmEventCollect

/-- SET_ENDPOINT_ID, for the module at a tray position (R590, R591). -/
def setEndpointId (position : Nat) (eid : Byte) (s : State) : State := s.mctp position [eid] fun s => { s with eid := eid }
def execSetEndpointId (e : EndpointSet) (s : State) : Host.Outcome State Fault Refusal := liveMp s (setEndpointId e.position.val e.eid)

/-! Attestation (R574). An answer is recorded as the fields that this manual fixes, followed by what SPDM 1.2 puts around them (log 6). It comes
at every service level, but for R561. -/

/-- An SPDM answer: request code and the bytes that this manual fixes. -/
def State.attest (s : State) (request : Nat) (fixed : List Byte) : State :=
  if s.boot.identityOk then s.sendOut (.spdm request (fixed ++ Config.standardAnswer request s.fresh)) else s

/-- GET_VERSION: 1.2. -/
def getVersion (s : State) : State := s.attest 0x84 [0x12]
def execGetVersion (s : State) : Host.Outcome State Fault Refusal := live s getVersion

/-- GET_CAPABILITIES. -/
def getCapabilities (s : State) : State := s.attest 0xE1 []
def execGetCapabilities (s : State) : Host.Outcome State Fault Refusal := live s getCapabilities

/-- NEGOTIATE_ALGORITHMS: the answer selects ECDSA on P-521 and SHA-512, whose codes are the standard's. -/
def negotiateAlgorithms (s : State) : State := s.attest 0xE3 []
def execNegotiateAlgorithms (s : State) : Host.Outcome State Fault Refusal := live s negotiateAlgorithms

/-- GET_DIGESTS: the digest of slot 0's chain. -/
def getDigests (s : State) : State := s.attest 0x81 (Config.sha512 Config.certificateChain)
def execGetDigests (s : State) : Host.Outcome State Fault Refusal := live s getDigests

/-- GET_CERTIFICATE: a portion of slot 0's chain. -/
def getCertificate (offset length : BitVec 16) (s : State) : State :=
  s.attest 0x82 ((Config.certificateChain.drop offset.toNat).take length.toNat)
def execGetCertificate (offset length : BitVec 16) (s : State) : Host.Outcome State Fault Refusal := live s (getCertificate offset length)

/-- CHALLENGE: the digest of the chain, and a signature under the identity key over the nonce and the rest of the transcript. -/
def challenge (nonce : List Byte) (s : State) : State :=
  s.attest 0x83 (Config.sha512 Config.certificateChain ++ Config.ecdsaSign (nonce ++ Config.standardAnswer 0x83 s.fresh))
def execChallenge (nonce : List Byte) (s : State) : Host.Outcome State Fault Refusal := live s (challenge nonce)

/-- The measurements of R574. -/
def State.measurement (s : State) (index : Nat) : List Byte :=
  match index with
  | 1 => Config.romHash
  | 2 => (match s.boot.image with | some c => Config.sha512 c.header | none => []) ++ leBytes 1 (bit s.boot.slot)
  | 3 => match s.boot.cfg with | some c => Config.sha512 (c.header ++ c.body) | none => []
  | 4 => leBytes 2 s.flash.fwSvn.toNat ++ leBytes 2 s.flash.cfgVersion.toNat ++ leBytes 2 s.flash.keyVersion.toNat ++ leBytes 1 s.flash.revoke.toNat
  | 5 => leBytes 1 s.boot.level ++ leBytes 1 (bit s.flash.oos)
  | _ => []

/-- GET_MEASUREMENTS: one index, or 0xFF for all of them. -/
def getMeasurements (index : Byte) (s : State) : State :=
  s.attest 0xE0 (if index = 0xFF then (List.range 5).flatMap fun i => s.measurement (i + 1) else s.measurement index.toNat)
def execGetMeasurements (index : Byte) (s : State) : Host.Outcome State Fault Refusal := live s (getMeasurements index)

/-! UART (R595): nothing of the module changes. -/

def statusUart (s : State) : State := s.sendOut (.uart 0 (Config.standardAnswer 0x200 s.fresh))
def execStatusUart (s : State) : Host.Outcome State Fault Refusal := live s statusUart

def level (s : State) : State := s.sendOut (.uart 1 (leBytes 1 s.boot.level))
def execLevel (s : State) : Host.Outcome State Fault Refusal := live s level

/-- LOG: the boot log, then the events since the last module reset, oldest first. -/
def log (s : State) : State := s.sendOut (.uart 2 (Config.standardAnswer 0x201 s.fresh ++ s.hif.eventLog.reverse.flatten))
def execLog (s : State) : Host.Outcome State Fault Refusal := live s log

/-! The PCI Express endpoint (R579-R588). -/

/-- A dword of configuration space: the identity of R580, and the standard's own fields (log 6). -/
def State.cfgDword (s : State) (d : Nat) : Word :=
  match d with
  | 0 => 0x24081FA7
  | 2 => 0x120000B1
  | 11 => match s.boot.cfg with | some c => c.ssid | none => 0x00001FA7
  | _ => BitVec.ofNat 32 (leNat ((Config.standardAnswer (0x300 + d) s.fresh).take 4))

/-- What an accepted configuration request does. -/
def State.configure (s : State) (r : CfgReq) : State :=
  match r with
  | .read d => s.sendOut (.cfgData (s.cfgDword d.toNat))
  | .write _ _ => s
  | .setD3hot => { s with hif := { s.hif with d3hot := true } }
  | .setD0 => if s.hif.d3hot then State.requestFunction { s with hif := { s.hif with d3hot := false } } 11 else s
  | .setFunctionMask m => if m then { s with hif := { s.hif with functionMask := true } } else msixUnmask .function s
  | .setRelaxedOrdering on => { s with hif := { s.hif with relaxed := on } }
  | .setBar4Size n => { s with hif := { s.hif with bar4Log2Gib := n.val } }

/-- PCIE_CONFIG_REQUEST: within 1 s of a module reset's end the endpoint may still answer Request Retry Status (R581). -/
def pcieConfigRequest (r : CfgReq) (s : State) : State :=
  if !s.hif.up then s
  else if s.now < s.boot.resetEndAt + 100000000 ∧ Config.choiceNat s.fresh % 2 = 1 then s.tick.sendOut .requestRetry
  else s.configure r
def execPcieConfigRequest (r : CfgReq) (s : State) : Host.Outcome State Fault Refusal := live s (pcieConfigRequest r)

/-- ATOMICOP_REQUEST (R582). -/
def atomicopRequest (s : State) : State := if s.hif.up then s.sendOut .unsupportedRequest else s
def execAtomicopRequest (s : State) : Host.Outcome State Fault Refusal := live s atomicopRequest

/-- The device address at BAR4 offset `w`: BASE without the bits below the present size (R587). -/
def State.bar4At (s : State) (w : Nat) : Nat :=
  s.hif.bar4Base.toNat / 2 ^ s.hif.bar4Log2Gib * 2 ^ s.hif.bar4Log2Gib * 2 ^ 30 + w

def State.countUnmapped (s : State) : State := { s with hif := { s.hif with unmapped := satInc s.hif.unmapped } }

/-- BAR4_ACCESS: unmapped addresses and dies whose HBM has not trained read all ones and take no write, and so does BAR4
during a function reset; a hold area or a write to a fenced copy is
not performed; the rest joins the in-order queue, which takes it once it has room (R280, R453, R539, R572, R587). -/
def bar4Access (offset size : Nat) (data : List Byte) (isWrite : Bool) (s : State) : State :=
  let a := s.bar4At offset
  let n := if isWrite then data.length else size
  let none_ (s : State) : State := if isWrite then s else s.sendOut (.readBytes (List.replicate n 0xFF))
  if !s.hif.up || s.hif.d3hot || n == 0 || decide (2 ^ (30 + s.hif.bar4Log2Gib) < offset + n) then s
  else if s.inFunctionReset then none_ s
  else if !isHbm a || !s.mappedRange a n then none_ s.countUnmapped
  else if s.untrainedAt a || s.fenced isWrite a n then none_ s
  else s.acceptInOrder { addr := a, data := data, size := size, isWrite := isWrite, tag := 0x136 }
def execBar4Access (offset size : Nat) (data : List Byte) (isWrite : Bool) (s : State) : Host.Outcome State Fault Refusal :=
  live s (bar4Access offset size data isWrite)

/-- Is a session open on a transport? -/
def Session.onTransport (t : Nat) (x : Session) : Bool :=
  match x with
  | .opened u _ _ _ => u == t
  | _ => false

/-- PCIE_LINK_DOWN: the sessions of transport 0 end and their rings are deleted (R585). -/
def pcieLinkDown (s : State) : State :=
  if !s.hif.up then s
  else
    let s := { s with hif := { s.hif with up := false, flitMode := false, speed := 0, width := 0 } }
    let ended := (List.range 4).filter fun n => (s.session n).onTransport 0
    ended.foldl (fun (s : State) n => s.deleteRingsOf n) (s.endSessions fun n => ended.contains n)
def execPcieLinkDown (s : State) : Host.Outcome State Fault Refusal := live s pcieLinkDown

/-- PCIE_LINK_UP: the endpoint trains at a rate and a width of R579. -/
def pcieLinkUp (flit : Bool) (speed : BitVec 3) (width : BitVec 5) (s : State) : State :=
  if s.hif.up || s.boot.image.isNone || !(decide (3 ≤ speed.toNat) && decide (speed.toNat ≤ 6)) || !([1, 2, 4, 8, 16].contains width.toNat) then s
  else { s with hif := { s.hif with up := true, flitMode := flit, speed := speed, width := width } }
def execPcieLinkUp (flit : Bool) (speed : BitVec 3) (width : BitVec 5) (s : State) : Host.Outcome State Fault Refusal :=
  live s (pcieLinkUp flit speed width)

/-! The test access port (R596-R598). It is powered from VAON and works during a module reset. -/

/-- What a die's instruction selects. -/
inductive TapRegister where
  | boundary
  | identification
  | bypass
  deriving DecidableEq, Repr

def tapRegister (instr : Byte) : TapRegister :=
  match instr.toNat with
  | 0x00 | 0x02 | 0x08 | 0x09 => .boundary
  | 0x01 => .identification
  | _ => .bypass

def idcodeOf (d : Die) : Word := match d with | .hub => 0x124085CB | _ => 0x124095CB

/-- Cells of a die's boundary register (R597). -/
def boundaryCells (d : Die) : Nat := match d with | .hub => 5120 | _ => 1536

/-- Bits of the register that a die's instruction places in the chain. -/
def tapBits (d : Die) (instr : Byte) : Nat :=
  match tapRegister instr with
  | .boundary => boundaryCells d
  | .identification => 32
  | .bypass => 1

/-- Load a die's instruction; `drives` says that the boundary cells then drive the outputs. -/
def Tap.load (t : Tap) (d : Die) (instr : Byte) (drives : Bool) : Tap :=
  let t := { t with used := t.used || drives }
  match d with
  | .hub => { t with hub := instr }
  | .ad0 => { t with ad0 := instr }
  | .ad1 => { t with ad1 := instr }

/-- A test command: it reaches the test logic whatever the rest of the module does. -/
def tapDo (s : State) (f : Tap → Tap) : Host.Outcome State Fault Refusal := .next { s with tap := f s.tap }

def testLogicReset (t : Tap) : Tap := { t with hub := 1, ad0 := 1, ad1 := 1 }
def execTestLogicReset (s : State) : Host.Outcome State Fault Refusal := tapDo s testLogicReset
def extest (d : Die) (t : Tap) : Tap := t.load d 0x00 true
def execExtest (die : Die) (s : State) : Host.Outcome State Fault Refusal := tapDo s (extest die)
def idcode (d : Die) (t : Tap) : Tap := t.load d 0x01 false
def execIdcode (die : Die) (s : State) : Host.Outcome State Fault Refusal := tapDo s (idcode die)
def samplePreload (d : Die) (t : Tap) : Tap := t.load d 0x02 false
def execSamplePreload (die : Die) (s : State) : Host.Outcome State Fault Refusal := tapDo s (samplePreload die)
def clamp (d : Die) (t : Tap) : Tap := t.load d 0x05 true
def execClamp (die : Die) (s : State) : Host.Outcome State Fault Refusal := tapDo s (clamp die)
def highz (d : Die) (t : Tap) : Tap := t.load d 0x06 true
def execHighz (die : Die) (s : State) : Host.Outcome State Fault Refusal := tapDo s (highz die)
def extestPulse (d : Die) (t : Tap) : Tap := t.load d 0x08 true
def execExtestPulse (die : Die) (s : State) : Host.Outcome State Fault Refusal := tapDo s (extestPulse die)
def extestTrain (d : Die) (t : Tap) : Tap := t.load d 0x09 true
def execExtestTrain (die : Die) (s : State) : Host.Outcome State Fault Refusal := tapDo s (extestTrain die)

/-- An opcode that the table of R596 lists with an instruction of its own. -/
def tapListed (opcode : Byte) : Bool := [0x00, 0x01, 0x02, 0x05, 0x06, 0x08, 0x09].contains opcode.toNat
/-- BYPASS, and every opcode that is not listed. -/
def bypass (d : Die) (opcode : Byte) (t : Tap) : Tap := if tapListed opcode then t else t.load d opcode false
def execBypass (die : Die) (opcode : Byte) (s : State) : Host.Outcome State Fault Refusal := tapDo s (bypass die opcode)

/-! Spans (R17-R19). -/

def State.span (s : State) (east : Bool) : Span := if east then s.spanE else s.spanW
def State.setSpan (s : State) (east : Bool) (x : Span) : State := if east then { s with spanE := x } else { s with spanW := x }
def Span.lane (x : Span) (toHub : Bool) : SpanLane := if toHub then x.toHub else x.toDie
def Span.setLane (x : Span) (toHub : Bool) (l : SpanLane) : Span := if toHub then { x with toHub := l } else { x with toDie := l }

/-- A queue of a Span by its number: 0 control, 1 update, 2 ferry, 3 memory. -/
def SpanLane.queue (l : SpanLane) (q : Nat) : List Nat :=
  match q with
  | 0 => l.control
  | 1 => l.update
  | 2 => l.ferry
  | _ => l.memory

def SpanLane.setQueue (l : SpanLane) (q : Nat) (fs : List Nat) : SpanLane :=
  match q with
  | 0 => { l with control := fs }
  | 1 => { l with update := fs }
  | 2 => { l with ferry := fs }
  | _ => { l with memory := fs }

/-- A flit joins the tail of its queue. -/
def SpanLane.join (l : SpanLane) (e : Fin 4 × Nat) : SpanLane := l.setQueue e.1.val (l.queue e.1.val ++ [e.2])

/-- The queue of one place of the rotation update, ferry, update, memory, which gives the ratio 2 : 1 : 1 of R17 (log 29). -/
def rotationQueue (turn : Nat) : Nat := [1, 2, 1, 3].getD (turn % 4) 1

/-- The place of the rotation that is served: the first from the present one on whose queue holds a flit, so that an unused share passes on. -/
def SpanLane.place (l : SpanLane) : Option Nat := ([0, 1, 2, 3].map (l.turn + ·)).find? fun t => l.queue (rotationQueue t) != []

/-- Send the next flit: control before all, then the rotation (R17). -/
def SpanLane.serve (l : SpanLane) : SpanLane :=
  match l.control with
  | f :: fs => { l with control := fs, sending := some (0, f), replays := 0 }
  | [] =>
    match l.place with
    | none => { l with sending := none, replays := 0 }
    | some t =>
      let q := rotationQueue t
      match l.queue q with
      | f :: fs => { l.setQueue q fs with sending := some (q, f), replays := 0, turn := (t + 1) % 4 }
      | [] => l

/-- Flits that wait. -/
def SpanLane.waiting (l : SpanLane) : Nat := l.control.length + l.update.length + l.ferry.length + l.memory.length

/-- Serve flits, each of which gets through, until the named one is on the wire. -/
def SpanLane.serveTo (x : Nat × Nat) : Nat → SpanLane → Option SpanLane
  | 0, l => if l.sending = some x then some l else none
  | n + 1, l => if l.sending = some x then some l else SpanLane.serveTo x n l.serve

/-- SPAN_FLIT_REPLAY: since the last one flits have joined the queues of a direction; the flit named arrives in error and is sent again, and
those behind it wait in their order (R17, R18). Flits that the queues serve before it have got through (log 29). -/
def spanFlitReplay (r : SpanReplay) (s : State) : State :=
  let l := r.arrived.foldl SpanLane.join ((s.span r.east).lane r.toHub)
  match l.serveTo (r.queue.val, r.flit) l.waiting with
  | none => s
  | some l => s.setSpan r.east ((s.span r.east).setLane r.toHub { l with replays := l.replays + 1 })
def execSpanFlitReplay (r : SpanReplay) (s : State) : Host.Outcome State Fault Refusal := live s (spanFlitReplay r)

/-- SPAN_HUNG: after 16 consecutive replays the hub reports it, once; watchdog 9 leads to a warm module reset (R19, R547). -/
def spanHung (east : Bool) (s : State) : State :=
  let x := s.span east
  if (x.toDie.replays < 16 ∧ x.toHub.replays < 16) ∨ x.hung then s
  else (s.setSpan east { x with hung := true }).fireWarm 9 (bit east) 0 0xFFFF 0
def execSpanHung (east : Bool) (s : State) : Host.Outcome State Fault Refusal := live s (spanHung east)

/-! Array windows (R26-R28, R70). -/

/-- Perform a window access: a write replaces bytes, a read's data go back; the access of a waiting DBG_DATA ends it (R628). -/
def State.serveWindow (s : State) (a : Nat) (w : WinAccess) : State :=
  let at_ := windowBase a + w.offset
  let debug := s.dbg.busy && decide (8 * s.dbg.addr.toNat = at_)
  if w.isWrite then (if debug then (s.store at_ w.data).dbgDone none else s.store at_ w.data)
  else if debug then s.dbgDone (some (BitVec.ofNat 64 (s.rdLe at_ 8)))
  else s.sendOut (.readBytes (s.rdN at_ w.size))

/-- WINDOW_ACCESS: at once at the scratchpad, and at a bank whose array runs no tile; else held (R27, R28). -/
def windowAccess (a : Nat) (w : WinAccess) (s : State) : State :=
  if 0x400_0000 < w.offset + max w.size w.data.length then s
  else if s.bankBusy (windowBase a + w.offset) || s.bankBusy (windowBase a + w.offset + max w.size w.data.length - 1) then s.holdAccess a w
  else s.serveWindow a w
def execWindowAccess (a : Fin 8) (w : WinAccess) (s : State) : Host.Outcome State Fault Refusal := live s (windowAccess a.val w)

/-- Has the array a bank write in flight: a row- or column-mode tile that has not completed, or a drain? -/
def ArrayUnit.bankWrites (x : ArrayUnit) : Bool := x.draining || x.inflight.any fun t => t.tr.mode != 2

/-- BANK_WINDOW_SERVE: at a tile boundary with no bank write in flight, every held access is served in order; issue then resumes (R70). -/
def bankWindowServe (a : Nat) (s : State) : State :=
  let x := s.array a
  if (x.inflight.any fun t => t.ended.isNone) || x.bankWrites then s
  else x.window.foldl (fun (s : State) w => s.serveWindow a w) (s.setArray a { x with window := [] })
def execBankWindowServe (a : Fin 8) (s : State) : Host.Outcome State Fault Refusal := live s (bankWindowServe a.val)

end Sys2Proof.Machine
end

