-- ==== Sys2Proof/Machine/Stashes.lean ====
section
/-!
DEFINITION. The activation stash (R326-R334): stash steps, the quota book, spills, restores and the stash timeout.
-/
namespace Sys2Proof.Machine

/-! The books of one stash (R327-R331). -/

/-- A stash's units (R326). -/
def Stash.units (t : Stash) : Nat := if t.quota = 0 then 0 else t.quota + 1

/-- The free units: with the held ones they make the unit count (R331). -/
def Stash.freeUnits (t : Stash) : Nat := t.units - t.heldUnits

def Stash.slot (t : Stash) (b : Word) : Nat := b.toNat % t.h

/-- The micro-batch that holds the slot of micro-batch `b` (R327). -/
def Stash.occupant (t : Stash) (b : Word) : Option StashMb := t.mbs.find? fun m => m.st != 4 && t.slot m.mb == t.slot b

def Stash.mbOf (t : Stash) (b : Word) : Option StashMb := t.mbs.find? fun m => m.mb == b

/-- The slots that are held. -/
def Stash.heldSlots (t : Stash) : Nat := (t.mbs.filter fun m => m.st != 4).length

/-- A micro-batch passes into a state. -/
def Stash.setMb (t : Stash) (b : Word) (st : Nat) (obj : DWord) : Stash :=
  { t with mbs := (t.mbs.filter fun m => m.mb != b) ++ [{ mb := b, st := st, obj := obj }] }

def Stash.dropMb (t : Stash) (b : Word) : Stash := { t with mbs := t.mbs.filter fun m => m.mb != b }

/-- A slot or a unit has been freed: the timeout restarts (R333). -/
def Stash.freed (now : Nat) (t : Stash) : Stash := { t with since := t.since.map fun _ => now }

/-- The device address of the slot of `b` (R327). -/
def Stash.slotAddr (t : Stash) (b : Word) : Nat := t.base + t.slot b * t.slotBytes

/-- The slot of `b` is granted, or its closed occupant begins to be spilled where `need` units are free, or the step waits for a reason: 1 too
few units, 2 an occupant that is writing or open, 0 a transfer in progress (R329-R332). -/
def Stash.grant (need : Nat) (t : Stash) (b : Word) : Option Nat × Stash :=
  match t.occupant b with
  | none => (none, t)
  | some m =>
    if m.st = 5 then (some 0, t)
    else if m.st ≠ 2 then (some 2, t)
    else if t.freeUnits < need then (some 1, t)
    else (some 0, { t.setMb m.mb 5 0 with heldUnits := t.heldUnits + 1 })

/-- Attempt an ALLOC, CLOSE or OPEN: no answer from a wrong state; else the reason for which it waits, or none when it completes (R328). -/
def Stash.attempt (t : Stash) (w : StashWait) : Option (Option Nat × Stash) :=
  match w.op, t.mbOf w.mb with
  | 1, none =>
    match t.grant 2 w.mb with
    | (none, t) => some (none, t.setMb w.mb 1 0)
    | r => some r
  | 2, some m => if m.st = 1 then some (none, t.setMb w.mb 2 0) else none
  | 3, some m =>
    if m.st = 2 then some (none, t.setMb w.mb 3 0)
    else if m.st = 5 ∨ m.st = 6 then some (some 0, t)
    else if m.st ≠ 4 then none
    else
      match t.grant 1 w.mb with
      | (none, t) => some (some 0, t.setMb w.mb 6 m.obj)
      | r => some r
  | _, _ => none

/-! Stashes of the machine. -/

def State.stashOf (s : State) (c id : Nat) : Option Stash := s.tier.stashes.find? fun t => t.ctx == c && t.id == id

def State.putStash (s : State) (t : Stash) : State :=
  { s with tier := { s.tier with stashes := s.tier.stashes.map fun u => if u.ctx == t.ctx && u.id == t.id then t else u } }

/-- The steps that wait now; the timeout runs while one does (R333). -/
def State.setWaiting (s : State) (t : Stash) (ws : List StashWait) : State :=
  s.putStash { t with waiting := ws, since := if ws.any (fun w => w.reason != 0) then some (t.since.getD s.now) else none }

/-- STASH_FULL of a step that begins to wait for reason `k` (R332). -/
def State.stashFull (s : State) (t : Stash) (w : StashWait) (k : Nat) : State :=
  s.raiseCtx t.ctx 0x0305 srcTier
    (leBytes 1 t.id ++ leBytes 1 k ++ leBytes 2 t.heldSlots ++ leBytes 4 w.mb.toNat ++ leBytes 2 t.heldUnits ++ leBytes 6 0)

/-- A step from a wrong state, or a stash timeout, faults the context (R328, R333). -/
def State.stashFault (s : State) (c array code : Nat) (mb : Word) : State := s.faultCtx c 6 array code srcTier mb.toNat

/-- Attempt steps in issue order; those that go on waiting are kept. A faulted context's steps are abandoned (R332, R381). -/
def State.stashRetry (c id : Nat) : List StashWait → List StashWait → State → State
  | [], kept, s => (match s.stashOf c id with | some t => s.setWaiting t kept | none => s)
  | w :: ws, kept, s =>
    match s.stashOf c id with
    | none => s
    | some t =>
      if (s.ctx c).state = 5 then s.setWaiting t []
      else
        match t.attempt w with
        | none => (s.setWaiting t []).stashFault c w.array 0 w.mb
        | some (none, t) => State.stashRetry c id ws kept ((s.putStash t).signalTask c w.sync.toNat w.array srcTier)
        | some (some k, t) =>
          let s := s.putStash t
          if k = 0 ∨ w.reason ≠ 0 then State.stashRetry c id ws (kept ++ [if k = 0 then w else { w with reason := k }]) s
          else State.stashRetry c id ws (kept ++ [{ w with reason := k }]) (s.stashFull t w k)

/-- The books of a stash have changed: what waits is retried. -/
def State.stashChanged (s : State) (c id : Nat) : State :=
  match s.stashOf c id with
  | some t => State.stashRetry c id t.waiting [] s
  | none => s

/-! Stash steps (R328). -/

/-- The next stash step of array `a`, if its OP is `op`, is handed to the tier controller. An invalid record or a stash that the context has not
installed faults the context. -/
def State.stashStep (s : State) (a op : Nat) (f : Stash → StashWait → State → State) : State :=
  match s.runOnArray a with
  | none => s
  | some r =>
    let x := s.array a
    if !s.mayIssue a r ∨ x.nstash ≤ x.stashPos then s
    else
      let b := s.rdN (x.stashList + 16 * x.stashPos) 16
      let w : StashWait := { op := fieldAt b 0 1, mb := BitVec.ofNat 32 (fieldAt b 4 4), sync := BitVec.ofNat 16 (fieldAt b 2 2), array := a
                             reason := 0 }
      if w.op = 0 ∨ 4 < w.op ∨ !zeroAt b 8 8 then s.faultCtx r.ctx 1 a 0 (16 * a) x.stashPos
      else if w.op ≠ op then s
      else
        match s.stashOf r.ctx (fieldAt b 1 1) with
        | none => s.stashFault r.ctx a 0 w.mb
        | some t => f t w (s.setArray a { x with stashPos := x.stashPos + 1 })

/-- ALLOC: slot b mod H is granted, a closed occupant is spilled first, or the step waits (R328, R329, R332). -/
def alloc (a : Nat) (s : State) : State :=
  s.stashStep a 1 fun t w s => State.stashRetry t.ctx t.id (t.waiting ++ [w]) [] s

/-- CLOSE: a micro-batch that is writing becomes closed at once, and what waits is retried (R328, R332). -/
def close (a : Nat) (s : State) : State :=
  s.stashStep a 2 fun t w s => State.stashRetry t.ctx t.id (w :: t.waiting) [] s

/-- OPEN: a closed micro-batch is open at once; a spilled one is restored into its slot, from which a closed occupant is spilled first
(R328, R330, R332). -/
def open_ (a : Nat) (s : State) : State :=
  s.stashStep a 3 fun t w s => State.stashRetry t.ctx t.id (t.waiting ++ [w]) [] s

/-- FREE: a micro-batch's slot, and its object with the object's unit, are released at once, and what waits is retried (R328, R331). -/
def free (a : Nat) (s : State) : State :=
  s.stashStep a 4 fun t w s =>
    match t.mbOf w.mb with
    | none => s.stashFault t.ctx a 0 w.mb
    | some m =>
      if m.st = 1 then s.stashFault t.ctx a 0 w.mb
      else
        let s := if m.st = 4 ∨ m.st = 6 then s.removeObj m.obj.toNat else s
        let held := if 4 ≤ m.st then t.heldUnits - 1 else t.heldUnits
        let s := s.putStash ({ t.dropMb w.mb with heldUnits := held }.freed s.now)
        (s.signalTask t.ctx w.sync.toNat a srcTier).stashChanged t.ctx t.id

def execAlloc (a : Fin 8) (s : State) : Host.Outcome State Fault Refusal := live s (alloc a.val)
def execClose (a : Fin 8) (s : State) : Host.Outcome State Fault Refusal := live s (close a.val)
def execOpen (a : Fin 8) (s : State) : Host.Outcome State Fault Refusal := live s (open_ a.val)
def execFree (a : Fin 8) (s : State) : Host.Outcome State Fault Refusal := live s (free a.val)

/-! Spills, restores and the timeout (R329, R330, R333, R334). -/

/-- The lowest free place of a stash's reserve. -/
def State.reservePlace (s : State) (t : Stash) : Nat :=
  (((List.range t.units).map fun i => t.reserve + i * t.slotBytes).find? fun a => !s.tier.objs.any fun o => o.base == a).getD t.reserve

/-- SPILL_DONE: a slot has been copied into a sealed DDR5 object of the reserve, and the slot is free (R329, R334). Poisoned data fault the
context (R265). -/
def spillDone (c id : Nat) (s : State) : State :=
  match s.stashOf c id with
  | none => s
  | some t =>
    match t.mbs.find? fun m => m.st == 5 with
    | none => s
    | some m =>
      let a := t.slotAddr m.mb
      if s.poisonIn a t.slotBytes then s.rowFault c 0x10 3 a t.slotBytes
      else
        let o : Obj := { id := BitVec.ofNat 64 (s.nextId 1), base := s.reservePlace t, size := t.slotBytes, written := 0, sealed := true, ctx := c
                         stash := true, extents := [] }
        let s := (s.addObj o).store o.base (s.rdN a t.slotBytes)
        (s.putStash ((t.setMb m.mb 4 o.id).freed s.now)).stashChanged c id

def execSpillDone (ctx : Fin 64) (stash : Fin 256) (s : State) : Host.Outcome State Fault Refusal := live s (spillDone ctx.val stash.val)

/-- STASH_RESTORE_DONE: a spilled micro-batch lies in its slot again: its object and its unit are released, and its OPEN completes
(R330, R331, R334). Data that DDR5 can no longer correct fault the context (R300). -/
def stashRestoreDone (c id : Nat) (s : State) : State :=
  match s.stashOf c id with
  | none => s
  | some t =>
    match t.mbs.find? fun m => m.st == 6 with
    | none => s
    | some m =>
      match s.objById m.obj.toNat with
      | none => s
      | some o =>
        let s := s.ddrRead false o.base t.slotBytes
        if s.poisonIn o.base t.slotBytes then s.rowFault c 0x10 3 o.base t.slotBytes
        else
          let s := (s.tick.store (t.slotAddr m.mb) (s.rdN o.base t.slotBytes)).removeObj m.obj.toNat
          let mine (w : StashWait) : Bool := w.op == 3 && w.mb == m.mb
          let t := { (t.setMb m.mb 3 0).freed s.now with heldUnits := t.heldUnits - 1 }
          match t.waiting.find? mine with
          | none => (s.putStash t).stashChanged c id
          | some w =>
            if (s.ctx c).state = 5 then s.setWaiting t []
            else
              let s := (s.putStash { t with waiting := t.waiting.erase w }).signalTask c w.sync.toNat w.array srcTier
              s.stashChanged c id

def execStashRestoreDone (ctx : Fin 64) (stash : Fin 256) (s : State) : Host.Outcome State Fault Refusal :=
  live s (stashRestoreDone ctx.val stash.val)

/-- STASH_TIMEOUT: the timeout has run TIMEOUT_MS on the always-on counter: the waiting steps are abandoned and the context is faulted
(R333, R381). -/
def stashTimeout (c id : Nat) (s : State) : State :=
  match s.stashOf c id with
  | none => s
  | some t =>
    match t.since, t.waiting.find? fun w => w.reason != 0 with
    | some since, some w =>
      if s.now < since + t.timeoutMs * 100000 then s
      else (s.setWaiting t []).stashFault c w.array 0x0305 w.mb
    | _, _ => s

def execStashTimeout (ctx : Fin 64) (stash : Fin 256) (s : State) : Host.Outcome State Fault Refusal := live s (stashTimeout ctx.val stash.val)

end Sys2Proof.Machine
end

