-- ==== Sys2Proof/Machine/Dispatch.lean ====
section
/-!
DEFINITION. One arm per command: the direct call of its meaning.
-/
namespace Sys2Proof.Machine

def exec (i : Instr) (s : State) : Host.Outcome State Fault Refusal :=
  match i with
  | .registerWrite offset w => Sys2Proof.Machine.execRegisterWrite offset w s
  | .bar0BadAccess offset size isWrite => Sys2Proof.Machine.execBar0BadAccess offset size isWrite s
  | .evcfgReadClear n half => Sys2Proof.Machine.execEvcfgReadClear n half s
  | .bar4WinReadClear half => Sys2Proof.Machine.execBar4WinReadClear half s
  | .memHbmIlvWrite w => Sys2Proof.Machine.execMemHbmIlvWrite w s
  | .memScCfgWrite w => Sys2Proof.Machine.execMemScCfgWrite w s
  | .devcfgWrite w => Sys2Proof.Machine.execDevcfgWrite w s
  | .arrnClkWrite a w => Sys2Proof.Machine.execArrnClkWrite a w s
  | .pwrCapWrite w => Sys2Proof.Machine.execPwrCapWrite w s
  | .fabPortCfgWrite p w => Sys2Proof.Machine.execFabPortCfgWrite p w s
  | .fabPortVcbufWrite p w => Sys2Proof.Machine.execFabPortVcbufWrite p w s
  | .fabRouteWrite entry w => Sys2Proof.Machine.execFabRouteWrite entry w s
  | .hifEvcfgEnable n w => Sys2Proof.Machine.execHifEvcfgEnable n w s
  | .hifAdminEnable w => Sys2Proof.Machine.execHifAdminEnable w s
  | .hifBar4WinWrite w => Sys2Proof.Machine.execHifBar4WinWrite w s
  | .snap => Sys2Proof.Machine.execSnap s
  | .clear => Sys2Proof.Machine.execClear s
  | .dbgEnableWrite w => Sys2Proof.Machine.execDbgEnableWrite w s
  | .dbgDataRead => Sys2Proof.Machine.execDbgDataRead s
  | .dbgDataWrite value => Sys2Proof.Machine.execDbgDataWrite value s
  | .doorbell ring pageOffset bytes value host => Sys2Proof.Machine.execDoorbell ring pageOffset bytes value host s
  | .adminDoorbell pageOffset bytes value host => Sys2Proof.Machine.execAdminDoorbell pageOffset bytes value host s
  | .eventHeadWrite n pageOffset bytes value => Sys2Proof.Machine.execEventHeadWrite n pageOffset bytes value s
  | .commandFetch from_ => Sys2Proof.Machine.execCommandFetch from_ s
  | .commandStart ring => Sys2Proof.Machine.execCommandStart ring s
  | .commandDone key => Sys2Proof.Machine.execCommandDone key s
  | .run key => Sys2Proof.Machine.execRun key s
  | .ferry key => Sys2Proof.Machine.execFerry key s
  | .signal by_ => Sys2Proof.Machine.execSignal by_ s
  | .wait by_ => Sys2Proof.Machine.execWait by_ s
  | .waitGe by_ => Sys2Proof.Machine.execWaitGe by_ s
  | .waitAny key => Sys2Proof.Machine.execWaitAny key s
  | .set by_ => Sys2Proof.Machine.execSet by_ s
  | .remoteSignal key => Sys2Proof.Machine.execRemoteSignal key s
  | .syncWaitTimeout key => Sys2Proof.Machine.execSyncWaitTimeout key s
  | .remoteSignalReceive p => Sys2Proof.Machine.execRemoteSignalReceive p s
  | .syncStep a => Sys2Proof.Machine.execSyncStep a s
  | .hintComputeHeavy key => Sys2Proof.Machine.execHintComputeHeavy key s
  | .hintMemoryHeavy key => Sys2Proof.Machine.execHintMemoryHeavy key s
  | .hintEnd key => Sys2Proof.Machine.execHintEnd key s
  | .hintLapse => Sys2Proof.Machine.execHintLapse s
  | .tableInstall key => Sys2Proof.Machine.execTableInstall key s
  | .tableStart key => Sys2Proof.Machine.execTableStart key s
  | .tableStop key => Sys2Proof.Machine.execTableStop key s
  | .tableEntryRelease t => Sys2Proof.Machine.execTableEntryRelease t s
  | .tableEntryStart t => Sys2Proof.Machine.execTableEntryStart t s
  | .slotOverrun t => Sys2Proof.Machine.execSlotOverrun t s
  | .ctxCreate key => Sys2Proof.Machine.execCtxCreate key s
  | .ctxSave key => Sys2Proof.Machine.execCtxSave key s
  | .ctxRestore key => Sys2Proof.Machine.execCtxRestore key s
  | .ctxTeardown key => Sys2Proof.Machine.execCtxTeardown key s
  | .ctxTeardownDone key => Sys2Proof.Machine.execCtxTeardownDone key s
  | .openSession r => Sys2Proof.Machine.execOpenSession r s
  | .sessionReservationLapse slot => Sys2Proof.Machine.execSessionReservationLapse slot s
  | .lockoutEnd t => Sys2Proof.Machine.execLockoutEnd t s
  | .closeSession r => Sys2Proof.Machine.execCloseSession r s
  | .ringCreate r => Sys2Proof.Machine.execRingCreate r s
  | .ringDelete r => Sys2Proof.Machine.execRingDelete r s
  | .reset r => Sys2Proof.Machine.execReset r s
  | .clearRepair r => Sys2Proof.Machine.execClearRepair r s
  | .clearOutOfService r => Sys2Proof.Machine.execClearOutOfService r s
  | .marginReplan r => Sys2Proof.Machine.execMarginReplan r s
  | .clipCoeff r => Sys2Proof.Machine.execClipCoeff r s
  | .assignDevid r => Sys2Proof.Machine.execAssignDevid r s
  | .routeWrite r => Sys2Proof.Machine.execRouteWrite r s
  | .planInstall r => Sys2Proof.Machine.execPlanInstall r s
  | .planRemove r => Sys2Proof.Machine.execPlanRemove r s
  | .stepAbort r => Sys2Proof.Machine.execStepAbort r s
  | .revert r => Sys2Proof.Machine.execRevert r s
  | .eventCoalTimeout n => Sys2Proof.Machine.execEventCoalTimeout n s
  | .msixUnmask u => Sys2Proof.Machine.execMsixUnmask u s
  | .arrayGrant => Sys2Proof.Machine.execArrayGrant s
  | .arrayScrubDone a => Sys2Proof.Machine.execArrayScrubDone a s
  | .arrayQuiescent a => Sys2Proof.Machine.execArrayQuiescent a s
  | .saveDone a => Sys2Proof.Machine.execSaveDone a s
  | .restoreDone a => Sys2Proof.Machine.execRestoreDone a s
  | .tileIssue a => Sys2Proof.Machine.execTileIssue a s
  | .arrayCycle a => Sys2Proof.Machine.execArrayCycle a s
  | .wakeLoadStart a => Sys2Proof.Machine.execWakeLoadStart a s
  | .wakeLoadComplete a => Sys2Proof.Machine.execWakeLoadComplete a s
  | .exchangeFront a => Sys2Proof.Machine.execExchangeFront a s
  | .tileWatchdog a => Sys2Proof.Machine.execTileWatchdog a s
  | .epilogueStart a east => Sys2Proof.Machine.execEpilogueStart a east s
  | .epilogueComplete a east => Sys2Proof.Machine.execEpilogueComplete a east s
  | .feederStep a feeder => Sys2Proof.Machine.execFeederStep a feeder s
  | .emptyMark a => Sys2Proof.Machine.execEmptyMark a s
  | .landingSlotReady a feeder => Sys2Proof.Machine.execLandingSlotReady a feeder s
  | .landingSlotReturn a feeder => Sys2Proof.Machine.execLandingSlotReturn a feeder s
  | .prefetchFill d line => Sys2Proof.Machine.execPrefetchFill d line s
  | .prefetchIssue d desc => Sys2Proof.Machine.execPrefetchIssue d desc s
  | .lineTake d line desc => Sys2Proof.Machine.execLineTake d line desc s
  | .gather g => Sys2Proof.Machine.execGather g s
  | .scatter g => Sys2Proof.Machine.execScatter g s
  | .dispatch g => Sys2Proof.Machine.execDispatch g s
  | .dispatchComplete g => Sys2Proof.Machine.execDispatchComplete g s
  | .count p => Sys2Proof.Machine.execCount p s
  | .admitCounts p => Sys2Proof.Machine.execAdmitCounts p s
  | .row p => Sys2Proof.Machine.execRow p s
  | .return_ p => Sys2Proof.Machine.execReturn p s
  | .dropMark p => Sys2Proof.Machine.execDropMark p s
  | .handoff g => Sys2Proof.Machine.execHandoff g s
  | .handoffReceive p => Sys2Proof.Machine.execHandoffReceive p s
  | .fold g => Sys2Proof.Machine.execFold g s
  | .atomic q => Sys2Proof.Machine.execAtomic q s
  | .hbmRequestAccept stack q => Sys2Proof.Machine.execHbmRequestAccept stack q s
  | .hbmSlotGrant stack q => Sys2Proof.Machine.execHbmSlotGrant stack q s
  | .hbmReadComplete stack q e => Sys2Proof.Machine.execHbmReadComplete stack q e s
  | .scrubRead addr e => Sys2Proof.Machine.execScrubRead addr e s
  | .scrubIntervalEnd stack => Sys2Proof.Machine.execScrubIntervalEnd stack s
  | .inOrderAccess c => Sys2Proof.Machine.execInOrderAccess c s
  | .ddr5Scrub => Sys2Proof.Machine.execDdr5Scrub s
  | .flashReadRelocate block => Sys2Proof.Machine.execFlashReadRelocate block s
  | .flashWearRelocate block => Sys2Proof.Machine.execFlashWearRelocate block s
  | .flashProgramFail block => Sys2Proof.Machine.execFlashProgramFail block s
  | .copy engine => Sys2Proof.Machine.execCopy engine s
  | .create engine => Sys2Proof.Machine.execCreate engine s
  | .seal engine => Sys2Proof.Machine.execSeal engine s
  | .release engine => Sys2Proof.Machine.execRelease engine s
  | .recordComplete engine => Sys2Proof.Machine.execRecordComplete engine s
  | .landingFill engine => Sys2Proof.Machine.execLandingFill engine s
  | .alloc a => Sys2Proof.Machine.execAlloc a s
  | .close a => Sys2Proof.Machine.execClose a s
  | .open_ a => Sys2Proof.Machine.execOpen a s
  | .free a => Sys2Proof.Machine.execFree a s
  | .spillDone ctx stash => Sys2Proof.Machine.execSpillDone ctx stash s
  | .stashTimeout ctx stash => Sys2Proof.Machine.execStashTimeout ctx stash s
  | .spanFlitReplay r => Sys2Proof.Machine.execSpanFlitReplay r s
  | .spanHung east => Sys2Proof.Machine.execSpanHung east s
  | .windowAccess a w => Sys2Proof.Machine.execWindowAccess a w s
  | .bankWindowServe a => Sys2Proof.Machine.execBankWindowServe a s
  | .linkTrained p => Sys2Proof.Machine.execLinkTrained p s
  | .handshake p h => Sys2Proof.Machine.execHandshake p h s
  | .flitSend p => Sys2Proof.Machine.execFlitSend p s
  | .flitReceive p f => Sys2Proof.Machine.execFlitReceive p f s
  | .retryTimeout p => Sys2Proof.Machine.execRetryTimeout p s
  | .retrainTimeout p => Sys2Proof.Machine.execRetrainTimeout p s
  | .down p => Sys2Proof.Machine.execDown p s
  | .alignmentLoss p => Sys2Proof.Machine.execAlignmentLoss p s
  | .drainTimeout p => Sys2Proof.Machine.execDrainTimeout p s
  | .packetRoute port => Sys2Proof.Machine.execPacketRoute port s
  | .ethernetFrameReceive p f => Sys2Proof.Machine.execEthernetFrameReceive p f s
  | .pfcPause p prio paused => Sys2Proof.Machine.execPfcPause p prio paused s
  | .bucketContribute plan bucket => Sys2Proof.Machine.execBucketContribute plan bucket s
  | .contrib p => Sys2Proof.Machine.execContrib p s
  | .slotFree plan bucket => Sys2Proof.Machine.execSlotFree plan bucket s
  | .credit p => Sys2Proof.Machine.execCredit p s
  | .updateChunk plan bucket => Sys2Proof.Machine.execUpdateChunk plan bucket s
  | .norm p => Sys2Proof.Machine.execNorm p s
  | .status p => Sys2Proof.Machine.execStatus p s
  | .abortReq p => Sys2Proof.Machine.execAbortReq p s
  | .tokenClip p => Sys2Proof.Machine.execTokenClip p s
  | .tokenCommit p => Sys2Proof.Machine.execTokenCommit p s
  | .tokenSkip p => Sys2Proof.Machine.execTokenSkip p s
  | .tokenAbort p => Sys2Proof.Machine.execTokenAbort p s
  | .gatherStart plan bucket => Sys2Proof.Machine.execGatherStart plan bucket s
  | .gatherReq p => Sys2Proof.Machine.execGatherReq p s
  | .gatherData p => Sys2Proof.Machine.execGatherData p s
  | .gatherScales p => Sys2Proof.Machine.execGatherScales p s
  | .bcastData p => Sys2Proof.Machine.execBcastData p s
  | .bcastScales p => Sys2Proof.Machine.execBcastScales p s
  | .powerEvaluation x => Sys2Proof.Machine.execPowerEvaluation x s
  | .railTargetReached die => Sys2Proof.Machine.execRailTargetReached die s
  | .capUnreachable => Sys2Proof.Machine.execCapUnreachable s
  | .capInNLow fromPin => Sys2Proof.Machine.execCapInNLow fromPin s
  | .boardHaltEnd => Sys2Proof.Machine.execBoardHaltEnd s
  | .throttleRise die => Sys2Proof.Machine.execThrottleRise die s
  | .hbmSensorRead stack temp => Sys2Proof.Machine.execHbmSensorRead stack temp s
  | .droopTrip a detector depthMv => Sys2Proof.Machine.execDroopTrip a detector depthMv s
  | .droopStretchEnd a => Sys2Proof.Machine.execDroopStretchEnd a s
  | .droopSummary a => Sys2Proof.Machine.execDroopSummary a s
  | .railWarning rail mv => Sys2Proof.Machine.execRailWarning rail mv s
  | .railRecover rail => Sys2Proof.Machine.execRailRecover rail s
  | .vwarn rail => Sys2Proof.Machine.execVwarn rail s
  | .railResetLevel rail => Sys2Proof.Machine.execRailResetLevel rail s
  | .pohHour => Sys2Proof.Machine.execPohHour s
  | .replan a r => Sys2Proof.Machine.execReplan a r s
  | .powerOn => Sys2Proof.Machine.execPowerOn s
  | .pwrOkLow => Sys2Proof.Machine.execPwrOkLow s
  | .perstNLow => Sys2Proof.Machine.execPerstNLow s
  | .functionLevelReset => Sys2Proof.Machine.execFunctionLevelReset s
  | .arrayReset a => Sys2Proof.Machine.execArrayReset a s
  | .portReset p => Sys2Proof.Machine.execPortReset p s
  | .hbmChannelReset stack channel => Sys2Proof.Machine.execHbmChannelReset stack channel s
  | .hbmRetrainTimeout stack channel => Sys2Proof.Machine.execHbmRetrainTimeout stack channel s
  | .functionReset => Sys2Proof.Machine.execFunctionReset s
  | .warmModuleReset => Sys2Proof.Machine.execWarmModuleReset s
  | .coldModuleReset => Sys2Proof.Machine.execColdModuleReset s
  | .resetStretchEnd straps pufOk => Sys2Proof.Machine.execResetStretchEnd straps pufOk s
  | .captureAbandon => Sys2Proof.Machine.execCaptureAbandon s
  | .arrayResetEscalate a => Sys2Proof.Machine.execArrayResetEscalate a s
  | .ferryWatchdog engine => Sys2Proof.Machine.execFerryWatchdog engine s
  | .gatherWatchdog g => Sys2Proof.Machine.execGatherWatchdog g s
  | .tierFerryWatchdog t => Sys2Proof.Machine.execTierFerryWatchdog t s
  | .creditWatchdog p => Sys2Proof.Machine.execCreditWatchdog p s
  | .cpHeartbeatWatchdog cp => Sys2Proof.Machine.execCpHeartbeatWatchdog cp s
  | .mpWatchdog => Sys2Proof.Machine.execMpWatchdog s
  | .hbmChannelWatchdog stack channel addr => Sys2Proof.Machine.execHbmChannelWatchdog stack channel addr s
  | .resetDone => Sys2Proof.Machine.execResetDone s
  | .hbmTrained die failed => Sys2Proof.Machine.execHbmTrained die failed s
  | .pldmFirmwareComponent c => Sys2Proof.Machine.execPldmFirmwareComponent c s
  | .setEndpointId e => Sys2Proof.Machine.execSetEndpointId e s
  | .getVersion => Sys2Proof.Machine.execGetVersion s
  | .getCapabilities => Sys2Proof.Machine.execGetCapabilities s
  | .negotiateAlgorithms => Sys2Proof.Machine.execNegotiateAlgorithms s
  | .getDigests => Sys2Proof.Machine.execGetDigests s
  | .getCertificate offset length => Sys2Proof.Machine.execGetCertificate offset length s
  | .challenge nonce => Sys2Proof.Machine.execChallenge nonce s
  | .getMeasurements index => Sys2Proof.Machine.execGetMeasurements index s
  | .statusUart => Sys2Proof.Machine.execStatusUart s
  | .level => Sys2Proof.Machine.execLevel s
  | .log => Sys2Proof.Machine.execLog s
  | .pcieConfigRequest r => Sys2Proof.Machine.execPcieConfigRequest r s
  | .atomicopRequest => Sys2Proof.Machine.execAtomicopRequest s
  | .bar4Access offset size data isWrite => Sys2Proof.Machine.execBar4Access offset size data isWrite s
  | .pcieLinkDown => Sys2Proof.Machine.execPcieLinkDown s
  | .pcieLinkUp flit speed width => Sys2Proof.Machine.execPcieLinkUp flit speed width s
  | .testLogicReset => Sys2Proof.Machine.execTestLogicReset s
  | .extest die => Sys2Proof.Machine.execExtest die s
  | .idcode die => Sys2Proof.Machine.execIdcode die s
  | .samplePreload die => Sys2Proof.Machine.execSamplePreload die s
  | .clamp die => Sys2Proof.Machine.execClamp die s
  | .highz die => Sys2Proof.Machine.execHighz die s
  | .extestPulse die => Sys2Proof.Machine.execExtestPulse die s
  | .extestTrain die => Sys2Proof.Machine.execExtestTrain die s
  | .bypass die opcode => Sys2Proof.Machine.execBypass die opcode s
  | .shadowComplete plan bucket => Sys2Proof.Machine.execShadowComplete plan bucket s
  | .stashRestoreDone ctx stash => Sys2Proof.Machine.execStashRestoreDone ctx stash s
  | .retrainDone p => Sys2Proof.Machine.execRetrainDone p s
  | .hbmChannelRetrained stack channel => Sys2Proof.Machine.execHbmChannelRetrained stack channel s
  | .pldmEventCollect => Sys2Proof.Machine.execPldmEventCollect s

end Sys2Proof.Machine
end

