-- ==== Sys2Proof/Machine/Ticks.lean ====
section
/-!
DEFINITION. What passes when no command waits: one reference period of 10 ns on the always-on counter, and the cycles of the other clocks in
it (R35, R40; log 1). Array counters advance with ARRAY_CYCLE.
-/
namespace Sys2Proof.Machine

/-- Cycles of a domain's clock in one reference period: hub 1.8 GHz, management 500 MHz, die networks 2.0 GHz, HBM controllers 1.6 GHz. -/
def cyclesPerPeriod (tag : Nat) : Nat :=
  match tag with
  | 1 => 18
  | 2 => 5
  | 3 | 4 => 20
  | 5 | 6 => 16
  | _ => 0

/-- Cycles of a domain's clock that begin in the present reference period: its nominal number, one more or one less, by a free choice, since
no two clocks have a phase or frequency relation (R35). -/
def State.cyclesNow (s : State) (tag : Nat) : Nat := cyclesPerPeriod tag - 1 + Config.clockPhase tag s.now % 3

/-- Advance one domain counter by one reference period. -/
def State.advance (s : State) (tag : Nat) : State :=
  { s with ctrs := Tab.modify (fun _ => (0 : BitVec 48)) s.ctrs tag fun c => c + BitVec.ofNat 48 (s.cyclesNow tag) }

/-- The no-progress counts of the ferries and gather engines (R547): a period in the middle of a record adds to it, one that a synchronisation wait,
a pre-emption or a power limit holds leaves it, and without a record it is 0. -/
def State.watchEngines (s : State) : State :=
  { s with engines := s.engines.foldl (fun (t : Tab Engine) eg =>
      let x := eg.2
      Tab.set (fun _ => Engine.reset) t eg.1
        (if s.engineBusy eg.1 then { x with noProg := x.noProg + 1 } else if x.work.isEmpty then { x with noProg := 0 } else x)) s.engines }

/-- The no-progress count of each array: a period with progress returns it to 0; one in which a tile is in flight, the clock runs, and the
stall cause is none of sync wait, power throttle and pre-emption adds to it (R94). -/
def State.watchArrays (s : State) : State :=
  { s with arrays := s.arrays.foldl (fun (t : Tab ArrayUnit) ax =>
      let x := ax.2
      let counts : Bool := x.tileInFlight && s.clockRuns ax.1 && x.cause != 6 && x.cause != 7 && x.cause != 8
      Tab.set (fun _ => ArrayUnit.reset) t ax.1
        (if x.progressed then { x with noProg := 0, progressed := false } else if counts then { x with noProg := x.noProg + 1 } else x)) s.arrays }

/-- The inputs here that have a chunk ready and no credit add the hub cycles of the period to RED_CNT.SLOT_WAIT_CYCLES (R450). -/
def State.watchCredits (s : State) : State :=
  let waits (b : Bucket) : Nat :=
    bit (b.sending.isSome && b.localCredits = 0) + bit (!b.isOwner && b.credits = 0 && b.nextOut.isSome)
  let n := s.red.plans.foldl (fun n e => match e.2 with | some p => p.listBuckets.foldl (fun n x => n + waits x.2) n | none => n) 0
  if n = 0 then s else s.countRed 0 (s.cyclesNow 1 * n)

/-! The cycles that ferries, gather engines and hub engines count (R252, R630). -/

/-- The clock of a ferry or gather engine: its die's network, or the hub of a tier ferry. -/
def engineClock (e : Nat) : Nat := if e < 0x10 then 3 + e / 8 else if e < 0x18 then 1 else 3 + (e - 0x18) / 2

/-- The ferries and gather engines count the cycles of the period. -/
def State.countEngines (s : State) : State :=
  (List.range 0x1C).foldl (fun s e =>
    let s := s.countStall (engineSource e) (s.engineCause e) (s.cyclesNow (engineClock e))
    if (s.engine e).moved then s.setEngine e { s.engine e with moved := false } else s) s

/-- Counter of hub engine `e` that has made no progress: a command processor with descriptors to fetch waits for them, or for room among the 32 taken
ahead; an update unit at work waits for the next chunk; the bucket sender and the nodes wait for credits or for chunks (log 34). -/
def State.hubCause (s : State) (e : Nat) : Nat :=
  let buckets := s.red.plans.flatMap fun q => match q.2 with | some p => p.listBuckets.map Prod.snd | none => []
  if s.tel.moved.contains e then 0
  else if e < 136 then
    let cp := e - 132
    if (s.candidates cp cp).isEmpty then 1 else if 32 ≤ s.ahead cp then 3 else 2
  else if e < 168 then (if s.unitState (e - 144) = 0 then 1 else 2)
  else if e = 168 then (if buckets.all fun b => b.sending.isNone then 1 else if buckets.any fun b => b.sending.isSome && b.localCredits == 0 then 3 else 2)
  else if buckets.all fun b => b.slots.all fun x => x.2.isNone then 1
  else if buckets.any fun b => !b.isOwner && b.credits == 0 && b.nextOut.isSome then 3 else 2

/-- The clock of hub engine `e`: an update unit counts cycles of its die's HBM controllers, the others hub cycles. -/
def hubClock (e : Nat) : Nat := if 144 ≤ e ∧ e < 168 then 5 + (e - 144) / 12 else 1

/-- The command processors, update units, bucket sender and nodes count the cycles of the period. -/
def State.countHub (s : State) : State :=
  let s := (([132, 133, 134, 135] ++ (List.range 26).map fun i => 144 + i).foldl (fun (s : State) e => s.countStall e (s.hubCause e) (s.cyclesNow (hubClock e))) s)
  { s with tel := { s.tel with moved := [] } }

/-- A draining port begins to train again once the packets of its receive buffer have left by other ports (R432). -/
def State.endDrains (s : State) : State := (List.range 16).foldl State.afterDrain s

/-- What is due in the step of an installed plan without a packet or a chunk that would bring it about: a member that neither contributes nor owns
anything reports all the same (R466, R476). -/
def State.pollPlans (s : State) : State := (List.range 16).foldl (fun (s : State) j => if (s.plan j).isSome then s.rounds j else s) s

/-- One reference period passes. The domains that a module reset holds do not count (R42), and RST_OUT_N rises once the hub has left reset and
2 ms have passed (R545). -/
def State.idle (s : State) : State :=
  let s := { s with now := s.now + 1 }
  if s.rst.active.isSome then s
  else
    let s := [1, 2, 3, 4, 5, 6].foldl State.advance s
    let began := match s.rst.recovering with | some r => r.at_ | none => 0
    let s := { s with pins := { s.pins with rstOutN := s.pins.rstOutN || decide (began + 200000 ≤ s.now) } }
    s.countEngines.countHub.watchEngines.watchArrays.watchCredits.freeWriteSlots.endDrains.endSmall.pollPlans

end Sys2Proof.Machine
end

