-- ==== Sys2Proof/Safety.lean ====
section
/-!
DEFINITION. What a safe run is: the module never stops, which by R598 it can only do once a boundary scan has driven its outputs. With it the
words in which statements speak of a command: when commands have their effect, when an admin request is served, and the frame, which is the
parts of the state that a command may change.
-/
namespace Sys2Proof

/-- A state from which a step stops with a fault. -/
def Stops (s : Machine.State) : Prop := ∃ f, Machine.step s = .fault f

/-- A state whose step goes on. -/
def Goes (s : Machine.State) : Prop := ∃ t, Machine.step s = .next t

/-- A run of `k` steps that stops nowhere. -/
def Safe (k : Nat) (s : Machine.State) : Prop := ∃ t, core.run k s = .next t

namespace Machine

/-- Commands have their effect: no boundary scan has driven the outputs (R598), and no module reset holds the module (R533). -/
def State.Live (s : State) : Prop := s.tap.used = false ∧ s.rst.active = none

/-- A request that comes over MCTP is for the module in this tray position; one that waits in the queue is always its own (R592). -/
def State.Addressed (s : State) (f : AdminFrom) : Prop := match f with | .queued => True | .mctp pos _ _ => pos.val = s.boot.trayPos.toNat

/-- The front admin request (a request over MCTP first joins the queue) asks for operation `op`, no earlier one is still at work, and it has passed
every check before the operation's own (R351, R575, R577): `u` is the state in which the operation acts, the request taken from the queue and,
but for OPEN_SESSION, its session's SEQ advanced. -/
def State.Serves (s : State) (f : AdminFrom) (op : Nat) (q : AdminReq) (u : State) : Prop :=
  s.Addressed f ∧ (s.arriveAdmin f).hif.adminQ.head? = some q ∧ q.op = op ∧ (s.arriveAdmin f).adminBusy = false ∧ (s.arriveAdmin f).lockedOut q.transport = false
    ∧ (op = 1 ∨ (s.arriveAdmin f).verifyFail q = none) ∧ q.descOk = true ∧ opAccepted op q.transport = true ∧ q.plen ≤ 4096
    ∧ u = if op = 1 then (s.arriveAdmin f).popAdmin else (s.arriveAdmin f).popAdmin.advanceSeq q

/-- The gather step with operation `op` that is due at the head of gather engine `e` (R248, R368): `u` is the state with that work at the head of
the engine, and `w` the work. Its header is in order. -/
def State.GatherDue (s : State) (e op : Nat) (w : Work) (u : State) : Prop :=
  u = s.turnWork e ∧ u.activeWork e = some w ∧ w.run.isSome = true ∧ u.stepDue w = true
    ∧ gatherOpOk op (fieldAt (u.rdN w.addr 16) 1 1) = true ∧ zeroAt (u.rdN w.addr 16) 0xA 6 = true ∧ fieldAt (u.rdN w.addr 16) 0 1 = op
    ∧ (if op = 0x20 ∨ op = 0x21 then 1 ≤ fieldAt (u.rdN w.addr 16) 4 4 ∧ fieldAt (u.rdN w.addr 16) 4 4 ≤ 4096 else fieldAt (u.rdN w.addr 16) 4 4 = 0)

/-- A token-dispatch packet has been delivered here for a dispatch of a live context (R422): `t` is the state with the packet taken, `c` the
context, `e` the engine and `d` the dispatch. -/
def State.ForDispatch (s : State) (p : Packet) (type : Nat) (f : Dispatch → Bool) (c e : Nat) (d : Dispatch) (t : State) : Prop :=
  p.vc = 5 ∧ p.type.toNat = type ∧ (∃ port, s.receiveIf s.inTurn p = some (port, t)) ∧ s.ctxLive p.ctx = some c
    ∧ t.findDispatch c f = some (e, d)

/-- The record that the work of ferry engine `e` stands at may go on, has operation `op` and is valid (R317, R320). -/
def State.RecordDue (s : State) (e op : Nat) (w : Work) (r : FerryRec) : Prop :=
  s.activeWork e = some w ∧ r = s.ferryRec (w.addr + 64 * w.pos) ∧ r.op = op ∧ s.recordOk e r = true

/-- Array `a` hands its next stash step, of operation `op`, to the tier controller (R328): `t` is the installed stash, `w` the step, and `u` the
state with the step taken from the array's list. -/
def State.StashDue (s : State) (a op : Nat) (t : Stash) (w : StashWait) (u : State) : Prop :=
  ∃ r b, s.runOnArray a = some r ∧ s.mayIssue a r = true ∧ (s.array a).stashPos < (s.array a).nstash
    ∧ b = s.rdN ((s.array a).stashList + 16 * (s.array a).stashPos) 16 ∧ fieldAt b 0 1 = op ∧ zeroAt b 8 8 = true
    ∧ s.stashOf r.ctx (fieldAt b 1 1) = some t
    ∧ w = { op := op, mb := BitVec.ofNat 32 (fieldAt b 4 4), sync := BitVec.ofNat 16 (fieldAt b 2 2), array := a, reason := 0 }
    ∧ u = s.setArray a { s.array a with stashPos := (s.array a).stashPos + 1 }

/-- A packet of a job has been delivered here on one of the channels `vcs` with type `type`, and its job's plan stands at place `j` (R441): `t` is the
state with the packet taken, and `q` the plan. -/
def State.ForJob (s : State) (p : Packet) (vcs : List Nat) (type : Nat) (j : Nat) (q : Plan) (t : State) : Prop :=
  vcs.contains p.vc.val = true ∧ p.type.toNat = type ∧ (∃ port, s.receive p = some (port, t)) ∧ s.planOfJob p.job.toNat = some (j, q)

/-- The boot state and the flash counters agree (R551, R562, R566, R567, R569): the running image's SVN is the one reported as running, and is not
below FW_SVN; CFG_VERSION is the version of the configuration record in use; the reset log holds at most 15 entries, and COUNT24 counts no more. -/
def State.BootSound (s : State) : Prop :=
  (∀ c, s.boot.image = some c → s.boot.fwSvnRunning = c.version ∧ s.flash.fwSvn.toNat ≤ c.version.toNat)
    ∧ (∀ c, s.boot.cfg = some c → s.flash.cfgVersion = c.version) ∧ s.flash.resetLog.length ≤ 15 ∧ s.flash.count24 ≤ 15

/-- The parts of the state, one for each field. -/
inductive Part where
  | pending
  | now
  | ctrs
  | fresh
  | out
  | mem
  | compat
  | deterministic
  | strapped
  | hif
  | sync
  | ctxs
  | runs
  | runSeq
  | tables
  | arrays
  | tel
  | dsc
  | hbm
  | tier
  | engines
  | chk
  | fab
  | red
  | upd
  | pwr
  | rst
  | flash
  | boot
  | sec
  | dbg
  | tap
  | spanW
  | spanE
  | eid
  | pldm
  | pins
  deriving DecidableEq, Repr

/-- A part is the same in two states. -/
def Part.Same (p : Part) (s t : State) : Prop :=
  match p with
  | .pending => t.pending = s.pending
  | .now => t.now = s.now
  | .ctrs => t.ctrs = s.ctrs
  | .fresh => t.fresh = s.fresh
  | .out => t.out = s.out
  | .mem => t.mem = s.mem
  | .compat => t.compat = s.compat
  | .deterministic => t.deterministic = s.deterministic
  | .strapped => t.strapped = s.strapped
  | .hif => t.hif = s.hif
  | .sync => t.sync = s.sync
  | .ctxs => t.ctxs = s.ctxs
  | .runs => t.runs = s.runs
  | .runSeq => t.runSeq = s.runSeq
  | .tables => t.tables = s.tables
  | .arrays => t.arrays = s.arrays
  | .tel => t.tel = s.tel
  | .dsc => t.dsc = s.dsc
  | .hbm => t.hbm = s.hbm
  | .tier => t.tier = s.tier
  | .engines => t.engines = s.engines
  | .chk => t.chk = s.chk
  | .fab => t.fab = s.fab
  | .red => t.red = s.red
  | .upd => t.upd = s.upd
  | .pwr => t.pwr = s.pwr
  | .rst => t.rst = s.rst
  | .flash => t.flash = s.flash
  | .boot => t.boot = s.boot
  | .sec => t.sec = s.sec
  | .dbg => t.dbg = s.dbg
  | .tap => t.tap = s.tap
  | .spanW => t.spanW = s.spanW
  | .spanE => t.spanE = s.spanE
  | .eid => t.eid = s.eid
  | .pldm => t.pldm = s.pldm
  | .pins => t.pins = s.pins

/-- Every part outside a list is the same in two states. -/
def ChangesOnly (l : List Part) (s t : State) : Prop := ∀ p, p ∉ l → p.Same s t

/-- An object but for where its blocks lie. -/
def Obj.apart (o : Obj) : Obj := { o with extents := [] }

end Machine

end Sys2Proof
end

