-- ==== Sys2Proof/Certificates/Slice0/Obligations.lean ====
section
/-!
DEFINITION. The statements for the provers. Throughout, a command has its effect in a live state: no boundary scan has driven the outputs (R598)
and no module reset holds the module (R533).
-/
open Sys2Proof Sys2Proof.Machine

/-- O1: MEM_HBM_ILV changes only while no context exists, MEM_SC_CFG only while no context and no plan exists (that another number of slices empties the shared cache is the model's choice, log 15), DEVCFG.COMPAT only without strap, ring and context, DEVCFG.DETERMINISTIC only without context; otherwise the write is ignored and the register keeps its value. Nothing else changes. A 32-bit access writes its half of the register. -/
def Obligations.bar0_setup_writes_only_while_unused : Prop :=
  ∀ (s : State) (w : BarWrite), s.Live → s.barLive = true →
    (s.contextExists = false → exec (.memHbmIlvWrite w) s = .next { s with hbm := { s.hbm with
        ilvAd0 := bitOf (mergeBar w (bar0Read s 0x200000)) 0, ilvAd1 := bitOf (mergeBar w (bar0Read s 0x200000)) 1 } }) ∧
    (s.contextExists = true → exec (.memHbmIlvWrite w) s = .next s) ∧
    (s.contextExists = false → s.planExists = false → ∃ t, exec (.memScCfgWrite w) s = .next t ∧
        t.hbm.ddrCache = bitOf (mergeBar w (bar0Read s 0x200018)) 8 ∧
        t.hbm.rslotSlices.toNat = min 16 (bits (mergeBar w (bar0Read s 0x200018)) 0 5) ∧
        (t.hbm.rslotSlices = s.hbm.rslotSlices → t.hbm.lines = s.hbm.lines ∧ t.dsc = s.dsc) ∧ (t.hbm.rslotSlices ≠ s.hbm.rslotSlices → t.hbm.lines = []) ∧
        t = { s with hbm := { s.hbm with ddrCache := t.hbm.ddrCache, rslotSlices := t.hbm.rslotSlices, lines := t.hbm.lines }, dsc := t.dsc }) ∧
    ((s.contextExists = true ∨ s.planExists = true) → exec (.memScCfgWrite w) s = .next s) ∧
    exec (.devcfgWrite w) s = .next { s with
        compat := if s.strapped ∨ s.ringExists ∨ s.contextExists then s.compat else bitOf (mergeBar w (bar0Read s 0x10)) 0,
        deterministic := if s.contextExists then s.deterministic else bitOf (mergeBar w (bar0Read s 0x10)) 1 }

/-- O2: PWR_CAP.WATTS is taken between 1,200 and MAX_W. ARRn_CLK.TARGET_MHZ is taken between 600 and 2,400 in steps of 25, and a lower frequency applies at once (the step of 25 and the place of the change are the model's reading, log 16). FAB_PORTp_VCBUF is taken only while the port is off or down and its total is at most 128. A route entry takes the value written. HIF_BAR4_WIN.BASE drops the bits below the BAR4 size. Nothing else changes. -/
def Obligations.bar0_power_fabric_and_window_writes : Prop :=
  ∀ (s : State) (w : BarWrite), s.Live → s.barLive = true →
    exec (.pwrCapWrite w) s = .next { s with pwr := { s.pwr with
        capW := BitVec.ofNat 16 (clampNat 1200 s.pwr.maxW.toNat (bits (mergeBar w (fld 32 16 s.pwr.maxW.toNat + s.pwr.capW.toNat)) 0 16)) } } ∧
    (∀ a : Fin 8, ∃ u, u = s.setArray a { s.array a with
          targetMhz := BitVec.ofNat 12 (clampNat 600 2400 (bits (mergeBar w (s.array a).targetMhz.toNat) 0 12) / 25 * 25) } ∧
        exec (.arrnClkWrite a w) s = .next (if u.arrayMhz a < (u.array a).curMhz.toNat
          then u.setArray a { u.array a with curMhz := BitVec.ofNat 12 (u.arrayMhz a) } else u)) ∧
    (∀ p : Fin 16, ∃ l : List Byte, l = (List.range 8).map (fun i => fieldBv 8 (mergeBar w (regVcbuf (s.port p))) (8 * i)) ∧
        exec (.fabPortVcbufWrite p w) s = .next (if ((s.port p).state = 0 ∨ (s.port p).state = 5) ∧ l.foldl (fun n b => n + b.toNat) 0 ≤ 128
          then s.setPort p { s.port p with alloc := l } else s)) ∧
    (∀ e : Fin 512, e.val < 256 → exec (.fabRouteWrite e w) s = .next { s with fab := { s.fab with
        groups := Tab.set (fun _ => 0) s.fab.groups e (fieldBv 16 (mergeBar w (Tab.get (fun _ => (0 : BitVec 16)) s.fab.groups e).toNat) 0) } }) ∧
    (∀ e : Fin 512, 256 ≤ e.val → exec (.fabRouteWrite e w) s = .next { s with fab := { s.fab with
        members := Tab.set (fun _ => 0) s.fab.members (e - 256)
          (fieldBv 16 (mergeBar w (Tab.get (fun _ => (0 : BitVec 16)) s.fab.members (e - 256)).toNat) 0) } }) ∧
    exec (.hifBar4WinWrite w) s = .next { s with hif := { s.hif with
        bar4Base := BitVec.ofNat 18 (bits (mergeBar w (regBar4 s.hif)) 30 18 / 2 ^ s.hif.bar4Log2Gib * 2 ^ s.hif.bar4Log2Gib) } }

/-- O3: A write of FAB_PORTp_CFG with a MODE other than 0 ends a hold of the port and begins training where the port is off or down, no reset holds it and firmware runs; with MODE 0 the port is off. Enabling an event ring restarts W and H at 0 and keeps LOST and HEADERR; a write of a ring that stays as it was leaves W and H. Enabling the admin ring restarts head and tail and clears a stop. DBG_CTL.ENABLE takes a 1 only with DEBUG and an open session, and ERR is cleared by a 1. -/
def Obligations.bar0_ports_rings_and_debug_writes : Prop :=
  ∀ (s : State) (w : BarWrite), s.Live → s.barLive = true →
    (∀ p : Fin 16, ∃ (x : Port) (u : State), x = (s.port p).takeCfg (mergeBar w (regPortCfg (s.port p))) ∧
        u = { s with rst := { s.rst with portHeld := BitVec.ofNat 16 (setBitOf s.rst.portHeld.toNat p false) } } ∧
        (s.flash.oos = false → x.mode ≠ 0 → exec (.fabPortCfgWrite p w) s = .next
          (if ((s.port p).state = 0 ∨ (s.port p).state = 5) ∧ s.boot.level ≠ 0 ∧ u.portStays p = false then (u.setPort p x).setPort p (x.train s.now) else u.setPort p x)) ∧
        ((s.flash.oos = true ∨ x.mode = 0) → ∃ v, v = (u.setPort p { x with mode := 0 }).portOff p ∧
          exec (.fabPortCfgWrite p w) s = .next (s.settle
            (if (v.port p).state = 4 then v else v.setPort p { v.port p with state := 0, trained := false })))) ∧
    (∀ n : Fin 16, ∃ (r : EvRing) (v : Nat), r = s.evring n ∧ v = mergeBar w (regEvcfg r) ∧
        (r.enable = true → exec (.hifEvcfgEnable n w) s = .next (s.setEvring n { r with
            coalUs := fieldBv 16 v 32, coalCount := fieldBv 8 v 24, vector := fieldBv 11 v 10, enable := bitOf v 0 })) ∧
        (r.enable = false → bitOf v 0 = true → ∃ t, exec (.hifEvcfgEnable n w) s = .next t ∧
          (n.val ≠ 0 → t = s.setEvring n { r with
            coalUs := fieldBv 16 v 32, coalCount := fieldBv 8 v 24, vector := fieldBv 11 v 10, sizeLog2 := BitVec.ofNat 4 (min 10 (fieldBv 4 v 1).toNat),
            enable := true, w := 0, h := 0, sinceIrq := 0, firstAt := none, dropping := false }))) ∧
    (s.hif.admin.enable = false → bitOf (mergeBar w (regAdminCfg s.hif.admin)) 0 = true → ∃ t, exec (.hifAdminEnable w) s = .next t ∧
        t.hif.admin.enable = true ∧ t.hif.admin.head = 0 ∧ t.hif.admin.tail = 0 ∧ t.hif.admin.stopped = false ∧
        t = { s with hif := { s.hif with admin := t.hif.admin } }) ∧
    (s.hif.admin.enable = true → exec (.hifAdminEnable w) s = .next { s with hif := { s.hif with
        admin := { s.hif.admin with enable := bitOf (mergeBar w (regAdminCfg s.hif.admin)) 0 } } }) ∧
    ∃ t, exec (.dbgEnableWrite w) s = .next t ∧ t = { s with dbg := { s.dbg with enable := t.dbg.enable, err := t.dbg.err } } ∧
        (s.dbg.enable = false → t.dbg.enable = true → s.anyOpen = true ∧ ∃ c, s.boot.cfg = some c ∧ bitOf c.flags.toNat 0 = true) ∧
        t.dbg.err = (s.dbg.err && !bitOf (onesOf w) 2)

/-- O4: A misaligned or odd-sized BAR0 read returns all ones and such a write does nothing; a read of HIF_EVCFGn returns it and clears LOST and HEADERR in the half that it reaches; a read of HIF_BAR4_WIN clears UNMAPPED in its half; SNAP copies every TEL_STALL counter and CLEAR clears every one, both ignored while BUSY; an offset without a register ignores writes; RST_WDOG takes its limits within their ranges; a check-value unit that is busy ignores writes; in D3hot nothing happens (log 16), and while a function reset runs a write does nothing and a read returns all ones. Nothing else changes. -/
def Obligations.bar0_reads_that_act_and_counters : Prop :=
  ∀ (s : State), s.Live →
    (∀ off size, badAccess off size = true → exec (.bar0BadAccess off size false) s = .next { s with out := .readData (BitVec.allOnes 64) :: s.out }) ∧
    (∀ off size, exec (.bar0BadAccess off size true) s = .next s) ∧
    (s.barLive = true → ∀ (n : Fin 16) (h : Half), exec (.evcfgReadClear n h) s = .next
      ({ s with out := .readData (halfOf h (regEvcfg (s.evring n))) :: s.out }.setEvring n { s.evring n with
        lost := if reaches h 48 then 0 else (s.evring n).lost, headErr := if reaches h 5 then 0 else (s.evring n).headErr })) ∧
    (s.barLive = true → ∀ h : Half, ∃ t, exec (.bar4WinReadClear h) s = .next t ∧ t.out = .readData (halfOf h (regBar4 s.hif)) :: s.out ∧
      t = { s with out := t.out, hif := { s.hif with unmapped := if reaches h 48 then 0 else s.hif.unmapped } }) ∧
    (s.barLive = true → s.tel.busy = false → exec .snap s = .next { s with tel := { s.tel with snap := s.tel.live } }) ∧
    (s.barLive = true → s.tel.busy = false → exec .clear s = .next { s with tel := { s.tel with live := [] } }) ∧
    (s.tel.busy = true → exec .snap s = .next s ∧ exec .clear s = .next s) ∧
    (∀ off w, off % 8 ≠ 0 → exec (.registerWrite off w) s = .next s) ∧
    (s.barLive = true → ∀ w, exec (.registerWrite 0x410008 w) s = .next { s with rst := { s.rst with
        cpEn := bitOf (mergeBar w (regRstWdog s.rst)) 63, ferryEn := bitOf (mergeBar w (regRstWdog s.rst)) 62,
        creditEn := bitOf (mergeBar w (regRstWdog s.rst)) 61,
        cpMs := BitVec.ofNat 16 (clampNat 10 60000 (bits (mergeBar w (regRstWdog s.rst)) 32 16)),
        creditMs := BitVec.ofNat 16 (atLeastOne (bits (mergeBar w (regRstWdog s.rst)) 16 16)),
        ferryMs := BitVec.ofNat 16 (atLeastOne (bits (mergeBar w (regRstWdog s.rst)) 0 16)) } }) ∧
    (s.barLive = false → ∀ off w, exec (.registerWrite off w) s = .next s) ∧
    (s.hif.d3hot = true → ∀ n h, exec (.evcfgReadClear n h) s = .next s ∧ exec (.bar4WinReadClear h) s = .next s) ∧
    (s.hif.d3hot = false → s.inFunctionReset = true → ∀ n h, exec (.evcfgReadClear n h) s = .next { s with out := .readData (BitVec.allOnes 64) :: s.out } ∧
      exec (.bar4WinReadClear h) s = .next { s with out := .readData (BitVec.allOnes 64) :: s.out })

/-- O5: COAL_US after the first record since the last interrupt the ring's vector is raised and the count restarts; unmasking a vector sends the message that waits; a debug read returns the eight bytes at DBG_ADDR and a debug write stores eight, after which the address advances by 8; one of HBM comes to the in-order path of its stack and is in progress until it is served there; one that meets an unmapped address sets ERR, changes no memory and reads as all ones (that the address advances then too is the model's choice, log 16); while one is in progress the others wait in arrival order; while ENABLE is 0 a read returns all ones and a write does nothing. -/
def Obligations.interrupts_and_debug_accesses : Prop :=
  ∀ (s : State), s.Live →
    (∀ (n : Fin 16) (x : Nat), (s.evring n).firstAt = some x → (s.evring n).coalUs ≠ 0 → (s.evring n).sinceIrq ≠ 0 →
      x + 100 * (s.evring n).coalUs.toNat ≤ s.now → exec (.eventCoalTimeout n) s =
        .next ((s.setEvring n { s.evring n with sinceIrq := 0, firstAt := none }).msix (s.evring n).vector.toNat)) ∧
    (∀ v : Fin 2048, Tab.rising s.hif.msix = true → s.hif.up = true → s.hif.functionMask = false →
      (Tab.get (fun _ => MsixEntry.reset) s.hif.msix v).pending = true → ∃ t, exec (.msixUnmask (.vector v)) s = .next t ∧
        t.out = .msix v :: s.out ∧ (Tab.get (fun _ => MsixEntry.reset) t.hif.msix v).pending = false ∧
        (Tab.get (fun _ => MsixEntry.reset) t.hif.msix v).masked = false ∧
        t = { s with out := t.out, hif := { s.hif with msix := t.hif.msix } }) ∧
    (s.barLive = true → s.dbg.enable = true → s.dbg.busy = false → s.dbg.waiting = [] → s.dbg.space = false → ∀ a, a = 8 * s.dbg.addr.toNat →
      (s.mappedRange a 8 = true → region a ≠ 3 → isHbm a = false → s.bankBusy a = false →
        (s.poisonIn a 8 = false → exec .dbgDataRead s = .next { s with
          out := .readData (BitVec.ofNat 64 (s.rdLe a 8)) :: s.out, dbg := { s.dbg with addr := s.dbg.addr + 1 } }) ∧
        (s.objAt a 8 = none → ∀ v, ∃ t, exec (.dbgDataWrite v) s = .next t ∧ t.mem = (s.storeLe a 8 v.toNat).mem ∧
          t.dbg = { s.dbg with addr := s.dbg.addr + 1 } ∧ ChangesOnly [.mem, .hif, .out, .pldm, .pins, .hbm, .flash, .dsc, .dbg] s t)) ∧
      (s.mappedRange a 8 = true → isHbm a = true →
        (s.fenced false a 8 = false → exec .dbgDataRead s = .next (s.settle
          (State.acceptInOrder { s with dbg := { s.dbg with busy := true } } ⟨a, [], 8, false, dbgTag⟩))) ∧
        (s.fenced true a 8 = false → s.objAt a 8 = none → ∀ v : DWord, exec (.dbgDataWrite v) s = .next (s.settle
          (State.acceptInOrder { s with dbg := { s.dbg with busy := true } } ⟨a, leBytes 8 v.toNat, 8, true, dbgTag⟩)))) ∧
      (s.mappedRange a 8 = false → ∀ v, exec (.dbgDataWrite v) s = .next { s with dbg := { s.dbg with err := true, addr := s.dbg.addr + 1 } } ∧
        exec .dbgDataRead s = .next { s with
          out := .readData (BitVec.allOnes 64) :: s.out, dbg := { s.dbg with err := true, addr := s.dbg.addr + 1 } })) ∧
    (s.barLive = true → s.dbg.busy = true →
      exec .dbgDataRead s = .next { s with dbg := { s.dbg with waiting := s.dbg.waiting ++ [none] } } ∧
      ∀ v, exec (.dbgDataWrite v) s = .next { s with dbg := { s.dbg with waiting := s.dbg.waiting ++ [some v] } }) ∧
    (s.barLive = true → s.dbg.enable = false → s.dbg.busy = false → s.dbg.waiting = [] →
      exec .dbgDataRead s = .next { s with out := .readData (BitVec.allOnes 64) :: s.out } ∧ ∀ v, exec (.dbgDataWrite v) s = .next s)

/-- O6: A doorbell of 8 bytes at the start of its page sets the tail of its ring after the host's own writes; on a ring that does not exist or is stopped, or with another size or place, only the host's writes stand; a tail that overfills the ring or sets upper bits stops the ring and raises DESCRIPTOR_INVALID. The admin ring's doorbell does the same while the admin ring is enabled. A head write releases records, ends dropping once two slots are free, and a bad one only counts in HEADERR. -/
def Obligations.doorbells_and_head_writes : Prop :=
  ∀ (s : State) (v : DWord) (host : List HostWrite), s.Live → s.hif.up = true → s.hif.d3hot = false →
    (∀ (ring : Fin 256) (r : Ring), s.ring ring = some r → r.stopped = false → doorbellBad r.head r.slots v = false →
      exec (.doorbell ring 0 8 v host) s = .next ((s.hostWrites host).setRing ring (some { r with tail := BitVec.ofNat 32 v.toNat }))) ∧
    (∀ (ring : Fin 256) (r : Ring), s.ring ring = some r → r.stopped = false → doorbellBad r.head r.slots v = true →
      ∃ t, exec (.doorbell ring 0 8 v host) s = .next t ∧
        t = (((s.hostWrites host).setRing ring (some { r with stopped := true })).doorbellError ⟨ring, r.head⟩) ∧
        ChangesOnly [.mem, .hif, .out, .pldm, .pins, .fresh] s t) ∧
    (∀ (ring : Fin 256) (off n : Nat), (off ≠ 0 ∨ n ≠ 8 ∨ s.ring ring = none ∨ ∃ r, s.ring ring = some r ∧ r.stopped = true) →
      exec (.doorbell ring off n v host) s = .next (s.hostWrites host)) ∧
    (s.hif.admin.enable = true → s.hif.admin.stopped = false → doorbellBad s.hif.admin.head s.hif.admin.slots v = false →
      exec (.adminDoorbell 0 8 v host) s = .next { s.hostWrites host with hif := { s.hif with
        admin := { s.hif.admin with tail := BitVec.ofNat 32 v.toNat } } }) ∧
    (∀ off n, (off ≠ 0 ∨ n ≠ 8 ∨ s.hif.admin.enable = false ∨ s.hif.admin.stopped = true) →
      exec (.adminDoorbell off n v host) s = .next (s.hostWrites host)) ∧
    (∀ n : Fin 16, (s.evring n).enable = true → headBad (s.evring n) v = false → exec (.eventHeadWrite n 0 8 v) s =
      .next (s.setEvring n { s.evring n with
        h := BitVec.ofNat 32 v.toNat
        dropping := (s.evring n).dropping && decide ((s.evring n).slots - ((s.evring n).w - BitVec.ofNat 32 v.toNat).toNat < 2) })) ∧
    (∀ n : Fin 16, (s.evring n).enable = true → headBad (s.evring n) v = true → exec (.eventHeadWrite n 0 8 v) s =
      .next (s.setEvring n { s.evring n with headErr := satInc (s.evring n).headErr })) ∧
    (∀ (n : Fin 16) off k, (off ≠ 0 ∨ k ≠ 8 ∨ (s.evring n).enable = false) → exec (.eventHeadWrite n off k v) s = .next s)

/-- O7: A fetch takes the descriptor at the head of the ring that is due, advances the head, writes the head count to memory and validates; 32 commands taken ahead hold it, and the admin ring is fetched only while it is enabled and not stopped. The next command of a ring starts once its wait count is taken, a FENCE first waits for every earlier command. A started RUN binds its image once, a started FERRY joins its engine's work once. A performed command that is no wait completes with its own status, and a RUN when all its work is over. -/
def Obligations.fetch_start_and_completion : Prop :=
  ∀ (s : State), s.Live →
    (s.hif.up = true → s.hif.d3hot = false → ∀ cp : Fin 4,
      (32 ≤ s.ahead cp → exec (.commandFetch (.rings cp)) s = .next { s with hif := { s.hif with
        cps := Tab.set (fun _ => CmdProc.reset) s.hif.cps cp { Tab.get (fun _ => CmdProc.reset) s.hif.cps cp with heartbeat := s.now } } }) ∧
      (∀ n x r, s.ahead cp < 32 → s.nextRing cp = some (n, x) → s.ring n = some r → ∃ t, exec (.commandFetch (.rings cp)) s = .next t ∧
        t = (State.fetchRing { s with hif := { s.hif with cps := Tab.set (fun _ => CmdProc.reset) s.hif.cps cp { x with heartbeat := s.now } } } n r).hubMoved (132 + cp) ∧
        ChangesOnly [.mem, .hif, .out, .pldm, .pins, .sync, .tables, .tel] s t)) ∧
    (s.hif.up = true → s.hif.d3hot = false → s.hif.admin.enable = true → s.hif.admin.stopped = false → s.hif.admin.head ≠ s.hif.admin.tail →
      exec (.commandFetch .admin) s = .next s.fetchAdmin ∧ s.fetchAdmin.hif.admin.head = s.hif.admin.head + 1 ∧
      ChangesOnly [.mem, .hif] s s.fetchAdmin) ∧
    (∀ ring c first, ring < 256 → s.startCandidate ring = some (c, first) → (bitOf c.flags 1 = true → first = true) →
      ∃ u, u = s.takeWaitobj c ∧
        (∀ x, u.cmd c.key = some x → x.taken = true → exec (.commandStart ring) s = .next (s.settle (u.startNow x))) ∧
        (∀ x, u.cmd c.key = some x → x.taken = false → exec (.commandStart ring) s = .next u)) ∧
    (∀ k c r u, s.cmd k = some c → s.runOf k = some r → c.cls = 0 → c.phase = .started → r.bound = false →
      State.installStashes r r.nbind 0 s = (true, u) → ∃ v, v = u.updRun k (fun q => { q with bound := true, frozen := u.frozenBindings r }) ∧
      exec (.run k) s = .next (s.settle (if r.phase = .granted ∧ r.restoring = 0 then v.loadPrograms r else v))) ∧
    (∀ k c, s.cmd k = some c → c.cls = 1 → c.phase = .started → (s.engines.any fun g => g.2.work.any fun w => w.cmd == some k) = false →
      exec (.ferry k) s = .next (s.settle (s.addWork (c.fld 0x0A 1) ⟨c.fld 0 8, c.fld 8 2, 0, c.ctx, none, some k, engineArray (c.fld 0x0A 1),
        BitVec.ofNat 64 (c.fld 0x10 8), BitVec.ofNat 32 (c.fld 0x18 4), 0, false, false, false, false, 0, 0⟩).arrange)) ∧
    (∀ k c, s.cmd k = some c → c.cls ≠ 0 → c.phase = .performed → (c.cls = 2 → syncWaiting c.syncOp = false) →
      ∃ t, exec (.commandDone k) s = .next t ∧ t = s.complete c c.status c.result c.gen ∧
        ChangesOnly [.mem, .hif, .out, .pldm, .pins, .sync, .tables] s t) ∧
    (∀ k c r, s.cmd k = some c → c.cls = 0 → s.runOf k = some r → s.runOver r = true →
      exec (.commandDone k) s = .next (s.settle (((s.measure r).endRun r).complete c 0 0 0)))

/-- O8: On an object that nobody waits on, an engine's SIGNAL n adds n, or leaves 0xFFFFFFFF and SAT where the sum exceeds 32 bits; SET replaces the count and clears SAT; a WAIT n whose count is there completes at once and takes n, a WAIT_GE n completes at once and takes nothing, and a wait whose count is not there joins the queue. Every other object, and every other part of the module, is unchanged. (That a wait of an engine is named by the model's counter of free values is the model's own, log 3.) -/
def Obligations.sync_objects_count_and_wait : Prop :=
  ∀ (s : State) (o : Fin 16384) (n : Word), s.Live → Tab.rising s.sync.objs = true → (s.obj o).queue = [] →
    (∃ t, exec (.signal (.engine o n)) s = .next t ∧ ChangesOnly [.sync] s t ∧ t.sync.done = s.sync.done ∧ (∀ p, o.val ≠ p → t.obj p = s.obj p) ∧
      t.obj o = (if (s.obj o).count.toNat + n.toNat < 2 ^ 32 then { s.obj o with count := (s.obj o).count + n }
        else { s.obj o with count := 0xFFFFFFFF, sat := true })) ∧
    (∃ t, exec (.set (.engine o n)) s = .next t ∧ ChangesOnly [.sync] s t ∧ t.sync.done = s.sync.done ∧ (∀ p, o.val ≠ p → t.obj p = s.obj p) ∧
      t.obj o = { s.obj o with count := n, sat := false }) ∧
    (n.toNat ≤ (s.obj o).count.toNat → ∃ t, exec (.wait (.engine o n)) s = .next t ∧ ChangesOnly [.sync, .fresh] s t ∧
      t.sync.done = s.sync.done ++ [.engine s.fresh] ∧ (∀ p, o.val ≠ p → t.obj p = s.obj p) ∧
      t.obj o = { s.obj o with count := (s.obj o).count - n }) ∧
    (n.toNat ≤ (s.obj o).count.toNat → ∃ t, exec (.waitGe (.engine o n)) s = .next t ∧ ChangesOnly [.sync, .fresh] s t ∧
      t.sync.done = s.sync.done ++ [.engine s.fresh] ∧ (∀ p, t.obj p = s.obj p)) ∧
    ((s.obj o).count.toNat < n.toNat → ∃ t, exec (.wait (.engine o n)) s = .next t ∧ ChangesOnly [.sync, .fresh] s t ∧
      t.sync.done = s.sync.done ∧ (∀ p, o.val ≠ p → t.obj p = s.obj p) ∧
      t.obj o = { s.obj o with queue := [⟨.engine s.fresh, n, true⟩] })

/-- O9: A started SYNC command applies its operation to every listed object in list order and is then performed: SIGNAL signals, SET writes N[0] + 65,536 × N[1], a wait joins every queue at once, REMOTE_SIGNAL sends one packet for each object. A wait that has not completed TIMEOUT_US after its start completes with STATUS 1. A received remote signal whose context lives here adds its count, where no older one of the same sender to the same object still waits. A sync step of an array signals or sets its object once every write for the tiles before it has been accepted. -/
def Obligations.sync_commands_apply_their_operation : Prop :=
  ∀ (s : State), s.Live →
    (∀ k c, s.syncCmd k 1 = some c → exec (.signal (.cmd k)) s = .next (s.settle (State.performed
      ((List.range c.nobj).foldl (fun (s : State) j => s.signalRel c.ctx (c.syncObj j) (BitVec.ofNat 32 (c.syncN j))) s) k))) ∧
    (∀ k c o, s.syncCmd k 5 = some c → s.objOf c.ctx (c.syncObj 0) = some o →
      exec (.set (.cmd k)) s = .next ((s.performed k).setSync o (BitVec.ofNat 32 (c.syncN 0 + 65536 * c.syncN 1)))) ∧
    (∀ k c, s.syncCmd k 2 = some c → exec (.wait (.cmd k)) s = .next ((s.performed k).enqueue (s.syncWaits c true false))) ∧
    (∀ k c, s.syncCmd k 3 = some c → exec (.waitGe (.cmd k)) s = .next ((s.performed k).enqueue (s.syncWaits c false false))) ∧
    (∀ k c, s.syncCmd k 4 = some c → exec (.waitAny k) s = .next ((s.performed k).enqueue (s.syncWaits c true true))) ∧
    (∀ k c, s.syncCmd k 6 = some c → exec (.remoteSignal k) s = .next (s.settle (State.performed ((List.range c.nobj).foldl (fun (s : State) j =>
      s.inject (s.remotePacket (c.fld 2 2) (c.fld 4 2) (c.syncObj j) (BitVec.ofNat 32 (c.syncN j)))) s) k))) ∧
    (∀ k c, s.cmd k = some c → c.cls = 2 → (c.syncOp = 2 ∨ c.syncOp = 3 ∨ c.syncOp = 4) → c.phase ≠ .fetched → c.timeoutUs ≠ 0 →
      c.startedAt + 100 * c.timeoutUs ≤ s.now → s.waitOver c = false → ∃ t, exec (.syncWaitTimeout k) s = .next t ∧
        t = s.complete c 1 (if c.syncOp = 4 then 0 else maskOf (s.waitsDone c)) 0 ∧ ChangesOnly [.mem, .hif, .out, .pldm, .pins, .sync, .tables] s t) ∧
    (∀ p port u c o, p.vc = 7 → p.type = 1 →
      (∀ e ∈ s.fab.inbox.takeWhile (fun e => e.2 != p), ¬ (e.2.vc = 7 ∧ e.2.type = 1 ∧ e.2.src = p.src ∧ e.2.ctx = p.ctx ∧
        e.2.arg.toNat % 65536 = p.arg.toNat % 65536)) →
      s.receive p = some (port, u) → u.ctxLive p.ctx = some c → u.objOf c (p.arg.toNat % 65536) = some o →
      exec (.remoteSignalReceive p) s = .next (s.settle (u.signal o (BitVec.ofNat 32 (p.arg.toNat / 2 ^ 32))))) ∧
    (∀ (a : Fin 8) r st o, s.runOnArray a = some r → s.mayIssue a r = true → (s.array a).syncPos < (s.array a).nsync →
      st = s.syncStepAt (s.array a) (s.array a).syncPos → st.nobj = 1 → s.stepObjs r.ctx st = some [o] →
      s.writesDone a (s.syncPosAt (s.array a) (s.array a).syncPos) r = true →
        (st.op = 1 → exec (.syncStep a) s = .next ((s.signal o st.n).syncNext a)) ∧
        (st.op = 5 → exec (.syncStep a) s = .next ((s.setSync o st.n).syncNext a)))

/-- O10: A started HINT of kind 0 or 1 is performed and comes into force with its lead, duration, arrays and watts; a HINT of kind 2 takes its arrays out of the hints in force; while the floor timer runs a hint is performed without that effect. HINT_LAPSE ends the hints whose LEAD_US + DURATION_US + 100 us have passed. LOADHINT_N is low exactly while a compute-heavy hint is in force. Nothing else changes. -/
def Obligations.hints_come_into_force_and_lapse : Prop :=
  ∀ (s : State), s.Live →
    (∀ k c, s.cmd k = some c → c.cls = 3 → c.phase = .started → s.pwr.floor = false → ∃ h : HintInForce,
      h = { at_ := s.now, leadUs := c.fld 0 2, durUs := c.fld 2 4, arrays := BitVec.ofNat 8 (c.fld 6 1), kind := c.fld 7 1, watts := c.fld 8 2 } ∧
      (c.fld 7 1 = 0 → exec (.hintComputeHeavy k) s = .next { s.performed k with
        pwr := { s.pwr with hints := s.pwr.hints ++ [h] }, pins := { s.pins with loadHintN := false } }) ∧
      (c.fld 7 1 = 1 → exec (.hintMemoryHeavy k) s = .next { s.performed k with
        pwr := { s.pwr with hints := s.pwr.hints ++ [h] }, pins := { s.pins with loadHintN := !(s.pwr.hints.any fun h => h.kind == 0) } }) ∧
      (c.fld 7 1 = 2 → exec (.hintEnd k) s = .next { s.performed k with
        pwr := { s.pwr with hints := endHints (BitVec.ofNat 8 (c.fld 6 1)) s.pwr.hints }
        pins := { s.pins with loadHintN := !((endHints (BitVec.ofNat 8 (c.fld 6 1)) s.pwr.hints).any fun h => h.kind == 0) } })) ∧
    (∀ k c i, s.cmd k = some c → c.cls = 3 → c.phase = .started → s.pwr.floor = true → c.fld 7 1 < 3 →
      i = [Instr.hintComputeHeavy k, .hintMemoryHeavy k, .hintEnd k].getD (c.fld 7 1) (.hintEnd k) →
      exec i s = .next { s.performed k with pins := { s.pins with loadHintN := !(s.pwr.hints.any fun h => h.kind == 0) } }) ∧
    ∃ l, l = s.pwr.hints.filter (fun h => decide (s.now < h.at_ + 100 * (h.leadUs + h.durUs + 100))) ∧
      exec .hintLapse s = .next { s with pwr := { s.pwr with hints := l }, pins := { s.pins with loadHintN := !(l.any fun h => h.kind == 0) } }

/-- O11: TABLE INSTALL copies the table of a table that neither runs nor stops; TABLE START of an installed table records the count of the next reference period as S and begins releases; an entry is released at S + p x PERIOD + OFFSET; TABLE STOP ends releases, drops what has not started and is performed once no started one is left; a table command whose condition no longer holds completes with STATUS 5 (the model's choice, log 24). A released entry whose previous one lets it and whose RUN is fetched starts as a command does, and one that has not completed BUDGET after its start is counted and reported once. -/
def Obligations.cyclic_tables_install_start_release_and_stop : Prop :=
  ∀ (s : State), s.Live →
    (∀ k c, s.opCmd k 4 1 = some c → (s.table (c.fld 1 1)).state < 2 → exec (.tableInstall k) s = .next (State.performed
      (s.setTable (c.fld 1 1) { s.table (c.fld 1 1) with
        state := 1, period := s.rdLe (c.fld 8 8) 4, prio := s.rdLe (c.fld 8 8 + 4) 1, insts := [], stopCmd := none
        entries := (List.range (c.fld 2 2)).map fun i => tableEntryOf (s.rdN (c.fld 8 8 + 32 + 32 * i) 32) }) k)) ∧
    (∀ k c, s.opCmd k 4 2 = some c → (s.table (c.fld 1 1)).state = 1 → exec (.tableStart k) s = .next (State.performed
      (s.setTable (c.fld 1 1) { s.table (c.fld 1 1) with
        state := 2, s := BitVec.ofNat 48 (s.now + 1), startNow := s.now + 1, nextEntry := 0, nextPeriod := 0, insts := [], periods := 0
        stopCmd := none }) k)) ∧
    (∀ k c, s.opCmd k 4 1 = some c → 2 ≤ (s.table (c.fld 1 1)).state → exec (.tableInstall k) s = .next (s.settle (s.complete c 5 0 0))) ∧
    (∀ k c, s.opCmd k 4 2 = some c → (s.table (c.fld 1 1)).state ≠ 1 → exec (.tableStart k) s = .next (s.settle (s.complete c 5 0 0))) ∧
    (∀ k c, s.opCmd k 4 3 = some c → (s.table (c.fld 1 1)).state = 2 → ∃ t, exec (.tableStop k) s = .next t ∧ t = s.stopTable (c.fld 1 1) (some k) ∧
      ChangesOnly [.mem, .hif, .out, .pldm, .pins, .sync, .tables] s t) ∧
    (∀ k c, s.opCmd k 4 3 = some c → (s.table (c.fld 1 1)).state < 2 → exec (.tableStop k) s = .next (s.performed k)) ∧
    (∀ t : Fin 8, (s.table t).state = 2 → (s.table t).entries ≠ [] → (s.table t).nextRelease ≤ s.now → ∃ u, exec (.tableEntryRelease t) s = .next u ∧
      ChangesOnly [.tables] s u ∧ ((∀ q, t.val ≠ q → u.table q = s.table q)) ∧ (Tab.rising s.tables = true → (u.table t).insts = (s.table t).insts ++
        [⟨(s.table t).nextEntry, (s.table t).nextPeriod, (s.table t).nextRelease, none, false⟩])) ∧
    (∀ (t : Fin 8) i e c, (s.table t).insts.find? (fun i => i.started.isNone) = some i → (s.table t).entries[i.entry]? = some e → (s.table t).state = 2 →
      (s.table t).clear i e.arrays = true → s.cmd ⟨0x200 + t.val, instanceCount i⟩ = some c →
      exec (.tableEntryStart t) s = .next (s.settle (s.startInstance t i c))) ∧
    (∀ (t : Fin 8) i e at_, (s.table t).insts.find? (fun i => match i.started, (s.table t).entries[i.entry]? with
        | some at_, some e => !i.overrun && decide (at_ + e.budget ≤ s.now) | _, _ => false) = some i → i.started = some at_ →
      (s.table t).entries[i.entry]? = some e → ∃ u, exec (.slotOverrun t) s = .next u ∧ ChangesOnly [.tables, .mem, .hif, .out, .pldm, .pins] s u ∧
        (Tab.rising s.tables = true → (u.table t).overruns = satInc (s.table t).overruns))

/-- O12: CTX CREATE whose identifier, objects and partitions are still free makes the context exist, idle, with the next generation and its parameter block, and completes with that generation. CTX SAVE, once no RUN of the context is started, writes each reserved partition to its image in the context's save slot, releases the partitions, and the context is saved. CTX RESTORE of a saved context takes its partitions back and copies the images in; where another context has taken an overlapping partition it completes with STATUS 2 and the context stays saved. A CREATE whose identifier is taken completes with STATUS 5 (the model's choice, log 24). Nothing else changes. -/
def Obligations.contexts_are_created_saved_and_restored : Prop :=
  ∀ (s : State), s.Live →
    (∀ k c x, s.opCmd k 5 1 = some c →
      x = ctxOfBlock c.block (s.sessionOfRing k.ring) (c.fld 2 2) (c.fld 4 2) (c.fld 1 1) →
      (s.ctx c.ctx).state = 0 → s.objsTaken x.syncBase x.syncCount = false → s.partitionTaken x c.ctx = false →
      ∃ t y, y = { x with state := 1, gen := (s.ctx c.ctx).gen + 1, holdsPart := true } ∧ exec (.ctxCreate k) s = .next t ∧
        t = (s.setCtx c.ctx y).complete c 0 0 ((s.ctx c.ctx).gen + 1).toNat ∧ (Tab.rising s.ctxs = true → t.ctx c.ctx = y) ∧
        ChangesOnly [.ctxs, .mem, .hif, .out, .pldm, .pins, .sync, .tables] s t) ∧
    (∀ k c, s.opCmd k 5 1 = some c → (s.ctx c.ctx).state ≠ 0 → exec (.ctxCreate k) s = .next (s.complete c 5 0 0)) ∧
    (∀ k c, s.opCmd k 5 2 = some c → (s.runs.any fun r => r.ctx == c.ctx) = false → ((s.ctx c.ctx).state = 1 ∨ (s.ctx c.ctx).state = 2) →
      ∃ t u, u = (s.ctx c.ctx).resArrays.foldl (fun (s' : State) a =>
          s'.store ((s.ctx c.ctx).imageAt a) (s'.rdN ((s.ctx c.ctx).partAt a) (s.ctx c.ctx).partLen)) s ∧
        exec (.ctxSave k) s = .next (s.settle t) ∧ t = (u.setCtx c.ctx { s.ctx c.ctx with state := 4, holdsPart := false }).complete c 0 0 0 ∧
        ChangesOnly [.ctxs, .mem, .hif, .out, .pldm, .pins, .sync, .tables, .hbm, .flash, .dsc] s (s.settle t)) ∧
    (∀ k c, s.opCmd k 5 3 = some c → (s.ctx c.ctx).state = 4 → s.partitionTaken (s.ctx c.ctx) c.ctx = false →
      ∃ t u, u = (s.ctx c.ctx).resArrays.foldl (fun (s' : State) a =>
          s'.store ((s.ctx c.ctx).partAt a) (s'.rdN ((s.ctx c.ctx).imageAt a) (s.ctx c.ctx).partLen)) s ∧
        exec (.ctxRestore k) s = .next (s.settle t) ∧ t = (u.setCtx c.ctx { s.ctx c.ctx with state := 1, holdsPart := true }).complete c 0 0 0 ∧
        ChangesOnly [.ctxs, .mem, .hif, .out, .pldm, .pins, .sync, .tables, .hbm, .flash, .dsc] s (s.settle t)) ∧
    (∀ k c, s.opCmd k 5 3 = some c → (s.ctx c.ctx).state = 4 → s.partitionTaken (s.ctx c.ctx) c.ctx = true →
      exec (.ctxRestore k) s = .next (s.complete c 2 0 0))

/-- O13: CTX TEARDOWN of a context that exists ends its RUNs, its engines' work, its loads and its waits, stops its tables, and completes every other command of the context with STATUS 3; the context is being torn down and remembers how many it discarded. Once no array holds its work, TEARDOWN DONE returns its resources, frees the identifier, which keeps its generation, fault and ratio, and posts the record with the generation and the count. -/
def Obligations.teardown_ends_a_context_and_frees_it : Prop :=
  ∀ (s : State), s.Live → ∀ k c x, s.opCmd k 5 4 = some c → x = s.ctx c.ctx →
    (x.state ≠ 0 → x.state ≠ 6 → ∃ t u : State, exec (.ctxTeardown k) s = .next (s.settle t) ∧
      t = u.completeAll (fun y => y.ofCtx c.ctx && y.key != k) 3 ∧
      u.runs = s.runs.filter (fun r => r.ctx != c.ctx) ∧ u.engines = abandonWork c.ctx s.engines ∧
      (Tab.rising s.ctxs = true → u.ctx c.ctx = { x with
        state := 6
        teardown := some k
        discarded := (s.hif.cmds.filter fun y => y.ofCtx c.ctx && y.key != k).length }) ∧
      ChangesOnly [.ctxs, .runs, .engines, .arrays, .chk, .fresh, .mem, .hif, .out, .pldm, .pins, .sync, .tables] s (s.settle t)) ∧
    (x.state = 6 → x.teardown = some k → s.arraysBusy c.ctx = false → ∃ t u : State, exec (.ctxTeardownDone k) s = .next (s.settle t) ∧
      u = (s.returnResources c.ctx).freeCtx c.ctx ∧
      t = State.finishDelete (if bitOf c.flags 2 then ((u.raiseOn c.evring 0x0503 (s.ctxid c.ctx) srcSched
          (leBytes 4 c.tag ++ leBytes 2 x.gen.toNat ++ leBytes 2 0 ++ leBytes 4 x.discarded)).dropCmd k).raiseCvec k.ring
        else (u.raiseOn c.evring 0x0503 (s.ctxid c.ctx) srcSched
          (leBytes 4 c.tag ++ leBytes 2 x.gen.toNat ++ leBytes 2 0 ++ leBytes 4 x.discarded)).dropCmd k) k.ring ∧
      ChangesOnly [.mem, .hif, .out, .pldm, .pins] u t)

/-- O14: A served OPEN_SESSION of phase 1 reserves the lowest free session number with a fresh nonce and answers it; with none free it is rejected with reason 5 and answers STATUS 4. Phase 2 within 10 s with the same NH and the right proof opens the session, bound to its transport and port, clears the transport's failures and answers the module's proof. CLOSE_SESSION releases the session, so that the contexts of its rings belong to no session any more, deletes its rings and answers STATUS 0. A reservation that has stood 10 s lapses, and a lockout that has run 60 s ends; the failure count stands. -/
def Obligations.admin_sessions_open_and_close : Prop :=
  ∀ (s : State), s.Live →
    (∀ f q u n, s.Serves f 0x01 q u → q.session = 0xFF → q.plen = 112 → zeroAt q.block 2 6 = true → q.par 0 1 = 1 → q.par 1 1 = 0 →
      zeroAt q.block 0x30 64 = true → (List.range 4).find? (fun n => u.session n == .free) = some n →
      ∃ nm, nm = padTo 32 (Config.nonce u.fresh) ∧ exec (.openSession f) s = .next (State.answerOpen
        (State.setSession u.tick n (.reserved q.transport ((q.block.drop 0x10).take 32) nm u.now)) q (openAnswer n nm []))) ∧
    (∀ f q u, s.Serves f 0x01 q u → q.session = 0xFF → q.plen = 112 → zeroAt q.block 2 6 = true → q.par 0 1 = 1 → q.par 1 1 = 0 →
      zeroAt q.block 0x30 64 = true → (List.range 4).find? (fun n => u.session n == .free) = none →
      exec (.openSession f) s = .next ((u.rejectSession q 5 0xFF).answerAdmin q 4 [])) ∧
    (∀ f q u k nm since, s.Serves f 0x01 q u → q.session = 0xFF → q.plen = 112 → zeroAt q.block 2 6 = true → q.par 0 1 = 2 → q.par 1 1 < 4 →
      u.session (q.par 1 1) = .reserved q.transport ((q.block.drop 0x10).take 32) nm since → u.now ≤ since + 1000000000 → u.boot.opKey = some k →
      proofOf k nm ((q.block.drop 0x10).take 32) (q.par 1 1) q.transport = (q.block.drop 0x30).take 64 →
      ∃ ks v, ks = sessionKey k nm ((q.block.drop 0x10).take 32) (q.par 1 1) q.transport ∧
        v = u.setSession (q.par 1 1) (.opened q.transport q.port ks none) ∧
        exec (.openSession f) s = .next (State.answerOpen { v with sec := { v.sec with fails := Tab.set (fun _ => 0) v.sec.fails q.transport 0 } } q
          (openAnswer (q.par 1 1) nm (proofM ks nm ((q.block.drop 0x10).take 32))))) ∧
    (∀ f q u, s.Serves f 0x02 q u → ∃ t, exec (.closeSession f) s = .next t ∧
      t = ((u.endSessions fun n => n == q.session).deleteRingsOf q.session).answerAdmin q 0 [] ∧
      ChangesOnly [.mem, .hif, .out, .pldm, .pins, .sync, .tables, .fab, .sec, .dbg, .ctxs] s t) ∧
    (∀ (n : Fin 4) t nh nm since, s.session n = .reserved t nh nm since → since + 1000000000 < s.now →
      exec (.sessionReservationLapse n) s = .next (s.setSession n .free)) ∧
    (∀ t : Fin 3, s.lockedOut t = false → exec (.lockoutEnd t) s =
      .next { s with sec := { s.sec with locked := Tab.set (fun _ => none) s.sec.locked t none } })

/-- O15: A served RING_CREATE with a good block, in service and with a free number, makes the ring with head and tail 0, bound to the session; out of service, before service, or with the number taken (the last is the model's choice, log 28) it answers STATUS 4. RING_DELETE of a ring of its own session begins the ring's deletion. RESET asks for the reset that its scope names with the source of its transport. CLEAR_REPAIR, CLEAR_OUT_OF_SERVICE and MARGIN_REPLAN have their effect; CLEAR_OUT_OF_SERVICE also clears the reset log and its count and asks for a warm reset with source 12. A parameter block that fails its check answers STATUS 4. -/
def Obligations.admin_rings_resets_and_repair : Prop :=
  ∀ (s : State), s.Live →
    (∀ f q u, s.Serves f 0x03 q u → ringCreateOk q = true → u.flash.oos = false → u.boot.level ≠ 0 → u.ring (q.par 0x10 1) = none →
      ∃ t, exec (.ringCreate f) s = .next t ∧ t = State.answerAdmin (u.setRing (q.par 0x10 1) (some {
        base := q.par 0 8, headptr := q.par 8 8, sizeLog2 := q.par 0x11 1, weight := q.par 0x12 1, cvec := BitVec.ofNat 16 (q.par 0x14 2)
        session := q.session, head := 0, tail := 0, stopped := false, deleting := none })) q 0 [] ∧
        ChangesOnly [.mem, .hif, .out, .pldm, .pins, .fab, .sec] s t) ∧
    (∀ f q u, s.Serves f 0x03 q u → ringCreateOk q = true → (u.flash.oos = true ∨ u.boot.level = 0 ∨ u.ring (q.par 0x10 1) ≠ none) →
      exec (.ringCreate f) s = .next (u.answerAdmin q 4 [])) ∧
    (∀ f q u, s.Serves f 0x03 q u → ringCreateOk q = false → exec (.ringCreate f) s = .next (u.answerAdmin q 4 [])) ∧
    (∀ f q u r, s.Serves f 0x04 q u → q.plen = 1 → u.ring (q.par 0 1) = some r → r.session = q.session → r.deleting = none →
      exec (.ringDelete f) s = .next (u.deleteRing (q.par 0 1) (some q))) ∧
    (∀ f q u, s.Serves f 0x10 q u → resetOk q = true →
      (q.par 0 1 = 4 → exec (.reset f) s = .next (u.requestFunction (7 + q.transport))) ∧
      (q.par 0 1 = 5 → exec (.reset f) s = .next (u.requestWarm (7 + q.transport) 0 0 (q.par 4 1 == 1) false)) ∧
      (q.par 0 1 = 6 → exec (.reset f) s = .next (u.requestCold (7 + q.transport) 0)) ∧
      (q.par 0 1 < 4 → exec (.reset f) s = .next (u.requestSmall {
        scope := q.par 0 1, index := if q.par 0 1 = 3 then 16 * q.par 2 1 + q.par 3 1 else q.par 1 1, source := 7 + q.transport, watchdog := 0
        at_ := u.now, req := some q }))) ∧
    (∀ f q u, s.Serves f 0x11 q u → ∃ t, exec (.clearRepair f) s = .next t ∧ t = State.answerAdmin { u with flash := { u.flash with cleared := true } } q 0 [] ∧
      ChangesOnly [.mem, .hif, .out, .pldm, .pins, .fab, .sec, .flash] s t) ∧
    (∀ f q u, s.Serves f 0x12 q u → exec (.clearOutOfService f) s = .next
      (State.requestWarm { u with flash := { u.flash with oos := false, resetLog := [], count24 := 0 } } 12 0 0 false false)) ∧
    (∀ f q u, s.Serves f 0x13 q u → ∃ t, exec (.marginReplan f) s = .next t ∧
      t = State.answerAdmin { u with flash := { u.flash with margin := { u.flash.margin with pending := 0x3FF } } } q 0 [] ∧
      ChangesOnly [.mem, .hif, .out, .pldm, .pins, .fab, .sec, .flash] s t)

/-- O16: ASSIGN_DEVID takes the identifier and makes it valid, and answers STATUS 4 where it would change under an installed plan. ROUTE_WRITE writes its consecutive entries. PLAN_INSTALL of a plan that nothing speaks against installs it in the lowest free place, and answers STATUS 4 otherwise. PLAN_REMOVE removes the job's plan, whose slots' contents stay in the partition. STEP_ABORT aborts the open step and does nothing for another step. REVERT takes the version back by one where the last token was COMMIT and no shadow has been written since. CLIP_COEFF on the master of a plan with host clipping gives the coefficient. A job without a plan answers STATUS 4 (log 28). -/
def Obligations.admin_fabric_and_plan_operations : Prop :=
  ∀ (s : State), s.Live →
    (∀ f q u, s.Serves f 0x30 q u → q.plen = 8 → zeroAt q.block 2 6 = true →
      (q.par 0 2 = u.fab.id.toNat ∨ (u.red.plans.any fun e => e.2.isSome) = false) → q.par 0 2 < 65536 →
      ∃ t, exec (.assignDevid f) s = .next t ∧ t = State.answerAdmin { u with fab := { u.fab with id := BitVec.ofNat 16 (q.par 0 2), valid := true } } q 0 [] ∧
        ChangesOnly [.mem, .hif, .out, .pldm, .pins, .fab, .sec] s t) ∧
    (∀ f q u, s.Serves f 0x30 q u → q.plen = 8 → zeroAt q.block 2 6 = true → BitVec.ofNat 16 (q.par 0 2) ≠ u.fab.id →
      (u.red.plans.any fun e => e.2.isSome) = true → exec (.assignDevid f) s = .next (u.answerAdmin q 4 [])) ∧
    (∀ f q u, s.Serves f 0x31 q u → 1 ≤ q.par 2 2 → q.par 0 2 + q.par 2 2 ≤ 512 → q.plen = 8 + 2 * q.par 2 2 → zeroAt q.block 4 4 = true →
      ∃ t, exec (.routeWrite f) s = .next t ∧ t = State.answerAdmin
        ((List.range (q.par 2 2)).foldl (fun (v : State) i => v.setRoute (q.par 0 2 + i) (BitVec.ofNat 16 (q.par (8 + 2 * i) 2))) u) q 0 [] ∧
        ChangesOnly [.mem, .hif, .out, .pldm, .pins, .fab, .sec] s t) ∧
    (∀ f q u p, s.Serves f 0x32 q u → q.plen = 16 → zeroAt q.block 10 6 = true → p = u.readPlan (q.par 0 8) (BitVec.ofNat 16 (q.par 8 2)) →
      (∀ j, (List.range 16).find? (fun j => (u.plan j).isNone) = some j → u.planOk p = true → ∃ t, exec (.planInstall f) s = .next t ∧
        t = (u.setPlan j (some p)).answerAdmin q 0 [] ∧ ChangesOnly [.mem, .hif, .out, .pldm, .pins, .fab, .sec, .red] s t) ∧
      (u.planOk p = false → exec (.planInstall f) s = .next (u.answerAdmin q 4 []))) ∧
    (∀ f q u, s.Serves f 0x33 q u → q.plen = 8 → jobField q = true → zeroAt q.block 2 6 = true →
      (∀ j p, u.planOfJob (q.par 0 2) = some (j, p) → ∃ t, exec (.planRemove f) s = .next t ∧ t = ((u.leavePlan j).removePlan j).answerAdmin q 0 [] ∧
        ChangesOnly [.mem, .hif, .out, .pldm, .pins, .fab, .sec, .red, .sync, .hbm, .flash, .dsc] s t) ∧
      (u.planOfJob (q.par 0 2) = none → exec (.planRemove f) s = .next (u.answerAdmin q 4 []))) ∧
    (∀ f q u j p, s.Serves f 0x34 q u → q.plen = 8 → jobField q = true → q.par 3 1 < 2 → u.planOfJob (q.par 0 2) = some (j, p) →
      (q.par 4 4 = p.openStep.toNat → ∃ t, t = (u.fabricAbort j p (q.par 2 1) (q.par 3 1 == 1)).answerAdmin q 0 [] ∧
        exec (.stepAbort f) s = .next { t with pending := s.pending, now := s.now, strapped := s.strapped, tap := s.tap }) ∧
      (q.par 4 4 ≠ p.openStep.toNat → exec (.stepAbort f) s = .next (u.answerAdmin q 0 []))) ∧
    (∀ f q u j p, s.Serves f 0x35 q u → q.plen = 8 → jobField q = true → zeroAt q.block 2 2 = true → u.planOfJob (q.par 0 2) = some (j, p) →
      p.lastToken = 2 → p.wroteShadow = false → BitVec.ofNat 32 (q.par 4 4) = p.version - 1 → ∃ t, exec (.revert f) s = .next t ∧
        t = (u.setPlan j (some { p with version := p.version - 1 })).answerAdmin q 0 [] ∧
        ChangesOnly [.mem, .hif, .out, .pldm, .pins, .fab, .sec, .red] s t) ∧
    (∀ f q u j p, s.Serves f 0x20 q u → q.plen = 12 → jobField q = true → zeroAt q.block 2 2 = true → u.planOfJob (q.par 0 2) = some (j, p) →
      p.clipMode = 2 → p.isMaster = true → q.par 4 4 = p.openStep.toNat →
      ∃ t, t = ((u.masterClip j (BitVec.ofNat 32 (q.par 8 4))).updateClipped j).answerAdmin q 0 [] ∧
        exec (.clipCoeff f) s = .next { t with pending := s.pending, now := s.now, strapped := s.strapped, tap := s.tap })

/-- O17: For every admin operation but OPEN_SESSION: a request at the front whose transport is locked is only counted as refused; one whose session, MAC or SEQ is wrong counts as a failure of its transport with SESSION_REJECTED; one that verifies but whose descriptor or operation is not acceptable answers STATUS 4 after its SEQ is advanced. In each case the request is taken from the queue and nothing else is done. A request over MCTP for another tray position goes out on the sideband where this module is the tray master, and has no effect at all elsewhere. -/
def Obligations.admin_requests_are_verified_first : Prop :=
  ∀ (s : State) (f : AdminFrom) (i : Instr) (op : Nat), s.Live → (op, i) ∈ ([(0x02, .closeSession f), (0x03, .ringCreate f),
      (0x04, .ringDelete f), (0x10, .reset f), (0x11, .clearRepair f), (0x12, .clearOutOfService f), (0x13, .marginReplan f), (0x20, .clipCoeff f),
      (0x30, .assignDevid f), (0x31, .routeWrite f), (0x32, .planInstall f), (0x33, .planRemove f), (0x34, .stepAbort f), (0x35, .revert f)] :
      List (Nat × Instr)) →
    (∀ pos d p, f = .mctp pos d p → ¬ s.Addressed f → exec i s = .next
      (if s.boot.masterSel then s.sendOut (.sideband (0x60 + pos.val) (padTo 64 d ++ p)) else s)) ∧
    ∀ q, s.Addressed f → (s.arriveAdmin f).hif.adminQ.head? = some q → q.op = op → (s.arriveAdmin f).adminBusy = false →
    ∃ v, v = (s.arriveAdmin f).popAdmin ∧
      (v.lockedOut q.transport = true → exec i s = .next { v with sec := { v.sec with refused := if v.sec.refused + 1 = 0 then v.sec.refused else v.sec.refused + 1 } }) ∧
      (∀ reason, v.lockedOut q.transport = false → v.verifyFail q = some reason → exec i s = .next (v.sessionFailure q reason q.session)) ∧
      (v.lockedOut q.transport = false → v.verifyFail q = none →
        (q.descOk = false ∨ opAccepted op q.transport = false ∨ 4096 < q.plen) → exec i s = .next ((v.advanceSeq q).answerAdmin q 4 []))

/-- O18: A grant gives every array of the first-ranked request that can be granted to it at once and loads its programs; with no such request nothing happens. An array whose RUN is gone is free once its tiles and drains are over, and an array under a pre-emption request is then quiescent: its sync waits and feeder waits are forgotten, its epilogues are abandoned so that they run again from their first pass, and its state is paused. SAVE DONE writes the save set to the context's slot, frees the array and keeps its place; with the last array saved the RUN is pre-empted. RESTORE DONE writes the set back, and the last one lets the RUN resume. -/
def Obligations.arrays_are_granted_quiesced_saved_and_restored : Prop :=
  ∀ (s : State), s.Live →
    (firstRun (s.runs.filter fun r => s.mayGrant r) = none → exec .arrayGrant s = .next s) ∧
    (∀ r, firstRun (s.runs.filter fun r => s.mayGrant r) = some r → ∃ v : State,
      v = State.updRun ((maskList 8 r.arrays.toNat).foldl (fun (s : State) a => s.grantArray r a) s) r.key (fun q => { q with
        phase := .granted
        restoring := if r.phase == RunPhase.preempted then r.arrays else 0 }) ∧
      exec .arrayGrant s = .next (s.settle (((if r.bound ∧ !(r.phase == RunPhase.preempted) then v.loadPrograms r else v).arrange).refreshCtx r.ctx))) ∧
    (∀ (a : Fin 8) k, (s.array a).owner = some k → (s.array a).inflight = [] → (s.array a).drains = [] →
      (s.runOf k = none → exec (.arrayQuiescent a) s = .next (s.settle (s.freeArray a))) ∧
      (∀ r, s.runOf k = some r → r.phase = .preempting → (s.array a).quiesced = false → (s.array a).scrubbing = false → ∃ t u : State,
        exec (.arrayQuiescent a) s = .next t ∧ t = s.settle (u.setArray a { u.array a with
          state := 3
          quiesced := true
          syncWaits := false
          south := (u.array a).south.abandon
          east := (u.array a).east.abandon }) ∧
        (Tab.rising u.arrays = true → (t.array a).state = 3 ∧ (t.array a).quiesced = true ∧ (t.array a).syncWaits = false))) ∧
    (∀ (a : Fin 8) r set, s.runOnArray a = some r → r.phase = .preempting → (s.array a).quiesced = true →
      set = (if bitOf r.restoring.toNat a then [] else s.saveSet r.ctx a (((s.array a).liveRows.filter fun e => e.2).map Prod.fst)) →
      ∃ u v : State, u = set.foldl (fun (s : State) e => s.store e.2.1 (s.rdN e.1 e.2.2)) s ∧
        v = (u.updRun r.key (fun q => { q with
          saved := q.saved ||| BitVec.ofNat 8 (2 ^ a.val)
          saveKib := q.saveKib + (set.map fun e => e.2.2 / 1024).foldl (· + ·) 0
          kept := if bitOf r.restoring.toNat a || !r.bound then q.kept else (a.val, s.array a) :: q.kept.filter fun e => e.1 != a.val })).freeArray a ∧
        (∀ q, v.runOf r.key = some q → exec (.saveDone a) s = .next (s.settle (if q.saved = q.arrays then v.preempted q else v)))) ∧
    (∀ (a : Fin 8) r x, s.runOnArray a = some r → r.phase = .granted → bitOf r.restoring.toNat a = true → (s.array a).scrubbing = false →
      r.kept.find? (fun e => e.1 == a.val) = some (a.val, x) → ∃ u v w : State,
        u = (s.saveSet r.ctx a ((x.liveRows.filter fun e => e.2).map Prod.fst)).foldl (fun (s : State) e => s.store e.1 (s.rdN e.2.1 e.2.2)) s ∧
        v = (u.setArray a ((s.array a).resume x)).repeatLoads a ∧
        w = State.updRun ([2 * a.val, 2 * a.val + 1].foldl (fun (s : State) e => s.setEngine e { s.engine e with forSave := false }) v) r.key (fun q => { q with
          restoring := r.restoring &&& ~~~(BitVec.ofNat 8 (2 ^ a.val))
          kept := q.kept.filter fun e => e.1 != a.val }) ∧
        exec (.restoreDone a) s = .next (s.settle w))

/-- O19: A tile that no condition holds, whose record, streams, mark and claim are in order, begins; an invalid one stops the array. A cycle of an array whose clock runs counts the cycle that ends, issues a due slot, performs the bank writes and injections of the new cycle, and moves both edge units on; of a halted array it only counts; without a clock nothing happens. The next wake load starts, with its stream's mark on its register, unless a pre-emption has reached the array; one whose last row is in is over. An ended hold tile whose front nothing holds exchanges in the cycle that follows: its register holds the zeros that the chain feeds, the tile is no longer in flight, and its results drain. An array that no reset holds and that made no progress for the watchdog's limit halts with TILE_WATCHDOG and asks for its reset. -/
def Obligations.arrays_issue_tiles_and_load_registers : Prop :=
  ∀ (s : State), s.Live →
    (∀ (a : Fin 8) r u t v, s.runOnArray a = some r → s.mayIssue a r = true → u = State.skipTiles a ((s.array a).ntiles - (s.array a).pos) s →
      t = u.tileRec (u.array a) (u.array a).pos → u.mustStop a = false → (u.array a).pos < (u.array a).ntiles → (u.array a).between = true →
      u.holdsOf a (u.array a).pos = [] → u.markOk a (u.array a).pos t = true → u.claim a (u.array a).pos r t = (true, v) →
      exec (.tileIssue a) s = .next (s.settle (v.beginTile a (u.array a).pos r t))) ∧
    (∀ (a : Fin 8) r u, s.runOnArray a = some r → s.mayIssue a r = true → u = State.skipTiles a ((s.array a).ntiles - (s.array a).pos) s →
      u.mustStop a = true → exec (.tileIssue a) s = .next (s.settle (u.stopTile a r))) ∧
    (∀ (a : Fin 8) u, s.clockRuns a = true → u = s.cycleCount a →
      ((u.array a).state ≠ 4 → exec (.arrayCycle a) s =
        .next (s.settle (((((u.issueSlot a).cycleWrites a).cycleInject a).edgeCycle a false).edgeCycle a true))) ∧
      ((u.array a).state = 4 → exec (.arrayCycle a) s = .next (s.settle u)) ∧
      (Tab.rising s.arrays = true → (u.array a).cyc = (s.array a).cyc + 1 ∧ (u.array a).counter = (s.array a).counter + 1)) ∧
    (∀ a : Fin 8, s.clockRuns a = false → exec (.arrayCycle a) s = .next s) ∧
    (∀ (a : Fin 8) l, s.clockRuns a = true → (s.array a).state ≠ 4 → (s.array a).state ≠ 2 → (s.array a).quiesced = false →
      (s.array a).nextLoad [] (s.array a).loads = some l →
      ∃ t, exec (.wakeLoadStart a) s = .next t ∧ ChangesOnly [.arrays] s t ∧ (Tab.rising s.arrays = true →
        (t.array a).block l.reg = { (s.array a).block l.reg with sp24 := s.loadSp24 a l } ∧
        (t.array a).loads = (s.array a).loads.map fun m => if m == l then { m with started := true } else m)) ∧
    (∀ (a : Fin 8) l, (s.array a).loads.find? (fun l => l.started && l.done == l.ext) = some l → ∃ t, exec (.wakeLoadComplete a) s = .next t ∧
      ChangesOnly [.arrays] s t ∧ (Tab.rising s.arrays = true → t.array a = { s.array a with loads := (s.array a).loads.erase l })) ∧
    (∀ (a : Fin 8) u, (s.array a).holdEnded = some u → (s.array a).state ≠ 4 → s.clockRuns a = true → (s.array a).frontHolds u = [] →
      ∃ t f, f = (s.array a).cyc + 1 ∧ exec (.exchangeFront a) s = .next t ∧ ChangesOnly [.arrays] s t ∧ (Tab.rising s.arrays = true →
        ((t.array a).block u.tr.park).hist = List.replicate 1024 { row := zeroRow 0 0 false, north := true } ∧ (t.array a).lastFront = some f ∧
        (t.array a).inflight = (s.array a).inflight.filter (fun v => v.pos != u.pos) ∧
        (t.array a).drains = (s.array a).drains ++ [{ reg := u.tr.park, front := f, brow := u.tr.brow, badd := u.tr.badd, fmt := u.tr.fmt, r := u.tr.r, c := u.tr.c, tile := u.pos, slots := u.slots, final := u.tr.final }])) ∧
    (∀ (a : Fin 8) x, x = s.array a → s.resetScope = 0 → s.smallReset 1 a = none → x.wdogEn = true → x.wdogLimit.toNat ≤ x.noProg → x.state ≠ 4 → ∃ u : State,
      u = State.raiseCtx ((s.setArray a { x with state := 4 }).noteFault a 3 x.tiles.toNat) (s.arrayCtx a) 0x0101 (16 * a.val)
        (leBytes 1 a ++ leBytes 1 x.cause ++ leBytes 6 0 ++ leBytes 8 x.tiles.toNat) ∧
      exec (.tileWatchdog a) s = .next (s.settle (u.fireArray a 1 x.cause (u.ctxid (s.arrayCtx a)) x.tiles.toNat)))

/-- O20: Once the scrub of an array that passes to another context is done, every byte of both accumulator banks and every scratchpad byte outside the partitions held on the array reads as memory that nothing has written (0 in an array window, log 11); the partitions' bytes and all memory outside the array's window read as before; nothing else changes but that the array is no longer scrubbing. -/
def Obligations.array_scrub_zeroes_all_but_partitions : Prop :=
  ∀ (s : State) (a : Fin 8), s.Live → (s.array a).scrubbing = true → ∃ t, exec (.arrayScrubDone a) s = .next t ∧ ChangesOnly [.mem, .arrays] s t ∧
    (Tab.rising s.arrays = true → (t.array a).scrubbing = false) ∧
    (∀ k, windowBase a + 0x300_0000 ≤ k → k < windowBase a + 0x400_0000 → t.mem.read k = s.mem.bg k) ∧
    (∀ o, o < 0x300_0000 → (∀ p ∈ s.partitionsOn a, ¬ (p.1 ≤ o ∧ o < p.2)) → t.mem.read (windowBase a + o) = s.mem.bg (windowBase a + o)) ∧
    (∀ o, o < 0x300_0000 → (∃ p ∈ s.partitionsOn a, p.1 ≤ o ∧ o < p.2) → t.mem.read (windowBase a + o) = s.mem.read (windowBase a + o)) ∧
    (∀ k, (k < windowBase a ∨ windowBase a + 0x400_0000 ≤ k) → t.mem.read k = s.mem.read k)

/-- O21: A step of an operand feeder reads at most one row for each of its lanes while the array feeds, and a step of a drain feeder writes its next row and reads its next side row while the edge units may work; a feeder that may not work changes nothing. EMPTY_MARK lets the staged rows of one vector into both queues together, marked empty where either has nothing to add. A landing's completed ready wait gives the slot to the feeder, which goes on, and finished slots are returned. An epilogue whose rows are ready registers its side streams, takes its table reads and begins with empty queues; one whose rows have all run and are written completes: its counts and column sums are stored, its streams' steps are completed and its bank rows are dead. -/
def Obligations.feeders_and_edge_units_act : Prop :=
  ∀ (s : State) (a : Fin 8), s.Live →
    (∀ f : Fin 4, f.val < 2 → s.feeds a = true → exec (.feederStep a f) s = .next (s.settle (s.operandStep a f (s.sideWants a)))) ∧
    (∀ f : Fin 4, f.val < 2 → s.feeds a = false → exec (.feederStep a f) s = .next s) ∧
    (∀ f : Fin 4, 2 ≤ f.val → s.edgeRuns a = true →
      exec (.feederStep a f) s = .next (s.settle ((s.writeDrained a (f.val == 3)).readSide a (f.val == 3)))) ∧
    (∀ f : Fin 4, 2 ≤ f.val → s.edgeRuns a = false → exec (.feederStep a f) s = .next s) ∧
    (∀ w ws n ns, s.feeds a = true → (s.feeder a 0).staging = w :: ws → (s.feeder a 1).staging = n :: ns → w.tile = n.tile → w.idx = n.idx →
      roomFor false (s.feeder a 0) false = true → roomFor false (s.feeder a 1) false = true → ∃ u fill,
        u = (s.updFeeder a 0 fun g => { g with staging := ws }).updFeeder a 1 (fun g => { g with staging := ns }) ∧
        fill = (match s.stepOfTile a 1 n.tile false with | some i => !(s.streamDesc (s.streamStep (s.feeder a 1) i).desc).reuse | none => false) ∧
        exec (.emptyMark a) s = .next (s.settle ((u.pushMoving a 0 false false { w with empty := w.empty || n.empty }).pushMoving a 1 false fill
          { n with empty := w.empty || n.empty }))) ∧
    (∀ f : Fin 2, (s.waited (slotWaiter a f false) = true ∨ s.waited (slotWaiter a f true) = true) → ∃ u, u = (s.takeSlot a f false).takeSlot a f true ∧
      exec (.landingSlotReady a f) s = .next (s.settle (if u.feeds a then u.operandStep a f (u.sideWants a) else u))) ∧
    (∀ f : Fin 2, s.waited (slotWaiter a f false) = false → s.waited (slotWaiter a f true) = false → exec (.landingSlotReady a f) s = .next s) ∧
    (∀ f : Fin 2, (s.array a).owner.isSome = true → exec (.landingSlotReturn a f) s = .next (s.settle (s.returnSlots a f))) ∧
    (∀ east e rest, ((s.array a).edge east).queue = e :: rest → e.ready = true → ((s.array a).edge east).running = false → s.edgeRuns a = true →
      ∃ env v u, env = s.epiEnv a east e ∧
        v = [6, 7].foldl (fun (s' : State) role => match s'.envStep env role with
          | some (st, d) => s'.registerStep a env.f st d (s'.tensorDesc d.tdesc).fmt env.r.ncol
          | none => s') s ∧
        u = (env.r.tableReads e.rows).foldl (fun (s' : State) q => s'.edgeAccess env false q.1 q.2 id) v ∧
        ((u.ctx (s.arrayCtx a)).state ≠ 5 → (u.runOnArray a).isSome = true →
          exec (.epilogueStart a east) s = .next (s.settle (State.updFeeder (u.setEdge a east { (s.array a).edge east with
              running := true
              queue := { e with beat := 0, row := 0, nonfin := 0, stashNonfin := 0, gain := [], offset := [] } :: rest }) a (drainOf east)
            fun g => { g with output := [], stash := [], mrow := 0, srow := 0, side0 := [], side1 := [], rows0 := 0, rows1 := 0 })))) ∧
    (∀ east e rest, ((s.array a).edge east).queue = e :: rest → ((s.array a).edge east).running = true → e.rows ≤ e.row →
      (s.feeder a (drainOf east)).output = [] → (s.feeder a (drainOf east)).stash = [] → s.edgeRuns a = true → ∃ env v u,
        env = s.epiEnv a east e ∧ v = (s.addNonfinite env 4 e.nonfin).addNonfinite env 5 e.stashNonfin ∧
        u = (v.addColumns env env.r.aux e.gain).addColumns env (env.r.aux + 4 * env.r.ncol) e.offset ∧
        ((u.runOnArray a).isSome = true → ∃ w : State,
          w = (List.range e.nstep).foldl (fun (s' : State) i =>
            (s'.streamDone a (drainOf east) (e.step + i) false).releaseDrained a (drainOf east) (e.step + i)) u ∧
          exec (.epilogueComplete a east) s = .next (s.settle (w.setArray a ({ w.array a with
            liveRows := Tab.drop (w.array a).liveRows fun row => decide ((if east then 2048 else 0) ≤ row) &&
              decide (row < (if east then 2048 else 0) + 2048) && w.epiHolds e (row - if east then 2048 else 0) }.setEdge east
            { (w.array a).edge east with
              queue := ((w.array a).edge east).queue.drop 1
              running := false })))))

/-- O22: A registered stream's prefetcher that is not too far ahead asks for its next line and goes on, passing null rows and lines present; at a row that is unmapped or lies on no HBM of the die it stops. A fill that arrives is allocated unless a write has dropped it or it is poisoned. A consumer that takes a line present hits; one that misses reads afresh and allocates. An atomic operation of a gather engine is that of the atomic step at which its list stands. One that nothing forbids replaces its word by the operation's result, makes its line held and writes the old value to RET when asked; a refused one faults its issuer's context and writes nothing. -/
def Obligations.stream_cache_and_atomics : Prop :=
  ∀ (s : State), s.Live →
    (∀ (d : Fin 2) line l, (s.dscAt d).lines.find? (fun l => l.line == line && l.inflight) = some l →
      (l.dropped = false → s.poisonIn (256 * line) 256 = false → exec (.prefetchFill d line) s =
        .next (s.setDsc d (Dsc.fill { s.dscAt d with lines := (s.dscAt d).lines.erase l } line l.stream true))) ∧
      ((l.dropped = true ∨ s.poisonIn (256 * line) 256 = true) → exec (.prefetchFill d line) s =
        .next (s.setDsc d { s.dscAt d with lines := (s.dscAt d).lines.erase l }))) ∧
    (∀ (d : Fin 2) desc r row line, (s.dscAt d).streams.find? (fun r => r.desc == desc) = some r →
      (s.dscAt d).ahead desc < (if (s.streamDesc desc).pfdist = 0 then 64 else (s.streamDesc desc).pfdist) → r.row < r.last → r.row < (s.streamDesc desc).rows →
      (∀ i, (s.streamDesc desc).rowIndexAddr r.row = some i → s.mappedRange i (s.streamDesc desc).indexBytes = true) →
      row = s.rowAt (s.streamDesc desc) r.base r.row → line = row.addr / 256 + r.part →
      (row.null = true → exec (.prefetchIssue d desc) s = .next (s.setDsc d { s.dscAt d with
        streams := (s.dscAt d).streams.map fun t => if t == r then { r with row := r.row + 1, part := 0 } else t })) ∧
      (row.null = false → s.mappedRange row.addr (s.streamDesc desc).rowBytes = true → isHbm row.addr = true → dieOf row.addr = d →
        ((s.dscAt d).lines.any fun l => l.line == line && !l.dropped) = false → ∃ t, exec (.prefetchIssue d desc) s = .next t ∧ ChangesOnly [.dsc] s t ∧
          (Tab.rising s.dsc = true → (t.dscAt d).lines = (s.dscAt d).lines ++
            [{ line := line, stream := some desc, prefetched := true, inflight := true, dropped := false, age := (s.dscAt d).clock }])) ∧
      (row.null = false → s.mappedRange row.addr (s.streamDesc desc).rowBytes = true → isHbm row.addr = true → dieOf row.addr = d →
        ((s.dscAt d).lines.any fun l => l.line == line && !l.dropped) = true → exec (.prefetchIssue d desc) s = .next (s.setDsc d { s.dscAt d with
          streams := (s.dscAt d).streams.map fun t => if t == r then
            (if line = (row.addr + (s.streamDesc desc).rowBytes - 1) / 256 then { r with row := r.row + 1, part := 0 } else { r with part := r.part + 1 }) else t })) ∧
      (row.null = false → (s.mappedRange row.addr (s.streamDesc desc).rowBytes = false ∨ isHbm row.addr = false ∨ dieOf row.addr ≠ d) →
        exec (.prefetchIssue d desc) s = .next s)) ∧
    (∀ (d : Fin 2) line desc l, isHbm (256 * line) = true → dieOf (256 * line) = d → (s.dscAt d).lines.find? (fun l => l.line == line && !l.dropped) = some l →
      l.inflight = false → ∃ t, exec (.lineTake d line desc) s = .next t ∧ ChangesOnly [.dsc] s t ∧ (Tab.rising s.dsc = true →
        (t.dscAt d).counts = Tab.modify (fun _ => (0 : DWord)) (s.dscAt d).counts 0 (· + 1) ∧ (t.dscAt d).streams = (s.dscAt d).streams)) ∧
    (∀ (d : Fin 2) line desc, isHbm (256 * line) = true → dieOf (256 * line) = d → (s.dscAt d).lines.find? (fun l => l.line == line && !l.dropped) = none →
      s.poisonIn (256 * line) 256 = false → exec (.lineTake d line desc) s = .next (s.setDsc d (((s.dscAt d).bump 1).fill line none false))) ∧
    (∀ q p, s.issued q = .ok p → exec (.atomic q) s = .next (s.settle (s.doAtomic p))) ∧
    (∀ q, (q.engine < 128 ∨ 132 ≤ q.engine) → s.issued q = .ok q) ∧
    (∀ q e w b, 128 ≤ q.engine → q.engine < 132 → e = q.engine - 128 + 0x18 → s.activeWork e = some w → w.run.isSome = true → s.stepDue w = true →
      b = s.rdN w.addr 48 → 1 ≤ fieldAt b 0 1 → fieldAt b 0 1 ≤ 0x11 → fieldAt b 4 4 = 0 → zeroAt b 0xA 6 = true →
      (fieldAt b 0 1 = 9 ∨ fieldAt b 0x20 8 = 0) → s.issued q = .ok { q with
        ctx := some (Fin.ofNat 64 w.ctx)
        op := BitVec.ofNat 8 (fieldAt b 0 1)
        size := BitVec.ofNat 8 (fieldAt b 1 1)
        addr := fieldAt b 0x10 8
        operand := BitVec.ofNat 64 (fieldAt b 0x18 8)
        compare := BitVec.ofNat 64 (fieldAt b 0x20 8)
        ret := fieldAt b 0x28 8 }) ∧
    (∀ (q : AtomicReq) old t, s.atomicFault q.op.toNat q.size.toNat q.addr = 0 →
      s.atomicDo q.op.toNat q.size.toNat q.addr q.operand.toNat q.compare.toNat = (old, t) →
      old = s.rdLe q.addr (2 ^ (q.size.toNat + 1)) ∧ (q.ret = 0 → s.doAtomic q = t.atomicStepDone q) ∧
      (q.ret ≠ 0 → t.writeFault (match q.ctx with | some c => c.val | none => 64) q.ret (2 ^ (q.size.toNat + 1)) = 0 →
        s.doAtomic q = (t.storeLe q.ret (2 ^ (q.size.toNat + 1)) old).atomicStepDone q)) ∧
    (∀ (q : AtomicReq) (c : Fin 64) cause, s.atomicFault q.op.toNat q.size.toNat q.addr = cause → q.ctx = some c → (cause = 2 ∨ cause = 9) →
      s.doAtomic q = s.faultCtx c cause (if q.engine < 128 then q.engine / 16 else 0xFF) 0 q.engine q.addr)

/-- O23: A due gather or scatter step with good descriptors moves its rows in order and is written; a hand-off step reads its bytes and sends them to its slot's target, the cursor going to the next slot; a fold step whose index has come adds its slot into the accumulator and signals, and waits on its object until then. A FERRY record of the gather engines moves its rows in the same way. A hand-off packet at its target takes a free slot's count for its first segment, or is held while there is none, writes its bytes and signals the ready object with its last. -/
def Obligations.gather_engines_move_rows_and_fold : Prop :=
  ∀ (s : State), s.Live →
    (∀ (g : Fin 4) i op e w u x y v sa da sd dd rows, (i, op) ∈ ([(.gather g, 0x20), (.scatter g, 0x21)] : List (Instr × Nat)) → e = 0x18 + g.val →
      (∀ x, s.activeWork e = some x → x.run.isSome = true) → s.GatherDue e op w u → sa = u.stepBody w → da = u.rdLe (w.addr + 24) 8 →
      u.mappedRange sa 128 = true → u.mappedRange da 128 = true → sd = u.streamDesc sa → dd = u.streamDesc da →
      sd.ferryOk (if op = 0x20 then 0xA else 8) true = true → dd.ferryOk (if op = 0x20 then 9 else 0xA) true = true → sd.rowBytes = dd.rowBytes →
      rows = (if op = 0x20 then sd.rows else dd.rows) →
      u.access e (u.streamRows sd sd.base 0 rows) (u.streamRows dd dd.base 0 rows) = (true, x) →
      y = (x.engineStream e w.ctx sa sd.base rows).engineStream e w.ctx da dd.base rows →
      y.moveRows e w sd dd dd.base (u.rdLe (w.addr + 4) 4) rows = (true, v) →
      exec i s = .next (s.settle (((v.engineTook e sa rows).engineTook e da rows).wrote e w))) ∧
    (∀ (g : Fin 4) i op e w r, (i, op) ∈ ([(.gather g, 1), (.scatter g, 2)] : List (Instr × Nat)) → e = 0x18 + g.val → s.activeWork e = some w → w.run = none →
      r = s.ferryRec (w.addr + 64 * w.pos) → r.op = op → s.startOk e w r = true → s.chkWaits e r = false →
      (∀ v, r.lslots = 0 → s.runRecord e w r (s.streamDesc r.dst).base (fun t => t.moveRecordRows e w r (s.streamDesc r.dst).base) = (true, v) →
        Tab.rising v.engines = true → exec i s = .next (s.settle (v.wrote e w))) ∧
      (r.lslots ≠ 0 → exec i s = .next (s.settle
        ((s.fillSlot e w r fun w base s => s.moveRecordRows e w r base).moveStep e (op + 0x1F))))) ∧
    (∀ (g : Fin 4) e w u x y z sa ra sd hr n bs, e = 0x18 + g.val → s.GatherDue e 0x23 w u → sa = u.stepBody w → ra = u.rdLe (w.addr + 24) 8 →
      u.mappedRange sa 128 = true → u.mappedRange ra 32 = true → sd = u.streamDesc sa → hr = u.handoffRec ra → sd.ferryOk 8 false = true →
      hr.reserved = false → 1 ≤ hr.slots → hr.slots ≤ 256 → 1 ≤ hr.bytes → hr.bytes ≤ hr.slotBytes → n = ceilDiv hr.bytes sd.rowBytes →
      u.access e (u.streamRows sd sd.base 0 n) [] = (true, x) → y = x.engineStream e w.ctx sa sd.base n →
      y.fetchRows e w.ctx sd sd.base n 0 = .ok (bs, z) → ∃ v slot f, v = z.engineTook e sa n ∧
        slot = (match (v.engine e).handoffs.find? fun c => c.1 == ra with | some c => c.2 | none => 0) ∧
        f = v.setEngine e { v.engine e with handoffs := (ra, (slot + 1) % hr.slots) :: (v.engine e).handoffs.filter fun c => c.1 != ra } ∧
        exec (.handoff g) s = .next (s.settle ((f.injectAll (f.handoffPackets hr w.ctx slot (bs.take hr.bytes))).wrote e w))) ∧
    (∀ (g : Fin 4) w u b i, s.GatherDue (0x18 + g) 0x24 w u → u.mappedRange (u.stepBody w) 32 = true → b = u.rdN (u.stepBody w) 32 →
      1 ≤ fieldAt b 0x1C 1 → fieldAt b 0x1C 1 ≤ 4 → zeroAt b 0x1D 1 = true → fieldAt b 0x10 4 % 4096 = 0 → 4 * fieldAt b 0x14 4 ≤ fieldAt b 0x10 4 →
      u.rdLe (w.addr + 28) 4 = 0 → i = (u.rdLe (w.addr + 24) 4 + 2 ^ 32 - fieldAt b 0x18 4) % 2 ^ 32 → ∃ now : Work → State → State,
      (∀ v t, now v t = t.foldNow (0x18 + g) v (fieldAt b 0 8) (fieldAt b 8 8 + i % fieldAt b 0x1C 1 * fieldAt b 0x10 4) (fieldAt b 0x14 4)
        (fieldAt b 0x1E 2) (i == 0)) ∧
      ((i = 0 ∨ w.freeTaken = true) → exec (.fold g) s = .next (s.settle (now w u))) ∧
      (∀ o x, i ≠ 0 → w.freeTaken = false → u.objOf w.ctx (fieldAt b 0x1E 2) = some o →
        x = (if w.waiting then u else u.enqueue [(o, { who := .landing (0x18 + g), n := BitVec.ofNat 32 i, takes := false })]) →
        (x.waited (.landing (0x18 + g)) = true → exec (.fold g) s = .next (s.settle (now { w with waiting := false, freeTaken := true }
          ((x.consume (.landing (0x18 + g))).setHead (0x18 + g) { w with waiting := false, freeTaken := true })))) ∧
        (x.waited (.landing (0x18 + g)) = false → exec (.fold g) s = .next (s.settle (x.setHead (0x18 + g) { w with waiting := true }))))) ∧
    (∀ p port t c o f, p.vc = 5 → p.type = 8 → s.receiveIf s.inTurn p = some (port, t) → s.ctxLive p.ctx = some c →
      f = (fun a n => fieldAt p.payload a n) → s.objOf c (f 0xE 2 + f 0xC 2) = some o → f 0x14 4 = 0 →
      (((s.obj o).count = 0 ∨ (s.obj o).queue ≠ []) → exec (.handoffReceive p) s = .next s) ∧
      ((s.obj o).count ≠ 0 → (s.obj o).queue = [] →
      ∃ u at_, u = { t with sync := t.sync.setObj o { t.obj o with count := (t.obj o).count - 1 } } ∧ at_ = f 0 8 + f 0x10 2 * f 8 4 + f 0x14 4 ∧
        (u.writeFault c at_ (p.payload.length - 32) = 0 → exec (.handoffReceive p) s = .next (s.settle
          (if f 0x12 1 = 1 then (u.store at_ (p.payload.drop 32)).signalTask c (f 0xE 2 + f 0x10 2) 0xFF srcSwitch else u.store at_ (p.payload.drop 32)))))) ∧
    (∀ p port t c f, p.vc = 5 → p.type = 8 → s.receiveIf s.inTurn p = some (port, t) → s.ctxLive p.ctx = some c →
      f = (fun a n => fieldAt p.payload a n) → f 0x14 4 ≠ 0 → ∃ at_, at_ = f 0 8 + f 0x10 2 * f 8 4 + f 0x14 4 ∧
        (t.writeFault c at_ (p.payload.length - 32) = 0 → exec (.handoffReceive p) s = .next (s.settle
          (if f 0x12 1 = 1 then (t.store at_ (p.payload.drop 32)).signalTask c (f 0xE 2 + f 0x10 2) 0xFF srcSwitch else t.store at_ (p.payload.drop 32)))))

/-- O24: A due dispatch step opens its dispatch: with REUSE or in arrival order its rows go at once, else its counts go to the homes. A count packet with the placement's tag is held, and once the counts are whole the home answers; a wrong tag faults the context with cause 7. Admit counts are held and stored in the admit table, and with every expert's count the rows go. A row is written into its receive buffer, and with its last segment the part returns the pair's output row; in arrival order a pair takes its share's next row, and one beyond the share is answered by a drop mark. A returned row is written into the combine buffer, and a drop mark is noted. When all is sent, answered and returned the dispatch completes, the engine goes on and the step's object is signalled. -/
def Obligations.expert_dispatch_counts_admits_and_returns : Prop :=
  ∀ (s : State), s.Live →
    (∀ (g : Fin 4) w u d x quick, s.GatherDue (0x18 + g) 0x22 w u → u.dispatchOf (0x18 + g) w = none →
      u.rdLe (w.addr + 24) 8 = 0 → u.mappedRange (u.stepBody w) 64 = true →
      d = u.dispRec (u.stepBody w) → u.mappedRange d.place 32 = true → quick = (u.arrival d || d.reuse) →
      x = ({ rec_ := u.stepBody w, ctx := w.ctx, array := w.array, sync := BitVec.ofNat 16 (u.rdLe (w.addr + 2) 2), counts := []
             answered := quick || (u.homed (u.placement d.place) u.fab.id.toNat).isEmpty
             admits := if d.reuse && !u.arrival d then u.admitTable d (u.placement d.place).nexp else [], sent := false, returns := [], dropped := []
             arrived := [], got := [], complete := false } : Dispatch) →
      ∃ v y, v = u.setHead (0x18 + g) { w with waiting := true } ∧
        y = v.setEngine (0x18 + g) { v.engine (0x18 + g) with
          dispatches := x :: (v.engine (0x18 + g)).dispatches.filter fun d => !(d.ctx == w.ctx && d.rec_ == u.stepBody w && d.complete)
          moved := true } ∧
        exec (.dispatch g) s = .next (s.settle (if quick then y.sendRows (0x18 + g) x else y.injectAll (y.countPackets w.ctx d)))) ∧
    (∀ (g : Fin 4) w x, s.activeWork (0x18 + g) = some w → w.run.isSome = true → s.rdLe w.addr 1 = 0x22 → s.dispatchOf (0x18 + g) w = some x → x.over = true →
      ∃ v y, v = s.setDispatch (0x18 + g) x { x with complete := true } ∧
        y = v.setEngine (0x18 + g) { v.engine (0x18 + g) with
          work := if w.pos + 1 < w.count then v.advanceWork (0x18 + g) w :: (v.engine (0x18 + g)).work.tail else (v.engine (0x18 + g)).work.tail
          noProg := 0 } ∧
        exec (.dispatchComplete g) s = .next (s.settle (y.signalTask w.ctx x.sync.toNat (engineArray (0x18 + g)) (engineSource (0x18 + g))))) ∧
    (∀ p c e x t y, s.ForDispatch p 1 (fun d => !d.answered && !d.complete) c e x t →
      p.arg.toNat % 2 ^ 32 = (t.placement (t.dispRec x.rec_).place).tag →
      y = { x with counts := (x.counts.filter fun n => !((entriesOf 8 p.payload).map fun b => (p.arg.toNat / 2 ^ 32 % 65536, fieldAt b 0 2, fieldAt b 4 4)).any
          fun m => m.1 == n.1 && m.2.1 == n.2.1) ++ (entriesOf 8 p.payload).map fun b => (p.arg.toNat / 2 ^ 32 % 65536, fieldAt b 0 2, fieldAt b 4 4) } →
      ∃ v, v = t.setDispatch e x y ∧ exec (.count p) s = .next (s.settle
        (if v.countsWhole (t.dispRec x.rec_) (v.homed (t.placement (t.dispRec x.rec_).place) v.fab.id.toNat) y.counts then v.answer c e y else v))) ∧
    (∀ p c e x t, s.ForDispatch p 1 (fun d => !d.answered && !d.complete) c e x t → p.arg.toNat % 2 ^ 32 ≠ (t.placement (t.dispRec x.rec_).place).tag →
      exec (.count p) s = .next (s.settle (t.faultCtx c 7 0xFF 0 (engineSource e) (p.arg.toNat % 2 ^ 32)))) ∧
    (∀ p c e x t new y, s.ForDispatch p 2 (fun d => !d.sent && !d.complete) c e x t →
      new = (entriesOf 12 p.payload).map (fun b => (fieldAt b 0 2, fieldAt b 4 4, fieldAt b 8 4)) →
      y = { x with admits := (x.admits.filter fun n => !new.any fun m => m.1 == n.1) ++ new } → ∃ u, 
      u = new.foldl (fun (s : State) a =>
        match s.writeFault c ((t.dispRec x.rec_).admits + 8 * a.1) 8 with
        | 0 => s.store ((t.dispRec x.rec_).admits + 8 * a.1) (leBytes 4 a.2.1 ++ leBytes 4 a.2.2)
        | cause => s.faultCtx c cause 0xFF 0 (engineSource e) ((t.dispRec x.rec_).admits + 8 * a.1)) (t.setDispatch e x y) ∧
      exec (.admitCounts p) s = .next (s.settle
        (if (List.range (t.placement (t.dispRec x.rec_).place).nexp).all fun n => y.admits.any fun a => a.1 == n then u.sendRows e y else u))) ∧
    (∀ p c e x t pl n seg mine, s.ForDispatch p 3 (fun _ => true) c e x t → pl = t.placement (t.dispRec x.rec_).place → n = p.arg.toNat % 65536 →
      seg = p.arg.toNat / 2 ^ 48 → mine = x.arrived.filter (fun a => a.1 == n) → ∃ write : State → Nat → State,
      (∀ (v : State) k w, w = v.writeSegment c e ((v.triple pl n).recv + k * pl.rowBytes + 4032 * seg) (p.payload.drop 8) → write v k =
        if segmentsOf pl.rowBytes ≤ seg + 1 ∧ (w.ctx c).state ≠ 5 then w.returnRow c p.src.toNat n pl.rowBytes (fieldAt p.payload 0 4) else w) ∧
      (t.arrival (t.dispRec x.rec_) = false → exec (.row p) s = .next (s.settle (write t (p.arg.toNat / 65536 % 2 ^ 32)))) ∧
      (t.arrival (t.dispRec x.rec_) = true →
        (∀ k, (List.range mine.length).find? (fun k => mine.getD k (0, 0, 0) == (n, p.src.toNat, fieldAt p.payload 0 4)) = some k →
          exec (.row p) s = .next (s.settle (write t k))) ∧
        ((List.range mine.length).find? (fun k => mine.getD k (0, 0, 0) == (n, p.src.toNat, fieldAt p.payload 0 4)) = none → seg = 0 → ∀ ex,
          ex = t.expert pl (t.expertOfTriple pl n) →
          (mine.length < ceilDiv (capacity ex (t.dispRec x.rec_) pl) (max 1 ex.nrep) → exec (.row p) s = .next (s.settle (write (t.setDispatch e x { x with
            arrived := x.arrived ++ [(n, p.src.toNat, fieldAt p.payload 0 4)] }) mine.length))) ∧
          (ceilDiv (capacity ex (t.dispRec x.rec_) pl) (max 1 ex.nrep) ≤ mine.length → exec (.row p) s =
            .next (s.settle (t.inject (t.dispatchPacket c p.src.toNat 5 (fieldAt p.payload 0 4) []))))))) ∧
    (∀ p c e x t, s.ForDispatch p 4 (fun d => d.returns.contains (p.arg.toNat % 2 ^ 32) && !d.got.contains (p.arg.toNat % 2 ^ 32)) c e x t → ∃ u,
      u = (if segmentsOf (t.placement (t.dispRec x.rec_).place).rowBytes ≤ p.arg.toNat / 2 ^ 32 % 65536 + 1
        then t.setDispatch e x { x with got := x.got ++ [p.arg.toNat % 2 ^ 32] } else t) ∧
      exec (.return_ p) s = .next (s.settle (u.writeSegment c e ((t.dispRec x.rec_).combine +
        p.arg.toNat % 2 ^ 32 * (t.placement (t.dispRec x.rec_).place).rowBytes + 4032 * (p.arg.toNat / 2 ^ 32 % 65536)) p.payload))) ∧
    (∀ p c e x t, s.ForDispatch p 5 (fun d => d.returns.contains (p.arg.toNat % 2 ^ 32)) c e x t → ∃ u, exec (.dropMark p) s = .next u ∧
      u = t.setDispatch e x { x with dropped := x.dropped ++ [p.arg.toNat % 2 ^ 32] } ∧ ChangesOnly [.fab, .out, .engines] s u)

/-- O25: A request within one granule that no fence forbids joins its pseudo-channel's window last, while the window has room and its line is not held by the shared cache; a full window leaves everything as it is. An accepted write's bytes read back from their places at once and every other byte of memory is as before; an accepted read has taken the bytes of memory as they were, with the poison of its codewords. A request for a held line enters no window: the shared cache serves it, with the same effect of a write on memory, and a read is answered at once. A write changes only memory, the HBM controllers' and the shared cache's state and the stream caches. -/
def Obligations.hbm_requests_take_effect_at_acceptance : Prop :=
  ∀ (s : State) (n : Fin 24) (q : HbmReq) pc b row, s.Live → s.mem.wf = true → s.pcPlace q.addr = some (n.val, pc, b, row) → inGranule q = true →
    (s.fenced q.isWrite q.addr (if q.isWrite then q.data.length else q.size) = false ∨ (144 ≤ q.tag ∧ q.tag < 168)) →
    (s.lineHeld q.addr = false → 128 ≤ ((s.stack n).pc pc).window.length → exec (.hbmRequestAccept n q) s = .next s) ∧
    (((s.stack n).pc pc).window.length < 128 ∨ s.lineHeld q.addr = true → q.isWrite = true → ∃ t, exec (.hbmRequestAccept n q) s = .next t ∧
      ChangesOnly [.mem, .hbm, .dsc] s t ∧
      (∀ i (h : i < q.data.length) k, s.key (q.addr + i) = some k → t.mem.read k = q.data[i]) ∧
      (∀ k, (∀ i < q.data.length, s.key (q.addr + i) ≠ some k) → t.mem.read k = s.mem.read k) ∧
      (Tab.rising s.hbm.stk = true → Tab.rising (s.stack n).pcs = true →
        ((t.stack n).pc pc).window = ((s.stack n).pc pc).window ++ (if s.lineHeld q.addr then [] else [⟨q, s.hbmCycle n, (s.stack n).seq, false, [], [], false⟩]))) ∧
    (∀ r : HbmPending, q.isWrite = false →
      r = ⟨{ q with data := s.rdN q.addr q.size }, s.hbmCycle n, (s.stack n).seq, false, ((List.range ((q.addr + q.size - 1) / 32 + 1 - q.addr / 32)).map (q.addr / 32 + ·)).filter fun c => s.isPoisoned (32 * c), [], false⟩ →
      (s.lineHeld q.addr = false → ((s.stack n).pc pc).window.length < 128 → ∃ t, exec (.hbmRequestAccept n q) s = .next t ∧ ChangesOnly [.hbm] s t ∧
        (Tab.rising s.hbm.stk = true → Tab.rising (s.stack n).pcs = true → ((t.stack n).pc pc).window = ((s.stack n).pc pc).window ++ [r])) ∧
      (s.lineHeld q.addr = true → exec (.hbmRequestAccept n q) s = .next (s.settle
        (((s.setStack n { s.stack n with seq := (s.stack n).seq + 1 }).useLine (q.addr / 256) true false).answerRead { r with bad := r.poison != [] }))))

/-- O26: A slot goes to the request that the order of ages, open rows and write direction gives; a write's bursts leave with it, and where no request takes it the oldest write-back does. With 64 slots taken or a channel in reset no request takes one. A codeword whose errors outside the marks are at most one symbol is corrected, and one with as many as are always detected is uncorrectable; a poisoned one is uncorrectable again, with its event and count. Each burst of a read is decoded with the errors read, shared by the reads that wait for it, and a read whose last burst it was is answered. A scrub read yields to every request and reads a codeword once in an interval, like a demand read; once SCRUB_HOURS hours have passed the counts of the interval restart. A management access joins the in-order queue, and the head of the queue is served when nothing blocks it. A DDR5 scrub pass notes its time. A flash block that has served 100,000 page reads, or that holds sealed data 2,000 erases below the highest count on its die, is relocated, and a block whose program failed is retired and what it held is relocated; no object changes but for where its blocks lie. -/
def Obligations.hbm_slots_reads_scrubs_and_relocations : Prop :=
  ∀ (s : State), s.Live →
    (∀ (n : Fin 24) (c : Fin 32) p may hit reads writes, p = (s.stack n).pc c →
      may = (fun r : HbmPending => !r.slotted && !r.behind ((s.stack n).inorder ++ p.window) &&
        decide (((p.window.filter fun r => r.slotted).filter fun (t : HbmPending) => (s.bankRow t).1 == (s.bankRow r).1).length < 16)) →
      hit = (fun r : HbmPending => Tab.get (fun _ => none) p.openRows (s.bankRow r).1 == some (s.bankRow r).2) →
      reads = p.window.filter (fun r => !r.req.isWrite && may r) → writes = p.window.filter (fun r => r.req.isWrite && may r) →
      ((64 ≤ (p.window.filter fun r => r.slotted).length ∨ (((s.stack n).chan (c.val / 2)).resetAt.isSome) = true) → s.nextRequest n c = none) ∧
      ((p.window.filter fun r => r.slotted).length < 64 → ((s.stack n).chan (c.val / 2)).resetAt = none →
        s.nextRequest n c = (if drainsWrites p (s.hbmCycle n) then (pickRequest (s.hbmCycle n) hit writes).orElse fun _ => pickRequest (s.hbmCycle n) hit reads
          else pickRequest (s.hbmCycle n) hit reads))) ∧
    (∀ (n : Fin 24) (c : Fin 32) p q, p = (s.stack n).pc c → q = { p with draining := drainsWrites p (s.hbmCycle n) } →
      (((s.stack n).chan (c.val / 2)).resetAt.isSome = true → exec (.hbmSlotGrant n c) s = .next s) ∧
      (((s.stack n).chan (c.val / 2)).resetAt = none → s.nextRequest n c = none → exec (.hbmSlotGrant n c) s = .next (s.setStack n ((s.stack n).setPc c
        (if s.inorderWaits n c then q else { q with scrubQ := q.scrubQ.drop 1 })))) ∧
      (∀ r g, ((s.stack n).chan (c.val / 2)).resetAt = none → s.nextRequest n c = some r →
        g = { q with openRows := Tab.set (fun _ => none) p.openRows (s.bankRow r).1 (some (s.bankRow r).2) } →
        (r.req.isWrite = false → exec (.hbmSlotGrant n c) s = .next (s.setStack n ((s.stack n).setPc c
          { g with window := p.window.map fun t => if t == r then { t with slotted := true } else t }))) ∧
        (r.req.isWrite = true → exec (.hbmSlotGrant n c) s = .next (s.settle ((s.setStack n ((s.stack n).setPc c g)).writeSlot n c r))))) ∧
    (∀ marks wrong cw fresh k, k = wrong.filter (fun i => decide (i < 36) && !marks.contains i) →
      (k = [] → decodeWord marks wrong cw fresh = .correct none) ∧ (∀ i, k = [i] → decodeWord marks wrong cw fresh = .correct (some i)) ∧
      (2 ≤ k.length → marks.length < 2 → k.length + marks.length ≤ 3 → decodeWord marks wrong cw fresh = .bad)) ∧
    (∀ cw n q b row back pins later, s.pcPlace (32 * cw) = some (n, q, b, row) →
      s.readCodeword cw true back pins later = (.bad, (s.raiseUe n q (32 * cw)).countUe n q) ∧
      (∀ pin, decodeWord (s.marks n q) pins cw s.fresh = .correct (some pin) →
        s.readCodeword cw false true pins later = (.correct (some pin), ((s.countCe n q pin).queueBack n q cw).tick)) ∧
      (decodeWord (s.marks n q) pins cw s.fresh = .bad →
        s.readCodeword cw false back pins later = (.bad, (((s.poisonUnless cw later).raiseUe n q (32 * cw)).countUe n q).tick))) ∧
    (∀ (n : Fin 24) (c : Fin 32) e p r cw d u took, p = (s.stack n).pc c → p.window.find? (fun r => r.slotted && !r.req.isWrite) = some r →
      cw = r.left.headD r.firstCw → s.readCodeword cw (r.poison.contains cw) true (e.pins.map Fin.val)
        (((s.stack n).inorder ++ p.window).filter fun t => decide (r.seq < t.seq)) = (d, u) →
      took = (p.window.map fun t => if !t.req.isWrite && t.covers cw && !t.served.contains cw && !t.behind ((s.stack n).inorder ++ p.window) then t.take cw d s.fresh else t) →
      exec (.hbmReadComplete n c e) s = .next (s.settle ((took.filter fun t => !t.req.isWrite && t.left == []).foldl State.answerRead
        (u.setStack n ((u.stack n).setPc c { (u.stack n).pc c with window := took.filter fun t => !(!t.req.isWrite && t.left == []) }))))) ∧
    (∀ (n : Fin 24) (c : Fin 32) e, ((s.stack n).pc c).window.find? (fun r => r.slotted && !r.req.isWrite) = none → exec (.hbmReadComplete n c e) s = .next s) ∧
    (∀ addr e n q b row, s.pcPlace addr = some (n, q, b, row) →
      (((s.stack n).scrubbed.contains (addr / 32) = true ∨ ((s.stack n).chan (q / 2)).resetAt.isSome = true ∨ (s.nextRequest n q).isSome = true ∨ s.inorderWaits n q = true) →
        exec (.scrubRead addr e) s = .next s) ∧
      (∀ u, (s.stack n).scrubbed.contains (addr / 32) = false → ((s.stack n).chan (q / 2)).resetAt = none → s.nextRequest n q = none → s.inorderWaits n q = false →
        u = s.setStack n { s.stack n with scrubbed := addr / 32 :: (s.stack n).scrubbed } →
        exec (.scrubRead addr e) s = .next (s.settle (u.readCodeword (addr / 32)
          (u.isPoisoned addr) true (e.pins.map Fin.val) (((s.stack n).inorder ++ ((s.stack n).pc q).window).filter fun r => r.req.isWrite)).2))) ∧
    (∀ n : Fin 24, ((s.stack n).intervalAt + s.hbm.scrubHours.toNat * 360000000000 ≤ s.now → exec (.scrubIntervalEnd n) s = .next
      (s.setStack n { s.stack n with
        intervalAt := s.now
        scrubbed := []
        pcs := (List.range 32).foldl (fun t q => Tab.modify (fun _ => Pchan.reset) t q fun p => { p with ce := 0, pins := [] }) (s.stack n).pcs
        chans := (List.range 16).foldl (fun t c => Tab.modify (fun _ => Chan.reset) t c fun x => { x with ue := 0 }) (s.stack n).chans })) ∧
      (s.now < (s.stack n).intervalAt + s.hbm.scrubHours.toNat * 360000000000 → exec (.scrubIntervalEnd n) s = .next s)) ∧
    (∀ (n : Fin 24) q m off, s.hbmPlace q.addr = some (m, off) →
      ((8 ≤ (s.stack m).inorder.length ∨ (s.stack m).atDoor ≠ []) → exec (.inOrderAccess ⟨n, some q⟩) s =
        .next (s.setStack m { s.stack m with atDoor := (s.stack m).atDoor ++ [q] })) ∧
      ((s.stack m).inorder.length < 8 → (s.stack m).atDoor = [] → ∀ r u, s.accept q (s.stack m).seq (s.hbmCycle m) = (r, u) →
        exec (.inOrderAccess ⟨n, some q⟩) s = .next (s.settle (u.setStack m { s.stack m with seq := (s.stack m).seq + 1, inorder := (s.stack m).inorder ++ [r] })))) ∧
    (∀ n : Fin 24, (s.stack n).inorder = [] → exec (.inOrderAccess ⟨n, none⟩) s = .next s) ∧
    (∀ (n : Fin 24) r rest m q b row blocked, (s.stack n).inorder = r :: rest → s.pcPlace r.req.addr = some (m, q, b, row) →
      blocked = (((s.stack n).chan (q / 2)).resetAt.isSome || r.behind ((s.stack n).pc q).window ||
        decide (16 ≤ (((s.stack n).pc q).window.filter fun t => t.slotted && (s.bankRow t).1 == b).length)) →
      (blocked = true → exec (.inOrderAccess ⟨n, none⟩) s = .next s) ∧
      (∀ u later, blocked = false → u = s.setStack n (Stack.setPc { s.stack n with inorder := rest } q { (s.stack n).pc q with
          openRows := Tab.set (fun _ => none) ((s.stack n).pc q).openRows b (some row) }) →
        later = (rest ++ ((s.stack n).pc q).window).filter (fun t => decide (r.seq < t.seq)) →
        (r.req.isWrite = true → exec (.inOrderAccess ⟨n, none⟩) s = .next (s.settle (((r.cws.foldl (fun s cw =>
          if s.lineHeld (32 * cw) then s.useLine (cw / 8) true true else s.writeCodeword cw [r] (r :: later)) u).nextInOrder n).inOrderDone r))) ∧
        (∀ r' v, r.req.isWrite = false → u.inorderRead r later = (r', v) → exec (.inOrderAccess ⟨n, none⟩) s = .next (s.settle ((v.nextInOrder n).inOrderDone r'))))) ∧
    ((s.tier.ddrScrubAt + 8640000000000 ≤ s.now → exec .ddr5Scrub s = .next { s with tier := { s.tier with ddrScrubAt := s.now } }) ∧
      (s.now < s.tier.ddrScrubAt + 8640000000000 → exec .ddr5Scrub s = .next s)) ∧
    (∀ i b due, (i, due) ∈ ([(.flashReadRelocate b, s.blockHolds b && decide (100000 ≤ (s.block b).reads)),
        (.flashWearRelocate b, s.holdsSealed b && decide ((s.block b).erases + 2000 ≤ s.highestErase (s.tier.nand.dieOf b)))] : List (Instr × Bool)) →
      (s.blockGood b = true → due = true → ∃ t, exec i s = .next t ∧ t = s.settle (s.relocate b false) ∧ ChangesOnly [.tier, .fresh] s t ∧
        t.tier.objs.map Obj.apart = s.tier.objs.map Obj.apart) ∧
      ((s.blockGood b = false ∨ due = false) → exec i s = .next s)) ∧
    (∀ b, (s.blockGood b = false → exec (.flashProgramFail b) s = .next s) ∧
      (s.blockGood b = true → ∃ t, exec (.flashProgramFail b) s = .next t ∧
        t = s.settle (if s.blockHolds b then (s.retire b).relocate b true else s.retire b) ∧ ChangesOnly [.tier, .fresh] s t ∧
        t.tier.objs.map Obj.apart = s.tier.objs.map Obj.apart ∧ (Tab.rising s.tier.blocks = true → (t.block b).retired = true)))

/-- O27: A COPY record whose accesses go ahead writes its source, converted where the record says so, to the rows of its destination, or of the landing's slot at the cursor, and its check values where it asks for them; the landing's ready object of that slot is signalled and the cursor goes on. Without check values, with streams on both sides and no row in DDR5, every byte of memory outside the destination rows is as before. A record whose accesses are held writes nothing. A record with a landing first waits on the free object and takes one count. A destination that is an open flash object of the context with room takes the bytes at its end, and no other object changes. -/
def Obligations.ferries_copy_rows_and_fill_landings : Prop :=
  ∀ (s : State) (e : Fin 24) w r sd dd, s.Live → s.RecordDue e 0 w r → (w.doneBytes ≠ 0 ∨ s.flashInOrder r = true) → s.chkWaits e r = false →
    sd = s.streamDesc r.src → dd = s.streamDesc r.dst →
    (∀ x y bs z u out v, r.lslots = 0 →
      s.access e (s.streamRows sd sd.base 0 (r.srcRows sd)) (s.streamRows dd dd.base 0 (r.dstRows dd)) = (true, x) →
      y = (x.engineStream e w.ctx r.src sd.base (r.srcRows sd)).engineStream e w.ctx r.dst dd.base (r.dstRows dd) →
      y.copySource e w.ctx r sd = .ok (bs, z) → u = z.checkRecord e w r sd dd dd.base bs → (u.ctx w.ctx).state ≠ 5 →
      out = (if r.srcFmt = 0 then bs else convertBytes r.srcFmt r.dstFmt (r.draws w dd) bs) → u.copyDest w r dd dd.base out = (v, none) →
      ∃ t, exec (.copy e) s = .next t ∧ t = s.settle (((v.engineTook e r.src (r.srcRows sd)).engineTook e r.dst (r.dstRows dd)).wrote e
          { w with doneBytes := if r.toFlash then r.dstBytes 0 else 0 }) ∧
        (r.fromFlash = false → r.toFlash = false → r.chkOn = false → ((y.streamRows sd sd.base 0 (r.count / sd.rowBytes)).filter fun q => region q.1 == 1) = [] →
          dd.index = 0 → s.hbm.poisoned = [] → ∀ k,
          (∀ i < out.length / dd.rowBytes, ∀ j < dd.rowBytes, s.key ((s.rowAt dd dd.base i).addr + j) ≠ some k) → t.mem.read k = s.mem.read k)) ∧
    (∀ a x y bs z u out v o base, r.lslots ≠ 0 → w.freeTaken = true → a = s.setHead e w → base = dd.base + w.cursor % r.lslots * r.lslotBytes →
      a.access e (a.streamRows sd sd.base 0 (r.srcRows sd)) (a.streamRows dd base 0 (r.dstRows dd)) = (true, x) →
      y = (x.engineStream e w.ctx r.src sd.base (r.srcRows sd)).engineStream e w.ctx r.dst base (r.dstRows dd) →
      y.copySource e w.ctx r sd = .ok (bs, z) → u = z.checkRecord e w r sd dd base bs → (u.ctx w.ctx).state ≠ 5 →
      out = (if r.srcFmt = 0 then bs else convertBytes r.srcFmt r.dstFmt (r.draws w dd) bs) → u.copyDest w r dd base out = (v, none) →
      r.lready + w.cursor % r.lslots ≠ 0xFFFF → v.objOf w.ctx (r.lready + w.cursor % r.lslots) = some o →
      exec (.landingFill e) s = .next (s.settle
        ((((v.engineTook e r.src (r.srcRows sd)).engineTook e r.dst (r.dstRows dd)).wrote e { w with freeTaken := false, cursor := (w.cursor + 1) % r.lslots }).signal o 1))) ∧
    (∀ x, r.lslots = 0 → s.access e (s.streamRows sd sd.base 0 (r.srcRows sd)) (s.streamRows dd dd.base 0 (r.dstRows dd)) = (false, x) →
      exec (.copy e) s = .next (s.settle x) ∧ x.mem = s.mem) ∧
    (∀ o u, r.lslots ≠ 0 → w.freeTaken = false → w.waiting = false → s.objOf w.ctx (r.lready + r.lslots) = some o →
      u = s.enqueue [(o, { who := .landing e, n := 1, takes := true })] → u.waited (.landing e) = false →
      exec (.landingFill e) s = .next (s.settle (u.setHead e { w with waiting := true }))) ∧
    (∀ (u : State) o out base, r.toFlash = true → u.objById r.obj = some o → o.sealed = false → o.ctx = w.ctx → o.base = 0 → r.objOff + out.length ≤ o.size →
      ∃ v, u.copyDest w r dd base out = (v, none) ∧ ChangesOnly [.tier, .fresh, .mem] u v ∧
        v.tier.objs.map Obj.apart = u.tier.objs.map (fun x => (if x.id.toNat = r.obj then { x with written := r.objOff + out.length } else x).apart) ∧
        (u.mem.wf = true → w.doneBytes = 0 → ∀ i (h : i < out.length), v.mem.read (flashKey r.obj r.objOff + i) = out[i]))

/-- O28: When every write of the head record has been accepted, its check unit is free, the streams that no later record of the list names are released, the engine goes on to the next record or, with the last one, drops the work, a FERRY command has performed, and the record's SYNC object gains one count. Before that, and with no work, nothing happens. -/
def Obligations.records_complete_in_order_and_signal : Prop :=
  ∀ (s : State) (e : Fin 28), s.Live →
    ((s.engine e).head = none → exec (.recordComplete e) s = .next s) ∧
    (∀ w, (s.engine e).head = some w → w.written = false → exec (.recordComplete e) s = .next s) ∧
    (∀ w later over_ y sync, (s.engine e).head = some w → w.written = true → sync = s.workSync e w →
      later = s.streamsFrom e (w.count - w.pos) (s.advanceWork e w) → over_ = (s.workStreams e w).filter (fun d => !later.contains d) →
      y = (s.freeUnits [e.val]).releaseStreams (fun x => x.engine == engineSource e && over_.contains x.desc) →
      (w.pos + 1 < w.count → exec (.recordComplete e) s = .next (s.settle
        ((y.setEngine e { y.engine e with work := y.advanceWork e w :: (y.engine e).work.tail, noProg := 0 }).signalTask w.ctx sync (engineArray e) (engineSource e)))) ∧
      (¬w.pos + 1 < w.count → ∀ k, w.cmd = some k → exec (.recordComplete e) s = .next (s.settle
        (((y.setEngine e { y.engine e with work := (y.engine e).work.tail, noProg := 0 }).updCmd k fun c => { c with phase := .performed }).signalTask w.ctx sync
          (engineArray e) (engineSource e)))) ∧
      (¬w.pos + 1 < w.count → w.cmd = none → exec (.recordComplete e) s = .next (s.settle
        ((y.setEngine e { y.engine e with work := (y.engine e).work.tail, noProg := 0 }).signalTask w.ctx sync (engineArray e) (engineSource e)))))

/-- O29: CREATE with room writes the next identifier and the base to RET, and the object is open and empty in its tier; with too little free space it writes 0 and 0. SEAL of an open object of the context seals it; a flash object is shrunk to its written bytes and enters both directory copies; a sealed object stays as it is, and of another context's open object it faults with cause 2. RELEASE removes a sealed object, or an open one of its creator, with its directory entries. -/
def Obligations.objects_are_created_sealed_and_released : Prop :=
  ∀ (s : State) (e : Fin 24) w r, s.Live →
    (∀ size tier base u id, s.RecordDue e 3 w r → size = r.f 0x10 8 → tier = r.f 0x18 1 → s.writeFault w.ctx r.src 16 = 0 →
      (if tier = 1 then s.ddrFind size else if size ≤ s.flashFree then some 0 else none) = some base → id = s.nextId tier →
      u = s.addObj { id := BitVec.ofNat 64 id, base := base, size := size, written := 0, sealed := false, ctx := w.ctx, stash := false, extents := [] } →
      exec (.create e) s = .next (s.settle ((u.refreshFlash.store r.src (leBytes 8 id ++ leBytes 8 base)).wrote e w))) ∧
    (s.RecordDue e 3 w r → s.writeFault w.ctx r.src 16 = 0 →
      (if r.f 0x18 1 = 1 then s.ddrFind (r.f 0x10 8) else if r.f 0x10 8 ≤ s.flashFree then some 0 else none) = none →
      exec (.create e) s = .next (s.settle ((s.store r.src (leBytes 16 0)).wrote e w))) ∧
    (∀ o, s.RecordDue e 4 w r → s.objById r.obj = some o → o.sealed = true → exec (.seal e) s = .next (s.settle (s.wrote e w))) ∧
    (∀ o, s.RecordDue e 4 w r → s.objById r.obj = some o → o.sealed = false → o.ctx = w.ctx →
      ∃ v, exec (.seal e) s = .next (s.settle (v.wrote e w)) ∧ ChangesOnly [.tier] s v ∧
        (∀ t, o.base = 0 → t = { o with sealed := true, size := min o.size o.written } →
          v.tier.objs = s.tier.objs.map (fun x => if x.id.toNat = r.obj then t else x) ∧ v.tier.dirA = s.tier.dirA ++ [t] ∧ v.tier.dirB = s.tier.dirB ++ [t]) ∧
        (o.base ≠ 0 → v.tier.objs = s.tier.objs.map (fun x => if x.id.toNat = r.obj then { x with sealed := true } else x) ∧
          v.tier.dirA = s.tier.dirA ∧ v.tier.dirB = s.tier.dirB)) ∧
    (∀ o, s.RecordDue e 4 w r → s.objById r.obj = some o → o.sealed = false → o.ctx ≠ w.ctx →
      exec (.seal e) s = .next (s.settle (s.faultWork e w 2 0 srcTier r.obj))) ∧
    (∀ o, s.RecordDue e 5 w r → s.objById r.obj = some o → (o.sealed = true ∨ o.ctx = w.ctx) →
      ∃ v, exec (.release e) s = .next (s.settle (v.wrote e w)) ∧ ChangesOnly [.tier] s v ∧
        v.tier.objs = s.tier.objs.filter (fun x => x.id.toNat != r.obj) ∧ v.tier.dirA = s.tier.dirA.filter (fun x => x.id.toNat != r.obj) ∧
        v.tier.dirB = s.tier.dirB.filter (fun x => x.id.toNat != r.obj)) ∧
    (∀ o, s.RecordDue e 5 w r → s.objById r.obj = some o → o.sealed = false → o.ctx ≠ w.ctx →
      exec (.release e) s = .next (s.settle (s.faultWork e w 2 0 srcTier r.obj)))

/-- O30: With no step waiting: ALLOC of a micro-batch that is not in the book takes its free slot and becomes writing; CLOSE of a writing one makes it closed; OPEN of a closed one makes it open; each signals the step's object. FREE of a closed, open or spilled one removes it, with its object and unit. ALLOC whose slot is held by a writing or open micro-batch waits for reason 2 and raises STASH_FULL; one whose slot a closed micro-batch holds begins its spill where two units are free, else waits for reason 1. A step from any other state faults the context with cause 6. -/
def Obligations.stash_steps_follow_the_books : Prop :=
  ∀ (s : State) (a : Fin 8) t w u, s.Live → t.waiting = [] → (s.ctx t.ctx).state ≠ 5 →
    (∀ c b t1 v o, ((c = Instr.alloc a ∧ s.StashDue a 1 t w u ∧ t.mbOf w.mb = none ∧ t.occupant w.mb = none ∧ b = 1) ∨
        (c = .close a ∧ s.StashDue a 2 t w u ∧ (∃ m, t.mbOf w.mb = some m ∧ m.st = 1) ∧ b = 2) ∨
        (c = .open_ a ∧ s.StashDue a 3 t w u ∧ (∃ m, t.mbOf w.mb = some m ∧ m.st = 2) ∧ b = 3)) →
      t1 = t.setMb w.mb b 0 → s.objOf t.ctx w.sync.toNat = some o → w.sync.toNat ≠ 0xFFFF → v = (u.putStash t1).signal o 1 →
      exec c s = .next (s.settle (v.setWaiting t1 []))) ∧
    (∀ m v, s.StashDue a 1 t w u → t.mbOf w.mb = none → t.occupant w.mb = some m → (m.st = 1 ∨ m.st = 3) →
      v = (u.putStash t).stashFull t w 2 → (v.stashOf t.ctx t.id = some t) →
      exec (.alloc a) s = .next (s.settle (v.setWaiting t [{ w with reason := 2 }]))) ∧
    (∀ m v, s.StashDue a 1 t w u → t.mbOf w.mb = none → t.occupant w.mb = some m → m.st = 2 → t.freeUnits < 2 →
      v = (u.putStash t).stashFull t w 1 → (v.stashOf t.ctx t.id = some t) →
      exec (.alloc a) s = .next (s.settle (v.setWaiting t [{ w with reason := 1 }]))) ∧
    (∀ m t1, s.StashDue a 1 t w u → t.mbOf w.mb = none → t.occupant w.mb = some m → m.st = 2 → 2 ≤ t.freeUnits →
      t1 = { t.setMb m.mb 5 0 with heldUnits := t.heldUnits + 1 } →
      exec (.alloc a) s = .next (s.settle ((u.putStash t1).setWaiting t1 [w]))) ∧
    (∀ m v, s.StashDue a 4 t w u → t.mbOf w.mb = some m → m.st ≠ 1 →
      v = (if m.st = 4 ∨ m.st = 6 then u.removeObj m.obj.toNat else u) →
      exec (.free a) s = .next (s.settle (((v.putStash ({ t.dropMb w.mb with heldUnits := if 4 ≤ m.st then t.heldUnits - 1 else t.heldUnits }.freed v.now)).signalTask
        t.ctx w.sync.toNat a srcTier).stashChanged t.ctx t.id))) ∧
    (∀ c, ((c = Instr.alloc a ∧ s.StashDue a 1 t w u ∧ (t.mbOf w.mb).isSome = true) ∨
        (c = .close a ∧ s.StashDue a 2 t w u ∧ ∀ m, t.mbOf w.mb = some m → m.st ≠ 1) ∨
        (c = .open_ a ∧ s.StashDue a 3 t w u ∧ ∀ m, t.mbOf w.mb = some m → m.st = 1 ∨ m.st = 3)) →
      exec c s = .next (s.settle ((u.setWaiting t []).stashFault t.ctx a 0 w.mb))) ∧
    (s.StashDue a 4 t w u → (∀ m, t.mbOf w.mb = some m → m.st = 1) →
      exec (.free a) s = .next (s.settle (u.stashFault t.ctx a 0 w.mb)))

/-- O31: A spill that is done leaves a sealed object of the slot's bytes in the reserve and the micro-batch spilled; of poisoned data it faults the context with cause 3. A restore that is done leaves the bytes in the slot, the object and its unit released, and the micro-batch open, and signals its OPEN step; data that DDR5 cannot correct fault the context with cause 3. When a step has waited for TIMEOUT_MS, the waiting steps are abandoned and the context is faulted with cause 6. -/
def Obligations.spills_restores_and_the_stash_timeout : Prop :=
  ∀ (s : State) (c : Fin 64) (i : Fin 256) t, s.Live → s.stashOf c i = some t →
    (∀ m o u, t.mbs.find? (fun m => m.st == 5) = some m → s.poisonIn (t.slotAddr m.mb) t.slotBytes = false →
      o = ({ id := BitVec.ofNat 64 (s.nextId 1), base := s.reservePlace t, size := t.slotBytes, written := 0, sealed := true, ctx := c.val, stash := true, extents := [] } : Obj) →
      u = (s.addObj o).store o.base (s.rdN (t.slotAddr m.mb) t.slotBytes) →
      exec (.spillDone c i) s = .next (s.settle ((u.putStash ((t.setMb m.mb 4 o.id).freed u.now)).stashChanged c i))) ∧
    (∀ m, t.mbs.find? (fun m => m.st == 5) = some m → s.poisonIn (t.slotAddr m.mb) t.slotBytes = true →
      exec (.spillDone c i) s = .next (s.settle (s.rowFault c 0x10 3 (t.slotAddr m.mb) t.slotBytes))) ∧
    (∀ m o x, t.mbs.find? (fun m => m.st == 6) = some m → s.objById m.obj.toNat = some o → x = s.ddrRead false o.base t.slotBytes →
      (x.poisonIn o.base t.slotBytes = true → exec (.stashRestoreDone c i) s = .next (s.settle (x.rowFault c 0x10 3 o.base t.slotBytes))) ∧
      (∀ u v, x.poisonIn o.base t.slotBytes = false → u = (x.tick.store (t.slotAddr m.mb) (x.rdN o.base t.slotBytes)).removeObj m.obj.toNat →
        v = { (t.setMb m.mb 3 0).freed u.now with heldUnits := t.heldUnits - 1 } →
        (t.waiting = [] → exec (.stashRestoreDone c i) s = .next (s.settle ((u.putStash v).stashChanged c i))) ∧
        (∀ w, t.waiting.find? (fun w => w.op == 3 && w.mb == m.mb) = some w → (u.ctx c).state ≠ 5 → exec (.stashRestoreDone c i) s = .next (s.settle
          (((u.putStash { v with waiting := t.waiting.erase w }).signalTask c w.sync.toNat w.array srcTier).stashChanged c i))))) ∧
    (∀ since w, t.since = some since → t.waiting.find? (fun w => w.reason != 0) = some w → since + t.timeoutMs * 100000 ≤ s.now →
      exec (.stashTimeout c i) s = .next (s.settle ((s.setWaiting t []).stashFault c w.array 0x0305 w.mb)))

/-- O32: A replay of a Span flit counts for the flit on the wire of its direction, and changes neither the other direction nor the other Span. A Span serves its control queue before all others and keeps the order within every queue. After 16 consecutive replays of a flit the hub reports the hung Span once, by watchdog 9. A window access goes to the scratchpad at once, and to a bank at once unless its array has a tile in flight, when it is held; a read answers the bytes and a write replaces them. The held accesses are served in order when no tile is in flight and no bank write is outstanding. -/
def Obligations.span_and_window_events_act : Prop :=
  ∀ (s : State), s.Live →
    (∀ e h arrived q flit l x, l = List.foldl SpanLane.join ((s.span e).lane h) arrived → l.serveTo (q.val, flit) l.waiting = some x →
      ∃ t, exec (.spanFlitReplay ⟨e, h, arrived, q, flit⟩) s = .next t ∧ ChangesOnly [.spanW, .spanE] s t ∧ (t.span e).lane h = { x with replays := x.replays + 1 } ∧
        (t.span e).lane (!h) = (s.span e).lane (!h) ∧ (t.span e).hung = (s.span e).hung ∧ t.span (!e) = s.span (!e)) ∧
    (∀ e h arrived q flit l, l = List.foldl SpanLane.join ((s.span e).lane h) arrived → l.serveTo (q.val, flit) l.waiting = none →
      exec (.spanFlitReplay ⟨e, h, arrived, q, flit⟩) s = .next s) ∧
    (∀ (l : SpanLane), (∀ f fs, l.control = f :: fs → l.serve = { l with control := fs, sending := some (0, f), replays := 0 }) ∧
      ∀ q : Fin 4, l.serve.queue q = l.queue q ∨ ∃ f, l.queue q = f :: l.serve.queue q) ∧
    (∀ e u, (16 ≤ (s.span e).toDie.replays ∨ 16 ≤ (s.span e).toHub.replays) → (s.span e).hung = false → u = s.setSpan e { s.span e with hung := true } →
      exec (.spanHung e) s = .next (s.settle ((u.raiseHang 9 (bit e) 4 0 0xFFFF 0).requestWarm 10 (bit e) 9 true true))) ∧
    (∀ e, (((s.span e).toDie.replays < 16 ∧ (s.span e).toHub.replays < 16) ∨ (s.span e).hung = true) → exec (.spanHung e) s = .next s) ∧
    (∀ (a : Fin 8) w, w.offset + max w.size w.data.length ≤ 0x400_0000 → s.dbg.busy = false →
      (w.offset + max w.size w.data.length ≤ 0x300_0000 ∨ (s.array a).inflight = []) → 0 < max w.size w.data.length →
      (w.isWrite = false → exec (.windowAccess a w) s = .next (s.sendOut (.readBytes (s.rdN (windowBase a + w.offset) w.size)))) ∧
      (w.isWrite = true → exec (.windowAccess a w) s = .next (s.settle (s.store (windowBase a + w.offset) w.data)) ∧
        (s.mem.wf = true → ∀ t, exec (.windowAccess a w) s = .next t →
          (∀ i (h : i < w.data.length), t.mem.read (windowBase a + w.offset + i) = w.data[i]) ∧
          ∀ k, (k < windowBase a + w.offset ∨ windowBase a + w.offset + w.data.length ≤ k) → t.mem.read k = s.mem.read k))) ∧
    (∀ (a : Fin 8) w, w.offset + max w.size w.data.length ≤ 0x400_0000 → 0x300_0000 ≤ w.offset → (s.array a).inflight ≠ [] →
      0 < max w.size w.data.length →
      exec (.windowAccess a w) s = .next (s.setArray a { s.array a with window := (s.array a).window ++ [w] })) ∧
    (∀ (a : Fin 8), (s.array a).inflight = [] → (s.array a).draining = false →
      exec (.bankWindowServe a) s = .next (s.settle ((s.array a).window.foldl (fun (s : State) w => s.serveWindow a w)
        (s.setArray a { s.array a with window := [] }))))

/-- O33: A training port that has trained takes its rate and framing and sends its handshake; in Ethernet mode it is up. A handshake with the port's own framing, allowed at its rate, brings it up with empty books; another leaves it down with reason 5 and LINK_DOWN. With no progress for RETRY_TO the port replays its retry buffer, or after RETRY_LIMIT replays retrains; a retrain that is done replays from the last ACK, and one that lasts RETRAIN_MS takes the link down with reason 2. DOWN takes it down with reason 3 and an alignment loss with reason 1; a port that is not up stays as it is. After 100 us of draining the receive buffer is dropped and the port trains again, or is off where its mode is 0. -/
def Obligations.links_come_up_and_go_down : Prop :=
  ∀ (s : State) (p : Fin 16), s.Live →
    (∀ x, (s.port p).state = 1 → (s.port p).trained = false →
      x = s.setPort p { s.port p with trained := true, curRate := (s.port p).rate, curFraming := (s.port p).framing, curMode := (s.port p).mode } →
      ((s.port p).mode = 1 → ∃ t, exec (.linkTrained p) s = .next t ∧ ChangesOnly [.fab, .out] s t ∧ t = x.sendOut (.handshakeFlit p
        { framing := (s.port p).framing, peer := s.fab.id, peerValid := s.fab.valid, alloc := (s.port p).alloc.map BitVec.toNat })) ∧
      ((s.port p).mode = 2 → ∃ u, u = x.comeUp p 0 false ((s.port p).alloc.map BitVec.toNat) ∧
        exec (.linkTrained p) s = .next { u with pending := s.pending, now := s.now, strapped := s.strapped, tap := s.tap })) ∧
    (∀ h, (s.port p).state = 1 → (s.port p).trained = true → h.framing = (s.port p).curFraming → framingAllowed (s.port p).curFraming (s.port p).curRate = true →
      (s.fab.valid && h.peerValid && h.peer == s.fab.id) = false → ∃ u, u = s.comeUp p h.peer h.peerValid h.alloc ∧
      exec (.handshake p h) s = .next { u with pending := s.pending, now := s.now, strapped := s.strapped, tap := s.tap }) ∧
    (∀ h, (s.port p).state = 1 → (s.port p).trained = true → h.framing ≠ (s.port p).curFraming → ∃ u t,
      u = s.setPort p ({ s.port p with state := 5, trained := false, peer := h.peer, peerValid := h.peerValid, lastDown := 5 } : Port) ∧
      t = u.raise0 0x0401 (srcPort p) (leBytes 1 p ++ leBytes 1 5 ++ leBytes 2 h.peer.toNat ++ leBytes 1 (bit h.peerValid)) ∧
      exec (.handshake p h) s = .next t ∧ ChangesOnly [.fab, .mem, .hif, .out, .pldm, .pins] s t) ∧
    ((s.port p).state = 2 → (s.port p).curMode ≠ 2 → (s.port p).retry ≠ [] → (s.port p).ackAt + (s.port p).retryTo.toNat ≤ s.now →
      exec (.retryTimeout p) s = .next (s.startReplay p) ∧
      ((s.port p).replays < (s.port p).retryLimit.toNat → s.startReplay p = s.setPort p
        (({ s.port p with replays := (s.port p).replays + 1, replay := (s.port p).retry, ackAt := s.now } : Port).count 0 1)) ∧
      ((s.port p).retryLimit.toNat ≤ (s.port p).replays → s.startReplay p = s.setPort p (({ s.port p with state := 3, trainAt := s.now, replay := [] } : Port).count 3 1))) ∧
    ((s.port p).state = 3 → exec (.retrainDone p) s = .next (s.setPort p { s.port p with state := 2, replay := (s.port p).retry, replays := 0, ackAt := s.now })) ∧
    ((s.port p).state = 3 → (s.port p).trainAt + (s.port p).retrainMs.toNat * 100000 ≤ s.now → exec (.retrainTimeout p) s = .next (s.settle (s.goDown p 2))) ∧
    (exec (.down p) s = .next (s.settle (s.goDown p 3)) ∧ exec (.alignmentLoss p) s = .next (s.settle (s.goDown p 1)) ∧
      ∀ r, ChangesOnly [.mem, .hif, .out, .pldm, .pins, .fab, .sec, .dbg, .ctxs] s (s.goDown p r) ∧ ((s.port p).state ≠ 2 → (s.port p).state ≠ 3 → s.goDown p r = s)) ∧
    ((s.port p).state = 4 → (s.port p).drainAt + 10000 ≤ s.now → (s.port p).mode = 0 → ∃ u, u = s.dropBuffer p ∧ (u.port p).mode = (u.port p).mode ∧
      exec (.drainTimeout p) s = .next (u.setPort p (if (u.port p).mode = 0 then { u.port p with state := 0 }
        else if u.rst.portHeld.toNat.testBit p then { u.port p with state := 5 } else (u.port p).train u.now)))

/-- O34: A port that is up sends, before anything new, the flits it has to replay; else the next flit of the packet in progress, or of the packet that arbitration picks, with its sequence number, kept in the retry buffer; the packet has left with its last flit; with nothing to send, or the retry buffer full, an IDLE flit. A received data flit with good codes that bears the next sequence number is accepted; one with another number or a bad CRC is discarded, with a NAK at the first discard. -/
def Obligations.flits_are_sent_and_received_in_order : Prop :=
  ∀ (s : State) (p : Fin 16), s.Live → (s.port p).state = 2 → (s.port p).curMode ≠ 2 →
    (∀ f rest x, x = (s.port p).noteWaits s.now → x.replay = f :: rest → ∃ t, exec (.flitSend p) s = .next t ∧
      t = State.emit ((s.setPort p x).setPort p { x with replay := rest }) p (some f) f.body ∧ ChangesOnly [.fab, .out] s t) ∧
    (∀ x y, x = (s.port p).noteWaits s.now → x.replay = [] →
      ((x.toSend ≠ [] ∧ y = x) ∨ (x.toSend = [] ∧ x.pick = none ∧ y = x) ∨
        (∃ v turn e, x.toSend = [] ∧ x.pick = some (v, turn) ∧ x.headOf v = some e ∧
          y = { x.serve v e with wrr := turn, sending := some e, toSend := flitsOfPacket e.2 })) →
      ((y.toSend = [] ∨ 1024 ≤ y.retry.length) → ∃ t, exec (.flitSend p) s = .next t ∧
        t = State.emit ((s.setPort p x).setPort p y) p none (padTo 244 [0]) ∧ ChangesOnly [.fab, .out] s t) ∧
      (∀ f rest u, y.toSend = f :: rest → y.retry.length < 1024 → u = State.emit ((s.setPort p x).setPort p { y with
          toSend := rest
          txSeq := y.txSeq + 1
          retry := y.retry ++ [{ f with seq := y.txSeq }]
          ackAt := if y.retry = [] then s.now else y.ackAt
          sentFlits := Tab.modify (fun _ => 0) y.sentFlits f.vc fun n => (n + 1) % 65536
          sending := if f.eop then none else y.sending }) p (some { f with seq := y.txSeq }) f.body →
        (f.eop = false → exec (.flitSend p) s = .next u ∧ ChangesOnly [.fab, .out] s u) ∧
        (∀ e, f.eop = true → y.sending = some e → exec (.flitSend p) s = .next (s.settle (u.packetSent e))))) ∧
    (∀ f x, x = (((s.port p).count 2 f.fecCorrected).freedCount (bits f.header.toNat 32 3) (bits f.header.toNat 35 16)).acked
        (BitVec.ofNat 12 (bits f.header.toNat 12 12)) s.now → f.fecOk = true → f.crc = flitCrc f.header f.body → bitOf f.header.toNat 30 = true →
      bitOf f.header.toNat 24 = false →
      (BitVec.ofNat 12 f.header.toNat = x.rxSeq + 1 → exec (.flitReceive p f) s = .next (s.setPort p (x.accept f.header.toNat f.body))) ∧
      (BitVec.ofNat 12 f.header.toNat ≠ x.rxSeq + 1 → exec (.flitReceive p f) s = .next
        (s.setPort p { x with nakPending := x.nakPending || !x.discarding, discarding := true }))) ∧
    (∀ f x, x = ((s.port p).count 2 f.fecCorrected).count 1 1 → f.crc ≠ flitCrc f.header f.body → bitOf f.header.toNat 30 = true →
      exec (.flitReceive p f) s = .next (s.setPort p { x with nakPending := x.nakPending || !x.discarding, discarding := true }))

/-- O35: The oldest packet injected, or received on a port, leaves its place. A LOCAL management packet is delivered; with the engines off any other channel's packet counts as NO_ROUTE; the module's own packet is delivered; one without hops counts as HOPS; one whose route entry is empty counts as NO_ROUTE; else it goes on, one hop less, to the set bit of the entry that the hash names. An Ethernet port sends the packet that arbitration picks as one frame. A good frame of an Ethernet port joins its packets; a foreign one is dropped and counted; a pause of the peer marks the priority. -/
def Obligations.packets_are_routed_and_frames_taken : Prop :=
  ∀ (s : State), s.Live →
    (∀ p rest u, s.fab.inject = p :: rest → u = { s with fab := { s.fab with inject := rest } } → exec (.packetRoute none) s = .next (s.settle (u.route none p))) ∧
    (s.fab.inject = [] → exec (.packetRoute none) s = .next s) ∧
    (∀ (q : Fin 16) n p rest u, (s.port q).rxPackets = (n, p) :: rest → u = s.setPort q { s.port q with rxPackets := rest } →
      exec (.packetRoute (some q)) s = .next (s.settle ((u.route (some q) p).afterDrain q))) ∧
    (∀ inp p,
      (p.vc.val = 6 → p.isLocal = true → s.route inp p = s.deliver inp p) ∧
      (p.vc.val ≠ 6 → s.boot.level ≠ 2 → s.route inp p = (s.countDrop 0 1).freeFlits inp p) ∧
      ((p.vc.val = 6 → p.isLocal = false) → (p.vc.val ≠ 6 → s.boot.level = 2) →
        (s.fab.valid = true → p.dst = s.fab.id → s.route inp p = s.deliver inp p) ∧
        (¬(s.fab.valid = true ∧ p.dst = s.fab.id) →
          (p.hops = 0 → s.route inp p = (s.countDrop 2 1).freeFlits inp p) ∧
          (p.hops ≠ 0 → popcount 16 (s.routeEntry p.dst).toNat = 0 → s.route inp p = (s.countDrop 0 1).freeFlits inp p) ∧
          (∀ out, p.hops ≠ 0 → popcount 16 (s.routeEntry p.dst).toNat ≠ 0 → nthSetBit 16 (s.routeEntry p.dst).toNat
              (routeHash p.src p.dst p.vc.val % popcount 16 (s.routeEntry p.dst).toNat) 0 = some out →
            s.route inp p = s.forward inp { p with hops := p.hops - 1 } out)))) ∧
    (∀ (p : Fin 16) f, (s.port p).state = 2 → (s.port p).curMode = 2 →
      (f.fcsOk = true → f.etherType = s.fab.etherType → f.dstMac.toNat / 65536 = s.fab.pfx.toNat → exec (.ethernetFrameReceive p f) s = .next (s.settle
        ((s.setPort p { s.port p with rxPackets := (s.port p).rxPackets ++ [(flitsOf f.packet, f.packet)] }).pauseCheck p f.packet.vc.val))) ∧
      ((f.fcsOk = false ∨ f.etherType ≠ s.fab.etherType ∨ f.dstMac.toNat / 65536 ≠ s.fab.pfx.toNat) →
        exec (.ethernetFrameReceive p f) s = .next (s.countDrop 5 1)) ∧
      (∀ x, x = (s.port p).noteWaits s.now → (x.pick = none → exec (.flitSend p) s = .next (s.setPort p x)) ∧
        (∀ v turn e, x.pick = some (v, turn) → x.headOf v = some e → exec (.flitSend p) s = .next (s.settle
          ((((s.setPort p x).setPort p { x.serve v e with wrr := turn }).sendFrame p e.2).packetSent e)))) ∧
      (∀ (i : Fin 8) b, exec (.pfcPause p i b) s = .next (s.setPort p { s.port p with pausedTx := BitVec.ofNat 8 (setBitOf (s.port p).pausedTx.toNat i b) })))

/-- O36: For every packet whose payload has at most 4,096 bytes, the data flits that carry it have 244-byte bodies, are numbered on its virtual channel, only the first is a start and only the last an end, and the packet that a receiver reads from their bodies in order is the packet sent: every header field at every value, and the payload. -/
def Obligations.packets_survive_their_flits : Prop :=
  ∀ (p : Packet), p.payload.length ≤ 4096 →
    packetOf ((flitsOfPacket p).flatMap fun f => f.body) = p ∧ (flitsOfPacket p).length = flitsOf p ∧
    (∀ i (h : i < (flitsOfPacket p).length), (flitsOfPacket p)[i].body.length = 244 ∧ (flitsOfPacket p)[i].vc = p.vc ∧
      ((flitsOfPacket p)[i].sop = true ↔ i = 0) ∧ ((flitsOfPacket p)[i].eop = true ↔ i + 1 = flitsOf p))

/-- O37: A LOCAL bucket whose contribution is not under way queues its wait on READYOBJ; once the wait has yielded, its chunks go out from the first as far as credits last. A CONTRIB for the open step adds its chunks to their slots in order, and full slots leave; one for a later step is held where it lies, and one for an earlier step is taken, dropped and counted as stale. A CREDIT gives the bucket its credits back and lets waiting outputs leave. Slots whose sum has left are freed, with one combined CREDIT to each remote input. -/
def Obligations.contributions_are_added_in_step : Prop :=
  ∀ (s : State), s.Live →
    (∀ (k : Fin 16) i p b o u, s.bucketOf k i = some (p, b) → b.isLocal = true → b.sentStep = false → p.stopped = false → b.sending = none → b.readyWait = false →
      s.objOf p.ctxNo b.readyObj.toNat = some o →
      u = (s.updBucket k i fun b => { b with readyWait := true }).enqueue [(o, ⟨.ready k i, 1, true⟩)] →
      exec (.bucketContribute k i) s = .next (s.settle ((State.sendChunks k i (b.nchunk + 1) (if u.waited (.ready k i) = true
        then (u.consume (.ready k i)).updBucket k i fun b => { b with readyWait := false, sending := some 0 } else u)).rounds k))) ∧
    (∀ (k : Fin 16) i p b c, s.bucketOf k i = some (p, b) → b.isLocal = true → b.sentStep = false → p.stopped = false → b.sending = some c →
      exec (.bucketContribute k i) s = .next (s.settle ((State.sendChunks k i (b.nchunk + 1) s).rounds k))) ∧
    (∀ p j q t i b m input, s.ForJob p [2, 3] 1 j q t → p.step = q.openStep → q.entryOf p.bucket.toNat = some (i, b) → t.memberOf q p.src = some m →
      b.inputs.findIdx? (fun x => x == m) = some input → exec (.contrib p) s = .next (s.settle
        (State.nodeOut j i b.depth ((List.range (bits p.arg.toNat 32 2)).foldl (fun (s : State) k => s.nodeIn j i input (bits p.arg.toNat 0 32 + k) p.step
          (b.chunkOf (bitOf p.arg.toNat 34) ((p.payload.drop ((if bitOf p.arg.toNat 34 then 136 else 1032) * k)).take (if bitOf p.arg.toNat 34 then 136 else 1032)))) t)))) ∧
    (∀ c p j q t, ((c = Instr.contrib p ∧ s.ForJob p [2, 3] 1 j q t) ∨ (c = .gatherReq p ∧ s.ForJob p [0] 1 j q t)) →
      (q.openStep < p.step → exec c s = .next s) ∧ (p.step < q.openStep → exec c s = .next (s.settle (t.countRed 1 1)))) ∧
    (∀ p j q t i b, s.ForJob p [3] 2 j q t → q.entryOf p.bucket.toNat = some (i, b) → exec (.credit p) s = .next (s.settle
      (State.nodeOut j i b.depth (t.updBucket j i fun b => { b with credits := b.credits + bits p.arg.toNat 0 32 })))) ∧
    (∀ (k : Fin 16) i q b gone, s.bucketOf k i = some (q, b) →
      gone = (fun (e : Nat × Option RSlot) => match e.2 with | some x => x.sent && s.hasLeft q b x | none => false) → (b.slots.filter gone).length ≠ 0 →
      exec (.slotFree k i) s = .next (s.settle (b.inputs.foldl (fun (s : State) m => s.inject { s.jobPacket q m 3 2 b.bucket (b.slots.filter gone).length [] with step := 0 })
        ((s.leaveSlots b gone).updBucket k i fun b => { b with slots := b.slots.filter fun e => !gone e }))))

/-- O38: An accepted chunk of a streaming owner updates its blocks into the shadow, the last chunk completing it; of a holding owner it goes to the hold area, and the last one starts the update at CLIP 0, or the rounds of the step; a chunk for which the unit reads poisoned data stops the update. A finished update of a held bucket completes its shadow. At the master a NORM enters the fold table and may decide; a STATUS of the open step is noted and may close a round; CLIP is forwarded and starts the update of every held bucket with the coefficient; ABORT_REQ makes the master send ABORT. -/
def Obligations.shards_are_updated_and_the_master_decides : Prop :=
  ∀ (s : State), s.Live →
    (∀ (k : Fin 16) i p b pos slot rest x reads, s.bucketOf k i = some (p, b) → b.pending = (pos, slot) :: rest → x = s.shardOf p b →
      reads = s.acceptReads x slot.chunk ++ (if streams p x then x.stateReads slot.chunk else []) →
      (∀ r, s.poisonedOf reads = some r → exec (.updateChunk k i) s = .next (s.settle (s.unitPoisoned k i p r))) ∧
      (∀ d u booked, s.poisonedOf reads = none → d = summedOf (b.outRecord slot) → booked = s.bookChunk x slot.chunk d { b with
          pending := rest
          slots := Tab.set (fun _ => none) b.slots pos (some { slot with sent := true })
          delivered := b.delivered + 1
          hyper := if b.hyper = [] then s.rdN (fieldAt (s.shardDesc b) 0x10 8) 64 else b.hyper } →
        u = (s.updBucket k i fun _ => booked).reportChunk k i slot.chunk d →
        (streams p x = true → ∀ v n, (if (u.unitOf b).isSome then u.updateChunkBlocks x none slot.chunk d (b.wsq, b.dsq) else (u, (b.wsq, b.dsq))) = (v, n) →
          exec (.updateChunk k i) s = .next (s.settle
            (((v.updBucket k i fun y => { y with shadowWritten := true, wsq := n.1, dsq := n.2, shadow := booked.delivered == b.nchunk }).countUpd b 1024).rounds k))) ∧
        (streams p x = false → ∃ v, v = (((u.store (x.hold + 1024 * slot.chunk) d.codes).store (x.hold + x.elems + 32 * slot.chunk) d.flags).updBucket k i
            (fun y => { y with held := booked.delivered == b.nchunk })).countUpd b 0 ∧
          (booked.delivered ≠ b.nchunk → exec (.updateChunk k i) s = .next (s.settle v)) ∧
          (booked.delivered = b.nchunk → p.clipMode = 0 → exec (.updateChunk k i) s = .next (s.settle (v.updateHeld k i none))) ∧
          (∀ r, booked.delivered = b.nchunk → p.clipMode ≠ 0 → v.plan k = some r →
            exec (.updateChunk k i) s = .next (s.settle (((if p.clipMode = 2 && r.allHeld then v.telemetryAll k 0 else v).rounds k).updateClipped k)))))) ∧
    (∀ (k : Fin 16) i p b, s.bucketOf k i = some (p, b) → b.isOwner = true → b.held = true → b.shadowWritten = true → b.shadow = false →
      exec (.shadowComplete k i) s = .next (s.settle (((s.updBucket k i fun b => { b with shadow := true }).countUpd b (1024 * b.nchunk)).rounds k))) ∧
    (∀ p j q t, s.ForJob p [2] 2 j q t → p.step = q.openStep → q.isMaster = true → q.clipMode = 1 → exec (.norm p) s = .next (s.settle
      (((t.setPlan j (some (q.putNorm (bits p.arg.toNat 0 16) (BitVec.ofNat 64 (fieldAt p.payload 0 8)) (fieldAt p.payload 8 4)))).decideNorms j).updateClipped j))) ∧
    (∀ p j q t m x, s.ForJob p [2] 3 j q t → p.step = q.openStep → q.stopped = false → m = bits p.arg.toNat 0 16 →
      x = (m, fieldAt p.payload 0 4, fieldAt p.payload 4 4, fieldAt p.payload 8 4) →
      (bitOf p.arg.toNat 16 = true → exec (.status p) s = .next (s.settle
        ((t.setPlan j (some { q with firstFrom := (q.firstFrom.filter fun e => e.1 != m) ++ [x] })).firstRound j))) ∧
      (bitOf p.arg.toNat 16 = false → exec (.status p) s = .next (s.settle
        ((t.setPlan j (some { q with finalFrom := (q.finalFrom.filter fun e => e.1 != m) ++ [x] })).finalRound j)))) ∧
    (∀ p j q t, s.ForJob p [2] 4 j q t → p.step = q.openStep → q.isMaster = true →
      exec (.abortReq p) s = .next (s.settle (t.masterToken j 4 (bits p.arg.toNat 0 8)))) ∧
    (∀ p j q t c, s.ForJob p [4] 1 j q t → p.step = q.openStep → bits p.arg.toNat 0 8 = 1 → c = (BitVec.ofNat 32 (bits p.arg.toNat 32 32) : Word) →
      exec (.tokenClip p) s = .next (s.settle ((((t.sendToken q 1 (bits p.arg.toNat 8 8) (bits p.arg.toNat 32 32)).updPlan j fun q =>
        { q with clip := c, clipGot := true, state := 1 }).updateAllHeld j (some c)).rounds j)))

/-- O39: A member that takes a closing token for the open step forwards it to its job-tree children and applies it. After COMMIT the plan's open step and its version V are both one higher; after SKIP and after ABORT the open step is one higher and V is as before. -/
def Obligations.a_closing_token_opens_the_next_step : Prop :=
  ∀ (s : State) (p : Packet) j q t, s.Live → Tab.rising s.red.plans = true → s.ForJob p [4] 1 j q t → p.step = q.openStep →
    (bits p.arg.toNat 0 8 = 2 → ∃ u, exec (.tokenCommit p) s = .next u ∧
      u = s.settle ((t.sendToken q 2 (bits p.arg.toNat 8 8) (bits p.arg.toNat 32 32)).applyCommit j) ∧
      ∃ r, u.plan j = some r ∧ r.openStep = q.openStep + 1 ∧ r.version = q.version + 1) ∧
    (bits p.arg.toNat 0 8 = 3 → ∃ u, exec (.tokenSkip p) s = .next u ∧
      u = s.settle ((t.sendToken q 3 (bits p.arg.toNat 8 8) (bits p.arg.toNat 32 32)).applySkip j) ∧
      ∃ r, u.plan j = some r ∧ r.openStep = q.openStep + 1 ∧ r.version = q.version) ∧
    (bits p.arg.toNat 0 8 = 4 → ∃ u, exec (.tokenAbort p) s = .next u ∧
      u = s.settle ((t.sendToken q 4 (bits p.arg.toNat 8 8) (bits p.arg.toNat 32 32)).applyAbort j (bits p.arg.toNat 8 8)) ∧
      ∃ r, u.plan j = some r ∧ r.openStep = q.openStep + 1 ∧ r.version = q.version)

/-- O40: A sharded bucket queues its wait on GATHOBJ, and when it yields asks the owner for every chunk. The owner answers a GATHER_REQ of the open step with the chunks of its current copy and their scales. Data and scales of the version that the step gathers are written and may complete the bucket; another version raises PARAM_VERSION once and asks for an abort. Broadcast data and scales are forwarded to the broadcast children, written, and counted towards the arrival. -/
def Obligations.gathers_and_broadcasts_deliver_copies : Prop :=
  ∀ (s : State), s.Live →
    (∀ (k : Fin 16) i p b o u v, s.bucketOf k i = some (p, b) → p.sharded = true → b.gathObj ≠ 0xFFFF → b.gathering = false → p.stopped = false → b.gathWait = false →
      s.objOf p.ctxNo b.gathObj.toNat = some o →
      u = (s.updBucket k i fun b => { b with gathWait := true }).enqueue [(o, ⟨.gath k i, 1, true⟩)] →
      v = ((u.consume (.gath k i)).updBucket k i fun b => { b with gathWait := false, gathering := true, gathered := [], scalesGot := [] }) →
      exec (.gatherStart k i) s = .next (s.settle (if u.waited (.gath k i) = true
        then v.inject (v.jobPacket p (Config.ownerMember p.job.toNat b.bucket.toNat) 0 1 b.bucket (2 ^ 32 * b.nchunk) []) else u))) ∧
    (∀ p j q t i b m v first n, s.ForJob p [0] 1 j q t → p.step = q.openStep → q.entryOf p.bucket.toNat = some (i, b) → t.memberOf q p.src = some m →
      b.isOwner = true → v = q.version.toNat → first = bits p.arg.toNat 0 32 → n = min (bits p.arg.toNat 32 32) (b.nchunk - first) →
      exec (.gatherReq p) s = .next (s.settle ((b.groups.filter fun c => decide (first < c + 32) && decide (c < first + n)).foldl (fun (s : State) c =>
          s.inject (s.jobPacket q m 1 2 b.bucket (c + 2 ^ 32 * v) (s.scaleData b c)))
        ((List.range n).foldl (fun (s : State) k => s.inject (s.jobPacket q m 1 1 b.bucket (first + k + 2 ^ 32 * v) (s.chunkData b v (first + k)))) t)))) ∧
    (∀ p j q t i e b c v w, s.ForJob p [1] 1 j q t → q.entryOf p.bucket.toNat = some (i, e) → t.bucketOf j i = some (q, b) → b.gathering = true → b.gatherBad = false →
      c = bits p.arg.toNat 0 32 → v = bits p.arg.toNat 32 32 → b.gatherV = some w →
      (w.toNat = v → exec (.gatherData p) s = .next (s.settle
        (((t.putChunk b v c p.payload).updBucket j i fun b => { b with gathered := b.gathered ++ [c] }).arrived j i))) ∧
      (w.toNat ≠ v → exec (.gatherData p) s = .next (s.settle (((t.updBucket j i fun b => { b with gatherBad := true }).raisePlan q 0x0402
        (leBytes 2 q.job.toNat ++ leBytes 4 q.openStep.toNat ++ leBytes 4 b.bucket.toNat ++ leBytes 2 w.toNat ++ leBytes 2 v)).requestAbort j 2)))) ∧
    (∀ p j q t i e b c v, s.ForJob p [1] 2 j q t → q.entryOf p.bucket.toNat = some (i, e) → t.bucketOf j i = some (q, b) → b.gathering = true → b.gatherBad = false →
      c = bits p.arg.toNat 0 32 → v = bits p.arg.toNat 32 32 → b.gatherV = none →
      exec (.gatherScales p) s = .next (s.settle ((((t.updBucket j i fun b => { b with gatherV := some (BitVec.ofNat 32 v) }).putScales b c p.payload).updBucket j i fun b =>
        { b with scalesGot := b.scalesGot ++ [c] }).arrived j i))) ∧
    (∀ p j q t i b c v, s.ForJob p [4] 2 j q t → q.entryOf p.bucket.toNat = some (i, b) → c = bits p.arg.toNat 0 32 → v = bits p.arg.toNat 32 32 →
      exec (.bcastData p) s = .next (s.settle ((((t.forwardBcast q b p).putChunk b v c p.payload).updBucket j i fun b =>
        { b.arrivalOf v with gathered := (b.arrivalOf v).gathered ++ [c] }).arrived j i))) ∧
    (∀ p j q t i b c v, s.ForJob p [4] 3 j q t → q.entryOf p.bucket.toNat = some (i, b) → c = bits p.arg.toNat 0 32 → v = bits p.arg.toNat 32 32 →
      exec (.bcastScales p) s = .next (s.settle ((((t.forwardBcast q b p).putScales b c p.payload).updBucket j i fun b =>
        { b.arrivalOf v with scalesGot := (b.arrivalOf v).scalesGot ++ [c] }).arrived j i)))

/-- O41: POWER_EVALUATION takes the readings and adjusts F and d. With the total above the cap, F above 600 MHz falls by 100 MHz, or to 600 MHz if that is nearer; otherwise d falls by 1, down to 1. With the total below 97 % of the cap, d below 8 rises by 1; otherwise F rises by 25 MHz, up to 2,400 MHz. In every other case neither changes. While hints predict more power, R513 applies besides (another statement). -/
def Obligations.frequency_and_duty_follow_the_cap : Prop :=
  ∀ (s : State) (x : PowerSample) total cap, s.Live → total = x.cappedW.toNat + x.uncappedW.toNat → cap = s.pwr.capW.toNat →
    ∃ t, exec (.powerEvaluation x) s = .next t ∧ t.pwr.cappedW = x.cappedW ∧ t.pwr.uncappedW = x.uncappedW ∧ t.pwr.capW = s.pwr.capW ∧
      (cap < total → 600 < s.pwr.fMhz → t.pwr.fMhz = max 600 (s.pwr.fMhz - 100) ∧ t.pwr.duty = s.pwr.duty) ∧
      (cap < total → s.pwr.fMhz ≤ 600 → t.pwr.fMhz = s.pwr.fMhz ∧ (1 ≤ s.pwr.duty → t.pwr.duty = max 1 (s.pwr.duty - 1))) ∧
      (s.hintedW = 0 → 100 * total < 97 * cap → s.pwr.duty < 8 → t.pwr.fMhz = s.pwr.fMhz ∧ t.pwr.duty = s.pwr.duty + 1) ∧
      (s.hintedW = 0 → 100 * total < 97 * cap → 8 ≤ s.pwr.duty → t.pwr.fMhz = min 2400 (s.pwr.fMhz + 25) ∧ t.pwr.duty = s.pwr.duty) ∧
      (s.hintedW = 0 → total ≤ cap → 97 * cap ≤ 100 * total → t.pwr.fMhz = s.pwr.fMhz ∧ t.pwr.duty = s.pwr.duty)

/-- O42: With d = 1, the total above the cap and the floor timer at 10 ms, CAP_UNREACHABLE is raised once, and not again before d has returned to 8. While hints predict a total above the cap, F above 600 MHz falls and d stays. CAP_IN_N or over-current halts the board once, counted; the end of both lifts the halt. When a die's rail has reached its target its arrays' clocks rise to their limits. A stack sensor's reading is kept, and at 95 C it throttles its die. A cool die's limit rises by 25 MHz once a millisecond until it rejoins F. -/
def Obligations.limits_of_power_and_heat_act : Prop :=
  ∀ (s : State), s.Live →
    (s.pwr.floor = true → s.pwr.duty = 1 → s.pwr.capRaised = false → s.pwr.floorAt + 1000000 ≤ s.now → s.pwr.capW.toNat < s.pwr.cappedW.toNat + s.pwr.uncappedW.toNat →
      ∃ u, u = { s with pwr := { s.pwr with capRaised := true } } ∧ exec .capUnreachable s = .next (s.settle (u.raise0 0x0601 srcPower
        (leBytes 2 s.pwr.capW.toNat ++ leBytes 2 (s.pwr.cappedW.toNat + s.pwr.uncappedW.toNat) ++ leBytes 2 s.pwr.uncappedW.toNat)))) ∧
    (s.pwr.capRaised = true → exec .capUnreachable s = .next s) ∧
    (∀ b, ∃ t, exec (.capInNLow b) s = .next t ∧ ChangesOnly [.pwr] s t ∧ t.pwr.boardHalt = true ∧ t.pwr.halts = (if s.pwr.boardHalt then s.pwr.halts else s.pwr.halts + 1) ∧
      (b = true → t.pwr.capLow = true ∧ t.pwr.overCurrent = s.pwr.overCurrent) ∧ (b = false → t.pwr.overCurrent = true ∧ t.pwr.capLow = s.pwr.capLow)) ∧
    (∀ x : PowerSample, x.cappedW.toNat + x.uncappedW.toNat ≤ s.pwr.capW.toNat → s.pwr.capW.toNat < x.cappedW.toNat + x.uncappedW.toNat + s.hintedW → 600 < s.pwr.fMhz →
      ∃ t, exec (.powerEvaluation x) s = .next t ∧ t.pwr.fMhz = max 600 (s.pwr.fMhz - 100) ∧ t.pwr.duty = s.pwr.duty) ∧
    (exec .boardHaltEnd s = .next { s with pwr := { s.pwr with boardHalt := false, capLow := false, overCurrent := false } }) ∧
    (∀ d : Fin 2, ∃ t, exec (.railTargetReached d) s = .next t ∧ ChangesOnly [.arrays] s t ∧
      (Tab.rising s.arrays = true → ∀ i < 4, (t.array (4 * d + i)).curMhz = BitVec.ofNat 12 (s.arrayMhz (4 * d + i)))) ∧
    (∀ (n : Fin 24) t, ∃ u hot, hot = (decide (950 ≤ t.toNat) || ((s.stack n).hot && decide (930 < t.toNat))) ∧
      u = (s.setStack n { s.stack n with temp := t, hot := hot }).refreshHot ∧
      exec (.hbmSensorRead n t) s = .next (s.settle (if hot = true ∧ ¬s.stackHot (n / 12) = true
        then u.raiseThermal (2 * (n / 12)) 3 t.toNat n (s.fDie (n / 12)) else u))) ∧
    (∀ d : Fin 2, s.tj (if d.val = 0 then 0 else 2) ≤ 930 → s.tj 1 ≤ 930 → (∀ i < 12, (s.stack (12 * d + i)).temp.toNat ≤ 930) →
      Tab.get (fun _ => 0) s.pwr.riseAt d + 100000 ≤ s.now → ∃ t, exec (.throttleRise d) s = .next t ∧ ChangesOnly [.pwr] s t ∧
        (Tab.rising s.pwr.fDie = true → t.fDie d = if s.pwr.fMhz ≤ s.fDie d + 25 then 2400 else s.fDie d + 25))

/-- O43: At the end of a summary interval of SUMMARY_MS the array's episode count, stretch time and depth start again. When the interval had one or more episodes, DROOP_SUMMARY goes to event ring 0 with their number, time and depth; when it had none, nothing is raised. -/
def Obligations.droop_summaries_follow_the_interval : Prop :=
  ∀ (s : State) (a : Fin 8) u, s.Live → (s.array a).summaryAt + 100000 * s.pwr.summaryMs.toNat ≤ s.now →
    u = s.setArray a { s.array a with episodes := 0, stretchNs := 0, deepestMv := 0, summaryAt := s.now } →
    ((s.array a).episodes ≠ 0 → exec (.droopSummary a) s = .next (u.raiseOn 0 0x0605 0xFFFF srcPower
      (leBytes 1 a ++ leBytes 1 0 ++ leBytes 2 (s.array a).deepestMv ++ leBytes 4 (s.array a).episodes ++ leBytes 4 (s.array a).stretchNs))) ∧
    ((s.array a).episodes = 0 → exec (.droopSummary a) s = .next u)

/-- O44: A droop trip marks its detector and begins one stretch episode of that array; 100 ns after the last release the stretch ends and its time is counted. A rail below its warning level pauses the clocks of its arrays and no others; on recovery they restart and VWARN gives the dip; a dip of 100 ms raises VWARN once. VAON at its reset level requests a cold reset, any other rail a counted warm reset. An hour counts, and 500 of them make every domain pending; a re-plan writes an idle pending array's needs with the 30 mV guard. -/
def Obligations.droops_dips_and_ageing_act : Prop :=
  ∀ (s : State), s.Live →
    (∀ (a : Fin 8) (d : Fin 16) mv, exec (.droopTrip a d mv) s = .next (s.setArray a { s.array a with
        detectors := BitVec.ofNat 16 (setBitOf (s.array a).detectors.toNat d true)
        stretching := true
        stretchFrom := if (s.array a).stretching then (s.array a).stretchFrom else s.now
        episodes := if (s.array a).stretching then (s.array a).episodes else (s.array a).episodes + 1
        deepestMv := max (s.array a).deepestMv mv.toNat })) ∧
    (∀ a : Fin 8, (s.array a).stretching = true → exec (.droopStretchEnd a) s = .next (s.setArray a { s.array a with
        detectors := 0
        stretching := false
        stretchNs := (s.array a).stretchNs + 10 * (s.now - (s.array a).stretchFrom) })) ∧
    (∀ (r : Fin 12) mv, s.dip r = none → ∃ t, exec (.railWarning r mv) s = .next t ∧
      t = (s.setDip r (some { since := s.now, minMv := mv, raised := false })).pauseRail r true ∧ ChangesOnly [.pwr, .arrays] s t ∧
      ∀ a, a ∉ railArrays r → t.array a = s.array a) ∧
    (∀ (r : Fin 12) d, s.dip r = some d →
      exec (.railRecover r) s = .next (s.settle (((s.setDip r none).pauseRail r false).raiseVwarn r (min (2 ^ 32 - 1) (s.now - d.since)) d)) ∧
      (d.raised = false → d.since + 10000000 ≤ s.now → exec (.vwarn r) s = .next (s.settle ((s.setDip r (some { d with raised := true })).raiseVwarn r (2 ^ 32 - 1) d))) ∧
      (d.raised = true → exec (.vwarn r) s = .next s)) ∧
    (∀ r : Fin 12, exec (.railResetLevel r) s = .next (if r.val = 11 then s.requestCold 4 11 else s.requestWarm 4 r 0 false true)) ∧
    (∃ t, exec .pohHour s = .next t ∧ ChangesOnly [.flash] s t ∧ t.flash.poh = s.flash.poh + 1 ∧
      (500 ≤ (s.flash.poh + 1).toNat - s.flash.margin.hours.toNat → t.flash.margin.pending = 0x3FF) ∧
      ((s.flash.poh + 1).toNat - s.flash.margin.hours.toNat < 500 → t.flash.margin = s.flash.margin)) ∧
    (∀ (a : Fin 8) r need, s.boot.image.isSome = true → bitOf s.flash.margin.pending.toNat a = true → s.requested a = false → need = r.needMv.map (· + 30) → ∃ u,
      u = (((s.writePlan a need).marginLow a need).reclock a).service ∧
      exec (.replan a r) s = .next { u with pending := s.pending, now := s.now, strapped := s.strapped, tap := s.tap }) ∧
    (∀ (a : Fin 8) r, bitOf s.flash.margin.pending.toNat a = true → s.requested a = true → exec (.replan a r) s = .next s)

/-- O45: With no reset of the same or a larger scope in progress or requested, POWER_ON and PWR_OK_LOW request a cold reset, PERST_N_LOW a warm one, a function level reset one of the function; each is absorbed otherwise. A ferry watchdog raises HANG_DETECTED and requests its array's reset, or names a warm reset at the limit; a gather engine's, a tier ferry's, a command processor's and the management processor's request a counted, captured warm reset; the credit watchdog requests its port's reset, the channel watchdog its channel's. A watchdog whose time has not come does nothing, and the watchdogs of a unit in reset are suspended. -/
def Obligations.reset_requests_are_latched : Prop :=
  ∀ (s : State) (ask : State → InReset → State) (small : State → SmallReset → State), s.Live →
    ask = (fun u r => if r.scope ≤ u.resetScope then u else
      { u with rst := { u.rst with pending := some r, capturing := if r.captured then some s.now else none } }) →
    small = (fun u r => if u.resetScope ≠ 0 ∨ (u.rst.small.any fun q => q.scope == r.scope && q.index == r.index) then u else
      { u with rst := { u.rst with small := u.rst.small ++ [r] } }) →
    (exec .powerOn s = .next (ask s { scope := 6, source := 1, index := 0, watchdog := 0, at_ := s.now, counted := false, captured := false }) ∧
      exec .pwrOkLow s = .next (ask { s with pins := { s.pins with thermTripN := s.pins.thermTripN || s.resetScope == 6 } } { scope := 6, source := 2, index := 0, watchdog := 0, at_ := s.now, counted := false, captured := false }) ∧
      exec .perstNLow s = .next (ask s { scope := 5, source := 3, index := 0, watchdog := 0, at_ := s.now, counted := false, captured := false }) ∧
      exec .functionLevelReset s = .next (ask s { scope := 4, source := 11, index := 0, watchdog := 0, at_ := s.now, counted := false, captured := false })) ∧
    (∀ e : Fin 16, (s.engineHangs e = true → s.smallReset 1 (e / 2) = none → exec (.ferryWatchdog e) s = .next (s.settle (small
        (s.raiseHang 2 (e / 2) (if s.rst.arrLimit.toNat ≤ s.arrResets (e / 2) then 4 else 1) 0 (s.engineCtxid e) (s.array (e / 2)).tiles.toNat)
        { scope := 1, index := e / 2, source := 10, watchdog := 2, at_ := s.now, req := none }))) ∧
      (s.engineHangs e = false ∨ (s.smallReset 1 (e / 2)).isSome = true → exec (.ferryWatchdog e) s = .next s)) ∧
    (∀ g : Fin 4, (s.engineHangs (24 + g) = true → exec (.gatherWatchdog g) s = .next (s.settle (ask (s.raiseHang 3 g 4 0 (s.engineCtxid (24 + g)) 0)
        { scope := 5, source := 10, index := g, watchdog := 3, at_ := s.now, counted := true, captured := true }))) ∧
      (s.engineHangs (24 + g) = false → exec (.gatherWatchdog g) s = .next s)) ∧
    (∀ t : Fin 8, (s.engineHangs (16 + t) = true → exec (.tierFerryWatchdog t) s = .next (s.settle (ask (s.raiseHang 4 t 4 0 (s.engineCtxid (16 + t)) 0)
        { scope := 5, source := 10, index := t, watchdog := 4, at_ := s.now, counted := true, captured := true }))) ∧
      (s.engineHangs (16 + t) = false → exec (.tierFerryWatchdog t) s = .next s)) ∧
    (∀ p : Fin 16, (s.resetScope = 0 → s.smallReset 2 p = none → s.rst.creditEn = true → (s.port p).state = 2 → s.creditStarved p ≠ [] → exec (.creditWatchdog p) s = .next (s.settle (small
        (s.raiseHang 5 p (if 7 ≤ s.portResets p then 5 else 2) 0 0xFFFF (maskOf (s.creditStarved p)))
        { scope := 2, index := p, source := 10, watchdog := 5, at_ := s.now, req := none }))) ∧
      (s.resetScope ≠ 0 ∨ (s.smallReset 2 p).isSome = true ∨ s.rst.creditEn = false → exec (.creditWatchdog p) s = .next s)) ∧
    (s.resetScope ≠ 0 → ∀ e : Nat, s.engineHangs e = false) ∧
    (∀ c : Fin 4, s.resetScope ≠ 0 → exec (.cpHeartbeatWatchdog c) s = .next s) ∧
    (∀ c : Fin 4, s.resetScope = 0 → s.rst.cpEn = true → (Tab.get (fun _ => CmdProc.reset) s.hif.cps c).heartbeat + 100000 * s.rst.cpMs.toNat ≤ s.now →
      exec (.cpHeartbeatWatchdog c) s = .next (s.settle (ask (s.raiseHang 6 c 4 0 0xFFFF 0)
        { scope := 5, source := 10, index := c, watchdog := 6, at_ := s.now, counted := true, captured := true }))) ∧
    (5 ≤ s.resetScope → exec .mpWatchdog s = .next s) ∧
    (s.resetScope < 5 → exec .mpWatchdog s = .next (s.settle (ask (s.raiseHang 7 0 4 0 0xFFFF 0)
        { scope := 5, source := 6, index := 0, watchdog := 7, at_ := s.now, counted := true, captured := true }))) ∧
    (∀ (n : Fin 24) (c : Fin 16) a w, s.resetScope = 0 → s.smallReset 3 (16 * n + c) = none → (((s.stack n).pc (2 * c)).window = w ∨ ((s.stack n).pc (2 * c + 1)).window = w) → ((s.stack n).chan c).resetAt = none →
      (∃ r ∈ w, r.req.addr = a ∧ max r.at_ ((s.stack n).chan c).servedFrom + 1600000 ≤ s.hbmCycle n) →
      exec (.hbmChannelWatchdog n c a) s = .next (s.settle (small (s.raiseHang 8 n 3 0 0xFFFF a)
        { scope := 3, index := 16 * n + c, source := 10, watchdog := 8, at_ := s.now, req := none })))

/-- O46: ARRAY_RESET performs the requested reset: the array's contexts fault with cause 11, its sequencer takes its reset values but for its clock target, watchdog settings and droop state, and every other array stays as those faults leave it. Once it has been held for 100 us, RESET_DONE and the waiting admin command are answered. An array that has had its limit of watchdog resets, or whose reset has taken 1 ms, escalates instead to a counted, captured warm reset. PORT_RESET reaches its own port, which begins to train once the reset has been held for 100 us, and the eighth from watchdog 5 within 60 s holds the port down. A channel reset drops the writes whose bursts have left, takes the other requests out of their slots and the channel's lines out of the stream cache; retraining ends it after 100 us or more, and 5 ms without success escalate it. -/
def Obligations.units_reset_alone_and_escalate : Prop :=
  ∀ (s : State), s.Live →
    (∀ r t, s.rst.small = [r] → r.began = some t → (s.now < t + 10000 → s.endSmall = s) ∧
      (t + 10000 ≤ s.now → s.endSmall = if r.scope = 2 then (s.smallDone r r.index).portLeaves r.index else s.smallDone r r.index)) ∧
    (∀ (a : Fin 8) r dog w, s.smallReset 1 a = some r → r.began = none → dog = decide (r.watchdog = 1 ∨ r.watchdog = 2) →
      w = (s.ctxsOnArray a).foldl (fun (s : State) c => s.faultCtx c 11 a 0 srcReset 0) s →
      (dog = false ∨ s.arrResets a < s.rst.arrLimit.toNat → ∃ u, exec (.arrayReset a) s = .next (s.settle (State.beginSmall u r)) ∧
        (∀ b : Fin 8, b ≠ a → u.array b = w.array b) ∧ u.fab = s.fab ∧ u.rst = s.rst ∧
        (Tab.rising w.arrays = true → u.array a = if dog then { (w.array a).afterReset with resetTimes := s.now :: (w.array a).resetTimes.take 15 } else (w.array a).afterReset)) ∧
      (dog = true → s.rst.arrLimit.toNat ≤ s.arrResets a → exec (.arrayReset a) s = .next s) ∧
      (r.at_ + 100000 ≤ s.now ∨ dog = true ∧ s.rst.arrLimit.toNat ≤ s.arrResets a →
        exec (.arrayResetEscalate a) s = .next ((s.dropSmall r).requestWarm 10 a r.watchdog true true)) ∧
      (s.now < r.at_ + 100000 → dog = false → exec (.arrayResetEscalate a) s = .next s)) ∧
    (∀ a : Fin 8, s.smallReset 1 a = none → exec (.arrayReset a) s = .next s ∧ exec (.arrayResetEscalate a) s = .next s) ∧
    (∀ (a : Fin 8) r, s.smallReset 1 a = some r → r.began.isSome = true → exec (.arrayReset a) s = .next s) ∧
    (∀ (p : Fin 16) r, s.smallReset 2 p = some r → (r.began.isSome = true → exec (.portReset p) s = .next s) ∧
      (r.began = none → r.watchdog ≠ 5 → exec (.portReset p) s = .next (s.settle ((s.resetPort p).beginSmall r))) ∧
      (r.began = none → r.watchdog = 5 → ∃ u v, u = (s.resetPort p).setPort p { (s.resetPort p).port p with resets := s.now :: ((s.resetPort p).port p).resets.take 15 } ∧
        v = { u with rst := { u.rst with portHeld := BitVec.ofNat 16 (setBitOf u.rst.portHeld.toNat p true) } } ∧
        exec (.portReset p) s = .next (s.settle (State.beginSmall (if 8 ≤ u.portResets p
          then v.setPort p { u.port p with state := if (u.port p).state = 4 then 4 else 5 } else u) r)))) ∧
    (∀ p : Fin 16, s.smallReset 2 p = none → exec (.portReset p) s = .next s) ∧
    (∀ (n : Fin 24) (c : Fin 16) r k halt, s.smallReset 3 (16 * n + c) = some r → k = s.stack n →
      halt = (fun (q : Nat) (k : Stack) => k.setPc q { k.pc q with
        window := ((k.pc q).window.filter fun r => !(r.slotted && r.req.isWrite)).map fun r => { r with slotted := false }, openRows := [] }) →
      ((k.chan c).resetAt = none → exec (.hbmChannelReset n c) s = .next ((s.setStack n (halt (2 * c + 1) (halt (2 * c) (k.setChan c { k.chan c with resetAt := some s.now })))).dropChannelLines n c)) ∧
      (∀ t, (k.chan c).resetAt = some t →
        exec (.hbmChannelReset n c) s = .next s ∧
        (s.now < t + 10000 → exec (.hbmChannelRetrained n c) s = .next s) ∧
        (t + 10000 ≤ s.now → exec (.hbmChannelRetrained n c) s = .next (s.settle ((s.setStack n (k.setChan c { k.chan c with resetAt := none, servedFrom := s.hbmCycle n })).smallDone r n))) ∧
        (t + 500000 ≤ s.now → exec (.hbmRetrainTimeout n c) s = .next (s.settle (((s.setStack n (k.setChan c { k.chan c with resetAt := none })).dropSmall r).requestWarm 10 n r.watchdog true true))) ∧
        (s.now < t + 500000 → exec (.hbmRetrainTimeout n c) s = .next s)))

/-- O47: FUNCTION_RESET performs the requested function reset: contexts, RUNs, cyclic tables, synchronisation objects, engines' work, reduction plans, stashes, held cache lines and sessions are gone, and the power controller, boot state and boot flash stay. WARM_MODULE_RESET clears all but the always-on domain and flash, keeps the sealed tier objects, the always-on time, the test access port and the strap that gives the endpoint identifier, and drives RST_OUT_N. COLD_MODULE_RESET clears the always-on domain too, even after a boundary-scan session, which it ends; only objects sealed in flash stay. Each latches its cause. Without a request of its scope each does nothing. -/
def Obligations.module_resets_clear_and_keep : Prop :=
  ∀ (s : State) (r : InReset), s.rst.pending = some r →
    (s.Live → r.scope = 4 → ∃ t, exec .functionReset s = .next t ∧
      t.rst.pending = none ∧ t.rst.small = [] ∧ t.rst.capturing = none ∧ t.rst.recovering = some { r with at_ := s.now } ∧
      t.ctxs = [] ∧ t.runs = [] ∧ t.tables = [] ∧ t.sync = { objs := [], done := [] } ∧ t.engines = [] ∧ t.red.plans = [] ∧ t.tier.stashes = [] ∧
      t.tier.objs = s.tier.objs.filter (fun o => o.sealed && !o.stash) ∧ t.hbm.lines = [] ∧ t.sec.sessions = [] ∧ t.dbg = Dbg.reset ∧
      ChangesOnly [.mem, .hif, .out, .pldm, .pins, .sync, .tables, .ctxs, .runs, .engines, .arrays, .chk, .fresh, .dsc, .tel, .fab, .sec, .dbg, .hbm,
        .tier, .red, .rst] s t) ∧
    (s.tap.used = false → r.scope = 5 → ∃ t, exec .warmModuleReset s = .next t ∧
      t.rst.active = some { r with at_ := s.now, captured := s.captures r } ∧ t.rst.pending = none ∧ t.pins.rstOutN = false ∧
      t.rst.causeScope = 5 ∧ t.rst.causeSource = BitVec.ofNat 8 r.source ∧ t.rst.causeWatchdog = BitVec.ofNat 8 r.watchdog ∧ t.rst.causeCounted = r.counted ∧
      t.ctxs = [] ∧ t.runs = [] ∧ t.tables = [] ∧ t.arrays = [] ∧ t.engines = [] ∧ t.sync = { objs := [], done := [] } ∧ t.hif = Hif.reset ∧
      t.flash = s.flash.applyClear ∧ t.sec.sessions = [] ∧ t.now = s.now ∧ t.tap = s.tap ∧
      t.eid = 0x20 + s.boot.trayPos.zeroExtend 8 ∧
      (∀ o, o ∈ t.tier.objs → o ∈ s.tier.objs ∧ o.sealed = true ∧ o.stash = false) ∧
      (r.source ≠ 4 ∨ r.index ≠ 8 → t.tier.objs = s.tier.objs.filter (fun o => o.sealed && !o.stash))) ∧
    (r.scope = 6 → ∃ t, exec .coldModuleReset s = .next t ∧
      t.rst.active = some { r with at_ := 0 } ∧ t.rst.pending = none ∧ t.pins.rstOutN = false ∧ t.now = 0 ∧
      t.rst.causeScope = 6 ∧ t.rst.causeSource = BitVec.ofNat 8 r.source ∧
      t.ctxs = [] ∧ t.runs = [] ∧ t.tables = [] ∧ t.arrays = [] ∧ t.engines = [] ∧ t.hif = Hif.reset ∧ t.pwr = Pwr.reset ∧ t.boot = Boot.reset ∧ t.fab = Fab.reset ∧
      t.sec = Sec.reset ∧ t.tap = Tap.reset ∧ t.flash = s.flash.applyClear ∧
      t.tier.objs = s.tier.objs.filter (fun o => o.sealed && o.base == 0) ∧ (r.source ≠ 1 → r.source ≠ 2 → r.source ≠ 4 → t.pins.thermTripN = s.pins.thermTripN)) ∧
    (s.Live → r.scope ≠ 4 → exec .functionReset s = .next s) ∧ (s.tap.used = false → r.scope ≠ 5 → exec .warmModuleReset s = .next s) ∧
    (r.scope ≠ 6 → exec .coldModuleReset s = .next s)

/-- O48: RESET_STRETCH_END waits 100 us; then the module leaves reset, straps are sampled at a cold reset only, and the boot ROM runs: without an identity it raises FIRMWARE_REJECTED reason 6; with BOOT_SRC 1 it takes slot A's image if that verifies and has failed fewer than three boots, and otherwise rejects it with its reason. A counted warm reset enters the reset log, and the threshold sets the out-of-service latch. HBM_TRAINED acts once per die under running firmware. RESET_DONE is posted once the recovery is complete, after which ports that a function reset held begin to train. A capture is abandoned after 10 ms, incomplete. -/
def Obligations.boot_trains_and_recovers : Prop :=
  ∀ (s : State), s.tap.used = false →
    (∀ r v ok, s.rst.active = some r →
      (s.now < r.at_ + 10000 → exec (.resetStretchEnd v ok) s = .next s) ∧
      (r.at_ + 10000 ≤ s.now → s.rst.pending = none → ∃ u t, u = (if r.scope = 6 then s.sampleStraps v ok else s) ∧
        t = { u with
          rst := { u.rst with active := none, recovering := some r }
          boot := { u.boot with resetEndAt := s.now }
          hif := u.hif.beatAll s.now
          pins := { u.pins with rstOutN := decide (r.at_ + 200000 ≤ s.now), loadHintN := true } } ∧
        exec (.resetStretchEnd v ok) s = .next { t.bootRom r with pending := s.pending })) ∧
    (∀ r, s.boot.identityOk = false → s.bootRom r = s.raiseRejected 0 6 0 0) ∧
    (∀ c, s.boot.bootSrc = 1 → s.flash.slotA = some c →
      (s.imageBad c = none → s.flash.failsA < 3 → State.tryslots s.slotOrder s = { s with
        flash := { s.flash with failsA := s.flash.failsA + 1 }
        boot := { s.boot with slot := false, image := some c, fwSvnRunning := c.version, numrev := c.numrev } }) ∧
      (∀ e, s.imageBad c = some e → State.tryslots s.slotOrder s = s.raiseRejected 1 e c.version.toNat s.flash.fwSvn.toNat)) ∧
    (∀ r u, u = s.logReset r → r.counted = true → u.flash.resetLog = (s.powerSecond :: s.flash.resetLog).take 15 ∧
      u.flash.count24 = (u.flash.resetLog.filter fun t => decide (s.powerSecond < t + 86400)).length ∧
      (s.oosThreshold ≤ u.flash.count24 → u.flash.oos = true)) ∧
    (s.Live → (∀ (d : Fin 2) failed, (s.boot.image = none ∨ bitOf s.boot.trained.toNat d = true → exec (.hbmTrained d failed) s = .next s) ∧
        (s.boot.image.isSome = true → bitOf s.boot.trained.toNat d = false → ∃ u v w,
          u = (((failed.map fun (f : Fin 24 × Fin 16) => (f.1.val, f.2.val)).filter fun f => f.1 / 12 == d.val).foldl (fun (s : State) f => s.condemn f.1 f.2 4) s).mapDie d ∧
          v = State.service { u with boot := { u.boot with trained := BitVec.ofNat 2 (setBitOf u.boot.trained.toNat d true) } } ∧
          w = (if v.boot.level = 0 then v else if v.boot.slot then { v with flash := { v.flash with failsB := 0 } } else { v with flash := { v.flash with failsA := 0 } }) ∧
          exec (.hbmTrained d failed) s = .next { w with pending := s.pending, now := s.now, strapped := s.strapped, tap := s.tap })) ∧
      (∀ u, u = s.service →
        (u.rst.recovering = none ∨ (∃ r, u.rst.recovering = some r ∧ u.recovered r = false) →
          exec .resetDone s = .next { u with pending := s.pending, now := s.now, strapped := s.strapped, tap := s.tap }) ∧
        (∀ r, u.rst.recovering = some r → u.recovered r = true → u.rst.captureEvent = false → ∃ v,
          v = u.raise0 0x0702 srcReset (leBytes 1 r.scope ++ leBytes 1 r.source ++ leBytes 1 r.index ++ leBytes 1 r.watchdog
            ++ leBytes 1 (bit r.counted + 2 * bit r.captured + 4 * bit (r.scope != 4 && !u.portsComplete) + 8 * bit u.flash.oos)
            ++ leBytes 1 u.flash.count24 ++ leBytes 1 u.rst.newlyMapped ++ leBytes 1 0 ++ leBytes 4 ((u.now - r.at_) / 100000)) ∧
          exec .resetDone s = .next { v.endRecovery with
            pending := s.pending
            now := s.now
            strapped := s.strapped
            tap := s.tap })) ∧
      (∀ t r, s.rst.capturing = some t → s.rst.pending = some r → s.captures r = true →
        (s.now < t + 1000000 → exec .captureAbandon s = .next s) ∧
        (t + 1000000 ≤ s.now → ∃ u, exec .captureAbandon s = .next u ∧ ChangesOnly [.mem, .rst, .fresh] s u ∧ u.rst.capturing = none ∧ u.rst.dumpValid = true ∧
          u.rst.dumpComplete = false ∧ u.rst.dumpSeq = s.rst.dumpSeq + 1 ∧ u.rst.captureEvent = true ∧ u.rst.pending = some r)))

/-- O49: A firmware component that fails its verification is not written and raises FIRMWARE_REJECTED with source 3; an accepted image goes into the slot that is not running, a record over its older copy. SET_ENDPOINT_ID for this module's tray position sets the identifier; for another the tray master forwards it over the sideband, and any other module leaves it. Each SPDM request leaves one answer, carrying what R574 fixes for it, while the identity is known, and none otherwise; the UART commands answer the status, the level and the log. The bytes that only the standards fix are free values of the model (log 6). PLDM event collection takes the oldest event, and ALERT_N rises with the last. -/
def Obligations.components_measurements_and_uart_answers : Prop :=
  ∀ (s : State), s.Live →
    (∀ c reason counter, s.componentBad c = (some reason, counter) → ∃ t, exec (.pldmFirmwareComponent c) s = .next t ∧
      t = s.raiseRejected 3 reason c.version.toNat counter ∧ t.flash = s.flash ∧ t.boot = s.boot) ∧
    (∀ c, (s.componentBad c).1 = none →
      (c.kind = 0 → s.boot.image.isSome = true → s.boot.slot = false → exec (.pldmFirmwareComponent c) s = .next { s with flash := { s.flash with slotB := some c, failsB := 0 } }) ∧
      (c.kind = 0 → s.boot.image = none ∨ s.boot.slot = true → exec (.pldmFirmwareComponent c) s = .next { s with flash := { s.flash with slotA := some c, failsA := 0 } }) ∧
      (c.kind = 4 → exec (.pldmFirmwareComponent c) s = .next { s with flash := { s.flash with config := c :: s.flash.config.take 1 } }) ∧
      (c.kind = 5 → exec (.pldmFirmwareComponent c) s = .next { s with flash := { s.flash with opkey := c :: s.flash.opkey.take 1 } })) ∧
    (∀ (k : Fin 4) e, (k = s.boot.trayPos.toNat → exec (.setEndpointId ⟨k, e⟩) s = .next { s with eid := e }) ∧
      (k ≠ s.boot.trayPos.toNat → s.boot.masterSel = true → exec (.setEndpointId ⟨k, e⟩) s = .next { s with out := .sideband (0x60 + k) [e] :: s.out }) ∧
      (k ≠ s.boot.trayPos.toNat → s.boot.masterSel = false → exec (.setEndpointId ⟨k, e⟩) s = .next s)) ∧
    (∀ answer, answer = (fun (code : Nat) (fixed : List Byte) =>
        if s.boot.identityOk then { s with out := .spdm code (fixed ++ Config.standardAnswer code s.fresh) :: s.out } else s) →
      exec .getVersion s = .next (answer 0x84 [0x12]) ∧
      exec .getCapabilities s = .next (answer 0xE1 []) ∧
      exec .negotiateAlgorithms s = .next (answer 0xE3 []) ∧
      exec .getDigests s = .next (answer 0x81 (Config.sha512 Config.certificateChain)) ∧
      (∀ o n, exec (.getCertificate o n) s = .next (answer 0x82 ((Config.certificateChain.drop o.toNat).take n.toNat))) ∧
      (∀ nonce, exec (.challenge nonce) s = .next (answer 0x83 (Config.sha512 Config.certificateChain
        ++ Config.ecdsaSign (nonce ++ Config.standardAnswer 0x83 s.fresh)))) ∧
      (∀ i : Fin 5, exec (.getMeasurements (BitVec.ofNat 8 (i + 1))) s = .next (answer 0xE0 (s.measurement (i + 1)))) ∧
      exec (.getMeasurements 0xFF) s = .next (answer 0xE0 (s.measurement 1 ++ s.measurement 2 ++ s.measurement 3 ++ s.measurement 4 ++ s.measurement 5))) ∧
    (s.measurement 4 = leBytes 2 s.flash.fwSvn.toNat ++ leBytes 2 s.flash.cfgVersion.toNat ++ leBytes 2 s.flash.keyVersion.toNat ++ leBytes 1 s.flash.revoke.toNat ∧
      s.measurement 5 = leBytes 1 s.boot.level ++ leBytes 1 (bit s.flash.oos)) ∧
    (exec .statusUart s = .next { s with out := .uart 0 (Config.standardAnswer 0x200 s.fresh) :: s.out } ∧
      exec .level s = .next { s with out := .uart 1 (leBytes 1 s.boot.level) :: s.out } ∧
      exec .log s = .next { s with out := .uart 2 (Config.standardAnswer 0x201 s.fresh ++ s.hif.eventLog.reverse.flatten) :: s.out }) ∧
    (∀ e rest, s.pldm = e :: rest → exec .pldmEventCollect s = .next { s with
      pldm := rest
      pins := { s.pins with alertN := rest == [] }
      out := .pldm e :: s.out }) ∧
    (s.pldm = [] → exec .pldmEventCollect s = .next s)

/-- O50: While the link is up: every AtomicOp is answered with Unsupported Request; a configuration request is answered, with Request Retry Status possible only within 1 s of a module reset's end (which, is a free value), and D3hot to D0 requests a function reset; the identity dwords read as R580 gives them. While a function reset runs a BAR4 read returns all ones and a write does nothing. Otherwise a BAR4 access to an unmapped address is counted, to a die whose HBM has not trained it is not; either way a read gives all ones and a write does nothing; else the access joins the in-order queue. PCIE_LINK_DOWN clears the link, ends transport 0's sessions and deletes their rings; PCIE_LINK_UP sets rate and width. -/
def Obligations.endpoint_requests_and_link_events : Prop :=
  ∀ (s : State), s.Live →
    (s.hif.up = true → exec .atomicopRequest s = .next { s with out := .unsupportedRequest :: s.out }) ∧
    (s.hif.up = true → s.boot.resetEndAt + 100000000 ≤ s.now →
      (∀ d, exec (.pcieConfigRequest (.read d)) s = .next { s with out := .cfgData (s.cfgDword d.toNat) :: s.out }) ∧
      exec (.pcieConfigRequest .setD3hot) s = .next { s with hif := { s.hif with d3hot := true } } ∧
      (s.hif.d3hot = true → ∃ u, u = { s with hif := { s.hif with d3hot := false } } ∧ exec (.pcieConfigRequest .setD0) s = .next (u.requestReset
        { scope := 4, source := 11, index := 0, watchdog := 0, at_ := s.now, counted := false, captured := false })) ∧
      (∀ on, exec (.pcieConfigRequest (.setRelaxedOrdering on)) s = .next { s with hif := { s.hif with relaxed := on } }) ∧
      (∀ n, exec (.pcieConfigRequest (.setBar4Size n)) s = .next { s with hif := { s.hif with bar4Log2Gib := n } }) ∧
      exec (.pcieConfigRequest (.setFunctionMask true)) s = .next { s with hif := { s.hif with functionMask := true } }) ∧
    (∀ r, s.hif.up = true → s.now < s.boot.resetEndAt + 100000000 → exec (.pcieConfigRequest r) s = .next (s.settle (s.configure r)) ∨
      exec (.pcieConfigRequest r) s = .next { s with fresh := s.fresh + 1, out := .requestRetry :: s.out }) ∧
    (s.cfgDword 0 = 0x24081FA7 ∧ s.cfgDword 2 = 0x120000B1) ∧
    (∀ o n d w a len, s.hif.up = true → s.hif.d3hot = false → a = s.hif.bar4Base.toNat / 2 ^ s.hif.bar4Log2Gib * 2 ^ s.hif.bar4Log2Gib * 2 ^ 30 + o →
      len = (if w then d.length else n) → 0 < len → o + len ≤ 2 ^ (30 + s.hif.bar4Log2Gib) → ∃ u, u = { s with hif := { s.hif with unmapped := satInc s.hif.unmapped } } ∧
      (s.inFunctionReset = true →
        exec (.bar4Access o n d w) s = .next (if w then s else { s with out := .readBytes (List.replicate len 0xFF) :: s.out })) ∧
      (s.inFunctionReset = false → isHbm a = false ∨ s.mappedRange a len = false →
        exec (.bar4Access o n d w) s = .next (if w then u else { u with out := .readBytes (List.replicate len 0xFF) :: s.out })) ∧
      (s.inFunctionReset = false → isHbm a = true → s.mappedRange a len = true → s.untrainedAt a = true ∨ s.fenced w a len = true →
        exec (.bar4Access o n d w) s = .next (if w then s else { s with out := .readBytes (List.replicate len 0xFF) :: s.out })) ∧
      (s.inFunctionReset = false → isHbm a = true → s.mappedRange a len = true → s.untrainedAt a = false → s.fenced w a len = false →
        exec (.bar4Access o n d w) s = .next (s.settle (s.acceptInOrder { addr := a, data := d, size := n, isWrite := w, tag := 0x136 })))) ∧
    (s.hif.up = true → ∃ u ended, u = { s with hif := { s.hif with up := false, flitMode := false, speed := 0, width := 0 } } ∧
      ended = (List.range 4).filter (fun n => (s.session n).onTransport 0) ∧
      exec .pcieLinkDown s = .next (s.settle (ended.foldl (fun (s : State) n => s.deleteRingsOf n) (u.endSessions fun n => ended.contains n)))) ∧
    (∀ f (sp : BitVec 3) (w : BitVec 5), s.hif.up = false → s.boot.image.isSome = true → 3 ≤ sp.toNat → sp.toNat ≤ 6 → w.toNat ∈ [1, 2, 4, 8, 16] →
      exec (.pcieLinkUp f sp w) s = .next { s with hif := { s.hif with up := true, flitMode := f, speed := sp, width := w } }) ∧
    (s.hif.up = false → exec .pcieLinkDown s = .next s ∧ exec .atomicopRequest s = .next s ∧ ∀ r, exec (.pcieConfigRequest r) s = .next s)

/-- O51: In every state, a module reset included, each TAP command loads the opcode of R596 into the named die's instruction register and leaves the other dies' and everything else as they are. EXTEST, CLAMP, HIGHZ, EXTEST_PULSE and EXTEST_TRAIN mark the session in which boundary cells drive the outputs; IDCODE, SAMPLE/PRELOAD and BYPASS leave the mark as it is, and no TAP command clears it. Test-logic reset selects IDCODE on every die. Opcodes outside the table act as BYPASS. -/
def Obligations.test_instructions_load_in_every_state : Prop :=
  ∀ (s : State) (d : Die),
    (exec .testLogicReset s = .next { s with tap := { s.tap with hub := 1, ad0 := 1, ad1 := 1 } }) ∧
    (∀ op (drives : Bool) c, (c, op, drives) ∈ [((.extest d : Instr), (0x00 : Byte), true), (.clamp d, 0x05, true), (.highz d, 0x06, true), (.extestPulse d, 0x08, true),
        (.extestTrain d, 0x09, true), (.idcode d, 0x01, false), (.samplePreload d, 0x02, false), (.bypass d 0xFF, 0xFF, false), (.bypass d 0x77, 0x77, false)] →
      ∃ t, exec c s = .next t ∧ ChangesOnly [.tap] s t ∧ t.tap.used = (s.tap.used || drives) ∧
        t.tap.hub = (if d = .hub then op else s.tap.hub) ∧ t.tap.ad0 = (if d = .ad0 then op else s.tap.ad0) ∧ t.tap.ad1 = (if d = .ad1 then op else s.tap.ad1)) ∧
    (∀ op : Byte, op.toNat ∈ [0, 1, 2, 5, 6, 8, 9] → exec (.bypass d op) s = .next s) ∧
    (∀ op : Byte, op.toNat ∉ [0, 1, 2, 5, 6, 8, 9] → tapRegister op = .bypass ∧ tapBits d op = 1 ∧
      ∃ t, exec (.bypass d op) s = .next t ∧ t.tap.used = s.tap.used ∧ (d = .ad1 → t.tap.ad1 = op)) ∧
    (tapBits d 1 = 32 ∧ tapBits .hub 0 = 5120 ∧ tapBits .ad0 2 = 1536 ∧ idcodeOf .hub = 0x124085CB ∧ idcodeOf .ad0 = 0x124095CB ∧ idcodeOf .ad1 = 0x124095CB)

/-- O52: With command c at the front of the queue, the step's outcome is that of c on the state whose queue is the rest. -/
def Obligations.a_step_runs_the_front_command : Prop :=
  ∀ (c : Instr) (rest : List Instr) (s : State), Machine.step { s with pending := c :: rest } = exec c { s with pending := rest }

/-- O53: That an empty queue lets one reference period pass is the model's choice (log 1). The always-on counter then advances by 1. Outside a module reset each domain counter advances by the cycles that its clock has in 10 ns (hub 18, management 5, die networks 20, HBM controllers 16) or by one more or one less, since no two clocks have a phase relation; which, is a free value of the model. RST_OUT_N has risen once 2 ms have passed since the reset. During a module reset nothing but the always-on counter changes. An array or port reset that has been held for 100 us completes then (R534). Contexts, RUNs, rings, sessions, power and boot state never change. -/
def Obligations.an_idle_step_is_one_reference_period : Prop :=
  ∀ (s : State), s.pending = [] → ∃ t, Machine.step s = .next t ∧ t.now = s.now + 1 ∧
    (s.rst.active.isSome = true → ChangesOnly [.now] s t) ∧
    (s.rst.active = none → Tab.rising s.ctrs = true → ∀ i : Fin 6, ∃ n nominal, nominal = [18, 5, 20, 20, 16, 16].getD i 0 ∧ nominal ≤ n + 1 ∧ n ≤ nominal + 1 ∧
      Tab.get (fun _ => (0 : BitVec 48)) t.ctrs (i + 1) = Tab.get (fun _ => (0 : BitVec 48)) s.ctrs (i + 1) + BitVec.ofNat 48 n) ∧
    (s.rst.active = none → t.pins.rstOutN = (s.pins.rstOutN || decide ((match s.rst.recovering with | some r => r.at_ | none => 0) + 200000 ≤ s.now + 1))) ∧
    ChangesOnly [.now, .ctrs, .pins, .tel, .engines, .arrays, .red, .hbm, .mem, .hif, .out, .pldm, .flash, .dsc, .sync, .fab, .rst] s t

/-- O54: Whatever a command does, the queue in the state that it leaves is the one it was given: a step only takes the front command away. -/
def Obligations.commands_leave_the_queue_alone : Prop :=
  ∀ (c : Instr) (s t : State), (exec c s = .next t → t.pending = s.pending) ∧
    (Machine.step { s with pending := c :: s.pending } = .next t → t.pending = s.pending)

/-- O55: Once a session in which boundary cells drove the outputs has begun, only the test commands, POWER_ON, PWR_OK_LOW and COLD_MODULE_RESET still have an effect; every other command faults, since the spec defines no functional behaviour from then on until the cold reset. In every other state every command answers a next state: no operand, register content or memory content stops the module. -/
def Obligations.only_a_boundary_scan_stops_the_module : Prop :=
  ∀ (c : Instr) (s : State) (still : Bool), still = (match c with
      | .testLogicReset | .extest _ | .idcode _ | .samplePreload _ | .clamp _ | .highz _ | .extestPulse _ | .extestTrain _ | .bypass _ _ => true
      | .powerOn | .pwrOkLow | .coldModuleReset => true
      | _ => false) →
    (s.tap.used = true → still = false → exec c s = .fault .boundaryScanUndefined) ∧
    (s.tap.used = false ∨ still = true → ∃ t, exec c s = .next t)

/-- O56: During a warm or cold module reset every command but the test commands, the reset sources on pins and rails, the reset rows and RESET_STRETCH_END leaves the state exactly as it is. -/
def Obligations.a_module_reset_holds_the_module : Prop :=
  ∀ (c : Instr) (s : State), s.tap.used = false → s.rst.active.isSome = true → (match c with
      | .testLogicReset | .extest _ | .idcode _ | .samplePreload _ | .clamp _ | .highz _ | .extestPulse _ | .extestTrain _ | .bypass _ _ => False
      | .powerOn | .pwrOkLow | .perstNLow | .functionLevelReset | .railResetLevel _ => False
      | .warmModuleReset | .coldModuleReset | .resetStretchEnd _ _ | .arrayResetEscalate _ => False
      | _ => True) →
    exec c s = .next s

/-- O57: Read through BAR0 the reset state gives the reset values of the register tables: service level 0 at 1,200 MHz, event rings off with vector n, idle arrays at a target of 2,400 MHz with armed watchdogs, the HBM limits, ports off with their limits, power status at d = 8 and F = 2,400 MHz, and the watchdogs' limits. No command waits, no session is open, no context exists and the test logic selects IDCODE. Registers for which the spec gives no reset value are no part of this statement. -/
def Obligations.reset_leaves_the_registers_as_listed : Prop :=
  (∀ e ∈ [(0x30, 1200 * 4), (0x10008, 0), (0x20208, 0), (0x20300, 0), (0x20400, 0), (0x200010, 24 * 2 ^ 48 + 1024 * 2 ^ 32 + 2 ^ 24 + 16 * 2 ^ 16 + 64),
      (0x200018, 2 ^ 8), (0x300000, 16 * 2 ^ 16), (0x300010, 0x88B5 * 2 ^ 32 + 0x0200_0000), (0x400008, 7 * 2 ^ 59 + 2400 * 2 ^ 32),
      (0x400010, 1000 * 2 ^ 32 + 3 * 2 ^ 8 + 30), (0x400018, 2400 * 2 ^ 52 + 2400 * 2 ^ 40), (0x400030, 0), (0x410008, 7 * 2 ^ 61 + 100 * 2 ^ 32 + 10 * 2 ^ 16 + 20),
      (0x410010, 60 * 2 ^ 8 + 4 * 2 ^ 4 + 3), (0x410020, 0), (0x420000, 1)], bar0Read State.reset e.1 = e.2) ∧
    (∀ n : Fin 16, bar0Read State.reset (0x20008 + 0x20 * n) = 2 ^ 24 + n * 2 ^ 10 + 6 * 2 ^ 1 ∧
      bar0Read State.reset (0x301000 + 0x40 * n) = 100 * 2 ^ 48 + 16 * 2 ^ 40 + 1000 * 2 ^ 24 ∧ bar0Read State.reset (0x301008 + 0x40 * n) = 0) ∧
    (∀ e ∈ [(0x100000, 2400), (0x100008, 0), (0x100010, 0), (0x100018, 2 ^ 31 + 10000), (0x100020, 0), (0x170000, 2400), (0x170018, 2 ^ 31 + 10000)],
      bar0Read State.reset e.1 = e.2) ∧ (∀ a, State.reset.array a = ArrayUnit.reset) ∧
    (regCtx Ctx.reset = 0 ∧ regObj SyncObj.reset = 0) ∧
    (∀ c, State.reset.ctx c = Ctx.reset ∧ State.reset.obj c = SyncObj.reset ∧ State.reset.session c = .free ∧ State.reset.plan c = none ∧ State.reset.ring c = none) ∧
    State.reset.pending = [] ∧ State.reset.boot.level = 0 ∧ State.reset.tap.used = false ∧ State.reset.tap.hub = 1 ∧ State.reset.tap.ad0 = 1 ∧ State.reset.tap.ad1 = 1

/-- O58: From every state, a step that goes on leaves FW_SVN, CFG_VERSION and KEY_VERSION at least as high as they were and every revoked key revoked. FW_SVN changes only to the SVN of the image that runs. An out-of-service latch that is set stays set, unless the command was CLEAR_OUT_OF_SERVICE. -/
def Obligations.security_state_in_flash_only_tightens : Prop :=
  ∀ (s t : State), Machine.step s = .next t →
    s.flash.fwSvn.toNat ≤ t.flash.fwSvn.toNat ∧ s.flash.cfgVersion.toNat ≤ t.flash.cfgVersion.toNat ∧ s.flash.keyVersion.toNat ≤ t.flash.keyVersion.toNat ∧
    (∀ i, s.flash.revoke.getLsbD i = true → t.flash.revoke.getLsbD i = true) ∧
    (t.flash.fwSvn ≠ s.flash.fwSvn → t.flash.fwSvn = s.boot.fwSvnRunning) ∧
    (s.flash.oos = true → t.flash.oos = true ∨ ∃ f rest, s.pending = .clearOutOfService f :: rest)

/-- O59: Inv says: the running image's SVN is the one reported as running and is not below the FW_SVN counter; CFG_VERSION is the version of the configuration record in use; and the reset log holds at most 15 entries, as many as COUNT24 can count. If a state has Inv and a step goes on, its next state has Inv. -/
def Obligations.no_image_below_its_counter_ever_runs : Prop :=
  ∀ (s t : State), s.BootSound → Machine.step s = .next t → t.BootSound

/-- O60: At reset no image runs, no configuration record is in use and the reset log is empty, so the boot invariant holds. -/
def Obligations.the_reset_state_is_boot_sound : Prop :=
  State.reset.BootSound
end

