-- ==== Sys2Proof/Laws/Tab.lean ====
section
/-!
SUPPORT. The laws of sparse tables: a read after a write to the same key gives the value written, a write leaves every other key
alone, and every operation keeps the canonical form.
-/
namespace Sys2Proof

variable {α : Type}

theorem Tab.get_put_self (bg : Nat → α) (t : Tab α) (k : Nat) (x : α) : Tab.get bg (Tab.put t k x) k = x := by
  induction t with
  | nil => simp [Tab.put, Tab.get]
  | cons e rest ih =>
    obtain ⟨j, v⟩ := e
    by_cases h1 : j = k
    · simp [Tab.put, h1, Tab.get]
    · by_cases h2 : k < j
      · simp [Tab.put, h1, h2, Tab.get]
      · simp [Tab.put, h1, h2, Tab.get, ih]

theorem Tab.get_put_ne (bg : Nat → α) (t : Tab α) {k j : Nat} (x : α) (h : k ≠ j) :
    Tab.get bg (Tab.put t k x) j = Tab.get bg t j := by
  induction t with
  | nil => simp [Tab.put, Tab.get, h]
  | cons e rest ih =>
    obtain ⟨i, v⟩ := e
    by_cases h1 : i = k
    · subst h1; simp [Tab.put, Tab.get, h]
    · by_cases h2 : k < i
      · simp [Tab.put, h1, h2, Tab.get, h]
      · simp [Tab.put, h1, h2, Tab.get, ih]

theorem Tab.above_iff {b : Nat} {t : Tab α} : Tab.above b t = true ↔ ∀ e ∈ t, b < e.1 := by
  simp [Tab.above, List.all_eq_true]

theorem Tab.get_of_above (bg : Nat → α) {t : Tab α} {b k : Nat} (h : Tab.above b t = true) (hk : k ≤ b) :
    Tab.get bg t k = bg k := by
  induction t with
  | nil => rfl
  | cons e rest ih =>
    obtain ⟨j, v⟩ := e
    rw [Tab.above_iff] at h
    have hj : b < j := h (j, v) (by simp)
    have hr : Tab.above b rest = true := Tab.above_iff.2 fun e he => h e (by simp [he])
    have hne : j ≠ k := by omega
    simp [Tab.get, hne, ih hr]

theorem Tab.get_erase_self (bg : Nat → α) {t : Tab α} (h : Tab.rising t = true) (k : Nat) :
    Tab.get bg (Tab.erase t k) k = bg k := by
  induction t with
  | nil => rfl
  | cons e rest ih =>
    obtain ⟨j, v⟩ := e
    simp only [Tab.rising, Bool.and_eq_true] at h
    by_cases h1 : j = k
    · subst h1; simpa [Tab.erase] using Tab.get_of_above bg h.1 (Nat.le_refl _)
    · by_cases h2 : k < j
      · have : Tab.get bg rest k = bg k := Tab.get_of_above bg h.1 (Nat.le_of_lt h2)
        simp [Tab.erase, h1, h2, Tab.get, this]
      · simp [Tab.erase, h1, h2, Tab.get, ih h.2]

theorem Tab.get_erase_ne (bg : Nat → α) (t : Tab α) {k j : Nat} (h : k ≠ j) :
    Tab.get bg (Tab.erase t k) j = Tab.get bg t j := by
  induction t with
  | nil => rfl
  | cons e rest ih =>
    obtain ⟨i, v⟩ := e
    by_cases h1 : i = k
    · subst h1; simp [Tab.erase, Tab.get, h]
    · by_cases h2 : k < i
      · simp [Tab.erase, h1, h2, Tab.get]
      · simp [Tab.erase, h1, h2, Tab.get, ih]

/-- A read after a write to the same key of a canonical table gives the value written. -/
theorem Tab.get_set_self [DecidableEq α] (bg : Nat → α) {t : Tab α} (h : Tab.rising t = true) (k : Nat) (x : α) :
    Tab.get bg (Tab.set bg t k x) k = x := by
  unfold Tab.set
  split
  · rename_i hx; rw [Tab.get_erase_self bg h, hx]
  · exact Tab.get_put_self bg t k x

/-- A write leaves every other key alone. -/
theorem Tab.get_set_ne [DecidableEq α] (bg : Nat → α) (t : Tab α) {k j : Nat} (x : α) (h : k ≠ j) :
    Tab.get bg (Tab.set bg t k x) j = Tab.get bg t j := by
  unfold Tab.set
  split
  · exact Tab.get_erase_ne bg t h
  · exact Tab.get_put_ne bg t x h

theorem Tab.mem_erase {t : Tab α} {k : Nat} {e : Nat × α} (h : e ∈ Tab.erase t k) : e ∈ t := by
  induction t with
  | nil => simp [Tab.erase] at h
  | cons a rest ih =>
    obtain ⟨i, v⟩ := a
    simp only [Tab.erase] at h
    split at h
    · exact List.mem_cons_of_mem _ h
    · split at h
      · exact h
      · rcases List.mem_cons.1 h with h | h
        · simp [h]
        · exact List.mem_cons_of_mem _ (ih h)

theorem Tab.mem_put {t : Tab α} {k : Nat} {x : α} {e : Nat × α} (h : e ∈ Tab.put t k x) : e = (k, x) ∨ e ∈ t := by
  induction t with
  | nil => simp [Tab.put] at h; exact Or.inl h
  | cons a rest ih =>
    obtain ⟨i, v⟩ := a
    simp only [Tab.put] at h
    split at h
    · rcases List.mem_cons.1 h with h | h
      · exact Or.inl h
      · exact Or.inr (List.mem_cons_of_mem _ h)
    · split at h
      · rcases List.mem_cons.1 h with h | h
        · exact Or.inl h
        · exact Or.inr h
      · rcases List.mem_cons.1 h with h | h
        · exact Or.inr (by simp [h])
        · rcases ih h with h | h
          · exact Or.inl h
          · exact Or.inr (List.mem_cons_of_mem _ h)

theorem Tab.rising_erase {t : Tab α} (h : Tab.rising t = true) (k : Nat) : Tab.rising (Tab.erase t k) = true := by
  induction t with
  | nil => rfl
  | cons e rest ih =>
    obtain ⟨j, v⟩ := e
    have h' := h
    simp only [Tab.rising, Bool.and_eq_true] at h
    simp only [Tab.erase]
    split
    · exact h.2
    · split
      · exact h'
      · simp only [Tab.rising, Bool.and_eq_true]
        refine ⟨Tab.above_iff.2 fun e he => ?_, ih h.2⟩
        exact Tab.above_iff.1 h.1 e (Tab.mem_erase he)

theorem Tab.rising_put {t : Tab α} (h : Tab.rising t = true) (k : Nat) (x : α) : Tab.rising (Tab.put t k x) = true := by
  induction t with
  | nil => simp [Tab.put, Tab.rising, Tab.above]
  | cons e rest ih =>
    obtain ⟨j, v⟩ := e
    have h' := h
    simp only [Tab.rising, Bool.and_eq_true] at h
    simp only [Tab.put]
    split
    · rename_i hj; subst hj; simp only [Tab.rising, Bool.and_eq_true]; exact h
    · split
      · rename_i hlt
        simp only [Tab.rising, Bool.and_eq_true]
        refine ⟨Tab.above_iff.2 fun e he => ?_, h⟩
        rcases List.mem_cons.1 he with he | he
        · subst he; exact hlt
        · exact Nat.lt_trans hlt (Tab.above_iff.1 h.1 e he)
      · rename_i hne hnlt
        simp only [Tab.rising, Bool.and_eq_true]
        refine ⟨Tab.above_iff.2 fun e he => ?_, ih h.2⟩
        rcases Tab.mem_put he with he | he
        · subst he; show j < k; omega
        · exact Tab.above_iff.1 h.1 e he

/-- Every write keeps the canonical form. -/
theorem Tab.rising_set [DecidableEq α] {bg : Nat → α} {t : Tab α} (h : Tab.rising t = true) (k : Nat) (x : α) :
    Tab.rising (Tab.set bg t k x) = true := by
  unfold Tab.set
  split
  · exact Tab.rising_erase h k
  · exact Tab.rising_put h k x

theorem Tab.wf_set [DecidableEq α] {bg : Nat → α} {t : Tab α} (h : Tab.wf bg t = true) (k : Nat) (x : α) :
    Tab.wf bg (Tab.set bg t k x) = true := by
  simp only [Tab.wf, Bool.and_eq_true, List.all_eq_true, decide_eq_true_eq] at h ⊢
  unfold Tab.set
  split
  · exact ⟨Tab.rising_erase h.1 k, fun e he => h.2 e (Tab.mem_erase he)⟩
  · rename_i hx
    refine ⟨Tab.rising_put h.1 k x, fun e he => ?_⟩
    rcases Tab.mem_put he with he | he
    · subst he; exact hx
    · exact h.2 e he

theorem Tab.wf_rising [DecidableEq α] {bg : Nat → α} {t : Tab α} (h : Tab.wf bg t = true) : Tab.rising t = true := by
  simp only [Tab.wf, Bool.and_eq_true] at h; exact h.1

theorem Tab.wf_modify [DecidableEq α] {bg : Nat → α} {t : Tab α} (h : Tab.wf bg t = true) (k : Nat) (f : α → α) :
    Tab.wf bg (Tab.modify bg t k f) = true := Tab.wf_set h k _

theorem Tab.wf_setMany [DecidableEq α] {bg : Nat → α} {t : Tab α} (h : Tab.wf bg t = true) (k : Nat) (xs : List α) :
    Tab.wf bg (Tab.setMany bg t k xs) = true := by
  induction xs generalizing t k with
  | nil => exact h
  | cons x xs ih => exact ih (Tab.wf_set h k x) (k + 1)

theorem Tab.get_modify_self [DecidableEq α] (bg : Nat → α) {t : Tab α} (h : Tab.rising t = true) (k : Nat) (f : α → α) :
    Tab.get bg (Tab.modify bg t k f) k = f (Tab.get bg t k) := Tab.get_set_self bg h k _

theorem Tab.get_modify_ne [DecidableEq α] (bg : Nat → α) (t : Tab α) {k j : Nat} (f : α → α) (h : k ≠ j) :
    Tab.get bg (Tab.modify bg t k f) j = Tab.get bg t j := Tab.get_set_ne bg t _ h

/-- Writing a run of keys leaves every key below it alone. -/
theorem Tab.get_setMany_lt [DecidableEq α] (bg : Nat → α) (t : Tab α) {k j : Nat} (xs : List α) (h : j < k) :
    Tab.get bg (Tab.setMany bg t k xs) j = Tab.get bg t j := by
  induction xs generalizing t k with
  | nil => rfl
  | cons x xs ih =>
    rw [Tab.setMany, ih _ (by omega), Tab.get_set_ne bg t x (by omega)]

/-- Writing a run of keys leaves every key beyond it alone. -/
theorem Tab.get_setMany_ge [DecidableEq α] (bg : Nat → α) (t : Tab α) {k j : Nat} (xs : List α) (h : k + xs.length ≤ j) :
    Tab.get bg (Tab.setMany bg t k xs) j = Tab.get bg t j := by
  induction xs generalizing t k with
  | nil => rfl
  | cons x xs ih =>
    simp only [List.length_cons] at h
    rw [Tab.setMany, ih _ (by omega), Tab.get_set_ne bg t x (by omega)]

/-- A run of keys reads back the values written. -/
theorem Tab.get_setMany_in [DecidableEq α] (bg : Nat → α) {t : Tab α} (h : Tab.wf bg t = true) {k : Nat} (xs : List α)
    (i : Nat) (hi : i < xs.length) : Tab.get bg (Tab.setMany bg t k xs) (k + i) = xs[i] := by
  induction xs generalizing t k i with
  | nil => simp at hi
  | cons x xs ih =>
    rw [Tab.setMany]
    cases i with
    | zero =>
      have h0 := Tab.get_setMany_lt bg (Tab.set bg t k x) (k := k + 1) (j := k) xs (by omega)
      rw [Tab.get_set_self bg (Tab.wf_rising h)] at h0
      simpa using h0
    | succ i =>
      have := ih (Tab.wf_set h k x) (k := k + 1) i (by simpa using hi)
      rw [show k + (i + 1) = k + 1 + i by omega, this]; rfl

theorem Tab.wf_drop [DecidableEq α] {bg : Nat → α} {t : Tab α} (h : Tab.wf bg t = true) (p : Nat → Bool) :
    Tab.wf bg (Tab.drop t p) = true := by
  simp only [Tab.wf, Bool.and_eq_true, List.all_eq_true, decide_eq_true_eq] at h ⊢
  refine ⟨?_, fun e he => h.2 e (List.mem_of_mem_filter he)⟩
  obtain ⟨hr, -⟩ := h
  clear * - hr
  induction t with
  | nil => rfl
  | cons e rest ih =>
    obtain ⟨j, v⟩ := e
    simp only [Tab.rising, Bool.and_eq_true] at hr
    by_cases hp : p j
    · simpa [Tab.drop, hp] using ih hr.2
    · simp only [Tab.drop, List.filter_cons, hp, Bool.not_false, if_true, Tab.rising, Bool.and_eq_true]
      refine ⟨Tab.above_iff.2 fun e he => Tab.above_iff.1 hr.1 e (List.mem_of_mem_filter he), ih hr.2⟩

end Sys2Proof
end

