-- ==== Sys2Proof/Laws/State.lean ====
section
/-!
SUPPORT. One law per field of the state and update of an indexed group: the update leaves the field alone. Behind them, reading back what an
update has written.
-/
namespace Sys2Proof.Machine

@[simp] theorem State.setCtx_pending (s : State) (c : Nat) (x : Ctx) : (s.setCtx c x).pending = s.pending := rfl
@[simp] theorem State.setCtx_now (s : State) (c : Nat) (x : Ctx) : (s.setCtx c x).now = s.now := rfl
@[simp] theorem State.setCtx_ctrs (s : State) (c : Nat) (x : Ctx) : (s.setCtx c x).ctrs = s.ctrs := rfl
@[simp] theorem State.setCtx_fresh (s : State) (c : Nat) (x : Ctx) : (s.setCtx c x).fresh = s.fresh := rfl
@[simp] theorem State.setCtx_out (s : State) (c : Nat) (x : Ctx) : (s.setCtx c x).out = s.out := rfl
@[simp] theorem State.setCtx_mem (s : State) (c : Nat) (x : Ctx) : (s.setCtx c x).mem = s.mem := rfl
@[simp] theorem State.setCtx_compat (s : State) (c : Nat) (x : Ctx) : (s.setCtx c x).compat = s.compat := rfl
@[simp] theorem State.setCtx_deterministic (s : State) (c : Nat) (x : Ctx) : (s.setCtx c x).deterministic = s.deterministic := rfl
@[simp] theorem State.setCtx_strapped (s : State) (c : Nat) (x : Ctx) : (s.setCtx c x).strapped = s.strapped := rfl
@[simp] theorem State.setCtx_hif (s : State) (c : Nat) (x : Ctx) : (s.setCtx c x).hif = s.hif := rfl
@[simp] theorem State.setCtx_sync (s : State) (c : Nat) (x : Ctx) : (s.setCtx c x).sync = s.sync := rfl
@[simp] theorem State.setCtx_runs (s : State) (c : Nat) (x : Ctx) : (s.setCtx c x).runs = s.runs := rfl
@[simp] theorem State.setCtx_runSeq (s : State) (c : Nat) (x : Ctx) : (s.setCtx c x).runSeq = s.runSeq := rfl
@[simp] theorem State.setCtx_tables (s : State) (c : Nat) (x : Ctx) : (s.setCtx c x).tables = s.tables := rfl
@[simp] theorem State.setCtx_arrays (s : State) (c : Nat) (x : Ctx) : (s.setCtx c x).arrays = s.arrays := rfl
@[simp] theorem State.setCtx_tel (s : State) (c : Nat) (x : Ctx) : (s.setCtx c x).tel = s.tel := rfl
@[simp] theorem State.setCtx_dsc (s : State) (c : Nat) (x : Ctx) : (s.setCtx c x).dsc = s.dsc := rfl
@[simp] theorem State.setCtx_hbm (s : State) (c : Nat) (x : Ctx) : (s.setCtx c x).hbm = s.hbm := rfl
@[simp] theorem State.setCtx_tier (s : State) (c : Nat) (x : Ctx) : (s.setCtx c x).tier = s.tier := rfl
@[simp] theorem State.setCtx_engines (s : State) (c : Nat) (x : Ctx) : (s.setCtx c x).engines = s.engines := rfl
@[simp] theorem State.setCtx_chk (s : State) (c : Nat) (x : Ctx) : (s.setCtx c x).chk = s.chk := rfl
@[simp] theorem State.setCtx_fab (s : State) (c : Nat) (x : Ctx) : (s.setCtx c x).fab = s.fab := rfl
@[simp] theorem State.setCtx_red (s : State) (c : Nat) (x : Ctx) : (s.setCtx c x).red = s.red := rfl
@[simp] theorem State.setCtx_upd (s : State) (c : Nat) (x : Ctx) : (s.setCtx c x).upd = s.upd := rfl
@[simp] theorem State.setCtx_pwr (s : State) (c : Nat) (x : Ctx) : (s.setCtx c x).pwr = s.pwr := rfl
@[simp] theorem State.setCtx_rst (s : State) (c : Nat) (x : Ctx) : (s.setCtx c x).rst = s.rst := rfl
@[simp] theorem State.setCtx_flash (s : State) (c : Nat) (x : Ctx) : (s.setCtx c x).flash = s.flash := rfl
@[simp] theorem State.setCtx_boot (s : State) (c : Nat) (x : Ctx) : (s.setCtx c x).boot = s.boot := rfl
@[simp] theorem State.setCtx_sec (s : State) (c : Nat) (x : Ctx) : (s.setCtx c x).sec = s.sec := rfl
@[simp] theorem State.setCtx_dbg (s : State) (c : Nat) (x : Ctx) : (s.setCtx c x).dbg = s.dbg := rfl
@[simp] theorem State.setCtx_tap (s : State) (c : Nat) (x : Ctx) : (s.setCtx c x).tap = s.tap := rfl
@[simp] theorem State.setCtx_spanW (s : State) (c : Nat) (x : Ctx) : (s.setCtx c x).spanW = s.spanW := rfl
@[simp] theorem State.setCtx_spanE (s : State) (c : Nat) (x : Ctx) : (s.setCtx c x).spanE = s.spanE := rfl
@[simp] theorem State.setCtx_eid (s : State) (c : Nat) (x : Ctx) : (s.setCtx c x).eid = s.eid := rfl
@[simp] theorem State.setCtx_pldm (s : State) (c : Nat) (x : Ctx) : (s.setCtx c x).pldm = s.pldm := rfl
@[simp] theorem State.setCtx_pins (s : State) (c : Nat) (x : Ctx) : (s.setCtx c x).pins = s.pins := rfl

@[simp] theorem State.setArray_pending (s : State) (a : Nat) (x : ArrayUnit) : (s.setArray a x).pending = s.pending := rfl
@[simp] theorem State.setArray_now (s : State) (a : Nat) (x : ArrayUnit) : (s.setArray a x).now = s.now := rfl
@[simp] theorem State.setArray_ctrs (s : State) (a : Nat) (x : ArrayUnit) : (s.setArray a x).ctrs = s.ctrs := rfl
@[simp] theorem State.setArray_fresh (s : State) (a : Nat) (x : ArrayUnit) : (s.setArray a x).fresh = s.fresh := rfl
@[simp] theorem State.setArray_out (s : State) (a : Nat) (x : ArrayUnit) : (s.setArray a x).out = s.out := rfl
@[simp] theorem State.setArray_mem (s : State) (a : Nat) (x : ArrayUnit) : (s.setArray a x).mem = s.mem := rfl
@[simp] theorem State.setArray_compat (s : State) (a : Nat) (x : ArrayUnit) : (s.setArray a x).compat = s.compat := rfl
@[simp] theorem State.setArray_deterministic (s : State) (a : Nat) (x : ArrayUnit) : (s.setArray a x).deterministic = s.deterministic := rfl
@[simp] theorem State.setArray_strapped (s : State) (a : Nat) (x : ArrayUnit) : (s.setArray a x).strapped = s.strapped := rfl
@[simp] theorem State.setArray_hif (s : State) (a : Nat) (x : ArrayUnit) : (s.setArray a x).hif = s.hif := rfl
@[simp] theorem State.setArray_sync (s : State) (a : Nat) (x : ArrayUnit) : (s.setArray a x).sync = s.sync := rfl
@[simp] theorem State.setArray_ctxs (s : State) (a : Nat) (x : ArrayUnit) : (s.setArray a x).ctxs = s.ctxs := rfl
@[simp] theorem State.setArray_runs (s : State) (a : Nat) (x : ArrayUnit) : (s.setArray a x).runs = s.runs := rfl
@[simp] theorem State.setArray_runSeq (s : State) (a : Nat) (x : ArrayUnit) : (s.setArray a x).runSeq = s.runSeq := rfl
@[simp] theorem State.setArray_tables (s : State) (a : Nat) (x : ArrayUnit) : (s.setArray a x).tables = s.tables := rfl
@[simp] theorem State.setArray_tel (s : State) (a : Nat) (x : ArrayUnit) : (s.setArray a x).tel = s.tel := rfl
@[simp] theorem State.setArray_dsc (s : State) (a : Nat) (x : ArrayUnit) : (s.setArray a x).dsc = s.dsc := rfl
@[simp] theorem State.setArray_hbm (s : State) (a : Nat) (x : ArrayUnit) : (s.setArray a x).hbm = s.hbm := rfl
@[simp] theorem State.setArray_tier (s : State) (a : Nat) (x : ArrayUnit) : (s.setArray a x).tier = s.tier := rfl
@[simp] theorem State.setArray_engines (s : State) (a : Nat) (x : ArrayUnit) : (s.setArray a x).engines = s.engines := rfl
@[simp] theorem State.setArray_chk (s : State) (a : Nat) (x : ArrayUnit) : (s.setArray a x).chk = s.chk := rfl
@[simp] theorem State.setArray_fab (s : State) (a : Nat) (x : ArrayUnit) : (s.setArray a x).fab = s.fab := rfl
@[simp] theorem State.setArray_red (s : State) (a : Nat) (x : ArrayUnit) : (s.setArray a x).red = s.red := rfl
@[simp] theorem State.setArray_upd (s : State) (a : Nat) (x : ArrayUnit) : (s.setArray a x).upd = s.upd := rfl
@[simp] theorem State.setArray_pwr (s : State) (a : Nat) (x : ArrayUnit) : (s.setArray a x).pwr = s.pwr := rfl
@[simp] theorem State.setArray_rst (s : State) (a : Nat) (x : ArrayUnit) : (s.setArray a x).rst = s.rst := rfl
@[simp] theorem State.setArray_flash (s : State) (a : Nat) (x : ArrayUnit) : (s.setArray a x).flash = s.flash := rfl
@[simp] theorem State.setArray_boot (s : State) (a : Nat) (x : ArrayUnit) : (s.setArray a x).boot = s.boot := rfl
@[simp] theorem State.setArray_sec (s : State) (a : Nat) (x : ArrayUnit) : (s.setArray a x).sec = s.sec := rfl
@[simp] theorem State.setArray_dbg (s : State) (a : Nat) (x : ArrayUnit) : (s.setArray a x).dbg = s.dbg := rfl
@[simp] theorem State.setArray_tap (s : State) (a : Nat) (x : ArrayUnit) : (s.setArray a x).tap = s.tap := rfl
@[simp] theorem State.setArray_spanW (s : State) (a : Nat) (x : ArrayUnit) : (s.setArray a x).spanW = s.spanW := rfl
@[simp] theorem State.setArray_spanE (s : State) (a : Nat) (x : ArrayUnit) : (s.setArray a x).spanE = s.spanE := rfl
@[simp] theorem State.setArray_eid (s : State) (a : Nat) (x : ArrayUnit) : (s.setArray a x).eid = s.eid := rfl
@[simp] theorem State.setArray_pldm (s : State) (a : Nat) (x : ArrayUnit) : (s.setArray a x).pldm = s.pldm := rfl
@[simp] theorem State.setArray_pins (s : State) (a : Nat) (x : ArrayUnit) : (s.setArray a x).pins = s.pins := rfl

@[simp] theorem State.setEngine_pending (s : State) (e : Nat) (x : Engine) : (s.setEngine e x).pending = s.pending := rfl
@[simp] theorem State.setEngine_now (s : State) (e : Nat) (x : Engine) : (s.setEngine e x).now = s.now := rfl
@[simp] theorem State.setEngine_ctrs (s : State) (e : Nat) (x : Engine) : (s.setEngine e x).ctrs = s.ctrs := rfl
@[simp] theorem State.setEngine_fresh (s : State) (e : Nat) (x : Engine) : (s.setEngine e x).fresh = s.fresh := rfl
@[simp] theorem State.setEngine_out (s : State) (e : Nat) (x : Engine) : (s.setEngine e x).out = s.out := rfl
@[simp] theorem State.setEngine_mem (s : State) (e : Nat) (x : Engine) : (s.setEngine e x).mem = s.mem := rfl
@[simp] theorem State.setEngine_compat (s : State) (e : Nat) (x : Engine) : (s.setEngine e x).compat = s.compat := rfl
@[simp] theorem State.setEngine_deterministic (s : State) (e : Nat) (x : Engine) : (s.setEngine e x).deterministic = s.deterministic := rfl
@[simp] theorem State.setEngine_strapped (s : State) (e : Nat) (x : Engine) : (s.setEngine e x).strapped = s.strapped := rfl
@[simp] theorem State.setEngine_hif (s : State) (e : Nat) (x : Engine) : (s.setEngine e x).hif = s.hif := rfl
@[simp] theorem State.setEngine_sync (s : State) (e : Nat) (x : Engine) : (s.setEngine e x).sync = s.sync := rfl
@[simp] theorem State.setEngine_ctxs (s : State) (e : Nat) (x : Engine) : (s.setEngine e x).ctxs = s.ctxs := rfl
@[simp] theorem State.setEngine_runs (s : State) (e : Nat) (x : Engine) : (s.setEngine e x).runs = s.runs := rfl
@[simp] theorem State.setEngine_runSeq (s : State) (e : Nat) (x : Engine) : (s.setEngine e x).runSeq = s.runSeq := rfl
@[simp] theorem State.setEngine_tables (s : State) (e : Nat) (x : Engine) : (s.setEngine e x).tables = s.tables := rfl
@[simp] theorem State.setEngine_arrays (s : State) (e : Nat) (x : Engine) : (s.setEngine e x).arrays = s.arrays := rfl
@[simp] theorem State.setEngine_tel (s : State) (e : Nat) (x : Engine) : (s.setEngine e x).tel = s.tel := rfl
@[simp] theorem State.setEngine_dsc (s : State) (e : Nat) (x : Engine) : (s.setEngine e x).dsc = s.dsc := rfl
@[simp] theorem State.setEngine_hbm (s : State) (e : Nat) (x : Engine) : (s.setEngine e x).hbm = s.hbm := rfl
@[simp] theorem State.setEngine_tier (s : State) (e : Nat) (x : Engine) : (s.setEngine e x).tier = s.tier := rfl
@[simp] theorem State.setEngine_chk (s : State) (e : Nat) (x : Engine) : (s.setEngine e x).chk = s.chk := rfl
@[simp] theorem State.setEngine_fab (s : State) (e : Nat) (x : Engine) : (s.setEngine e x).fab = s.fab := rfl
@[simp] theorem State.setEngine_red (s : State) (e : Nat) (x : Engine) : (s.setEngine e x).red = s.red := rfl
@[simp] theorem State.setEngine_upd (s : State) (e : Nat) (x : Engine) : (s.setEngine e x).upd = s.upd := rfl
@[simp] theorem State.setEngine_pwr (s : State) (e : Nat) (x : Engine) : (s.setEngine e x).pwr = s.pwr := rfl
@[simp] theorem State.setEngine_rst (s : State) (e : Nat) (x : Engine) : (s.setEngine e x).rst = s.rst := rfl
@[simp] theorem State.setEngine_flash (s : State) (e : Nat) (x : Engine) : (s.setEngine e x).flash = s.flash := rfl
@[simp] theorem State.setEngine_boot (s : State) (e : Nat) (x : Engine) : (s.setEngine e x).boot = s.boot := rfl
@[simp] theorem State.setEngine_sec (s : State) (e : Nat) (x : Engine) : (s.setEngine e x).sec = s.sec := rfl
@[simp] theorem State.setEngine_dbg (s : State) (e : Nat) (x : Engine) : (s.setEngine e x).dbg = s.dbg := rfl
@[simp] theorem State.setEngine_tap (s : State) (e : Nat) (x : Engine) : (s.setEngine e x).tap = s.tap := rfl
@[simp] theorem State.setEngine_spanW (s : State) (e : Nat) (x : Engine) : (s.setEngine e x).spanW = s.spanW := rfl
@[simp] theorem State.setEngine_spanE (s : State) (e : Nat) (x : Engine) : (s.setEngine e x).spanE = s.spanE := rfl
@[simp] theorem State.setEngine_eid (s : State) (e : Nat) (x : Engine) : (s.setEngine e x).eid = s.eid := rfl
@[simp] theorem State.setEngine_pldm (s : State) (e : Nat) (x : Engine) : (s.setEngine e x).pldm = s.pldm := rfl
@[simp] theorem State.setEngine_pins (s : State) (e : Nat) (x : Engine) : (s.setEngine e x).pins = s.pins := rfl

@[simp] theorem State.setPort_pending (s : State) (p : Nat) (x : Port) : (s.setPort p x).pending = s.pending := rfl
@[simp] theorem State.setPort_now (s : State) (p : Nat) (x : Port) : (s.setPort p x).now = s.now := rfl
@[simp] theorem State.setPort_ctrs (s : State) (p : Nat) (x : Port) : (s.setPort p x).ctrs = s.ctrs := rfl
@[simp] theorem State.setPort_fresh (s : State) (p : Nat) (x : Port) : (s.setPort p x).fresh = s.fresh := rfl
@[simp] theorem State.setPort_out (s : State) (p : Nat) (x : Port) : (s.setPort p x).out = s.out := rfl
@[simp] theorem State.setPort_mem (s : State) (p : Nat) (x : Port) : (s.setPort p x).mem = s.mem := rfl
@[simp] theorem State.setPort_compat (s : State) (p : Nat) (x : Port) : (s.setPort p x).compat = s.compat := rfl
@[simp] theorem State.setPort_deterministic (s : State) (p : Nat) (x : Port) : (s.setPort p x).deterministic = s.deterministic := rfl
@[simp] theorem State.setPort_strapped (s : State) (p : Nat) (x : Port) : (s.setPort p x).strapped = s.strapped := rfl
@[simp] theorem State.setPort_hif (s : State) (p : Nat) (x : Port) : (s.setPort p x).hif = s.hif := rfl
@[simp] theorem State.setPort_sync (s : State) (p : Nat) (x : Port) : (s.setPort p x).sync = s.sync := rfl
@[simp] theorem State.setPort_ctxs (s : State) (p : Nat) (x : Port) : (s.setPort p x).ctxs = s.ctxs := rfl
@[simp] theorem State.setPort_runs (s : State) (p : Nat) (x : Port) : (s.setPort p x).runs = s.runs := rfl
@[simp] theorem State.setPort_runSeq (s : State) (p : Nat) (x : Port) : (s.setPort p x).runSeq = s.runSeq := rfl
@[simp] theorem State.setPort_tables (s : State) (p : Nat) (x : Port) : (s.setPort p x).tables = s.tables := rfl
@[simp] theorem State.setPort_arrays (s : State) (p : Nat) (x : Port) : (s.setPort p x).arrays = s.arrays := rfl
@[simp] theorem State.setPort_tel (s : State) (p : Nat) (x : Port) : (s.setPort p x).tel = s.tel := rfl
@[simp] theorem State.setPort_dsc (s : State) (p : Nat) (x : Port) : (s.setPort p x).dsc = s.dsc := rfl
@[simp] theorem State.setPort_hbm (s : State) (p : Nat) (x : Port) : (s.setPort p x).hbm = s.hbm := rfl
@[simp] theorem State.setPort_tier (s : State) (p : Nat) (x : Port) : (s.setPort p x).tier = s.tier := rfl
@[simp] theorem State.setPort_engines (s : State) (p : Nat) (x : Port) : (s.setPort p x).engines = s.engines := rfl
@[simp] theorem State.setPort_chk (s : State) (p : Nat) (x : Port) : (s.setPort p x).chk = s.chk := rfl
@[simp] theorem State.setPort_red (s : State) (p : Nat) (x : Port) : (s.setPort p x).red = s.red := rfl
@[simp] theorem State.setPort_upd (s : State) (p : Nat) (x : Port) : (s.setPort p x).upd = s.upd := rfl
@[simp] theorem State.setPort_pwr (s : State) (p : Nat) (x : Port) : (s.setPort p x).pwr = s.pwr := rfl
@[simp] theorem State.setPort_rst (s : State) (p : Nat) (x : Port) : (s.setPort p x).rst = s.rst := rfl
@[simp] theorem State.setPort_flash (s : State) (p : Nat) (x : Port) : (s.setPort p x).flash = s.flash := rfl
@[simp] theorem State.setPort_boot (s : State) (p : Nat) (x : Port) : (s.setPort p x).boot = s.boot := rfl
@[simp] theorem State.setPort_sec (s : State) (p : Nat) (x : Port) : (s.setPort p x).sec = s.sec := rfl
@[simp] theorem State.setPort_dbg (s : State) (p : Nat) (x : Port) : (s.setPort p x).dbg = s.dbg := rfl
@[simp] theorem State.setPort_tap (s : State) (p : Nat) (x : Port) : (s.setPort p x).tap = s.tap := rfl
@[simp] theorem State.setPort_spanW (s : State) (p : Nat) (x : Port) : (s.setPort p x).spanW = s.spanW := rfl
@[simp] theorem State.setPort_spanE (s : State) (p : Nat) (x : Port) : (s.setPort p x).spanE = s.spanE := rfl
@[simp] theorem State.setPort_eid (s : State) (p : Nat) (x : Port) : (s.setPort p x).eid = s.eid := rfl
@[simp] theorem State.setPort_pldm (s : State) (p : Nat) (x : Port) : (s.setPort p x).pldm = s.pldm := rfl
@[simp] theorem State.setPort_pins (s : State) (p : Nat) (x : Port) : (s.setPort p x).pins = s.pins := rfl

@[simp] theorem State.setStack_pending (s : State) (n : Nat) (x : Stack) : (s.setStack n x).pending = s.pending := rfl
@[simp] theorem State.setStack_now (s : State) (n : Nat) (x : Stack) : (s.setStack n x).now = s.now := rfl
@[simp] theorem State.setStack_ctrs (s : State) (n : Nat) (x : Stack) : (s.setStack n x).ctrs = s.ctrs := rfl
@[simp] theorem State.setStack_fresh (s : State) (n : Nat) (x : Stack) : (s.setStack n x).fresh = s.fresh := rfl
@[simp] theorem State.setStack_out (s : State) (n : Nat) (x : Stack) : (s.setStack n x).out = s.out := rfl
@[simp] theorem State.setStack_mem (s : State) (n : Nat) (x : Stack) : (s.setStack n x).mem = s.mem := rfl
@[simp] theorem State.setStack_compat (s : State) (n : Nat) (x : Stack) : (s.setStack n x).compat = s.compat := rfl
@[simp] theorem State.setStack_deterministic (s : State) (n : Nat) (x : Stack) : (s.setStack n x).deterministic = s.deterministic := rfl
@[simp] theorem State.setStack_strapped (s : State) (n : Nat) (x : Stack) : (s.setStack n x).strapped = s.strapped := rfl
@[simp] theorem State.setStack_hif (s : State) (n : Nat) (x : Stack) : (s.setStack n x).hif = s.hif := rfl
@[simp] theorem State.setStack_sync (s : State) (n : Nat) (x : Stack) : (s.setStack n x).sync = s.sync := rfl
@[simp] theorem State.setStack_ctxs (s : State) (n : Nat) (x : Stack) : (s.setStack n x).ctxs = s.ctxs := rfl
@[simp] theorem State.setStack_runs (s : State) (n : Nat) (x : Stack) : (s.setStack n x).runs = s.runs := rfl
@[simp] theorem State.setStack_runSeq (s : State) (n : Nat) (x : Stack) : (s.setStack n x).runSeq = s.runSeq := rfl
@[simp] theorem State.setStack_tables (s : State) (n : Nat) (x : Stack) : (s.setStack n x).tables = s.tables := rfl
@[simp] theorem State.setStack_arrays (s : State) (n : Nat) (x : Stack) : (s.setStack n x).arrays = s.arrays := rfl
@[simp] theorem State.setStack_tel (s : State) (n : Nat) (x : Stack) : (s.setStack n x).tel = s.tel := rfl
@[simp] theorem State.setStack_dsc (s : State) (n : Nat) (x : Stack) : (s.setStack n x).dsc = s.dsc := rfl
@[simp] theorem State.setStack_tier (s : State) (n : Nat) (x : Stack) : (s.setStack n x).tier = s.tier := rfl
@[simp] theorem State.setStack_engines (s : State) (n : Nat) (x : Stack) : (s.setStack n x).engines = s.engines := rfl
@[simp] theorem State.setStack_chk (s : State) (n : Nat) (x : Stack) : (s.setStack n x).chk = s.chk := rfl
@[simp] theorem State.setStack_fab (s : State) (n : Nat) (x : Stack) : (s.setStack n x).fab = s.fab := rfl
@[simp] theorem State.setStack_red (s : State) (n : Nat) (x : Stack) : (s.setStack n x).red = s.red := rfl
@[simp] theorem State.setStack_upd (s : State) (n : Nat) (x : Stack) : (s.setStack n x).upd = s.upd := rfl
@[simp] theorem State.setStack_pwr (s : State) (n : Nat) (x : Stack) : (s.setStack n x).pwr = s.pwr := rfl
@[simp] theorem State.setStack_rst (s : State) (n : Nat) (x : Stack) : (s.setStack n x).rst = s.rst := rfl
@[simp] theorem State.setStack_flash (s : State) (n : Nat) (x : Stack) : (s.setStack n x).flash = s.flash := rfl
@[simp] theorem State.setStack_boot (s : State) (n : Nat) (x : Stack) : (s.setStack n x).boot = s.boot := rfl
@[simp] theorem State.setStack_sec (s : State) (n : Nat) (x : Stack) : (s.setStack n x).sec = s.sec := rfl
@[simp] theorem State.setStack_dbg (s : State) (n : Nat) (x : Stack) : (s.setStack n x).dbg = s.dbg := rfl
@[simp] theorem State.setStack_tap (s : State) (n : Nat) (x : Stack) : (s.setStack n x).tap = s.tap := rfl
@[simp] theorem State.setStack_spanW (s : State) (n : Nat) (x : Stack) : (s.setStack n x).spanW = s.spanW := rfl
@[simp] theorem State.setStack_spanE (s : State) (n : Nat) (x : Stack) : (s.setStack n x).spanE = s.spanE := rfl
@[simp] theorem State.setStack_eid (s : State) (n : Nat) (x : Stack) : (s.setStack n x).eid = s.eid := rfl
@[simp] theorem State.setStack_pldm (s : State) (n : Nat) (x : Stack) : (s.setStack n x).pldm = s.pldm := rfl
@[simp] theorem State.setStack_pins (s : State) (n : Nat) (x : Stack) : (s.setStack n x).pins = s.pins := rfl

@[simp] theorem State.setDsc_pending (s : State) (d : Nat) (x : Dsc) : (s.setDsc d x).pending = s.pending := rfl
@[simp] theorem State.setDsc_now (s : State) (d : Nat) (x : Dsc) : (s.setDsc d x).now = s.now := rfl
@[simp] theorem State.setDsc_ctrs (s : State) (d : Nat) (x : Dsc) : (s.setDsc d x).ctrs = s.ctrs := rfl
@[simp] theorem State.setDsc_fresh (s : State) (d : Nat) (x : Dsc) : (s.setDsc d x).fresh = s.fresh := rfl
@[simp] theorem State.setDsc_out (s : State) (d : Nat) (x : Dsc) : (s.setDsc d x).out = s.out := rfl
@[simp] theorem State.setDsc_mem (s : State) (d : Nat) (x : Dsc) : (s.setDsc d x).mem = s.mem := rfl
@[simp] theorem State.setDsc_compat (s : State) (d : Nat) (x : Dsc) : (s.setDsc d x).compat = s.compat := rfl
@[simp] theorem State.setDsc_deterministic (s : State) (d : Nat) (x : Dsc) : (s.setDsc d x).deterministic = s.deterministic := rfl
@[simp] theorem State.setDsc_strapped (s : State) (d : Nat) (x : Dsc) : (s.setDsc d x).strapped = s.strapped := rfl
@[simp] theorem State.setDsc_hif (s : State) (d : Nat) (x : Dsc) : (s.setDsc d x).hif = s.hif := rfl
@[simp] theorem State.setDsc_sync (s : State) (d : Nat) (x : Dsc) : (s.setDsc d x).sync = s.sync := rfl
@[simp] theorem State.setDsc_ctxs (s : State) (d : Nat) (x : Dsc) : (s.setDsc d x).ctxs = s.ctxs := rfl
@[simp] theorem State.setDsc_runs (s : State) (d : Nat) (x : Dsc) : (s.setDsc d x).runs = s.runs := rfl
@[simp] theorem State.setDsc_runSeq (s : State) (d : Nat) (x : Dsc) : (s.setDsc d x).runSeq = s.runSeq := rfl
@[simp] theorem State.setDsc_tables (s : State) (d : Nat) (x : Dsc) : (s.setDsc d x).tables = s.tables := rfl
@[simp] theorem State.setDsc_arrays (s : State) (d : Nat) (x : Dsc) : (s.setDsc d x).arrays = s.arrays := rfl
@[simp] theorem State.setDsc_tel (s : State) (d : Nat) (x : Dsc) : (s.setDsc d x).tel = s.tel := rfl
@[simp] theorem State.setDsc_hbm (s : State) (d : Nat) (x : Dsc) : (s.setDsc d x).hbm = s.hbm := rfl
@[simp] theorem State.setDsc_tier (s : State) (d : Nat) (x : Dsc) : (s.setDsc d x).tier = s.tier := rfl
@[simp] theorem State.setDsc_engines (s : State) (d : Nat) (x : Dsc) : (s.setDsc d x).engines = s.engines := rfl
@[simp] theorem State.setDsc_chk (s : State) (d : Nat) (x : Dsc) : (s.setDsc d x).chk = s.chk := rfl
@[simp] theorem State.setDsc_fab (s : State) (d : Nat) (x : Dsc) : (s.setDsc d x).fab = s.fab := rfl
@[simp] theorem State.setDsc_red (s : State) (d : Nat) (x : Dsc) : (s.setDsc d x).red = s.red := rfl
@[simp] theorem State.setDsc_upd (s : State) (d : Nat) (x : Dsc) : (s.setDsc d x).upd = s.upd := rfl
@[simp] theorem State.setDsc_pwr (s : State) (d : Nat) (x : Dsc) : (s.setDsc d x).pwr = s.pwr := rfl
@[simp] theorem State.setDsc_rst (s : State) (d : Nat) (x : Dsc) : (s.setDsc d x).rst = s.rst := rfl
@[simp] theorem State.setDsc_flash (s : State) (d : Nat) (x : Dsc) : (s.setDsc d x).flash = s.flash := rfl
@[simp] theorem State.setDsc_boot (s : State) (d : Nat) (x : Dsc) : (s.setDsc d x).boot = s.boot := rfl
@[simp] theorem State.setDsc_sec (s : State) (d : Nat) (x : Dsc) : (s.setDsc d x).sec = s.sec := rfl
@[simp] theorem State.setDsc_dbg (s : State) (d : Nat) (x : Dsc) : (s.setDsc d x).dbg = s.dbg := rfl
@[simp] theorem State.setDsc_tap (s : State) (d : Nat) (x : Dsc) : (s.setDsc d x).tap = s.tap := rfl
@[simp] theorem State.setDsc_spanW (s : State) (d : Nat) (x : Dsc) : (s.setDsc d x).spanW = s.spanW := rfl
@[simp] theorem State.setDsc_spanE (s : State) (d : Nat) (x : Dsc) : (s.setDsc d x).spanE = s.spanE := rfl
@[simp] theorem State.setDsc_eid (s : State) (d : Nat) (x : Dsc) : (s.setDsc d x).eid = s.eid := rfl
@[simp] theorem State.setDsc_pldm (s : State) (d : Nat) (x : Dsc) : (s.setDsc d x).pldm = s.pldm := rfl
@[simp] theorem State.setDsc_pins (s : State) (d : Nat) (x : Dsc) : (s.setDsc d x).pins = s.pins := rfl

@[simp] theorem State.setTable_pending (s : State) (t : Nat) (x : CTable) : (s.setTable t x).pending = s.pending := rfl
@[simp] theorem State.setTable_now (s : State) (t : Nat) (x : CTable) : (s.setTable t x).now = s.now := rfl
@[simp] theorem State.setTable_ctrs (s : State) (t : Nat) (x : CTable) : (s.setTable t x).ctrs = s.ctrs := rfl
@[simp] theorem State.setTable_fresh (s : State) (t : Nat) (x : CTable) : (s.setTable t x).fresh = s.fresh := rfl
@[simp] theorem State.setTable_out (s : State) (t : Nat) (x : CTable) : (s.setTable t x).out = s.out := rfl
@[simp] theorem State.setTable_mem (s : State) (t : Nat) (x : CTable) : (s.setTable t x).mem = s.mem := rfl
@[simp] theorem State.setTable_compat (s : State) (t : Nat) (x : CTable) : (s.setTable t x).compat = s.compat := rfl
@[simp] theorem State.setTable_deterministic (s : State) (t : Nat) (x : CTable) : (s.setTable t x).deterministic = s.deterministic := rfl
@[simp] theorem State.setTable_strapped (s : State) (t : Nat) (x : CTable) : (s.setTable t x).strapped = s.strapped := rfl
@[simp] theorem State.setTable_hif (s : State) (t : Nat) (x : CTable) : (s.setTable t x).hif = s.hif := rfl
@[simp] theorem State.setTable_sync (s : State) (t : Nat) (x : CTable) : (s.setTable t x).sync = s.sync := rfl
@[simp] theorem State.setTable_ctxs (s : State) (t : Nat) (x : CTable) : (s.setTable t x).ctxs = s.ctxs := rfl
@[simp] theorem State.setTable_runs (s : State) (t : Nat) (x : CTable) : (s.setTable t x).runs = s.runs := rfl
@[simp] theorem State.setTable_runSeq (s : State) (t : Nat) (x : CTable) : (s.setTable t x).runSeq = s.runSeq := rfl
@[simp] theorem State.setTable_arrays (s : State) (t : Nat) (x : CTable) : (s.setTable t x).arrays = s.arrays := rfl
@[simp] theorem State.setTable_tel (s : State) (t : Nat) (x : CTable) : (s.setTable t x).tel = s.tel := rfl
@[simp] theorem State.setTable_dsc (s : State) (t : Nat) (x : CTable) : (s.setTable t x).dsc = s.dsc := rfl
@[simp] theorem State.setTable_hbm (s : State) (t : Nat) (x : CTable) : (s.setTable t x).hbm = s.hbm := rfl
@[simp] theorem State.setTable_tier (s : State) (t : Nat) (x : CTable) : (s.setTable t x).tier = s.tier := rfl
@[simp] theorem State.setTable_engines (s : State) (t : Nat) (x : CTable) : (s.setTable t x).engines = s.engines := rfl
@[simp] theorem State.setTable_chk (s : State) (t : Nat) (x : CTable) : (s.setTable t x).chk = s.chk := rfl
@[simp] theorem State.setTable_fab (s : State) (t : Nat) (x : CTable) : (s.setTable t x).fab = s.fab := rfl
@[simp] theorem State.setTable_red (s : State) (t : Nat) (x : CTable) : (s.setTable t x).red = s.red := rfl
@[simp] theorem State.setTable_upd (s : State) (t : Nat) (x : CTable) : (s.setTable t x).upd = s.upd := rfl
@[simp] theorem State.setTable_pwr (s : State) (t : Nat) (x : CTable) : (s.setTable t x).pwr = s.pwr := rfl
@[simp] theorem State.setTable_rst (s : State) (t : Nat) (x : CTable) : (s.setTable t x).rst = s.rst := rfl
@[simp] theorem State.setTable_flash (s : State) (t : Nat) (x : CTable) : (s.setTable t x).flash = s.flash := rfl
@[simp] theorem State.setTable_boot (s : State) (t : Nat) (x : CTable) : (s.setTable t x).boot = s.boot := rfl
@[simp] theorem State.setTable_sec (s : State) (t : Nat) (x : CTable) : (s.setTable t x).sec = s.sec := rfl
@[simp] theorem State.setTable_dbg (s : State) (t : Nat) (x : CTable) : (s.setTable t x).dbg = s.dbg := rfl
@[simp] theorem State.setTable_tap (s : State) (t : Nat) (x : CTable) : (s.setTable t x).tap = s.tap := rfl
@[simp] theorem State.setTable_spanW (s : State) (t : Nat) (x : CTable) : (s.setTable t x).spanW = s.spanW := rfl
@[simp] theorem State.setTable_spanE (s : State) (t : Nat) (x : CTable) : (s.setTable t x).spanE = s.spanE := rfl
@[simp] theorem State.setTable_eid (s : State) (t : Nat) (x : CTable) : (s.setTable t x).eid = s.eid := rfl
@[simp] theorem State.setTable_pldm (s : State) (t : Nat) (x : CTable) : (s.setTable t x).pldm = s.pldm := rfl
@[simp] theorem State.setTable_pins (s : State) (t : Nat) (x : CTable) : (s.setTable t x).pins = s.pins := rfl

@[simp] theorem State.setRing_pending (s : State) (r : Nat) (x : Option Ring) : (s.setRing r x).pending = s.pending := rfl
@[simp] theorem State.setRing_now (s : State) (r : Nat) (x : Option Ring) : (s.setRing r x).now = s.now := rfl
@[simp] theorem State.setRing_ctrs (s : State) (r : Nat) (x : Option Ring) : (s.setRing r x).ctrs = s.ctrs := rfl
@[simp] theorem State.setRing_fresh (s : State) (r : Nat) (x : Option Ring) : (s.setRing r x).fresh = s.fresh := rfl
@[simp] theorem State.setRing_out (s : State) (r : Nat) (x : Option Ring) : (s.setRing r x).out = s.out := rfl
@[simp] theorem State.setRing_mem (s : State) (r : Nat) (x : Option Ring) : (s.setRing r x).mem = s.mem := rfl
@[simp] theorem State.setRing_compat (s : State) (r : Nat) (x : Option Ring) : (s.setRing r x).compat = s.compat := rfl
@[simp] theorem State.setRing_deterministic (s : State) (r : Nat) (x : Option Ring) : (s.setRing r x).deterministic = s.deterministic := rfl
@[simp] theorem State.setRing_strapped (s : State) (r : Nat) (x : Option Ring) : (s.setRing r x).strapped = s.strapped := rfl
@[simp] theorem State.setRing_sync (s : State) (r : Nat) (x : Option Ring) : (s.setRing r x).sync = s.sync := rfl
@[simp] theorem State.setRing_ctxs (s : State) (r : Nat) (x : Option Ring) : (s.setRing r x).ctxs = s.ctxs := rfl
@[simp] theorem State.setRing_runs (s : State) (r : Nat) (x : Option Ring) : (s.setRing r x).runs = s.runs := rfl
@[simp] theorem State.setRing_runSeq (s : State) (r : Nat) (x : Option Ring) : (s.setRing r x).runSeq = s.runSeq := rfl
@[simp] theorem State.setRing_tables (s : State) (r : Nat) (x : Option Ring) : (s.setRing r x).tables = s.tables := rfl
@[simp] theorem State.setRing_arrays (s : State) (r : Nat) (x : Option Ring) : (s.setRing r x).arrays = s.arrays := rfl
@[simp] theorem State.setRing_tel (s : State) (r : Nat) (x : Option Ring) : (s.setRing r x).tel = s.tel := rfl
@[simp] theorem State.setRing_dsc (s : State) (r : Nat) (x : Option Ring) : (s.setRing r x).dsc = s.dsc := rfl
@[simp] theorem State.setRing_hbm (s : State) (r : Nat) (x : Option Ring) : (s.setRing r x).hbm = s.hbm := rfl
@[simp] theorem State.setRing_tier (s : State) (r : Nat) (x : Option Ring) : (s.setRing r x).tier = s.tier := rfl
@[simp] theorem State.setRing_engines (s : State) (r : Nat) (x : Option Ring) : (s.setRing r x).engines = s.engines := rfl
@[simp] theorem State.setRing_chk (s : State) (r : Nat) (x : Option Ring) : (s.setRing r x).chk = s.chk := rfl
@[simp] theorem State.setRing_fab (s : State) (r : Nat) (x : Option Ring) : (s.setRing r x).fab = s.fab := rfl
@[simp] theorem State.setRing_red (s : State) (r : Nat) (x : Option Ring) : (s.setRing r x).red = s.red := rfl
@[simp] theorem State.setRing_upd (s : State) (r : Nat) (x : Option Ring) : (s.setRing r x).upd = s.upd := rfl
@[simp] theorem State.setRing_pwr (s : State) (r : Nat) (x : Option Ring) : (s.setRing r x).pwr = s.pwr := rfl
@[simp] theorem State.setRing_rst (s : State) (r : Nat) (x : Option Ring) : (s.setRing r x).rst = s.rst := rfl
@[simp] theorem State.setRing_flash (s : State) (r : Nat) (x : Option Ring) : (s.setRing r x).flash = s.flash := rfl
@[simp] theorem State.setRing_boot (s : State) (r : Nat) (x : Option Ring) : (s.setRing r x).boot = s.boot := rfl
@[simp] theorem State.setRing_sec (s : State) (r : Nat) (x : Option Ring) : (s.setRing r x).sec = s.sec := rfl
@[simp] theorem State.setRing_dbg (s : State) (r : Nat) (x : Option Ring) : (s.setRing r x).dbg = s.dbg := rfl
@[simp] theorem State.setRing_tap (s : State) (r : Nat) (x : Option Ring) : (s.setRing r x).tap = s.tap := rfl
@[simp] theorem State.setRing_spanW (s : State) (r : Nat) (x : Option Ring) : (s.setRing r x).spanW = s.spanW := rfl
@[simp] theorem State.setRing_spanE (s : State) (r : Nat) (x : Option Ring) : (s.setRing r x).spanE = s.spanE := rfl
@[simp] theorem State.setRing_eid (s : State) (r : Nat) (x : Option Ring) : (s.setRing r x).eid = s.eid := rfl
@[simp] theorem State.setRing_pldm (s : State) (r : Nat) (x : Option Ring) : (s.setRing r x).pldm = s.pldm := rfl
@[simp] theorem State.setRing_pins (s : State) (r : Nat) (x : Option Ring) : (s.setRing r x).pins = s.pins := rfl

@[simp] theorem State.setEvring_pending (s : State) (n : Nat) (x : EvRing) : (s.setEvring n x).pending = s.pending := rfl
@[simp] theorem State.setEvring_now (s : State) (n : Nat) (x : EvRing) : (s.setEvring n x).now = s.now := rfl
@[simp] theorem State.setEvring_ctrs (s : State) (n : Nat) (x : EvRing) : (s.setEvring n x).ctrs = s.ctrs := rfl
@[simp] theorem State.setEvring_fresh (s : State) (n : Nat) (x : EvRing) : (s.setEvring n x).fresh = s.fresh := rfl
@[simp] theorem State.setEvring_out (s : State) (n : Nat) (x : EvRing) : (s.setEvring n x).out = s.out := rfl
@[simp] theorem State.setEvring_mem (s : State) (n : Nat) (x : EvRing) : (s.setEvring n x).mem = s.mem := rfl
@[simp] theorem State.setEvring_compat (s : State) (n : Nat) (x : EvRing) : (s.setEvring n x).compat = s.compat := rfl
@[simp] theorem State.setEvring_deterministic (s : State) (n : Nat) (x : EvRing) : (s.setEvring n x).deterministic = s.deterministic := rfl
@[simp] theorem State.setEvring_strapped (s : State) (n : Nat) (x : EvRing) : (s.setEvring n x).strapped = s.strapped := rfl
@[simp] theorem State.setEvring_sync (s : State) (n : Nat) (x : EvRing) : (s.setEvring n x).sync = s.sync := rfl
@[simp] theorem State.setEvring_ctxs (s : State) (n : Nat) (x : EvRing) : (s.setEvring n x).ctxs = s.ctxs := rfl
@[simp] theorem State.setEvring_runs (s : State) (n : Nat) (x : EvRing) : (s.setEvring n x).runs = s.runs := rfl
@[simp] theorem State.setEvring_runSeq (s : State) (n : Nat) (x : EvRing) : (s.setEvring n x).runSeq = s.runSeq := rfl
@[simp] theorem State.setEvring_tables (s : State) (n : Nat) (x : EvRing) : (s.setEvring n x).tables = s.tables := rfl
@[simp] theorem State.setEvring_arrays (s : State) (n : Nat) (x : EvRing) : (s.setEvring n x).arrays = s.arrays := rfl
@[simp] theorem State.setEvring_tel (s : State) (n : Nat) (x : EvRing) : (s.setEvring n x).tel = s.tel := rfl
@[simp] theorem State.setEvring_dsc (s : State) (n : Nat) (x : EvRing) : (s.setEvring n x).dsc = s.dsc := rfl
@[simp] theorem State.setEvring_hbm (s : State) (n : Nat) (x : EvRing) : (s.setEvring n x).hbm = s.hbm := rfl
@[simp] theorem State.setEvring_tier (s : State) (n : Nat) (x : EvRing) : (s.setEvring n x).tier = s.tier := rfl
@[simp] theorem State.setEvring_engines (s : State) (n : Nat) (x : EvRing) : (s.setEvring n x).engines = s.engines := rfl
@[simp] theorem State.setEvring_chk (s : State) (n : Nat) (x : EvRing) : (s.setEvring n x).chk = s.chk := rfl
@[simp] theorem State.setEvring_fab (s : State) (n : Nat) (x : EvRing) : (s.setEvring n x).fab = s.fab := rfl
@[simp] theorem State.setEvring_red (s : State) (n : Nat) (x : EvRing) : (s.setEvring n x).red = s.red := rfl
@[simp] theorem State.setEvring_upd (s : State) (n : Nat) (x : EvRing) : (s.setEvring n x).upd = s.upd := rfl
@[simp] theorem State.setEvring_pwr (s : State) (n : Nat) (x : EvRing) : (s.setEvring n x).pwr = s.pwr := rfl
@[simp] theorem State.setEvring_rst (s : State) (n : Nat) (x : EvRing) : (s.setEvring n x).rst = s.rst := rfl
@[simp] theorem State.setEvring_flash (s : State) (n : Nat) (x : EvRing) : (s.setEvring n x).flash = s.flash := rfl
@[simp] theorem State.setEvring_boot (s : State) (n : Nat) (x : EvRing) : (s.setEvring n x).boot = s.boot := rfl
@[simp] theorem State.setEvring_sec (s : State) (n : Nat) (x : EvRing) : (s.setEvring n x).sec = s.sec := rfl
@[simp] theorem State.setEvring_dbg (s : State) (n : Nat) (x : EvRing) : (s.setEvring n x).dbg = s.dbg := rfl
@[simp] theorem State.setEvring_tap (s : State) (n : Nat) (x : EvRing) : (s.setEvring n x).tap = s.tap := rfl
@[simp] theorem State.setEvring_spanW (s : State) (n : Nat) (x : EvRing) : (s.setEvring n x).spanW = s.spanW := rfl
@[simp] theorem State.setEvring_spanE (s : State) (n : Nat) (x : EvRing) : (s.setEvring n x).spanE = s.spanE := rfl
@[simp] theorem State.setEvring_eid (s : State) (n : Nat) (x : EvRing) : (s.setEvring n x).eid = s.eid := rfl
@[simp] theorem State.setEvring_pldm (s : State) (n : Nat) (x : EvRing) : (s.setEvring n x).pldm = s.pldm := rfl
@[simp] theorem State.setEvring_pins (s : State) (n : Nat) (x : EvRing) : (s.setEvring n x).pins = s.pins := rfl

@[simp] theorem State.setPlan_pending (s : State) (j : Nat) (x : Option Plan) : (s.setPlan j x).pending = s.pending := rfl
@[simp] theorem State.setPlan_now (s : State) (j : Nat) (x : Option Plan) : (s.setPlan j x).now = s.now := rfl
@[simp] theorem State.setPlan_ctrs (s : State) (j : Nat) (x : Option Plan) : (s.setPlan j x).ctrs = s.ctrs := rfl
@[simp] theorem State.setPlan_fresh (s : State) (j : Nat) (x : Option Plan) : (s.setPlan j x).fresh = s.fresh := rfl
@[simp] theorem State.setPlan_out (s : State) (j : Nat) (x : Option Plan) : (s.setPlan j x).out = s.out := rfl
@[simp] theorem State.setPlan_mem (s : State) (j : Nat) (x : Option Plan) : (s.setPlan j x).mem = s.mem := rfl
@[simp] theorem State.setPlan_compat (s : State) (j : Nat) (x : Option Plan) : (s.setPlan j x).compat = s.compat := rfl
@[simp] theorem State.setPlan_deterministic (s : State) (j : Nat) (x : Option Plan) : (s.setPlan j x).deterministic = s.deterministic := rfl
@[simp] theorem State.setPlan_strapped (s : State) (j : Nat) (x : Option Plan) : (s.setPlan j x).strapped = s.strapped := rfl
@[simp] theorem State.setPlan_hif (s : State) (j : Nat) (x : Option Plan) : (s.setPlan j x).hif = s.hif := rfl
@[simp] theorem State.setPlan_sync (s : State) (j : Nat) (x : Option Plan) : (s.setPlan j x).sync = s.sync := rfl
@[simp] theorem State.setPlan_ctxs (s : State) (j : Nat) (x : Option Plan) : (s.setPlan j x).ctxs = s.ctxs := rfl
@[simp] theorem State.setPlan_runs (s : State) (j : Nat) (x : Option Plan) : (s.setPlan j x).runs = s.runs := rfl
@[simp] theorem State.setPlan_runSeq (s : State) (j : Nat) (x : Option Plan) : (s.setPlan j x).runSeq = s.runSeq := rfl
@[simp] theorem State.setPlan_tables (s : State) (j : Nat) (x : Option Plan) : (s.setPlan j x).tables = s.tables := rfl
@[simp] theorem State.setPlan_arrays (s : State) (j : Nat) (x : Option Plan) : (s.setPlan j x).arrays = s.arrays := rfl
@[simp] theorem State.setPlan_tel (s : State) (j : Nat) (x : Option Plan) : (s.setPlan j x).tel = s.tel := rfl
@[simp] theorem State.setPlan_dsc (s : State) (j : Nat) (x : Option Plan) : (s.setPlan j x).dsc = s.dsc := rfl
@[simp] theorem State.setPlan_hbm (s : State) (j : Nat) (x : Option Plan) : (s.setPlan j x).hbm = s.hbm := rfl
@[simp] theorem State.setPlan_tier (s : State) (j : Nat) (x : Option Plan) : (s.setPlan j x).tier = s.tier := rfl
@[simp] theorem State.setPlan_engines (s : State) (j : Nat) (x : Option Plan) : (s.setPlan j x).engines = s.engines := rfl
@[simp] theorem State.setPlan_chk (s : State) (j : Nat) (x : Option Plan) : (s.setPlan j x).chk = s.chk := rfl
@[simp] theorem State.setPlan_fab (s : State) (j : Nat) (x : Option Plan) : (s.setPlan j x).fab = s.fab := rfl
@[simp] theorem State.setPlan_upd (s : State) (j : Nat) (x : Option Plan) : (s.setPlan j x).upd = s.upd := rfl
@[simp] theorem State.setPlan_pwr (s : State) (j : Nat) (x : Option Plan) : (s.setPlan j x).pwr = s.pwr := rfl
@[simp] theorem State.setPlan_rst (s : State) (j : Nat) (x : Option Plan) : (s.setPlan j x).rst = s.rst := rfl
@[simp] theorem State.setPlan_flash (s : State) (j : Nat) (x : Option Plan) : (s.setPlan j x).flash = s.flash := rfl
@[simp] theorem State.setPlan_boot (s : State) (j : Nat) (x : Option Plan) : (s.setPlan j x).boot = s.boot := rfl
@[simp] theorem State.setPlan_sec (s : State) (j : Nat) (x : Option Plan) : (s.setPlan j x).sec = s.sec := rfl
@[simp] theorem State.setPlan_dbg (s : State) (j : Nat) (x : Option Plan) : (s.setPlan j x).dbg = s.dbg := rfl
@[simp] theorem State.setPlan_tap (s : State) (j : Nat) (x : Option Plan) : (s.setPlan j x).tap = s.tap := rfl
@[simp] theorem State.setPlan_spanW (s : State) (j : Nat) (x : Option Plan) : (s.setPlan j x).spanW = s.spanW := rfl
@[simp] theorem State.setPlan_spanE (s : State) (j : Nat) (x : Option Plan) : (s.setPlan j x).spanE = s.spanE := rfl
@[simp] theorem State.setPlan_eid (s : State) (j : Nat) (x : Option Plan) : (s.setPlan j x).eid = s.eid := rfl
@[simp] theorem State.setPlan_pldm (s : State) (j : Nat) (x : Option Plan) : (s.setPlan j x).pldm = s.pldm := rfl
@[simp] theorem State.setPlan_pins (s : State) (j : Nat) (x : Option Plan) : (s.setPlan j x).pins = s.pins := rfl

@[simp] theorem State.sendOut_pending (s : State) (o : Out) : (s.sendOut o).pending = s.pending := rfl
@[simp] theorem State.sendOut_now (s : State) (o : Out) : (s.sendOut o).now = s.now := rfl
@[simp] theorem State.sendOut_ctrs (s : State) (o : Out) : (s.sendOut o).ctrs = s.ctrs := rfl
@[simp] theorem State.sendOut_fresh (s : State) (o : Out) : (s.sendOut o).fresh = s.fresh := rfl
@[simp] theorem State.sendOut_mem (s : State) (o : Out) : (s.sendOut o).mem = s.mem := rfl
@[simp] theorem State.sendOut_compat (s : State) (o : Out) : (s.sendOut o).compat = s.compat := rfl
@[simp] theorem State.sendOut_deterministic (s : State) (o : Out) : (s.sendOut o).deterministic = s.deterministic := rfl
@[simp] theorem State.sendOut_strapped (s : State) (o : Out) : (s.sendOut o).strapped = s.strapped := rfl
@[simp] theorem State.sendOut_hif (s : State) (o : Out) : (s.sendOut o).hif = s.hif := rfl
@[simp] theorem State.sendOut_sync (s : State) (o : Out) : (s.sendOut o).sync = s.sync := rfl
@[simp] theorem State.sendOut_ctxs (s : State) (o : Out) : (s.sendOut o).ctxs = s.ctxs := rfl
@[simp] theorem State.sendOut_runs (s : State) (o : Out) : (s.sendOut o).runs = s.runs := rfl
@[simp] theorem State.sendOut_runSeq (s : State) (o : Out) : (s.sendOut o).runSeq = s.runSeq := rfl
@[simp] theorem State.sendOut_tables (s : State) (o : Out) : (s.sendOut o).tables = s.tables := rfl
@[simp] theorem State.sendOut_arrays (s : State) (o : Out) : (s.sendOut o).arrays = s.arrays := rfl
@[simp] theorem State.sendOut_tel (s : State) (o : Out) : (s.sendOut o).tel = s.tel := rfl
@[simp] theorem State.sendOut_dsc (s : State) (o : Out) : (s.sendOut o).dsc = s.dsc := rfl
@[simp] theorem State.sendOut_hbm (s : State) (o : Out) : (s.sendOut o).hbm = s.hbm := rfl
@[simp] theorem State.sendOut_tier (s : State) (o : Out) : (s.sendOut o).tier = s.tier := rfl
@[simp] theorem State.sendOut_engines (s : State) (o : Out) : (s.sendOut o).engines = s.engines := rfl
@[simp] theorem State.sendOut_chk (s : State) (o : Out) : (s.sendOut o).chk = s.chk := rfl
@[simp] theorem State.sendOut_fab (s : State) (o : Out) : (s.sendOut o).fab = s.fab := rfl
@[simp] theorem State.sendOut_red (s : State) (o : Out) : (s.sendOut o).red = s.red := rfl
@[simp] theorem State.sendOut_upd (s : State) (o : Out) : (s.sendOut o).upd = s.upd := rfl
@[simp] theorem State.sendOut_pwr (s : State) (o : Out) : (s.sendOut o).pwr = s.pwr := rfl
@[simp] theorem State.sendOut_rst (s : State) (o : Out) : (s.sendOut o).rst = s.rst := rfl
@[simp] theorem State.sendOut_flash (s : State) (o : Out) : (s.sendOut o).flash = s.flash := rfl
@[simp] theorem State.sendOut_boot (s : State) (o : Out) : (s.sendOut o).boot = s.boot := rfl
@[simp] theorem State.sendOut_sec (s : State) (o : Out) : (s.sendOut o).sec = s.sec := rfl
@[simp] theorem State.sendOut_dbg (s : State) (o : Out) : (s.sendOut o).dbg = s.dbg := rfl
@[simp] theorem State.sendOut_tap (s : State) (o : Out) : (s.sendOut o).tap = s.tap := rfl
@[simp] theorem State.sendOut_spanW (s : State) (o : Out) : (s.sendOut o).spanW = s.spanW := rfl
@[simp] theorem State.sendOut_spanE (s : State) (o : Out) : (s.sendOut o).spanE = s.spanE := rfl
@[simp] theorem State.sendOut_eid (s : State) (o : Out) : (s.sendOut o).eid = s.eid := rfl
@[simp] theorem State.sendOut_pldm (s : State) (o : Out) : (s.sendOut o).pldm = s.pldm := rfl
@[simp] theorem State.sendOut_pins (s : State) (o : Out) : (s.sendOut o).pins = s.pins := rfl

@[simp] theorem State.tick_pending (s : State) : (s.tick).pending = s.pending := rfl
@[simp] theorem State.tick_now (s : State) : (s.tick).now = s.now := rfl
@[simp] theorem State.tick_ctrs (s : State) : (s.tick).ctrs = s.ctrs := rfl
@[simp] theorem State.tick_out (s : State) : (s.tick).out = s.out := rfl
@[simp] theorem State.tick_mem (s : State) : (s.tick).mem = s.mem := rfl
@[simp] theorem State.tick_compat (s : State) : (s.tick).compat = s.compat := rfl
@[simp] theorem State.tick_deterministic (s : State) : (s.tick).deterministic = s.deterministic := rfl
@[simp] theorem State.tick_strapped (s : State) : (s.tick).strapped = s.strapped := rfl
@[simp] theorem State.tick_hif (s : State) : (s.tick).hif = s.hif := rfl
@[simp] theorem State.tick_sync (s : State) : (s.tick).sync = s.sync := rfl
@[simp] theorem State.tick_ctxs (s : State) : (s.tick).ctxs = s.ctxs := rfl
@[simp] theorem State.tick_runs (s : State) : (s.tick).runs = s.runs := rfl
@[simp] theorem State.tick_runSeq (s : State) : (s.tick).runSeq = s.runSeq := rfl
@[simp] theorem State.tick_tables (s : State) : (s.tick).tables = s.tables := rfl
@[simp] theorem State.tick_arrays (s : State) : (s.tick).arrays = s.arrays := rfl
@[simp] theorem State.tick_tel (s : State) : (s.tick).tel = s.tel := rfl
@[simp] theorem State.tick_dsc (s : State) : (s.tick).dsc = s.dsc := rfl
@[simp] theorem State.tick_hbm (s : State) : (s.tick).hbm = s.hbm := rfl
@[simp] theorem State.tick_tier (s : State) : (s.tick).tier = s.tier := rfl
@[simp] theorem State.tick_engines (s : State) : (s.tick).engines = s.engines := rfl
@[simp] theorem State.tick_chk (s : State) : (s.tick).chk = s.chk := rfl
@[simp] theorem State.tick_fab (s : State) : (s.tick).fab = s.fab := rfl
@[simp] theorem State.tick_red (s : State) : (s.tick).red = s.red := rfl
@[simp] theorem State.tick_upd (s : State) : (s.tick).upd = s.upd := rfl
@[simp] theorem State.tick_pwr (s : State) : (s.tick).pwr = s.pwr := rfl
@[simp] theorem State.tick_rst (s : State) : (s.tick).rst = s.rst := rfl
@[simp] theorem State.tick_flash (s : State) : (s.tick).flash = s.flash := rfl
@[simp] theorem State.tick_boot (s : State) : (s.tick).boot = s.boot := rfl
@[simp] theorem State.tick_sec (s : State) : (s.tick).sec = s.sec := rfl
@[simp] theorem State.tick_dbg (s : State) : (s.tick).dbg = s.dbg := rfl
@[simp] theorem State.tick_tap (s : State) : (s.tick).tap = s.tap := rfl
@[simp] theorem State.tick_spanW (s : State) : (s.tick).spanW = s.spanW := rfl
@[simp] theorem State.tick_spanE (s : State) : (s.tick).spanE = s.spanE := rfl
@[simp] theorem State.tick_eid (s : State) : (s.tick).eid = s.eid := rfl
@[simp] theorem State.tick_pldm (s : State) : (s.tick).pldm = s.pldm := rfl
@[simp] theorem State.tick_pins (s : State) : (s.tick).pins = s.pins := rfl

@[simp] theorem State.signal_pending (s : State) (o : Nat) (n : Word) : (s.signal o n).pending = s.pending := rfl
@[simp] theorem State.signal_now (s : State) (o : Nat) (n : Word) : (s.signal o n).now = s.now := rfl
@[simp] theorem State.signal_ctrs (s : State) (o : Nat) (n : Word) : (s.signal o n).ctrs = s.ctrs := rfl
@[simp] theorem State.signal_fresh (s : State) (o : Nat) (n : Word) : (s.signal o n).fresh = s.fresh := rfl
@[simp] theorem State.signal_out (s : State) (o : Nat) (n : Word) : (s.signal o n).out = s.out := rfl
@[simp] theorem State.signal_mem (s : State) (o : Nat) (n : Word) : (s.signal o n).mem = s.mem := rfl
@[simp] theorem State.signal_compat (s : State) (o : Nat) (n : Word) : (s.signal o n).compat = s.compat := rfl
@[simp] theorem State.signal_deterministic (s : State) (o : Nat) (n : Word) : (s.signal o n).deterministic = s.deterministic := rfl
@[simp] theorem State.signal_strapped (s : State) (o : Nat) (n : Word) : (s.signal o n).strapped = s.strapped := rfl
@[simp] theorem State.signal_hif (s : State) (o : Nat) (n : Word) : (s.signal o n).hif = s.hif := rfl
@[simp] theorem State.signal_ctxs (s : State) (o : Nat) (n : Word) : (s.signal o n).ctxs = s.ctxs := rfl
@[simp] theorem State.signal_runs (s : State) (o : Nat) (n : Word) : (s.signal o n).runs = s.runs := rfl
@[simp] theorem State.signal_runSeq (s : State) (o : Nat) (n : Word) : (s.signal o n).runSeq = s.runSeq := rfl
@[simp] theorem State.signal_tables (s : State) (o : Nat) (n : Word) : (s.signal o n).tables = s.tables := rfl
@[simp] theorem State.signal_arrays (s : State) (o : Nat) (n : Word) : (s.signal o n).arrays = s.arrays := rfl
@[simp] theorem State.signal_tel (s : State) (o : Nat) (n : Word) : (s.signal o n).tel = s.tel := rfl
@[simp] theorem State.signal_dsc (s : State) (o : Nat) (n : Word) : (s.signal o n).dsc = s.dsc := rfl
@[simp] theorem State.signal_hbm (s : State) (o : Nat) (n : Word) : (s.signal o n).hbm = s.hbm := rfl
@[simp] theorem State.signal_tier (s : State) (o : Nat) (n : Word) : (s.signal o n).tier = s.tier := rfl
@[simp] theorem State.signal_engines (s : State) (o : Nat) (n : Word) : (s.signal o n).engines = s.engines := rfl
@[simp] theorem State.signal_chk (s : State) (o : Nat) (n : Word) : (s.signal o n).chk = s.chk := rfl
@[simp] theorem State.signal_fab (s : State) (o : Nat) (n : Word) : (s.signal o n).fab = s.fab := rfl
@[simp] theorem State.signal_red (s : State) (o : Nat) (n : Word) : (s.signal o n).red = s.red := rfl
@[simp] theorem State.signal_upd (s : State) (o : Nat) (n : Word) : (s.signal o n).upd = s.upd := rfl
@[simp] theorem State.signal_pwr (s : State) (o : Nat) (n : Word) : (s.signal o n).pwr = s.pwr := rfl
@[simp] theorem State.signal_rst (s : State) (o : Nat) (n : Word) : (s.signal o n).rst = s.rst := rfl
@[simp] theorem State.signal_flash (s : State) (o : Nat) (n : Word) : (s.signal o n).flash = s.flash := rfl
@[simp] theorem State.signal_boot (s : State) (o : Nat) (n : Word) : (s.signal o n).boot = s.boot := rfl
@[simp] theorem State.signal_sec (s : State) (o : Nat) (n : Word) : (s.signal o n).sec = s.sec := rfl
@[simp] theorem State.signal_dbg (s : State) (o : Nat) (n : Word) : (s.signal o n).dbg = s.dbg := rfl
@[simp] theorem State.signal_tap (s : State) (o : Nat) (n : Word) : (s.signal o n).tap = s.tap := rfl
@[simp] theorem State.signal_spanW (s : State) (o : Nat) (n : Word) : (s.signal o n).spanW = s.spanW := rfl
@[simp] theorem State.signal_spanE (s : State) (o : Nat) (n : Word) : (s.signal o n).spanE = s.spanE := rfl
@[simp] theorem State.signal_eid (s : State) (o : Nat) (n : Word) : (s.signal o n).eid = s.eid := rfl
@[simp] theorem State.signal_pldm (s : State) (o : Nat) (n : Word) : (s.signal o n).pldm = s.pldm := rfl
@[simp] theorem State.signal_pins (s : State) (o : Nat) (n : Word) : (s.signal o n).pins = s.pins := rfl

@[simp] theorem State.setSync_pending (s : State) (o : Nat) (v : Word) : (s.setSync o v).pending = s.pending := rfl
@[simp] theorem State.setSync_now (s : State) (o : Nat) (v : Word) : (s.setSync o v).now = s.now := rfl
@[simp] theorem State.setSync_ctrs (s : State) (o : Nat) (v : Word) : (s.setSync o v).ctrs = s.ctrs := rfl
@[simp] theorem State.setSync_fresh (s : State) (o : Nat) (v : Word) : (s.setSync o v).fresh = s.fresh := rfl
@[simp] theorem State.setSync_out (s : State) (o : Nat) (v : Word) : (s.setSync o v).out = s.out := rfl
@[simp] theorem State.setSync_mem (s : State) (o : Nat) (v : Word) : (s.setSync o v).mem = s.mem := rfl
@[simp] theorem State.setSync_compat (s : State) (o : Nat) (v : Word) : (s.setSync o v).compat = s.compat := rfl
@[simp] theorem State.setSync_deterministic (s : State) (o : Nat) (v : Word) : (s.setSync o v).deterministic = s.deterministic := rfl
@[simp] theorem State.setSync_strapped (s : State) (o : Nat) (v : Word) : (s.setSync o v).strapped = s.strapped := rfl
@[simp] theorem State.setSync_hif (s : State) (o : Nat) (v : Word) : (s.setSync o v).hif = s.hif := rfl
@[simp] theorem State.setSync_ctxs (s : State) (o : Nat) (v : Word) : (s.setSync o v).ctxs = s.ctxs := rfl
@[simp] theorem State.setSync_runs (s : State) (o : Nat) (v : Word) : (s.setSync o v).runs = s.runs := rfl
@[simp] theorem State.setSync_runSeq (s : State) (o : Nat) (v : Word) : (s.setSync o v).runSeq = s.runSeq := rfl
@[simp] theorem State.setSync_tables (s : State) (o : Nat) (v : Word) : (s.setSync o v).tables = s.tables := rfl
@[simp] theorem State.setSync_arrays (s : State) (o : Nat) (v : Word) : (s.setSync o v).arrays = s.arrays := rfl
@[simp] theorem State.setSync_tel (s : State) (o : Nat) (v : Word) : (s.setSync o v).tel = s.tel := rfl
@[simp] theorem State.setSync_dsc (s : State) (o : Nat) (v : Word) : (s.setSync o v).dsc = s.dsc := rfl
@[simp] theorem State.setSync_hbm (s : State) (o : Nat) (v : Word) : (s.setSync o v).hbm = s.hbm := rfl
@[simp] theorem State.setSync_tier (s : State) (o : Nat) (v : Word) : (s.setSync o v).tier = s.tier := rfl
@[simp] theorem State.setSync_engines (s : State) (o : Nat) (v : Word) : (s.setSync o v).engines = s.engines := rfl
@[simp] theorem State.setSync_chk (s : State) (o : Nat) (v : Word) : (s.setSync o v).chk = s.chk := rfl
@[simp] theorem State.setSync_fab (s : State) (o : Nat) (v : Word) : (s.setSync o v).fab = s.fab := rfl
@[simp] theorem State.setSync_red (s : State) (o : Nat) (v : Word) : (s.setSync o v).red = s.red := rfl
@[simp] theorem State.setSync_upd (s : State) (o : Nat) (v : Word) : (s.setSync o v).upd = s.upd := rfl
@[simp] theorem State.setSync_pwr (s : State) (o : Nat) (v : Word) : (s.setSync o v).pwr = s.pwr := rfl
@[simp] theorem State.setSync_rst (s : State) (o : Nat) (v : Word) : (s.setSync o v).rst = s.rst := rfl
@[simp] theorem State.setSync_flash (s : State) (o : Nat) (v : Word) : (s.setSync o v).flash = s.flash := rfl
@[simp] theorem State.setSync_boot (s : State) (o : Nat) (v : Word) : (s.setSync o v).boot = s.boot := rfl
@[simp] theorem State.setSync_sec (s : State) (o : Nat) (v : Word) : (s.setSync o v).sec = s.sec := rfl
@[simp] theorem State.setSync_dbg (s : State) (o : Nat) (v : Word) : (s.setSync o v).dbg = s.dbg := rfl
@[simp] theorem State.setSync_tap (s : State) (o : Nat) (v : Word) : (s.setSync o v).tap = s.tap := rfl
@[simp] theorem State.setSync_spanW (s : State) (o : Nat) (v : Word) : (s.setSync o v).spanW = s.spanW := rfl
@[simp] theorem State.setSync_spanE (s : State) (o : Nat) (v : Word) : (s.setSync o v).spanE = s.spanE := rfl
@[simp] theorem State.setSync_eid (s : State) (o : Nat) (v : Word) : (s.setSync o v).eid = s.eid := rfl
@[simp] theorem State.setSync_pldm (s : State) (o : Nat) (v : Word) : (s.setSync o v).pldm = s.pldm := rfl
@[simp] theorem State.setSync_pins (s : State) (o : Nat) (v : Word) : (s.setSync o v).pins = s.pins := rfl

@[simp] theorem State.enqueue_pending (s : State) (ws : List (Nat × Wait)) : (s.enqueue ws).pending = s.pending := rfl
@[simp] theorem State.enqueue_now (s : State) (ws : List (Nat × Wait)) : (s.enqueue ws).now = s.now := rfl
@[simp] theorem State.enqueue_ctrs (s : State) (ws : List (Nat × Wait)) : (s.enqueue ws).ctrs = s.ctrs := rfl
@[simp] theorem State.enqueue_fresh (s : State) (ws : List (Nat × Wait)) : (s.enqueue ws).fresh = s.fresh := rfl
@[simp] theorem State.enqueue_out (s : State) (ws : List (Nat × Wait)) : (s.enqueue ws).out = s.out := rfl
@[simp] theorem State.enqueue_mem (s : State) (ws : List (Nat × Wait)) : (s.enqueue ws).mem = s.mem := rfl
@[simp] theorem State.enqueue_compat (s : State) (ws : List (Nat × Wait)) : (s.enqueue ws).compat = s.compat := rfl
@[simp] theorem State.enqueue_deterministic (s : State) (ws : List (Nat × Wait)) : (s.enqueue ws).deterministic = s.deterministic := rfl
@[simp] theorem State.enqueue_strapped (s : State) (ws : List (Nat × Wait)) : (s.enqueue ws).strapped = s.strapped := rfl
@[simp] theorem State.enqueue_hif (s : State) (ws : List (Nat × Wait)) : (s.enqueue ws).hif = s.hif := rfl
@[simp] theorem State.enqueue_ctxs (s : State) (ws : List (Nat × Wait)) : (s.enqueue ws).ctxs = s.ctxs := rfl
@[simp] theorem State.enqueue_runs (s : State) (ws : List (Nat × Wait)) : (s.enqueue ws).runs = s.runs := rfl
@[simp] theorem State.enqueue_runSeq (s : State) (ws : List (Nat × Wait)) : (s.enqueue ws).runSeq = s.runSeq := rfl
@[simp] theorem State.enqueue_tables (s : State) (ws : List (Nat × Wait)) : (s.enqueue ws).tables = s.tables := rfl
@[simp] theorem State.enqueue_arrays (s : State) (ws : List (Nat × Wait)) : (s.enqueue ws).arrays = s.arrays := rfl
@[simp] theorem State.enqueue_tel (s : State) (ws : List (Nat × Wait)) : (s.enqueue ws).tel = s.tel := rfl
@[simp] theorem State.enqueue_dsc (s : State) (ws : List (Nat × Wait)) : (s.enqueue ws).dsc = s.dsc := rfl
@[simp] theorem State.enqueue_hbm (s : State) (ws : List (Nat × Wait)) : (s.enqueue ws).hbm = s.hbm := rfl
@[simp] theorem State.enqueue_tier (s : State) (ws : List (Nat × Wait)) : (s.enqueue ws).tier = s.tier := rfl
@[simp] theorem State.enqueue_engines (s : State) (ws : List (Nat × Wait)) : (s.enqueue ws).engines = s.engines := rfl
@[simp] theorem State.enqueue_chk (s : State) (ws : List (Nat × Wait)) : (s.enqueue ws).chk = s.chk := rfl
@[simp] theorem State.enqueue_fab (s : State) (ws : List (Nat × Wait)) : (s.enqueue ws).fab = s.fab := rfl
@[simp] theorem State.enqueue_red (s : State) (ws : List (Nat × Wait)) : (s.enqueue ws).red = s.red := rfl
@[simp] theorem State.enqueue_upd (s : State) (ws : List (Nat × Wait)) : (s.enqueue ws).upd = s.upd := rfl
@[simp] theorem State.enqueue_pwr (s : State) (ws : List (Nat × Wait)) : (s.enqueue ws).pwr = s.pwr := rfl
@[simp] theorem State.enqueue_rst (s : State) (ws : List (Nat × Wait)) : (s.enqueue ws).rst = s.rst := rfl
@[simp] theorem State.enqueue_flash (s : State) (ws : List (Nat × Wait)) : (s.enqueue ws).flash = s.flash := rfl
@[simp] theorem State.enqueue_boot (s : State) (ws : List (Nat × Wait)) : (s.enqueue ws).boot = s.boot := rfl
@[simp] theorem State.enqueue_sec (s : State) (ws : List (Nat × Wait)) : (s.enqueue ws).sec = s.sec := rfl
@[simp] theorem State.enqueue_dbg (s : State) (ws : List (Nat × Wait)) : (s.enqueue ws).dbg = s.dbg := rfl
@[simp] theorem State.enqueue_tap (s : State) (ws : List (Nat × Wait)) : (s.enqueue ws).tap = s.tap := rfl
@[simp] theorem State.enqueue_spanW (s : State) (ws : List (Nat × Wait)) : (s.enqueue ws).spanW = s.spanW := rfl
@[simp] theorem State.enqueue_spanE (s : State) (ws : List (Nat × Wait)) : (s.enqueue ws).spanE = s.spanE := rfl
@[simp] theorem State.enqueue_eid (s : State) (ws : List (Nat × Wait)) : (s.enqueue ws).eid = s.eid := rfl
@[simp] theorem State.enqueue_pldm (s : State) (ws : List (Nat × Wait)) : (s.enqueue ws).pldm = s.pldm := rfl
@[simp] theorem State.enqueue_pins (s : State) (ws : List (Nat × Wait)) : (s.enqueue ws).pins = s.pins := rfl

@[simp] theorem State.consume_pending (s : State) (w : Waiter) : (s.consume w).pending = s.pending := rfl
@[simp] theorem State.consume_now (s : State) (w : Waiter) : (s.consume w).now = s.now := rfl
@[simp] theorem State.consume_ctrs (s : State) (w : Waiter) : (s.consume w).ctrs = s.ctrs := rfl
@[simp] theorem State.consume_fresh (s : State) (w : Waiter) : (s.consume w).fresh = s.fresh := rfl
@[simp] theorem State.consume_out (s : State) (w : Waiter) : (s.consume w).out = s.out := rfl
@[simp] theorem State.consume_mem (s : State) (w : Waiter) : (s.consume w).mem = s.mem := rfl
@[simp] theorem State.consume_compat (s : State) (w : Waiter) : (s.consume w).compat = s.compat := rfl
@[simp] theorem State.consume_deterministic (s : State) (w : Waiter) : (s.consume w).deterministic = s.deterministic := rfl
@[simp] theorem State.consume_strapped (s : State) (w : Waiter) : (s.consume w).strapped = s.strapped := rfl
@[simp] theorem State.consume_hif (s : State) (w : Waiter) : (s.consume w).hif = s.hif := rfl
@[simp] theorem State.consume_ctxs (s : State) (w : Waiter) : (s.consume w).ctxs = s.ctxs := rfl
@[simp] theorem State.consume_runs (s : State) (w : Waiter) : (s.consume w).runs = s.runs := rfl
@[simp] theorem State.consume_runSeq (s : State) (w : Waiter) : (s.consume w).runSeq = s.runSeq := rfl
@[simp] theorem State.consume_tables (s : State) (w : Waiter) : (s.consume w).tables = s.tables := rfl
@[simp] theorem State.consume_arrays (s : State) (w : Waiter) : (s.consume w).arrays = s.arrays := rfl
@[simp] theorem State.consume_tel (s : State) (w : Waiter) : (s.consume w).tel = s.tel := rfl
@[simp] theorem State.consume_dsc (s : State) (w : Waiter) : (s.consume w).dsc = s.dsc := rfl
@[simp] theorem State.consume_hbm (s : State) (w : Waiter) : (s.consume w).hbm = s.hbm := rfl
@[simp] theorem State.consume_tier (s : State) (w : Waiter) : (s.consume w).tier = s.tier := rfl
@[simp] theorem State.consume_engines (s : State) (w : Waiter) : (s.consume w).engines = s.engines := rfl
@[simp] theorem State.consume_chk (s : State) (w : Waiter) : (s.consume w).chk = s.chk := rfl
@[simp] theorem State.consume_fab (s : State) (w : Waiter) : (s.consume w).fab = s.fab := rfl
@[simp] theorem State.consume_red (s : State) (w : Waiter) : (s.consume w).red = s.red := rfl
@[simp] theorem State.consume_upd (s : State) (w : Waiter) : (s.consume w).upd = s.upd := rfl
@[simp] theorem State.consume_pwr (s : State) (w : Waiter) : (s.consume w).pwr = s.pwr := rfl
@[simp] theorem State.consume_rst (s : State) (w : Waiter) : (s.consume w).rst = s.rst := rfl
@[simp] theorem State.consume_flash (s : State) (w : Waiter) : (s.consume w).flash = s.flash := rfl
@[simp] theorem State.consume_boot (s : State) (w : Waiter) : (s.consume w).boot = s.boot := rfl
@[simp] theorem State.consume_sec (s : State) (w : Waiter) : (s.consume w).sec = s.sec := rfl
@[simp] theorem State.consume_dbg (s : State) (w : Waiter) : (s.consume w).dbg = s.dbg := rfl
@[simp] theorem State.consume_tap (s : State) (w : Waiter) : (s.consume w).tap = s.tap := rfl
@[simp] theorem State.consume_spanW (s : State) (w : Waiter) : (s.consume w).spanW = s.spanW := rfl
@[simp] theorem State.consume_spanE (s : State) (w : Waiter) : (s.consume w).spanE = s.spanE := rfl
@[simp] theorem State.consume_eid (s : State) (w : Waiter) : (s.consume w).eid = s.eid := rfl
@[simp] theorem State.consume_pldm (s : State) (w : Waiter) : (s.consume w).pldm = s.pldm := rfl
@[simp] theorem State.consume_pins (s : State) (w : Waiter) : (s.consume w).pins = s.pins := rfl

@[simp] theorem State.setCmds_pending (s : State) (l : List Cmd) : (s.setCmds l).pending = s.pending := rfl
@[simp] theorem State.setCmds_now (s : State) (l : List Cmd) : (s.setCmds l).now = s.now := rfl
@[simp] theorem State.setCmds_ctrs (s : State) (l : List Cmd) : (s.setCmds l).ctrs = s.ctrs := rfl
@[simp] theorem State.setCmds_fresh (s : State) (l : List Cmd) : (s.setCmds l).fresh = s.fresh := rfl
@[simp] theorem State.setCmds_out (s : State) (l : List Cmd) : (s.setCmds l).out = s.out := rfl
@[simp] theorem State.setCmds_mem (s : State) (l : List Cmd) : (s.setCmds l).mem = s.mem := rfl
@[simp] theorem State.setCmds_compat (s : State) (l : List Cmd) : (s.setCmds l).compat = s.compat := rfl
@[simp] theorem State.setCmds_deterministic (s : State) (l : List Cmd) : (s.setCmds l).deterministic = s.deterministic := rfl
@[simp] theorem State.setCmds_strapped (s : State) (l : List Cmd) : (s.setCmds l).strapped = s.strapped := rfl
@[simp] theorem State.setCmds_sync (s : State) (l : List Cmd) : (s.setCmds l).sync = s.sync := rfl
@[simp] theorem State.setCmds_ctxs (s : State) (l : List Cmd) : (s.setCmds l).ctxs = s.ctxs := rfl
@[simp] theorem State.setCmds_runs (s : State) (l : List Cmd) : (s.setCmds l).runs = s.runs := rfl
@[simp] theorem State.setCmds_runSeq (s : State) (l : List Cmd) : (s.setCmds l).runSeq = s.runSeq := rfl
@[simp] theorem State.setCmds_tables (s : State) (l : List Cmd) : (s.setCmds l).tables = s.tables := rfl
@[simp] theorem State.setCmds_arrays (s : State) (l : List Cmd) : (s.setCmds l).arrays = s.arrays := rfl
@[simp] theorem State.setCmds_tel (s : State) (l : List Cmd) : (s.setCmds l).tel = s.tel := rfl
@[simp] theorem State.setCmds_dsc (s : State) (l : List Cmd) : (s.setCmds l).dsc = s.dsc := rfl
@[simp] theorem State.setCmds_hbm (s : State) (l : List Cmd) : (s.setCmds l).hbm = s.hbm := rfl
@[simp] theorem State.setCmds_tier (s : State) (l : List Cmd) : (s.setCmds l).tier = s.tier := rfl
@[simp] theorem State.setCmds_engines (s : State) (l : List Cmd) : (s.setCmds l).engines = s.engines := rfl
@[simp] theorem State.setCmds_chk (s : State) (l : List Cmd) : (s.setCmds l).chk = s.chk := rfl
@[simp] theorem State.setCmds_fab (s : State) (l : List Cmd) : (s.setCmds l).fab = s.fab := rfl
@[simp] theorem State.setCmds_red (s : State) (l : List Cmd) : (s.setCmds l).red = s.red := rfl
@[simp] theorem State.setCmds_upd (s : State) (l : List Cmd) : (s.setCmds l).upd = s.upd := rfl
@[simp] theorem State.setCmds_pwr (s : State) (l : List Cmd) : (s.setCmds l).pwr = s.pwr := rfl
@[simp] theorem State.setCmds_rst (s : State) (l : List Cmd) : (s.setCmds l).rst = s.rst := rfl
@[simp] theorem State.setCmds_flash (s : State) (l : List Cmd) : (s.setCmds l).flash = s.flash := rfl
@[simp] theorem State.setCmds_boot (s : State) (l : List Cmd) : (s.setCmds l).boot = s.boot := rfl
@[simp] theorem State.setCmds_sec (s : State) (l : List Cmd) : (s.setCmds l).sec = s.sec := rfl
@[simp] theorem State.setCmds_dbg (s : State) (l : List Cmd) : (s.setCmds l).dbg = s.dbg := rfl
@[simp] theorem State.setCmds_tap (s : State) (l : List Cmd) : (s.setCmds l).tap = s.tap := rfl
@[simp] theorem State.setCmds_spanW (s : State) (l : List Cmd) : (s.setCmds l).spanW = s.spanW := rfl
@[simp] theorem State.setCmds_spanE (s : State) (l : List Cmd) : (s.setCmds l).spanE = s.spanE := rfl
@[simp] theorem State.setCmds_eid (s : State) (l : List Cmd) : (s.setCmds l).eid = s.eid := rfl
@[simp] theorem State.setCmds_pldm (s : State) (l : List Cmd) : (s.setCmds l).pldm = s.pldm := rfl
@[simp] theorem State.setCmds_pins (s : State) (l : List Cmd) : (s.setCmds l).pins = s.pins := rfl

@[simp] theorem State.updCmd_pending (s : State) (k : CmdKey) (f : Cmd → Cmd) : (s.updCmd k f).pending = s.pending := rfl
@[simp] theorem State.updCmd_now (s : State) (k : CmdKey) (f : Cmd → Cmd) : (s.updCmd k f).now = s.now := rfl
@[simp] theorem State.updCmd_ctrs (s : State) (k : CmdKey) (f : Cmd → Cmd) : (s.updCmd k f).ctrs = s.ctrs := rfl
@[simp] theorem State.updCmd_fresh (s : State) (k : CmdKey) (f : Cmd → Cmd) : (s.updCmd k f).fresh = s.fresh := rfl
@[simp] theorem State.updCmd_out (s : State) (k : CmdKey) (f : Cmd → Cmd) : (s.updCmd k f).out = s.out := rfl
@[simp] theorem State.updCmd_mem (s : State) (k : CmdKey) (f : Cmd → Cmd) : (s.updCmd k f).mem = s.mem := rfl
@[simp] theorem State.updCmd_compat (s : State) (k : CmdKey) (f : Cmd → Cmd) : (s.updCmd k f).compat = s.compat := rfl
@[simp] theorem State.updCmd_deterministic (s : State) (k : CmdKey) (f : Cmd → Cmd) : (s.updCmd k f).deterministic = s.deterministic := rfl
@[simp] theorem State.updCmd_strapped (s : State) (k : CmdKey) (f : Cmd → Cmd) : (s.updCmd k f).strapped = s.strapped := rfl
@[simp] theorem State.updCmd_sync (s : State) (k : CmdKey) (f : Cmd → Cmd) : (s.updCmd k f).sync = s.sync := rfl
@[simp] theorem State.updCmd_ctxs (s : State) (k : CmdKey) (f : Cmd → Cmd) : (s.updCmd k f).ctxs = s.ctxs := rfl
@[simp] theorem State.updCmd_runs (s : State) (k : CmdKey) (f : Cmd → Cmd) : (s.updCmd k f).runs = s.runs := rfl
@[simp] theorem State.updCmd_runSeq (s : State) (k : CmdKey) (f : Cmd → Cmd) : (s.updCmd k f).runSeq = s.runSeq := rfl
@[simp] theorem State.updCmd_tables (s : State) (k : CmdKey) (f : Cmd → Cmd) : (s.updCmd k f).tables = s.tables := rfl
@[simp] theorem State.updCmd_arrays (s : State) (k : CmdKey) (f : Cmd → Cmd) : (s.updCmd k f).arrays = s.arrays := rfl
@[simp] theorem State.updCmd_tel (s : State) (k : CmdKey) (f : Cmd → Cmd) : (s.updCmd k f).tel = s.tel := rfl
@[simp] theorem State.updCmd_dsc (s : State) (k : CmdKey) (f : Cmd → Cmd) : (s.updCmd k f).dsc = s.dsc := rfl
@[simp] theorem State.updCmd_hbm (s : State) (k : CmdKey) (f : Cmd → Cmd) : (s.updCmd k f).hbm = s.hbm := rfl
@[simp] theorem State.updCmd_tier (s : State) (k : CmdKey) (f : Cmd → Cmd) : (s.updCmd k f).tier = s.tier := rfl
@[simp] theorem State.updCmd_engines (s : State) (k : CmdKey) (f : Cmd → Cmd) : (s.updCmd k f).engines = s.engines := rfl
@[simp] theorem State.updCmd_chk (s : State) (k : CmdKey) (f : Cmd → Cmd) : (s.updCmd k f).chk = s.chk := rfl
@[simp] theorem State.updCmd_fab (s : State) (k : CmdKey) (f : Cmd → Cmd) : (s.updCmd k f).fab = s.fab := rfl
@[simp] theorem State.updCmd_red (s : State) (k : CmdKey) (f : Cmd → Cmd) : (s.updCmd k f).red = s.red := rfl
@[simp] theorem State.updCmd_upd (s : State) (k : CmdKey) (f : Cmd → Cmd) : (s.updCmd k f).upd = s.upd := rfl
@[simp] theorem State.updCmd_pwr (s : State) (k : CmdKey) (f : Cmd → Cmd) : (s.updCmd k f).pwr = s.pwr := rfl
@[simp] theorem State.updCmd_rst (s : State) (k : CmdKey) (f : Cmd → Cmd) : (s.updCmd k f).rst = s.rst := rfl
@[simp] theorem State.updCmd_flash (s : State) (k : CmdKey) (f : Cmd → Cmd) : (s.updCmd k f).flash = s.flash := rfl
@[simp] theorem State.updCmd_boot (s : State) (k : CmdKey) (f : Cmd → Cmd) : (s.updCmd k f).boot = s.boot := rfl
@[simp] theorem State.updCmd_sec (s : State) (k : CmdKey) (f : Cmd → Cmd) : (s.updCmd k f).sec = s.sec := rfl
@[simp] theorem State.updCmd_dbg (s : State) (k : CmdKey) (f : Cmd → Cmd) : (s.updCmd k f).dbg = s.dbg := rfl
@[simp] theorem State.updCmd_tap (s : State) (k : CmdKey) (f : Cmd → Cmd) : (s.updCmd k f).tap = s.tap := rfl
@[simp] theorem State.updCmd_spanW (s : State) (k : CmdKey) (f : Cmd → Cmd) : (s.updCmd k f).spanW = s.spanW := rfl
@[simp] theorem State.updCmd_spanE (s : State) (k : CmdKey) (f : Cmd → Cmd) : (s.updCmd k f).spanE = s.spanE := rfl
@[simp] theorem State.updCmd_eid (s : State) (k : CmdKey) (f : Cmd → Cmd) : (s.updCmd k f).eid = s.eid := rfl
@[simp] theorem State.updCmd_pldm (s : State) (k : CmdKey) (f : Cmd → Cmd) : (s.updCmd k f).pldm = s.pldm := rfl
@[simp] theorem State.updCmd_pins (s : State) (k : CmdKey) (f : Cmd → Cmd) : (s.updCmd k f).pins = s.pins := rfl

@[simp] theorem State.dropCmd_pending (s : State) (k : CmdKey) : (s.dropCmd k).pending = s.pending := rfl
@[simp] theorem State.dropCmd_now (s : State) (k : CmdKey) : (s.dropCmd k).now = s.now := rfl
@[simp] theorem State.dropCmd_ctrs (s : State) (k : CmdKey) : (s.dropCmd k).ctrs = s.ctrs := rfl
@[simp] theorem State.dropCmd_fresh (s : State) (k : CmdKey) : (s.dropCmd k).fresh = s.fresh := rfl
@[simp] theorem State.dropCmd_out (s : State) (k : CmdKey) : (s.dropCmd k).out = s.out := rfl
@[simp] theorem State.dropCmd_mem (s : State) (k : CmdKey) : (s.dropCmd k).mem = s.mem := rfl
@[simp] theorem State.dropCmd_compat (s : State) (k : CmdKey) : (s.dropCmd k).compat = s.compat := rfl
@[simp] theorem State.dropCmd_deterministic (s : State) (k : CmdKey) : (s.dropCmd k).deterministic = s.deterministic := rfl
@[simp] theorem State.dropCmd_strapped (s : State) (k : CmdKey) : (s.dropCmd k).strapped = s.strapped := rfl
@[simp] theorem State.dropCmd_sync (s : State) (k : CmdKey) : (s.dropCmd k).sync = s.sync := rfl
@[simp] theorem State.dropCmd_ctxs (s : State) (k : CmdKey) : (s.dropCmd k).ctxs = s.ctxs := rfl
@[simp] theorem State.dropCmd_runs (s : State) (k : CmdKey) : (s.dropCmd k).runs = s.runs := rfl
@[simp] theorem State.dropCmd_runSeq (s : State) (k : CmdKey) : (s.dropCmd k).runSeq = s.runSeq := rfl
@[simp] theorem State.dropCmd_tables (s : State) (k : CmdKey) : (s.dropCmd k).tables = s.tables := rfl
@[simp] theorem State.dropCmd_arrays (s : State) (k : CmdKey) : (s.dropCmd k).arrays = s.arrays := rfl
@[simp] theorem State.dropCmd_tel (s : State) (k : CmdKey) : (s.dropCmd k).tel = s.tel := rfl
@[simp] theorem State.dropCmd_dsc (s : State) (k : CmdKey) : (s.dropCmd k).dsc = s.dsc := rfl
@[simp] theorem State.dropCmd_hbm (s : State) (k : CmdKey) : (s.dropCmd k).hbm = s.hbm := rfl
@[simp] theorem State.dropCmd_tier (s : State) (k : CmdKey) : (s.dropCmd k).tier = s.tier := rfl
@[simp] theorem State.dropCmd_engines (s : State) (k : CmdKey) : (s.dropCmd k).engines = s.engines := rfl
@[simp] theorem State.dropCmd_chk (s : State) (k : CmdKey) : (s.dropCmd k).chk = s.chk := rfl
@[simp] theorem State.dropCmd_fab (s : State) (k : CmdKey) : (s.dropCmd k).fab = s.fab := rfl
@[simp] theorem State.dropCmd_red (s : State) (k : CmdKey) : (s.dropCmd k).red = s.red := rfl
@[simp] theorem State.dropCmd_upd (s : State) (k : CmdKey) : (s.dropCmd k).upd = s.upd := rfl
@[simp] theorem State.dropCmd_pwr (s : State) (k : CmdKey) : (s.dropCmd k).pwr = s.pwr := rfl
@[simp] theorem State.dropCmd_rst (s : State) (k : CmdKey) : (s.dropCmd k).rst = s.rst := rfl
@[simp] theorem State.dropCmd_flash (s : State) (k : CmdKey) : (s.dropCmd k).flash = s.flash := rfl
@[simp] theorem State.dropCmd_boot (s : State) (k : CmdKey) : (s.dropCmd k).boot = s.boot := rfl
@[simp] theorem State.dropCmd_sec (s : State) (k : CmdKey) : (s.dropCmd k).sec = s.sec := rfl
@[simp] theorem State.dropCmd_dbg (s : State) (k : CmdKey) : (s.dropCmd k).dbg = s.dbg := rfl
@[simp] theorem State.dropCmd_tap (s : State) (k : CmdKey) : (s.dropCmd k).tap = s.tap := rfl
@[simp] theorem State.dropCmd_spanW (s : State) (k : CmdKey) : (s.dropCmd k).spanW = s.spanW := rfl
@[simp] theorem State.dropCmd_spanE (s : State) (k : CmdKey) : (s.dropCmd k).spanE = s.spanE := rfl
@[simp] theorem State.dropCmd_eid (s : State) (k : CmdKey) : (s.dropCmd k).eid = s.eid := rfl
@[simp] theorem State.dropCmd_pldm (s : State) (k : CmdKey) : (s.dropCmd k).pldm = s.pldm := rfl
@[simp] theorem State.dropCmd_pins (s : State) (k : CmdKey) : (s.dropCmd k).pins = s.pins := rfl

@[simp] theorem State.updRun_pending (s : State) (k : CmdKey) (f : Run → Run) : (s.updRun k f).pending = s.pending := rfl
@[simp] theorem State.updRun_now (s : State) (k : CmdKey) (f : Run → Run) : (s.updRun k f).now = s.now := rfl
@[simp] theorem State.updRun_ctrs (s : State) (k : CmdKey) (f : Run → Run) : (s.updRun k f).ctrs = s.ctrs := rfl
@[simp] theorem State.updRun_fresh (s : State) (k : CmdKey) (f : Run → Run) : (s.updRun k f).fresh = s.fresh := rfl
@[simp] theorem State.updRun_out (s : State) (k : CmdKey) (f : Run → Run) : (s.updRun k f).out = s.out := rfl
@[simp] theorem State.updRun_mem (s : State) (k : CmdKey) (f : Run → Run) : (s.updRun k f).mem = s.mem := rfl
@[simp] theorem State.updRun_compat (s : State) (k : CmdKey) (f : Run → Run) : (s.updRun k f).compat = s.compat := rfl
@[simp] theorem State.updRun_deterministic (s : State) (k : CmdKey) (f : Run → Run) : (s.updRun k f).deterministic = s.deterministic := rfl
@[simp] theorem State.updRun_strapped (s : State) (k : CmdKey) (f : Run → Run) : (s.updRun k f).strapped = s.strapped := rfl
@[simp] theorem State.updRun_hif (s : State) (k : CmdKey) (f : Run → Run) : (s.updRun k f).hif = s.hif := rfl
@[simp] theorem State.updRun_sync (s : State) (k : CmdKey) (f : Run → Run) : (s.updRun k f).sync = s.sync := rfl
@[simp] theorem State.updRun_ctxs (s : State) (k : CmdKey) (f : Run → Run) : (s.updRun k f).ctxs = s.ctxs := rfl
@[simp] theorem State.updRun_runSeq (s : State) (k : CmdKey) (f : Run → Run) : (s.updRun k f).runSeq = s.runSeq := rfl
@[simp] theorem State.updRun_tables (s : State) (k : CmdKey) (f : Run → Run) : (s.updRun k f).tables = s.tables := rfl
@[simp] theorem State.updRun_arrays (s : State) (k : CmdKey) (f : Run → Run) : (s.updRun k f).arrays = s.arrays := rfl
@[simp] theorem State.updRun_tel (s : State) (k : CmdKey) (f : Run → Run) : (s.updRun k f).tel = s.tel := rfl
@[simp] theorem State.updRun_dsc (s : State) (k : CmdKey) (f : Run → Run) : (s.updRun k f).dsc = s.dsc := rfl
@[simp] theorem State.updRun_hbm (s : State) (k : CmdKey) (f : Run → Run) : (s.updRun k f).hbm = s.hbm := rfl
@[simp] theorem State.updRun_tier (s : State) (k : CmdKey) (f : Run → Run) : (s.updRun k f).tier = s.tier := rfl
@[simp] theorem State.updRun_engines (s : State) (k : CmdKey) (f : Run → Run) : (s.updRun k f).engines = s.engines := rfl
@[simp] theorem State.updRun_chk (s : State) (k : CmdKey) (f : Run → Run) : (s.updRun k f).chk = s.chk := rfl
@[simp] theorem State.updRun_fab (s : State) (k : CmdKey) (f : Run → Run) : (s.updRun k f).fab = s.fab := rfl
@[simp] theorem State.updRun_red (s : State) (k : CmdKey) (f : Run → Run) : (s.updRun k f).red = s.red := rfl
@[simp] theorem State.updRun_upd (s : State) (k : CmdKey) (f : Run → Run) : (s.updRun k f).upd = s.upd := rfl
@[simp] theorem State.updRun_pwr (s : State) (k : CmdKey) (f : Run → Run) : (s.updRun k f).pwr = s.pwr := rfl
@[simp] theorem State.updRun_rst (s : State) (k : CmdKey) (f : Run → Run) : (s.updRun k f).rst = s.rst := rfl
@[simp] theorem State.updRun_flash (s : State) (k : CmdKey) (f : Run → Run) : (s.updRun k f).flash = s.flash := rfl
@[simp] theorem State.updRun_boot (s : State) (k : CmdKey) (f : Run → Run) : (s.updRun k f).boot = s.boot := rfl
@[simp] theorem State.updRun_sec (s : State) (k : CmdKey) (f : Run → Run) : (s.updRun k f).sec = s.sec := rfl
@[simp] theorem State.updRun_dbg (s : State) (k : CmdKey) (f : Run → Run) : (s.updRun k f).dbg = s.dbg := rfl
@[simp] theorem State.updRun_tap (s : State) (k : CmdKey) (f : Run → Run) : (s.updRun k f).tap = s.tap := rfl
@[simp] theorem State.updRun_spanW (s : State) (k : CmdKey) (f : Run → Run) : (s.updRun k f).spanW = s.spanW := rfl
@[simp] theorem State.updRun_spanE (s : State) (k : CmdKey) (f : Run → Run) : (s.updRun k f).spanE = s.spanE := rfl
@[simp] theorem State.updRun_eid (s : State) (k : CmdKey) (f : Run → Run) : (s.updRun k f).eid = s.eid := rfl
@[simp] theorem State.updRun_pldm (s : State) (k : CmdKey) (f : Run → Run) : (s.updRun k f).pldm = s.pldm := rfl
@[simp] theorem State.updRun_pins (s : State) (k : CmdKey) (f : Run → Run) : (s.updRun k f).pins = s.pins := rfl

@[simp] theorem State.settle_pending (s t : State) : (s.settle t).pending = s.pending := rfl
@[simp] theorem State.settle_now (s t : State) : (s.settle t).now = s.now := rfl
@[simp] theorem State.settle_ctrs (s t : State) : (s.settle t).ctrs = t.ctrs := rfl
@[simp] theorem State.settle_fresh (s t : State) : (s.settle t).fresh = t.fresh := rfl
@[simp] theorem State.settle_out (s t : State) : (s.settle t).out = t.out := rfl
@[simp] theorem State.settle_mem (s t : State) : (s.settle t).mem = t.mem := rfl
@[simp] theorem State.settle_compat (s t : State) : (s.settle t).compat = t.compat := rfl
@[simp] theorem State.settle_deterministic (s t : State) : (s.settle t).deterministic = t.deterministic := rfl
@[simp] theorem State.settle_strapped (s t : State) : (s.settle t).strapped = s.strapped := rfl
@[simp] theorem State.settle_hif (s t : State) : (s.settle t).hif = t.hif := rfl
@[simp] theorem State.settle_sync (s t : State) : (s.settle t).sync = t.sync := rfl
@[simp] theorem State.settle_ctxs (s t : State) : (s.settle t).ctxs = t.ctxs := rfl
@[simp] theorem State.settle_runs (s t : State) : (s.settle t).runs = t.runs := rfl
@[simp] theorem State.settle_runSeq (s t : State) : (s.settle t).runSeq = t.runSeq := rfl
@[simp] theorem State.settle_tables (s t : State) : (s.settle t).tables = t.tables := rfl
@[simp] theorem State.settle_arrays (s t : State) : (s.settle t).arrays = t.arrays := rfl
@[simp] theorem State.settle_tel (s t : State) : (s.settle t).tel = t.tel := rfl
@[simp] theorem State.settle_dsc (s t : State) : (s.settle t).dsc = t.dsc := rfl
@[simp] theorem State.settle_hbm (s t : State) : (s.settle t).hbm = t.hbm := rfl
@[simp] theorem State.settle_tier (s t : State) : (s.settle t).tier = t.tier := rfl
@[simp] theorem State.settle_engines (s t : State) : (s.settle t).engines = t.engines := rfl
@[simp] theorem State.settle_chk (s t : State) : (s.settle t).chk = t.chk := rfl
@[simp] theorem State.settle_fab (s t : State) : (s.settle t).fab = t.fab := rfl
@[simp] theorem State.settle_red (s t : State) : (s.settle t).red = t.red := rfl
@[simp] theorem State.settle_upd (s t : State) : (s.settle t).upd = t.upd := rfl
@[simp] theorem State.settle_pwr (s t : State) : (s.settle t).pwr = t.pwr := rfl
@[simp] theorem State.settle_rst (s t : State) : (s.settle t).rst = t.rst := rfl
@[simp] theorem State.settle_sec (s t : State) : (s.settle t).sec = t.sec := rfl
@[simp] theorem State.settle_dbg (s t : State) : (s.settle t).dbg = t.dbg := rfl
@[simp] theorem State.settle_tap (s t : State) : (s.settle t).tap = s.tap := rfl
@[simp] theorem State.settle_spanW (s t : State) : (s.settle t).spanW = t.spanW := rfl
@[simp] theorem State.settle_spanE (s t : State) : (s.settle t).spanE = t.spanE := rfl
@[simp] theorem State.settle_eid (s t : State) : (s.settle t).eid = s.eid := rfl
@[simp] theorem State.settle_pldm (s t : State) : (s.settle t).pldm = t.pldm := rfl
@[simp] theorem State.settle_pins (s t : State) : (s.settle t).pins = t.pins := rfl
@[simp] theorem State.settle_flash_marks (s t : State) : (s.settle t).flash.marks = t.flash.marks := rfl
@[simp] theorem State.settle_flash_condemned (s t : State) : (s.settle t).flash.condemned = t.flash.condemned := rfl
@[simp] theorem State.settle_flash_reasons (s t : State) : (s.settle t).flash.reasons = t.flash.reasons := rfl
@[simp] theorem State.settle_flash_cleared (s t : State) : (s.settle t).flash.cleared = s.flash.cleared := rfl
@[simp] theorem State.settle_flash_poh (s t : State) : (s.settle t).flash.poh = s.flash.poh := rfl
@[simp] theorem State.settle_flash_resetLog (s t : State) : (s.settle t).flash.resetLog = s.flash.resetLog := rfl
@[simp] theorem State.settle_flash_oos (s t : State) : (s.settle t).flash.oos = s.flash.oos := rfl
@[simp] theorem State.settle_flash_count24 (s t : State) : (s.settle t).flash.count24 = s.flash.count24 := rfl
@[simp] theorem State.settle_flash_margin (s t : State) : (s.settle t).flash.margin = s.flash.margin := rfl
@[simp] theorem State.settle_flash_slotA (s t : State) : (s.settle t).flash.slotA = s.flash.slotA := rfl
@[simp] theorem State.settle_flash_slotB (s t : State) : (s.settle t).flash.slotB = s.flash.slotB := rfl
@[simp] theorem State.settle_flash_failsA (s t : State) : (s.settle t).flash.failsA = s.flash.failsA := rfl
@[simp] theorem State.settle_flash_failsB (s t : State) : (s.settle t).flash.failsB = s.flash.failsB := rfl
@[simp] theorem State.settle_flash_config (s t : State) : (s.settle t).flash.config = s.flash.config := rfl
@[simp] theorem State.settle_flash_opkey (s t : State) : (s.settle t).flash.opkey = s.flash.opkey := rfl
@[simp] theorem State.settle_flash_fwSvn (s t : State) : (s.settle t).flash.fwSvn = s.flash.fwSvn := rfl
@[simp] theorem State.settle_flash_cfgVersion (s t : State) : (s.settle t).flash.cfgVersion = s.flash.cfgVersion := rfl
@[simp] theorem State.settle_flash_keyVersion (s t : State) : (s.settle t).flash.keyVersion = s.flash.keyVersion := rfl
@[simp] theorem State.settle_flash_revoke (s t : State) : (s.settle t).flash.revoke = s.flash.revoke := rfl
@[simp] theorem State.settle_flash_rppOk (s t : State) : (s.settle t).flash.rppOk = s.flash.rppOk := rfl
@[simp] theorem State.settle_flash_planValid (s t : State) : (s.settle t).flash.planValid = s.flash.planValid := rfl
@[simp] theorem State.settle_boot_masterSel (s t : State) : (s.settle t).boot.masterSel = s.boot.masterSel := rfl
@[simp] theorem State.settle_boot_compatN (s t : State) : (s.settle t).boot.compatN = s.boot.compatN := rfl
@[simp] theorem State.settle_boot_bootSrc (s t : State) : (s.settle t).boot.bootSrc = s.boot.bootSrc := rfl
@[simp] theorem State.settle_boot_trayPos (s t : State) : (s.settle t).boot.trayPos = s.boot.trayPos := rfl
@[simp] theorem State.settle_boot_slot (s t : State) : (s.settle t).boot.slot = s.boot.slot := rfl
@[simp] theorem State.settle_boot_fwSvnRunning (s t : State) : (s.settle t).boot.fwSvnRunning = s.boot.fwSvnRunning := rfl
@[simp] theorem State.settle_boot_image (s t : State) : (s.settle t).boot.image = s.boot.image := rfl
@[simp] theorem State.settle_boot_cfg (s t : State) : (s.settle t).boot.cfg = s.boot.cfg := rfl
@[simp] theorem State.settle_boot_opKey (s t : State) : (s.settle t).boot.opKey = s.boot.opKey := rfl
@[simp] theorem State.settle_boot_identityOk (s t : State) : (s.settle t).boot.identityOk = s.boot.identityOk := rfl
@[simp] theorem State.settle_boot_level (s t : State) : (s.settle t).boot.level = t.boot.level := rfl
@[simp] theorem State.settle_boot_cond (s t : State) : (s.settle t).boot.cond = t.boot.cond := rfl
@[simp] theorem State.settle_boot_fLimit (s t : State) : (s.settle t).boot.fLimit = t.boot.fLimit := rfl
@[simp] theorem State.settle_boot_trained (s t : State) : (s.settle t).boot.trained = t.boot.trained := rfl
@[simp] theorem State.settle_boot_portsAt (s t : State) : (s.settle t).boot.portsAt = t.boot.portsAt := rfl
@[simp] theorem State.settle_boot_resetEndAt (s t : State) : (s.settle t).boot.resetEndAt = s.boot.resetEndAt := rfl
@[simp] theorem State.settle_boot_numrev (s t : State) : (s.settle t).boot.numrev = s.boot.numrev := rfl

/-! Reading back. -/

theorem State.ctx_setCtx_self (s : State) {c : Nat} (x : Ctx) (h : Tab.rising s.ctxs = true) : (s.setCtx c x).ctx c = x :=
  Tab.get_set_self _ h c x
theorem State.ctx_setCtx_ne (s : State) {c i : Nat} (x : Ctx) (h : c ≠ i) : (s.setCtx c x).ctx i = s.ctx i :=
  Tab.get_set_ne _ _ x h
theorem State.array_setArray_self (s : State) {a : Nat} (x : ArrayUnit) (h : Tab.rising s.arrays = true) : (s.setArray a x).array a = x :=
  Tab.get_set_self _ h a x
theorem State.array_setArray_ne (s : State) {a i : Nat} (x : ArrayUnit) (h : a ≠ i) : (s.setArray a x).array i = s.array i :=
  Tab.get_set_ne _ _ x h
theorem State.engine_setEngine_self (s : State) {e : Nat} (x : Engine) (h : Tab.rising s.engines = true) : (s.setEngine e x).engine e = x :=
  Tab.get_set_self _ h e x
theorem State.engine_setEngine_ne (s : State) {e i : Nat} (x : Engine) (h : e ≠ i) : (s.setEngine e x).engine i = s.engine i :=
  Tab.get_set_ne _ _ x h
theorem State.port_setPort_self (s : State) {p : Nat} (x : Port) (h : Tab.rising s.fab.ports = true) : (s.setPort p x).port p = x :=
  Tab.get_set_self _ h p x
theorem State.port_setPort_ne (s : State) {p i : Nat} (x : Port) (h : p ≠ i) : (s.setPort p x).port i = s.port i :=
  Tab.get_set_ne _ _ x h
theorem State.stack_setStack_self (s : State) {n : Nat} (x : Stack) (h : Tab.rising s.hbm.stk = true) : (s.setStack n x).stack n = x :=
  Tab.get_set_self _ h n x
theorem State.stack_setStack_ne (s : State) {n i : Nat} (x : Stack) (h : n ≠ i) : (s.setStack n x).stack i = s.stack i :=
  Tab.get_set_ne _ _ x h
theorem State.dscAt_setDsc_self (s : State) {d : Nat} (x : Dsc) (h : Tab.rising s.dsc = true) : (s.setDsc d x).dscAt d = x :=
  Tab.get_set_self _ h d x
theorem State.dscAt_setDsc_ne (s : State) {d i : Nat} (x : Dsc) (h : d ≠ i) : (s.setDsc d x).dscAt i = s.dscAt i :=
  Tab.get_set_ne _ _ x h
theorem State.table_setTable_self (s : State) {t : Nat} (x : CTable) (h : Tab.rising s.tables = true) : (s.setTable t x).table t = x :=
  Tab.get_set_self _ h t x
theorem State.table_setTable_ne (s : State) {t i : Nat} (x : CTable) (h : t ≠ i) : (s.setTable t x).table i = s.table i :=
  Tab.get_set_ne _ _ x h
theorem State.ring_setRing_self (s : State) {r : Nat} (x : Option Ring) (h : Tab.rising s.hif.rings = true) : (s.setRing r x).ring r = x :=
  Tab.get_set_self _ h r x
theorem State.ring_setRing_ne (s : State) {r i : Nat} (x : Option Ring) (h : r ≠ i) : (s.setRing r x).ring i = s.ring i :=
  Tab.get_set_ne _ _ x h
theorem State.evring_setEvring_self (s : State) {n : Nat} (x : EvRing) (h : Tab.rising s.hif.evrings = true) : (s.setEvring n x).evring n = x :=
  Tab.get_set_self _ h n x
theorem State.evring_setEvring_ne (s : State) {n i : Nat} (x : EvRing) (h : n ≠ i) : (s.setEvring n x).evring i = s.evring i :=
  Tab.get_set_ne _ _ x h
theorem State.plan_setPlan_self (s : State) {j : Nat} (x : Option Plan) (h : Tab.rising s.red.plans = true) : (s.setPlan j x).plan j = x :=
  Tab.get_set_self _ h j x
theorem State.plan_setPlan_ne (s : State) {j i : Nat} (x : Option Plan) (h : j ≠ i) : (s.setPlan j x).plan i = s.plan i :=
  Tab.get_set_ne _ _ x h

end Sys2Proof.Machine
end

