-- ==== Sys2Proof/Laws/Memory.lean ====
section
/-!
SUPPORT. The laws of memory: a read after a write to the same place gives the byte written, a write leaves every other place alone, and every
operation over memory keeps its canonical form.
-/
namespace Sys2Proof.Machine

/-! One byte. -/

theorem Memory.read_write_self {m : Memory} (h : m.wf = true) (k : Nat) (b : Byte) : (m.write k b).read k = b :=
  Tab.get_set_self m.bg (Tab.wf_rising h) k b

theorem Memory.read_write_ne (m : Memory) {k j : Nat} (b : Byte) (h : k ≠ j) : (m.write k b).read j = m.read j :=
  Tab.get_set_ne m.bg m.cells b h

theorem Memory.write_wf {m : Memory} (h : m.wf = true) (k : Nat) (b : Byte) : (m.write k b).wf = true := Tab.wf_set h k b

/-! Consecutive bytes. -/

theorem Memory.writeN_wf {m : Memory} (h : m.wf = true) (k : Nat) (bs : List Byte) : (m.writeN k bs).wf = true := Tab.wf_setMany h k bs

theorem Memory.read_writeN_in {m : Memory} (h : m.wf = true) {k : Nat} (bs : List Byte) (i : Nat) (hi : i < bs.length) :
    (m.writeN k bs).read (k + i) = bs[i] := Tab.get_setMany_in m.bg h bs i hi

theorem Memory.read_writeN_out (m : Memory) {k j : Nat} (bs : List Byte) (h : j < k ∨ k + bs.length ≤ j) :
    (m.writeN k bs).read j = m.read j := by
  rcases h with h | h
  · exact Tab.get_setMany_lt m.bg m.cells bs h
  · exact Tab.get_setMany_ge m.bg m.cells bs h

/-! Ranges. -/

theorem Memory.zero_wf {m : Memory} (h : m.wf = true) (lo hi : Nat) : (m.zero lo hi).wf = true :=
  Tab.wf_drop (bg := m.bg) h fun k => decide (lo ≤ k) && decide (k < hi)

theorem Tab.get_drop {α : Type} (bg : Nat → α) (t : Tab α) (p : Nat → Bool) (k : Nat) :
    Tab.get bg (Tab.drop t p) k = if p k then bg k else Tab.get bg t k := by
  induction t with
  | nil => simp [Tab.drop, Tab.get]
  | cons e t ih =>
    simp only [Tab.drop, List.filter_cons] at ih ⊢
    by_cases hp : p e.1 = true
    · simp only [hp, Bool.not_true, Bool.false_eq_true, if_false, ih]
      by_cases he : e.1 = k
      · simp [he ▸ hp]
      · simp [Tab.get, he]
    · simp only [Bool.not_eq_true] at hp
      simp only [hp, Bool.not_false, if_true]
      by_cases he : e.1 = k
      · simp [Tab.get, he, he ▸ hp]
      · simp [Tab.get, he, ih]

/-- A range set to 0 reads as what is unlisted, and every other key as before. -/
theorem Memory.read_zero (m : Memory) (lo hi k : Nat) : (m.zero lo hi).read k = if lo ≤ k ∧ k < hi then m.bg k else m.read k := by
  have := Tab.get_drop m.bg m.cells (fun j => decide (lo ≤ j) && decide (j < hi)) k
  simp only [Bool.and_eq_true, decide_eq_true_eq] at this
  exact this

theorem Memory.bg_zero (m : Memory) (lo hi : Nat) : (m.zero lo hi).bg = m.bg := rfl

/-- Outside a range made undefined, an unlisted key reads as it did. -/
theorem Memory.bg_scramble (m : Memory) {lo hi e k : Nat} (h : k < lo ∨ hi ≤ k) : (m.scramble lo hi e).bg k = m.bg k := by
  have : (decide (lo ≤ k) && decide (k < hi)) = false := by
    rcases h with h | h
    · simp [Nat.not_le.2 h]
    · simp [Nat.not_lt.2 h]
  simp [Memory.bg, Memory.scramble, this]

theorem Memory.scramble_wf {m : Memory} (h : m.wf = true) (lo hi e : Nat) : (m.scramble lo hi e).wf = true := by
  have hd := Tab.wf_drop h (fun k => decide (lo ≤ k) && decide (k < hi))
  simp only [Memory.wf, Tab.wf, Bool.and_eq_true, List.all_eq_true, decide_eq_true_eq] at hd ⊢
  refine ⟨hd.1, fun c hc => ?_⟩
  have hout : c.1 < lo ∨ hi ≤ c.1 := by
    have hf := List.of_mem_filter hc
    simp only [Bool.not_eq_true', Bool.and_eq_false_iff, decide_eq_false_iff_not] at hf
    omega
  rw [Memory.bg_scramble m hout]
  exact hd.2 c hc

/-- The memory of the reset state has the canonical form. -/
theorem State.reset_mem_wf : State.reset.mem.wf = true := rfl

/-! Device addresses. -/

/-- Writing bytes at device addresses changes memory and nothing else. -/
theorem State.wrBytes_frame (s : State) (a : Nat) (bs : List Byte) : ∃ m, s.wrBytes a bs = { s with mem := m } := by
  induction bs generalizing s a with
  | nil => exact ⟨s.mem, rfl⟩
  | cons b bs ih =>
    unfold State.wrBytes
    split
    · obtain ⟨m, hm⟩ := ih { s with mem := s.mem.write _ b } (a + 1)
      exact ⟨m, hm⟩
    · exact ih s (a + 1)

theorem State.wrBytes_wf {s : State} (h : s.mem.wf = true) (a : Nat) (bs : List Byte) : (s.wrBytes a bs).mem.wf = true := by
  induction bs generalizing s a with
  | nil => exact h
  | cons b bs ih =>
    unfold State.wrBytes
    split
    · exact ih (s := { s with mem := s.mem.write _ b }) (Memory.write_wf h _ b) (a + 1)
    · exact ih h (a + 1)

/-- A key that none of the written addresses reaches keeps its byte. -/
theorem State.wrBytes_read (s : State) (a : Nat) (bs : List Byte) (k : Nat) (h : ∀ i < bs.length, s.key (a + i) ≠ some k) :
    (s.wrBytes a bs).mem.read k = s.mem.read k := by
  induction bs generalizing s a with
  | nil => rfl
  | cons b bs ih =>
    have h0 := h 0 (by simp)
    have hr : ∀ i < bs.length, s.key (a + 1 + i) ≠ some k := fun i hi => by
      have := h (i + 1) (by simpa using hi)
      rwa [show a + 1 + i = a + (i + 1) by omega]
    unfold State.wrBytes
    split
    · rename_i j hj
      rw [ih { s with mem := s.mem.write j b } (a + 1) hr]
      exact Memory.read_write_ne s.mem b fun e => h0 (by rw [Nat.add_zero, hj, e])
    · exact ih s (a + 1) hr

end Sys2Proof.Machine
end

