-- ==== Sys2Proof/Laws/Ops.lean ====
section
/-!
SUPPORT. For each shared operation, once, what it can change: when a command acts, events and interrupts, synchronisation objects, completion
of commands, faulting a context, and the store that every engine's write ends in.
-/
namespace Sys2Proof.Machine

/-! When a command acts. -/

/-- An effect that leaves the protected parts alone is whole. -/
theorem State.settle_of {s t : State} (pe : t.pending = s.pending) (nw : t.now = s.now) (st : t.strapped = s.strapped) (tp : t.tap = s.tap)
    (ei : t.eid = s.eid) (fl : t.flash = s.flash) (bo : t.boot = s.boot) : s.settle t = t := by
  obtain ⟨⟩ := t
  subst pe nw st tp ei fl bo
  rfl

theorem live_of {s : State} (h : s.tap.used = false) (r : s.rst.active = none) (f : State → State) : live s f = .next (s.settle (f s)) := by
  simp [live, h, r]

theorem liveMp_of {s : State} (h : s.tap.used = false) (r : s.rst.active = none) (f : State → State) :
    liveMp s f = .next { f s with pending := s.pending, now := s.now, strapped := s.strapped, tap := s.tap } := by
  simp [liveMp, h, r]

theorem liveReset_of {s : State} (h : s.tap.used = false) (f : State → State) : liveReset s f = .next { f s with pending := s.pending } := by
  simp [liveReset, h]

theorem live_used {s : State} (h : s.tap.used = true) (f : State → State) : live s f = .fault .boundaryScanUndefined := by simp [live, h]
theorem liveMp_used {s : State} (h : s.tap.used = true) (f : State → State) : liveMp s f = .fault .boundaryScanUndefined := by
  simp [liveMp, h]
theorem liveReset_used {s : State} (h : s.tap.used = true) (f : State → State) : liveReset s f = .fault .boundaryScanUndefined := by
  simp [liveReset, h]

theorem live_held {s : State} (h : s.tap.used = false) (r : s.rst.active.isSome = true) (f : State → State) : live s f = .next s := by
  simp [live, h, r]
theorem liveMp_held {s : State} (h : s.tap.used = false) (r : s.rst.active.isSome = true) (f : State → State) : liveMp s f = .next s := by
  simp [liveMp, h, r]

/-- All that a functional command can do: stop where boundary cells have driven the outputs, wait out a module reset, or have its effect. -/
theorem live_next {s t : State} {f : State → State} (h : live s f = .next t) :
    s.tap.used = false ∧ ((s.rst.active.isSome = true ∧ t = s) ∨ (s.rst.active = none ∧ t = s.settle (f s))) := by
  unfold live at h
  split at h
  · cases h
  · rename_i hu
    refine ⟨by simpa using hu, ?_⟩
    split at h
    · rename_i hr; cases h; exact .inl ⟨hr, rfl⟩
    · rename_i hr; cases h; exact .inr ⟨by simpa using hr, rfl⟩

theorem liveMp_next {s t : State} {f : State → State} (h : liveMp s f = .next t) :
    s.tap.used = false ∧ ((s.rst.active.isSome = true ∧ t = s) ∨
      (s.rst.active = none ∧ t = { f s with pending := s.pending, now := s.now, strapped := s.strapped, tap := s.tap })) := by
  unfold liveMp at h
  split at h
  · cases h
  · rename_i hu
    refine ⟨by simpa using hu, ?_⟩
    split at h
    · rename_i hr; cases h; exact .inl ⟨hr, rfl⟩
    · rename_i hr; cases h; exact .inr ⟨by simpa using hr, rfl⟩

theorem liveReset_next {s t : State} {f : State → State} (h : liveReset s f = .next t) :
    s.tap.used = false ∧ t = { f s with pending := s.pending } := by
  unfold liveReset at h
  split at h
  · cases h
  · rename_i hu; cases h; exact ⟨by simpa using hu, rfl⟩

/-- Noting that a hub engine has moved touches the stall counters' own books alone. -/
theorem State.hubMoved_eq (s : State) (e : Nat) : ∃ x, s.hubMoved e = { s with tel := x } := by
  unfold State.hubMoved
  split
  · exact ⟨s.tel, rfl⟩
  · exact ⟨_, rfl⟩

/-! Events: memory, the host interface, what leaves the module, the PLDM queue and ALERT_N, and nothing else. -/

/-- What raising an event can change; memory keeps its canonical form. -/
def Raised (s t : State) : Prop :=
  (∃ m h o p b, t = { s with mem := m, hif := h, out := o, pldm := p, pins := { s.pins with alertN := b } }) ∧ (s.mem.wf = true → t.mem.wf = true)

theorem Raised.refl (s : State) : Raised s s := ⟨⟨s.mem, s.hif, s.out, s.pldm, s.pins.alertN, rfl⟩, id⟩
theorem Raised.trans {s t u : State} (h : Raised s t) (k : Raised t u) : Raised s u := by
  obtain ⟨⟨m, h, o, p, q, rfl⟩, hw⟩ := h
  obtain ⟨⟨m', h', o', p', q', rfl⟩, kw⟩ := k
  exact ⟨⟨m', h', o', p', q', rfl⟩, kw ∘ hw⟩
theorem Raised.hif (s : State) (x : Hif) : Raised s { s with hif := x } := ⟨⟨s.mem, x, s.out, s.pldm, s.pins.alertN, rfl⟩, id⟩
theorem Raised.out (s : State) (x : List Out) : Raised s { s with out := x } := ⟨⟨s.mem, s.hif, x, s.pldm, s.pins.alertN, rfl⟩, id⟩
theorem Raised.alert (s : State) (x : List (BitVec 16)) (b : Bool) : Raised s { s with pldm := x, pins := { s.pins with alertN := b } } :=
  ⟨⟨s.mem, s.hif, s.out, x, b, rfl⟩, id⟩
theorem Raised.writeN (s : State) (k : Nat) (bs : List Byte) : Raised s { s with mem := s.mem.writeN k bs } :=
  ⟨⟨s.mem.writeN k bs, s.hif, s.out, s.pldm, s.pins.alertN, rfl⟩, fun h => Memory.writeN_wf h k bs⟩

theorem State.msix_raised (s : State) (v : Nat) : Raised s (s.msix v) := by
  unfold State.msix
  split
  · exact .refl s
  · extract_lets e
    split
    · exact .hif s _
    · exact .out s _

@[simp] theorem State.msix_mem (s : State) (v : Nat) : (s.msix v).mem = s.mem := by
  unfold State.msix
  split
  · rfl
  · extract_lets e
    split <;> rfl

theorem State.setEvring_raised (s : State) (n : Nat) (x : EvRing) : Raised s (s.setEvring n x) := .hif s _

theorem State.writeRecord_raised (s : State) (n : Nat) (e : Event) : Raised s (s.writeRecord n e) := by
  unfold State.writeRecord
  extract_lets r phase bs at_ s1 due r1 s2
  have h2 : Raised s s2 := (Raised.writeN s _ _).trans (State.setEvring_raised s1 n r1)
  split
  · exact h2.trans (State.msix_raised _ _)
  · exact h2

/-- A record lands in its slot: the only bytes that an event writes. -/
theorem State.writeRecord_mem (s : State) (n : Nat) (e : Event) : ∃ a bs, (s.writeRecord n e).mem = s.mem.writeN (hostKey a) bs := by
  unfold State.writeRecord
  extract_lets r phase bs at_ s1 due r1 s2
  refine ⟨at_, bs, ?_⟩
  split
  · rw [State.msix_mem]; rfl
  · rfl

theorem State.loseEvent_raised (s : State) (n : Nat) : Raised s (s.loseEvent n) := .hif s _

theorem State.place_raised (s : State) (n : Nat) (e : Event) : Raised s (s.place n e) := by
  unfold State.place
  extract_lets r src o s1 r1
  split
  · split
    · split
      · exact .hif s _
      · exact s.loseEvent_raised 0
    · exact .refl s
  · split
    · exact s.loseEvent_raised n
    · split
      · exact s.loseEvent_raised n
      · split
        · exact ((s.writeRecord_raised n o).trans (State.loseEvent_raised _ n)).trans (State.setEvring_raised s1 n _)
        · exact s.writeRecord_raised n e

theorem State.raiseOn_raised (s : State) (ring code : Nat) (ctx : BitVec 16) (source : Nat) (payload : List Byte) :
    Raised s (s.raiseOn ring code ctx source payload) := by
  unfold State.raiseOn
  extract_lets e src s1 s2 src2 s3
  have h2 : Raised s s2 := (Raised.hif s _).trans (Raised.out s1 _)
  have h3 : Raised s2 s3 := by
    simp only [s3]
    split
    · exact .alert s2 _ _
    · exact .refl s2
  exact (h2.trans h3).trans (State.place_raised _ _ _)

theorem State.raiseCtx_raised (s : State) (c code source : Nat) (p : List Byte) : Raised s (s.raiseCtx c code source p) := State.raiseOn_raised ..
theorem State.raise0_raised (s : State) (code source : Nat) (p : List Byte) : Raised s (s.raise0 code source p) := State.raiseOn_raised ..

theorem State.stale_raised (s : State) (src id : BitVec 16) (vc : Nat) (port : Option Nat) : Raised s (s.stale src id vc port) := by
  unfold State.stale
  extract_lets src s1 src2 s2
  split
  · exact .hif s _
  · exact ((Raised.hif s _).trans (Raised.hif s1 _)).trans (State.raise0_raised _ _ _ _)

theorem State.raiseCvec_raised (s : State) (ring : Nat) : Raised s (s.raiseCvec ring) := by
  unfold State.raiseCvec
  split
  · split
    · exact s.msix_raised _
    · exact .refl s
  · exact .refl s

theorem State.setCmds_raised (s : State) (l : List Cmd) : Raised s (s.setCmds l) := .hif s _
theorem State.updCmd_raised (s : State) (k : CmdKey) (f : Cmd → Cmd) : Raised s (s.updCmd k f) := .hif s _
theorem State.dropCmd_raised (s : State) (k : CmdKey) : Raised s (s.dropCmd k) := .hif s _
theorem State.setRing_raised (s : State) (r : Nat) (x : Option Ring) : Raised s (s.setRing r x) := .hif s _

theorem State.adminDone_raised (s : State) (r : AdminReq) (status : Nat) : Raised s (s.adminDone r status) := by
  unfold State.adminDone
  exact State.raiseOn_raised ..

theorem State.finishDelete_raised (s : State) (ring : Nat) : Raised s (s.finishDelete ring) := by
  unfold State.finishDelete
  split
  · split
    · split
      · exact .refl s
      · extract_lets s1
        have h1 : Raised s s1 := State.setRing_raised s ring none
        split
        · exact h1.trans (State.adminDone_raised _ _ _)
        · exact h1
    · exact .refl s
  · exact .refl s

theorem State.rejectDesc_raised (s : State) (k : CmdKey) (ctx : BitVec 16) (tag evring reason detail : Nat) :
    Raised s (s.rejectDesc k ctx tag evring reason detail) := State.raiseOn_raised ..

/-! Completion of commands: what raising changes, the synchronisation objects, and the cyclic tables. -/

/-- What completing a command can change; memory keeps its canonical form. -/
def Completed (s t : State) : Prop :=
  (∃ m h o p q y c, t = { s with mem := m, hif := h, out := o, pldm := p, pins := { s.pins with alertN := q }, sync := y, tables := c })
    ∧ (s.mem.wf = true → t.mem.wf = true)

theorem Completed.refl (s : State) : Completed s s := ⟨⟨s.mem, s.hif, s.out, s.pldm, s.pins.alertN, s.sync, s.tables, rfl⟩, id⟩
theorem Completed.trans {s t u : State} (h : Completed s t) (k : Completed t u) : Completed s u := by
  obtain ⟨⟨m, h, o, p, q, y, c, rfl⟩, hw⟩ := h
  obtain ⟨⟨m', h', o', p', q', y', c', rfl⟩, kw⟩ := k
  exact ⟨⟨m', h', o', p', q', y', c', rfl⟩, kw ∘ hw⟩
theorem Raised.completed {s t : State} (h : Raised s t) : Completed s t := by
  obtain ⟨⟨m, h, o, p, q, rfl⟩, hw⟩ := h
  exact ⟨⟨m, h, o, p, q, s.sync, s.tables, rfl⟩, hw⟩
theorem Completed.sync (s : State) (y : Sync) : Completed s { s with sync := y } :=
  ⟨⟨s.mem, s.hif, s.out, s.pldm, s.pins.alertN, y, s.tables, rfl⟩, id⟩
theorem Completed.tables (s : State) (c : Tab CTable) : Completed s { s with tables := c } :=
  ⟨⟨s.mem, s.hif, s.out, s.pldm, s.pins.alertN, s.sync, c, rfl⟩, id⟩

theorem State.signal_completed (s : State) (o : Nat) (n : Word) : Completed s (s.signal o n) := .sync s _
theorem State.setSync_completed (s : State) (o : Nat) (v : Word) : Completed s (s.setSync o v) := .sync s _
theorem State.enqueue_completed (s : State) (ws : List (Nat × Wait)) : Completed s (s.enqueue ws) := .sync s _
theorem State.consume_completed (s : State) (w : Waiter) : Completed s (s.consume w) := .sync s _

theorem State.signalRel_completed (s : State) (c i : Nat) (n : Word) : Completed s (s.signalRel c i n) := by
  unfold State.signalRel
  split
  · exact .refl s
  · split
    · exact s.signal_completed _ _
    · exact .refl s

theorem State.settleTable_completed (s : State) (t : Nat) : Completed s (s.settleTable t) := by
  unfold State.settleTable
  extract_lets x s1
  have h1 : Completed s s1 := .tables s _
  split
  · split
    · exact h1.trans (State.updCmd_raised _ _ _).completed
    · exact h1
  · exact .refl s

theorem State.instanceDone_completed (s : State) (k : CmdKey) : Completed s (s.instanceDone k) := by
  unfold State.instanceDone
  split
  · exact .refl s
  · exact (Completed.tables s _).trans (State.settleTable_completed (s.setTable _ _) _)

/-- All that completing a command can change. -/
theorem State.complete_completed (s : State) (c : Cmd) (status result gen : Nat) : Completed s (s.complete c status result gen) := by
  unfold State.complete
  extract_lets s1 s2 s3 s4 s5
  have h2 : Completed s s2 := (s.dropCmd_raised c.key).completed.trans (.sync s1 _)
  have h3 : Completed s2 s3 := by
    simp only [s3]
    split
    · exact s2.signalRel_completed _ _ _
    · exact .refl s2
  have h4 : Completed s3 s4 := by
    simp only [s4]
    split
    · exact (State.raiseOn_raised ..).completed
    · exact .refl s3
  have h5 : Completed s4 s5 := by
    simp only [s5]
    split
    · exact (s4.raiseCvec_raised _).completed
    · exact .refl s4
  exact ((((h2.trans h3).trans h4).trans h5).trans (s5.instanceDone_completed _)).trans (State.finishDelete_raised _ _).completed

/-- A relation that every step of a fold keeps. -/
theorem foldl_keeps {α : Type} {r : State → State → Prop} (refl : ∀ s, r s s) (trans : ∀ {s t u}, r s t → r t u → r s u)
    {f : State → α → State} (h : ∀ s x, r s (f s x)) (l : List α) (s : State) : r s (l.foldl f s) := by
  induction l generalizing s with
  | nil => exact refl s
  | cons x l ih => exact trans (h s x) (ih (f s x))

theorem State.completeAll_completed (s : State) (p : Cmd → Bool) (status : Nat) : Completed s (s.completeAll p status) :=
  foldl_keeps Completed.refl Completed.trans (fun s c => s.complete_completed c status 0 0) _ s

/-! Faulting a context: what completing changes, the contexts, the RUNs, the engines' work, the check-value units its records held, the arrays'
loads, and the free values that abandoned loads leave. -/

/-- What faulting a context can change; memory keeps its canonical form. -/
def Faulted (s t : State) : Prop :=
  (∃ m h o p q y c x r e a k n,
    t = { s with mem := m, hif := h, out := o, pldm := p, pins := { s.pins with alertN := q }, sync := y, tables := c, ctxs := x, runs := r, engines := e, arrays := a, chk := k, fresh := n })
    ∧ (s.mem.wf = true → t.mem.wf = true)

theorem Faulted.refl (s : State) : Faulted s s :=
  ⟨⟨s.mem, s.hif, s.out, s.pldm, s.pins.alertN, s.sync, s.tables, s.ctxs, s.runs, s.engines, s.arrays, s.chk, s.fresh, rfl⟩, id⟩
theorem Faulted.trans {s t u : State} (h : Faulted s t) (k : Faulted t u) : Faulted s u := by
  obtain ⟨⟨m, h, o, p, q, y, c, x, r, e, a, b, n, rfl⟩, hw⟩ := h
  obtain ⟨⟨m', h', o', p', q', y', c', x', r', e', a', b', n', rfl⟩, kw⟩ := k
  exact ⟨⟨m', h', o', p', q', y', c', x', r', e', a', b', n', rfl⟩, kw ∘ hw⟩
theorem Completed.faulted {s t : State} (h : Completed s t) : Faulted s t := by
  obtain ⟨⟨m, h, o, p, q, y, c, rfl⟩, hw⟩ := h
  exact ⟨⟨m, h, o, p, q, y, c, s.ctxs, s.runs, s.engines, s.arrays, s.chk, s.fresh, rfl⟩, hw⟩
theorem Faulted.setCtx (s : State) (c : Nat) (x : Ctx) : Faulted s (s.setCtx c x) :=
  ⟨⟨s.mem, s.hif, s.out, s.pldm, s.pins.alertN, s.sync, s.tables, _, s.runs, s.engines, s.arrays, s.chk, s.fresh, rfl⟩, id⟩
theorem Faulted.setArray (s : State) (a : Nat) (x : ArrayUnit) : Faulted s (s.setArray a x) :=
  ⟨⟨s.mem, s.hif, s.out, s.pldm, s.pins.alertN, s.sync, s.tables, s.ctxs, s.runs, s.engines, _, s.chk, s.fresh, rfl⟩, id⟩
theorem Faulted.tick (s : State) : Faulted s s.tick :=
  ⟨⟨s.mem, s.hif, s.out, s.pldm, s.pins.alertN, s.sync, s.tables, s.ctxs, s.runs, s.engines, s.arrays, s.chk, _, rfl⟩, id⟩
theorem Faulted.engines (s : State) (y : Sync) (e : Tab Engine) : Faulted s { s with sync := y, engines := e } :=
  ⟨⟨s.mem, s.hif, s.out, s.pldm, s.pins.alertN, y, s.tables, s.ctxs, s.runs, e, s.arrays, s.chk, s.fresh, rfl⟩, id⟩
theorem Faulted.runs (s : State) (r : List Run) : Faulted s { s with runs := r } :=
  ⟨⟨s.mem, s.hif, s.out, s.pldm, s.pins.alertN, s.sync, s.tables, s.ctxs, r, s.engines, s.arrays, s.chk, s.fresh, rfl⟩, id⟩

/-- What abandoning loads can change: the arrays, and the counter of free values for what the loads leave. -/
def Abandoned (s t : State) : Prop := ∃ a n, t = { s with arrays := a, fresh := n }

theorem Abandoned.refl (s : State) : Abandoned s s := ⟨s.arrays, s.fresh, rfl⟩
theorem Abandoned.trans {s t u : State} (h : Abandoned s t) (k : Abandoned t u) : Abandoned s u := by
  obtain ⟨a, n, rfl⟩ := h
  obtain ⟨a', n', rfl⟩ := k
  exact ⟨a', n', rfl⟩
theorem Abandoned.setArray (s : State) (a : Nat) (x : ArrayUnit) : Abandoned s (s.setArray a x) := ⟨_, s.fresh, rfl⟩
theorem Abandoned.faulted {s t : State} (h : Abandoned s t) : Faulted s t := by
  obtain ⟨a, n, rfl⟩ := h
  exact ⟨⟨s.mem, s.hif, s.out, s.pldm, s.pins.alertN, s.sync, s.tables, s.ctxs, s.runs, s.engines, a, s.chk, n, rfl⟩, id⟩

/-- All that abandoning an array's loads can change. -/
theorem State.abandonLoads_abandoned (s : State) (a : Nat) : Abandoned s (s.abandonLoads a) := by
  unfold State.abandonLoads
  extract_lets began s1
  have h1 : Abandoned s s1 := by
    refine foldl_keeps Abandoned.refl Abandoned.trans (fun u reg => ?_) _ s
    split
    · exact ⟨_, _, rfl⟩
    · exact .refl u
  exact h1.trans (Abandoned.setArray s1 a _)

theorem State.abandonCtxLoads_abandoned (s : State) (c : Nat) : Abandoned s (s.abandonCtxLoads c) := by
  unfold State.abandonCtxLoads
  refine foldl_keeps Abandoned.refl Abandoned.trans (fun u a => ?_) _ s
  split
  · split
    · exact u.abandonLoads_abandoned a
    · exact .refl u
  · exact .refl u

theorem State.freeUnits_faulted (s : State) (es : List Nat) : Faulted s (s.freeUnits es) :=
  ⟨⟨s.mem, s.hif, s.out, s.pldm, s.pins.alertN, s.sync, s.tables, s.ctxs, s.runs, s.engines, s.arrays, _, s.fresh, rfl⟩, id⟩

/-- All that abandoning a context's work can change. -/
theorem State.abandonCtx_eq (s : State) (c : Nat) :
    ∃ y a k n, s.abandonCtx c = { s with sync := y, engines := abandonWork c s.engines, arrays := a, chk := k, fresh := n } := by
  unfold State.abandonCtx
  have e := s.abandonCtxLoads_abandoned c
  generalize s.abandonCtxLoads c = v at e ⊢
  extract_lets s1 gone s2 s3
  have e3 : ∃ y k, s3 = { v with sync := y, chk := k, engines := abandonWork c v.engines } := ⟨s3.sync, s3.chk, rfl⟩
  clear_value s3
  generalize List.range 8 = l
  obtain ⟨b, m, e4⟩ : Abandoned s3 _ :=
    foldl_keeps (f := fun (s : State) i => s.setArray i { s.array i with bankWait := (s.array i).bankWait.filter fun e => !gone.contains e })
      Abandoned.refl Abandoned.trans (fun u i => Abandoned.setArray u i _) l s3
  obtain ⟨a, n, rfl⟩ := e
  obtain ⟨y, k, rfl⟩ := e3
  exact ⟨y, b, k, m, e4⟩

theorem State.abandonCtx_faulted (s : State) (c : Nat) : Faulted s (s.abandonCtx c) := by
  obtain ⟨y, a, k, n, e⟩ := s.abandonCtx_eq c
  rw [e]
  exact ⟨⟨s.mem, s.hif, s.out, s.pldm, s.pins.alertN, y, s.tables, s.ctxs, s.runs, _, a, k, n, rfl⟩, id⟩

/-- All that faulting a context can change. -/
theorem State.faultCtx_faulted (s : State) (c cause array code source detail : Nat) : Faulted s (s.faultCtx c cause array code source detail) := by
  unfold State.faultCtx
  extract_lets x mine tag s1 s2 s3 s4 s5 code'
  have h2 : Faulted s s2 := (Faulted.setCtx s c _).trans (s1.abandonCtx_faulted c)
  have h4 : Faulted s2 s4 := ((s2.completeAll_completed _ 2).trans (s3.completeAll_completed _ 2)).faulted
  have h5 : Faulted s s5 := (h2.trans h4).trans (Faulted.runs s4 _)
  split
  · exact .refl s
  · exact h5.trans (State.raiseCtx_raised _ _ _ _ _).completed.faulted

/-! The store: what raising changes, HBM's own state, the repair record and the caches. -/

/-- Of the boot flash only the repair record differs. -/
def Repaired (f g : Flash) : Prop := g = { f with marks := g.marks, condemned := g.condemned, reasons := g.reasons }

theorem Repaired.refl (f : Flash) : Repaired f f := rfl
theorem Repaired.trans {f g h : Flash} (a : Repaired f g) (b : Repaired g h) : Repaired f h := by
  unfold Repaired at *
  rw [b, a]

/-- What a store can change; memory keeps its canonical form. -/
def Stored (s t : State) : Prop :=
  (∃ m h o p q b f d, t = { s with mem := m, hif := h, out := o, pldm := p, pins := { s.pins with alertN := q }, hbm := b, flash := f, dsc := d })
    ∧ (s.mem.wf = true → t.mem.wf = true) ∧ Repaired s.flash t.flash

theorem Stored.refl (s : State) : Stored s s :=
  ⟨⟨s.mem, s.hif, s.out, s.pldm, s.pins.alertN, s.hbm, s.flash, s.dsc, rfl⟩, id, .refl _⟩
theorem Stored.trans {s t u : State} (h : Stored s t) (k : Stored t u) : Stored s u := by
  obtain ⟨⟨m, h, o, p, q, b, f, d, rfl⟩, hw, hr⟩ := h
  obtain ⟨⟨m', h', o', p', q', b', f', d', rfl⟩, kw, kr⟩ := k
  exact ⟨⟨m', h', o', p', q', b', f', d', rfl⟩, kw ∘ hw, hr.trans kr⟩
theorem Raised.stored {s t : State} (h : Raised s t) : Stored s t := by
  obtain ⟨⟨m, h, o, p, q, rfl⟩, hw⟩ := h
  exact ⟨⟨m, h, o, p, q, s.hbm, s.flash, s.dsc, rfl⟩, hw, .refl _⟩
theorem Stored.hbm (s : State) (b : Mem) : Stored s { s with hbm := b } :=
  ⟨⟨s.mem, s.hif, s.out, s.pldm, s.pins.alertN, b, s.flash, s.dsc, rfl⟩, id, .refl _⟩
theorem Stored.flash (s : State) (f : Flash) (h : Repaired s.flash f) : Stored s { s with flash := f } :=
  ⟨⟨s.mem, s.hif, s.out, s.pldm, s.pins.alertN, s.hbm, f, s.dsc, rfl⟩, id, h⟩
theorem Stored.dsc (s : State) (d : Tab Dsc) : Stored s { s with dsc := d } :=
  ⟨⟨s.mem, s.hif, s.out, s.pldm, s.pins.alertN, s.hbm, s.flash, d, rfl⟩, id, .refl _⟩

theorem State.condemn_stored (s : State) (n c reason : Nat) : Stored s (s.condemn n c reason) := by
  unfold State.condemn
  split
  · exact .refl s
  · extract_lets f s1
    have h1 : Stored s s1 := .flash s _ rfl
    exact h1.trans (s1.raise0_raised _ _ _).stored

theorem State.countUe_stored (s : State) (n q : Nat) : Stored s (s.countUe n q) := by
  unfold State.countUe
  extract_lets k ch s1
  have h1 : Stored s s1 := .hbm s _
  split
  · exact h1.trans (s1.condemn_stored _ _ _)
  · exact h1

theorem State.mergeCodeword_stored (s : State) (a n c : Nat) : Stored s (s.mergeCodeword a n c) := by
  unfold State.mergeCodeword
  extract_lets cwA cw
  split
  · exact .refl s
  · split
    · exact .hbm s _
    · split
      · exact (State.raise0_raised _ _ _ _).stored.trans (State.countUe_stored _ _ _)
      · exact .refl s

theorem State.snoop_stored (s : State) (a n : Nat) : Stored s (s.snoop a n) := by
  unfold State.snoop
  split
  · exact .refl s
  · extract_lets d hit hits pre bump lines
    split
    · exact .refl s
    · exact .dsc s _

theorem State.dropClean_stored (s : State) (a n : Nat) : Stored s (s.dropClean a n) := by
  unfold State.dropClean
  split
  · exact .refl s
  · exact .hbm s _

theorem State.wrBytes_stored (s : State) (a : Nat) (bs : List Byte) : Stored s (s.wrBytes a bs) := by
  obtain ⟨m, hm⟩ := s.wrBytes_frame a bs
  exact ⟨⟨m, s.hif, s.out, s.pldm, s.pins.alertN, s.hbm, s.flash, s.dsc, hm⟩, fun h => State.wrBytes_wf h a bs, by rw [hm]; exact .refl _⟩

/-- All that a store can change. -/
theorem State.store_stored (s : State) (a : Nat) (bs : List Byte) : Stored s (s.store a bs) := by
  unfold State.store
  split
  · exact .refl s
  · extract_lets s1 s2
    have h1 : Stored s s1 := s.wrBytes_stored a bs
    have h2 : Stored s1 s2 := by
      simp only [s2]
      split
      · exact foldl_keeps Stored.refl Stored.trans (fun s c => s.mergeCodeword_stored a bs.length c) _ _
      · exact .refl s1
    exact ((h1.trans h2).trans (s2.snoop_stored _ _)).trans (State.dropClean_stored _ _ _)

/-- All that leaving a plan's slots in the partition can change. -/
theorem State.leavePlan_stored (s : State) (j : Nat) : Stored s (s.leavePlan j) := by
  unfold State.leavePlan
  split
  · refine foldl_keeps Stored.refl Stored.trans (fun u e => ?_) _ s
    split
    · refine foldl_keeps Stored.refl Stored.trans (fun v x => ?_) _ u
      split
      · exact v.store_stored _ _
      · exact .refl v
    · exact .refl u
  · exact .refl s

end Sys2Proof.Machine
end

