-- ==== Sys2Proof/Laws/Frame.lean ====
section
/-!
SUPPORT. From what an operation can change to the frame of the command that performs it.
-/
namespace Sys2Proof.Machine

theorem ChangesOnly.settle {l : List Part} {s t : State} (h : ChangesOnly l s t) : ChangesOnly l s (s.settle t) := by
  intro p hp
  have := h p hp
  cases p <;> simp only [Part.Same, State.settle] at this ⊢ <;> simp [this]

/-- Settling leaves an effect as it is that reaches nothing of the settled parts. -/
theorem settle_only {l : List Part} {s t : State} (h : ChangesOnly l s t)
    (hl : ∀ p ∈ [Part.pending, .now, .strapped, .tap, .eid, .flash, .boot], p ∉ l) : s.settle t = t := by
  have h1 := h .pending (hl _ (by decide))
  have h2 := h .now (hl _ (by decide))
  have h3 := h .strapped (hl _ (by decide))
  have h4 := h .tap (hl _ (by decide))
  have h5 := h .eid (hl _ (by decide))
  have h6 := h .flash (hl _ (by decide))
  have h7 := h .boot (hl _ (by decide))
  simp only [Part.Same] at *
  cases t
  simp only at *
  subst h1 h2 h3 h4 h5 h6 h7
  rfl

theorem ChangesOnly.mono {l m : List Part} {s t : State} (h : ChangesOnly l s t) (hl : ∀ p ∈ l, p ∈ m) : ChangesOnly m s t :=
  fun p hp => h p fun hq => hp (hl p hq)

theorem ChangesOnly.refl (l : List Part) (s : State) : ChangesOnly l s s := by
  intro p _
  cases p <;> rfl

theorem ChangesOnly.trans {l : List Part} {s t u : State} (h : ChangesOnly l s t) (k : ChangesOnly l t u) : ChangesOnly l s u := by
  intro p hp
  have h := h p hp
  have k := k p hp
  cases p <;> simp only [Part.Same] at * <;> simp [h, k]

/-- What completing changes, settling leaves as it is: none of it belongs to the commands named for the settled parts. -/
theorem settle_completed {s t : State} (h : Completed s t) : s.settle t = t := by
  obtain ⟨⟨m, a, o, p, q, y, c, rfl⟩, -⟩ := h
  rfl

theorem settle_raised {s t : State} (h : Raised s t) : s.settle t = t := settle_completed h.completed

theorem settle_faulted {s t : State} (h : Faulted s t) : s.settle t = t := by
  obtain ⟨⟨m, a, o, p, q, y, c, x, r, e, u, k, n, rfl⟩, -⟩ := h
  rfl

theorem Raised.only {s t : State} (h : Raised s t) : ChangesOnly [.mem, .hif, .out, .pldm, .pins] s t := by
  obtain ⟨⟨m, a, o, p, q, rfl⟩, -⟩ := h
  intro p hp
  cases p <;> first | (exfalso; revert hp; decide) | rfl

theorem Completed.only {s t : State} (h : Completed s t) : ChangesOnly [.mem, .hif, .out, .pldm, .pins, .sync, .tables] s t := by
  obtain ⟨⟨m, a, o, p, q, y, c, rfl⟩, -⟩ := h
  intro p hp
  cases p <;> first | (exfalso; revert hp; decide) | rfl

theorem Faulted.only {s t : State} (h : Faulted s t) :
    ChangesOnly [.mem, .hif, .out, .pldm, .pins, .sync, .tables, .ctxs, .runs, .engines, .arrays, .chk, .fresh] s t := by
  obtain ⟨⟨m, a, o, p, q, y, c, x, r, e, u, k, n, rfl⟩, -⟩ := h
  intro p hp
  cases p <;> first | (exfalso; revert hp; decide) | rfl

theorem Stored.only {s t : State} (h : Stored s t) : ChangesOnly [.mem, .hif, .out, .pldm, .pins, .hbm, .flash, .dsc] s t := by
  obtain ⟨⟨m, a, o, p, q, b, f, d, rfl⟩, -, -⟩ := h
  intro p hp
  cases p <;> first | (exfalso; revert hp; decide) | rfl

/-! The frames of the setters. -/

theorem State.setCtx_only (s : State) (c : Nat) (x : Ctx) : ChangesOnly [.ctxs] s (s.setCtx c x) := by
  intro p hp
  cases p <;> first | (exfalso; revert hp; decide) | rfl

theorem State.setArray_only (s : State) (a : Nat) (x : ArrayUnit) : ChangesOnly [.arrays] s (s.setArray a x) := by
  intro p hp
  cases p <;> first | (exfalso; revert hp; decide) | rfl

theorem State.setEngine_only (s : State) (e : Nat) (x : Engine) : ChangesOnly [.engines] s (s.setEngine e x) := by
  intro p hp
  cases p <;> first | (exfalso; revert hp; decide) | rfl

theorem State.setPort_only (s : State) (p : Nat) (x : Port) : ChangesOnly [.fab] s (s.setPort p x) := by
  intro p hp
  cases p <;> first | (exfalso; revert hp; decide) | rfl

theorem State.setStack_only (s : State) (n : Nat) (x : Stack) : ChangesOnly [.hbm] s (s.setStack n x) := by
  intro p hp
  cases p <;> first | (exfalso; revert hp; decide) | rfl

theorem State.setDsc_only (s : State) (d : Nat) (x : Dsc) : ChangesOnly [.dsc] s (s.setDsc d x) := by
  intro p hp
  cases p <;> first | (exfalso; revert hp; decide) | rfl

theorem State.setTable_only (s : State) (t : Nat) (x : CTable) : ChangesOnly [.tables] s (s.setTable t x) := by
  intro p hp
  cases p <;> first | (exfalso; revert hp; decide) | rfl

theorem State.setRing_only (s : State) (r : Nat) (x : Option Ring) : ChangesOnly [.hif] s (s.setRing r x) := by
  intro p hp
  cases p <;> first | (exfalso; revert hp; decide) | rfl

theorem State.setEvring_only (s : State) (n : Nat) (x : EvRing) : ChangesOnly [.hif] s (s.setEvring n x) := by
  intro p hp
  cases p <;> first | (exfalso; revert hp; decide) | rfl

theorem State.setPlan_only (s : State) (j : Nat) (x : Option Plan) : ChangesOnly [.red] s (s.setPlan j x) := by
  intro p hp
  cases p <;> first | (exfalso; revert hp; decide) | rfl

theorem State.sendOut_only (s : State) (o : Out) : ChangesOnly [.out] s (s.sendOut o) := by
  intro p hp
  cases p <;> first | (exfalso; revert hp; decide) | rfl

theorem State.tick_only (s : State) : ChangesOnly [.fresh] s (s.tick) := by
  intro p hp
  cases p <;> first | (exfalso; revert hp; decide) | rfl

theorem State.inject_only (s : State) (p : Packet) : ChangesOnly [.fab] s (s.inject p) := by
  intro p hp
  cases p <;> first | (exfalso; revert hp; decide) | rfl

end Sys2Proof.Machine
end

