-- ==== Sys2Proof/Laws/Ports.lean ====
section
/-!
SUPPORT. What the operations on ports and packets can change.
-/
namespace Sys2Proof.Machine

/-- One setter's frame, and the frame of a whole record built on an earlier one. -/
theorem ChangesOnly.fab (s : State) (x : Fab) : ChangesOnly [.fab] s { s with fab := x } := by
  intro p hp
  cases p <;> first | rfl | (exfalso; revert hp; decide)

theorem ChangesOnly.out (s : State) (x : List Out) : ChangesOnly [.out] s { s with out := x } := by
  intro p hp
  cases p <;> first | rfl | (exfalso; revert hp; decide)

theorem ChangesOnly.hif (s : State) (x : Hif) : ChangesOnly [.hif] s { s with hif := x } := by
  intro p hp
  cases p <;> first | rfl | (exfalso; revert hp; decide)

theorem State.countDrop_only (s : State) (i k : Nat) : ChangesOnly [.fab] s (s.countDrop i k) := .fab s _

theorem State.freeFlits_only (s : State) (port : Option Nat) (p : Packet) : ChangesOnly [.fab, .out] s (s.freeFlits port p) := by
  unfold State.freeFlits
  split
  · exact .refl _ s
  · extract_lets x v x1 s1 a
    have h1 : ChangesOnly [.fab, .out] s s1 := (s.setPort_only _ x1).mono (by decide)
    split
    · exact (h1.trans ((s1.setPort_only _ _).mono (by decide))).trans ((ChangesOnly.out _ _).mono (by decide))
    · exact h1

/-- All that taking a delivered packet can change. -/
theorem State.receiveIf_only {s : State} {ready : Option Nat × Packet → Bool} {p : Packet} {x : Option Nat × State}
    (h : s.receiveIf ready p = some x) : ChangesOnly [.fab, .out] s x.2 := by
  unfold State.receiveIf at h
  split at h
  · cases h
    exact ((ChangesOnly.fab s _).mono (by decide)).trans (State.freeFlits_only _ _ _)
  · cases h

theorem State.receive_only {s : State} {p : Packet} {x : Option Nat × State} (h : s.receive p = some x) : ChangesOnly [.fab, .out] s x.2 :=
  State.receiveIf_only h

theorem State.forward_only (s : State) (inp : Option Nat) (p : Packet) (out : Nat) : ChangesOnly [.fab, .out] s (s.forward inp p out) := by
  unfold State.forward
  extract_lets x a q
  split
  · exact ((s.countDrop_only 1 1).mono (by decide)).trans (State.freeFlits_only _ _ _)
  · split
    · exact ((s.countDrop_only 0 1).mono (by decide)).trans (State.freeFlits_only _ _ _)
    · exact (s.setPort_only _ _).mono (by decide)

/-- All that answering an admin request can change. -/
theorem State.answerAdmin_only (s : State) (q : AdminReq) (status : Nat) (block : List Byte) :
    ChangesOnly [.mem, .hif, .out, .pldm, .pins, .fab] s (s.answerAdmin q status block) := by
  unfold State.answerAdmin
  split
  · exact (s.adminDone_raised q status).only.mono (by decide)
  · extract_lets b p
    split
    · exact (ChangesOnly.out s _).mono (by decide)
    · split
      · exact (s.forward_only _ _ _).mono (by decide)
      · exact (s.inject_only _).mono (by decide)

theorem State.endSessions_only (s : State) (p : Nat → Bool) : ChangesOnly [.sec, .dbg, .ctxs] s (s.endSessions p) := by
  unfold State.endSessions
  extract_lets x s1
  have h1 : ChangesOnly [.sec, .dbg, .ctxs] s s1 := by
    intro q hq
    cases q <;> first | rfl | (exfalso; revert hq; decide)
  split
  · exact h1
  · refine h1.trans ?_
    intro q hq
    cases q <;> first | rfl | (exfalso; revert hq; decide)

/-- What a port's loss can change. -/
theorem State.afterDrain_only (s : State) (p : Nat) : ChangesOnly [.fab] s (s.afterDrain p) := by
  unfold State.afterDrain
  extract_lets x
  split
  · exact s.setPort_only _ _
  · exact .refl _ s

theorem foldl_only {α : Type} {l : List Part} {f : State → α → State} (h : ∀ s x, ChangesOnly l s (f s x)) (xs : List α) (s : State) :
    ChangesOnly l s (xs.foldl f s) :=
  foldl_keeps (r := ChangesOnly l) (.refl l) ChangesOnly.trans h xs s

theorem State.goDown_only (s : State) (p reason : Nat) :
    ChangesOnly [.mem, .hif, .out, .pldm, .pins, .fab, .sec, .dbg, .ctxs] s (s.goDown p reason) := by
  unfold State.goDown
  extract_lets x lost y s1 s2 s3 s4
  split
  · exact .refl _ s
  · have h1 : ChangesOnly [.mem, .hif, .out, .pldm, .pins, .fab, .sec, .dbg, .ctxs] s s1 := (s.setPort_only _ _).mono (by decide)
    have h2 : ChangesOnly [.mem, .hif, .out, .pldm, .pins, .fab, .sec, .dbg, .ctxs] s1 s2 :=
      foldl_only (fun u e => (u.freeFlits_only e.1 e.2).mono (by decide)) lost s1
    have h3 : ChangesOnly [.mem, .hif, .out, .pldm, .pins, .fab, .sec, .dbg, .ctxs] s2 s3 := (s2.countDrop_only 1 _).mono (by decide)
    have h4 : ChangesOnly [.mem, .hif, .out, .pldm, .pins, .fab, .sec, .dbg, .ctxs] s3 s4 := (s3.raise0_raised _ _ _).only.mono (by decide)
    exact ((((h1.trans h2).trans h3).trans h4).trans ((s4.endSessions_only _).mono (by decide))).trans ((State.afterDrain_only _ p).mono (by decide))

end Sys2Proof.Machine
end

