-- ==== Sys2Proof/Laws/Admin.lean ====
section
/-!
SUPPORT. Serving an admin request.
-/
namespace Sys2Proof.Machine

theorem opKnown_of {op t : Nat} (h : opAccepted op t = true) : opKnown op = true := by
  unfold opKnown
  unfold opAccepted at h ⊢
  split at h <;> simp only [List.contains_eq_mem, List.mem_cons, List.not_mem_nil, decide_eq_true_eq, or_false] at h ⊢ <;> omega

/-- A request that passed its checks is acted on, or answered STATUS 4 for its parameter block. -/
theorem State.serveAdmin_of {s u : State} {f : AdminFrom} {op : Nat} {q : AdminReq} (h : s.Serves f op q u) (ok : AdminReq → Bool)
    (act : AdminReq → State → State) : s.serveAdmin f op ok act = if ok q then act q u else u.answerAdmin q 4 [] := by
  obtain ⟨hf, hd, ho, hb, hl, hv, hk, ha, hp, hu⟩ := h
  unfold State.serveAdmin
  extract_lets e v w
  have he : e = false := by
    cases f with
    | queued => rfl
    | mctp pos r k => simp [e, show pos.val = s.boot.trayPos.toNat from hf]
  clear_value e
  subst he
  have hc : State.clearUnknown v.hif.adminQ.length v = v := by
    have e : v.hif.adminQ.head? = some q := hd
    cases hq : v.hif.adminQ with
    | nil => simp [hq] at e
    | cons x l =>
      rw [hq] at e
      cases e
      simp only [List.length_cons, State.clearUnknown, hq]
      rw [if_pos]
      simp [ho, opKnown_of ha]
  have hw : w = v := hc
  clear_value w
  subst hw
  have e : v.hif.adminQ.head? = some q := hd
  cases hq : v.hif.adminQ with
  | nil => simp [hq] at e
  | cons x l =>
    rw [hq] at e
    cases e
    dsimp only
    rw [if_neg (by simp [ho, show v.adminBusy = false from hb])]
    have hch : v.popAdmin.checkAdmin q = (u, true) := by
      unfold State.checkAdmin
      have l1 : v.popAdmin.lockedOut q.transport = false := hl
      have v1 : v.popAdmin.verifyFail q = v.verifyFail q := rfl
      rw [if_neg (by rw [l1]; simp)]
      subst hu
      have hp' : decide (4096 < q.plen) = false := by simp; omega
      by_cases h1 : op = 1
      · have hq1 : q.op = 1 := ho.trans h1
        subst h1
        simp [hq1, hk, ha, hp']
        rfl
      · have hq1 : q.op ≠ 1 := ho ▸ h1
        have v2 : v.verifyFail q = none := hv.resolve_left h1
        simp [v1, v2, hk, ho, ha, hp', h1]
        rfl
    rw [hch]

theorem liveMp_frame {l : List Part} {s t : State} (h : ChangesOnly l s t) (hl : ∀ p ∈ [Part.pending, .now, .strapped, .tap], p ∉ l) :
    { t with pending := s.pending, now := s.now, strapped := s.strapped, tap := s.tap } = t := by
  have h1 := h .pending (hl _ (by decide))
  have h2 := h .now (hl _ (by decide))
  have h3 := h .strapped (hl _ (by decide))
  have h4 := h .tap (hl _ (by decide))
  simp only [Part.Same] at h1 h2 h3 h4
  cases t
  simp_all

/-- What serving takes from the state the operation acts in: the queue of requests and the session's SEQ. -/
theorem State.Serves.only {s u : State} {f : AdminFrom} {op : Nat} {q : AdminReq} (h : s.Serves f op q u) : ChangesOnly [.hif, .sec] s u := by
  obtain ⟨hf, -, -, -, -, -, -, -, -, hu⟩ := h
  have ha : ChangesOnly [.hif, .sec] s (s.arriveAdmin f) := by
    unfold State.arriveAdmin
    split
    · exact .refl _ s
    · unfold State.mctp
      rw [if_pos (show _ = _ from hf)]
      exact (ChangesOnly.hif s _).mono (by decide)
  have hp : ChangesOnly [.hif, .sec] (s.arriveAdmin f) (s.arriveAdmin f).popAdmin := (ChangesOnly.hif _ _).mono (by decide)
  subst hu
  split
  · exact ha.trans hp
  · refine (ha.trans hp).trans ?_
    unfold State.advanceSeq
    split
    · intro p hp
      cases p <;> first | rfl | (exfalso; revert hp; decide)
    · exact .refl _ _

theorem State.requestReset_only (s : State) (r : InReset) : ChangesOnly [.rst] s (s.requestReset r) := by
  unfold State.requestReset
  by_cases h : r.scope ≤ s.resetScope
  · rw [if_pos h]; exact .refl _ s
  · rw [if_neg h]
    intro p hp
    cases p <;> first | rfl | (exfalso; revert hp; decide)

theorem State.requestSmall_only (s : State) (r : SmallReset) : ChangesOnly [.rst] s (s.requestSmall r) := by
  unfold State.requestSmall
  generalize (s.rst.small.any fun q => q.scope == r.scope && q.index == r.index) = b
  by_cases h : s.resetScope ≠ 0 ∨ b = true
  · rw [if_pos h]; exact .refl _ s
  · rw [if_neg h]
    intro p hp
    cases p <;> first | rfl | (exfalso; revert hp; decide)

end Sys2Proof.Machine
end

