-- ==== Sys2Proof/Laws/Power.lean ====
section
/-!
SUPPORT. What an evaluation of the power controller does to its cap, its readings, F and d.
-/
namespace Sys2Proof.Machine

/-- The registers that the heat of the dies leaves alone. -/
def Pwr.kept (p : Pwr) : Nat × Nat × BitVec 16 × BitVec 16 × BitVec 16 := (p.fMhz, p.duty, p.cappedW, p.uncappedW, p.capW)

theorem State.raiseThermal_pwr (u : State) (a b c d e : Nat) : (u.raiseThermal a b c d e).pwr = u.pwr :=
  (State.raise0_raised u _ _ _).only .pwr (by decide)

theorem State.readDie_kept (u : State) (d : Nat) (t : BitVec 12) : (u.readDie d t).pwr.kept = u.pwr.kept := by
  unfold State.readDie
  dsimp only
  split
  · rw [State.raiseThermal_pwr]
    split
    · rw [State.raiseThermal_pwr]; rfl
    · rfl
  · split
    · rw [State.raiseThermal_pwr]; rfl
    · rfl

theorem State.throttleDie_kept (u : State) (d : Nat) : (u.throttleDie d).pwr.kept = u.pwr.kept := by
  unfold State.throttleDie
  split <;> rfl

theorem State.refreshHot_kept (u : State) : u.refreshHot.pwr.kept = u.pwr.kept := rfl

theorem State.reclock_only (u : State) (a : Nat) : ChangesOnly [.arrays] u (u.reclock a) := by
  unfold State.reclock
  dsimp only
  split
  · exact State.setArray_only _ _ _
  · exact ChangesOnly.refl _ _

theorem State.reclockAll_only (u : State) : ChangesOnly [.arrays] u u.reclockAll := foldl_only (fun v a => v.reclock_only a) _ u

theorem State.trip_pwr (u : State) (x : PowerSample) : (u.trip x).pwr = u.pwr := by
  unfold State.trip
  split
  · unfold State.requestCold State.requestReset
    split <;> rfl
  · rfl

/-- An evaluation adjusts F and d; of the registers kept here, heat changes none. -/
theorem powerEvaluation_kept (s : State) (x : PowerSample) : (powerEvaluation x s).pwr.kept =
    (Pwr.adjust { s.pwr with cappedW := x.cappedW, uncappedW := x.uncappedW } s.now s.pwr.capW.toNat (x.cappedW.toNat + x.uncappedW.toNat)
      (x.cappedW.toNat + x.uncappedW.toNat + s.hintedW)).kept := by
  unfold powerEvaluation
  extract_lets total src p s1 s2 s3 f m s4
  have h1 : s1.pwr.kept = (p.adjust s.now p.capW.toNat total (total + s.hintedW)).kept := rfl
  have h2 : s2.pwr.kept = s1.pwr.kept := by simp only [s2, State.readDie_kept]
  have h3 : s3.pwr.kept = s2.pwr.kept := by simp only [s3, State.refreshHot_kept, State.throttleDie_kept]
  have h4 : s4.pwr = s3.pwr := rfl
  have h5 : ((s4.trip x).reclockAll).pwr = (s4.trip x).pwr := (State.reclockAll_only _) .pwr (by decide)
  rw [h5, State.trip_pwr, h4, h3, h2, h1]

end Sys2Proof.Machine
end

