-- ==== Sys2Proof/Laws/Reduction.lean ====
section
/-!
SUPPORT. What the closing of a step leaves of a plan, its open step and its version; and what the operations on a plan's step can change.
-/
namespace Sys2Proof.Machine

/-- Plan `j` is installed with open step `o` and version `v`, in plans that are in order. -/
def State.PlanAt (s : State) (j : Nat) (o v : Word) : Prop :=
  Tab.rising s.red.plans = true ∧ ∃ p, s.plan j = some p ∧ p.openStep = o ∧ p.version = v

variable {s t : State} {j : Nat} {o v : Word}

theorem State.PlanAt.of_red (h : s.PlanAt j o v) (k : t.red = s.red) : t.PlanAt j o v := by
  unfold State.PlanAt State.plan at *
  rw [k]
  exact h

theorem State.PlanAt.of_only {l : List Part} (h : s.PlanAt j o v) (k : ChangesOnly l s t) (hl : Part.red ∉ l) : t.PlanAt j o v :=
  h.of_red (k .red hl)

/-- Setting a plan with the given open step and version. -/
theorem State.PlanAt.put (r : Tab.rising s.red.plans = true) (q : Plan) : (s.setPlan j (some q)).PlanAt j q.openStep q.version :=
  ⟨Tab.rising_set (bg := fun _ => none) r j (some q), q, Tab.get_set_self (fun _ => none) r j (some q), rfl, rfl⟩

theorem State.PlanAt.upd (h : s.PlanAt j o v) (f : Plan → Plan) (ho : ∀ p, (f p).openStep = p.openStep) (hv : ∀ p, (f p).version = p.version) :
    (s.updPlan j f).PlanAt j o v := by
  obtain ⟨r, p, hp, rfl, rfl⟩ := h
  unfold State.updPlan
  rw [hp]
  have := State.PlanAt.put r (j := j) (f p)
  rwa [ho, hv] at this

theorem State.PlanAt.fold {α : Type} {f : State → α → State} (hf : ∀ s x, State.PlanAt s j o v → State.PlanAt (f s x) j o v) (l : List α) :
    ∀ s : State, s.PlanAt j o v → (l.foldl f s).PlanAt j o v := by
  induction l with
  | nil => exact fun _ h => h
  | cons a l ih => exact fun s h => ih _ (hf s a h)

theorem State.PlanAt.store (h : s.PlanAt j o v) (a : Nat) (bs : List Byte) : (s.store a bs).PlanAt j o v :=
  h.of_only (s.store_stored a bs).only (by decide)

theorem State.PlanAt.telemetry (h : s.PlanAt j o v) (i k : Nat) : (s.telemetry j i k).PlanAt j o v := by
  unfold State.telemetry
  split
  · exact h
  · dsimp only
    exact (h.store _ _).upd _ (fun _ => rfl) (fun _ => rfl)

theorem State.PlanAt.telemetryAll (h : s.PlanAt j o v) (k : Nat) : (s.telemetryAll j k).PlanAt j o v := by
  unfold State.telemetryAll
  split
  · exact State.PlanAt.fold (fun _ i hs => hs.telemetry i k) _ _ h
  · exact h

theorem State.PlanAt.takeScales (h : s.PlanAt j o v) (i : Nat) (c : Bool) : (s.takeScales j i c).PlanAt j o v := by
  unfold State.takeScales
  split
  · exact h
  · refine State.PlanAt.fold (fun s e hs => ?_) _ _ h
    split
    · exact hs.store _ _
    · exact hs

theorem State.PlanAt.inject (h : s.PlanAt j o v) (p : Packet) : (s.inject p).PlanAt j o v := h.of_red rfl

theorem State.PlanAt.broadcast (h : s.PlanAt j o v) (i : Nat) (d : Bool) : (s.broadcast j i d).PlanAt j o v := by
  unfold State.broadcast
  split
  · exact h
  · refine State.PlanAt.fold (fun s m hs => ?_) _ _ h
    refine State.PlanAt.fold (fun s c hs => hs.inject _) _ _ ?_
    split
    · exact State.PlanAt.fold (fun s c hs => hs.inject _) _ _ hs
    · exact hs

theorem State.PlanAt.raisePlan (h : s.PlanAt j o v) (p : Plan) (code : Nat) (pl : List Byte) : (s.raisePlan p code pl).PlanAt j o v :=
  h.of_only (s.raiseCtx_raised _ _ _ _).only (by decide)

theorem State.PlanAt.raiseNf (h : s.PlanAt j o v) : (s.raiseNf j).PlanAt j o v := by
  obtain ⟨r, p, hp, rfl, rfl⟩ := h
  unfold State.raiseNf
  simp only [hp]
  split
  · exact ⟨r, p, hp, rfl, rfl⟩
  · exact (State.PlanAt.put r { p with nfRaised := true }).raisePlan _ _ _

theorem State.PlanAt.signalRel (h : s.PlanAt j o v) (c i : Nat) (n : Word) : (s.signalRel c i n).PlanAt j o v := by
  unfold State.signalRel
  split
  · exact h
  · split
    · exact h.of_red rfl
    · exact h

theorem State.PlanAt.sendToken (h : s.PlanAt j o v) (p : Plan) (k r hi : Nat) : (s.sendToken p k r hi).PlanAt j o v :=
  State.PlanAt.fold (fun _ _ hs => hs.inject _) _ _ h

/-- Closing a step opens the next one, and V stays. -/
theorem State.PlanAt.closeStep (h : s.PlanAt j o v) (k : Nat) : (s.closeStep j k).PlanAt j (o + 1) v := by
  obtain ⟨r, p, hp, rfl, rfl⟩ := h
  unfold State.closeStep
  simp only [hp]
  refine State.PlanAt.signalRel ?_ _ _ _
  exact State.PlanAt.put r { (p.mapBuckets fun b => { b.closed with gatherV := if p.sharded then none else b.gatherV }) with
    openStep := p.openStep + 1, state := 1, lastToken := k, tokenSent := false, clipSent := false, clip := fone, clipGot := false
    stopped := false, firstSent := false, finalSent := false, firstFrom := [], finalFrom := [], norms := [], normSent := false
    nfSeen := false, nfRaised := false, ovfRaised := false }

theorem State.PlanAt.applyCommit (h : s.PlanAt j o v) : (s.applyCommit j).PlanAt j (o + 1) (v + 1) := by
  unfold State.applyCommit
  obtain ⟨r, p, hp, rfl, rfl⟩ := h
  have h1 : (s.updPlan j fun p => { p with version := p.version + 1 }).PlanAt j p.openStep (p.version + 1) := by
    unfold State.updPlan
    rw [hp]
    exact State.PlanAt.put r { p with version := p.version + 1 }
  dsimp only
  obtain ⟨r1, q, hq, h2⟩ := h1
  simp only [hq]
  have h3 : (s.updPlan j fun p => { p with version := p.version + 1 }).PlanAt j p.openStep (p.version + 1) := ⟨r1, q, hq, h2⟩
  have h4 := State.PlanAt.telemetryAll (State.PlanAt.fold (f := fun s i => s.takeScales j i true) (fun s i hs => hs.takeScales i true) q.owned _ h3) 1
  refine State.PlanAt.closeStep ?_ 2
  split
  · exact h4
  · exact State.PlanAt.fold (fun s i hs => hs.broadcast i true) _ _ h4

theorem State.PlanAt.applySkip (h : s.PlanAt j o v) : (s.applySkip j).PlanAt j (o + 1) v := by
  unfold State.applySkip
  obtain ⟨r, p, hp, h2⟩ := h
  have h3 : s.PlanAt j o v := ⟨r, p, hp, h2⟩
  simp only [hp]
  have h4 := (State.PlanAt.telemetryAll (State.PlanAt.fold (f := fun s i => s.takeScales j i false) (fun s i hs => hs.takeScales i false) p.owned _ h3) 2).raiseNf
  refine State.PlanAt.closeStep ?_ 3
  split
  · exact h4
  · exact State.PlanAt.fold (fun s i hs => hs.broadcast i false) _ _ h4

theorem State.PlanAt.leavePlan (h : s.PlanAt j o v) : (s.leavePlan j).PlanAt j o v := by
  unfold State.leavePlan
  split
  · refine State.PlanAt.fold (fun u e hu => ?_) _ _ h
    split
    · unfold State.leaveSlots
      refine State.PlanAt.fold (fun w x hw => ?_) _ _ hu
      split
      · exact hw.store _ _
      · exact hw
    · exact hu
  · exact h

theorem State.PlanAt.stopStep (h : s.PlanAt j o v) : (s.stopStep j).PlanAt j o v :=
  State.PlanAt.of_red (s := (s.leavePlan j).updPlan j fun p => { p.mapBuckets (fun b => b.fresh p.job.toNat) with stopped := true })
    (h.leavePlan.upd _ (fun _ => rfl) (fun _ => rfl)) rfl

theorem State.PlanAt.applyAbort (h : s.PlanAt j o v) (k : Nat) : (s.applyAbort j k).PlanAt j (o + 1) v := by
  unfold State.applyAbort
  obtain ⟨r, p, hp, h2⟩ := h
  have h3 : s.PlanAt j o v := ⟨r, p, hp, h2⟩
  simp only [hp]
  unfold State.raiseStepAbort
  have h4 := h3.stopStep.raisePlan p 0x0403 (leBytes 2 p.job.toNat ++ leBytes 1 2 ++ leBytes 1 k ++ leBytes 4 p.openStep.toNat ++ leBytes 1 0)
  unfold State.closeAborted
  obtain ⟨r5, q, hq, h6⟩ := h4
  simp only [hq]
  exact ((State.PlanAt.telemetryAll ⟨r5, q, hq, h6⟩ 3).closeStep 4).signalRel _ _ _

/-! What the open step of a plan can change as it goes on: what a store does, the synchronisation objects, the fabric, and the plans. -/

/-- What an operation on a plan's step can change; of the boot flash only the repair record, of the pins only ALERT_N. -/
def Stepped (s t : State) : Prop :=
  ChangesOnly [.mem, .hif, .out, .pldm, .pins, .hbm, .flash, .dsc, .sync, .fab, .red] s t
    ∧ Repaired s.flash t.flash ∧ t.pins.rstOutN = s.pins.rstOutN

theorem Stepped.refl (s : State) : Stepped s s := ⟨.refl _ s, .refl _, rfl⟩
theorem Stepped.trans {s t u : State} (h : Stepped s t) (k : Stepped t u) : Stepped s u := ⟨h.1.trans k.1, h.2.1.trans k.2.1, k.2.2.trans h.2.2⟩
theorem Stepped.of_stored {s t : State} (h : Stored s t) : Stepped s t :=
  ⟨h.only.mono (by decide), h.2.2, by obtain ⟨⟨m, h, o, p, q, b, f, d, rfl⟩, -, -⟩ := h; rfl⟩
theorem Stepped.of_raised {s t : State} (h : Raised s t) : Stepped s t := .of_stored h.stored
theorem Stepped.sync (s : State) (y : Sync) : Stepped s { s with sync := y } := by
  refine ⟨fun p hp => ?_, .refl _, rfl⟩
  cases p <;> first | (exfalso; revert hp; decide) | rfl

theorem foldl_stepped {α : Type} {f : State → α → State} (h : ∀ s x, Stepped s (f s x)) (xs : List α) (s : State) : Stepped s (xs.foldl f s) :=
  foldl_keeps (r := Stepped) .refl Stepped.trans h xs s

theorem State.store_stepped (s : State) (a : Nat) (bs : List Byte) : Stepped s (s.store a bs) := .of_stored (s.store_stored a bs)
theorem State.storeLe_stepped (s : State) (a n v : Nat) : Stepped s (s.storeLe a n v) := s.store_stepped _ _

theorem State.signalRel_stepped (s : State) (c i : Nat) (n : Word) : Stepped s (s.signalRel c i n) := by
  unfold State.signalRel
  split
  · exact .refl s
  · split
    · exact .sync s _
    · exact .refl s

theorem State.setPlan_stepped (s : State) (j : Nat) (x : Option Plan) : Stepped s (s.setPlan j x) := ⟨(s.setPlan_only j x).mono (by decide), rfl, rfl⟩

theorem State.updPlan_stepped (s : State) (j : Nat) (f : Plan → Plan) : Stepped s (s.updPlan j f) := by
  unfold State.updPlan
  split
  · exact s.setPlan_stepped _ _
  · exact .refl s

theorem State.updBucket_stepped (s : State) (j i : Nat) (f : Bucket → Bucket) : Stepped s (s.updBucket j i f) := s.updPlan_stepped _ _

theorem State.inject_stepped (s : State) (p : Packet) : Stepped s (s.inject p) := ⟨(s.inject_only p).mono (by decide), rfl, rfl⟩

theorem State.sendToken_stepped (s : State) (p : Plan) (a b c : Nat) : Stepped s (s.sendToken p a b c) :=
  foldl_stepped (fun u _ => u.inject_stepped _) _ s

theorem State.telemetryAll_stepped (s : State) (j k : Nat) : Stepped s (s.telemetryAll j k) := by
  unfold State.telemetryAll
  split
  · refine foldl_stepped (fun u i => ?_) _ s
    unfold State.telemetry
    split
    · exact .refl u
    · exact (u.store_stepped _ _).trans (State.updPlan_stepped _ _ _)
  · exact .refl s

theorem State.takeScales_stepped (s : State) (j i : Nat) (c : Bool) : Stepped s (s.takeScales j i c) := by
  unfold State.takeScales
  split
  · exact .refl s
  · refine foldl_stepped (fun u e => ?_) _ s
    split
    · exact u.storeLe_stepped _ _ _
    · exact .refl u

theorem State.broadcast_stepped (s : State) (j i : Nat) (d : Bool) : Stepped s (s.broadcast j i d) := by
  unfold State.broadcast
  split
  · exact .refl s
  · extract_lets v
    refine foldl_stepped (fun u m => ?_) _ s
    extract_lets u1
    have h1 : Stepped u u1 := by
      simp only [u1]
      split
      · exact foldl_stepped (fun w c => w.inject_stepped _) _ u
      · exact .refl u
    exact h1.trans (foldl_stepped (fun w c => w.inject_stepped _) _ u1)

theorem State.raisePlan_stepped (s : State) (p : Plan) (code : Nat) (l : List Byte) : Stepped s (s.raisePlan p code l) :=
  .of_raised (s.raiseCtx_raised _ _ _ _)

theorem State.raiseNf_stepped (s : State) (j : Nat) : Stepped s (s.raiseNf j) := by
  unfold State.raiseNf
  split
  · split
    · exact .refl s
    · exact (s.setPlan_stepped _ _).trans (State.raisePlan_stepped _ _ _ _)
  · exact .refl s

theorem State.closeStep_stepped (s : State) (j k : Nat) : Stepped s (s.closeStep j k) := by
  unfold State.closeStep
  split
  · exact .refl s
  · exact (s.setPlan_stepped _ _).trans (State.signalRel_stepped _ _ _ _)

theorem State.applyCommit_stepped (s : State) (j : Nat) : Stepped s (s.applyCommit j) := by
  unfold State.applyCommit
  extract_lets s1
  have h1 : Stepped s s1 := s.updPlan_stepped _ _
  split
  · exact h1
  · extract_lets s2 s3 s4
    have h2 : Stepped s1 s2 := foldl_stepped (fun u i => u.takeScales_stepped _ _ _) _ s1
    have h3 : Stepped s2 s3 := s2.telemetryAll_stepped _ _
    have h4 : Stepped s3 s4 := by
      simp only [s4]
      split
      · exact .refl _
      · exact foldl_stepped (fun u i => u.broadcast_stepped _ _ _) _ s3
    exact (((h1.trans h2).trans h3).trans h4).trans (s4.closeStep_stepped _ _)

theorem State.applySkip_stepped (s : State) (j : Nat) : Stepped s (s.applySkip j) := by
  unfold State.applySkip
  split
  · exact .refl s
  · extract_lets s2 s3 s4
    have h2 : Stepped s s2 := foldl_stepped (fun u i => u.takeScales_stepped _ _ _) _ s
    have h3 : Stepped s2 s3 := (s2.telemetryAll_stepped _ _).trans (State.raiseNf_stepped _ _)
    have h4 : Stepped s3 s4 := by
      simp only [s4]
      split
      · exact .refl _
      · exact foldl_stepped (fun u i => u.broadcast_stepped _ _ _) _ s3
    exact ((h2.trans h3).trans h4).trans (s4.closeStep_stepped _ _)

theorem State.leavePlan_stepped (s : State) (j : Nat) : Stepped s (s.leavePlan j) := .of_stored (s.leavePlan_stored j)

theorem State.stopStep_stepped (s : State) (j : Nat) : Stepped s (s.stopStep j) := by
  unfold State.stopStep
  extract_lets s1
  exact ((s.leavePlan_stepped j).trans (State.updPlan_stepped _ _ _)).trans (Stepped.sync s1 _)

theorem State.closeAborted_stepped (s : State) (j : Nat) : Stepped s (s.closeAborted j) := by
  unfold State.closeAborted
  split
  · exact .refl s
  · exact ((s.telemetryAll_stepped _ _).trans (State.closeStep_stepped _ _ _)).trans (State.signalRel_stepped _ _ _ _)

theorem State.applyAbort_stepped (s : State) (j k : Nat) : Stepped s (s.applyAbort j k) := by
  unfold State.applyAbort
  split
  · exact .refl s
  · exact ((s.stopStep_stepped j).trans (State.raisePlan_stepped _ _ _ _)).trans (State.closeAborted_stepped _ _)

theorem State.masterToken_stepped (s : State) (j kind reason : Nat) : Stepped s (s.masterToken j kind reason) := by
  unfold State.masterToken
  split
  · exact .refl s
  · rename_i p _
    split
    · exact .refl s
    · extract_lets s1
      have h1 : Stepped s s1 := (s.setPlan_stepped _ _).trans (State.sendToken_stepped _ _ _ _ _)
      split
      · exact h1.trans (s1.applyCommit_stepped _)
      · split
        · exact h1.trans (s1.applySkip_stepped _)
        · exact h1.trans (s1.applyAbort_stepped _ _)

theorem State.masterClip_stepped (s : State) (j : Nat) (c : Word) : Stepped s (s.masterClip j c) := by
  unfold State.masterClip
  split
  · exact .refl s
  · split
    · exact .refl s
    · exact (s.setPlan_stepped _ _).trans (State.sendToken_stepped _ _ _ _ _)

theorem State.decideNorms_stepped (s : State) (j : Nat) : Stepped s (s.decideNorms j) := by
  unfold State.decideNorms
  split
  · exact .refl s
  · split
    · exact .refl s
    · split
      · exact s.masterToken_stepped _ _ _
      · split
        · exact s.masterClip_stepped _ _
        · exact .refl s

theorem State.normRound_stepped (s : State) (j : Nat) : Stepped s (s.normRound j) := by
  unfold State.normRound
  split
  · exact .refl s
  · split
    · exact .refl s
    · extract_lets q
      split
      · exact (s.setPlan_stepped _ _).trans (State.decideNorms_stepped _ _)
      · exact (s.setPlan_stepped _ _).trans (State.inject_stepped _ _)

theorem State.firstRound_stepped (s : State) (j : Nat) : Stepped s (s.firstRound j) := by
  unfold State.firstRound
  split
  · exact .refl s
  · split
    · exact .refl s
    · extract_lets s1 x
      have h1 : Stepped s s1 := s.setPlan_stepped _ _
      split
      · exact h1.trans (s1.inject_stepped _)
      · split
        · exact h1
        · split
          · exact h1.trans (s1.masterToken_stepped _ _ _)
          · exact h1.trans (s1.signalRel_stepped _ _ _)

theorem State.finalRound_stepped (s : State) (j : Nat) : Stepped s (s.finalRound j) := by
  unfold State.finalRound
  split
  · exact .refl s
  · split
    · exact .refl s
    · extract_lets s1 x
      have h1 : Stepped s s1 := s.setPlan_stepped _ _
      split
      · exact h1.trans (s1.inject_stepped _)
      · split
        · exact h1
        · split
          · exact h1.trans (s1.masterToken_stepped _ _ _)
          · exact h1.trans (s1.masterToken_stepped _ _ _)

/-- All that a member's progress can change. -/
theorem State.rounds_stepped (s : State) (j : Nat) : Stepped s (s.rounds j) :=
  ((s.normRound_stepped j).trans (State.firstRound_stepped _ j)).trans (State.finalRound_stepped _ j)

end Sys2Proof.Machine
end

