-- ==== Sys2Proof/Laws/Resets.lean ====
section
/-!
SUPPORT. What the reset of one array and of one port leaves of the rest of the module.
-/
namespace Sys2Proof.Machine

theorem State.faultAll_only (s : State) (a : Nat) (l : List Nat) :
    ChangesOnly [.mem, .hif, .out, .pldm, .pins, .sync, .tables, .ctxs, .runs, .engines, .arrays, .chk, .fresh] s
      (l.foldl (fun (s : State) c => s.faultCtx c 11 a 0 srcReset 0) s) :=
  foldl_only (fun u _ => (u.faultCtx_faulted _ _ _ _ _ _).only) l s

theorem State.releaseStreams_only (s : State) (p : DscStream → Bool) : ChangesOnly [.dsc] s (s.releaseStreams p) :=
  foldl_only (fun u _ => u.setDsc_only _ _) [0, 1] s

/-- Everything that an array reset does besides the array's own sequencer. -/
theorem State.resetArray_shape (s : State) (a : Nat) : ∃ v : State,
    ChangesOnly [.mem, .hif, .out, .pldm, .pins, .sync, .tables, .ctxs, .runs, .engines, .arrays, .chk, .fresh, .dsc, .tel] s v ∧
      v.runs = ((s.ctxsOnArray a).foldl (fun (s : State) c => s.faultCtx c 11 a 0 srcReset 0) s).runs ∧
      v.arrays = ((s.ctxsOnArray a).foldl (fun (s : State) c => s.faultCtx c 11 a 0 srcReset 0) s).arrays ∧
      s.resetArray a = v.setArray a (v.array a).afterReset := by
  unfold State.resetArray
  extract_lets s1 s2 s3 z s4
  have h1 := s.faultAll_only a (s.ctxsOnArray a)
  have h2 : ChangesOnly [.dsc] s1 s2 := s1.releaseStreams_only _
  have h3 : ChangesOnly [.engines] s2 s3 := (s2.setEngine_only _ _).trans (State.setEngine_only _ _ _)
  have h4 : ChangesOnly [.tel] s3 s4 := by intro p hp; cases p <;> first | (exfalso; revert hp; decide) | rfl
  exact ⟨s4, ((((h1.mono (by decide)).trans (h2.mono (by decide))).trans (h3.mono (by decide))).trans (h4.mono (by decide))),
    ((h4 .runs (by decide)).trans (h3 .runs (by decide))).trans (h2 .runs (by decide)),
    ((h4 .arrays (by decide)).trans (h3 .arrays (by decide))).trans (h2 .arrays (by decide)), rfl⟩

theorem State.portOff_only (s : State) (p : Nat) : ChangesOnly [.mem, .hif, .out, .pldm, .pins, .fab, .sec, .dbg, .ctxs] s (s.portOff p) := by
  unfold State.portOff
  split
  · refine ChangesOnly.trans ?_ (State.goDown_only _ _ _)
    split
    · exact .refl _ s
    · exact (s.sendOut_only _).mono (by decide)
  · exact .refl _ s

theorem State.portLeaves_only (s : State) (p : Nat) : ChangesOnly [.fab] s (s.portLeaves p) := by
  unfold State.portLeaves
  extract_lets x
  split
  · exact s.setPort_only _ _
  · exact .refl _ s

theorem State.endRecovery_only (s : State) : ChangesOnly [.rst, .fab] s s.endRecovery := by
  unfold State.endRecovery
  extract_lets r u
  have h : ChangesOnly [.rst, .fab] s u := by
    intro p hp
    cases p <;> first | (exfalso; revert hp; decide) | rfl
  exact h.trans (foldl_only (fun v p => (v.portLeaves_only p).mono (by decide)) _ u)

theorem State.resetPort_only (s : State) (p : Nat) : ChangesOnly [.mem, .hif, .out, .pldm, .pins, .fab, .sec, .dbg, .ctxs] s (s.resetPort p) := by
  unfold State.resetPort
  exact (s.portOff_only p).trans ((State.setPort_only _ _ _).mono (by decide))

theorem State.resetArray_only (s : State) (a : Nat) :
    ChangesOnly [.mem, .hif, .out, .pldm, .pins, .sync, .tables, .ctxs, .runs, .engines, .arrays, .chk, .fresh, .dsc, .tel] s (s.resetArray a) := by
  obtain ⟨v, h, _, _, e⟩ := s.resetArray_shape a
  rw [e]
  exact (h.mono (by decide)).trans ((State.setArray_only _ _ _).mono (by decide))

theorem State.refreshFlash_eq (s : State) : ∃ y x, s.refreshFlash = { s with tier := { s.tier with flashUsableGib := y, flashFreeGib := x } } := ⟨_, _, rfl⟩

theorem State.refreshFlash_only (s : State) : ChangesOnly [.tier] s s.refreshFlash := by
  obtain ⟨y, x, hx⟩ := s.refreshFlash_eq
  rw [hx]
  intro p hp
  cases p <;> first | (exfalso; revert hp; decide) | rfl

theorem foldl_runs {α : Type} {f : State → α → State} (h : ∀ u x, (f u x).runs = u.runs) (l : List α) (u : State) : (l.foldl f u).runs = u.runs :=
  foldl_keeps (r := fun a b => b.runs = a.runs) (fun _ => rfl) (fun a b => b.trans a) h l u

/-- Abandoning a context's work leaves the RUNs. -/
theorem State.abandonCtx_runs (s : State) (c : Nat) : (s.abandonCtx c).runs = s.runs := by
  obtain ⟨y, a, k, n, e⟩ := s.abandonCtx_eq c
  rw [e]

theorem State.faultCtx_runs {u : State} (h : u.runs = []) (c x d e f g : Nat) : (u.faultCtx c x d e f g).runs = [] := by
  unfold State.faultCtx
  extract_lets y mine tag s1 s2 s3 s4 s5 code
  split
  · exact h
  · have k1 : s1.runs = [] := h
    clear_value s1
    have k2 : s2.runs = [] := (State.abandonCtx_runs _ _).trans k1
    clear_value s2
    have k4 : s4.runs = [] := (((s3.completeAll_completed _ 2).only .runs (by decide)).trans ((s2.completeAll_completed _ 2).only .runs (by decide))).trans k2
    clear_value s4
    have k5 : s5.runs = [] := by
      show s4.runs.filter _ = []
      rw [k4]; rfl
    clear_value s5
    exact ((s5.raiseCtx_raised _ _ _ _).only .runs (by decide)).trans k5

theorem State.resetArray_runs {u : State} (a : Nat) (h : u.runs = []) : (u.resetArray a).runs = [] := by
  obtain ⟨v, _, vr, _, e⟩ := u.resetArray_shape a
  rw [e, State.setArray_runs, vr]
  have : ∀ (l : List Nat) (u : State), u.runs = [] → (l.foldl (fun (s : State) c => s.faultCtx c 11 a 0 srcReset 0) u).runs = [] := by
    intro l
    induction l with
    | nil => exact fun u hu => hu
    | cons c l ih => exact fun u hu => ih _ (State.faultCtx_runs hu _ _ _ _ _ _)
  exact this _ u h

/-- No RUN is left by a fault in a state without one. -/
theorem functionRuns (s : State) : ((List.range 16).foldl State.resetPort ((List.range 8).foldl State.resetArray { s with
    ctxs := s.ctxs.map (fun (c : Nat × Ctx) => (c.1, { c.2 with state := 0 })), runs := [] })).runs = [] := by
  have fl : ∀ (l : List Nat) (u : State), u.runs = [] → (l.foldl State.resetArray u).runs = [] := by
    intro l
    induction l with
    | nil => exact fun u hu => hu
    | cons c l ih => exact fun u hu => ih _ (State.resetArray_runs c hu)
  exact ((foldl_only (fun u a => State.resetPort_only u a) (List.range 16) _) .runs (by decide)).trans (fl _ _ rfl)

/-- Writing the held lines back reaches the stream caches alone. -/
theorem State.writeHeldBack_only (s : State) : ChangesOnly [.dsc] s s.writeHeldBack := by
  unfold State.writeHeldBack
  refine foldl_only (fun u l => ?_) _ s
  unfold State.snoop
  split
  · exact .refl _ u
  · extract_lets d hit hits pre bump lines
    split
    · exact .refl _ u
    · exact u.setDsc_only _ _

theorem State.freeUnits_only (s : State) (es : List Nat) : ChangesOnly [.chk] s (s.freeUnits es) := by
  intro p hp
  cases p <;> first | (exfalso; revert hp; decide) | rfl

/-- What a function reset leaves (R533, R539). -/
theorem functionReset_shape (s : State) (r : InReset) (f : s.rst.pending = some r) (e : r.scope = 4) : ∃ t, functionReset s = t ∧
    (t.rst.pending = none ∧ t.rst.small = [] ∧ t.rst.capturing = none ∧ t.rst.recovering = some { r with at_ := s.now } ∧
      t.ctxs = [] ∧ t.runs = [] ∧ t.tables = [] ∧ t.sync = { objs := [], done := [] } ∧ t.engines = [] ∧ t.red.plans = [] ∧ t.tier.stashes = [] ∧
      t.tier.objs = s.tier.objs.filter (fun o => o.sealed && !o.stash) ∧ t.hbm.lines = [] ∧ t.sec.sessions = [] ∧ t.dbg = Dbg.reset ∧
      ChangesOnly [.mem, .hif, .out, .pldm, .pins, .sync, .tables, .ctxs, .runs, .engines, .arrays, .chk, .fresh, .dsc, .tel, .fab, .sec, .dbg, .hbm,
        .tier, .red, .rst] s t) := by
  unfold functionReset
  split
  · rename_i k; exact absurd (f.symm.trans k) (by simp)
  rename_i r' k
  obtain rfl : r = r' := Option.some.inj (f.symm.trans k)
  rw [if_neg (by simp [e])]
  extract_lets s1 s2 s3 z1 z2 s4 s5 z3 z4
  have h1 : ChangesOnly [.mem, .hif, .out, .pldm, .pins, .sync, .tables, .ctxs, .runs, .engines, .arrays, .chk, .fresh, .dsc, .tel, .fab, .sec, .dbg] s s1 := by
    intro p hp; cases p <;> first | (exfalso; revert hp; decide) | rfl
  have h2 := h1.trans (foldl_only (fun u a => (State.resetArray_only u a).mono (by decide)) (List.range 8) s1)
  have hp := h2.trans (foldl_only (fun u a => (State.resetPort_only u a).mono (by decide)) (List.range 16) _)
  have rp : ((List.range 16).foldl State.resetPort s2).runs = [] := functionRuns s
  have hw := hp.trans ((State.writeHeldBack_only _).mono (by decide))
  have rw_ : (((List.range 16).foldl State.resetPort s2).writeHeldBack).runs = [] := ((State.writeHeldBack_only _) .runs (by decide)).trans rp
  have h3 : ChangesOnly [.mem, .hif, .out, .pldm, .pins, .sync, .tables, .ctxs, .runs, .engines, .arrays, .chk, .fresh, .dsc, .tel, .fab, .sec, .dbg] s s3 :=
    hw.trans ((State.freeUnits_only _ (List.range 0x1C)).mono (by decide))
  have t3 : s3.tier = s.tier := h3 .tier (by decide)
  have n3 : s3.now = s.now := h3 .now (by decide)
  have r3 : s3.runs = [] := ((State.freeUnits_only _ (List.range 0x1C)) .runs (by decide)).trans rw_
  clear_value s3
  have h4 : ChangesOnly [.mem, .hif, .out, .pldm, .pins, .sync, .tables, .ctxs, .runs, .engines, .arrays, .chk, .fresh, .dsc, .tel, .fab, .sec, .dbg, .hbm,
      .tier] s3 s4 := by
    intro p hp; cases p <;> first | (exfalso; revert hp; decide) | rfl
  have h5 := (h3.mono (m := [.mem, .hif, .out, .pldm, .pins, .sync, .tables, .ctxs, .runs, .engines, .arrays, .chk, .fresh, .dsc, .tel, .fab, .sec, .dbg,
      .hbm, .tier]) (by decide)).trans h4
  have o4 : s4.tier.objs = s3.tier.objs.filter (fun o => o.sealed && !o.stash) := by simp only [s4]
  have q4 : s4.tier.stashes = [] := rfl
  have l4 : s4.hbm.lines = [] := rfl
  rw [t3] at o4
  have r4 : s4.runs = [] := r3
  clear_value s4
  have h6 := h5.trans (s4.refreshFlash_only.mono (by decide))
  have n5 : s5.now = s.now := h6 .now (by decide)
  obtain ⟨y, x, hx⟩ := s4.refreshFlash_eq
  have e5 : s5 = { s4 with tier := { s4.tier with flashUsableGib := y, flashFreeGib := x } } := hx
  have o5 : s5.tier.objs = s.tier.objs.filter (fun o => o.sealed && !o.stash) := by rw [e5]; exact o4
  have q5 : s5.tier.stashes = [] := by rw [e5]; exact q4
  have l5 : s5.hbm.lines = [] := by rw [e5]; exact l4
  have r5 : s5.runs = [] := by rw [e5]; exact r4
  change ChangesOnly _ s s5 at h6
  clear_value s5
  refine ⟨_, rfl, rfl, rfl, rfl, ?_, rfl, r5, rfl, rfl, rfl, rfl, q5, ?_, l5, rfl, rfl, ?_⟩
  · show some ({ r with at_ := s5.now } : InReset) = _
    rw [n5]
  · show s5.tier.objs = _
    exact o5
  · intro p hp
    have := h6.mono (m := [.mem, .hif, .out, .pldm, .pins, .sync, .tables, .ctxs, .runs, .engines, .arrays, .chk, .fresh, .dsc, .tel, .fab, .sec, .dbg, .hbm,
      .tier, .red, .rst]) (by decide) p hp
    cases p <;> first | (exfalso; revert hp; decide) | exact this

theorem State.capture_only (s : State) (r : InReset) : ChangesOnly [.mem, .rst] s (s.capture r) := by
  obtain ⟨m, x, hx⟩ : ∃ m x, s.capture r = { s with mem := m, rst := x } := ⟨_, _, rfl⟩
  rw [hx]
  intro p hp
  cases p <;> first | (exfalso; revert hp; decide) | rfl

theorem State.scrambleRange_only (s : State) (k : Nat × Nat) : ChangesOnly [.fresh, .mem, .hbm] s (s.scrambleRange k) := by
  intro p hp
  cases p <;> first | (exfalso; revert hp; decide) | rfl

/-- The scrambling of an undefined memory leaves the rest of the memories' state, but for poison. -/
theorem State.scrambleRange_eq (s : State) (k : Nat × Nat) :
    ∃ f m x, s.scrambleRange k = { s with fresh := f, mem := m, hbm := x } := ⟨_, _, _, rfl⟩

/-- What a warm module reset leaves (R533, R540, R543). -/
theorem warmModuleReset_shape (s : State) (r : InReset) (f : s.rst.pending = some r) (e : r.scope = 5) : ∃ t, warmModuleReset s = t ∧
      t.rst.active = some { r with at_ := s.now, captured := s.captures r } ∧ t.rst.pending = none ∧ t.pins.rstOutN = false ∧
      t.rst.causeScope = 5 ∧ t.rst.causeSource = BitVec.ofNat 8 r.source ∧ t.rst.causeWatchdog = BitVec.ofNat 8 r.watchdog ∧ t.rst.causeCounted = r.counted ∧
      t.ctxs = [] ∧ t.runs = [] ∧ t.tables = [] ∧ t.arrays = [] ∧ t.engines = [] ∧ t.sync = { objs := [], done := [] } ∧ t.hif = Hif.reset ∧
      t.flash = s.flash.applyClear ∧ t.sec.sessions = [] ∧ t.now = s.now ∧ t.tap = s.tap ∧
      t.eid = 0x20 + s.boot.trayPos.zeroExtend 8 ∧
      (∀ o, o ∈ t.tier.objs → o ∈ s.tier.objs ∧ o.sealed = true ∧ o.stash = false) ∧
      (r.source ≠ 4 ∨ r.index ≠ 8 → t.tier.objs = s.tier.objs.filter (fun o => o.sealed && !o.stash)) := by
  unfold warmModuleReset
  split
  · rename_i k; exact absurd (f.symm.trans k) (by simp)
  rename_i r' k
  obtain rfl : r = r' := Option.some.inj (f.symm.trans k)
  rw [if_neg (by simp [e])]
  extract_lets taken s1 s2 s3 s4
  have h1 : ChangesOnly [.mem, .rst] s s1 := by
    simp only [s1]
    split
    · exact s.capture_only r
    · exact .refl _ s
  have h2 : ChangesOnly [.mem, .rst, .hif, .out, .pldm, .pins, .fab, .sec, .dbg, .ctxs] s s2 :=
    (h1.mono (by decide)).trans (foldl_only (fun u p => (State.portOff_only u p).mono (by decide)) (List.range 16) s1)
  have n2 : s2.now = s.now := h2 .now (by decide)
  have f2 : s2.flash = s.flash := h2 .flash (by decide)
  have p2 : s2.tap = s.tap := h2 .tap (by decide)
  have b2 : s2.boot = s.boot := h2 .boot (by decide)
  have o2 : s2.tier = s.tier := h2 .tier (by decide)
  clear_value s2
  have base : ∀ (u : State), (∃ f m x y, u = { s3 with fresh := f, mem := m, hbm := x, tier := y }) → u.rst.active = some { r with at_ := s.now, captured := taken } ∧ u.rst.pending = none ∧ u.pins.rstOutN = false ∧
      u.rst.causeScope = 5 ∧ u.rst.causeSource = BitVec.ofNat 8 r.source ∧ u.rst.causeWatchdog = BitVec.ofNat 8 r.watchdog ∧ u.rst.causeCounted = r.counted ∧
      u.ctxs = [] ∧ u.runs = [] ∧ u.tables = [] ∧ u.arrays = [] ∧ u.engines = [] ∧ u.sync = { objs := [], done := [] } ∧ u.hif = Hif.reset ∧
      u.flash = s.flash.applyClear ∧ u.sec.sessions = [] ∧ u.now = s.now ∧ u.tap = s.tap ∧ u.eid = 0x20 + s.boot.trayPos.zeroExtend 8 := by
    rintro u ⟨_, _, _, _, rfl⟩
    refine ⟨?_, rfl, rfl, ?_, rfl, rfl, rfl, rfl, rfl, rfl, rfl, rfl, rfl, rfl, ?_, rfl, n2, p2, ?_⟩
    · show some ({ r with at_ := s2.now, captured := taken } : InReset) = _
      rw [n2]
    · show BitVec.ofNat 8 r.scope = 5
      rw [e]; rfl
    · show s2.flash.applyClear = _
      rw [f2]
    · show 0x20 + s2.boot.trayPos.zeroExtend 8 = _
      rw [b2]
  have o3 : s3.tier.objs = s.tier.objs.filter (fun o => o.sealed && !o.stash) := by
    show s2.tier.objs.filter _ = _
    rw [o2]
  have h4 : ∃ f m x, s4 = { s3 with fresh := f, mem := m, hbm := x } := by
    simp only [s4]
    split
    · obtain ⟨f, m, x, q⟩ := s3.scrambleRange_eq (dieKeys 0)
      obtain ⟨f', m', x', q'⟩ := (s3.scrambleRange (dieKeys 0)).scrambleRange_eq (dieKeys 1)
      exact ⟨f', m', x', by rw [q', q]⟩
    · exact ⟨_, _, _, rfl⟩
  clear_value s3
  obtain ⟨f4, m4, x4, h4⟩ := h4
  obtain ⟨f5, m5, x5, h5⟩ := s4.scrambleRange_eq ddrKeys
  have key : ∃ u, (if r.source = 4 ∧ r.index = 8 then { s4.scrambleRange ddrKeys with tier :=
        { (s4.scrambleRange ddrKeys).tier with objs := (s4.scrambleRange ddrKeys).tier.objs.filter fun o => o.base == 0 } } else s4) = u ∧ (∃ f m x y, u = { s3 with fresh := f, mem := m, hbm := x, tier := y }) ∧
      (∀ o, o ∈ u.tier.objs → o ∈ s.tier.objs ∧ o.sealed = true ∧ o.stash = false) ∧ (r.source ≠ 4 ∨ r.index ≠ 8 → u.tier.objs = s.tier.objs.filter (fun o => o.sealed && !o.stash)) := by
    refine ⟨_, rfl, ?_⟩
    split
    · rename_i c
      refine ⟨⟨f5, m5, x5, { s4.tier with objs := s4.tier.objs.filter fun o => o.base == 0 }, ?_⟩, fun o ho => ?_, fun d => ?_⟩
      · rw [h5, h4]
      · have : o ∈ (s4.scrambleRange ddrKeys).tier.objs := (List.mem_filter.1 ho).1
        rw [h5, h4] at this
        obtain ⟨q1, q2⟩ := List.mem_filter.1 (o3 ▸ this)
        exact ⟨q1, by simpa using q2⟩
      · exact absurd c (by rintro ⟨a, b⟩; rcases d with d | d <;> contradiction)
    · refine ⟨⟨f4, m4, x4, s3.tier, by rw [h4]⟩, fun o ho => ?_, fun _ => ?_⟩
      · rw [h4] at ho
        obtain ⟨q1, q2⟩ := List.mem_filter.1 (o3 ▸ ho)
        exact ⟨q1, by simpa using q2⟩
      · rw [h4]; exact o3
  obtain ⟨u, eu, hu, o1, o2⟩ := key
  obtain ⟨g1, g2, g3, g4, g5, g6, g7, g8, g9, g10, g11, g12, g13, g14, g15, g16, g17, g18, g19⟩ := base u hu
  exact ⟨u, eu, g1, g2, g3, g4, g5, g6, g7, g8, g9, g10, g11, g12, g13, g14, g15, g16, g17, g18, g19, o1, o2⟩

/-- What a cold module reset leaves (R533, R540, R543). -/
theorem coldModuleReset_shape (s : State) (r : InReset) (f : s.rst.pending = some r) (e : r.scope = 6) : ∃ t, coldModuleReset s = t ∧
      t.rst.active = some { r with at_ := 0 } ∧ t.rst.pending = none ∧ t.pins.rstOutN = false ∧ t.now = 0 ∧
      t.rst.causeScope = 6 ∧ t.rst.causeSource = BitVec.ofNat 8 r.source ∧
      t.ctxs = [] ∧ t.runs = [] ∧ t.tables = [] ∧ t.arrays = [] ∧ t.engines = [] ∧ t.hif = Hif.reset ∧ t.pwr = Pwr.reset ∧ t.boot = Boot.reset ∧ t.fab = Fab.reset ∧
      t.sec = Sec.reset ∧ t.tap = Tap.reset ∧ t.flash = s.flash.applyClear ∧
      t.tier.objs = s.tier.objs.filter (fun o => o.sealed && o.base == 0) ∧ (r.source ≠ 1 → r.source ≠ 2 → r.source ≠ 4 → t.pins.thermTripN = s.pins.thermTripN) := by
  unfold coldModuleReset
  split
  · rename_i k; exact absurd (f.symm.trans k) (by simp)
  rename_i r' k
  obtain rfl : r = r' := Option.some.inj (f.symm.trans k)
  rw [if_neg (by simp [e])]
  extract_lets z1 z2 z3 t
  obtain ⟨f1, m1, x1, q1⟩ := t.scrambleRange_eq (dieKeys 0)
  obtain ⟨f2, m2, x2, q2⟩ := (t.scrambleRange (dieKeys 0)).scrambleRange_eq (dieKeys 1)
  obtain ⟨f3, m3, x3, q3⟩ := ((t.scrambleRange (dieKeys 0)).scrambleRange (dieKeys 1)).scrambleRange_eq ddrKeys
  rw [q3, q2, q1]
  refine ⟨_, rfl, rfl, rfl, rfl, rfl, ?_, rfl, rfl, rfl, rfl, rfl, rfl, rfl, rfl, rfl, rfl, rfl, rfl, rfl, rfl, fun k1 k2 k4 => ?_⟩
  · show BitVec.ofNat 8 r.scope = 6
    rw [e]; rfl
  · show (r.source == 1 || r.source == 2 || r.source == 4 || s.pins.thermTripN) = s.pins.thermTripN
    simp [k1, k2, k4]

end Sys2Proof.Machine
end

