-- ==== Sys2Proof/Laws/Secure.lean ====
section
/-!
SUPPORT. What commands leave of the counters, the latch and the log in flash and of the running firmware: everything, but that FW_SVN may be raised
to the SVN that runs. The rows that change more are the module resets, the boot and CLEAR_OUT_OF_SERVICE.
-/
namespace Sys2Proof.Machine

/-- The counters, the latch and the log in flash, and the firmware and record that run. -/
def State.held (s : State) : BitVec 16 × BitVec 16 × BitVec 4 × Bool × List Nat × Nat × Option Component × Option Component × BitVec 16 :=
  (s.flash.cfgVersion, s.flash.keyVersion, s.flash.revoke, s.flash.oos, s.flash.resetLog, s.flash.count24, s.boot.image, s.boot.cfg, s.boot.fwSvnRunning)

/-- All of it stays, and FW_SVN stays or is raised to the SVN that runs. -/
def Secured (s t : State) : Prop :=
  t.held = s.held ∧ (t.flash.fwSvn = s.flash.fwSvn ∨ (s.flash.fwSvn < s.boot.fwSvnRunning ∧ t.flash.fwSvn = s.boot.fwSvnRunning))

theorem Secured.refl (s : State) : Secured s s := ⟨rfl, .inl rfl⟩

theorem State.held_running {s t : State} (h : t.held = s.held) : t.boot.fwSvnRunning = s.boot.fwSvnRunning :=
  congrArg (fun x => x.2.2.2.2.2.2.2.2) h

theorem Secured.trans {s t u : State} (h : Secured s t) (k : Secured t u) : Secured s u := by
  have r := State.held_running h.1
  refine ⟨k.1.trans h.1, ?_⟩
  rcases h.2 with a | ⟨a, b⟩ <;> rcases k.2 with c | ⟨c, d⟩
  · exact .inl (c.trans a)
  · exact .inr ⟨by rw [← a, ← r]; exact c, d.trans r⟩
  · exact .inr ⟨a, c.trans b⟩
  · exact .inr ⟨a, d.trans r⟩

theorem Secured.of_parts {s t : State} (hf : t.flash = s.flash) (hb : t.boot = s.boot) : Secured s t := by
  unfold Secured State.held
  rw [hf, hb]
  exact ⟨rfl, .inl rfl⟩

theorem Secured.of_only {l : List Part} {s t : State} (h : ChangesOnly l s t) (hf : Part.flash ∉ l) (hb : Part.boot ∉ l) : Secured s t :=
  .of_parts (h .flash hf) (h .boot hb)

/-- A change of the boot flash that reaches the repair record alone. -/
theorem Secured.of_repaired {s t : State} (h : Repaired s.flash t.flash) (hb : t.boot = s.boot) : Secured s t := by
  have hr : t.flash = { s.flash with marks := t.flash.marks, condemned := t.flash.condemned, reasons := t.flash.reasons } := h
  unfold Secured State.held
  rw [hr, hb]
  exact ⟨rfl, .inl rfl⟩

theorem Secured.of_stored {s t : State} (h : Stored s t) : Secured s t := .of_repaired h.2.2 (h.only .boot (by decide))
theorem Secured.of_stepped {s t : State} (h : Stepped s t) : Secured s t := .of_repaired h.2.1 (h.1 .boot (by decide))

theorem Secured.of_faulted {s t : State} (h : Faulted s t) : Secured s t := .of_only h.only (by decide) (by decide)
theorem Secured.of_raised {s t : State} (h : Raised s t) : Secured s t := .of_stored h.stored
theorem Secured.of_completed {s t : State} (h : Completed s t) : Secured s t := .of_only h.only (by decide) (by decide)

theorem foldl_secured {α : Type} {f : State → α → State} (h : ∀ s x, Secured s (f s x)) (xs : List α) (s : State) : Secured s (xs.foldl f s) :=
  foldl_keeps (r := Secured) .refl Secured.trans h xs s

/-- A fold that carries something beside the state. -/
theorem foldl_secured_fst {α β : Type} {f : State × β → α → State × β} (h : ∀ a x, Secured a.1 (f a x).1) (xs : List α) :
    ∀ a : State × β, Secured a.1 (xs.foldl f a).1 := by
  induction xs with
  | nil => exact fun a => .refl _
  | cons x xs ih => exact fun a => (h a x).trans (ih _)

theorem Secured.settle (s t : State) : Secured s (s.settle t) := ⟨rfl, .inl rfl⟩

/-! Service levels. -/

theorem State.startPort_secured (s : State) (p : Nat) : Secured s (s.startPort p) := .of_only (State.setPort_only _ _ _) (by decide) (by decide)

theorem State.enterLevel_secured (s : State) (l : Nat) : Secured s (s.enterLevel l) := by
  unfold State.enterLevel
  extract_lets prev z1 s1 z2 s2 z3 s3 z4 s4
  have h1 : Secured s s1 := ⟨rfl, .inl rfl⟩
  have h2 : Secured s1 s2 := by
    simp only [s2]
    split
    · exact Secured.trans (t := { s1 with boot := { s1.boot with portsAt := some s1.now } }) ⟨rfl, .inl rfl⟩ (foldl_secured State.startPort_secured _ _)
    · exact .refl _
  have h3 : Secured s2 s3 := ⟨rfl, .inl rfl⟩
  have h4 : Secured s3 s4 := by
    simp only [s4]
    split
    · refine ⟨rfl, ?_⟩
      by_cases c : s3.flash.fwSvn < s3.boot.fwSvnRunning
      · exact .inr ⟨c, if_pos c⟩
      · exact .inl (if_neg c)
    · exact .refl _
  exact (((h1.trans h2).trans h3).trans h4).trans (.of_raised (s4.raise0_raised _ _ _))

theorem State.service_secured (s : State) : Secured s s.service := by
  unfold State.service
  extract_lets z1 s1 s2
  have h1 : Secured s s1 := ⟨rfl, .inl rfl⟩
  have h2 : Secured s1 s2 := by
    simp only [s2]
    split
    · exact s1.enterLevel_secured 1
    · exact .refl _
  split
  · exact (h1.trans h2).trans (s2.enterLevel_secured 2)
  · exact h1.trans h2

/-! Updates of held shards. -/

theorem State.store_secured (s : State) (a : Nat) (bs : List Byte) : Secured s (s.store a bs) := .of_stored (s.store_stored a bs)
theorem State.storeLe_secured (s : State) (a n v : Nat) : Secured s (s.storeLe a n v) := s.store_secured _ _

theorem State.storeCompute_secured (s : State) (x : Shard) (blk : Nat) (ws : List Word) : Secured s (s.storeCompute x blk ws) := by
  unfold State.storeCompute
  split
  · exact .refl s
  · extract_lets base n vs
    split
    · split
      exact (s.store_secured _ _).trans (State.storeLe_secured _ _ _ _)
    · exact s.store_secured _ _

theorem State.storeMoment_secured (s : State) (x : Shard) (region blk : Nat) (ws : List Word) : Secured s (s.storeMoment x region blk ws) := by
  unfold State.storeMoment
  extract_lets base
  split
  · exact s.store_secured _ _
  · exact s.store_secured _ _
  · exact (s.store_secured _ _).trans (State.storeLe_secured _ _ _ _)

theorem State.stepBlock_secured (s : State) (x : Shard) (blk : Nat) (ds : List Word) (n : Norms) : Secured s (s.stepBlock x blk ds n).1 := by
  unfold State.stepBlock
  extract_lets raws news olds ws n1 s1
  exact (s.store_secured _ _).trans (s1.storeCompute_secured _ _ _)

theorem State.updateBlock_secured (s : State) (x : Shard) (blk : Nat) (gs : List Word) (n : Norms) : Secured s (s.updateBlock x blk gs n).1 := by
  unfold State.updateBlock
  extract_lets ws ms vs l s1 s2
  have h1 : Secured s s1 := s.storeMoment_secured _ _ _ _
  have h2 : Secured s1 s2 := by
    simp only [s2]
    split
    · exact s1.storeMoment_secured _ _ _ _
    · exact .refl _
  exact (h1.trans h2).trans (s2.stepBlock_secured _ _ _ _)

theorem State.keepMoment_secured (s : State) (x : Shard) (region blk : Nat) : Secured s (s.keepMoment x region blk) := by
  unfold State.keepMoment
  extract_lets n s1
  have h1 : Secured s s1 := s.store_secured _ _
  split
  · exact h1
  · exact h1.trans (s1.storeLe_secured _ _ _)

theorem State.keepCompute_secured (s : State) (x : Shard) (blk : Nat) : Secured s (s.keepCompute x blk) := by
  unfold State.keepCompute
  split
  · exact .refl s
  · extract_lets n tail s1
    have h1 : Secured s s1 := s.store_secured _ _
    split
    · exact h1.trans (s1.storeLe_secured _ _ _)
    · exact h1

theorem State.keepBlock_secured (s : State) (x : Shard) (blk : Nat) : Secured s (s.keepBlock x blk) := by
  unfold State.keepBlock
  extract_lets s1 s2 s3
  have h1 : Secured s s1 := s.store_secured _ _
  have h2 : Secured s1 s2 := by
    simp only [s2]
    split
    · exact s1.keepMoment_secured _ _ _
    · exact .refl _
  have h3 : Secured s2 s3 := by
    simp only [s3]
    split
    · exact s2.keepMoment_secured _ _ _
    · exact .refl _
  exact ((h1.trans h2).trans h3).trans (s3.keepCompute_secured _ _)

theorem State.updateChunkBlocks_secured (s : State) (x : Shard) (clip : Option Word) (c : Nat) (d : Summed) (n : Norms) :
    Secured s (s.updateChunkBlocks x clip c d n).1 := by
  unfold State.updateChunkBlocks
  refine foldl_secured_fst (fun a k => ?_) _ (s, n)
  extract_lets blk gs
  split
  · exact a.1.keepBlock_secured _ _
  · exact a.1.updateBlock_secured _ _ _ _

theorem State.factoredUpdate_secured (s : State) (x : Shard) (clip : Option Word) : Secured s (s.factoredUpdate x clip).1 := by
  unfold State.factoredUpdate
  extract_lets h gs g2 rs cs blend r c rm us q div s1
  have h1 : Secured s s1 := s.store_secured _ _
  refine h1.trans (foldl_secured_fst (fun a blk => ?_) _ (s1, (0, 0)))
  extract_lets s2 u ws u2 s3
  split
  · exact s2.keepBlock_secured _ _
  · have h3 : Secured s2 s3 := by
      simp only [s3]
      split
      · exact s2.storeMoment_secured _ _ _ _
      · exact .refl _
    exact h3.trans (s3.stepBlock_secured _ _ _ _)

theorem State.countUpd_secured (s : State) (b : Bucket) (n : Nat) : Secured s (s.countUpd b n) := by
  unfold State.countUpd State.hubMoved
  split
  · dsimp only
    split <;> exact ⟨rfl, .inl rfl⟩
  · exact .refl s

theorem State.raiseTierBad_raised (s : State) (o : Option Nat) (a : Nat) : Raised s (s.raiseTierBad o a) := State.raise0_raised ..

theorem State.tick_secured (s : State) : Secured s s.tick := ⟨rfl, .inl rfl⟩

theorem State.reportPoison_secured (s : State) (a n : Nat) : Secured s (s.reportPoison a n) := by
  unfold State.reportPoison
  split
  · split
    · exact (Secured.of_raised (s.raiseTierBad_raised _ _)).trans (State.tick_secured _)
    · exact .refl s
  · refine foldl_secured (fun u c => ?_) _ s
    extract_lets a
    split
    · split
      · exact (Secured.of_raised (State.raise0_raised _ _ _ _)).trans (.of_stored (State.countUe_stored _ _ _))
      · exact .refl u
    · exact .refl u

theorem State.requestAbort_secured (s : State) (j k : Nat) : Secured s (s.requestAbort j k) := by
  unfold State.requestAbort
  split
  · exact .refl s
  · split
    · exact .of_stepped (s.masterToken_stepped _ _ _)
    · exact .of_stepped (s.inject_stepped _)

theorem State.unitPoisoned_secured (s : State) (j i : Nat) (p : Plan) (r : Nat × Nat) : Secured s (s.unitPoisoned j i p r) := by
  unfold State.unitPoisoned
  extract_lets s1
  exact ((Secured.of_stepped (s.updBucket_stepped _ _ _)).trans (s1.reportPoison_secured _ _)).trans
    ((Secured.of_faulted (State.faultCtx_faulted _ _ _ _ _ _ _)).trans (State.requestAbort_secured _ _ _))

theorem State.updateHeld_secured (s : State) (j i : Nat) (clip : Option Word) : Secured s (s.updateHeld j i clip) := by
  unfold State.updateHeld
  split
  · exact .refl s
  · rename_i p b _
    extract_lets x
    split
    · exact s.unitPoisoned_secured _ _ _ _
    · have key : ∀ z : State × Norms, Secured s z.1 →
          Secured s ((z.1.updBucket j i fun b => { b with shadowWritten := true, wsq := z.2.1, dsq := z.2.2 }).countUpd b 0) :=
        fun z hz => (hz.trans (.of_stepped (z.1.updBucket_stepped _ _ _))).trans (State.countUpd_secured _ _ _)
      have hz : Secured s (if (s.unitOf b).isNone then (s, ((0, 0) : Norms)) else if x.factored then s.factoredUpdate x clip
          else (List.range b.nchunk).foldl (fun (acc : State × Norms) c => acc.1.updateChunkBlocks x clip c (acc.1.heldChunk x c) acc.2) (s, (0, 0))).1 := by
        split
        · exact .refl s
        · split
          · exact s.factoredUpdate_secured _ _
          · exact foldl_secured_fst (fun a c => a.1.updateChunkBlocks_secured _ _ _ _ _) _ (s, (0, 0))
      exact key _ hz

theorem State.updateClipped_secured (s : State) (j : Nat) : Secured s (s.updateClipped j) := by
  unfold State.updateClipped
  split
  · split
    · refine Secured.trans ?_ (.of_stepped (State.rounds_stepped _ _))
      unfold State.updateAllHeld
      split
      · exact .refl s
      · exact foldl_secured (fun u e => u.updateHeld_secured _ _ _) _ s
    · exact .refl s
  · exact .refl s

/-! Steps of a plan. -/

theorem State.fabricAbort_secured (s : State) (j : Nat) (p : Plan) (r : Nat) (f : Bool) : Secured s (s.fabricAbort j p r f) := by
  unfold State.fabricAbort
  extract_lets s1
  have h1 : Secured s s1 := (Secured.of_stepped (s.stopStep_stepped j)).trans (.of_stepped (State.raisePlan_stepped _ _ _ _))
  split
  · exact h1.trans (.of_stepped (s1.masterToken_stepped _ _ _))
  · split
    · exact h1.trans (.of_stepped (s1.closeAborted_stepped _))
    · exact h1.trans (.of_stepped (s1.updPlan_stepped _ _))

/-! Admin requests. -/

theorem State.answerAdmin_secured (s : State) (q : AdminReq) (k : Nat) (l : List Byte) : Secured s (s.answerAdmin q k l) :=
  .of_only (s.answerAdmin_only q k l) (by decide) (by decide)

theorem State.rejectSession_secured (s : State) (q : AdminReq) (r n : Nat) : Secured s (s.rejectSession q r n) :=
  .of_raised (s.raise0_raised _ _ _)

theorem State.sessionFailure_secured (s : State) (q : AdminReq) (r k : Nat) : Secured s (s.sessionFailure q r k) := by
  unfold State.sessionFailure
  extract_lets t n z s1
  have h1 : Secured s s1 := Secured.trans (t := { s with sec := { s.sec with fails := Tab.set (fun _ => 0) s.sec.fails t n } }) ⟨rfl, .inl rfl⟩
    (State.rejectSession_secured _ _ _ _)
  split
  · exact h1
  · exact h1.trans (Secured.trans (t := { s1 with sec := { s1.sec with locked := Tab.set (fun _ => none) s1.sec.locked t (some s1.now) } })
      ⟨rfl, .inl rfl⟩ (State.rejectSession_secured _ _ _ _))

theorem State.advanceSeq_secured (s : State) (q : AdminReq) : Secured s (s.advanceSeq q) := by
  unfold State.advanceSeq
  split
  · exact ⟨rfl, .inl rfl⟩
  · exact .refl s

theorem State.checkAdmin_secured (s : State) (q : AdminReq) : Secured s (s.checkAdmin q).1 := by
  unfold State.checkAdmin
  split
  · exact ⟨rfl, .inl rfl⟩
  · split
    · exact s.sessionFailure_secured _ _ _
    · extract_lets s1
      have h1 : Secured s s1 := by
        simp only [s1]
        split
        · exact .refl s
        · exact s.advanceSeq_secured q
      split
      · exact h1.trans (s1.answerAdmin_secured _ _ _)
      · exact h1

theorem State.popAdmin_secured (s : State) : Secured s s.popAdmin := ⟨rfl, .inl rfl⟩

theorem State.clearUnknown_secured (n : Nat) : ∀ s : State, Secured s (State.clearUnknown n s) := by
  induction n with
  | zero => exact fun s => .refl s
  | succ n ih =>
    intro s
    unfold State.clearUnknown
    split
    · split
      · exact .refl s
      · exact (s.popAdmin_secured.trans (State.checkAdmin_secured _ _)).trans (ih _)
    · exact .refl s

theorem State.arriveAdmin_secured (s : State) (f : AdminFrom) : Secured s (s.arriveAdmin f) := by
  unfold State.arriveAdmin
  split
  · exact .refl s
  · unfold State.mctp
    split
    · exact ⟨rfl, .inl rfl⟩
    · split <;> exact ⟨rfl, .inl rfl⟩

/-- An admin command holds what its action holds. -/
theorem State.serveAdmin_secured (s : State) (f : AdminFrom) (op : Nat) (ok : AdminReq → Bool) (act : AdminReq → State → State)
    (h : ∀ q u, Secured u (act q u)) : Secured s (s.serveAdmin f op ok act) := by
  unfold State.serveAdmin
  extract_lets e s1 s2
  have h1 : Secured s s1 := s.arriveAdmin_secured f
  have h2 : Secured s s2 := by
    simp only [s2]
    split
    · exact h1
    · exact h1.trans (State.clearUnknown_secured _ _)
  split
  · exact h2
  · split
    · exact h2
    · rename_i q _ _ _
      have h3 : Secured s (s2.popAdmin.checkAdmin q).1 := (h2.trans s2.popAdmin_secured).trans (State.checkAdmin_secured _ _)
      split
      · rename_i u e; rw [e] at h3; exact h3
      · rename_i u e; rw [e] at h3
        split
        · exact h3.trans (h _ _)
        · exact h3.trans (u.answerAdmin_secured _ _ _)

theorem answering_secured (act : AdminReq → State → State × Nat) (h : ∀ q u, Secured u (act q u).1) (q : AdminReq) (s : State) :
    Secured s (answering act q s) := (h q s).trans (State.answerAdmin_secured _ _ _ _)

theorem State.setSession_secured (s : State) (n : Nat) (x : Session) : Secured s (s.setSession n x) := ⟨rfl, .inl rfl⟩

theorem State.answerOpen_secured (s : State) (q : AdminReq) (b : List Byte) : Secured s (s.answerOpen q b) := by
  unfold State.answerOpen
  split
  · refine Secured.trans ?_ (.of_raised (State.adminDone_raised _ _ _))
    split
    · exact ⟨rfl, .inl rfl⟩
    · exact .refl s
  · exact s.answerAdmin_secured _ _ _

theorem openPhase1_secured (q : AdminReq) (s : State) : Secured s (openPhase1 q s) := by
  unfold openPhase1
  split
  · exact (s.rejectSession_secured _ _ _).trans (State.answerAdmin_secured _ _ _ _)
  · extract_lets nm
    exact Secured.trans (t := State.setSession s.tick _ _) ⟨rfl, .inl rfl⟩ (State.answerOpen_secured _ _ _)

theorem openPhase2_secured (q : AdminReq) (s : State) : Secured s (openPhase2 q s) := by
  unfold openPhase2
  extract_lets n
  split
  · exact s.rejectSession_secured _ _ _
  · exact s.sessionFailure_secured _ _ _
  · split
    · exact s.sessionFailure_secured _ _ _
    · split
      · exact (s.setSession_secured _ _).trans (State.rejectSession_secured _ _ _ _)
      · split
        · exact s.sessionFailure_secured _ _ _
        · split
          · exact s.sessionFailure_secured _ _ _
          · extract_lets ks s1
            have h1 : Secured s s1 := s.setSession_secured _ _
            exact h1.trans (Secured.trans (t := { s1 with sec := _ }) ⟨rfl, .inl rfl⟩ (State.answerOpen_secured _ _ _))

theorem openSession_secured (f : AdminFrom) (s : State) : Secured s (openSession f s) := by
  refine s.serveAdmin_secured _ _ _ _ (fun q u => ?_)
  split
  · exact openPhase1_secured q u
  · exact openPhase2_secured q u

theorem State.deleteRing_secured (s : State) (n : Nat) (q : Option AdminReq) : Secured s (s.deleteRing n q) := by
  unfold State.deleteRing
  split
  · exact .refl s
  · exact ((Secured.of_raised (s.setRing_raised _ _)).trans (.of_completed (State.completeAll_completed _ _ _))).trans
      (.of_raised (State.finishDelete_raised _ _))

theorem State.deleteRingsOf_secured (s : State) (n : Nat) : Secured s (s.deleteRingsOf n) := by
  refine foldl_secured (fun u k => ?_) _ s
  split
  · split
    · exact u.deleteRing_secured _ _
    · exact .refl u
  · exact .refl u

theorem closeSession_secured (f : AdminFrom) (s : State) : Secured s (closeSession f s) :=
  s.serveAdmin_secured _ _ _ _ fun _ u =>
    ((Secured.of_only (u.endSessions_only _) (by decide) (by decide)).trans (State.deleteRingsOf_secured _ _)).trans (State.answerAdmin_secured _ _ _ _)

theorem ringCreate_secured (f : AdminFrom) (s : State) : Secured s (ringCreate f s) := by
  refine s.serveAdmin_secured _ _ _ _ (answering_secured _ (fun q u => ?_))
  split
  · exact .refl u
  · exact .of_raised (u.setRing_raised _ _)

theorem ringDelete_secured (f : AdminFrom) (s : State) : Secured s (ringDelete f s) := by
  refine s.serveAdmin_secured _ _ _ _ (fun q u => ?_)
  split
  · split
    · exact u.deleteRing_secured _ _
    · exact u.answerAdmin_secured _ _ _
  · exact u.answerAdmin_secured _ _ _

theorem State.requestReset_secured (s : State) (r : InReset) : Secured s (s.requestReset r) :=
  .of_only (s.requestReset_only r) (by decide) (by decide)
theorem State.requestWarm_secured (s : State) (a b c : Nat) (d e : Bool) : Secured s (s.requestWarm a b c d e) := s.requestReset_secured _
theorem State.requestCold_secured (s : State) (a b : Nat) : Secured s (s.requestCold a b) := s.requestReset_secured _

theorem reset_secured (f : AdminFrom) (s : State) : Secured s (reset f s) := by
  refine s.serveAdmin_secured _ _ _ _ (fun q u => ?_)
  extract_lets source
  split
  · exact u.requestReset_secured _
  · exact u.requestWarm_secured _ _ _ _ _
  · exact u.requestCold_secured _ _
  · exact .of_only (u.requestSmall_only _) (by decide) (by decide)

theorem clearRepair_secured (f : AdminFrom) (s : State) : Secured s (clearRepair f s) :=
  s.serveAdmin_secured _ _ _ _ (answering_secured _ fun _ _ => ⟨rfl, .inl rfl⟩)

theorem marginReplan_secured (f : AdminFrom) (s : State) : Secured s (marginReplan f s) :=
  s.serveAdmin_secured _ _ _ _ (answering_secured _ fun _ _ => ⟨rfl, .inl rfl⟩)

theorem assignDevid_secured (f : AdminFrom) (s : State) : Secured s (assignDevid f s) := by
  refine s.serveAdmin_secured _ _ _ _ (answering_secured _ (fun q u => ?_))
  extract_lets id
  split
  · exact .refl u
  · exact ⟨rfl, .inl rfl⟩

theorem routeWrite_secured (f : AdminFrom) (s : State) : Secured s (routeWrite f s) := by
  refine s.serveAdmin_secured _ _ _ _ (answering_secured _ (fun q u => foldl_secured (fun v i => ?_) _ u))
  unfold State.setRoute
  split <;> exact ⟨rfl, .inl rfl⟩

theorem planInstall_secured (f : AdminFrom) (s : State) : Secured s (planInstall f s) := by
  refine s.serveAdmin_secured _ _ _ _ (answering_secured _ (fun q u => ?_))
  extract_lets p
  split
  · split
    · exact .of_stepped (u.setPlan_stepped _ _)
    · exact .refl u
  · exact .refl u

theorem State.removePlan_secured (s : State) (j : Nat) : Secured s (s.removePlan j) := ⟨rfl, .inl rfl⟩

theorem planRemove_secured (f : AdminFrom) (s : State) : Secured s (planRemove f s) := by
  refine s.serveAdmin_secured _ _ _ _ (answering_secured _ (fun q u => ?_))
  split
  · exact (Secured.of_stepped (u.leavePlan_stepped _)).trans (State.removePlan_secured _ _)
  · exact .refl u

theorem stepAbort_secured (f : AdminFrom) (s : State) : Secured s (stepAbort f s) := by
  refine s.serveAdmin_secured _ _ _ _ (answering_secured _ (fun q u => ?_))
  split
  · split
    · exact u.fabricAbort_secured _ _ _ _
    · exact .refl u
  · exact .refl u

theorem revert_secured (f : AdminFrom) (s : State) : Secured s (revert f s) := by
  refine s.serveAdmin_secured _ _ _ _ (answering_secured _ (fun q u => ?_))
  split
  · split
    · exact .of_stepped (u.setPlan_stepped _ _)
    · exact .refl u
  · exact .refl u

theorem clipCoeff_secured (f : AdminFrom) (s : State) : Secured s (clipCoeff f s) := by
  refine s.serveAdmin_secured _ _ _ _ (answering_secured _ (fun q u => ?_))
  split
  · split
    · exact (Secured.of_stepped (u.masterClip_stepped _ _)).trans (State.updateClipped_secured _ _)
    · exact .refl u
  · exact .refl u

/-! Other commands of the management processor. -/

theorem State.readDie_secured (u : State) (d : Nat) (t : BitVec 12) : Secured u (u.readDie d t) := by
  unfold State.readDie
  extract_lets old l z u1 g u2
  have k1 : Secured u u1 := ⟨rfl, .inl rfl⟩
  have k2 : Secured u1 u2 := by
    simp only [u2]
    split
    · exact .of_raised (State.raise0_raised _ _ _ _)
    · exact .refl _
  split
  · exact (k1.trans k2).trans (.of_raised (State.raise0_raised _ _ _ _))
  · exact k1.trans k2

theorem State.throttleDie_secured (u : State) (d : Nat) : Secured u (u.throttleDie d) := by
  unfold State.throttleDie
  split
  · exact ⟨rfl, .inl rfl⟩
  · exact .refl u

theorem State.refreshHot_secured (u : State) : Secured u u.refreshHot := ⟨rfl, .inl rfl⟩

theorem State.trip_secured (u : State) (x : PowerSample) : Secured u (u.trip x) := by
  unfold State.trip
  split
  · exact Secured.trans (t := { u with pins := { u.pins with thermTripN := false } }) ⟨rfl, .inl rfl⟩ (State.requestCold_secured _ _ _)
  · exact .refl u

theorem powerEvaluation_secured (x : PowerSample) (s : State) : Secured s (powerEvaluation x s) := by
  unfold powerEvaluation
  extract_lets total src p s1 s2 s3 f m s4
  have h1 : Secured s s1 := ⟨rfl, .inl rfl⟩
  have h2 : Secured s1 s2 := ((s1.readDie_secured 0 _).trans (State.readDie_secured _ 1 _)).trans (State.readDie_secured _ 2 _)
  have h3 : Secured s2 s3 := ((s2.throttleDie_secured 0).trans (State.throttleDie_secured _ 1)).trans (State.refreshHot_secured _)
  clear_value s3
  have h4 : Secured s3 s4 := ⟨rfl, .inl rfl⟩
  exact ((((h1.trans h2).trans h3).trans h4).trans (s4.trip_secured x)).trans (.of_only (State.reclockAll_only _) (by decide) (by decide))

theorem pohHour_secured (s : State) : Secured s (pohHour s) := ⟨rfl, .inl rfl⟩

theorem replan_secured (a : Nat) (r : ReplanReading) (s : State) : Secured s (replan a r s) := by
  unfold replan
  extract_lets pending need
  split
  · exact .refl s
  · split
    · split
      · exact .refl s
      · refine Secured.trans (Secured.trans (Secured.trans (t := s.writePlan a need) ⟨rfl, .inl rfl⟩ ?_)
          (.of_only (State.reclock_only _ a) (by decide) (by decide))) (State.service_secured _)
        unfold State.marginLow
        extract_lets n
        split
        · exact .of_raised (State.raise0_raised _ _ _ _)
        · exact .refl _
    · split
      · exact Secured.trans (t := { s with flash := _ }) ⟨rfl, .inl rfl⟩ (State.service_secured _)
      · exact .refl s

theorem State.comeUp_secured (s : State) (p : Nat) (peer : BitVec 16) (v : Bool) (alloc : List Nat) : Secured s (s.comeUp p peer v alloc) := by
  unfold State.comeUp
  extract_lets y s2 s3
  have h2 : Secured s s2 := .of_only (State.setPort_only _ _ _) (by decide) (by decide)
  exact (h2.trans (.of_raised (s2.raise0_raised _ _ _))).trans (State.service_secured _)

theorem linkTrained_secured (p : Nat) (s : State) : Secured s (linkTrained p s) := by
  unfold linkTrained
  extract_lets x s1
  split
  · exact .refl s
  · have h1 : Secured s s1 := .of_only (State.setPort_only _ _ _) (by decide) (by decide)
    split
    · exact h1.trans (s1.comeUp_secured _ _ _ _)
    · exact h1

theorem handshake_secured (p : Nat) (h : Handshake) (s : State) : Secured s (handshake p h s) := by
  unfold handshake
  extract_lets x s1
  split
  · exact .refl s
  · split
    · exact Secured.trans (t := s1) (.of_only (State.setPort_only _ _ _) (by decide) (by decide)) (.of_raised (State.raise0_raised _ _ _ _))
    · exact s.comeUp_secured _ _ _ _

theorem pldmFirmwareComponent_secured (c : Component) (s : State) : Secured s (pldmFirmwareComponent c s) := by
  unfold pldmFirmwareComponent
  split
  · exact .of_raised (State.raise0_raised _ _ _ _)
  · unfold State.writeComponent
    split
    · split <;> exact ⟨rfl, .inl rfl⟩
    · exact ⟨rfl, .inl rfl⟩
    · exact ⟨rfl, .inl rfl⟩

theorem setEndpointId_secured (p : Nat) (e : Byte) (s : State) : Secured s (setEndpointId p e s) := by
  unfold setEndpointId State.mctp
  split
  · exact ⟨rfl, .inl rfl⟩
  · split
    · exact ⟨rfl, .inl rfl⟩
    · exact .refl s

theorem State.mapStack_secured (s : State) (n : Nat) : Secured s (s.mapStack n) := by
  unfold State.mapStack
  extract_lets k live gone s1 z s2
  have h1 : Secured s s1 := ⟨rfl, .inl rfl⟩
  have h2 : Secured s1 s2 := ⟨rfl, .inl rfl⟩
  exact (h1.trans h2).trans (foldl_secured (fun u c => .of_raised (State.raise0_raised _ _ _ _)) _ s2)

theorem State.mapDie_secured (s : State) (d : Nat) : Secured s (s.mapDie d) := by
  unfold State.mapDie
  extract_lets mine before s1 after mapped z s2
  have h1 : Secured s s1 := foldl_secured State.mapStack_secured _ s
  clear_value mapped
  clear_value s1
  have h2 : Secured s1 s2 := ⟨rfl, .inl rfl⟩
  split
  · exact h1.trans h2
  · exact (h1.trans h2).trans (.of_only (State.scrambleRange_only _ _) (by decide) (by decide))

theorem hbmTrained_secured (d : Nat) (failed : List (Nat × Nat)) (s : State) : Secured s (hbmTrained d failed s) := by
  unfold hbmTrained
  extract_lets s1 s2 z s3
  split
  · exact .refl s
  · have h1 : Secured s s1 := foldl_secured (fun u f => .of_stored (u.condemn_stored _ _ _)) _ s
    have h2 : Secured s1 s2 := s1.mapDie_secured d
    have h3 : Secured s2 s3 := Secured.trans (t := { s2 with boot := _ }) ⟨rfl, .inl rfl⟩ (State.service_secured _)
    split
    · exact (h1.trans h2).trans h3
    · refine ((h1.trans h2).trans h3).trans ?_
      split <;> exact ⟨rfl, .inl rfl⟩

theorem resetDone_secured (s : State) : Secured s (resetDone s) := by
  unfold resetDone
  extract_lets s1
  have h1 : Secured s s1 := s.service_secured
  split
  · exact h1
  · split
    · exact h1
    · extract_lets flags s2 s3
      have h2 : Secured s1 s2 := .of_raised (State.raise0_raised _ _ _ _)
      have h3 : Secured s2 s3 := by
        simp only [s3]
        split
        · exact .of_raised (State.raise0_raised _ _ _ _)
        · exact .refl _
      exact ((h1.trans h2).trans h3).trans (.of_only s3.endRecovery_only (by decide) (by decide))

/-! Every command is of one of five kinds. -/

/-- Who performs a command: 0 the module, while no reset holds it; 1 the reset controller; 2 what acts even after a boundary scan; 3 the test logic. -/
def actorOf (c : Instr) : Nat :=
  match c with
  | .testLogicReset | .extest _ | .idcode _ | .samplePreload _ | .clamp _ | .highz _ | .extestPulse _ | .extestTrain _ | .bypass _ _ => 3
  | .powerOn | .pwrOkLow | .coldModuleReset => 2
  | .perstNLow | .functionLevelReset | .railResetLevel _ | .warmModuleReset | .resetStretchEnd _ _ | .arrayResetEscalate _ => 1
  | _ => 0

/-- How a command is performed. -/
inductive Performed (c : Instr) (s : State) : Prop where
  | live {f : State → State} (a : actorOf c = 0) (h : exec c s = live s f)
  | mp {f : State → State} (a : actorOf c = 0) (h : exec c s = liveMp s f) (k : Secured s (f s) ∨ ∃ r, c = .clearOutOfService r)
  | reset {f : State → State} (a : actorOf c = 1) (h : exec c s = liveReset s f)
  | always {f : State → State} (a : actorOf c = 2) (h : exec c s = always s f)
  | tap {f : Tap → Tap} (a : actorOf c = 3) (h : exec c s = tapDo s f)

theorem performed (c : Instr) (s : State) : Performed c s := by
  cases c
  case assignDevid r => exact .mp rfl rfl (.inl (assignDevid_secured _ s))
  case clearRepair r => exact .mp rfl rfl (.inl (clearRepair_secured _ s))
  case clipCoeff r => exact .mp rfl rfl (.inl (clipCoeff_secured _ s))
  case closeSession r => exact .mp rfl rfl (.inl (closeSession_secured _ s))
  case handshake p h => exact .mp rfl rfl (.inl (handshake_secured _ _ s))
  case hbmTrained d f => exact .mp rfl rfl (.inl (hbmTrained_secured _ _ s))
  case linkTrained p => exact .mp rfl rfl (.inl (linkTrained_secured _ s))
  case marginReplan r => exact .mp rfl rfl (.inl (marginReplan_secured _ s))
  case openSession r => exact .mp rfl rfl (.inl (openSession_secured _ s))
  case planInstall r => exact .mp rfl rfl (.inl (planInstall_secured _ s))
  case planRemove r => exact .mp rfl rfl (.inl (planRemove_secured _ s))
  case pldmFirmwareComponent c => exact .mp rfl rfl (.inl (pldmFirmwareComponent_secured _ s))
  case pohHour => exact .mp rfl rfl (.inl (pohHour_secured s))
  case powerEvaluation x => exact .mp rfl rfl (.inl (powerEvaluation_secured _ s))
  case replan a r => exact .mp rfl rfl (.inl (replan_secured _ _ s))
  case reset r => exact .mp rfl rfl (.inl (reset_secured _ s))
  case resetDone => exact .mp rfl rfl (.inl (resetDone_secured s))
  case revert r => exact .mp rfl rfl (.inl (revert_secured _ s))
  case ringCreate r => exact .mp rfl rfl (.inl (ringCreate_secured _ s))
  case ringDelete r => exact .mp rfl rfl (.inl (ringDelete_secured _ s))
  case routeWrite r => exact .mp rfl rfl (.inl (routeWrite_secured _ s))
  case setEndpointId e => exact .mp rfl rfl (.inl (setEndpointId_secured _ _ s))
  case stepAbort r => exact .mp rfl rfl (.inl (stepAbort_secured _ s))
  case railResetLevel r => exact .reset rfl rfl
  case perstNLow => exact .reset rfl rfl
  case functionLevelReset => exact .reset rfl rfl
  case warmModuleReset => exact .reset rfl rfl
  case resetStretchEnd v o => exact .reset rfl rfl
  case arrayResetEscalate a => exact .reset rfl rfl
  case powerOn => exact .always rfl rfl
  case pwrOkLow => exact .always rfl rfl
  case coldModuleReset => exact .always rfl rfl
  case testLogicReset => exact .tap rfl rfl
  case extest d => exact .tap rfl rfl
  case idcode d => exact .tap rfl rfl
  case samplePreload d => exact .tap rfl rfl
  case clamp d => exact .tap rfl rfl
  case highz d => exact .tap rfl rfl
  case extestPulse d => exact .tap rfl rfl
  case extestTrain d => exact .tap rfl rfl
  case bypass d o => exact .tap rfl rfl
  case clearOutOfService r => exact .mp rfl rfl (.inr ⟨r, rfl⟩)
  all_goals exact .live rfl rfl

theorem exec_pending {c : Instr} {s t : State} (h : exec c s = .next t) : t.pending = s.pending := by
  cases performed c s with
  | live _ e =>
    rw [e] at h
    rcases (live_next h).2 with ⟨-, rfl⟩ | ⟨-, rfl⟩ <;> rfl
  | mp _ e _ =>
    rw [e] at h
    rcases (liveMp_next h).2 with ⟨-, rfl⟩ | ⟨-, rfl⟩ <;> rfl
  | reset _ e => rw [e] at h; rw [(liveReset_next h).2]
  | always _ e => rw [e] at h; cases h; rfl
  | tap _ e => rw [e] at h; cases h; rfl

end Sys2Proof.Machine
end

