-- ==== Sys2Proof/Laws/Ticks.lean ====
section
/-!
SUPPORT. What a reference period changes: during a module reset the time alone; otherwise the counters and RST_OUT_N, then the stall counters, the
books of engines, arrays and plans, the write slots, the draining ports, and what is due in the steps of installed plans.
-/
namespace Sys2Proof.Machine

theorem State.watchCredits_only (u : State) : ChangesOnly [.red] u u.watchCredits := by
  unfold State.watchCredits
  extract_lets w n
  split
  · exact .refl _ u
  · intro p hp; cases p <;> first | (exfalso; revert hp; decide) | rfl

theorem State.watchEngines_only (u : State) : ChangesOnly [.engines] u u.watchEngines := by
  intro p hp; cases p <;> first | (exfalso; revert hp; decide) | rfl

theorem State.watchArrays_only (u : State) : ChangesOnly [.arrays] u u.watchArrays := by
  intro p hp; cases p <;> first | (exfalso; revert hp; decide) | rfl

theorem State.freeWriteSlots_only (u : State) : ChangesOnly [.hbm] u u.freeWriteSlots := by
  intro p hp; cases p <;> first | (exfalso; revert hp; decide) | rfl

theorem State.countStall_only (u : State) (e c n : Nat) : ChangesOnly [.tel] u (u.countStall e c n) := by
  intro p hp; cases p <;> first | (exfalso; revert hp; decide) | rfl

theorem State.countEngines_only (u : State) : ChangesOnly [.tel, .engines] u u.countEngines := by
  refine foldl_only (fun v e => ?_) _ u
  extract_lets w
  have h : ChangesOnly [.tel, .engines] v w := (v.countStall_only _ _ _).mono (by decide)
  split
  · exact h.trans ((w.setEngine_only _ _).mono (by decide))
  · exact h

theorem State.countHub_only (u : State) : ChangesOnly [.tel] u u.countHub := by
  unfold State.countHub
  extract_lets v
  have h : ChangesOnly [.tel] u v := foldl_only (fun w e => w.countStall_only _ _ _) _ u
  clear_value v
  refine h.trans ?_
  intro p hp; cases p <;> first | (exfalso; revert hp; decide) | rfl

theorem State.endDrains_only (u : State) : ChangesOnly [.fab] u u.endDrains :=
   foldl_only (fun v p => v.afterDrain_only p) _ u

/-- What the completion of small resets can change; of the pins only ALERT_N. -/
def Ended (s t : State) : Prop := ChangesOnly [.rst, .mem, .hif, .out, .pldm, .pins, .fab] s t ∧ t.pins.rstOutN = s.pins.rstOutN

theorem Ended.trans {s t u : State} (h : Ended s t) (k : Ended t u) : Ended s u := ⟨h.1.trans k.1, k.2.trans h.2⟩
theorem Ended.of_raised {s t : State} (h : Raised s t) : Ended s t :=
  ⟨h.only.mono (by decide), by obtain ⟨⟨m, x, o, p, b, rfl⟩, -⟩ := h; rfl⟩
theorem Ended.of_only {l : List Part} {s t : State} (h : ChangesOnly l s t)
    (hl : ∀ p ∈ l, p ∈ [Part.rst, .mem, .hif, .out, .pldm, .fab]) : Ended s t :=
  ⟨h.mono fun p hp => (by decide : ∀ p ∈ [Part.rst, .mem, .hif, .out, .pldm, .fab], p ∈ [Part.rst, .mem, .hif, .out, .pldm, .pins, .fab]) p (hl p hp),
    congrArg Pins.rstOutN (h .pins fun q => (by decide : Part.pins ∉ [Part.rst, .mem, .hif, .out, .pldm, .fab]) (hl _ q))⟩

theorem State.answerAdmin_ended (s : State) (q : AdminReq) (k : Nat) (l : List Byte) : Ended s (s.answerAdmin q k l) := by
  unfold State.answerAdmin
  split
  · exact .of_raised (s.adminDone_raised q k)
  · extract_lets b p
    split
    · exact .of_only (ChangesOnly.out s _) (by decide)
    · split
      · exact .of_only (s.forward_only _ _ _) (by decide)
      · exact .of_only (s.inject_only _) (by decide)

theorem State.smallDone_ended (s : State) (r : SmallReset) (i : Nat) : Ended s (s.smallDone r i) := by
  unfold State.smallDone State.raiseDone
  extract_lets u
  have h : Ended s u :=
    (Ended.of_only (l := [.rst]) (by intro p hp; cases p <;> first | (exfalso; revert hp; decide) | rfl) (by decide)).trans
      (.of_raised ((s.dropSmall r).raise0_raised _ _ _))
  clear_value u
  split
  · exact h.trans (u.answerAdmin_ended _ _ _)
  · exact h

theorem State.endSmall_ended (s : State) : Ended s s.endSmall := by
  refine foldl_keeps (r := Ended) (fun u => ⟨.refl _ u, rfl⟩) Ended.trans (fun u r => ?_) _ s
  dsimp only
  split
  · split
    · exact ⟨.refl _ u, rfl⟩
    · have h := u.smallDone_ended r r.index
      split
      · exact h.trans (.of_only (State.portLeaves_only _ _) (by decide))
      · exact h
  · exact ⟨.refl _ u, rfl⟩

theorem State.pollPlans_stepped (u : State) : Stepped u u.pollPlans := by
  refine foldl_stepped (fun v j => ?_) _ u
  split
  · exact v.rounds_stepped j
  · exact .refl v

/-- The clocks of a period: the always-on counter, then each domain's. -/
def State.ticked (s : State) : State := [1, 2, 3, 4, 5, 6].foldl State.advance { s with now := s.now + 1 }

theorem State.ticked_only (s : State) : ChangesOnly [.now, .ctrs] s s.ticked := by
  intro p hp; cases p <;> first | (exfalso; revert hp; decide) | rfl

theorem State.idle_held (s : State) (h : s.rst.active.isSome = true) : s.idle = { s with now := s.now + 1 } := by
  unfold State.idle
  extract_lets s1
  exact if_pos h

/-- RST_OUT_N at the end of a period. -/
def State.tickEnd (u : State) : State :=
  { u with pins := { u.pins with rstOutN := u.pins.rstOutN || decide ((match u.rst.recovering with | some r => r.at_ | none => 0) + 200000 ≤ u.now) } }

theorem State.tickEnd_only (u : State) : ChangesOnly [.pins] u u.tickEnd := by
  intro p hp; cases p <;> first | (exfalso; revert hp; decide) | rfl

/-- The books of a period. -/
def State.booked (u : State) : State := u.countEngines.countHub.watchEngines.watchArrays.watchCredits.freeWriteSlots.endDrains

theorem State.booked_only (u : State) : ChangesOnly [.tel, .engines, .arrays, .red, .hbm, .fab] u u.booked :=
  (((((((State.countEngines_only _).mono (by decide)).trans ((State.countHub_only _).mono (by decide))).trans
    ((State.watchEngines_only _).mono (by decide))).trans ((State.watchArrays_only _).mono (by decide))).trans
    ((State.watchCredits_only _).mono (by decide))).trans ((State.freeWriteSlots_only _).mono (by decide))).trans ((State.endDrains_only _).mono (by decide))

theorem State.idle_running (s : State) (h : s.rst.active = none) : s.idle = s.ticked.tickEnd.booked.endSmall.pollPlans := by
  unfold State.idle
  extract_lets s1 s2 began z s3
  have n1 : ¬ s1.rst.active.isSome = true := by
    show ¬ s.rst.active.isSome = true
    rw [h]
    decide
  have e2 : s2 = s.ticked := rfl
  rw [if_neg n1, ← e2]
  clear_value s2
  have e : s3 = s2.tickEnd := rfl
  rw [e]
  rfl

theorem State.idle_only (s : State) : ChangesOnly [.now, .ctrs, .pins, .tel, .engines, .arrays, .red, .hbm, .mem, .hif, .out, .pldm, .flash, .dsc, .sync,
    .fab, .rst] s s.idle := by
  cases h : s.rst.active with
  | some r =>
    rw [s.idle_held (by simp [h])]
    intro p hp; cases p <;> first | (exfalso; revert hp; decide) | rfl
  | none =>
    rw [s.idle_running h]
    exact ((((s.ticked_only.mono (by decide)).trans (s.ticked.tickEnd_only.mono (by decide))).trans ((State.booked_only _).mono (by decide))).trans
      ((State.endSmall_ended _).1.mono (by decide))).trans ((State.pollPlans_stepped _).1.mono (by decide))

/-- Of the boot flash a period changes no more than the repair record. -/
theorem State.idle_repaired (s : State) : Repaired s.flash s.idle.flash := by
  cases h : s.rst.active with
  | some r => rw [s.idle_held (by simp [h])]; exact .refl _
  | none =>
    rw [s.idle_running h]
    have e : s.ticked.tickEnd.booked.endSmall.flash = s.flash := ((State.endSmall_ended _).1 .flash (by decide)).trans <|
      ((State.booked_only _) .flash (by decide)).trans (((State.tickEnd_only _) .flash (by decide)).trans
      (s.ticked_only .flash (by decide)))
    have k := (State.pollPlans_stepped s.ticked.tickEnd.booked.endSmall).2.1
    rw [e] at k
    exact k

end Sys2Proof.Machine
end

