-- ==== Sys2Proof/Laws/Boot.lean ====
section
/-!
SUPPORT. What the rows that change the counters, the latch, the log and the running firmware do to them: the boot, the module resets and
CLEAR_OUT_OF_SERVICE.
-/
namespace Sys2Proof.Machine

/-- Counters only rise, revoked keys stay revoked, FW_SVN moves only to the SVN that runs, and the latch holds. -/
def Tight (s t : State) : Prop :=
  s.flash.fwSvn.toNat ≤ t.flash.fwSvn.toNat ∧ s.flash.cfgVersion.toNat ≤ t.flash.cfgVersion.toNat ∧ s.flash.keyVersion.toNat ≤ t.flash.keyVersion.toNat
    ∧ t.flash.revoke = s.flash.revoke ∧ (t.flash.fwSvn ≠ s.flash.fwSvn → t.flash.fwSvn = s.boot.fwSvnRunning)

theorem Secured.parts {s t : State} (h : Secured s t) : t.flash.cfgVersion = s.flash.cfgVersion ∧ t.flash.keyVersion = s.flash.keyVersion
    ∧ t.flash.revoke = s.flash.revoke ∧ t.flash.oos = s.flash.oos ∧ t.flash.resetLog = s.flash.resetLog ∧ t.flash.count24 = s.flash.count24
    ∧ t.boot.image = s.boot.image ∧ t.boot.cfg = s.boot.cfg ∧ t.boot.fwSvnRunning = s.boot.fwSvnRunning := by
  have := h.1
  unfold State.held at this
  simpa [Prod.mk.injEq] using this

theorem Secured.tight {s t : State} (h : Secured s t) : Tight s t := by
  obtain ⟨h1, h2, h3, -⟩ := h.parts
  unfold Tight
  rw [h1, h2, h3]
  rcases h.2 with e | ⟨l, e⟩
  · rw [e]; exact ⟨Nat.le_refl _, Nat.le_refl _, Nat.le_refl _, rfl, fun k => absurd rfl k⟩
  · rw [e]; exact ⟨Nat.le_of_lt (BitVec.lt_def.1 l), Nat.le_refl _, Nat.le_refl _, rfl, fun _ => rfl⟩

theorem Secured.sound {s t : State} (h : Secured s t) (b : s.BootSound) : t.BootSound := by
  obtain ⟨h1, h2, h3, h4, h5, h6, h7, h8, h9⟩ := h.parts
  unfold State.BootSound at *
  rw [h1, h5, h6, h7, h8, h9]
  refine ⟨fun c hc => ?_, b.2⟩
  obtain ⟨e, l⟩ := b.1 c hc
  refine ⟨e, ?_⟩
  rcases h.2 with f | ⟨-, f⟩ <;> rw [f]
  · exact l
  · rw [e]

/-! The module resets. -/

theorem applyClear_parts (f : Flash) : f.applyClear.fwSvn = f.fwSvn ∧ f.applyClear.cfgVersion = f.cfgVersion ∧ f.applyClear.keyVersion = f.keyVersion
    ∧ f.applyClear.revoke = f.revoke ∧ f.applyClear.oos = f.oos ∧ f.applyClear.resetLog = f.resetLog ∧ f.applyClear.count24 = f.count24 := by
  unfold Flash.applyClear
  split <;> exact ⟨rfl, rfl, rfl, rfl, rfl, rfl, rfl⟩

/-- A module reset: flash as the repair record's clearing leaves it, nothing running. -/
def Cleared (s t : State) : Prop := t.flash = s.flash.applyClear ∧ t.boot.image = none ∧ t.boot.cfg = none

theorem Cleared.tight {s t : State} (h : Cleared s t) : Tight s t ∧ t.flash.oos = s.flash.oos := by
  obtain ⟨h1, h2, h3, h4, h5, -⟩ := applyClear_parts s.flash
  unfold Tight
  rw [h.1, h1, h2, h3, h4]
  exact ⟨⟨Nat.le_refl _, Nat.le_refl _, Nat.le_refl _, rfl, fun k => absurd rfl k⟩, h5⟩

theorem Cleared.sound {s t : State} (h : Cleared s t) (b : s.BootSound) : t.BootSound := by
  obtain ⟨-, -, -, -, -, h6, h7⟩ := applyClear_parts s.flash
  unfold State.BootSound at *
  rw [h.1, h.2.1, h.2.2, h6, h7]
  exact ⟨(fun c k => by cases k), (fun c k => by cases k), b.2.2⟩

/-- The flash and the boot state of a module reset survive the scrambling of memories. -/
theorem Cleared.of_only {l : List Part} {s t u : State} (h : Cleared s t) (k : ChangesOnly l t u) (hf : Part.flash ∉ l) (hb : Part.boot ∉ l) : Cleared s u := by
  have h1 : u.flash = t.flash := k .flash hf
  have h2 : u.boot = t.boot := k .boot hb
  unfold Cleared
  rw [h1, h2]
  exact h

theorem warmModuleReset_cleared (s : State) : warmModuleReset s = s ∨ Cleared s (warmModuleReset s) := by
  unfold warmModuleReset
  split
  · exact .inl rfl
  · rename_i r _
    split
    · exact .inl rfl
    · right
      extract_lets taken s1 s2 s3 s4 s5 z
      have h1 : ChangesOnly [.mem, .rst] s s1 := by
        simp only [s1]
        split
        · exact s.capture_only r
        · exact .refl _ s
      have h2 : ChangesOnly [.mem, .rst, .hif, .out, .pldm, .pins, .fab, .sec, .dbg, .ctxs] s s2 :=
        (h1.mono (by decide)).trans (foldl_only (fun u p => (State.portOff_only u p).mono (by decide)) (List.range 16) s1)
      have f2 : s2.flash = s.flash := h2 .flash (by decide)
      clear_value s2
      have h3 : Cleared s s3 := ⟨(congrArg Flash.applyClear f2 : _), rfl, rfl⟩
      clear_value s3
      have h4 : Cleared s s4 := by
        simp only [s4]
        split
        · exact (h3.of_only (State.scrambleRange_only _ _) (by decide) (by decide)).of_only (State.scrambleRange_only _ _) (by decide) (by decide)
        · exact h3
      clear_value s4
      have h5 : Cleared s s5 := h4.of_only (State.scrambleRange_only _ _) (by decide) (by decide)
      split
      · exact ⟨h5.1, h5.2.1, h5.2.2⟩
      · exact h4

theorem coldModuleReset_cleared (s : State) : coldModuleReset s = s ∨ Cleared s (coldModuleReset s) := by
  unfold coldModuleReset
  split
  · exact .inl rfl
  · split
    · exact .inl rfl
    · right
      extract_lets z1 z2 z3 t
      have h : Cleared s t := ⟨rfl, rfl, rfl⟩
      clear_value t
      exact ((h.of_only (State.scrambleRange_only _ _) (by decide) (by decide)).of_only (State.scrambleRange_only _ _) (by decide) (by decide)).of_only
        (State.scrambleRange_only _ _) (by decide) (by decide)

/-! The boot. -/

theorem bestCopy_good {bad : Component → Option Nat} {l : List Component} {c : Component} (h : bestCopy bad l = some c) : bad c = none := by
  induction l generalizing c with
  | nil => cases h
  | cons d l ih =>
    unfold bestCopy at h
    split at h
    · rename_i k1 k2
      split at h
      · cases h; exact k1
      · cases h; exact ih k2
    · rename_i k1 _
      cases h; exact k1
    · exact ih h

theorem State.configBad_version {s : State} {c : Component} (h : s.configBad c = none) : s.flash.cfgVersion.toNat ≤ c.version.toNat := by
  unfold State.configBad at h
  split at h
  · cases h
  · split at h
    · cases h
    · split at h
      · cases h
      · rename_i k; exact Nat.le_of_not_lt fun l => k (BitVec.lt_def.2 l)

theorem State.opKeyBad_version {s : State} {g : Option Component} {c : Component} (h : s.opKeyBad g c = none) :
    s.flash.keyVersion.toNat ≤ c.version.toNat := by
  unfold State.opKeyBad at h
  split at h
  · cases h
  · split at h
    · cases h
    · split at h
      · cases h
      · split at h
        · cases h
        · rename_i k; exact Nat.le_of_not_lt fun l => k (BitVec.lt_def.2 l)

theorem State.imageBad_version {s : State} {c : Component} (h : s.imageBad c = none) : s.flash.fwSvn.toNat ≤ c.version.toNat := by
  unfold State.imageBad at h
  split at h
  · cases h
  · split at h
    · cases h
    · split at h
      · cases h
      · rename_i k; exact Nat.le_of_not_lt fun l => k (BitVec.lt_def.2 l)

/-- A part of the boot: the counters that it leaves, the latch, and the soundness that it keeps. -/
def Boots (s t : State) : Prop :=
  t.flash.fwSvn = s.flash.fwSvn ∧ s.flash.cfgVersion.toNat ≤ t.flash.cfgVersion.toNat ∧ s.flash.keyVersion.toNat ≤ t.flash.keyVersion.toNat
    ∧ t.flash.revoke = s.flash.revoke ∧ (s.flash.oos = true → t.flash.oos = true) ∧ (s.BootSound → t.BootSound)

theorem Boots.refl (s : State) : Boots s s := ⟨rfl, Nat.le_refl _, Nat.le_refl _, rfl, id, id⟩
theorem Boots.trans {s t u : State} (h : Boots s t) (k : Boots t u) : Boots s u :=
  ⟨k.1.trans h.1, h.2.1.trans k.2.1, h.2.2.1.trans k.2.2.1, k.2.2.2.1.trans h.2.2.2.1, k.2.2.2.2.1 ∘ h.2.2.2.2.1, k.2.2.2.2.2 ∘ h.2.2.2.2.2⟩

theorem Boots.of_parts {s t : State} (hf : t.flash = s.flash) (hi : t.boot.image = s.boot.image) (hc : t.boot.cfg = s.boot.cfg)
    (hr : t.boot.fwSvnRunning = s.boot.fwSvnRunning) : Boots s t := by
  unfold Boots State.BootSound
  rw [hf, hi, hc, hr]
  exact ⟨rfl, Nat.le_refl _, Nat.le_refl _, rfl, id, id⟩

theorem Boots.of_raised {s t : State} (h : Raised s t) : Boots s t := by
  have hb : t.boot = s.boot := h.only .boot (by decide)
  exact .of_parts (h.only .flash (by decide)) (by rw [hb]) (by rw [hb]) (by rw [hb])

theorem tryslots_boots (l : List Bool) : ∀ s : State, Boots s (State.tryslots l s) := by
  induction l with
  | nil => exact fun s => .refl s
  | cons b l ih =>
    intro s
    unfold State.tryslots
    extract_lets c fails bad version
    have hbad : ∀ d, c = some d → bad = none → s.imageBad d = none := by
      intro d e2 e1
      simp only [bad, e2] at e1
      split at e1
      · cases e1
      · rename_i k; exact k
    clear_value bad c
    rcases bad with _ | r
    · rcases c with _ | d
      · exact .refl s
      · have hd := hbad d rfl rfl
        refine ⟨?_, ?_, ?_, ?_, fun k => ?_, fun k => ⟨fun x hx => ?_, fun x hx => ?_, ?_⟩⟩
        · cases b <;> rfl
        · cases b <;> exact Nat.le_refl _
        · cases b <;> exact Nat.le_refl _
        · cases b <;> rfl
        · cases b <;> exact k
        · cases hx
          refine ⟨rfl, ?_⟩
          have := State.imageBad_version hd
          cases b <;> exact this
        · have := k.2.1 x hx
          cases b <;> exact this
        · cases b <;> exact k.2.2
    · exact (Boots.of_raised (s.raise0_raised _ _ _)).trans (ih _)

theorem State.takeRecords_boots (s : State) : Boots s s.takeRecords := by
  unfold State.takeRecords
  extract_lets cfg z1 z2 z3 s1
  have hc : ∀ c, cfg = some c → s.flash.cfgVersion.toNat ≤ c.version.toNat := fun c e => State.configBad_version (bestCopy_good e)
  clear_value cfg
  have h1 : Boots s s1 := by
    cases cfg with
    | some c => exact ⟨rfl, hc c rfl, Nat.le_refl _, rfl, id, fun k => ⟨k.1, fun x hx => by cases hx; rfl, k.2.2⟩⟩
    | none =>
      have h0 : Boots s { s with pwr := { s.pwr with maxW := 1200, capW := 1200 } } := .of_parts rfl rfl rfl rfl
      exact h0.trans (.of_raised (State.raise0_raised _ _ _ _))
  clear_value s1
  split
  · rename_i k e
    have hk := State.opKeyBad_version (bestCopy_good e)
    exact h1.trans ⟨rfl, Nat.le_refl _, hk, rfl, id, fun b => ⟨b.1, b.2.1, b.2.2⟩⟩
  · split
    · exact h1.trans (.of_raised (State.raise0_raised _ _ _ _))
    · exact h1

theorem State.findTiers_only (s : State) : ChangesOnly [.tier, .fresh] s s.findTiers := by
  intro p hp
  cases p <;> first | (exfalso; revert hp; decide) | rfl

theorem State.findTiers_boots (s : State) : Boots s s.findTiers := by
  have k := s.findTiers_only
  have hb := k .boot (by decide)
  simp only [Part.Same] at hb
  exact .of_parts (k .flash (by decide)) (by rw [hb]) (by rw [hb]) (by rw [hb])

theorem State.logReset_boots (s : State) (r : InReset) : Boots s (s.logReset r) := by
  unfold State.logReset
  extract_lets z1 s1 z2 s2 z3 s3
  have h1 : Boots s s1 := by
    simp only [s1]
    split
    · exact ⟨rfl, Nat.le_refl _, Nat.le_refl _, rfl, id, fun k => ⟨k.1, k.2.1, by show (List.take 15 _).length ≤ 15; rw [List.length_take]; omega, k.2.2.2⟩⟩
    · exact .refl s
  have h2 : Boots s1 s2 := by
    refine ⟨rfl, Nat.le_refl _, Nat.le_refl _, rfl, id, fun k => ⟨k.1, k.2.1, k.2.2.1, ?_⟩⟩
    exact Nat.le_trans (List.length_filter_le _ _) k.2.2.1
  have h3 : Boots s2 s3 := by
    simp only [s3]
    split
    · exact ⟨rfl, Nat.le_refl _, Nat.le_refl _, rfl, fun _ => rfl, fun k => ⟨k.1, k.2.1, k.2.2⟩⟩
    · exact .refl _
  split
  · exact ((h1.trans h2).trans h3).trans (.of_raised (State.raise0_raised _ _ _ _))
  · exact (h1.trans h2).trans h3

theorem State.bootRom_boots (s : State) (r : InReset) : Boots s (s.bootRom r) := by
  unfold State.bootRom
  split
  · exact .of_raised (State.raise0_raised _ _ _ _)
  · split
    · exact .of_raised (State.raise0_raised _ _ _ _)
    · extract_lets s1
      have h1 : Boots s s1 := (tryslots_boots _ s).trans (State.takeRecords_boots _)
      split
      · exact h1
      · exact (h1.trans s1.findTiers_boots).trans (State.logReset_boots _ _)

theorem resetStretchEnd_boots (v : BitVec 6) (ok : Bool) (s : State) : Boots s (resetStretchEnd v ok s) := by
  unfold resetStretchEnd
  split
  · exact .refl s
  · split
    · exact .refl s
    · extract_lets s1 z1 z2 z3 s2
      have h1 : Boots s s1 := by
        simp only [s1]
        split
        · exact .of_parts rfl rfl rfl rfl
        · exact .refl s
      have h2 : Boots s1 s2 := .of_parts rfl rfl rfl rfl
      exact (h1.trans h2).trans (State.bootRom_boots _ _)

/-! CLEAR_OUT_OF_SERVICE. -/

theorem requestWarm_flash (s : State) (a b c : Nat) (d e : Bool) : (s.requestWarm a b c d e).flash = s.flash :=
  (s.requestReset_only _) .flash (by decide)

/-- The latch and the log may be cleared; nothing else of the counters moves. -/
theorem clearOutOfService_tight (f : AdminFrom) (s : State) : Tight s (clearOutOfService f s) ∧ (s.BootSound → (clearOutOfService f s).BootSound) := by
  have ac : ∀ u : State, Tight u (State.requestWarm { u with flash := { u.flash with oos := false, resetLog := [], count24 := 0 } } 12 0 0 false false)
      ∧ (u.BootSound → (State.requestWarm { u with flash := { u.flash with oos := false, resetLog := [], count24 := 0 } } 12 0 0 false false).BootSound) := by
    intro u
    have h := State.requestWarm_secured { u with flash := { u.flash with oos := false, resetLog := [], count24 := 0 } } 12 0 0 false false
    exact ⟨h.tight, fun b => h.sound ⟨b.1, b.2.1, Nat.zero_le _, Nat.zero_le _⟩⟩
  have go : ∀ u v : State, Secured u v → Tight v (State.requestWarm { v with flash := { v.flash with oos := false, resetLog := [], count24 := 0 } } 12 0 0 false false) →
      Tight u (State.requestWarm { v with flash := { v.flash with oos := false, resetLog := [], count24 := 0 } } 12 0 0 false false) := by
    intro u v h k
    obtain ⟨t1, t2, t3, t4, t5⟩ := h.tight
    obtain ⟨k1, k2, k3, k4, -⟩ := k
    refine ⟨Nat.le_trans t1 k1, Nat.le_trans t2 k2, Nat.le_trans t3 k3, k4.trans t4, fun n => ?_⟩
    have e : (State.requestWarm { v with flash := { v.flash with oos := false, resetLog := [], count24 := 0 } } 12 0 0 false false).flash.fwSvn = v.flash.fwSvn :=
      (congrArg Flash.fwSvn (requestWarm_flash { v with flash := { v.flash with oos := false, resetLog := [], count24 := 0 } } 12 0 0 false false)).trans rfl
    rw [e] at n ⊢
    exact t5 n
  unfold clearOutOfService State.serveAdmin
  extract_lets e s1 s2
  have h1 : Secured s s1 := s.arriveAdmin_secured f
  have h2 : Secured s s2 := by
    simp only [s2]
    split
    · exact h1
    · exact h1.trans (State.clearUnknown_secured _ _)
  clear_value s2
  split
  · exact ⟨h2.tight, h2.sound⟩
  · split
    · exact ⟨h2.tight, h2.sound⟩
    · rename_i q _ _ _
      have h3 : Secured s (s2.popAdmin.checkAdmin q).1 := (h2.trans s2.popAdmin_secured).trans (State.checkAdmin_secured _ _)
      split
      · rename_i u e; rw [e] at h3; exact ⟨h3.tight, h3.sound⟩
      · rename_i u e; rw [e] at h3
        rw [if_pos rfl]
        exact ⟨go _ _ h3 (ac u).1, fun b => (ac u).2 (h3.sound b)⟩

/-- What a step does to the counters, the latch and the soundness of the boot state. -/
theorem exec_tight {c : Instr} {s t : State} (h : exec c s = .next t) :
    Tight s t ∧ (s.BootSound → t.BootSound) ∧ ((s.flash.oos = true → t.flash.oos = true) ∨ ∃ r, c = .clearOutOfService r) := by
  have sec : ∀ {u : State}, Secured s u → Tight s u ∧ (s.BootSound → u.BootSound) ∧ ((s.flash.oos = true → u.flash.oos = true) ∨ ∃ r, c = .clearOutOfService r) :=
    fun k => ⟨k.tight, k.sound, .inl fun o => k.parts.2.2.2.1 ▸ o⟩
  have clr : ∀ {u : State}, u = s ∨ Cleared s u →
      Tight s u ∧ (s.BootSound → u.BootSound) ∧ ((s.flash.oos = true → u.flash.oos = true) ∨ ∃ r, c = .clearOutOfService r) := by
    rintro u (rfl | k)
    · exact sec (.refl _)
    · exact ⟨k.tight.1, k.sound, .inl fun o => k.tight.2 ▸ o⟩
  have bts : ∀ {u : State}, Boots s u →
      Tight s u ∧ (s.BootSound → u.BootSound) ∧ ((s.flash.oos = true → u.flash.oos = true) ∨ ∃ r, c = .clearOutOfService r) :=
    fun k => ⟨⟨Nat.le_of_eq (congrArg BitVec.toNat k.1.symm), k.2.1, k.2.2.1, k.2.2.2.1, fun n => absurd k.1 n⟩, k.2.2.2.2.2, .inl k.2.2.2.2.1⟩
  cases performed c s with
  | live _ e =>
    rw [e] at h
    rcases (live_next h).2 with ⟨-, rfl⟩ | ⟨-, rfl⟩
    · exact sec (.refl _)
    · exact sec (.settle _ _)
  | @mp f _ e k =>
    rw [e] at h
    rcases (liveMp_next h).2 with ⟨-, rfl⟩ | ⟨ha, rfl⟩
    · exact sec (.refl _)
    · rcases k with k | ⟨r, rfl⟩
      · exact sec (k.trans ⟨rfl, .inl rfl⟩)
      · have e2 : exec (.clearOutOfService r) s = liveMp s (clearOutOfService r) := rfl
        have hu := (liveMp_next h).1
        rw [e2, liveMp_of hu ha] at e
        rw [liveMp_of hu ha] at e
        have e3 := Host.Outcome.next.inj e
        have e4 : ({ f s with pending := s.pending, now := s.now, strapped := s.strapped, tap := s.tap } : State).flash = (clearOutOfService r s).flash :=
          (congrArg State.flash e3).symm
        have e5 : ({ f s with pending := s.pending, now := s.now, strapped := s.strapped, tap := s.tap } : State).boot = (clearOutOfService r s).boot :=
          (congrArg State.boot e3).symm
        obtain ⟨k1, k2⟩ := clearOutOfService_tight r s
        unfold Tight State.BootSound at *
        rw [e4, e5]
        exact ⟨k1, k2, .inr ⟨r, rfl⟩⟩
  | reset a e =>
    have red : ∀ {g : State → State}, exec c s = liveReset s g → Tight s (g s) ∧ (s.BootSound → (g s).BootSound) ∧
        ((s.flash.oos = true → (g s).flash.oos = true) ∨ ∃ r, c = .clearOutOfService r) →
        Tight s t ∧ (s.BootSound → t.BootSound) ∧ ((s.flash.oos = true → t.flash.oos = true) ∨ ∃ r, c = .clearOutOfService r) := by
      intro g eg k
      rw [eg] at h
      rw [(liveReset_next h).2]
      exact k
    cases c <;> first
      | exact absurd (show (0 : Nat) = 1 from a) (by decide)
      | exact absurd (show (2 : Nat) = 1 from a) (by decide)
      | exact absurd (show (3 : Nat) = 1 from a) (by decide)
      | exact red (g := perstNLow) rfl (sec (State.requestWarm_secured _ _ _ _ _ _))
      | exact red (g := functionLevelReset) rfl (sec (State.requestReset_secured _ _))
      | exact red (g := warmModuleReset) rfl (clr (warmModuleReset_cleared s))
      | exact red (g := railResetLevel _) rfl (sec (by
          unfold railResetLevel
          split
          · exact State.requestCold_secured _ _ _
          · exact State.requestWarm_secured _ _ _ _ _ _))
      | exact red (g := arrayResetEscalate _) rfl (sec (by
          unfold arrayResetEscalate
          split
          · exact .refl s
          · split
            · exact .refl s
            · exact Secured.trans ⟨rfl, .inl rfl⟩ (State.requestWarm_secured _ _ _ _ _ _)))
      | exact red (g := resetStretchEnd _ _) rfl (bts (resetStretchEnd_boots _ _ s))
  | always a e =>
    have red : ∀ {g : State → State}, exec c s = always s g → Tight s (g s) ∧ (s.BootSound → (g s).BootSound) ∧
        ((s.flash.oos = true → (g s).flash.oos = true) ∨ ∃ r, c = .clearOutOfService r) →
        Tight s t ∧ (s.BootSound → t.BootSound) ∧ ((s.flash.oos = true → t.flash.oos = true) ∨ ∃ r, c = .clearOutOfService r) := by
      intro g eg k
      rw [eg] at h
      cases h
      exact k
    cases c <;> first
      | exact absurd (show (0 : Nat) = 2 from a) (by decide)
      | exact absurd (show (1 : Nat) = 2 from a) (by decide)
      | exact absurd (show (3 : Nat) = 2 from a) (by decide)
      | exact red (g := powerOn) rfl (sec (State.requestCold_secured _ _ _))
      | exact red (g := pwrOkLow) rfl (sec (State.requestCold_secured _ _ _))
      | exact red (g := coldModuleReset) rfl (clr (coldModuleReset_cleared s))
  | tap _ e => rw [e] at h; cases h; exact sec ⟨rfl, .inl rfl⟩

end Sys2Proof.Machine
end

