-- ==== Sys2Proof/Laws/Bytes.lean ====
section
/-!
SUPPORT. Little-endian fields, padding, and the cutting of a packet into flit bodies.
-/
namespace Sys2Proof.Machine

@[simp] theorem length_leBytes (n v : Nat) : (leBytes n v).length = n := by
  induction n generalizing v with
  | zero => rfl
  | succ n ih => simp [leBytes, ih]

theorem leNat_leBytes (n v : Nat) : leNat (leBytes n v) = v % 256 ^ n := by
  induction n generalizing v with
  | zero => simp [leBytes, leNat, Nat.mod_one]
  | succ n ih =>
    simp only [leBytes, leNat, ih, BitVec.toNat_ofNat]
    rw [show (256 : Nat) ^ (n + 1) = 256 * 256 ^ n by rw [Nat.pow_succ, Nat.mul_comm], Nat.mod_mul]

/-- A field behind a part that precedes it. -/
theorem fieldAt_skip (a b : List Byte) {off len : Nat} (h : a.length ≤ off) : fieldAt (a ++ b) off len = fieldAt b (off - a.length) len := by
  unfold fieldAt
  rw [List.drop_append, List.drop_eq_nil_of_le h, List.nil_append]

theorem fieldAt_next (n v : Nat) (b : List Byte) {off len : Nat} (h : n ≤ off) : fieldAt (leBytes n v ++ b) off len = fieldAt b (off - n) len := by
  rw [fieldAt_skip _ _ (by simpa using h), length_leBytes]

/-- A field that is the first part. -/
theorem fieldAt_head (n v : Nat) (b : List Byte) : fieldAt (leBytes n v ++ b) 0 n = v % 256 ^ n := by
  unfold fieldAt
  rw [List.drop_zero, List.take_append_of_le_length (by simp), List.take_of_length_le (by simp), leNat_leBytes]

theorem length_padTo (n : Nat) (l : List Byte) : (padTo n l).length = n := by
  simp [padTo]

/-- Bodies put together again are the bytes, and zeros behind them. -/
theorem flatten_bodies (n : Nat) (b : List Byte) (h : b.length ≤ 244 * n) : ∃ k, (bodies n b).flatten = b ++ List.replicate k 0 := by
  induction n generalizing b with
  | zero =>
    have : b = [] := List.eq_nil_of_length_eq_zero (by omega)
    exact ⟨0, by simp [bodies, this]⟩
  | succ n ih =>
    obtain ⟨k, hk⟩ := ih (b.drop 244) (by rw [List.length_drop]; omega)
    unfold bodies
    rw [List.flatten_cons, hk]
    by_cases c : 244 ≤ b.length
    · refine ⟨k, ?_⟩
      have : padTo 244 (b.take 244) = b.take 244 := by
        unfold padTo
        rw [List.take_append_of_le_length (by rw [List.length_take]; omega), List.take_take, Nat.min_self]
      rw [this, ← List.append_assoc, List.take_append_drop]
    · refine ⟨244 - b.length + k, ?_⟩
      rw [List.take_of_length_le (by omega), List.drop_eq_nil_of_le (by omega), List.nil_append, ← List.replicate_append_replicate, ← List.append_assoc]
      congr 1
      unfold padTo
      rw [List.take_append, List.take_of_length_le (by omega), List.take_replicate, Nat.min_eq_left (by omega)]

@[simp] theorem length_bodies (n : Nat) (b : List Byte) : (bodies n b).length = n := by
  induction n generalizing b with
  | zero => rfl
  | succ n ih => simp [bodies, ih]

theorem length_of_mem_bodies {n : Nat} {b c : List Byte} (h : c ∈ bodies n b) : c.length = 244 := by
  induction n generalizing b with
  | zero => cases h
  | succ n ih =>
    rcases List.mem_cons.1 h with h | h
    · rw [h, length_padTo]
    · exact ih h

end Sys2Proof.Machine
end

