-- ==== Sys2Proof/Laws/Ferries.lean ====
section
/-!
SUPPORT. Where an engine's writes land: while no codeword is poisoned, a store and the rows of a stream reach the memory they name and no other.
-/
namespace Sys2Proof.Machine

/-- A store while no codeword is poisoned: bytes, the stream caches and the clean lines of the shared cache. -/
theorem State.store_clean {s : State} (h : s.hbm.poisoned = []) (a : Nat) (bs : List Byte) :
    ∃ m d l, s.store a bs = { s with mem := m, dsc := d, hbm := { s.hbm with lines := l } } ∧
      ∀ k, (∀ i < bs.length, s.key (a + i) ≠ some k) → m.read k = s.mem.read k := by
  unfold State.store
  split
  · exact ⟨s.mem, s.dsc, s.hbm.lines, rfl, fun _ _ => rfl⟩
  · obtain ⟨m, hm⟩ := s.wrBytes_frame a bs
    have hr : ∀ k, (∀ i < bs.length, s.key (a + i) ≠ some k) → m.read k = s.mem.read k := fun k hk => by
      have := s.wrBytes_read a bs k hk
      rw [hm] at this
      exact this
    have sn : ∀ u : State, ∃ d, u.snoop a bs.length = { u with dsc := d } := by
      intro u
      unfold State.snoop
      split
      · exact ⟨u.dsc, rfl⟩
      · extract_lets d hit hits pre bump lines
        split
        · exact ⟨u.dsc, rfl⟩
        · exact ⟨_, rfl⟩
    have dc : ∀ u : State, ∃ l, u.dropClean a bs.length = { u with hbm := { u.hbm with lines := l } } := by
      intro u
      unfold State.dropClean
      split
      · exact ⟨u.hbm.lines, rfl⟩
      · exact ⟨_, rfl⟩
    obtain ⟨d, hd⟩ := sn { s with mem := m }
    obtain ⟨l, hl⟩ := dc { s with mem := m, dsc := d }
    refine ⟨m, d, l, ?_, hr⟩
    dsimp only
    rw [hm, if_neg (by simp [h]), hd, hl]

/-- A row of a stream without an index lies where its counters say, whatever memory holds. -/
theorem State.rowAt_plain (s t : State) {d : StreamDesc} (h : d.index = 0) (base n : Nat) : s.rowAt d base n = t.rowAt d base n := by
  unfold State.rowAt
  have : d.rowIndexAddr n = none := by unfold StreamDesc.rowIndexAddr; rw [if_pos (.inr h)]
  rw [this]

/-- The rows that a stream without an index writes, and no other byte of memory. -/
theorem State.writeRows_read {s : State} (c : Nat) {d : StreamDesc} (base : Nat) (ix : d.index = 0) (q : Nat) (n i : Nat) (bs : List Byte) {u : State}
    (hk : ∀ a, u.key a = s.key a) (po : u.hbm.poisoned = [])
    (out : ∀ j, i ≤ j → j < i + n → ∀ m < d.rowBytes, s.key ((s.rowAt d base j).addr + m) ≠ some q) :
    (State.writeRows c d base n i bs u).1.mem.read q = u.mem.read q := by
  induction n generalizing i bs u with
  | zero => rfl
  | succ n ih =>
    have next := fun (v : State) (hv : ∀ a, v.key a = s.key a) (pv : v.hbm.poisoned = []) =>
      ih (i + 1) (bs.drop d.rowBytes) hv pv (fun j h1 h2 => out j (by omega) (by omega))
    unfold State.writeRows
    dsimp only
    split
    · exact next u hk po
    · split
      · obtain ⟨m, x, l, hs, hr⟩ := State.store_clean po (u.rowAt d base i).addr (bs.take d.rowBytes)
        rw [hs]
        refine (next { u with mem := m, dsc := x, hbm := { u.hbm with lines := l } } (fun a => hk a) po).trans (hr q fun j hj => ?_)
        rw [hk, u.rowAt_plain s ix]
        exact out i (by omega) (by omega) j (by rw [List.length_take] at hj; omega)
      · rfl

/-- Registering a stream touches the stream cache alone. -/
theorem State.registerStream_dsc (s : State) (die desc engine ctx base row last : Nat) :
    ∃ d, s.registerStream die desc engine ctx base row last = { s with dsc := d } := by
  unfold State.registerStream
  extract_lets d a x mine
  split
  · exact ⟨s.dsc, rfl⟩
  · split
    · exact ⟨_, rfl⟩
    · split
      · exact ⟨s.dsc, rfl⟩
      · split
        · exact ⟨_, rfl⟩
        · exact ⟨_, rfl⟩

/-- An engine's access, granted or held, touches the arrays and the engines alone (R28, R236, R279). -/
theorem State.access_frame (s : State) (e : Nat) (reads writes : List (Nat × Nat)) :
    ∃ a g, (s.access e reads writes).2 = { s with arrays := a, engines := g } := by
  have keep : ∀ {β : Type} (f : State → β → State) (l : List β), (∀ u x, ∃ a, f u x = { u with arrays := a }) → ∀ u, ∃ a, l.foldl f u = { u with arrays := a } := by
    intro β f l hf
    induction l with
    | nil => exact fun u => ⟨u.arrays, rfl⟩
    | cons x l ih =>
      intro u
      obtain ⟨a, ha⟩ := hf u x
      obtain ⟨b, hb⟩ := ih (f u x)
      exact ⟨b, by rw [List.foldl_cons, hb, ha]⟩
  unfold State.access
  extract_lets busy banks
  split
  · obtain ⟨a, ha⟩ := keep (fun (s : State) a =>
      let x := s.array a
      if x.bankWait.contains e then s else s.setArray a { x with bankWait := x.bankWait ++ [e] }) busy (fun u x => by
        dsimp only
        split
        · exact ⟨u.arrays, rfl⟩
        · exact ⟨_, rfl⟩) (s.heldBy e 4)
    exact ⟨a, (s.heldBy e 4).engines, ha⟩
  · split
    · exact ⟨s.arrays, (s.heldBy e 4).engines, rfl⟩
    · split
      · exact ⟨s.arrays, (s.heldBy e 2).engines, rfl⟩
      · split
        · exact ⟨s.arrays, (s.heldBy e 3).engines, rfl⟩
        · rename_i u _ _ _ _
          obtain ⟨a, ha⟩ : ∃ a, u = { s with arrays := a } := keep (fun (s : State) b => s.grant b.1 8 b.2) banks (fun v b => by
            unfold State.grant
            split
            · exact ⟨v.arrays, rfl⟩
            · exact ⟨_, rfl⟩) s
          clear_value u
          subst ha
          obtain ⟨b, hb⟩ := keep (fun (s : State) a =>
            let x := s.array a
            if x.bankWait.contains e then s.setArray a { x with bankWait := x.bankWait.filter (· != e) } else s) (List.range 8) (fun v x => by
              dsimp only
              split
              · exact ⟨_, rfl⟩
              · exact ⟨v.arrays, rfl⟩) (State.heldBy { s with arrays := a } e 0)
          refine ⟨b, (State.heldBy { s with arrays := a } e 0).engines, ?_⟩
          dsimp only
          rw [hb]
          rfl

/-- Registering an engine's stream, and taking its rows, touches the stream caches alone. -/
theorem State.engineStream_dsc (s : State) (e c desc base last : Nat) : ∃ d, s.engineStream e c desc base last = { s with dsc := d } := by
  unfold State.engineStream
  split
  · split
    · exact ⟨s.dsc, rfl⟩
    · exact s.registerStream_dsc ..
  · exact ⟨s.dsc, rfl⟩
theorem State.engineTook_dsc (s : State) (e desc rows : Nat) : ∃ d, s.engineTook e desc rows = { s with dsc := d } := by
  unfold State.engineTook State.streamTaken
  split
  · split
    · exact ⟨s.dsc, rfl⟩
    · extract_lets x mine walk
      split
      · exact ⟨_, rfl⟩
      · exact ⟨s.dsc, rfl⟩
  · exact ⟨s.dsc, rfl⟩

end Sys2Proof.Machine
end

