-- ==== Sys2Proof/Laws/Gathers.lean ====
section
/-!
SUPPORT. When a gather step acts, and when a token-dispatch packet does.
-/
namespace Sys2Proof.Machine

theorem State.gatherStep_of {s u : State} {e op : Nat} {w : Work} (h : s.GatherDue e op w u) (f : Work → State → State) :
    s.gatherStep e op f = f w u := by
  obtain ⟨hu, ha, hr, hd, hk, hz, ho, hf⟩ := h
  unfold State.gatherStep
  rw [← hu]
  dsimp only
  simp only [ha]
  have hr' : w.run.isNone = false := by cases hw : w.run <;> simp_all
  rw [if_neg (by simp [hr', hd]), ho, if_neg (by simp [hk]), if_neg, if_neg (by simp)]
  simp only [hz, Bool.not_true, Bool.false_eq_true, false_or]
  split <;> rename_i c <;> simp only [c, if_true, if_false] at hf <;> omega

theorem State.onDispatch_of {s t : State} {p : Packet} {type : Nat} {f : Dispatch → Bool} {c e : Nat} {d : Dispatch}
    (h : s.ForDispatch p type f c e d t) (act : Nat → Nat → Dispatch → State → State) : s.onDispatch p type f act = act c e d t := by
  obtain ⟨hv, ht, ⟨port, hr⟩, hc, hf⟩ := h
  unfold State.onDispatch
  rw [if_neg (by simp [hv, ht])]
  simp only [hr, hc, hf]

end Sys2Proof.Machine
end

