-- ==== Sys2Proof/Laws/Hbm.lean ====
section
/-!
SUPPORT. The places of HBM bytes: the 256 bytes of a granule lie side by side (R31, R32), so a write within one granule reads back.
-/
namespace Sys2Proof.Machine

theorem linearPlace_granule {l : List Nat} (hl : ∀ c ∈ l, c % 256 = 0) (i : Nat) {d r : Nat} (hd : d % 256 = 0) (hr : r < 256) :
    linearPlace l i (d + r) = (linearPlace l i d).map fun x => (x.1, x.2 + r) := by
  induction l generalizing i d with
  | nil => rfl
  | cons c l ih =>
    have hc := hl c (List.mem_cons_self ..)
    simp only [linearPlace]
    by_cases h : d < c
    · rw [if_pos (by omega), if_pos h]; rfl
    · rw [if_neg (by omega), if_neg h, show d + r - c = (d - c) + r by omega,
        ih (fun x hx => hl x (List.mem_cons_of_mem _ hx)) (i + 1) (by omega)]

theorem linearOnDie_granule (die base : Nat) {l : List Nat} (hl : ∀ c ∈ l, c % 256 = 0) {d r : Nat} (hd : d % 256 = 0) (hr : r < 256) :
    linearOnDie die base l (d + r) = (linearOnDie die base l d).map fun x => (x.1, x.2 + r) := by
  unfold linearOnDie
  rw [linearPlace_granule hl 0 hd hr]
  cases linearPlace l 0 d with
  | none => rfl
  | some x => simp [Nat.add_assoc]

theorem smallest_granule {l : List Nat} (hl : ∀ c ∈ l, c % 256 = 0) : smallest l % 256 = 0 := by
  match l with
  | [] => rfl
  | [c] => exact hl c (List.mem_cons_self ..)
  | c :: d :: l =>
    have h1 := hl c (List.mem_cons_self ..)
    have h2 := smallest_granule (l := d :: l) fun x hx => hl x (List.mem_cons_of_mem _ hx)
    simp only [smallest]
    omega

theorem State.dieCaps_granule (s : State) (die : Nat) : ∀ c ∈ s.dieCaps die, c % 256 = 0 := by
  intro c hc
  simp only [State.dieCaps, List.mem_map] at hc
  obtain ⟨i, -, rfl⟩ := hc
  simp only [Stack.cap]
  omega

theorem State.diePlace_granule (s : State) (die : Nat) {d r : Nat} (hd : d % 256 = 0) (hr : r < 256) :
    s.diePlace die (d + r) = (s.diePlace die d).map fun x => (x.1, x.2 + r) := by
  have hl := s.dieCaps_granule die
  have hm := smallest_granule hl
  unfold State.diePlace
  split
  · unfold ilvPlace
    by_cases h : d < 12 * smallest (s.dieCaps die)
    · rw [if_pos (by omega), if_pos h]
      have e1 : (d + r) / 4096 = d / 4096 := by omega
      have e2 : (d + r) % 4096 = d % 4096 + r := by omega
      rw [e1, e2, ← Nat.add_assoc]
      rfl
    · rw [if_neg (by omega), if_neg h, show d + r - 12 * smallest (s.dieCaps die) = (d - 12 * smallest (s.dieCaps die)) + r by omega]
      refine linearOnDie_granule die _ ?_ (by omega) hr
      intro c hc
      simp only [List.mem_map] at hc
      obtain ⟨x, hx, rfl⟩ := hc
      have := hl x hx
      omega
  · exact linearOnDie_granule die 0 hl hd hr

theorem State.hbmPlace_granule (s : State) {a r : Nat} (ha : a % 256 = 0) (hr : r < 256) :
    s.hbmPlace (a + r) = (s.hbmPlace a).map fun x => (x.1, x.2 + r) := by
  unfold State.hbmPlace ad1Base hbmEnd
  by_cases h : a < 0x90_0000_0000
  · rw [if_pos (by omega), if_pos h, s.diePlace_granule 0 ha hr]
  · rw [if_neg (by omega), if_neg h]
    by_cases k : a < 0x120_0000_0000
    · rw [if_pos (by omega), if_pos k, show a + r - 0x90_0000_0000 = (a - 0x90_0000_0000) + r by omega, s.diePlace_granule 1 (by omega) hr]
    · rw [if_neg (by omega), if_neg k]; rfl

/-- Addresses of one granule have keys side by side. -/
theorem State.key_granule (s : State) {a r k : Nat} (hr : a % 256 + r < 256) (hb : a < hbmEnd) (hk : s.key a = some k) :
    s.key (a + r) = some (k + r) := by
  unfold hbmEnd at hb
  have h0 : region a = 0 := by unfold region; omega
  have h1 : region (a + r) = 0 := by unfold region; omega
  unfold State.key at hk ⊢
  rw [h0] at hk
  rw [h1]
  simp only at hk ⊢
  have e0 := s.hbmPlace_granule (a := a - a % 256) (r := a % 256) (by omega) (by omega)
  have e1 := s.hbmPlace_granule (a := a - a % 256) (r := a % 256 + r) (by omega) (by omega)
  rw [show a - a % 256 + a % 256 = a by omega] at e0
  rw [show a - a % 256 + (a % 256 + r) = a + r by omega] at e1
  rw [e0] at hk
  rw [e1]
  cases h : s.hbmPlace (a - a % 256) with
  | none => rw [h] at hk; cases hk
  | some x =>
    rw [h] at hk
    simp only [Option.map_some, Option.some.injEq] at hk ⊢
    omega

/-- Bytes whose keys lie side by side read back as written. -/
theorem State.wrBytes_rd {s : State} (hw : s.mem.wf = true) (a : Nat) (bs : List Byte) (k : Nat) (hk : ∀ i < bs.length, s.key (a + i) = some (k + i)) :
    ∀ i (h : i < bs.length), (s.wrBytes a bs).mem.read (k + i) = bs[i] := by
  induction bs generalizing s a k with
  | nil => intro i h; exact absurd h (Nat.not_lt_zero _)
  | cons b bs ih =>
    have h0 := hk 0 (by simp)
    rw [Nat.add_zero, Nat.add_zero] at h0
    have hs : ∀ i < bs.length, ({ s with mem := s.mem.write k b } : State).key (a + 1 + i) = some (k + 1 + i) := fun i hi => by
      have := hk (i + 1) (by simpa using hi)
      rw [show a + 1 + i = a + (i + 1) by omega, show k + 1 + i = k + (i + 1) by omega]
      exact this
    intro i hi
    simp only [State.wrBytes, h0]
    cases i with
    | zero =>
      rw [State.wrBytes_read _ _ _ _ (fun j hj => by rw [hs j hj]; simp; omega)]
      exact Memory.read_write_self hw k b
    | succ j =>
      have := ih (s := { s with mem := s.mem.write k b }) (Memory.write_wf hw k b) (a + 1) (k + 1) hs j (by simpa using hi)
      rw [show k + (j + 1) = k + 1 + j by omega, this]
      rfl

/-- Using a line of the shared cache changes the lines, their clock and, by a write-back, the stream caches: no stack. -/
theorem State.useLine_frame (s : State) (line : Nat) (held dirty : Bool) :
    ∃ h d, s.useLine line held dirty = { s with hbm := h, dsc := d } ∧ h.stk = s.hbm.stk := by
  have sn : ∀ (u : State) a m, ∃ d, u.snoop a m = { u with dsc := d } := by
    intro u a m
    unfold State.snoop
    split
    · exact ⟨u.dsc, rfl⟩
    · extract_lets d hit hits pre bump lines
      split
      · exact ⟨u.dsc, rfl⟩
      · exact ⟨_, rfl⟩
  unfold State.useLine
  extract_lets m clock set new
  split
  · exact ⟨_, s.dsc, rfl, rfl⟩
  · split
    · exact ⟨_, s.dsc, rfl, rfl⟩
    · split
      · rename_i l _ _
        obtain ⟨d, hd⟩ := sn s (256 * l.line) 256
        rw [hd]
        exact ⟨_, d, rfl, rfl⟩
      · exact ⟨_, s.dsc, rfl, rfl⟩

end Sys2Proof.Machine
end

