-- ==== Sys2Proof/Laws/Registers.lean ====
section
/-!
SUPPORT. When a BAR access reaches its register.
-/
namespace Sys2Proof.Machine

theorem State.bar_of {s : State} (h : s.barLive = true) (f : State → State) : s.bar f = f s := by simp [State.bar, h]
theorem State.barRead_of {s : State} (h : s.barLive = true) (f : State → State) : s.barRead f = f s := by simp [State.barRead, h]
theorem State.bar_dead {s : State} (h : s.barLive = false) (f : State → State) : s.bar f = s := by simp [State.bar, h]
theorem State.barRead_d3hot {s : State} (h : s.hif.d3hot = true) (f : State → State) : s.barRead f = s := by
  simp [State.barRead, State.barLive, h]
theorem State.barRead_resetting {s : State} (h : s.hif.d3hot = false) (k : s.inFunctionReset = true) (f : State → State) :
    s.barRead f = s.sendOut (.readData (BitVec.allOnes 64)) := by
  simp [State.barRead, State.barLive, h, k]

end Sys2Proof.Machine
end

