-- ==== Sys2Proof/Laws/Stashes.lean ====
section
/-!
SUPPORT. The books of a stash: what is put is found again, and an attempt renames no stash.
-/
namespace Sys2Proof.Machine

theorem State.stashOf_key {s : State} {c i : Nat} {t : Stash} (h : s.stashOf c i = some t) : t.ctx = c ∧ t.id = i := by
  have := List.find?_some h
  simpa only [Bool.and_eq_true, beq_iff_eq] using this

/-- A stash whose books are put is found with the new books. -/
theorem State.stashOf_putStash {s : State} {t u : Stash} (h : s.stashOf t.ctx t.id = some u) : (s.putStash t).stashOf t.ctx t.id = some t := by
  unfold State.stashOf at h ⊢
  show List.find? _ (s.tier.stashes.map _) = _
  generalize s.tier.stashes = l at h
  induction l with
  | nil => cases h
  | cons x l ih =>
    rw [List.map_cons, List.find?_cons]
    rw [List.find?_cons] at h
    by_cases hx : (x.ctx == t.ctx && x.id == t.id) = true
    · simp [hx]
    · simp only [hx] at h ⊢
      simpa [hx] using ih h

theorem State.stashOf_signal (s : State) (o : Nat) (n : Word) (c i : Nat) : (s.signal o n).stashOf c i = s.stashOf c i := rfl

end Sys2Proof.Machine
end

