-- ==== Sys2Proof/Laws/Tiers.lean ====
section
/-!
SUPPORT. The parity page of a flash stripe: each of the sixteen pages is the XOR of the other fifteen (R301), so reconstruction gives the page
(R302). And what moving a block's data can change (R303-R306).
-/
namespace Sys2Proof.Machine

/-- XOR of bytes. -/
def xorAll (l : List Byte) : Byte := l.foldl (· ^^^ ·) 0

theorem xor_foldl (l : List Byte) (a : Byte) : l.foldl (· ^^^ ·) a = a ^^^ xorAll l := by
  unfold xorAll
  induction l generalizing a with
  | nil => simp
  | cons x l ih =>
    simp only [List.foldl_cons]
    rw [ih, ih (0 ^^^ x)]
    simp [BitVec.xor_assoc]

theorem xorAll_cons (x : Byte) (l : List Byte) : xorAll (x :: l) = x ^^^ xorAll l := by
  unfold xorAll
  rw [List.foldl_cons, xor_foldl]
  simp [xorAll]

theorem xorAll_perm {l m : List Byte} (h : l.Perm m) : xorAll l = xorAll m := by
  induction h with
  | nil => rfl
  | cons x _ ih => rw [xorAll_cons, xorAll_cons, ih]
  | swap x y l => simp only [xorAll_cons, ← BitVec.xor_assoc, BitVec.xor_comm x y]
  | trans _ _ a b => exact a.trans b

/-- Byte `i` of the XOR of pages. -/
theorem xorPages_getD {n i : Nat} (h : i < n) (l : List (List Byte)) : (xorPages n l).getD i 0 = xorAll (l.map fun p => p.getD i 0) := by
  have key : ∀ (l : List (List Byte)) (acc : List Byte), acc.length = n →
      (l.foldl (fun acc p => (List.range n).map fun i => acc.getD i 0 ^^^ p.getD i 0) acc).getD i 0 = acc.getD i 0 ^^^ xorAll (l.map fun p => p.getD i 0) := by
    intro l
    induction l with
    | nil => intro acc _; simp [xorAll]
    | cons p l ih =>
      intro acc ha
      rw [List.foldl_cons, ih _ (by simp), List.map_cons, xorAll_cons, ← BitVec.xor_assoc]
      congr 1
      simp [List.getD_eq_getElem?_getD, List.getElem?_range h]
  unfold xorPages
  rw [key l _ (by simp)]
  simp [List.getD_eq_getElem?_getD, h]

theorem xorPages_length (n : Nat) (l : List (List Byte)) : (xorPages n l).length = n := by
  unfold xorPages
  generalize hz : List.replicate n (0 : Byte) = z
  have hl : z.length = n := by rw [← hz]; simp
  clear hz
  induction l generalizing z with
  | nil => exact hl
  | cons p l ih => rw [List.foldl_cons]; exact ih _ (by simp)

theorem stripePage_length (s : State) (o : Obj) (stripe c : Nat) : (s.stripePage o stripe c).length = s.tier.nand.pageBytes := by
  unfold State.stripePage
  dsimp only
  split
  · exact xorPages_length _ _
  · simp [State.flashPage]

/-- The channels of a stripe but one, in some order before that one, are all of them. -/
theorem channels_perm : ∀ c : Fin 16, (List.range 16).Perm (c.val :: (List.range 16).filter (· != c.val)) := by decide

/-- The data pages of a stripe lie on its channels but the parity's, in order. -/
theorem channels_data : ∀ p : Fin 16, ((List.range 16).filter (· != p.val)).map (fun c => if c < p.val then c else c - 1) = List.range 15 := by decide

/-- Byte by byte, the sixteen pages of a stripe cancel. -/
theorem stripe_cancels (s : State) (o : Obj) (stripe i : Nat) (h : i < s.tier.nand.pageBytes) :
    xorAll ((List.range 16).map fun c => (s.stripePage o stripe c).getD i 0) = 0 := by
  have hp : parityChannel stripe < 16 := Nat.mod_lt _ (by decide)
  rw [xorAll_perm ((channels_perm ⟨_, hp⟩).map _), List.map_cons, xorAll_cons]
  have hd : ((List.range 16).filter (· != parityChannel stripe)).map (fun c => (s.stripePage o stripe c).getD i 0)
      = ((List.range 15).map fun k => (s.flashPage o (15 * stripe + k)).getD i 0) := by
    have := channels_data ⟨_, hp⟩
    dsimp only at this
    rw [← this, List.map_map]
    refine List.map_congr_left fun c hc => ?_
    have hne : c ≠ parityChannel stripe := by simpa using (List.mem_filter.1 hc).2
    unfold State.stripePage
    simp only [hne, if_false, Function.comp]
  rw [hd]
  have h0 : (s.stripePage o stripe (parityChannel stripe)).getD i 0 = xorAll ((List.range 15).map fun k => (s.flashPage o (15 * stripe + k)).getD i 0) := by
    unfold State.stripePage
    dsimp only
    rw [if_pos rfl, xorPages_getD h, List.map_map]
    rfl
  rw [h0, BitVec.xor_self]
  rfl

/-- Reconstruction of a page from the other fifteen pages of its stripe gives the page (R301, R302). -/
theorem rebuilt_eq (s : State) (o : Obj) (stripe : Nat) (c : Fin 16) : s.rebuilt o stripe c.val = s.stripePage o stripe c.val := by
  unfold State.rebuilt
  refine List.ext_getElem (by rw [xorPages_length, stripePage_length]) fun i h1 h2 => ?_
  have hi : i < s.tier.nand.pageBytes := by rwa [stripePage_length] at h2
  have e := stripe_cancels s o stripe i hi
  rw [xorAll_perm ((channels_perm c).map _), List.map_cons, xorAll_cons] at e
  have g1 := xorPages_getD hi (((List.range 16).filter (· != c.val)).map (s.stripePage o stripe))
  rw [List.getD_eq_getElem?_getD, List.getElem?_eq_getElem h1, Option.getD_some, List.map_map] at g1
  rw [g1]
  rw [List.getD_eq_getElem?_getD, List.getElem?_eq_getElem h2, Option.getD_some] at e
  exact (BitVec.xor_eq_zero_iff.1 e).symm

/-! Blocks taken and data moved (R303-R306): what the translation layer may change, and that no object does but for where its blocks lie. -/

/-- Only the blocks, the capacity that follows from them, and the counter of free values differ. -/
def Erased (s t : State) : Prop :=
  ∃ b u f n, t = { s with tier := { s.tier with blocks := b, flashUsableGib := u, flashFreeGib := f }, fresh := n }

theorem Erased.refl (s : State) : Erased s s := ⟨s.tier.blocks, s.tier.flashUsableGib, s.tier.flashFreeGib, s.fresh, rfl⟩
theorem Erased.trans {s t u : State} (h : Erased s t) (k : Erased t u) : Erased s u := by
  obtain ⟨b, u, f, n, rfl⟩ := h
  obtain ⟨b', u', f', n', rfl⟩ := k
  exact ⟨b', u', f', n', rfl⟩
theorem Erased.setBlock (s : State) (b : Nat) (x : Block) : Erased s (s.setBlock b x) := ⟨_, s.tier.flashUsableGib, s.tier.flashFreeGib, s.fresh, rfl⟩
theorem Erased.tick (s : State) : Erased s s.tick := ⟨s.tier.blocks, s.tier.flashUsableGib, s.tier.flashFreeGib, _, rfl⟩

theorem State.retire_erased (s : State) (b : Nat) : Erased s (s.retire b) := ⟨_, _, _, s.fresh, rfl⟩

theorem State.eraseBlock_erased (s : State) (b : Nat) : Erased s (s.eraseBlock b) := by
  unfold State.eraseBlock
  extract_lets fails s1
  have h : Erased s s1 := .tick s
  split
  · exact h.trans (s1.retire_erased b)
  · exact h.trans (Erased.setBlock s1 b _)

/-- All that taking a block can change. -/
theorem State.takeBlock_erased (die n : Nat) (s : State) : Erased s (State.takeBlock die n s).2 := by
  induction n generalizing s with
  | zero => exact .refl s
  | succ n ih =>
    unfold State.takeBlock
    split
    · exact .refl s
    · rename_i b hb
      extract_lets s1
      have h : Erased s s1 := by
        simp only [s1]
        split
        · exact s.eraseBlock_erased b
        · exact .refl s
      split
      · exact h.trans (Erased.setBlock s1 b _)
      · exact h.trans (ih s1)

/-- The free block of a die may be used. -/
theorem State.freeBlock_good {s : State} {die b : Nat} (h : s.freeBlock die = some b) : s.blockGood b = true := by
  have key : ∀ (l : List Nat) (r : Option Nat), (∀ x ∈ l, s.blockGood x = true) → (∀ x, r = some x → s.blockGood x = true) →
      ∀ y, l.foldl (fun (r : Option Nat) b => match r with
        | none => some b
        | some c => if (s.block b).erases < (s.block c).erases then some b else some c) r = some y → s.blockGood y = true := by
    intro l
    induction l with
    | nil => intro r _ hr y hy; exact hr y hy
    | cons x l ih =>
      intro r hl hr y hy
      refine ih _ (fun z hz => hl z (List.mem_cons_of_mem _ hz)) (fun z hz => ?_) y hy
      cases r with
      | none => cases hz; exact hl x (List.mem_cons_self ..)
      | some c =>
        dsimp only at hz
        split at hz
        · cases hz; exact hl x (List.mem_cons_self ..)
        · cases hz; exact hr _ rfl
  refine key _ none (fun x hx => ?_) (fun x hx => by cases hx) b h
  have hx := (List.mem_filter.1 hx).2
  rw [Bool.and_eq_true] at hx
  exact hx.1

theorem State.block_setBlock_self {s : State} (r : Tab.rising s.tier.blocks = true) (b : Nat) (x : Block) : (s.setBlock b x).block b = x :=
  Tab.get_set_self _ r b x
theorem State.block_setBlock_ne (s : State) {b c : Nat} (h : b ≠ c) (x : Block) : (s.setBlock b x).block c = s.block c :=
  Tab.get_set_ne _ s.tier.blocks x h
theorem State.setBlock_rising {s : State} (r : Tab.rising s.tier.blocks = true) (b : Nat) (x : Block) :
    Tab.rising (s.setBlock b x).tier.blocks = true := Tab.rising_set (bg := fun _ => Block.reset) r b x
theorem State.block_retire {s : State} (r : Tab.rising s.tier.blocks = true) (b c : Nat) (h : (s.block c).retired = true ∨ b = c) :
    ((s.retire b).block c).retired = true := by
  by_cases e : b = c
  · subst e
    exact congrArg Block.retired (State.block_setBlock_self r b { s.block b with retired := true })
  · exact (congrArg Block.retired (State.block_setBlock_ne s e { s.block b with retired := true })).trans (h.resolve_right e)

/-- A retired block stays retired, whichever block is erased or taken. -/
theorem State.eraseBlock_retired {s : State} (r : Tab.rising s.tier.blocks = true) (b c : Nat) (h : (s.block c).retired = true) :
    ((s.eraseBlock b).block c).retired = true := by
  unfold State.eraseBlock
  extract_lets fails s1
  have h1 : (s1.block c).retired = true := h
  have r1 : Tab.rising s1.tier.blocks = true := r
  split
  · exact State.block_retire r1 b c (.inl h1)
  · by_cases e : b = c
    · subst e
      rw [State.block_setBlock_self r1]
      exact h1
    · rw [State.block_setBlock_ne _ e]
      exact h1

theorem State.eraseBlock_rising {s : State} (r : Tab.rising s.tier.blocks = true) (b : Nat) : Tab.rising (s.eraseBlock b).tier.blocks = true := by
  unfold State.eraseBlock
  extract_lets fails s1
  split
  · exact State.setBlock_rising (s := s1) r b _
  · exact State.setBlock_rising (s := s1) r b _

theorem State.takeBlock_retired (die n : Nat) {s : State} (r : Tab.rising s.tier.blocks = true) (c : Nat) (h : (s.block c).retired = true) :
    Tab.rising (State.takeBlock die n s).2.tier.blocks = true ∧ ((State.takeBlock die n s).2.block c).retired = true := by
  induction n generalizing s with
  | zero => exact ⟨r, h⟩
  | succ n ih =>
    unfold State.takeBlock
    split
    · exact ⟨r, h⟩
    · rename_i b hb
      extract_lets s1
      have h1 : Tab.rising s1.tier.blocks = true ∧ (s1.block c).retired = true := by
        simp only [s1]
        split
        · exact ⟨State.eraseBlock_rising r b, State.eraseBlock_retired r b c h⟩
        · exact ⟨r, h⟩
      split
      · rename_i g
        have ne : b ≠ c := by
          rintro rfl
          unfold State.blockGood at g
          rw [h1.2] at g
          simp at g
        exact ⟨State.setBlock_rising h1.1 b _, by rw [State.block_setBlock_ne _ ne]; exact h1.2⟩
      · exact ih h1.1 h1.2

/-- Relocation changes the tier's block map alone: every object stays as it is but for its blocks (R303, R306). -/
theorem State.relocate_moves (s : State) (b : Nat) (retiring : Bool) :
    ChangesOnly [.tier, .fresh] s (s.relocate b retiring) ∧ (s.relocate b retiring).tier.objs.map Obj.apart = s.tier.objs.map Obj.apart := by
  unfold State.relocate
  have h := State.takeBlock_erased (s.tier.nand.dieOf b) s.tier.nand.dieBlocks s
  split
  · rename_i u hu
    rw [hu] at h
    obtain ⟨x, y, z, n, rfl⟩ := h
    exact ⟨fun p hp => by cases p <;> first | (exfalso; revert hp; decide) | rfl, rfl⟩
  · rename_i t u hu
    rw [hu] at h
    extract_lets v
    have k : ∀ w, Erased v w → ChangesOnly [.tier, .fresh] s w ∧ w.tier.objs.map Obj.apart = s.tier.objs.map Obj.apart := by
      intro w hw
      obtain ⟨x, y, z, n, rfl⟩ := hw
      obtain ⟨x', y', z', n', rfl⟩ := h
      refine ⟨fun p hp => by cases p <;> first | (exfalso; revert hp; decide) | rfl, ?_⟩
      show (s.tier.objs.map _).map Obj.apart = _
      rw [List.map_map]
      rfl
    split
    · exact k _ (v.retire_erased b)
    · exact k _ (v.eraseBlock_erased b)

/-- A retired block stays retired, whatever is relocated. -/
theorem State.relocate_retired {s : State} (r : Tab.rising s.tier.blocks = true) (b c : Nat) (retiring : Bool) (h : (s.block c).retired = true) :
    ((s.relocate b retiring).block c).retired = true := by
  unfold State.relocate
  have k := State.takeBlock_retired (s.tier.nand.dieOf b) s.tier.nand.dieBlocks r c h
  split
  · rename_i u hu
    rw [hu] at k
    exact k.2
  · rename_i t u hu
    rw [hu] at k
    extract_lets v
    have k1 : Tab.rising v.tier.blocks = true := k.1
    have k2 : (v.block c).retired = true := k.2
    split
    · exact State.block_retire k1 b c (.inl k2)
    · exact State.eraseBlock_retired k1 b c k2

/-- All that choosing the blocks of a new extent can change. -/
theorem State.newExtent_erased (s : State) : Erased s s.newExtent.2 := by
  unfold State.newExtent
  extract_lets g
  generalize List.range 16 = l
  have key : ∀ (x : List Nat × State), Erased s x.2 → Erased s (l.foldl (fun (x : List Nat × State) c =>
      let dies := ((List.range g.dies).map (c * g.dies + ·)).filter fun d => (x.2.freeBlock d).isSome
      match dies[Config.choiceNat x.2.fresh % dies.length]? with
      | none => (x.1 ++ [g.noBlock], x.2)
      | some d =>
        let (b, s) := State.takeBlock d g.dieBlocks x.2.tick
        (x.1 ++ [b.getD g.noBlock], s)) x).2 := by
    induction l with
    | nil => exact fun x h => h
    | cons c l ih =>
      intro x h
      refine ih _ ?_
      dsimp only
      split
      · exact h
      · rename_i d _
        exact (h.trans (.tick x.2)).trans (State.takeBlock_erased d g.dieBlocks x.2.tick)
  exact key ([], s) (.refl s)

/-- Growing an object changes the tier's block map alone: every object stays as it is but for its blocks. -/
theorem State.growExtents_moves (id n f : Nat) (s : State) :
    ChangesOnly [.tier, .fresh] s (State.growExtents id n f s) ∧ (State.growExtents id n f s).tier.objs.map Obj.apart = s.tier.objs.map Obj.apart := by
  induction f generalizing s with
  | zero => exact ⟨.refl _ s, rfl⟩
  | succ f ih =>
    unfold State.growExtents
    split
    · exact ⟨.refl _ s, rfl⟩
    · split
      · exact ⟨.refl _ s, rfl⟩
      · have h := s.newExtent_erased
        generalize s.newExtent = x at h
        obtain ⟨e, u⟩ := x
        obtain ⟨b, y, z, m, rfl⟩ := h
        dsimp only
        refine ⟨ChangesOnly.trans (fun p hp => ?_) (ih _).1, (ih _).2.trans ?_⟩
        · cases p <;> first | (exfalso; revert hp; decide) | rfl
        · show (s.tier.objs.map _).map Obj.apart = _
          rw [List.map_map]
          refine List.map_congr_left fun o _ => ?_
          dsimp only [Function.comp]
          split <;> rfl

end Sys2Proof.Machine
end

