-- ==== Sys2Proof/WellFormed.lean ====
section
/-!
DEFINITION. What the spec bounds in the data of a command beyond its type: widths of a 32-bit access, packet and flit lengths, masks that
list each pin once. The meanings are total and do not rest on these checks; a sender that keeps the spec's bounds passes them.
-/
namespace Sys2Proof

/-- A 32-bit access carries 32 bits (R586). -/
def BarWrite.wf (w : BarWrite) : Bool :=
  match w.half with
  | .full => true
  | _ => decide (w.value.toNat < 2 ^ 32)

/-- Host bus addresses lie below 2^48 (R23). -/
def HostWrite.wf (h : HostWrite) : Bool := decide (h.addr + h.bytes.length ≤ 2 ^ 48)

/-- A packet's payload is at most 4,096 bytes (R419). -/
def Packet.wf (p : Packet) : Bool := decide (p.payload.length ≤ 4096)

/-- A flit's body is 244 bytes (R407). -/
def Flit.wf (f : Flit) : Bool := decide (f.body.length = 244)

/-- A port advertises eight allocations (R416). -/
def Handshake.wf (h : Handshake) : Bool := decide (h.alloc.length = 8)

/-- A re-plan reads 16 points (R528). -/
def ReplanReading.wf (r : ReplanReading) : Bool := decide (r.needMv.length = 16)

/-- A pin is wrong once or not at all (R261). -/
def SymbolErrors.wf (e : SymbolErrors) : Bool := decide e.pins.Nodup

/-- An atomic is 16, 32 or 64 bits wide (R287). -/
def AtomicReq.wf (q : AtomicReq) : Bool := decide (q.size.toNat ≤ 2)

/-- An access to an array's window stays in the window's 64 MiB (R26). -/
def WinAccess.wf (w : WinAccess) : Bool := decide (w.offset + max w.size w.data.length ≤ 0x400_0000)

/-- An Ethernet frame carries a packet (R434). -/
def Frame.wf (f : Frame) : Bool := f.packet.wf

/-- An admin request over MCTP carries a 64-byte descriptor, and is at most 4,160 bytes long (R575, R592). -/
def AdminFrom.wf (r : AdminFrom) : Bool :=
  match r with
  | .queued => true
  | .mctp _ d params => decide (d.length = 64) && decide (params.length ≤ 4096)

/-- A command's data keep the bounds of the spec. -/
def Instr.wf (i : Instr) : Bool :=
  match i with
  | .registerWrite _ w | .memHbmIlvWrite w | .memScCfgWrite w | .devcfgWrite w | .arrnClkWrite _ w | .pwrCapWrite w
  | .fabPortCfgWrite _ w | .fabPortVcbufWrite _ w | .fabRouteWrite _ w | .hifEvcfgEnable _ w | .hifAdminEnable w
  | .hifBar4WinWrite w | .dbgEnableWrite w => w.wf
  | .doorbell _ _ _ _ h | .adminDoorbell _ _ _ h => h.all HostWrite.wf
  | .remoteSignalReceive p | .count p | .admitCounts p | .row p | .return_ p | .dropMark p | .handoffReceive p | .contrib p | .credit p
  | .norm p | .status p | .abortReq p | .tokenClip p | .tokenCommit p | .tokenSkip p | .tokenAbort p | .gatherReq p | .gatherData p
  | .gatherScales p | .bcastData p | .bcastScales p => p.wf
  | .openSession r | .closeSession r | .ringCreate r | .ringDelete r | .reset r | .clearRepair r | .clearOutOfService r
  | .marginReplan r | .clipCoeff r | .assignDevid r | .routeWrite r | .planInstall r | .planRemove r | .stepAbort r | .revert r => r.wf
  | .atomic q => q.wf
  | .hbmReadComplete _ _ e | .scrubRead _ e => e.wf
  | .windowAccess _ w => w.wf
  | .handshake _ h => h.wf
  | .flitReceive _ f => f.wf
  | .ethernetFrameReceive _ f => f.wf
  | .replan _ r => r.wf
  | .challenge n => decide (n.length = 32)
  | .bar4Access off size data _ => decide (off + max size data.length ≤ 2 ^ 48)
  | _ => true

end Sys2Proof
end

