-- ==== Sys2Proof/Tests/Slice0.lean ====
section
/-!
SUPPORT. The tests: for every hypothesis of every statement in Sys2Proof.Certificates.Slice0.Obligations a small state that meets it
(theorems `meets_…`), an ill-formed term for each check of Sys2Proof.WellFormed, and numbers worked out from the spec's examples
(theorems `test_…`).
-/
namespace Sys2Proof.Tests
open Sys2Proof Sys2Proof.Machine

-- One proof at a time: proofs that wait for the kernel would each hold a thread.
set_option Elab.async false

/-! Small states. Each meets the hypotheses of the statements named in the theorems that use it. -/

/-- A descriptor of a class with its class fields from byte 0x10, no WAITOBJ and no SIGOBJ. -/
def mkDesc (cls : Nat) (fields : List Byte) : List Byte :=
  padTo 64 ([BitVec.ofNat 8 cls, 1, 0, 0, 255, 255, 255, 255] ++ List.replicate 8 0 ++ fields)

/-- A fetched command of ring 5 with count 0. -/
def mkCmdOf (ring : Nat) (phase : Phase) (d : List Byte) : Cmd := { newCmd ⟨ring, 0⟩ d with phase := phase }

/-- A submission ring with three descriptors to fetch. -/
def mkSub : Ring :=
  { base := 0x1000, headptr := 0x800, sizeLog2 := 6, weight := 1, cvec := 0xFFFF, session := 0, head := 0, tail := 3, stopped := false, deleting := none }

/-- Event ring 3 with three records whose interrupt waits, submission ring 5, and the admin ring. -/
def mkRing : State :=
  { State.reset with
    now := 1000000
    hif := { Hif.reset with
      up := true
      admin := { AdminRing.reset with enable := true, tail := 2 }
      evrings := [(3, { EvRing.reset 3 with enable := true, coalUs := 5, coalCount := 100, w := 3, sinceIrq := 3, firstAt := some 5 })]
      rings := [(5, some mkSub)] } }

/-- Vector 7 is pending. -/
def mkVec : State :=
  { State.reset with hif := { Hif.reset with up := true, msix := [(7, { MsixEntry.reset with pending := true })] } }

/-- The DBG block is enabled and points at HBM. -/
def mkDbg : State := { State.reset with dbg := { Dbg.reset with enable := true, addr := 8 }, hif := { Hif.reset with up := true } }

/-- It points at an array window. -/
def mkDbgWin : State := { mkDbg with dbg := { mkDbg.dbg with addr := 0x4000_0000_0000 } }

/-- One command of a class, at a phase. -/
def mkCmd (cls ring : Nat) (phase : Phase) : State :=
  { State.reset with hif := { Hif.reset with up := true, cmds := [mkCmdOf ring phase (mkDesc cls [1, 1])] } }

/-- Object 9 has count 3 and an empty queue. -/
def mkSync : State := { State.reset with sync := { objs := [(9, { SyncObj.reset with count := 3 })], done := [] } }

/-- A started SYNC command with an operation. -/
def mkSyncCmd (op : Nat) : State :=
  { State.reset with hif := { Hif.reset with cmds := [mkCmdOf 5 .started (mkDesc 2 [BitVec.ofNat 8 op, 1])] } }

/-- A started HINT of a kind, with the board's floor drawn or not. -/
def mkHint (kind : Nat) (floor : Bool) : State :=
  { State.reset with
    hif := { Hif.reset with cmds := [mkCmdOf 5 .started (mkDesc 3 [0, 0, 0, 0, 0, 0, 0, BitVec.ofNat 8 kind])] }
    pwr := { Pwr.reset with floor := floor } }

/-- A started command of a class with an operation, with table 0 at a state. -/
def mkOp (cls op st : Nat) : State :=
  { State.reset with
    hif := { Hif.reset with cmds := [mkCmdOf 5 .started (mkDesc cls [BitVec.ofNat 8 op, 0, 1, 0, 0])] }
    tables := if st = 0 then [] else [(0, { CTable.reset with state := st })] }

/-- Table 2 runs: a release is due, a released instance has been fetched, and another one is over its budget. -/
def mkTable : State :=
  let e : TableEntry := { offset := 0, budget := 10, ctx := 0, arrays := 1, stepFromPeriod := false, desc := 0 }
  { State.reset with
    now := 100
    hif := { Hif.reset with cmds := [{ newCmd ⟨0x202, 0⟩ (mkDesc 0 []) with phase := .fetched }] }
    tables := [(2, { CTable.reset with
      state := 2, startNow := 1, period := 20, entries := [e, { e with arrays := 2 }], nextEntry := 1
      insts := [{ entry := 0, period := 0, release := 1, started := none, overrun := false },
                { entry := 1, period := 0, release := 1, started := some 0, overrun := false }] })] }

/-- A started CTX command with an operation for context 0, which is at a state. -/
def mkCtx (cls op st : Nat) : State :=
  { State.reset with
    hif := { Hif.reset with cmds := [mkCmdOf 5 .started (mkDesc cls [BitVec.ofNat 8 op])] }
    ctxs := [(0, { Ctx.reset with state := st, holdsPart := decide (st ≠ 4), teardown := if st = 6 then some ⟨5, 0⟩ else none })] }

/-- Context 0 is saved, and context 1 has taken a part of its partition on array 0. -/
def mkPart : State :=
  { State.reset with
    hif := { Hif.reset with cmds := [mkCmdOf 5 .started (mkDesc 5 [3])] }
    ctxs := [(0, { Ctx.reset with state := 4, resMask := 1, resLenKib := 4 }),
             (1, { Ctx.reset with state := 1, resMask := 1, resLenKib := 4, holdsPart := true })] }

/-! Admin requests. The MAC is computed by the model's own (uninterpreted) function. -/

/-- The descriptor before its MAC: class ADMIN, FMT 2, an operation, session 1, the block's length, SEQ 7. -/
def adminHead (op len : Nat) : List Byte :=
  [8, 0, 0, 0, 0, 0, 0, 0, 0, 0, 0, 0, 0, 2, 0, 0] ++ leBytes 2 op ++ [1, 0] ++ leBytes 4 len ++ leBytes 8 7 ++ List.replicate 8 0

/-- The MAC of a request under an empty session key. -/
def macOf (head block : List Byte) : List Byte :=
  padTo 16 (Config.hmacSha512 [] (head ++ List.replicate 16 0 ++ List.replicate 8 0 ++ block))

/-- A request of session 1 with the MAC that its head and block need. -/
def signedBy (head block : List Byte) : AdminReq :=
  { transport := 0, port := none, src := 0, isLocal := true, count := 0, desc := head ++ macOf head block ++ List.replicate 8 0, params := block }

def signed (op : Nat) (block : List Byte) : AdminReq := signedBy (adminHead op block.length) block

theorem length_padTo (n : Nat) (l : List Byte) : (padTo n l).length = n := by simp [padTo]

theorem signed_mac (head block : List Byte) (hl : head.length = 0x28) (h : (signedBy head block).plen = block.length) :
    (signedBy head block).macUnder [] = (signedBy head block).mac := by
  have m : (macOf head block).length = 16 := length_padTo _ _
  have b : (signedBy head block).block = block := by
    unfold AdminReq.block
    rw [h]
    exact List.take_length
  have d1 : (signedBy head block).desc.take 0x28 = head := by
    show ((head ++ macOf head block) ++ List.replicate 8 0).take 0x28 = _
    rw [List.append_assoc]
    exact List.take_left' hl
  have d2 : (signedBy head block).desc.drop 0x28 = macOf head block ++ List.replicate 8 0 := by
    show ((head ++ macOf head block) ++ List.replicate 8 0).drop 0x28 = _
    rw [List.append_assoc]
    exact List.drop_left' hl
  have d3 : (signedBy head block).desc.drop 0x38 = List.replicate 8 0 := List.drop_left' (by rw [List.length_append, m, hl])
  have d4 : (signedBy head block).mac = macOf head block := by
    unfold AdminReq.mac
    rw [d2]
    exact List.take_left' m
  unfold AdminReq.macUnder
  rw [d4, d1, d3, b]
  rfl

theorem signed_tail (op : Nat) (block : List Byte) : zeroAt (signed op block).desc 0x38 8 = true := by
  have m : (macOf (adminHead op block.length) block).length = 16 := length_padTo _ _
  have d3 : (signed op block).desc.drop 0x38 = List.replicate 8 0 := List.drop_left' (by rw [List.length_append, m]; rfl)
  unfold zeroAt
  rw [d3]
  rfl

/-- A state in which a request waits at the front and session 1 is open. -/
def withReq (s : State) (op : Nat) (block : List Byte) : State :=
  { s with
    hif := { s.hif with adminQ := [signed op block] }
    sec := { Sec.reset with sessions := [(1, .opened 0 none [] none)] } }

/-- The state in which that request is served. -/
def servedFrom (s : State) (op : Nat) (block : List Byte) : State := (withReq s op block).popAdmin.advanceSeq (signed op block)

theorem signed_serves (s : State) (op : Nat) (block : List Byte) (h1 : (signed op block).plen = block.length) (h2 : (signed op block).op = op)
    (h3 : op ≠ 1) (h4 : opAccepted op 0 = true) (h5 : block.length ≤ 4096) (h6 : s.adminBusy = false) :
    (withReq s op block).Serves .queued op (signed op block) (servedFrom s op block) := by
  refine ⟨trivial, rfl, h2, h6, rfl, .inr ?_, ?_, h4, h1 ▸ h5, (if_neg h3).symm⟩
  · show (if (signed op block).macUnder [] ≠ (signed op block).mac then some 2 else none) = none
    exact if_neg (not_not.2 (signed_mac _ block rfl h1))
  · unfold AdminReq.descOk
    rw [signed_tail]
    rfl

/-- A request of session 1 at service level 2. -/
def mkServing : State := { State.reset with boot := { Boot.reset with level := 2, opKey := some [] } }

/-- It waits at the front. -/
def mkReq (op : Nat) (block : List Byte) : State := withReq mkServing op block

/-- Ring 5 is session 1's. -/
def mkReqTaken (op : Nat) (block : List Byte) : State :=
  withReq { mkServing with hif := { Hif.reset with rings := [(5, some { mkSub with session := 1 })] } } op block

/-- Ring 5's parameter block for RING_CREATE. -/
def ringBlock : List Byte := leBytes 8 0x1000 ++ leBytes 8 0x800 ++ [5, 6, 1, 0, 255, 255] ++ List.replicate 10 0

/-- A plan without buckets for job 3, with step 6 open, at version 5. -/
def somePlan : Plan :=
  { State.reset.readPlan 0 0 with
    job := 3, self_ := 0, master := 0, mode := 4, nmember := 1, children := [], buckets := [], nbucket := 0, openStep := 6, version := 5
    lastToken := 2, state := 1 }

/-- That plan is installed at place 2. -/
def mkReqPlan (op : Nat) (block : List Byte) : State :=
  withReq { mkServing with red := { plans := [(2, some somePlan)], counts := [] } } op block

/-- A plan header for job 3 lies in HBM. -/
def mkReqInstall : State :=
  withReq { mkServing with
    mem := { cells := [(0, 3), (8, 1)], scrambled := [] }
    ctxs := [(0, { Ctx.reset with state := 1 })] } 0x32 (List.replicate 16 0)

/-- Transport 0 is locked. -/
def mkLocked : State := { mkReq 0x11 [] with sec := { Sec.reset with locked := [(0, some 0)] } }

/-- No session is open. -/
def mkReqNoSession (op : Nat) : State := { mkReq op [] with sec := Sec.reset }

/-- A descriptor whose FMT is not 2, with the MAC that its session's key gives. -/
def mkReqBad (op : Nat) : State :=
  { mkReq op [] with hif := { Hif.reset with adminQ := [signedBy ((adminHead op 0).set 0x0D 1) []] } }

/-- An OPEN_SESSION of a phase with a block. -/
def openReq (block : List Byte) : AdminReq :=
  { transport := 0, port := none, src := 0, isLocal := true, count := 0
    desc := [8, 0, 0, 0, 0, 0, 0, 0, 0, 0, 0, 0, 0, 2, 0, 0, 1, 0, 0xFF, 0] ++ leBytes 4 112 ++ List.replicate 40 0
    params := block }

def mkOpening (block : List Byte) (sessions : Tab Session) : State :=
  { mkServing with hif := { Hif.reset with adminQ := [openReq block] }, sec := { Sec.reset with sessions := sessions } }

/-- Phase 1 with every number free. -/
def mkOpen1 : State := mkOpening (1 :: List.replicate 111 0) []

/-- Phase 1 with no number free. -/
def mkOpenFull : State := mkOpening (1 :: List.replicate 111 0) ((List.range 4).map fun n => (n, .reserved 0 [] [] 0))

/-- The proof of an acceptance of number 0. -/
def someProof : List Byte := proofOf [] [] (List.replicate 32 0) 0 0

/-- Phase 2 for number 0, with the right proof. -/
def mkOpen2 : State := mkOpening (2 :: List.replicate 47 0 ++ someProof) [(0, .reserved 0 (List.replicate 32 0) [] 0)]

/-- The reservation of session 1 has lapsed. -/
def mkLapse : State := { State.reset with now := 2000000000, sec := { Sec.reset with sessions := [(1, .reserved 0 [] [] 0)] } }

theorem someProof_length : someProof.length = 64 := length_padTo _ _

/-! Arrays, feeders, caches and HBM. Records lie in host memory, from device address 2^50. -/

/-- Cells that hold bytes from an address on. -/
def cellsAt (a : Nat) (bs : List Byte) : Tab Byte := Tab.setMany (fun _ => 0) [] a bs

/-- A RUN of ring 5 on array 2. -/
def someRun (phase : RunPhase) : Run :=
  { key := ⟨5, 0⟩, ctx := 0, tag := 0, image := 0, bindings := 0, nbind := 0, arrays := 4, prio := 0, step := 0, mb := 0, seed := 0, order := 0, phase := phase
    bound := true, saved := 0, restoring := 0, preemptor := 0, preemptAt := 0, saveKib := 0, everPreempted := false, solo := true, cycles := 0
    tiles := 0, frozen := [], kept := [] }

/-- Array 2 as given, with a RUN. -/
def mkArray (runs : List Run) (x : ArrayUnit) : State :=
  { State.reset with boot := { Boot.reset with level := 2 }, hif := { Hif.reset with up := true }, runs := runs, arrays := [(2, x)] }

/-- Array 2 belongs to the RUN and its clock runs. -/
def owned : ArrayUnit := { ArrayUnit.reset with owner := some ⟨5, 0⟩, curMhz := 2400 }

def mkRun (phase : RunPhase) : State := mkArray [someRun phase] { owned with owner := if phase = .waiting then none else some ⟨5, 0⟩ }

/-- Array 2 is scrubbed beside a partition of context 0, with a RUN or without one. -/
def mkOwned (r : Option Run) : State :=
  { mkArray r.toList { owned with scrubbing := true } with
    ctxs := [(0, { Ctx.reset with state := 1, resMask := 4, resOffKib := 1, resLenKib := 1, holdsPart := true })] }

def mkQuiesced : State := mkArray [someRun .preempting] { owned with quiesced := true }

def mkRestoring : State := mkArray [{ someRun .granted with restoring := 4, kept := [(2, ArrayUnit.reset)] }] owned

/-- A row of the tile at position 0. -/
def someRow : LaneRow := { tile := 0, idx := 0, lanes := [1], scales := [], sels := [], clear := [], empty := false, last := true }

/-- A row-mode INT8 tile record with M = R = C = 1. -/
def someTile : List Byte := leBytes 16 (6 * 4 + 2 ^ 12 + 2 ^ 24 + 2 ^ 35)

/-- Its vector waits in the west feeder. -/
def mkTile : State :=
  { mkArray [someRun .granted] { owned with tileList := 2 ^ 50, ntiles := 1, feeders := [(0, { Feeder.reset with moving := [someRow] })] } with
    mem := { cells := cellsAt (2 ^ 50) someTile, scrambled := [] } }

/-- The tile record is all zeros. -/
def mkBadTile : State := mkArray [someRun .granted] { owned with tileList := 2 ^ 50, ntiles := 1 }

def mkHalted : State := mkArray [] { owned with state := 4 }

/-- A load that has shifted in whole, and one that may start. -/
def mkLoads : State :=
  let l : WakeLoad := { reg := 0, tile := 0, north := true, ext := 1, rides := none, after := 0, started := true, done := 1, lastAt := 0, repeat_ := false, slot := none }
  mkArray [someRun .granted] { owned with loads := [l, { l with reg := 1, north := false, started := false, done := 0 }] }

/-- A hold tile that has issued its last slot. -/
def mkHold : State :=
  mkArray [someRun .granted] { owned with
    cyc := 10, inflight := [{ pos := 0, tr := { tileRecOf [] with mode := 2 }, t0 := 0, slots := [], ended := some 0, block := RegBlock.reset, sp24 := false }] }

def mkStuck : State := mkArray [someRun .granted] { owned with noProg := 10000 }

/-- Feeders with a staged vector each; the west landing's slot is there. -/
def mkFeed : State :=
  { mkArray [someRun .granted] { owned with
      feeders := [(0, { Feeder.reset with staging := [someRow] }), (1, { Feeder.reset with staging := [someRow] })] } with
    sync := { objs := [], done := [slotWaiter 2 0 false] } }

/-- An epilogue of no rows may start in the south edge unit, and one has run in the east unit. -/
def mkEpi : State :=
  let e : Epilogue := { tile := 0, rec_ := 2 ^ 50, brow := 0, m := 0, fmt := 6, c := 1, r := 1, mode := 0, step := 0, nstep := 0, ready := true, beat := 0, row := 0
                        nonfin := 0, stashNonfin := 0
                        gain := [], offset := [] }
  mkArray [someRun .granted] { owned with south := { Edge.reset with queue := [e] }, east := { Edge.reset with queue := [e], running := true } }

/-- Two stream descriptors: four rows of 256 bytes at 0x10000, and the same with a null entry in its index stream. -/
def mkDescAt : Nat := 2 ^ 50
def mkNullAt : Nat := 2 ^ 50 + 0x100
def someDesc (idim index : Nat) : List Byte :=
  leBytes 8 0x10000 ++ List.replicate 16 0 ++ leBytes 8 index ++ List.replicate 18 0 ++ [2, BitVec.ofNat 8 idim] ++ leBytes 2 256 ++ List.replicate 10 0
    ++ leBytes 4 4 ++ List.replicate 60 0

/-- Lines in every state, and a stream of each kind. -/
def mkDsc : State :=
  let l : DscLine := { line := 7, stream := none, prefetched := true, inflight := true, dropped := false, age := 0 }
  let r : DscStream := { desc := mkDescAt, engine := 0x20, ctx := 0, base := 0x10000, row := 0, part := 0, last := 4 }
  { State.reset with
    hif := { Hif.reset with up := true }
    mem := { cells := cellsAt mkDescAt (someDesc 0 0) ++ cellsAt mkNullAt (someDesc 1 (2 ^ 50 + 0x200)) ++ cellsAt (2 ^ 50 + 0x200) [255, 255], scrambled := [] }
    dsc := [(0, { Dsc.reset with lines := [l, { l with line := 8, dropped := true }, { l with line := 9, inflight := false }], streams := [r] }),
            (1, { Dsc.reset with streams := [{ r with desc := mkNullAt }] })] }

/-- Requests in the windows and in the in-order queue of stack 0, a poisoned codeword, a channel in reset, scrub intervals that are over, and flash
blocks of which one is worn, one has been read often and holds sealed data, and one is bad. -/
def mkHbm : State :=
  let r : HbmPending := { req := ⟨64, [], 32, false, 3⟩, at_ := 0, seq := 0, slotted := true, poison := [], served := [], bad := false }
  let w (i : Nat) : HbmPending := { r with req := ⟨512, [1], 0, true, 3⟩, seq := 10 + i, slotted := false }
  { State.reset with
    now := 8640000000000
    hbm := { Mem.reset with
      poisoned := [(128, true)]
      stk := [(0, { Stack.reset with pcs := [(0, { Pchan.reset with window := [r, { r with seq := 1, slotted := false }] }),
                                             (2, { Pchan.reset with window := (List.range 9).map w, draining := true })]
                                     scrubbed := [7]
                                     inorder := [{ r with req := ⟨256, [], 32, false, 144⟩, seq := 2 }] }),
              (1, { Stack.reset with chans := [(2, { Chan.reset with resetAt := some 0 })] })] }
    tier := { Tier.reset with
      nand := { Nand.reset with codewords := 1, pages := 1, dieBlocks := 8, dies := 1, bad := [6] }
      blocks := [(2, { Block.reset with reads := 100000, used := true }), (3, { Block.reset with erases := 5000 })]
      objs := [{ id := 9, base := 0, size := 4096, written := 4096, sealed := true, ctx := 0, stash := false, extents := [[2]] }] } }
/-! Engines. A page of host memory holds the records: the step or ferry record at its begin, descriptors from 0x100 on. -/

def page : Nat := 2 ^ 50

/-- A stream descriptor: base, role, bytes of a row, number of rows. -/
def strm (base role rb rows : Nat) : List Byte :=
  leBytes 8 base ++ List.replicate 40 0 ++ [BitVec.ofNat 8 role, 0, 2, 0] ++ leBytes 2 rb ++ List.replicate 10 0 ++ leBytes 4 rows ++ List.replicate 20 0
    ++ leBytes 8 rb ++ List.replicate 32 0

/-- A gather step with an operation, COUNT or BATCH, and two words of its body. -/
def stepBytes (op n a b : Nat) : List Byte := [BitVec.ofNat 8 op, 0, 255, 255] ++ leBytes 4 n ++ List.replicate 8 0 ++ leBytes 8 a ++ leBytes 8 b

/-- A work that stands at the page. -/
def someWork (run cmd : Option CmdKey) : Work :=
  { addr := page, count := 1, pos := 0, ctx := 0, run := run, cmd := cmd, array := 2, seed := 0, step := 0, cursor := 0, freeTaken := false
    waiting := false, written := false, abandoned := false, doneBytes := 0, tile := 0 }

/-- Engine `e` stands at a work; the page holds the given pieces; context 0 has four synchronisation objects from 16 on. -/
def mkEngine (e : Nat) (w : Work) (cells : Tab Byte) : State :=
  { mkArray [someRun .granted] owned with
    mem := { cells := cells, scrambled := [] }
    ctxs := [(0, { Ctx.reset with state := 1, syncBase := 16, syncCount := 4 })]
    engines := [(e, { Engine.reset with work := [w] })] }

def runWork : Work := someWork (some ⟨5, 0⟩) none
def ferryWork : Work := someWork none (some ⟨5, 0⟩)

def mkMove (op : Nat) : State :=
  mkEngine 0x18 runWork (cellsAt page (stepBytes op 1 (page + 0x100) (page + 0x200))
    ++ cellsAt (page + 0x100) (strm 0x10000 (if op = 0x20 then 0xA else 8) 4 2) ++ cellsAt (page + 0x200) (strm 0x20000 (if op = 0x20 then 9 else 0xA) 4 2))

/-- A ferry record: operation, source, destination, object or word at 0x10, count, landing slots. -/
def recBytes (op src dst x count lslots : Nat) : List Byte :=
  leBytes 8 src ++ leBytes 8 dst ++ leBytes 8 x ++ leBytes 8 (if op = 3 then 1 else 0) ++ leBytes 4 count ++ leBytes 4 0
    ++ leBytes 4 (if lslots = 0 then 0 else 8) ++ leBytes 2 lslots ++ leBytes 2 0 ++ [255, 255, 0, 0, 0, BitVec.ofNat 8 op] ++ List.replicate 10 0

/-- A FERRY command's gather or scatter of two rows at gather engine 0. -/
def mkMoveRec (op : Nat) : State :=
  mkEngine 0x18 ferryWork (cellsAt page (recBytes op (page + 0x100) (page + 0x200) 0 2 0)
    ++ cellsAt (page + 0x100) (strm 0x10000 (if op = 1 then 0xA else 8) 4 2) ++ cellsAt (page + 0x200) (strm 0x20000 (if op = 2 then 0xA else 9) 4 2))

/-- A hand-off of 8 bytes in two slots. -/
def mkHandoff : State :=
  mkEngine 0x18 runWork (cellsAt page (stepBytes 0x23 0 (page + 0x100) (page + 0x200)) ++ cellsAt (page + 0x100) (strm 0x10000 8 4 2)
    ++ cellsAt (page + 0x200) (leBytes 8 0x30000 ++ leBytes 4 8 ++ leBytes 2 2 ++ leBytes 2 0 ++ leBytes 4 7 ++ leBytes 4 8 ++ List.replicate 8 0))

/-- The first fold of an accumulation of two elements from slots of 4 KiB. -/
def mkFold : State :=
  mkEngine 0x18 runWork (cellsAt page (stepBytes 0x24 0 (page + 0x100) 0)
    ++ cellsAt (page + 0x100) (leBytes 8 0x10000 ++ leBytes 8 0x20000 ++ leBytes 4 4096 ++ leBytes 4 2 ++ leBytes 4 0 ++ [1, 0, 0, 0]))

/-- A packet of a channel and type for context 0, which has arrived here by port 1. -/
def somePacket (vc : Fin 8) (type : BitVec 5) (arg : DWord) (payload : List Byte) : Packet :=
  { packetTo 0 7 vc type 0 with ctx := 0, arg := arg, payload := payload }

/-- Data of a hand-off packet: base 0x30000, slots of 8 bytes, slot 0, at an offset of the fill. -/
def handoffData (off : Nat) : List Byte :=
  leBytes 8 0x30000 ++ leBytes 4 8 ++ leBytes 2 2 ++ leBytes 2 0 ++ leBytes 2 0 ++ [1, 0] ++ leBytes 4 off ++ leBytes 8 0 ++ [1, 2, 3, 4]

/-- That packet waits, and the free object holds a count. -/
def mkHandoffIn (off : Nat) : State :=
  { mkEngine 0x18 runWork [] with
    fab := { Fab.reset with inbox := [(some 1, somePacket 5 8 0 (handoffData off))] }
    sync := { objs := [(18, { SyncObj.reset with count := 1 })], done := [] } }

theorem answers_true {α : Type} {p : Bool × α} (h : p.1 = true) : ∃ v, p = (true, v) := ⟨p.2, Prod.ext h rfl⟩

def isOk {α β : Type} (p : Except α β) : Bool := match p with | .ok _ => true | .error _ => false

theorem answers_ok {α β : Type} {p : Except α β} (h : isOk p = true) : ∃ v, p = .ok v := by
  cases p with
  | ok v => exact ⟨v, rfl⟩
  | error e => cases h

theorem answers_none {α β : Type} {p : α × Option β} (h : p.2 = none) : ∃ v, p = (v, none) := ⟨p.1, Prod.ext rfl h⟩

/-- A packet at the front of those that have been delivered can be received. -/
theorem receives {s : State} {p : Packet} (h : (s.receive p).map Prod.fst = some (some 1)) : ∃ t, s.receive p = some (some 1, t) := by
  cases e : s.receive p with
  | none => rw [e] at h; cases h
  | some x => rw [e] at h; exact ⟨x.2, congrArg some (Prod.ext (Option.some.inj h) rfl)⟩

/-- A dispatch of context 0 at gather engine 0, which awaits combine row 3. -/
def someDispatch : Dispatch :=
  { rec_ := page + 0x100, ctx := 0, array := 2, sync := 0xFFFF, counts := [], answered := false, admits := [], sent := false, returns := [3], dropped := []
    arrived := [], got := [], complete := false }

/-- A dispatch step is at the head of gather engine 0, with a placement table of no experts; its dispatches are given, and a packet has arrived. -/
def mkDispatch (ds : List Dispatch) (ps : List Packet) : State :=
  { mkEngine 0x18 runWork (cellsAt page (stepBytes 0x22 0 (page + 0x100) 0) ++ cellsAt (page + 0x100) (leBytes 8 (page + 0x200))) with
    engines := [(0x18, { Engine.reset with work := [runWork], dispatches := ds })]
    fab := { Fab.reset with inbox := ps.map fun p => (some 1, p) } }

/-- A tier ferry stands at a COPY of 8 bytes, with a landing of so many slots and its free count taken or not. -/
def mkCopy (lslots : Nat) (freeTaken : Bool) : State :=
  mkEngine 0x10 { ferryWork with freeTaken := freeTaken } (cellsAt page (recBytes 0 (page + 0x100) (page + 0x200) 0 8 lslots)
    ++ cellsAt (page + 0x100) (strm 0x10000 8 4 2) ++ cellsAt (page + 0x200) (strm 0x20000 9 4 2))

/-- A tier ferry stands at a record on objects; object 9 belongs to a context. -/
def mkObject (op : Nat) (src obj size owner usable : Nat) : State :=
  { mkEngine 0x10 ferryWork (cellsAt page (recBytes op src obj size 0 0)) with
    tier := { Tier.reset with
      ddrUsableMib := BitVec.ofNat 32 usable
      objs := if op = 3 then [] else [{ id := 9, base := 2 ^ 48, size := 4096, written := 0, sealed := false, ctx := owner, stash := false, extents := [] }] } }

/-- An engine's head has written everything of its first record, with as many records in its list. -/
def mkWritten (e count : Nat) (run cmd : Option CmdKey) : State :=
  mkEngine e { someWork run cmd with written := true, count := count } []

/-- A stash of context 0 with one slot. -/
def someStash (quota : Nat) (mbs : List StashMb) : Stash :=
  { ctx := 0, id := 0, base := 0, slotBytes := 64, h := 1, quota := quota, timeoutMs := 1, reserve := 2 ^ 48, heldUnits := 0, mbs := mbs, waiting := []
    since := none }

/-- Array 2 stands at a stash step for micro-batch 1. -/
def mkStash (op : Nat) (t : Stash) : State :=
  { mkArray [someRun .granted] { owned with stashList := page, nstash := 1 } with
    mem := { cells := cellsAt page ([BitVec.ofNat 8 op, 0, 0, 0, 1, 0, 0, 0] ++ List.replicate 8 0), scrambled := [] }
    ctxs := [(0, { Ctx.reset with state := 2, syncBase := 16, syncCount := 4 })]
    tier := { Tier.reset with stashes := [t] } }

def stepOf (op : Nat) : StashWait := { op := op, mb := 1, sync := 0, array := 2, reason := 0 }

/-- The state with the step taken. -/
def stepTaken (op : Nat) (t : Stash) : State := (mkStash op t).setArray 2 { (mkStash op t).array 2 with stashPos := 1 }

/-- A stash of context 0 in the books, with a time. -/
def mkBooks (t : Stash) (now : Nat) : State :=
  { mkStash 0 t with now := now, tier := { Tier.reset with stashes := [t], objs := [{ id := 9, base := 2 ^ 48, size := 64, written := 0, sealed := true, ctx := 0, stash := true, extents := [] }] } }

/-! The fabric. -/

/-- Port 2 as given. -/
def mkPort (x : Port) : State :=
  { State.reset with now := 100000000, boot := { Boot.reset with level := 2 }, fab := { Fab.reset with ports := [(2, x)] } }

def someSent (eop : Bool) : Sent := { seq := 0, vc := 0, sop := true, eop := eop, body := List.replicate 244 0 }

/-- A header word with the data bit 30 set and a sequence number. -/
def wireHeader (seq : Nat) : DWord := BitVec.ofNat 64 (2 ^ 30 + seq)

/-! Gradient reduction. -/

/-- A bucket with two chunks, whose one input is member 0. Its shard descriptor lies behind the page's member table. -/
def someBucket : Bucket :=
  { State.reset.readBucket 3 0 with credits := 4, nchunk := 2, depth := 2, inputs := [0], shard := page + 0x100, readyObj := 0, gathObj := 1 }

/-- The job's plan with one bucket; its member table begins at the page. -/
def planWith (b : Bucket) : Plan := { somePlan with buckets := [(0, some b)], nbucket := 1, members := page }

/-- That plan is installed at place 2, and packets have arrived by port 1. The shard's optimiser is as given. -/
def mkPlan (p : Plan) (opt : Byte) (ps : List Packet) : State :=
  { mkEngine 0 ferryWork ([(page, 7)] ++ if opt = 0 then [] else [(page + 0x128, opt)]) with
    engines := [], red := { plans := [(2, some p)], counts := [] }, fab := { Fab.reset with inbox := ps.map fun q => (some 1, q) } }

/-- A packet of the job from member 0 for a step. -/
def jobIn (vc : Fin 8) (type : BitVec 5) (step : Word) (arg : DWord) : Packet :=
  { somePacket vc type arg [] with job := 3, step := step }

def someSlot (sent : Bool) : RSlot := { step := 6, chunk := 0, acc := [], satur := [], ovf := 0, nf := 0, added := [], sent := sent }

/-! Power, resets, boot and management. -/

/-- The power controller as given, at a time. -/
def mkPower (now : Nat) (p : Pwr) : State := { State.reset with now := now, pwr := p }

def sample (capped uncapped : Nat) : PowerSample :=
  { cappedW := BitVec.ofNat 16 capped, uncappedW := BitVec.ofNat 16 uncapped, tjAd0 := 0, tjHub := 0, tjAd1 := 0, drift := 0 }

/-- A hint that predicts 200 W from now on. -/
def hint200 : HintInForce := { at_ := 0, leadUs := 1000, durUs := 1000, arrays := 255, kind := 1, watts := 200 }

/-- Array 2 as given, ten seconds after power-on. -/
def mkUnit (x : ArrayUnit) : State := { State.reset with now := 1000000000, arrays := [(2, x)] }

def someComponent (kind : Nat) (magic : Bool) : Component :=
  { kind := kind, version := 3, build := 1, keyIndex := 0, pubKey := [], header := [], sig := [], body := [], bodyHash := Config.sha512 [], magicOk := magic
    numrev := 1, identity := Config.identityHash, maxW := 1200, oosThreshold := 4, flags := 0, ports := [], ownerHash := Config.sha512 [], ssid := 0, opKey := [] }

/-- A small reset that was requested at time 0. -/
def someSmall (scope index dog : Nat) : SmallReset := { scope := scope, index := index, source := 10, watchdog := dog, at_ := 0, req := none }

/-- That small reset waits, at a time. -/
def mkSmall (now : Nat) (r : SmallReset) : State := { State.reset with now := now, rst := { Rst.reset with small := [r] } }

/-- A module reset of a scope. -/
def someReset (scope : Nat) : InReset :=
  { scope := scope, source := 1, index := 0, watchdog := 0, at_ := 0, counted := true, captured := true }

/-- It has been requested. -/
def mkAsked (scope : Nat) : State := { State.reset with rst := { Rst.reset with pending := some (someReset scope) } }

/-- It is in progress since time 0. -/
def mkHeld (scope now : Nat) : State := { State.reset with now := now, rst := { Rst.reset with active := some (someReset scope) } }

/-- An image runs, and 50 us have passed. -/
def mkBooted : State :=
  { State.reset with now := 5000, boot := { Boot.reset with image := some (someComponent 0 true), fwSvnRunning := 3, identityOk := true } }

/-- Engine `e` has made no progress for so many periods. -/
def mkHung (e n : Nat) (w : Work) : State :=
  { mkEngine e w [] with engines := [(e, { Engine.reset with work := [w], noProg := n })] }

/-! Statements 1 to 22, 25 and 26. -/

theorem meets_bar0_setup_writes_only_while_unused_unused :
    State.reset.Live ∧ State.reset.barLive = true ∧ State.reset.contextExists = false ∧ State.reset.planExists = false := by (repeat' (first | decide +kernel | rfl | exact ⟨rfl, rfl⟩ | refine ⟨_, rfl, ?_⟩ | apply And.intro))

theorem meets_bar0_power_fabric_and_window_writes_off_port :
    State.reset.Live ∧ State.reset.barLive = true ∧ (State.reset.port 0).state = 0 := by (repeat' (first | decide +kernel | rfl | exact ⟨rfl, rfl⟩ | refine ⟨_, rfl, ?_⟩ | apply And.intro))

theorem meets_bar0_ports_rings_and_debug_writes_disabled :
    State.reset.Live ∧ State.reset.barLive = true ∧ State.reset.hif.admin.enable = false ∧ bitOf (mergeBar ⟨.full, 1⟩ (regAdminCfg State.reset.hif.admin)) 0 = true := by (repeat' (first | decide +kernel | rfl | exact ⟨rfl, rfl⟩ | refine ⟨_, rfl, ?_⟩ | apply And.intro))

theorem meets_bar0_reads_that_act_and_counters_not_busy :
    State.reset.Live ∧ State.reset.barLive = true ∧ State.reset.tel.busy = false ∧ badAccess 2 4 = true := by (repeat' (first | decide +kernel | rfl | exact ⟨rfl, rfl⟩ | refine ⟨_, rfl, ?_⟩ | apply And.intro))

theorem meets_interrupts_and_debug_accesses_coalesce :
    (mkRing).Live ∧ (mkRing.evring 3).firstAt = some 5 ∧ (mkRing.evring 3).coalUs ≠ 0 ∧ (mkRing.evring 3).sinceIrq ≠ 0 ∧ 5 + 100 * (mkRing.evring 3).coalUs.toNat ≤ mkRing.now := by (repeat' (first | decide +kernel | rfl | exact ⟨rfl, rfl⟩ | refine ⟨_, rfl, ?_⟩ | apply And.intro))

theorem meets_interrupts_and_debug_accesses_vector :
    mkVec.Live ∧ Tab.rising mkVec.hif.msix = true ∧ mkVec.hif.up = true ∧ mkVec.hif.functionMask = false ∧ (Tab.get (fun _ => MsixEntry.reset) mkVec.hif.msix 7).pending = true := by (repeat' (first | decide +kernel | rfl | exact ⟨rfl, rfl⟩ | refine ⟨_, rfl, ?_⟩ | apply And.intro))

theorem meets_interrupts_and_debug_accesses_debug :
    mkDbg.Live ∧ mkDbg.barLive = true ∧ mkDbg.dbg.enable = true ∧ mkDbg.dbg.busy = false ∧ mkDbg.dbg.waiting = [] ∧ mkDbg.dbg.space = false ∧ mkDbg.mappedRange (8 * mkDbg.dbg.addr.toNat) 8 = true ∧ isHbm (8 * mkDbg.dbg.addr.toNat) = true ∧ mkDbg.fenced true (8 * mkDbg.dbg.addr.toNat) 8 = false ∧ mkDbg.fenced false (8 * mkDbg.dbg.addr.toNat) 8 = false ∧ (mkDbg.objAt (8 * mkDbg.dbg.addr.toNat) 8).isNone := by (repeat' (first | decide +kernel | rfl | exact ⟨rfl, rfl⟩ | refine ⟨_, rfl, ?_⟩ | apply And.intro))

theorem meets_interrupts_and_debug_accesses_debug_window :
    mkDbgWin.Live ∧ mkDbgWin.barLive = true ∧ mkDbgWin.dbg.enable = true ∧ mkDbgWin.dbg.busy = false ∧ mkDbgWin.dbg.waiting = [] ∧ mkDbgWin.dbg.space = false ∧ mkDbgWin.mappedRange (8 * mkDbgWin.dbg.addr.toNat) 8 = true ∧ region (8 * mkDbgWin.dbg.addr.toNat) ≠ 3 ∧ isHbm (8 * mkDbgWin.dbg.addr.toNat) = false ∧ mkDbgWin.bankBusy (8 * mkDbgWin.dbg.addr.toNat) = false ∧ mkDbgWin.poisonIn (8 * mkDbgWin.dbg.addr.toNat) 8 = false ∧ (mkDbgWin.objAt (8 * mkDbgWin.dbg.addr.toNat) 8).isNone := by (repeat' (first | decide +kernel | rfl | exact ⟨rfl, rfl⟩ | refine ⟨_, rfl, ?_⟩ | apply And.intro))

theorem meets_doorbells_and_head_writes_ring :
    mkRing.Live ∧ mkRing.hif.up = true ∧ mkRing.hif.d3hot = false ∧ (∃ r, mkRing.ring 5 = some r ∧ r.stopped = false ∧ doorbellBad r.head r.slots 3 = false ∧ doorbellBad r.head r.slots 65 = true) := by (repeat' (first | decide +kernel | rfl | exact ⟨rfl, rfl⟩ | refine ⟨_, rfl, ?_⟩ | apply And.intro))

theorem meets_doorbells_and_head_writes_admin :
    mkRing.hif.admin.enable = true ∧ mkRing.hif.admin.stopped = false ∧ doorbellBad mkRing.hif.admin.head mkRing.hif.admin.slots 3 = false := by decide +kernel

theorem meets_doorbells_and_head_writes_head :
    (mkRing.evring 3).enable = true ∧ headBad (mkRing.evring 3) 1 = false ∧ headBad (mkRing.evring 3) 7 = true := by decide +kernel

theorem meets_fetch_start_and_completion_fetch :
    mkRing.Live ∧ mkRing.hif.up = true ∧ mkRing.hif.d3hot = false ∧ mkRing.ahead 1 < 32 ∧ (mkRing.nextRing 1).isSome ∧ mkRing.hif.admin.enable = true ∧ mkRing.hif.admin.stopped = false ∧ mkRing.hif.admin.head ≠ mkRing.hif.admin.tail := by (repeat' (first | decide +kernel | rfl | exact ⟨rfl, rfl⟩ | refine ⟨_, rfl, ?_⟩ | apply And.intro))

theorem meets_fetch_start_and_completion_start :
    (mkCmd 2 5 .fetched).Live ∧ (∃ c, (mkCmd 2 5 .fetched).startCandidate 5 = some (c, true) ∧ ((mkCmd 2 5 .fetched).takeWaitobj c).cmd c.key ≠ none) := by (repeat' (first | decide +kernel | rfl | exact ⟨rfl, rfl⟩ | refine ⟨_, rfl, ?_⟩ | apply And.intro))

theorem meets_fetch_start_and_completion_run :
    (mkCmd 0 5 .started).Live ∧ (∃ c, (mkCmd 0 5 .started).cmd ⟨5, 0⟩ = some c ∧ c.cls = 0 ∧ c.phase = .started) := by (repeat' (first | decide +kernel | rfl | exact ⟨rfl, rfl⟩ | refine ⟨_, rfl, ?_⟩ | apply And.intro))

theorem meets_fetch_start_and_completion_ferry :
    ∃ c, (mkCmd 1 5 .started).cmd ⟨5, 0⟩ = some c ∧ c.cls = 1 ∧ c.phase = .started ∧ ((mkCmd 1 5 .started).engines.any fun g => g.2.work.any fun w => w.cmd == some ⟨5, 0⟩) = false := by decide +kernel

theorem meets_fetch_start_and_completion_done :
    ∃ c, (mkCmd 3 5 .performed).cmd ⟨5, 0⟩ = some c ∧ c.cls ≠ 0 ∧ c.phase = .performed ∧ (c.cls = 2 → syncWaiting c.syncOp = false) := by decide +kernel

theorem meets_sync_objects_count_and_wait_object :
    mkSync.Live ∧ Tab.rising mkSync.sync.objs = true ∧ (mkSync.obj 9).queue = [] ∧ (2 : Word).toNat ≤ (mkSync.obj 9).count.toNat ∧ (mkSync.obj 9).count.toNat < (4 : Word).toNat ∧ ¬ (mkSync.obj 9).count.toNat + (0xFFFFFFFF : Word).toNat < 2 ^ 32 := by (repeat' (first | decide +kernel | rfl | exact ⟨rfl, rfl⟩ | refine ⟨_, rfl, ?_⟩ | apply And.intro))

theorem meets_sync_commands_apply_their_operation_command :
    (mkSyncCmd 4).Live ∧ ((mkSyncCmd 1).syncCmd ⟨5, 0⟩ 1).isSome ∧ ((mkSyncCmd 2).syncCmd ⟨5, 0⟩ 2).isSome ∧ ((mkSyncCmd 3).syncCmd ⟨5, 0⟩ 3).isSome ∧ ((mkSyncCmd 4).syncCmd ⟨5, 0⟩ 4).isSome ∧ ((mkSyncCmd 5).syncCmd ⟨5, 0⟩ 5).isSome ∧ ((mkSyncCmd 6).syncCmd ⟨5, 0⟩ 6).isSome := by (repeat' (first | decide +kernel | rfl | exact ⟨rfl, rfl⟩ | refine ⟨_, rfl, ?_⟩ | apply And.intro))

theorem meets_hints_come_into_force_and_lapse_compute :
    (mkHint 0 false).Live ∧ (∃ c, (mkHint 0 false).cmd ⟨5, 0⟩ = some c ∧ c.cls = 3 ∧ c.phase = .started ∧ c.fld 7 1 = 0) ∧ (mkHint 0 false).pwr.floor = false := by (repeat' (first | decide +kernel | rfl | exact ⟨rfl, rfl⟩ | refine ⟨_, rfl, ?_⟩ | apply And.intro))

theorem meets_hints_come_into_force_and_lapse_memory :
    (mkHint 1 false).Live ∧ (∃ c, (mkHint 1 false).cmd ⟨5, 0⟩ = some c ∧ c.cls = 3 ∧ c.phase = .started ∧ c.fld 7 1 = 1) ∧ (mkHint 1 false).pwr.floor = false := by (repeat' (first | decide +kernel | rfl | exact ⟨rfl, rfl⟩ | refine ⟨_, rfl, ?_⟩ | apply And.intro))

theorem meets_hints_come_into_force_and_lapse_end :
    (mkHint 2 false).Live ∧ (∃ c, (mkHint 2 false).cmd ⟨5, 0⟩ = some c ∧ c.cls = 3 ∧ c.phase = .started ∧ c.fld 7 1 = 2) ∧ (mkHint 2 false).pwr.floor = false := by (repeat' (first | decide +kernel | rfl | exact ⟨rfl, rfl⟩ | refine ⟨_, rfl, ?_⟩ | apply And.intro))

theorem meets_hints_come_into_force_and_lapse_floor :
    (mkHint 1 true).Live ∧ (∃ c, (mkHint 1 true).cmd ⟨5, 0⟩ = some c ∧ c.cls = 3 ∧ c.phase = .started ∧ c.fld 7 1 = 1) ∧ (mkHint 1 true).pwr.floor = true := by (repeat' (first | decide +kernel | rfl | exact ⟨rfl, rfl⟩ | refine ⟨_, rfl, ?_⟩ | apply And.intro))

theorem meets_cyclic_tables_install_start_release_and_stop_install :
    (mkOp 4 1 0).Live ∧ (∃ c, (mkOp 4 1 0).opCmd ⟨5, 0⟩ 4 1 = some c ∧ ((mkOp 4 1 0).table (c.fld 1 1)).state < 2) := by (repeat' (first | decide +kernel | rfl | exact ⟨rfl, rfl⟩ | refine ⟨_, rfl, ?_⟩ | apply And.intro))

theorem meets_cyclic_tables_install_start_release_and_stop_start :
    (mkOp 4 2 1).Live ∧ (∃ c, (mkOp 4 2 1).opCmd ⟨5, 0⟩ 4 2 = some c ∧ ((mkOp 4 2 1).table (c.fld 1 1)).state = 1) := by (repeat' (first | decide +kernel | rfl | exact ⟨rfl, rfl⟩ | refine ⟨_, rfl, ?_⟩ | apply And.intro))

theorem meets_cyclic_tables_install_start_release_and_stop_turned_away :
    (∃ c, (mkOp 4 1 2).opCmd ⟨5, 0⟩ 4 1 = some c ∧ 2 ≤ ((mkOp 4 1 2).table (c.fld 1 1)).state) ∧ (∃ c, (mkOp 4 2 2).opCmd ⟨5, 0⟩ 4 2 = some c ∧ ((mkOp 4 2 2).table (c.fld 1 1)).state ≠ 1) := by decide +kernel

theorem meets_cyclic_tables_install_start_release_and_stop_stop :
    (∃ c, (mkOp 4 3 2).opCmd ⟨5, 0⟩ 4 3 = some c ∧ ((mkOp 4 3 2).table (c.fld 1 1)).state = 2) ∧ (∃ c, (mkOp 4 3 1).opCmd ⟨5, 0⟩ 4 3 = some c ∧ ((mkOp 4 3 1).table (c.fld 1 1)).state < 2) := by decide +kernel

theorem meets_cyclic_tables_install_start_release_and_stop_release :
    mkTable.Live ∧ Tab.rising mkTable.tables = true ∧ (mkTable.table 2).state = 2 ∧ (mkTable.table 2).entries ≠ [] ∧ (mkTable.table 2).nextRelease ≤ mkTable.now := by (repeat' (first | decide +kernel | rfl | exact ⟨rfl, rfl⟩ | refine ⟨_, rfl, ?_⟩ | apply And.intro))

theorem meets_cyclic_tables_install_start_release_and_stop_entry :
    ∃ i e c, (mkTable.table 2).insts.find? (fun i => i.started.isNone) = some i ∧ (mkTable.table 2).entries[i.entry]? = some e ∧ (mkTable.table 2).clear i e.arrays = true ∧ mkTable.cmd ⟨0x202, instanceCount i⟩ = some c := ⟨_, _, _, rfl, rfl, rfl, rfl⟩

theorem meets_cyclic_tables_install_start_release_and_stop_overrun :
    ∃ i e, (mkTable.table 2).insts.find? (fun i => match i.started, (mkTable.table 2).entries[i.entry]? with | some at_, some e => !i.overrun && decide (at_ + e.budget ≤ mkTable.now) | _, _ => false) = some i ∧ i.started = some 0 ∧ (mkTable.table 2).entries[i.entry]? = some e := ⟨_, _, rfl, rfl, rfl⟩

theorem meets_contexts_are_created_saved_and_restored_create :
    (mkOp 5 1 0).Live ∧ Tab.rising (mkOp 5 1 0).ctxs = true ∧ ∃ c, (mkOp 5 1 0).opCmd ⟨5, 0⟩ 5 1 = some c ∧ ((mkOp 5 1 0).ctx c.ctx).state = 0 ∧ (mkOp 5 1 0).objsTaken (ctxOfBlock c.block 0 (c.fld 2 2) (c.fld 4 2) (c.fld 1 1)).syncBase (ctxOfBlock c.block 0 (c.fld 2 2) (c.fld 4 2) (c.fld 1 1)).syncCount = false ∧ (mkOp 5 1 0).partitionTaken (ctxOfBlock c.block 0 (c.fld 2 2) (c.fld 4 2) (c.fld 1 1)) c.ctx = false := by (repeat' (first | decide +kernel | rfl | exact ⟨rfl, rfl⟩ | refine ⟨_, rfl, ?_⟩ | apply And.intro))

theorem meets_contexts_are_created_saved_and_restored_taken :
    ∃ c, (mkCtx 5 1 1).opCmd ⟨5, 0⟩ 5 1 = some c ∧ ((mkCtx 5 1 1).ctx c.ctx).state ≠ 0 := by decide +kernel

theorem meets_contexts_are_created_saved_and_restored_save :
    (mkCtx 5 2 2).Live ∧ ∃ c, (mkCtx 5 2 2).opCmd ⟨5, 0⟩ 5 2 = some c ∧ ((mkCtx 5 2 2).runs.any fun r => r.ctx == c.ctx) = false ∧ ((mkCtx 5 2 2).ctx c.ctx).state = 2 := by (repeat' (first | decide +kernel | rfl | exact ⟨rfl, rfl⟩ | refine ⟨_, rfl, ?_⟩ | apply And.intro))

theorem meets_contexts_are_created_saved_and_restored_restore :
    (mkCtx 5 3 4).Live ∧ ∃ c, (mkCtx 5 3 4).opCmd ⟨5, 0⟩ 5 3 = some c ∧ ((mkCtx 5 3 4).ctx c.ctx).state = 4 ∧ (mkCtx 5 3 4).partitionTaken ((mkCtx 5 3 4).ctx c.ctx) c.ctx = false := by (repeat' (first | decide +kernel | rfl | exact ⟨rfl, rfl⟩ | refine ⟨_, rfl, ?_⟩ | apply And.intro))

theorem meets_contexts_are_created_saved_and_restored_occupied :
    mkPart.Live ∧ ∃ c, mkPart.opCmd ⟨5, 0⟩ 5 3 = some c ∧ (mkPart.ctx c.ctx).state = 4 ∧ mkPart.partitionTaken (mkPart.ctx c.ctx) c.ctx = true := by (repeat' (first | decide +kernel | rfl | exact ⟨rfl, rfl⟩ | refine ⟨_, rfl, ?_⟩ | apply And.intro))

theorem meets_teardown_ends_a_context_and_frees_it_teardown :
    (mkCtx 5 4 2).Live ∧ Tab.rising (mkCtx 5 4 2).ctxs = true ∧ ∃ c, (mkCtx 5 4 2).opCmd ⟨5, 0⟩ 5 4 = some c ∧ ((mkCtx 5 4 2).ctx c.ctx).state = 2 := by (repeat' (first | decide +kernel | rfl | exact ⟨rfl, rfl⟩ | refine ⟨_, rfl, ?_⟩ | apply And.intro))

theorem meets_teardown_ends_a_context_and_frees_it_done :
    (mkCtx 5 4 6).Live ∧ ∃ c, (mkCtx 5 4 6).opCmd ⟨5, 0⟩ 5 4 = some c ∧ ((mkCtx 5 4 6).ctx c.ctx).state = 6 ∧ ((mkCtx 5 4 6).ctx c.ctx).teardown = some ⟨5, 0⟩ ∧ (mkCtx 5 4 6).arraysBusy c.ctx = false := by (repeat' (first | decide +kernel | rfl | exact ⟨rfl, rfl⟩ | refine ⟨_, rfl, ?_⟩ | apply And.intro))

theorem meets_admin_sessions_open_and_close_open :
    mkOpen1.Live ∧ (∃ q u, mkOpen1.Serves .queued 0x01 q u ∧ q.session = 0xFF ∧ q.plen = 112 ∧ zeroAt q.block 2 6 = true ∧ q.par 0 1 = 1 ∧ q.par 1 1 = 0 ∧ zeroAt q.block 0x30 64 = true ∧ (List.range 4).find? (fun n => u.session n == .free) = some 0) := by
  refine ⟨⟨rfl, rfl⟩, _, _, ⟨trivial, rfl, rfl, rfl, rfl, .inl rfl, rfl, rfl, by decide, rfl⟩, ?_⟩
  decide +kernel

theorem meets_admin_sessions_open_and_close_full :
    ∃ q u, mkOpenFull.Serves .queued 0x01 q u ∧ q.session = 0xFF ∧ q.plen = 112 ∧ zeroAt q.block 2 6 = true ∧ q.par 0 1 = 1 ∧ q.par 1 1 = 0 ∧ zeroAt q.block 0x30 64 = true ∧ (List.range 4).find? (fun n => u.session n == .free) = none := by
  refine ⟨_, _, ⟨trivial, rfl, rfl, rfl, rfl, .inl rfl, rfl, rfl, by decide, rfl⟩, ?_⟩
  decide +kernel

theorem meets_admin_sessions_open_and_close_accept :
    ∃ q u k nm since, mkOpen2.Serves .queued 0x01 q u ∧ q.session = 0xFF ∧ q.plen = 112 ∧ zeroAt q.block 2 6 = true ∧ q.par 0 1 = 2 ∧ q.par 1 1 < 4 ∧ u.session (q.par 1 1) = .reserved q.transport ((q.block.drop 0x10).take 32) nm since ∧ u.now ≤ since + 1000000000 ∧ u.boot.opKey = some k ∧ proofOf k nm ((q.block.drop 0x10).take 32) (q.par 1 1) q.transport = (q.block.drop 0x30).take 64 := by
  refine ⟨openReq (2 :: List.replicate 47 0 ++ someProof), _, [], [], 0, ⟨trivial, rfl, rfl, rfl, rfl, .inl rfl, rfl, rfl, by decide, rfl⟩, ?_⟩
  have b : (openReq (2 :: List.replicate 47 0 ++ someProof)).block = 2 :: List.replicate 47 0 ++ someProof := by
    show List.take 112 (2 :: List.replicate 47 0 ++ someProof) = _
    exact List.take_of_length_le (by rw [List.length_append, someProof_length]; decide)
  have d : List.take 64 (List.drop 0x30 (2 :: List.replicate 47 0 ++ someProof)) = someProof := by
    rw [List.drop_left' (by decide)]
    exact List.take_of_length_le (Nat.le_of_eq someProof_length)
  refine ⟨rfl, rfl, rfl, rfl, (by decide : (0 : Nat) < 4), rfl, (by decide : (0 : Nat) ≤ 0 + 1000000000), rfl, ?_⟩
  rw [b, d]
  rfl

theorem meets_admin_sessions_open_and_close_close :
    ∃ q u, (mkReq 0x02 []).Serves .queued 0x02 q u := ⟨_, _, signed_serves _ _ _ rfl rfl (by decide) rfl (by decide) rfl⟩

theorem meets_admin_sessions_open_and_close_lapse :
    (mkLapse.session 1) = .reserved 0 [] [] 0 ∧ 0 + 1000000000 < mkLapse.now ∧ mkLapse.Live ∧ mkLapse.lockedOut 2 = false := by (repeat' (first | decide +kernel | rfl | exact ⟨rfl, rfl⟩ | refine ⟨_, rfl, ?_⟩ | apply And.intro))

theorem meets_admin_rings_resets_and_repair_create :
    (mkReq 0x03 ringBlock).Live ∧ ∃ q u, (mkReq 0x03 ringBlock).Serves .queued 0x03 q u ∧ ringCreateOk q = true ∧ u.flash.oos = false ∧ u.boot.level ≠ 0 ∧ u.ring (q.par 0x10 1) = none := by
  refine ⟨⟨rfl, rfl⟩, _, _, signed_serves _ _ _ rfl rfl (by decide) rfl (by decide) rfl, ?_⟩
  decide +kernel

theorem meets_admin_rings_resets_and_repair_turned_away :
    ∃ q u, (mkReqTaken 0x03 ringBlock).Serves .queued 0x03 q u ∧ ringCreateOk q = true ∧ u.ring (q.par 0x10 1) ≠ none := by
  refine ⟨_, _, signed_serves _ _ _ rfl rfl (by decide) rfl (by decide) rfl, ?_⟩
  decide +kernel

theorem meets_admin_rings_resets_and_repair_bad :
    ∃ q u, (mkReq 0x03 []).Serves .queued 0x03 q u ∧ ringCreateOk q = false := by
  refine ⟨_, _, signed_serves _ _ _ rfl rfl (by decide) rfl (by decide) rfl, ?_⟩
  decide +kernel

theorem meets_admin_rings_resets_and_repair_delete :
    ∃ q u r, (mkReqTaken 0x04 [5]).Serves .queued 0x04 q u ∧ q.plen = 1 ∧ u.ring (q.par 0 1) = some r ∧ r.session = q.session ∧ r.deleting = none := by
  refine ⟨_, _, { mkSub with session := 1 }, signed_serves _ _ _ rfl rfl (by decide) rfl (by decide) rfl, ?_⟩
  decide +kernel

theorem meets_admin_rings_resets_and_repair_reset1 :
    ∃ q u, (mkReq 0x10 [1, 0, 0, 0, 0, 0, 0, 0]).Serves .queued 0x10 q u ∧ resetOk q = true ∧ q.par 0 1 = 1 := by
  refine ⟨_, _, signed_serves _ _ _ rfl rfl (by decide) rfl (by decide) rfl, ?_⟩
  decide +kernel

theorem meets_admin_rings_resets_and_repair_reset4 :
    ∃ q u, (mkReq 0x10 [4, 0, 0, 0, 0, 0, 0, 0]).Serves .queued 0x10 q u ∧ resetOk q = true ∧ q.par 0 1 = 4 := by
  refine ⟨_, _, signed_serves _ _ _ rfl rfl (by decide) rfl (by decide) rfl, ?_⟩
  decide +kernel

theorem meets_admin_rings_resets_and_repair_reset5 :
    ∃ q u, (mkReq 0x10 [5, 0, 0, 0, 0, 0, 0, 0]).Serves .queued 0x10 q u ∧ resetOk q = true ∧ q.par 0 1 = 5 := by
  refine ⟨_, _, signed_serves _ _ _ rfl rfl (by decide) rfl (by decide) rfl, ?_⟩
  decide +kernel

theorem meets_admin_rings_resets_and_repair_reset6 :
    ∃ q u, (mkReq 0x10 [6, 0, 0, 0, 0, 0, 0, 0]).Serves .queued 0x10 q u ∧ resetOk q = true ∧ q.par 0 1 = 6 := by
  refine ⟨_, _, signed_serves _ _ _ rfl rfl (by decide) rfl (by decide) rfl, ?_⟩
  decide +kernel

theorem meets_admin_rings_resets_and_repair_op11 :
    ∃ q u, (mkReq 0x11 []).Serves .queued 0x11 q u := ⟨_, _, signed_serves _ _ _ rfl rfl (by decide) rfl (by decide) rfl⟩

theorem meets_admin_rings_resets_and_repair_op12 :
    ∃ q u, (mkReq 0x12 []).Serves .queued 0x12 q u := ⟨_, _, signed_serves _ _ _ rfl rfl (by decide) rfl (by decide) rfl⟩

theorem meets_admin_rings_resets_and_repair_op13 :
    ∃ q u, (mkReq 0x13 []).Serves .queued 0x13 q u := ⟨_, _, signed_serves _ _ _ rfl rfl (by decide) rfl (by decide) rfl⟩

theorem meets_admin_fabric_and_plan_operations_devid :
    (mkReq 0x30 [7, 0, 0, 0, 0, 0, 0, 0]).Live ∧ ∃ q u, (mkReq 0x30 [7, 0, 0, 0, 0, 0, 0, 0]).Serves .queued 0x30 q u ∧ q.plen = 8 ∧ zeroAt q.block 2 6 = true ∧ (u.red.plans.any fun e => e.2.isSome) = false ∧ q.par 0 2 < 65536 := by
  refine ⟨⟨rfl, rfl⟩, _, _, signed_serves _ _ _ rfl rfl (by decide) rfl (by decide) rfl, ?_⟩
  decide +kernel

theorem meets_admin_fabric_and_plan_operations_devid_kept :
    ∃ q u, (mkReqPlan 0x30 [7, 0, 0, 0, 0, 0, 0, 0]).Serves .queued 0x30 q u ∧ q.plen = 8 ∧ zeroAt q.block 2 6 = true ∧ BitVec.ofNat 16 (q.par 0 2) ≠ u.fab.id ∧ (u.red.plans.any fun e => e.2.isSome) = true := by
  refine ⟨_, _, signed_serves _ _ _ rfl rfl (by decide) rfl (by decide) rfl, ?_⟩
  decide +kernel

theorem meets_admin_fabric_and_plan_operations_route :
    ∃ q u, (mkReq 0x31 [255, 1, 1, 0, 0, 0, 0, 0, 2, 0]).Serves .queued 0x31 q u ∧ 1 ≤ q.par 2 2 ∧ q.par 0 2 + q.par 2 2 = 512 ∧ q.plen = 8 + 2 * q.par 2 2 ∧ zeroAt q.block 4 4 = true := by
  refine ⟨_, _, signed_serves _ _ _ rfl rfl (by decide) rfl (by decide) rfl, ?_⟩
  decide +kernel

theorem meets_admin_fabric_and_plan_operations_install_refused :
    ∃ q u, (mkReq 0x32 (List.replicate 16 0)).Serves .queued 0x32 q u ∧ q.plen = 16 ∧ zeroAt q.block 10 6 = true ∧ u.planOk (u.readPlan (q.par 0 8) (BitVec.ofNat 16 (q.par 8 2))) = false := by
  refine ⟨_, _, signed_serves _ _ _ rfl rfl (by decide) rfl (by decide) rfl, ?_⟩
  decide +kernel

theorem meets_admin_fabric_and_plan_operations_install :
    ∃ q u, mkReqInstall.Serves .queued 0x32 q u ∧ q.plen = 16 ∧ zeroAt q.block 10 6 = true ∧ (List.range 16).find? (fun j => (u.plan j).isNone) = some 0 ∧ u.planOk (u.readPlan (q.par 0 8) (BitVec.ofNat 16 (q.par 8 2))) = true := by
  refine ⟨_, _, signed_serves _ _ _ rfl rfl (by decide) rfl (by decide) rfl, ?_⟩
  decide +kernel

theorem meets_admin_fabric_and_plan_operations_remove :
    ∃ q u p, (mkReqPlan 0x33 [3, 0, 0, 0, 0, 0, 0, 0]).Serves .queued 0x33 q u ∧ q.plen = 8 ∧ jobField q = true ∧ zeroAt q.block 2 6 = true ∧ u.planOfJob (q.par 0 2) = some (2, p) := by
  refine ⟨_, _, somePlan, signed_serves _ _ _ rfl rfl (by decide) rfl (by decide) rfl, ?_⟩
  decide +kernel

theorem meets_admin_fabric_and_plan_operations_remove_none :
    ∃ q u, (mkReq 0x33 [3, 0, 0, 0, 0, 0, 0, 0]).Serves .queued 0x33 q u ∧ q.plen = 8 ∧ jobField q = true ∧ zeroAt q.block 2 6 = true ∧ u.planOfJob (q.par 0 2) = none := by
  refine ⟨_, _, signed_serves _ _ _ rfl rfl (by decide) rfl (by decide) rfl, ?_⟩
  decide +kernel

theorem meets_admin_fabric_and_plan_operations_abort :
    ∃ q u p, (mkReqPlan 0x34 [3, 0, 9, 1, 6, 0, 0, 0]).Serves .queued 0x34 q u ∧ q.plen = 8 ∧ jobField q = true ∧ q.par 3 1 < 2 ∧ u.planOfJob (q.par 0 2) = some (2, p) ∧ q.par 4 4 = p.openStep.toNat := by
  refine ⟨_, _, somePlan, signed_serves _ _ _ rfl rfl (by decide) rfl (by decide) rfl, ?_⟩
  decide +kernel

theorem meets_admin_fabric_and_plan_operations_abort_other :
    ∃ q u p, (mkReqPlan 0x34 [3, 0, 9, 1, 7, 0, 0, 0]).Serves .queued 0x34 q u ∧ q.plen = 8 ∧ jobField q = true ∧ q.par 3 1 < 2 ∧ u.planOfJob (q.par 0 2) = some (2, p) ∧ q.par 4 4 ≠ p.openStep.toNat := by
  refine ⟨_, _, somePlan, signed_serves _ _ _ rfl rfl (by decide) rfl (by decide) rfl, ?_⟩
  decide +kernel

theorem meets_admin_fabric_and_plan_operations_revert :
    ∃ q u p, (mkReqPlan 0x35 [3, 0, 0, 0, 4, 0, 0, 0]).Serves .queued 0x35 q u ∧ q.plen = 8 ∧ jobField q = true ∧ zeroAt q.block 2 2 = true ∧ u.planOfJob (q.par 0 2) = some (2, p) ∧ p.lastToken = 2 ∧ p.wroteShadow = false ∧ BitVec.ofNat 32 (q.par 4 4) = p.version - 1 := by
  refine ⟨_, _, somePlan, signed_serves _ _ _ rfl rfl (by decide) rfl (by decide) rfl, ?_⟩
  decide +kernel

theorem meets_admin_fabric_and_plan_operations_clip :
    ∃ q u p, (mkReqPlan 0x20 [3, 0, 0, 0, 6, 0, 0, 0, 0, 0, 128, 63]).Serves .queued 0x20 q u ∧ q.plen = 12 ∧ jobField q = true ∧ zeroAt q.block 2 2 = true ∧ u.planOfJob (q.par 0 2) = some (2, p) ∧ p.clipMode = 2 ∧ p.isMaster = true ∧ q.par 4 4 = p.openStep.toNat := by
  refine ⟨_, _, somePlan, signed_serves _ _ _ rfl rfl (by decide) rfl (by decide) rfl, ?_⟩
  decide +kernel

theorem meets_admin_requests_are_verified_first_locked :
    mkLocked.Live ∧ ∃ q, (mkLocked.arriveAdmin .queued).hif.adminQ.head? = some q ∧ q.op = 0x11 ∧ (mkLocked.arriveAdmin .queued).adminBusy = false ∧ (mkLocked.arriveAdmin .queued).popAdmin.lockedOut q.transport = true := by (repeat' (first | decide +kernel | rfl | exact ⟨rfl, rfl⟩ | refine ⟨_, rfl, ?_⟩ | apply And.intro))

theorem meets_admin_requests_are_verified_first_unverified :
    ∃ q, ((mkReqNoSession 0x11).arriveAdmin .queued).hif.adminQ.head? = some q ∧ q.op = 0x11 ∧ ((mkReqNoSession 0x11).arriveAdmin .queued).popAdmin.lockedOut q.transport = false ∧ ((mkReqNoSession 0x11).arriveAdmin .queued).popAdmin.verifyFail q = some 4 := ⟨_, rfl, rfl, rfl, rfl⟩

theorem meets_admin_requests_are_verified_first_unacceptable :
    ∃ q, ((mkReqBad 0x11).arriveAdmin .queued).hif.adminQ.head? = some q ∧ q.op = 0x11 ∧ ((mkReqBad 0x11).arriveAdmin .queued).popAdmin.lockedOut q.transport = false ∧ ((mkReqBad 0x11).arriveAdmin .queued).popAdmin.verifyFail q = none ∧ q.descOk = false := by
  refine ⟨signedBy ((adminHead 0x11 0).set 0x0D 1) [], rfl, rfl, rfl, ?_, rfl⟩
  show (if (signedBy ((adminHead 0x11 0).set 0x0D 1) []).macUnder [] ≠ (signedBy ((adminHead 0x11 0).set 0x0D 1) []).mac then some 2 else none) = none
  rw [if_neg (not_not.2 (signed_mac _ _ rfl rfl))]

theorem meets_arrays_are_granted_quiesced_saved_and_restored_idle :
    State.reset.Live ∧ firstRun (State.reset.runs.filter fun r => State.reset.mayGrant r) = none := by (repeat' (first | decide +kernel | rfl | exact ⟨rfl, rfl⟩ | refine ⟨_, rfl, ?_⟩ | apply And.intro))

theorem meets_arrays_are_granted_quiesced_saved_and_restored_grant :
    (mkRun .waiting).Live ∧ ∃ r, firstRun ((mkRun .waiting).runs.filter fun r => (mkRun .waiting).mayGrant r) = some r := ⟨⟨rfl, rfl⟩, someRun .waiting, by decide +kernel⟩

theorem meets_arrays_are_granted_quiesced_saved_and_restored_gone :
    (mkOwned none).Live ∧ ((mkOwned none).array 2).owner = some ⟨5, 0⟩ ∧ ((mkOwned none).array 2).inflight = [] ∧ ((mkOwned none).array 2).drains = [] ∧ (mkOwned none).runOf ⟨5, 0⟩ = none := by (repeat' (first | decide +kernel | rfl | exact ⟨rfl, rfl⟩ | refine ⟨_, rfl, ?_⟩ | apply And.intro))

theorem meets_arrays_are_granted_quiesced_saved_and_restored_quiescent :
    (mkRun .preempting).Live ∧ ((mkRun .preempting).array 2).owner = some ⟨5, 0⟩ ∧ ((mkRun .preempting).array 2).inflight = [] ∧ ((mkRun .preempting).array 2).drains = [] ∧ (∃ r, (mkRun .preempting).runOf ⟨5, 0⟩ = some r ∧ r.phase = .preempting) ∧ ((mkRun .preempting).array 2).quiesced = false ∧ ((mkRun .preempting).array 2).scrubbing = false := by (repeat' (first | decide +kernel | rfl | exact ⟨rfl, rfl⟩ | refine ⟨_, rfl, ?_⟩ | apply And.intro))

theorem meets_arrays_are_granted_quiesced_saved_and_restored_save :
    mkQuiesced.Live ∧ ∃ r, mkQuiesced.runOnArray 2 = some r ∧ r.phase = .preempting ∧ (mkQuiesced.array 2).quiesced = true := by (repeat' (first | decide +kernel | rfl | exact ⟨rfl, rfl⟩ | refine ⟨_, rfl, ?_⟩ | apply And.intro))

theorem meets_arrays_are_granted_quiesced_saved_and_restored_restore :
    mkRestoring.Live ∧ ∃ r x, mkRestoring.runOnArray 2 = some r ∧ r.phase = .granted ∧ bitOf r.restoring.toNat 2 = true ∧ (mkRestoring.array 2).scrubbing = false ∧ r.kept.find? (fun e => e.1 == 2) = some (2, x) := ⟨⟨rfl, rfl⟩, _, ArrayUnit.reset, rfl, rfl, rfl, rfl, rfl⟩

theorem meets_arrays_issue_tiles_and_load_registers_issue :
    mkTile.Live ∧ Tab.rising mkTile.arrays = true ∧ ∃ r, mkTile.runOnArray 2 = some r ∧ mkTile.mayIssue 2 r = true ∧ (State.skipTiles 2 ((mkTile.array 2).ntiles - (mkTile.array 2).pos) mkTile).mustStop 2 = false ∧ (mkTile.array 2).between = true ∧ (mkTile.array 2).pos < (mkTile.array 2).ntiles ∧ mkTile.holdsOf 2 (mkTile.array 2).pos = [] ∧ mkTile.markOk 2 (mkTile.array 2).pos (mkTile.tileRec (mkTile.array 2) (mkTile.array 2).pos) = true ∧ (mkTile.claim 2 (mkTile.array 2).pos r (mkTile.tileRec (mkTile.array 2) (mkTile.array 2).pos)).1 = true := by (repeat' (first | decide +kernel | rfl | exact ⟨rfl, rfl⟩ | refine ⟨_, rfl, ?_⟩ | apply And.intro))

theorem meets_arrays_issue_tiles_and_load_registers_stop :
    mkBadTile.Live ∧ ∃ r, mkBadTile.runOnArray 2 = some r ∧ mkBadTile.mayIssue 2 r = true ∧ (State.skipTiles 2 ((mkBadTile.array 2).ntiles - (mkBadTile.array 2).pos) mkBadTile).mustStop 2 = true := by (repeat' (first | decide +kernel | rfl | exact ⟨rfl, rfl⟩ | refine ⟨_, rfl, ?_⟩ | apply And.intro))

theorem meets_arrays_issue_tiles_and_load_registers_cycle :
    mkTile.clockRuns 2 = true ∧ (mkTile.array 2).state ≠ 4 ∧ mkHalted.clockRuns 2 = true ∧ (mkHalted.array 2).state = 4 ∧ State.reset.clockRuns 2 = false := by decide +kernel

theorem meets_arrays_issue_tiles_and_load_registers_load :
    mkLoads.Live ∧ Tab.rising mkLoads.arrays = true ∧ mkLoads.clockRuns 2 = true ∧ (mkLoads.array 2).state ≠ 4 ∧ (mkLoads.array 2).quiesced = false ∧ ((mkLoads.array 2).nextLoad [] (mkLoads.array 2).loads).isSome ∧ ((mkLoads.array 2).loads.find? (fun l => l.started && l.done == l.ext)).isSome := by (repeat' (first | decide +kernel | rfl | exact ⟨rfl, rfl⟩ | refine ⟨_, rfl, ?_⟩ | apply And.intro))

theorem meets_arrays_issue_tiles_and_load_registers_front :
    ∃ u, (mkHold.array 2).holdEnded = some u ∧ (mkHold.array 2).state ≠ 4 ∧ mkHold.clockRuns 2 = true ∧ (mkHold.array 2).frontHolds u = [] ∧ mkHold.Live ∧ Tab.rising mkHold.arrays = true := by (repeat' (first | decide +kernel | rfl | exact ⟨rfl, rfl⟩ | refine ⟨_, rfl, ?_⟩ | apply And.intro))

theorem meets_arrays_issue_tiles_and_load_registers_watchdog :
    mkStuck.Live ∧ mkStuck.resetScope = 0 ∧ mkStuck.smallReset 1 2 = none ∧ (mkStuck.array 2).wdogEn = true ∧ (mkStuck.array 2).wdogLimit.toNat ≤ (mkStuck.array 2).noProg ∧ (mkStuck.array 2).state ≠ 4 := by (repeat' (first | decide +kernel | rfl | exact ⟨rfl, rfl⟩ | refine ⟨_, rfl, ?_⟩ | apply And.intro))

theorem meets_array_scrub_zeroes_all_but_partitions_scrub :
    (mkOwned none).Live ∧ ((mkOwned none).array 2).scrubbing = true ∧ Tab.rising (mkOwned none).arrays = true ∧ (1024, 2048) ∈ (mkOwned none).partitionsOn 2 := by (repeat' (first | decide +kernel | rfl | exact ⟨rfl, rfl⟩ | refine ⟨_, rfl, ?_⟩ | apply And.intro))

theorem meets_feeders_and_edge_units_act_operand :
    mkFeed.Live ∧ mkFeed.feeds 2 = true ∧ mkFeed.clockRuns 2 = true ∧ (mkFeed.array 2).quiesced = false ∧ (mkFeed.runOnArray 2).isSome = true ∧ (mkFeed.array 2).owner.isSome = true ∧ State.reset.feeds 2 = false := by (repeat' (first | decide +kernel | rfl | exact ⟨rfl, rfl⟩ | refine ⟨_, rfl, ?_⟩ | apply And.intro))

theorem meets_feeders_and_edge_units_act_mark :
    ∃ w ws n ns, (mkFeed.feeder 2 0).staging = w :: ws ∧ (mkFeed.feeder 2 1).staging = n :: ns ∧ w.tile = n.tile ∧ w.idx = n.idx ∧ roomFor false (mkFeed.feeder 2 0) false = true ∧ roomFor false (mkFeed.feeder 2 1) false = true := ⟨someRow, [], someRow, [], by decide +kernel⟩

theorem meets_feeders_and_edge_units_act_landing :
    mkFeed.waited (slotWaiter 2 0 false) = true ∧ mkFeed.waited (slotWaiter 2 1 false) = false ∧ mkFeed.waited (slotWaiter 2 1 true) = false := by decide +kernel

theorem meets_feeders_and_edge_units_act_epilogue :
    mkEpi.Live ∧ mkEpi.edgeRuns 2 = true ∧ ∃ e rest, ((mkEpi.array 2).edge false).queue = e :: rest ∧ e.ready = true ∧ ((mkEpi.array 2).edge false).running = false ∧ (mkEpi.epiRec e.rec_).tableReads e.rows = [] ∧ e.nstep = 0 ∧ (mkEpi.ctx (mkEpi.arrayCtx 2)).state ≠ 5 := by
  refine ⟨⟨rfl, rfl⟩, by decide +kernel, _, [], rfl, ?_⟩
  decide +kernel

theorem meets_feeders_and_edge_units_act_epilogue_over :
    mkEpi.Live ∧ mkEpi.edgeRuns 2 = true ∧ ∃ e rest, ((mkEpi.array 2).edge true).queue = e :: rest ∧ ((mkEpi.array 2).edge true).running = true ∧ e.rows ≤ e.row ∧ (mkEpi.feeder 2 (drainOf true)).output = [] ∧ (mkEpi.feeder 2 (drainOf true)).stash = [] := by
  refine ⟨⟨rfl, rfl⟩, by decide +kernel, _, [], rfl, ?_⟩
  decide +kernel

theorem meets_stream_cache_and_atomics_fill :
    mkDsc.Live ∧ Tab.rising mkDsc.dsc = true ∧ (∃ l, (mkDsc.dscAt 0).lines.find? (fun l => l.line == 7 && l.inflight) = some l ∧ l.dropped = false) ∧ mkDsc.poisonIn (256 * 7) 256 = false ∧ (∃ l, (mkDsc.dscAt 0).lines.find? (fun l => l.line == 8 && l.inflight) = some l ∧ l.dropped = true) := by (repeat' (first | decide +kernel | rfl | exact ⟨rfl, rfl⟩ | refine ⟨_, rfl, ?_⟩ | apply And.intro))

theorem meets_stream_cache_and_atomics_issue :
    ∃ r, (mkDsc.dscAt 0).streams.find? (fun r => r.desc == mkDescAt) = some r ∧ (mkDsc.dscAt 0).ahead mkDescAt < (if (mkDsc.streamDesc mkDescAt).pfdist = 0 then 64 else (mkDsc.streamDesc mkDescAt).pfdist) ∧ r.row < r.last ∧ r.row < (mkDsc.streamDesc mkDescAt).rows ∧ (mkDsc.streamDesc mkDescAt).rowIndexAddr r.row = none ∧ (mkDsc.rowAt (mkDsc.streamDesc mkDescAt) r.base r.row).null = false ∧ mkDsc.mappedRange (mkDsc.rowAt (mkDsc.streamDesc mkDescAt) r.base r.row).addr (mkDsc.streamDesc mkDescAt).rowBytes = true ∧ isHbm (mkDsc.rowAt (mkDsc.streamDesc mkDescAt) r.base r.row).addr = true ∧ dieOf (mkDsc.rowAt (mkDsc.streamDesc mkDescAt) r.base r.row).addr = 0 ∧ ((mkDsc.dscAt 0).lines.any fun l => l.line == (mkDsc.rowAt (mkDsc.streamDesc mkDescAt) r.base r.row).addr / 256 + r.part && !l.dropped) = false := by decide +kernel

theorem meets_stream_cache_and_atomics_issue_null :
    ∃ r, (mkDsc.dscAt 1).streams.find? (fun r => r.desc == mkNullAt) = some r ∧ (mkDsc.dscAt 1).ahead mkNullAt < (if (mkDsc.streamDesc mkNullAt).pfdist = 0 then 64 else (mkDsc.streamDesc mkNullAt).pfdist) ∧ r.row < r.last ∧ r.row < (mkDsc.streamDesc mkNullAt).rows ∧ (mkDsc.rowAt (mkDsc.streamDesc mkNullAt) r.base r.row).null = true := by decide +kernel

theorem meets_stream_cache_and_atomics_take :
    isHbm (256 * 9) = true ∧ dieOf (256 * 9) = 0 ∧ (∃ l, (mkDsc.dscAt 0).lines.find? (fun l => l.line == 9 && !l.dropped) = some l ∧ l.inflight = false) ∧ (mkDsc.dscAt 0).lines.find? (fun l => l.line == 10 && !l.dropped) = none ∧ mkDsc.poisonIn (256 * 10) 256 = false := by decide +kernel

theorem meets_stream_cache_and_atomics_atomic :
    State.reset.atomicFault 1 1 64 = 0 ∧ ((State.reset.atomicDo 1 1 64 5 0).2).writeFault 64 128 4 = 0 ∧ State.reset.atomicFault 0x42 1 64 = 2 ∧ ({ State.reset with deterministic := true } : State).atomicFault 0x10 1 64 = 9 := by decide +kernel

theorem meets_hbm_requests_take_effect_at_acceptance_write :
    mkHbm.Live ∧ mkHbm.mem.wf = true ∧ mkHbm.pcPlace 64 = some (0, 0, 0, 0) ∧ inGranule ⟨64, [1, 2], 0, true, 3⟩ = true ∧ mkHbm.fenced true 64 2 = false ∧ mkHbm.lineHeld 64 = false ∧ ((mkHbm.stack 0).pc 0).window.length < 128 ∧ Tab.rising mkHbm.hbm.stk = true ∧ Tab.rising (mkHbm.stack 0).pcs = true ∧ mkHbm.key 65 = some 65 := by (repeat' (first | decide +kernel | rfl | exact ⟨rfl, rfl⟩ | refine ⟨_, rfl, ?_⟩ | apply And.intro))

theorem meets_hbm_requests_take_effect_at_acceptance_read :
    mkHbm.pcPlace 64 = some (0, 0, 0, 0) ∧ inGranule ⟨64, [], 32, false, 3⟩ = true ∧ mkHbm.fenced false 64 32 = false := by decide +kernel

theorem meets_hbm_slots_reads_scrubs_and_relocations_slots :
    mkHbm.Live ∧ ((mkHbm.stack 1).chan 2).resetAt.isSome = true ∧ mkHbm.nextRequest 1 4 = none := by (repeat' (first | decide +kernel | rfl | exact ⟨rfl, rfl⟩ | refine ⟨_, rfl, ?_⟩ | apply And.intro))

theorem meets_hbm_slots_reads_scrubs_and_relocations_grant :
    ∃ r, ((mkHbm.stack 0).chan 0).resetAt = none ∧ mkHbm.nextRequest 0 0 = some r ∧ r.req.isWrite = false := ⟨{ req := ⟨64, [], 32, false, 3⟩, at_ := 0, seq := 1, slotted := false, poison := [], served := [], bad := false }, by decide +kernel⟩

theorem meets_hbm_slots_reads_scrubs_and_relocations_grant_write :
    ∃ r, ((mkHbm.stack 0).chan 1).resetAt = none ∧ mkHbm.nextRequest 0 2 = some r ∧ r.req.isWrite = true := ⟨{ req := ⟨512, [1], 0, true, 3⟩, at_ := 0, seq := 10, slotted := false, poison := [], served := [], bad := false }, by decide +kernel⟩

theorem meets_hbm_slots_reads_scrubs_and_relocations_grant_none :
    ((mkHbm.stack 2).chan 0).resetAt = none ∧ mkHbm.nextRequest 2 0 = none := by decide +kernel

theorem meets_hbm_slots_reads_scrubs_and_relocations_decode :
    decodeWord [3] [3, 40] 0 0 = .correct none ∧ decodeWord [] [7] 0 0 = .correct (some 7) ∧ decodeWord [] [7, 8] 0 0 = .bad ∧ decodeWord [3] [7, 8] 0 0 = .bad := by decide +kernel

theorem meets_hbm_slots_reads_scrubs_and_relocations_complete :
    ∃ r, ((mkHbm.stack 0).pc 0).window.find? (fun r => r.slotted && !r.req.isWrite) = some r ∧ r.left ≠ [] := by decide +kernel

theorem meets_hbm_slots_reads_scrubs_and_relocations_scrub :
    mkHbm.pcPlace 0x18_0000_0000 = some (2, 0, 0, 0) ∧ (mkHbm.stack 2).scrubbed.contains (0x18_0000_0000 / 32) = false ∧ ((mkHbm.stack 2).chan 0).resetAt = none ∧ mkHbm.nextRequest 2 0 = none ∧ mkHbm.inorderWaits 2 0 = false ∧ mkHbm.pcPlace 224 = some (0, 0, 0, 0) ∧ (mkHbm.stack 0).scrubbed.contains (224 / 32) = true := by decide +kernel

theorem meets_hbm_slots_reads_scrubs_and_relocations_late :
    (mkHbm.stack 3).intervalAt + mkHbm.hbm.scrubHours.toNat * 360000000000 ≤ mkHbm.now ∧ mkHbm.tier.ddrScrubAt + 8640000000000 ≤ mkHbm.now ∧ Tab.rising mkHbm.tier.blocks = true := by decide +kernel

theorem meets_hbm_slots_reads_scrubs_and_relocations_in_order :
    ∃ r rest b row, (mkHbm.stack 0).inorder = r :: rest ∧ mkHbm.pcPlace r.req.addr = some (0, 1, b, row) ∧ ((mkHbm.stack 0).chan 0).resetAt = none ∧ r.behind ((mkHbm.stack 0).pc 1).window = false ∧ (((mkHbm.stack 0).pc 1).window.filter fun t => t.slotted && (mkHbm.bankRow t).1 == b).length < 16 := ⟨{ req := ⟨256, [], 32, false, 144⟩, at_ := 0, seq := 2, slotted := true, poison := [], served := [], bad := false }, [], 0, 0, by decide +kernel⟩

theorem meets_hbm_slots_reads_scrubs_and_relocations_due :
    mkHbm.blockGood 2 = true ∧ (mkHbm.holdsSealed 2 && decide ((mkHbm.block 2).erases + 2000 ≤ mkHbm.highestErase (mkHbm.tier.nand.dieOf 2))) = true ∧ (mkHbm.blockHolds 2 && decide (100000 ≤ (mkHbm.block 2).reads)) = true ∧ mkHbm.blockGood 6 = false := by decide +kernel

/-! Gather engines (statement 23). -/

/-- The streams of a gather (0x20) or scatter (0x21) step, and the state after its accesses. -/
def moveSrc (op : Nat) : StreamDesc := (mkMove op).streamDesc ((mkMove op).stepBody runWork)
def moveDst (op : Nat) : StreamDesc := (mkMove op).streamDesc ((mkMove op).rdLe (runWork.addr + 24) 8)
def moveAccess (op : Nat) : Bool × State :=
  (mkMove op).access 0x18 ((mkMove op).streamRows (moveSrc op) (moveSrc op).base 0 2) ((mkMove op).streamRows (moveDst op) (moveDst op).base 0 2)

theorem meets_gather_and_scatter : ∀ op ∈ [0x20, 0x21], (mkMove op).tap.used = false ∧ (mkMove op).rst.active = none ∧
    (mkMove op).activeWork 0x18 = some runWork ∧ runWork.run.isSome = true ∧ (mkMove op).GatherDue 0x18 op runWork (mkMove op) ∧
    (mkMove op).mappedRange ((mkMove op).stepBody runWork) 128 = true ∧ (mkMove op).mappedRange ((mkMove op).rdLe (runWork.addr + 24) 8) 128 = true ∧
    (moveSrc op).ferryOk (if op = 0x20 then 0xA else 8) true = true ∧ (moveDst op).ferryOk (if op = 0x20 then 9 else 0xA) true = true ∧
    (moveSrc op).rowBytes = (moveDst op).rowBytes ∧ (moveSrc op).rows = 2 ∧ (moveDst op).rows = 2 ∧ (moveAccess op).1 = true ∧
    ((((moveAccess op).2.engineStream 0x18 0 ((mkMove op).stepBody runWork) (moveSrc op).base 2).engineStream 0x18 0
      ((mkMove op).rdLe (runWork.addr + 24) 8) (moveDst op).base 2).moveRows 0x18 runWork (moveSrc op) (moveDst op) (moveDst op).base
        ((mkMove op).rdLe (runWork.addr + 4) 4) 2).1 = true := by
  unfold State.GatherDue
  decide +kernel

/-- The record at a FERRY command's work. -/
def recAt (s : State) : FerryRec := s.ferryRec (ferryWork.addr + 64 * ferryWork.pos)

theorem meets_gather_and_scatter_records : ∀ op ∈ [1, 2], ∀ s ∈ [mkMoveRec op], ∀ r ∈ [recAt s], s.tap.used = false ∧ s.rst.active = none ∧
    s.activeWork 0x18 = some ferryWork ∧ ferryWork.run = none ∧ r.op = op ∧ s.startOk 0x18 ferryWork r = true ∧ s.chkWaits 0x18 r = false ∧
    r.lslots = 0 ∧ (s.runRecord 0x18 ferryWork r (s.streamDesc r.dst).base fun t => t.moveRecordRows 0x18 ferryWork r (s.streamDesc r.dst).base).1 = true ∧
    Tab.rising (s.runRecord 0x18 ferryWork r (s.streamDesc r.dst).base fun t => t.moveRecordRows 0x18 ferryWork r (s.streamDesc r.dst).base).2.engines = true := by
  decide +kernel

/-- The source stream and the record of the hand-off, and the state after its accesses. -/
def handSrc : StreamDesc := mkHandoff.streamDesc (mkHandoff.stepBody runWork)
def handRec : HandoffRec := mkHandoff.handoffRec (mkHandoff.rdLe (runWork.addr + 24) 8)
def handAccess : Bool × State := mkHandoff.access 0x18 (mkHandoff.streamRows handSrc handSrc.base 0 2) []

theorem meets_handoff : mkHandoff.Live ∧ mkHandoff.GatherDue 0x18 0x23 runWork mkHandoff ∧
    (mkHandoff.mappedRange (mkHandoff.stepBody runWork) 128 = true ∧ mkHandoff.mappedRange (mkHandoff.rdLe (runWork.addr + 24) 8) 32 = true ∧
    handSrc.ferryOk 8 false = true ∧ handRec.reserved = false ∧ 1 ≤ handRec.slots ∧ handRec.slots ≤ 256 ∧ 1 ≤ handRec.bytes ∧
    handRec.bytes ≤ handRec.slotBytes ∧ ceilDiv handRec.bytes handSrc.rowBytes = 2 ∧ handAccess.1 = true) ∧
    ∃ p, (handAccess.2.engineStream 0x18 0 (mkHandoff.stepBody runWork) handSrc.base 2).fetchRows 0x18 0 handSrc handSrc.base 2 0 = .ok p :=
  ⟨⟨rfl, rfl⟩, by unfold State.GatherDue; decide +kernel, by decide +kernel, answers_ok (by decide +kernel)⟩

theorem meets_fold : mkFold.Live ∧ mkFold.GatherDue 0x18 0x24 runWork mkFold ∧ mkFold.mappedRange (mkFold.stepBody runWork) 32 = true ∧
    (∀ b ∈ [mkFold.rdN (mkFold.stepBody runWork) 32], 1 ≤ fieldAt b 0x1C 1 ∧ fieldAt b 0x1C 1 ≤ 4 ∧ zeroAt b 0x1D 1 = true ∧ fieldAt b 0x10 4 % 4096 = 0 ∧
      4 * fieldAt b 0x14 4 ≤ fieldAt b 0x10 4 ∧ (mkFold.rdLe (runWork.addr + 24) 4 + 2 ^ 32 - fieldAt b 0x18 4) % 2 ^ 32 = 0) :=
  ⟨⟨rfl, rfl⟩, by unfold State.GatherDue; decide +kernel, by decide +kernel⟩

theorem meets_handoff_receive : ∀ off ∈ [0, 4], (mkHandoffIn off).tap.used = false ∧ (mkHandoffIn off).rst.active = none ∧
    ((mkHandoffIn off).receiveIf (mkHandoffIn off).inTurn (somePacket 5 8 0 (handoffData off))).map Prod.fst = some (some 1) ∧
    (mkHandoffIn off).ctxLive 0 = some 0 ∧
    (mkHandoffIn off).objOf 0 (fieldAt (handoffData off) 0xE 2 + fieldAt (handoffData off) 0xC 2) = some 18 ∧ fieldAt (handoffData off) 0x14 4 = off ∧
    (mkHandoffIn off).writeFault 0 (0x30000 + off) 4 = 0 ∧ ((mkHandoffIn off).obj 18).count ≠ 0 ∧ ((mkHandoffIn off).obj 18).queue = [] := by
  decide +kernel

/-! Expert dispatch (statement 24). -/

theorem meets_dispatch : (mkDispatch [] []).Live ∧ (mkDispatch [] []).GatherDue 0x18 0x22 runWork (mkDispatch [] []) ∧
    (mkDispatch [] []).dispatchOf 0x18 runWork = none ∧ (mkDispatch [] []).mappedRange ((mkDispatch [] []).stepBody runWork) 64 = true ∧
    (mkDispatch [] []).mappedRange ((mkDispatch [] []).dispRec ((mkDispatch [] []).stepBody runWork)).place 32 = true :=
  ⟨⟨rfl, rfl⟩, by unfold State.GatherDue; decide +kernel, by decide +kernel⟩

/-- Every admitted row has been sent and every answer is there. -/
def doneDispatch : Dispatch := { someDispatch with sent := true, answered := true, got := [3] }

theorem meets_dispatch_complete : (mkDispatch [doneDispatch] []).Live ∧ (mkDispatch [doneDispatch] []).activeWork 0x18 = some runWork ∧
    runWork.run.isSome = true ∧ (mkDispatch [doneDispatch] []).rdLe runWork.addr 1 = 0x22 ∧
    (mkDispatch [doneDispatch] []).dispatchOf 0x18 runWork = some doneDispatch ∧ doneDispatch.over = true :=
  ⟨⟨rfl, rfl⟩, by decide +kernel⟩

/-- A packet for the dispatch. -/
def dispatchIn (type : BitVec 5) (arg : DWord) : Packet := somePacket 5 type arg []

theorem meets_count : ∃ t, (mkDispatch [someDispatch] [dispatchIn 1 0]).Live ∧
    (mkDispatch [someDispatch] [dispatchIn 1 0]).ForDispatch (dispatchIn 1 0) 1 (fun d => !d.answered && !d.complete) 0 0x18 someDispatch t ∧
    (dispatchIn 1 0).arg.toNat % 2 ^ 32 = (t.placement (t.dispRec someDispatch.rec_).place).tag :=
  ⟨_, ⟨rfl, rfl⟩, ⟨rfl, rfl, ⟨_, rfl⟩, by decide +kernel, by decide +kernel⟩, by decide +kernel⟩

theorem meets_count_of_another_table : ∃ t, (mkDispatch [someDispatch] [dispatchIn 1 1]).Live ∧
    (mkDispatch [someDispatch] [dispatchIn 1 1]).ForDispatch (dispatchIn 1 1) 1 (fun d => !d.answered && !d.complete) 0 0x18 someDispatch t ∧
    (dispatchIn 1 1).arg.toNat % 2 ^ 32 ≠ (t.placement (t.dispRec someDispatch.rec_).place).tag :=
  ⟨_, ⟨rfl, rfl⟩, ⟨rfl, rfl, ⟨_, rfl⟩, by decide +kernel, by decide +kernel⟩, by decide +kernel⟩

theorem meets_admit_counts : ∃ t,
    (mkDispatch [someDispatch] [dispatchIn 2 0]).ForDispatch (dispatchIn 2 0) 2 (fun d => !d.sent && !d.complete) 0 0x18 someDispatch t :=
  ⟨_, rfl, rfl, ⟨_, rfl⟩, by decide +kernel, by decide +kernel⟩

theorem meets_row : ∃ t, (mkDispatch [someDispatch] [dispatchIn 3 0]).ForDispatch (dispatchIn 3 0) 3 (fun _ => true) 0 0x18 someDispatch t ∧
    t.arrival (t.dispRec someDispatch.rec_) = false :=
  ⟨_, ⟨rfl, rfl, ⟨_, rfl⟩, by decide +kernel, by decide +kernel⟩, by decide +kernel⟩

theorem meets_return : ∃ t, (mkDispatch [someDispatch] [dispatchIn 4 3]).ForDispatch (dispatchIn 4 3) 4
    (fun d => d.returns.contains ((dispatchIn 4 3).arg.toNat % 2 ^ 32) && !d.got.contains ((dispatchIn 4 3).arg.toNat % 2 ^ 32)) 0 0x18 someDispatch t :=
  ⟨_, rfl, rfl, ⟨_, rfl⟩, by decide +kernel, by decide +kernel⟩

theorem meets_drop_mark : ∃ t, (mkDispatch [someDispatch] [dispatchIn 5 3]).ForDispatch (dispatchIn 5 3) 5
    (fun d => d.returns.contains ((dispatchIn 5 3).arg.toNat % 2 ^ 32)) 0 0x18 someDispatch t :=
  ⟨_, rfl, rfl, ⟨_, rfl⟩, by decide +kernel, by decide +kernel⟩

/-! Ferries (statements 27 to 29). -/

/-- What a COPY of 8 bytes from rows of four to rows of four reads and writes, and the state after its accesses. -/
def copySrc (s : State) : StreamDesc := s.streamDesc (recAt s).src
def copyDst (s : State) : StreamDesc := s.streamDesc (recAt s).dst
def copyAccess (s : State) (base : Nat) : Bool × State :=
  s.access 0x10 (s.streamRows (copySrc s) (copySrc s).base 0 ((recAt s).srcRows (copySrc s)))
    (s.streamRows (copyDst s) base 0 ((recAt s).dstRows (copyDst s)))
def copyOpen (s : State) (base : Nat) : State :=
  ((copyAccess s base).2.engineStream 0x10 0 (recAt s).src (copySrc s).base ((recAt s).srcRows (copySrc s))).engineStream 0x10 0 (recAt s).dst base
    ((recAt s).dstRows (copyDst s))
def copyRead (s : State) (base : Nat) (w : Work) : Except State (List Byte × State) := (copyOpen s base).copySource 0x10 w.ctx (recAt s) (copySrc s)
/-- The bytes read and the state after its check values. -/
def copyBytes (s : State) (base : Nat) (w : Work) : List Byte × State :=
  match copyRead s base w with
  | .ok (bs, z) => (bs, z.checkRecord 0x10 w (recAt s) (copySrc s) (copyDst s) base bs)
  | .error _ => ([], s)

theorem meets_copy : ∀ s ∈ [mkCopy 0 false], s.tap.used = false ∧ s.rst.active = none ∧ s.RecordDue 0x10 0 ferryWork (recAt s) ∧
    s.flashInOrder (recAt s) = true ∧ s.chkWaits 0x10 (recAt s) = false ∧ (recAt s).lslots = 0 ∧ (copyAccess s (copyDst s).base).1 = true ∧
    isOk (copyRead s (copyDst s).base ferryWork) = true ∧ ((copyBytes s (copyDst s).base ferryWork).2.ctx 0).state ≠ 5 ∧ (recAt s).srcFmt = 0 ∧
    ((copyBytes s (copyDst s).base ferryWork).2.copyDest ferryWork (recAt s) (copyDst s) (copyDst s).base (copyBytes s (copyDst s).base ferryWork).1).2 = none ∧
    (recAt s).fromFlash = false ∧ (recAt s).toFlash = false ∧ (recAt s).chkOn = false ∧ (copyBytes s (copyDst s).base ferryWork).1.length = 8 ∧
    (((copyOpen s (copyDst s).base).streamRows (copySrc s) (copySrc s).base 0 ((recAt s).count / (copySrc s).rowBytes)).filter fun q => region q.1 == 1) = [] ∧
    (copyDst s).index = 0 ∧ s.hbm.poisoned = [] := by
  unfold State.RecordDue
  decide +kernel

theorem meets_landing_fill : ∀ w ∈ [{ ferryWork with freeTaken := true }], ∀ s ∈ [mkCopy 2 true], s.tap.used = false ∧ s.rst.active = none ∧
    s.RecordDue 0x10 0 w (recAt s) ∧ s.chkWaits 0x10 (recAt s) = false ∧ (recAt s).lslots = 2 ∧ w.freeTaken = true ∧
    (copyAccess (s.setHead 0x10 w) (copyDst s).base).1 = true ∧ isOk (copyRead (s.setHead 0x10 w) (copyDst s).base w) = true ∧
    ((copyBytes (s.setHead 0x10 w) (copyDst s).base w).2.ctx 0).state ≠ 5 ∧ (recAt s).srcFmt = 0 ∧ (recAt s).lready = 0 ∧
    (∀ v ∈ [(copyBytes (s.setHead 0x10 w) (copyDst s).base w).2.copyDest w (recAt s) (copyDst s) (copyDst s).base
      (copyBytes (s.setHead 0x10 w) (copyDst s).base w).1], v.2 = none ∧ v.1.objOf 0 0 = some 16) := by
  unfold State.RecordDue
  decide +kernel

/-- The engine stands at a COPY of 8 bytes into an open flash object of its context that has room. -/
def mkToFlash : State :=
  { mkEngine 0x10 ferryWork (cellsAt page (recBytes 0 (page + 0x100) 0 9 8 0) ++ cellsAt (page + 0x36) [1] ++ cellsAt (page + 0x100) (strm 0x10000 8 4 2)) with
    tier := { Tier.reset with
      objs := [{ id := 9, base := 0, size := 4096, written := 0, sealed := false, ctx := 0, stash := false, extents := [] }] } }

theorem meets_copy_to_flash : ∀ s ∈ [mkToFlash], (recAt s).toFlash = true ∧ (s.objById (recAt s).obj).map (fun o => (o.sealed, o.ctx, o.base, o.size)) = some (false, 0, 0, 4096) ∧
    (recAt s).objOff + 8 ≤ 4096 ∧ s.mem.wf = true ∧ ferryWork.doneBytes = 0 := by
  decide +kernel

/-- The die's windows are full. -/
def mkFull : State :=
  { mkCopy 0 false with hbm := { Mem.reset with stk := [(0, { Stack.reset with pcs := (List.range 32).map fun q => (q, { Pchan.reset with
      window := List.replicate 128 { req := ⟨256 * q, [], 32, false, 3⟩, at_ := 0, seq := 0, slotted := false, poison := [], served := [], bad := false } }) })] } }

theorem meets_held_copy : mkFull.Live ∧ mkFull.RecordDue 0x10 0 ferryWork (recAt mkFull) ∧ (recAt mkFull).lslots = 0 ∧
    (copyAccess mkFull (copyDst mkFull).base).1 = false :=
  ⟨⟨rfl, rfl⟩, by unfold State.RecordDue; decide +kernel, by decide +kernel⟩

theorem meets_landing_wait : (mkCopy 2 false).Live ∧ (mkCopy 2 false).RecordDue 0x10 0 ferryWork (recAt (mkCopy 2 false)) ∧
    (recAt (mkCopy 2 false)).lslots = 2 ∧ ferryWork.freeTaken = false ∧ ferryWork.waiting = false ∧
    (mkCopy 2 false).objOf 0 ((recAt (mkCopy 2 false)).lready + 2) = some 18 ∧
    ((mkCopy 2 false).enqueue [(18, { who := .landing 0x10, n := 1, takes := true })]).waited (.landing 0x10) = false :=
  ⟨⟨rfl, rfl⟩, by unfold State.RecordDue; decide +kernel, by decide +kernel⟩

theorem meets_record_complete : (mkWritten 0x10 2 none (some ⟨5, 0⟩)).Live ∧
    ((mkWritten 0x10 2 none (some ⟨5, 0⟩)).engine 0x10).head = some { ferryWork with written := true, count := 2 } ∧
    ((mkWritten 0x10 1 none (some ⟨5, 0⟩)).engine 0x10).head = some { ferryWork with written := true } ∧
    ((mkWritten 0x18 1 (some ⟨5, 0⟩) none).engine 0x18).head = some { runWork with written := true } :=
  ⟨⟨rfl, rfl⟩, by decide +kernel⟩

theorem meets_create : (mkObject 3 (page + 0x300) 0 4096 0 1).Live ∧
    (mkObject 3 (page + 0x300) 0 4096 0 1).RecordDue 0x10 3 ferryWork (recAt (mkObject 3 (page + 0x300) 0 4096 0 1)) ∧
    (mkObject 3 (page + 0x300) 0 4096 0 1).writeFault 0 (recAt (mkObject 3 (page + 0x300) 0 4096 0 1)).src 16 = 0 ∧
    (recAt (mkObject 3 (page + 0x300) 0 4096 0 1)).f 0x18 1 = 1 ∧ (mkObject 3 (page + 0x300) 0 4096 0 1).ddrFind 4096 = some (2 ^ 48) ∧
    (mkObject 3 (page + 0x300) 0 4096 0 0).ddrFind 4096 = none :=
  ⟨⟨rfl, rfl⟩, by unfold State.RecordDue; decide +kernel, by decide +kernel⟩

/-- The same for an open flash object of the context. -/
def mkFlashObject (op : Nat) : State :=
  { mkObject op 0 9 0 0 1 with tier := { Tier.reset with
      objs := [{ id := 9, base := 0, size := 4096, written := 8, sealed := false, ctx := 0, stash := false, extents := [] }] } }

theorem meets_seal_in_flash : ∀ op ∈ [4, 5], (mkFlashObject op).RecordDue 0x10 op ferryWork (recAt (mkFlashObject op)) ∧
    ((mkFlashObject op).objById (recAt (mkFlashObject op)).obj).map (fun o => (o.sealed, o.ctx, o.base)) = some (false, ferryWork.ctx, 0) := by
  unfold State.RecordDue
  decide +kernel

theorem meets_seal_and_release : (mkObject 4 0 9 0 0 1).Live ∧ (mkObject 4 0 9 0 0 1).RecordDue 0x10 4 ferryWork (recAt (mkObject 4 0 9 0 0 1)) ∧
    (mkObject 5 0 9 0 0 1).RecordDue 0x10 5 ferryWork (recAt (mkObject 5 0 9 0 0 1)) ∧
    (mkObject 4 0 9 0 1 1).RecordDue 0x10 4 ferryWork (recAt (mkObject 4 0 9 0 1 1)) ∧
    (mkObject 5 0 9 0 1 1).RecordDue 0x10 5 ferryWork (recAt (mkObject 5 0 9 0 1 1)) ∧
    ((mkObject 4 0 9 0 0 1).objById (recAt (mkObject 4 0 9 0 0 1)).obj).map (fun o => (o.sealed, o.ctx)) = some (false, ferryWork.ctx) ∧
    ((mkObject 4 0 9 0 1 1).objById (recAt (mkObject 4 0 9 0 1 1)).obj).map (fun o => (o.sealed, o.ctx)) = some (false, 1) := by
  unfold State.RecordDue
  exact ⟨⟨rfl, rfl⟩, by decide +kernel⟩

/-! The stash (statements 30 and 31). -/

theorem stash_due (op : Nat) (t : Stash) (h : (mkStash op t).runOnArray 2 = some (someRun .granted) ∧ (mkStash op t).mayIssue 2 (someRun .granted) = true ∧
    ((mkStash op t).array 2).stashPos < ((mkStash op t).array 2).nstash ∧
    (mkStash op t).rdN page 16 = (mkStash op t).rdN (((mkStash op t).array 2).stashList + 16 * ((mkStash op t).array 2).stashPos) 16 ∧
    fieldAt ((mkStash op t).rdN page 16) 0 1 = op ∧ zeroAt ((mkStash op t).rdN page 16) 8 8 = true ∧
    (mkStash op t).stashOf 0 (fieldAt ((mkStash op t).rdN page 16) 1 1) = some t ∧
    stepOf op = { op := op, mb := BitVec.ofNat 32 (fieldAt ((mkStash op t).rdN page 16) 4 4), sync := BitVec.ofNat 16 (fieldAt ((mkStash op t).rdN page 16) 2 2)
                  array := 2, reason := 0 } ∧
    stepTaken op t = (mkStash op t).setArray 2 { (mkStash op t).array 2 with stashPos := ((mkStash op t).array 2).stashPos + 1 }) :
    (mkStash op t).StashDue 2 op t (stepOf op) (stepTaken op t) := ⟨someRun .granted, (mkStash op t).rdN page 16, h⟩

theorem meets_alloc_close_open : (mkStash 1 (someStash 1 [])).Live ∧ (mkStash 1 (someStash 1 [])).StashDue 2 1 (someStash 1 []) (stepOf 1) (stepTaken 1 (someStash 1 [])) ∧
    (mkStash 2 (someStash 1 [⟨1, 1, 0⟩])).StashDue 2 2 (someStash 1 [⟨1, 1, 0⟩]) (stepOf 2) (stepTaken 2 (someStash 1 [⟨1, 1, 0⟩])) ∧
    (mkStash 3 (someStash 1 [⟨1, 2, 0⟩])).StashDue 2 3 (someStash 1 [⟨1, 2, 0⟩]) (stepOf 3) (stepTaken 3 (someStash 1 [⟨1, 2, 0⟩])) ∧
    ((someStash 1 []).mbOf 1 = none ∧ (someStash 1 []).occupant 1 = none ∧ (someStash 1 [⟨1, 1, 0⟩]).mbOf 1 = some ⟨1, 1, 0⟩ ∧
    (someStash 1 [⟨1, 2, 0⟩]).mbOf 1 = some ⟨1, 2, 0⟩ ∧ (mkStash 1 (someStash 1 [])).objOf 0 0 = some 16 ∧ ((mkStash 1 (someStash 1 [])).ctx 0).state ≠ 5) :=
  ⟨⟨rfl, rfl⟩, stash_due _ _ (by decide +kernel), stash_due _ _ (by decide +kernel), stash_due _ _ (by decide +kernel), by decide +kernel⟩

/-- What an ALLOC meets whose slot another micro-batch holds: writing, closed without and with units free. -/
theorem meets_alloc_held : ∀ t ∈ [someStash 1 [⟨0, 1, 0⟩], someStash 0 [⟨0, 2, 0⟩], someStash 1 [⟨0, 2, 0⟩]],
    (mkStash 1 t).StashDue 2 1 t (stepOf 1) (stepTaken 1 t) ∧ t.mbOf 1 = none ∧ (∃ m, t.occupant 1 = some m) ∧
    (((stepTaken 1 t).putStash t).stashFull t (stepOf 1) 2).stashOf 0 0 = some t ∧ (((stepTaken 1 t).putStash t).stashFull t (stepOf 1) 1).stashOf 0 0 = some t := by
  intro t h
  refine ⟨stash_due _ _ ?_, ?_, ⟨t.mbs.headD ⟨0, 0, 0⟩, ?_⟩, ?_, ?_⟩ <;> revert t <;> decide +kernel

theorem meets_free_units : (someStash 0 [⟨0, 2, 0⟩]).freeUnits < 2 ∧ 2 ≤ (someStash 1 [⟨0, 2, 0⟩]).freeUnits := by decide

theorem meets_free_and_wrong_states : (mkStash 4 (someStash 1 [⟨1, 2, 0⟩])).StashDue 2 4 (someStash 1 [⟨1, 2, 0⟩]) (stepOf 4) (stepTaken 4 (someStash 1 [⟨1, 2, 0⟩])) ∧
    (mkStash 4 (someStash 1 [⟨1, 1, 0⟩])).StashDue 2 4 (someStash 1 [⟨1, 1, 0⟩]) (stepOf 4) (stepTaken 4 (someStash 1 [⟨1, 1, 0⟩])) ∧
    (mkStash 1 (someStash 1 [⟨1, 1, 0⟩])).StashDue 2 1 (someStash 1 [⟨1, 1, 0⟩]) (stepOf 1) (stepTaken 1 (someStash 1 [⟨1, 1, 0⟩])) ∧
    (mkStash 2 (someStash 1 [⟨1, 2, 0⟩])).StashDue 2 2 (someStash 1 [⟨1, 2, 0⟩]) (stepOf 2) (stepTaken 2 (someStash 1 [⟨1, 2, 0⟩])) ∧
    (mkStash 3 (someStash 1 [⟨1, 1, 0⟩])).StashDue 2 3 (someStash 1 [⟨1, 1, 0⟩]) (stepOf 3) (stepTaken 3 (someStash 1 [⟨1, 1, 0⟩])) :=
  ⟨stash_due _ _ (by decide +kernel), stash_due _ _ (by decide +kernel), stash_due _ _ (by decide +kernel), stash_due _ _ (by decide +kernel),
    stash_due _ _ (by decide +kernel)⟩

theorem meets_spill_restore_and_timeout : (mkBooks (someStash 1 [⟨0, 5, 0⟩]) 0).Live ∧ (mkBooks (someStash 1 [⟨0, 5, 0⟩]) 0).stashOf 0 0 = some (someStash 1 [⟨0, 5, 0⟩]) ∧
    (someStash 1 [⟨0, 5, 0⟩]).mbs.find? (fun m => m.st == 5) = some ⟨0, 5, 0⟩ ∧
    (mkBooks (someStash 1 [⟨0, 5, 0⟩]) 0).poisonIn ((someStash 1 [⟨0, 5, 0⟩]).slotAddr 0) 64 = false ∧
    ({ mkBooks (someStash 1 [⟨0, 5, 0⟩]) 0 with hbm := { Mem.reset with poisoned := [(0, true)] } } : State).poisonIn ((someStash 1 [⟨0, 5, 0⟩]).slotAddr 0) 64 = true ∧
    (someStash 1 [⟨0, 6, 9⟩]).mbs.find? (fun m => m.st == 6) = some ⟨0, 6, 9⟩ ∧ ((mkBooks (someStash 1 [⟨0, 6, 9⟩]) 0).objById 9).isSome = true ∧
    (∀ t ∈ [({ someStash 1 [] with waiting := [{ stepOf 1 with reason := 1 }], since := some 0 } : Stash)], (mkBooks t 100000).stashOf 0 0 = some t ∧
      t.since = some 0 ∧ t.waiting.find? (fun w => w.reason != 0) = some { stepOf 1 with reason := 1 } ∧ 0 + t.timeoutMs * 100000 ≤ (mkBooks t 100000).now) :=
  ⟨⟨rfl, rfl⟩, by decide +kernel⟩

/-! Spans, windows and the fabric (statements 32 to 35). -/

/-- The western Span has replayed flit 7 of its update queue 16 times. -/
def mkSpan : State := { State.reset with spanW := { Span.reset with toDie := { SpanLane.reset with sending := some (1, 7), replays := 16 } } }

/-- A ferry flit and a control flit join: the control flit is served first, and the ferry flit can be waited for; a flit that has not come cannot. -/
theorem meets_span_replay : ∀ l ∈ [[(⟨2, by decide⟩, 4), (⟨0, by decide⟩, 5)].foldl SpanLane.join (State.reset.span false).toDie],
    (l.serveTo (0, 5) l.waiting).map (fun x => (x.sending, x.ferry)) = some (some (0, 5), [4]) ∧
    (l.serveTo (2, 4) l.waiting).map (fun x => (x.sending, x.ferry)) = some (some (2, 4), []) ∧ l.serveTo (1, 9) l.waiting = none := by
  decide +kernel

theorem meets_span : mkSpan.Live ∧ 16 ≤ (mkSpan.span false).toDie.replays ∧ (mkSpan.span false).hung = false ∧ (mkSpan.span true).toDie.replays < 16 ∧
    (mkSpan.span true).toHub.replays < 16 :=
  ⟨⟨rfl, rfl⟩, by decide +kernel⟩

/-- A write of two bytes. -/
def winAt (offset : Nat) : WinAccess := { offset := offset, size := 2, data := [1, 2], isWrite := true }

theorem meets_window : State.reset.Live ∧ (winAt 0).offset + max (winAt 0).size (winAt 0).data.length ≤ 0x300_0000 ∧ State.reset.dbg.busy = false ∧
    0 < max (winAt 0).size (winAt 0).data.length ∧ State.reset.mem.wf = true ∧
    (winAt 0x3FF_FFFE).offset + max (winAt 0x3FF_FFFE).size (winAt 0x3FF_FFFE).data.length ≤ 0x400_0000 ∧ (State.reset.array 2).inflight = [] :=
  ⟨⟨rfl, rfl⟩, by decide +kernel⟩

theorem meets_held_window : mkHold.Live ∧ (winAt 0x300_0000).offset + max (winAt 0x300_0000).size (winAt 0x300_0000).data.length ≤ 0x400_0000 ∧
    0x300_0000 ≤ (winAt 0x300_0000).offset ∧ (mkHold.array 2).inflight ≠ [] ∧ 0 < max (winAt 0x300_0000).size (winAt 0x300_0000).data.length :=
  ⟨⟨rfl, rfl⟩, by decide +kernel⟩

theorem meets_bank_window : (State.reset.array 2).inflight = [] ∧ (State.reset.array 2).draining = false := by decide +kernel

theorem meets_link_training : (mkPort { Port.reset with state := 1, mode := 1 }).Live ∧ ((mkPort { Port.reset with state := 1, mode := 1 }).port 2).state = 1 ∧
    ((mkPort { Port.reset with state := 1, mode := 1 }).port 2).trained = false ∧ ((mkPort { Port.reset with state := 1, mode := 1 }).port 2).mode = 1 ∧
    ((mkPort { Port.reset with state := 1, trained := true }).port 2).trained = true ∧
    framingAllowed ((mkPort { Port.reset with state := 1, trained := true }).port 2).curFraming ((mkPort { Port.reset with state := 1, trained := true }).port 2).curRate = true ∧
    (mkPort { Port.reset with state := 1, trained := true }).fab.valid = false :=
  ⟨⟨rfl, rfl⟩, by decide +kernel⟩

theorem meets_retry : (mkPort { Port.reset with state := 2, retry := [someSent false] }).Live ∧
    (∀ n ∈ [0, 16], ∀ x ∈ [(mkPort { Port.reset with state := 2, retry := [someSent false], replays := n }).port 2],
      x.state = 2 ∧ x.curMode ≠ 2 ∧ x.retry ≠ [] ∧ x.ackAt + x.retryTo.toNat ≤ 100000000 ∧ (if n = 0 then x.replays < x.retryLimit.toNat else x.retryLimit.toNat ≤ x.replays)) :=
  ⟨⟨rfl, rfl⟩, by decide +kernel⟩

theorem meets_retrain_and_drain : ((mkPort { Port.reset with state := 3 }).port 2).state = 3 ∧
    ((mkPort { Port.reset with state := 3 }).port 2).trainAt + ((mkPort { Port.reset with state := 3 }).port 2).retrainMs.toNat * 100000 ≤ (mkPort { Port.reset with state := 3 }).now ∧
    ((mkPort { Port.reset with state := 4 }).port 2).state = 4 ∧ ((mkPort { Port.reset with state := 4 }).port 2).drainAt + 10000 ≤ (mkPort { Port.reset with state := 4 }).now ∧
    ((mkPort { Port.reset with state := 4 }).port 2).mode = 0 ∧ ((mkPort { Port.reset with state := 1 }).port 2).state ≠ 2 ∧
    ((mkPort { Port.reset with state := 1 }).port 2).state ≠ 3 := by
  decide +kernel

theorem meets_flit_send : (mkPort { Port.reset with state := 2, replay := [someSent false] }).Live ∧
    (((mkPort { Port.reset with state := 2, replay := [someSent false] }).port 2).state = 2 ∧
    ((mkPort { Port.reset with state := 2, replay := [someSent false] }).port 2).curMode ≠ 2 ∧
    (((mkPort { Port.reset with state := 2, replay := [someSent false] }).port 2).noteWaits 100000000).replay = [someSent false] ∧
    (((mkPort { Port.reset with state := 2, toSend := [someSent false] }).port 2).noteWaits 100000000).replay = [] ∧
    (((mkPort { Port.reset with state := 2, toSend := [someSent false] }).port 2).noteWaits 100000000).toSend = [someSent false] ∧
    (((mkPort { Port.reset with state := 2, toSend := [someSent false] }).port 2).noteWaits 100000000).retry.length < 1024 ∧
    (((mkPort { Port.reset with state := 2 }).port 2).noteWaits 100000000).toSend = [] ∧
    (((mkPort { Port.reset with state := 2 }).port 2).noteWaits 100000000).pick.isNone = true) :=
  ⟨⟨rfl, rfl⟩, by decide +kernel⟩

/-- The retry buffer may be full. -/
theorem meets_full_retry_buffer : 1024 ≤ ({ Port.reset with state := 2, toSend := [someSent false], retry := List.replicate 1024 (someSent false) } : Port).retry.length :=
  by
  show 1024 ≤ (List.replicate 1024 (someSent false)).length
  rw [List.length_replicate]

theorem word_moves (c : Word) : c + 1 ≠ c := by bv_omega

/-- Of every header and body there is a flit whose CRC is right, and one whose CRC is wrong. -/
theorem flits_exist (h : DWord) (b : List Byte) : (∃ f : Flit, f.header = h ∧ f.body = b ∧ f.fecOk = true ∧ f.crc = flitCrc f.header f.body) ∧
    (∃ f : Flit, f.header = h ∧ f.body = b ∧ f.crc ≠ flitCrc f.header f.body) :=
  ⟨⟨⟨h, b, flitCrc h b, true, 0⟩, rfl, rfl, rfl, rfl⟩, ⟨h, b, flitCrc h b + 1, true, 0⟩, rfl, rfl, word_moves _⟩

theorem meets_flit_receive : (mkPort { Port.reset with state := 2 }).Live ∧ ((mkPort { Port.reset with state := 2 }).port 2).state = 2 ∧
    (∀ n ∈ [0, 5], bitOf (wireHeader n).toNat 30 = true ∧ bitOf (wireHeader n).toNat 24 = false ∧
      (BitVec.ofNat 12 (wireHeader n).toNat = Port.reset.rxSeq + 1 ↔ n = 0)) ∧
    (∃ f : Flit, f.header = wireHeader 0 ∧ f.body = List.replicate 244 0 ∧ f.fecOk = true ∧ f.crc = flitCrc f.header f.body) :=
  ⟨⟨rfl, rfl⟩, by decide +kernel, by decide +kernel, (flits_exist _ _).1⟩

/-- Packets of a kind of route. -/
def routed (dst : BitVec 16) (vc : Fin 8) (hops : Byte) : Packet := { packetTo dst 7 vc 0 hops with isLocal := vc == 6 }

/-- The module's identifier is 5, and packets to 9 leave by ports 1 and 3. -/
def mkSwitch : State :=
  { mkPort { Port.reset with rxPackets := [(1, routed 9 0 4)] } with
    fab := { Fab.reset with
      id := 5, valid := true, inject := [routed 9 0 4], members := [(9, 0x000A)], ports := [(2, { Port.reset with rxPackets := [(1, routed 9 0 4)] })] } }

theorem meets_route : mkSwitch.Live ∧ mkSwitch.fab.inject = [routed 9 0 4] ∧ State.reset.fab.inject = [] ∧ (mkSwitch.port 2).rxPackets = [(1, routed 9 0 4)] ∧
    (routed 9 6 4).isLocal = true ∧ (routed 9 6 4).vc.val = 6 ∧ State.reset.boot.level ≠ 2 ∧ mkSwitch.boot.level = 2 ∧ (routed 5 0 4).dst = mkSwitch.fab.id ∧
    (routed 9 0 0).hops = 0 ∧ popcount 16 (mkSwitch.routeEntry 10).toNat = 0 ∧ (routed 9 0 4).hops ≠ 0 ∧ popcount 16 (mkSwitch.routeEntry 9).toNat ≠ 0 ∧
    (nthSetBit 16 (mkSwitch.routeEntry 9).toNat (routeHash 7 9 0 % popcount 16 (mkSwitch.routeEntry 9).toNat) 0).isSome = true :=
  ⟨⟨rfl, rfl⟩, by decide +kernel⟩

theorem meets_ethernet : (mkPort { Port.reset with state := 2, curMode := 2 }).Live ∧ ((mkPort { Port.reset with state := 2, curMode := 2 }).port 2).state = 2 ∧
    ((mkPort { Port.reset with state := 2, curMode := 2 }).port 2).curMode = 2 ∧
    (∀ f ∈ [({ fcsOk := true, tagged := false, dstMac := BitVec.ofNat 48 (0x02000000 * 65536), etherType := 0x88B5, packet := routed 5 0 4 } : Frame)],
      f.fcsOk = true ∧ f.etherType = (mkPort { Port.reset with state := 2, curMode := 2 }).fab.etherType ∧
      f.dstMac.toNat / 65536 = (mkPort { Port.reset with state := 2, curMode := 2 }).fab.pfx.toNat) :=
  ⟨⟨rfl, rfl⟩, by decide +kernel⟩

/-- Ports with a packet queued for channel 0: a flit port whose peer has advertised no credits, one whose peer has, an Ethernet port, and one whose last
flit of a packet waits to be sent. -/
def queuedPort (mode : BitVec 2) (credits : Nat) : Port :=
  { Port.reset with state := 2, curMode := mode, peerAlloc := List.replicate 8 credits, queues := [(0, [(none, routed 9 0 4)])] }

theorem meets_packet_to_send : ∀ x ∈ [((mkPort (queuedPort 1 4)).port 2).noteWaits 100000000, ((mkPort (queuedPort 2 0)).port 2).noteWaits 100000000],
    x.pick = some (0, 1) ∧ x.headOf 0 = some (none, routed 9 0 4) ∧ x.toSend = [] ∧ x.replay = [] ∧ x.retry.length < 1024 ∧
    (((mkPort (queuedPort 1 0)).port 2).noteWaits 100000000).pick.isNone = true ∧
    ((flitsOfPacket (routed 9 0 4)).map fun f => f.eop) = [true] := by
  decide +kernel

theorem meets_last_flit : ∀ x ∈ [((mkPort { Port.reset with state := 2, toSend := [someSent true], sending := some (none, routed 9 0 4) }).port 2).noteWaits 100000000],
    x.toSend = [someSent true] ∧ x.sending = some (none, routed 9 0 4) ∧ x.retry.length < 1024 := by
  decide +kernel

/-! Gradient reduction (statements 37 to 40). -/

/-- A bucket with a local input. -/
def localBucket : Bucket := { someBucket with flags := 1 }
/-- A bucket that this module owns. -/
def ownBucket : Bucket := { someBucket with flags := 2 }

theorem meets_contribute : (mkPlan (planWith localBucket) 0 []).Live ∧ (mkPlan (planWith localBucket) 0 []).bucketOf 2 0 = some (planWith localBucket, localBucket) ∧
    localBucket.isLocal = true ∧ localBucket.sentStep = false ∧ (planWith localBucket).stopped = false ∧ localBucket.sending = none ∧ localBucket.readyWait = false ∧
    (mkPlan (planWith localBucket) 0 []).objOf (planWith localBucket).ctxNo localBucket.readyObj.toNat = some 16 ∧
    (mkPlan (planWith { localBucket with sending := some 1 }) 0 []).bucketOf 2 0 = some (planWith { localBucket with sending := some 1 }, { localBucket with sending := some 1 }) :=
  ⟨⟨rfl, rfl⟩, by decide +kernel⟩

/-- A packet at the front is a packet of the job's plan. -/
theorem for_job {s : State} {p : Packet} {vcs : List Nat} {type j : Nat} {q : Plan} (h : vcs.contains p.vc.val = true ∧ p.type.toNat = type ∧
    (s.receive p).map Prod.fst = some (some 1) ∧ s.planOfJob p.job.toNat = some (j, q)) : ∃ t, s.ForJob p vcs type j q t := by
  obtain ⟨h1, h2, h3, h4⟩ := h
  obtain ⟨t, ht⟩ := receives h3
  exact ⟨t, h1, h2, ⟨_, ht⟩, h4⟩

theorem meets_contrib : (mkPlan (planWith someBucket) 0 [jobIn 2 1 6 0]).Live ∧
    (∃ t, (mkPlan (planWith someBucket) 0 [jobIn 2 1 6 0]).ForJob (jobIn 2 1 6 0) [2, 3] 1 2 (planWith someBucket) t) ∧ (jobIn 2 1 6 0).step = (planWith someBucket).openStep ∧
    (planWith someBucket).entryOf (jobIn 2 1 6 0).bucket.toNat = some (0, someBucket) ∧
    (mkPlan (planWith someBucket) 0 []).memberOf (planWith someBucket) (jobIn 2 1 6 0).src = some 0 ∧ someBucket.inputs.findIdx? (fun x => x == 0) = some 0 :=
  ⟨⟨rfl, rfl⟩, for_job (by decide +kernel), by decide +kernel⟩

theorem meets_other_steps : (∃ t, (mkPlan (planWith someBucket) 0 [jobIn 3 1 7 0]).ForJob (jobIn 3 1 7 0) [2, 3] 1 2 (planWith someBucket) t) ∧
    (∃ t, (mkPlan (planWith someBucket) 0 [jobIn 0 1 5 0]).ForJob (jobIn 0 1 5 0) [0] 1 2 (planWith someBucket) t) ∧ (planWith someBucket).openStep < (jobIn 3 1 7 0).step ∧
    (jobIn 0 1 5 0).step < (planWith someBucket).openStep ∧ (mkPlan (planWith someBucket) 0 [jobIn 3 1 7 0]).fab.inbox.any (fun e => e.2 == jobIn 3 1 7 0) = true :=
  ⟨for_job (by decide +kernel), for_job (by decide +kernel), by decide +kernel⟩

theorem meets_credit_and_slot_free : (∃ t, (mkPlan (planWith someBucket) 0 [jobIn 3 2 0 0]).ForJob (jobIn 3 2 0 0) [3] 2 2 (planWith someBucket) t) ∧
    (mkPlan (planWith { someBucket with slots := [(0, some (someSlot true))] }) 0 []).bucketOf 2 0 =
      some (planWith { someBucket with slots := [(0, some (someSlot true))] }, { someBucket with slots := [(0, some (someSlot true))] }) ∧
    (({ someBucket with slots := [(0, some (someSlot true))] } : Bucket).slots.filter fun (e : Nat × Option RSlot) => match e.2 with
      | some x => x.sent && (mkPlan (planWith { someBucket with slots := [(0, some (someSlot true))] }) 0 []).hasLeft (planWith someBucket) someBucket x
      | none => false).length ≠ 0 :=
  ⟨for_job (by decide +kernel), by decide +kernel⟩

/-- A chunk that the update unit has not yet accepted. -/
def givenBucket (n : Nat) : Bucket := { ownBucket with nchunk := n, pending := [(0, someSlot false)] }

theorem book_delivered (s : State) (x : Shard) (c : Nat) (d : Summed) (b : Bucket) : (s.bookChunk x c d b).delivered = b.delivered := rfl

theorem meets_update : ∀ n ∈ [1, 2], ∀ p ∈ [planWith (givenBucket n)], ∀ q ∈ [{ planWith (givenBucket n) with mode := 0 }],
    (mkPlan q 0 []).tap.used = false ∧ (mkPlan q 0 []).bucketOf 2 0 = some (q, givenBucket n) ∧ (givenBucket n).pending = [(0, someSlot false)] ∧
    streams q ((mkPlan q 0 []).shardOf q (givenBucket n)) = true ∧ streams p ((mkPlan p 0 []).shardOf p (givenBucket n)) = false ∧
    streams q ((mkPlan q 4 []).shardOf q (givenBucket n)) = false ∧ q.clipMode = 0 ∧ ((givenBucket n).delivered + 1 = (givenBucket n).nchunk ↔ n = 1) := by
  decide +kernel

theorem meets_shadow_complete : (mkPlan (planWith { ownBucket with held := true, shadowWritten := true }) 0 []).bucketOf 2 0 =
      some (planWith { ownBucket with held := true, shadowWritten := true }, { ownBucket with held := true, shadowWritten := true }) ∧
    ({ ownBucket with held := true, shadowWritten := true } : Bucket).isOwner = true ∧ ({ ownBucket with held := true, shadowWritten := true } : Bucket).shadow = false := by
  decide +kernel

/-- The plan with hardware clipping. -/
def clipped : Plan := { planWith ownBucket with mode := 2 }

theorem meets_master : (mkPlan clipped 0 [jobIn 2 2 6 0]).Live ∧ (∃ t, (mkPlan clipped 0 [jobIn 2 2 6 0]).ForJob (jobIn 2 2 6 0) [2] 2 2 clipped t) ∧
    (∃ t, (mkPlan clipped 0 [jobIn 2 3 6 0x10000]).ForJob (jobIn 2 3 6 0x10000) [2] 3 2 clipped t) ∧
    (∃ t, (mkPlan clipped 0 [jobIn 2 3 6 0]).ForJob (jobIn 2 3 6 0) [2] 3 2 clipped t) ∧
    (∃ t, (mkPlan clipped 0 [jobIn 2 4 6 0]).ForJob (jobIn 2 4 6 0) [2] 4 2 clipped t) ∧
    (∃ t, (mkPlan clipped 0 [jobIn 4 1 6 1]).ForJob (jobIn 4 1 6 1) [4] 1 2 clipped t) ∧
    (jobIn 2 2 6 0).step = clipped.openStep ∧ clipped.isMaster = true ∧ clipped.clipMode = 1 ∧ clipped.stopped = false ∧
    bitOf (jobIn 2 3 6 0x10000).arg.toNat 16 = true ∧ bitOf (jobIn 2 3 6 0).arg.toNat 16 = false ∧ bits (jobIn 4 1 6 1).arg.toNat 0 8 = 1 :=
  ⟨⟨rfl, rfl⟩, for_job (by decide +kernel), for_job (by decide +kernel), for_job (by decide +kernel), for_job (by decide +kernel), for_job (by decide +kernel),
    by decide +kernel⟩

theorem meets_tokens : (mkPlan clipped 0 [jobIn 4 1 6 2]).Live ∧ Tab.rising (mkPlan clipped 0 [jobIn 4 1 6 2]).red.plans = true ∧
    (∃ t, (mkPlan clipped 0 [jobIn 4 1 6 2]).ForJob (jobIn 4 1 6 2) [4] 1 2 clipped t) ∧ (∃ t, (mkPlan clipped 0 [jobIn 4 1 6 3]).ForJob (jobIn 4 1 6 3) [4] 1 2 clipped t) ∧
    (∃ t, (mkPlan clipped 0 [jobIn 4 1 6 4]).ForJob (jobIn 4 1 6 4) [4] 1 2 clipped t) ∧ (jobIn 4 1 6 2).step = clipped.openStep ∧
    bits (jobIn 4 1 6 2).arg.toNat 0 8 = 2 ∧ bits (jobIn 4 1 6 3).arg.toNat 0 8 = 3 ∧ bits (jobIn 4 1 6 4).arg.toNat 0 8 = 4 :=
  ⟨⟨rfl, rfl⟩, by decide +kernel, for_job (by decide +kernel), for_job (by decide +kernel), for_job (by decide +kernel), by decide +kernel⟩

/-- The plan with sharded updates. -/
def shardPlan (b : Bucket) : Plan := { planWith b with mode := 1 }

theorem meets_gather_start : (mkPlan (shardPlan someBucket) 0 []).Live ∧ (mkPlan (shardPlan someBucket) 0 []).bucketOf 2 0 = some (shardPlan someBucket, someBucket) ∧
    (shardPlan someBucket).sharded = true ∧ someBucket.gathObj ≠ 0xFFFF ∧ someBucket.gathering = false ∧ (shardPlan someBucket).stopped = false ∧
    someBucket.gathWait = false ∧ (mkPlan (shardPlan someBucket) 0 []).objOf (shardPlan someBucket).ctxNo someBucket.gathObj.toNat = some 17 :=
  ⟨⟨rfl, rfl⟩, by decide +kernel⟩

theorem meets_gather_request : (∃ t, (mkPlan (planWith ownBucket) 0 [jobIn 0 1 6 (2 ^ 33)]).ForJob (jobIn 0 1 6 (2 ^ 33)) [0] 1 2 (planWith ownBucket) t) ∧
    (jobIn 0 1 6 (2 ^ 33)).step = (planWith ownBucket).openStep ∧ (planWith ownBucket).entryOf (jobIn 0 1 6 (2 ^ 33)).bucket.toNat = some (0, ownBucket) ∧
    (mkPlan (planWith ownBucket) 0 []).memberOf (planWith ownBucket) (jobIn 0 1 6 (2 ^ 33)).src = some 0 ∧ ownBucket.isOwner = true :=
  ⟨for_job (by decide +kernel), by decide +kernel⟩

/-- A bucket that gathers a version, if it has been recorded. -/
def gatherer (v : Option Word) : Bucket := { someBucket with gathering := true, gatherV := v }

theorem meets_gather_data :
    (∃ t, (mkPlan (planWith (gatherer (some 5))) 0 [jobIn 1 1 6 (5 * 2 ^ 32)]).ForJob (jobIn 1 1 6 (5 * 2 ^ 32)) [1] 1 2 (planWith (gatherer (some 5))) t) ∧
    (∃ t, (mkPlan (planWith (gatherer none)) 0 [jobIn 1 2 6 (5 * 2 ^ 32)]).ForJob (jobIn 1 2 6 (5 * 2 ^ 32)) [1] 2 2 (planWith (gatherer none)) t) ∧
    (planWith (gatherer none)).entryOf 0 = some (0, gatherer none) ∧ (mkPlan (planWith (gatherer none)) 0 []).bucketOf 2 0 = some (planWith (gatherer none), gatherer none) ∧
    (gatherer none).gathering = true ∧ (gatherer none).gatherBad = false ∧ (gatherer none).gatherV = none ∧ (gatherer (some 5)).gatherV = some 5 ∧
    (5 : Word).toNat = bits (jobIn 1 1 6 (5 * 2 ^ 32)).arg.toNat 32 32 ∧ (5 : Word).toNat ≠ bits (jobIn 1 1 6 (6 * 2 ^ 32)).arg.toNat 32 32 :=
  ⟨for_job (by decide +kernel), for_job (by decide +kernel), by decide +kernel⟩

theorem meets_broadcast : (∃ t, (mkPlan (planWith someBucket) 0 [jobIn 4 2 6 0]).ForJob (jobIn 4 2 6 0) [4] 2 2 (planWith someBucket) t) ∧
    (∃ t, (mkPlan (planWith someBucket) 0 [jobIn 4 3 6 0]).ForJob (jobIn 4 3 6 0) [4] 3 2 (planWith someBucket) t) ∧
    (planWith someBucket).entryOf (jobIn 4 2 6 0).bucket.toNat = some (0, someBucket) :=
  ⟨for_job (by decide +kernel), for_job (by decide +kernel), by decide +kernel⟩

/-- What accepting the chunk reads holds a poisoned codeword, or none. -/
theorem meets_poisoned_update : ∀ p ∈ [{ planWith (givenBucket 1) with mode := 0 }], ∀ s ∈ [mkPlan p 0 []], ∀ x ∈ [s.shardOf p (givenBucket 1)],
    s.poisonedOf (s.acceptReads x 0 ++ x.stateReads 0) = none ∧
    ({ s with hbm := { Mem.reset with poisoned := [(0, true)] } } : State).poisonedOf (s.acceptReads x 0 ++ x.stateReads 0) = some (0, 64) := by
  decide +kernel

/-! Power and heat (statements 41 to 44). -/

theorem meets_above_the_cap : ∀ f ∈ [600, 700, 2400], (mkPower 0 { Pwr.reset with fMhz := f }).Live ∧
    (mkPower 0 { Pwr.reset with fMhz := f }).pwr.capW.toNat < (sample 1000 201).cappedW.toNat + (sample 1000 201).uncappedW.toNat ∧
    1 ≤ (mkPower 0 { Pwr.reset with fMhz := f }).pwr.duty := by
  unfold State.Live; decide +kernel

theorem meets_below_the_cap : ∀ d ∈ [7, 8], (mkPower 0 { Pwr.reset with duty := d }).hintedW = 0 ∧
    100 * ((sample 1000 163).cappedW.toNat + (sample 1000 163).uncappedW.toNat) < 97 * (mkPower 0 { Pwr.reset with duty := d }).pwr.capW.toNat := by
  decide +kernel

theorem meets_between : ∀ u ∈ [164, 200], (mkPower 0 Pwr.reset).hintedW = 0 ∧
    (sample 1000 u).cappedW.toNat + (sample 1000 u).uncappedW.toNat ≤ (mkPower 0 Pwr.reset).pwr.capW.toNat ∧
    97 * (mkPower 0 Pwr.reset).pwr.capW.toNat ≤ 100 * ((sample 1000 u).cappedW.toNat + (sample 1000 u).uncappedW.toNat) := by
  decide +kernel

theorem meets_cap_unreachable : ∀ p ∈ [{ Pwr.reset with floor := true, duty := 1, cappedW := 1300, floorAt := 5 }], (mkPower 1000005 p).Live ∧
    p.floor = true ∧ p.duty = 1 ∧ p.capRaised = false ∧ p.floorAt + 1000000 ≤ (mkPower 1000005 p).now ∧ p.capW.toNat < p.cappedW.toNat + p.uncappedW.toNat ∧
    (mkPower 0 { p with capRaised := true }).pwr.capRaised = true := by
  unfold State.Live; decide +kernel

theorem meets_predicted : ∀ p ∈ [{ Pwr.reset with hints := [hint200] }],
    (sample 1000 1).cappedW.toNat + (sample 1000 1).uncappedW.toNat ≤ (mkPower 0 p).pwr.capW.toNat ∧ 600 < p.fMhz ∧
    (mkPower 0 p).pwr.capW.toNat < (sample 1000 1).cappedW.toNat + (sample 1000 1).uncappedW.toNat + (mkPower 0 p).hintedW := by
  decide +kernel

theorem meets_throttle_rise : ∀ d : Fin 2, Tab.rising (mkPower 100000 Pwr.reset).arrays = true ∧ Tab.rising (mkPower 100000 Pwr.reset).pwr.fDie = true ∧
    (mkPower 100000 Pwr.reset).tj (if d.val = 0 then 0 else 2) ≤ 930 ∧ (mkPower 100000 Pwr.reset).tj 1 ≤ 930 ∧
    (∀ i < 12, ((mkPower 100000 Pwr.reset).stack (12 * d + i)).temp.toNat ≤ 930) ∧
    Tab.get (fun _ => 0) (mkPower 100000 Pwr.reset).pwr.riseAt d + 100000 ≤ (mkPower 100000 Pwr.reset).now := by
  decide +kernel

theorem meets_summary : ∀ n ∈ [0, 3], (mkUnit { ArrayUnit.reset with episodes := n, summaryAt := 900000000 }).Live ∧
    ((mkUnit { ArrayUnit.reset with episodes := n, summaryAt := 900000000 }).array 2).summaryAt
      + 100000 * (mkUnit { ArrayUnit.reset with episodes := n, summaryAt := 900000000 }).pwr.summaryMs.toNat ≤ 1000000000 ∧
    ((mkUnit { ArrayUnit.reset with episodes := n, summaryAt := 900000000 }).array 2).episodes = n := by
  unfold State.Live; decide +kernel

theorem meets_stretch_end : ((mkUnit { ArrayUnit.reset with stretching := true }).array 2).stretching = true := by decide +kernel

def someDip (raised : Bool) : Dip := { since := 3, minMv := 600, raised := raised }

theorem meets_dips : ∀ b ∈ [false, true], (mkPower 10000003 { Pwr.reset with dips := [(4, some (someDip b))] }).dip 4 = some (someDip b) ∧
    (mkPower 10000003 { Pwr.reset with dips := [(4, some (someDip b))] }).dip 5 = none ∧ (someDip b).since + 10000000 ≤ 10000003 := by
  decide +kernel

/-- Power-on hours as they stand before the 500th hour of a plan, and one earlier. -/
theorem meets_hours : ∀ n ∈ [598, 599], ∀ s ∈ [{ State.reset with flash := { Flash.reset with poh := BitVec.ofNat 32 n, margin := { Flash.reset.margin with hours := 100 } } }],
    (500 ≤ (s.flash.poh + 1).toNat - s.flash.margin.hours.toNat ↔ n = 599) := by
  decide +kernel

theorem meets_replan : mkBooted.boot.image.isSome = true ∧ bitOf mkBooted.flash.margin.pending.toNat 2 = true ∧ mkBooted.requested 2 = false ∧
    bitOf (mkArray [someRun .granted] owned).flash.margin.pending.toNat 2 = true ∧ (mkArray [someRun .granted] owned).requested 2 = true := by
  refine ⟨rfl, ?_⟩; decide +kernel

/-! Resets (statements 45 to 47). -/

theorem meets_hangs : (mkHung 4 2000000 runWork).Live ∧ (mkHung 4 2000000 runWork).engineHangs 4 = true ∧ (mkHung 4 1999999 runWork).engineHangs 4 = false ∧
    (mkHung 24 2000000 ferryWork).engineHangs 24 = true ∧ (mkHung 24 1999999 ferryWork).engineHangs 24 = false ∧
    (mkHung 16 2000000 ferryWork).engineHangs 16 = true ∧ (mkHung 16 1999999 ferryWork).engineHangs 16 = false := by
  unfold State.Live; decide +kernel

theorem meets_credit_watchdog : ∀ s ∈ [mkPort { Port.reset with state := 2, waitSince := [(3, some 0)] }], s.rst.creditEn = true ∧ (s.port 2).state = 2 ∧
    s.creditStarved 2 ≠ [] ∧ ({ s with rst := { s.rst with creditEn := false } } : State).rst.creditEn = false := by
  decide +kernel

theorem meets_heartbeat : (mkPower 10000000 Pwr.reset).rst.cpEn = true ∧
    (Tab.get (fun _ => CmdProc.reset) (mkPower 10000000 Pwr.reset).hif.cps 0).heartbeat + 100000 * (mkPower 10000000 Pwr.reset).rst.cpMs.toNat ≤ 10000000 := by
  decide +kernel

/-- A request of stack 0's pseudo-channel 0, which is 100 us old or one cycle younger. -/
theorem meets_channel_watchdog : ∀ s ∈ [{ mkHbm with ctrs := [(5, 1600000)] }], ((s.stack 0).pc (2 * 0)).window ≠ [] ∧ ((s.stack 0).chan 0).resetAt = none ∧
    (∃ r ∈ ((s.stack 0).pc (2 * 0)).window, r.req.addr = 64 ∧ max r.at_ ((s.stack 0).chan 0).servedFrom + 1600000 ≤ s.hbmCycle 0) := by
  decide +kernel

theorem meets_array_reset : ∀ dog ∈ [0, 2], ∀ s ∈ [mkSmall 99999 (someSmall 1 3 dog), mkSmall 100000 (someSmall 1 3 dog)], s.Live ∧
    s.smallReset 1 3 = some (someSmall 1 3 dog) ∧ s.smallReset 1 2 = none ∧ s.arrResets 3 < s.rst.arrLimit.toNat ∧
    Tab.rising ((s.ctxsOnArray 3).foldl (fun (s : State) c => s.faultCtx c 11 3 0 srcReset 0) s).arrays = true ∧
    (s.now < (someSmall 1 3 dog).at_ + 100000 ∨ (someSmall 1 3 dog).at_ + 100000 ≤ s.now) := by
  unfold State.Live; decide +kernel

theorem meets_array_limit : ∀ s ∈ [{ mkSmall 9 (someSmall 1 3 1) with arrays := [(3, { ArrayUnit.reset with resetTimes := [8, 7, 6, 5] })] }],
    s.smallReset 1 3 = some (someSmall 1 3 1) ∧ s.rst.arrLimit.toNat ≤ s.arrResets 3 := by
  decide +kernel

theorem meets_port_reset : ∀ dog ∈ [0, 5], (mkSmall 9 (someSmall 2 3 dog)).smallReset 2 3 = some (someSmall 2 3 dog) ∧
    (mkSmall 9 (someSmall 2 3 dog)).smallReset 2 4 = none := by
  decide +kernel

theorem meets_channel_reset : ∀ now ∈ [500006, 500007], ∀ t ∈ [none, some 7],
    ∀ s ∈ [({ mkSmall now (someSmall 3 (16 * 1 + 2) 8) with hbm := { Mem.reset with stk := [(1, { Stack.reset with chans := [(2, { Chan.reset with resetAt := t })] })] } } : State)],
    s.smallReset 3 (16 * 1 + 2) = some (someSmall 3 (16 * 1 + 2) 8) ∧ ((s.stack 1).chan 2).resetAt = t ∧ (s.now < 7 + 500000 ∨ 7 + 500000 ≤ s.now) := by
  decide +kernel

/-- A small reset that has begun and one that has not; 100 µs of the first, or one period less. -/
theorem meets_begun_reset : ∀ scope ∈ [1, 2], ∀ now ∈ [10006, 10007], ∀ r ∈ [{ someSmall scope 3 5 with began := some 7 }],
    (mkSmall now r).rst.small = [r] ∧ (mkSmall now r).smallReset scope 3 = some r ∧ r.began = some 7 ∧ (someSmall scope 3 5).began = none ∧
    (now < 7 + 10000 ∨ 7 + 10000 ≤ now) := by
  decide +kernel

theorem meets_channel_held : ∀ now ∈ [10006, 10007],
    ∀ s ∈ [({ mkSmall now (someSmall 3 (16 * 1 + 2) 8) with hbm := { Mem.reset with stk := [(1, { Stack.reset with chans := [(2, { Chan.reset with resetAt := some 7 })] })] } } : State)],
    s.smallReset 3 (16 * 1 + 2) = some (someSmall 3 (16 * 1 + 2) 8) ∧ ((s.stack 1).chan 2).resetAt = some 7 ∧ (s.now < 7 + 10000 ∨ 7 + 10000 ≤ s.now) := by
  decide +kernel

/-- A reset that is requested stops the watchdogs; with none they run. -/
theorem meets_watching : State.reset.resetScope = 0 ∧ (mkAsked 5).resetScope ≠ 0 ∧ 5 ≤ (mkAsked 5).resetScope ∧ (mkAsked 4).resetScope < 5 ∧
    State.reset.smallReset 1 2 = none ∧ (mkSmall 9 (someSmall 1 2 1)).smallReset 1 (4 / 2) = some (someSmall 1 2 1) := by
  decide +kernel

theorem meets_module_resets : ∀ n ∈ [4, 5, 6], (mkAsked n).Live ∧ (mkAsked n).rst.pending = some (someReset n) ∧ (mkAsked n).tap.used = false ∧ (someReset n).scope = n := by
  unfold State.Live; decide +kernel

/-- The reset of a rail's warning, whose objects may be lost. -/
theorem meets_other_source : (someReset 5).source ≠ 4 ∨ (someReset 5).index ≠ 8 := by decide

/-! Boot and management (statements 48 to 51). -/

theorem meets_stretch : ∀ n ∈ [5, 6], ∀ now ∈ [9999, 10000], (mkHeld n now).tap.used = false ∧ (mkHeld n now).rst.active = some (someReset n) ∧
    (mkHeld n now).rst.pending = none ∧ ((mkHeld n now).now < (someReset n).at_ + 10000 ∨ (someReset n).at_ + 10000 ≤ (mkHeld n now).now) := by
  decide +kernel

/-- BOOT_SRC is 1 and slot A holds an image. -/
def mkSlot (magic : Bool) : State :=
  { State.reset with boot := { Boot.reset with bootSrc := 1 }, flash := { Flash.reset with slotA := some (someComponent 0 magic) } }

theorem meets_bad_slot : State.reset.boot.identityOk = false ∧ (mkSlot false).boot.bootSrc = 1 ∧ (mkSlot false).flash.slotA = some (someComponent 0 false) ∧
    (mkSlot false).imageBad (someComponent 0 false) = some 5 := ⟨rfl, rfl, rfl, rfl⟩

/-- An image that the published algorithms accept (they are no part of the model, log 5) boots. -/
theorem meets_good_slot (h1 : Config.sha512 [] = Config.romKeyHash 0) (h2 : Config.ecdsaVerify [] [] [] = true) : (mkSlot true).boot.bootSrc = 1 ∧
    (mkSlot true).flash.slotA = some (someComponent 0 true) ∧ (mkSlot true).flash.failsA < 3 ∧ (mkSlot true).imageBad (someComponent 0 true) = none := by
  refine ⟨rfl, rfl, by decide, ?_⟩
  unfold State.imageBad State.signedBad
  simp only [someComponent, mkSlot, h1, h2]
  simp [Flash.reset]

theorem meets_counted : (someReset 5).counted = true ∧ State.reset.oosThreshold ≤ 4 ∧
    (State.logReset { State.reset with flash := { Flash.reset with resetLog := [0, 0, 0] } } (someReset 5)).flash.count24 = 4 := by decide +kernel

theorem meets_training : State.reset.boot.image = none ∧ mkBooted.boot.image.isSome = true ∧ bitOf mkBooted.boot.trained.toNat 0 = false ∧
    bitOf ({ mkBooted with boot := { mkBooted.boot with trained := 1 } } : State).boot.trained.toNat 0 = true := ⟨rfl, rfl, rfl, rfl⟩

/-- A recovery from a function reset is complete 100 µs after the reset began. -/
theorem meets_recovery : State.reset.service.rst.recovering = none ∧
    (∃ r, ({ State.reset with now := 10007, rst := { Rst.reset with recovering := some (someReset 4) } } : State).service.rst.recovering = some r ∧
      ({ State.reset with now := 10007, rst := { Rst.reset with recovering := some (someReset 4) } } : State).service.recovered r = true) ∧
    ({ State.reset with now := 10007, rst := { Rst.reset with recovering := some (someReset 4) } } : State).service.rst.captureEvent = false ∧
    (∃ r, ({ State.reset with rst := { Rst.reset with recovering := some (someReset 5) } } : State).service.rst.recovering = some r ∧
      ({ State.reset with rst := { Rst.reset with recovering := some (someReset 5) } } : State).service.recovered r = false) :=
  ⟨by decide +kernel, ⟨someReset 4, by decide +kernel⟩, by decide +kernel, ⟨someReset 5, by decide +kernel⟩⟩

theorem meets_capture : ∀ now ∈ [1000006, 1000007], ∀ s ∈ [({ mkAsked 5 with now := now, tier := { Tier.reset with ddrSpeed := 1 }, rst := { (mkAsked 5).rst with capturing := some 7, capLen := [(0, 4)] } } : State)],
    s.rst.capturing = some 7 ∧ s.rst.pending = some (someReset 5) ∧ s.captures (someReset 5) = true ∧ (s.now < 7 + 1000000 ∨ 7 + 1000000 ≤ s.now) := by
  decide +kernel

theorem meets_bad_component : (State.reset.componentBad (someComponent 0 false)).1 = some 5 ∧
    (State.reset.componentBad (someComponent 4 false)).1 = some 5 ∧ (State.reset.componentBad (someComponent 5 true)).1 = some 1 := ⟨rfl, rfl, rfl⟩

/-- A component that the published algorithms accept (log 5). -/
theorem meets_good_component (h1 : Config.sha512 [] = Config.romKeyHash 0) (h2 : Config.ecdsaVerify [] [] [] = true) :
    (State.reset.componentBad (someComponent 0 true)).1 = none ∧ (mkBooted.componentBad (someComponent 0 true)).1 = none ∧
    (State.reset.componentBad (someComponent 4 true)).1 = none ∧
    (({ State.reset with boot := { Boot.reset with cfg := some (someComponent 4 true) } } : State).componentBad (someComponent 5 true)).1 = none ∧ (someComponent 0 true).kind = 0 ∧ (someComponent 4 true).kind = 4 ∧
    mkBooted.boot.image.isSome = true ∧ mkBooted.boot.slot = false ∧ State.reset.boot.image = none := by
  refine ⟨?_, ?_, ?_, ?_, rfl, rfl, rfl, rfl, rfl⟩ <;>
  · simp only [State.componentBad, State.imageBad, State.configBad, State.opKeyBad, State.signedBad, someComponent, mkBooted, h1, h2]
    simp [State.reset, Flash.reset]

theorem meets_spdm_and_pldm : State.reset.Live ∧ State.reset.boot.identityOk = false ∧ mkBooted.boot.identityOk = true ∧ State.reset.pldm = [] ∧
    ({ State.reset with pldm := [1, 2] } : State).pldm = 1 :: [2] := ⟨⟨rfl, rfl⟩, rfl, rfl, rfl, rfl⟩

theorem meets_endpoint : (0 : Fin 4).val = State.reset.boot.trayPos.toNat ∧ (2 : Fin 4).val ≠ State.reset.boot.trayPos.toNat ∧ State.reset.boot.masterSel = false ∧
    ({ State.reset with boot := { Boot.reset with masterSel := true } } : State).boot.masterSel = true := by decide +kernel

/-- The link is up, and 1 s has passed since the reset's end or has not. -/
def mkLink (now : Nat) (d3hot : Bool) : State := { State.reset with now := now, hif := { Hif.reset with up := true, d3hot := d3hot } }

theorem meets_link : ∀ now ∈ [99999999, 100000000], ∀ b ∈ [false, true], (mkLink now b).hif.up = true ∧ (mkLink now b).hif.d3hot = b ∧
    ((mkLink now b).now < (mkLink now b).boot.resetEndAt + 100000000 ∨ (mkLink now b).boot.resetEndAt + 100000000 ≤ (mkLink now b).now) ∧
    State.reset.hif.up = false := by
  decide +kernel

/-- A BAR4 window at a base, with dies trained or not. -/
def mkWindow (base : BitVec 18) (trained : BitVec 2) : State :=
  { State.reset with hif := { Hif.reset with up := true, bar4Base := base }, boot := { Boot.reset with trained := trained } }

theorem meets_bar4_window : (mkWindow 0x480 3).hif.d3hot = false ∧ (mkWindow 0x480 3).hif.bar4Base.toNat / 2 ^ (mkWindow 0x480 3).hif.bar4Log2Gib * 2 ^ (mkWindow 0x480 3).hif.bar4Log2Gib * 2 ^ 30 + 64 = hbmEnd + 64 ∧
    isHbm (hbmEnd + 64) = false ∧ isHbm 64 = true ∧ (mkWindow 0 0).mappedRange 64 4 = true ∧ (mkWindow 0 0).untrainedAt 64 = true ∧
    (mkWindow 0 3).untrainedAt 64 = false ∧ (mkWindow 0 3).mappedRange 64 4 = true ∧ (∀ w, (mkWindow 0 3).fenced w 64 4 = false) ∧
    (mkPlan (planWith someBucket) 0 []).fenced true 0 4 = true := by
  decide +kernel

theorem meets_link_up : State.reset.hif.up = false ∧ mkBooted.hif.up = false ∧ mkBooted.boot.image.isSome = true ∧ 3 ≤ (6 : BitVec 3).toNat ∧ (6 : BitVec 3).toNat ≤ 6 ∧
    (16 : BitVec 5).toNat ∈ [1, 2, 4, 8, 16] := ⟨rfl, rfl, rfl, by decide, by decide, by decide⟩

theorem meets_test_opcodes : (0x09 : Byte).toNat ∈ [0, 1, 2, 5, 6, 8, 9] ∧ (0x77 : Byte).toNat ∉ [0, 1, 2, 5, 6, 8, 9] := by decide

/-! The whole module (statements 53, 55, 56, 58 and 59). -/

theorem meets_empty_queue : State.reset.pending = [] ∧ (mkHeld 5 0).pending = [] ∧ (mkHeld 5 0).rst.active.isSome = true ∧ State.reset.rst.active = none ∧
    Tab.rising State.reset.ctrs = true := ⟨rfl, rfl, rfl, rfl, rfl⟩

theorem meets_boundary_scan : ({ State.reset with tap := { Tap.reset with used := true } } : State).tap.used = true ∧ State.reset.tap.used = false ∧
    (mkHeld 5 0).tap.used = false ∧ (mkHeld 5 0).rst.active.isSome = true := ⟨rfl, rfl, rfl, rfl⟩

/-- The latch is set, and CLEAR_OUT_OF_SERVICE does not wait. -/
theorem meets_latched : ∃ t, Machine.step { State.reset with flash := { Flash.reset with oos := true } } = .next t := ⟨_, rfl⟩

theorem meets_boot_sound : mkBooted.BootSound ∧ ∃ t, Machine.step mkBooted = .next t := by
  refine ⟨⟨?_, ?_, by decide, by decide⟩, _, rfl⟩
  · intro c h; cases h; exact ⟨rfl, by decide⟩
  · intro c h; cases h

/-! Ill-formed data: one term for each check of `Instr.wf`, which the check refuses, beside one that it takes. -/

def packetOf (n : Nat) : Packet := { somePacket 0 0 0 [] with payload := List.replicate n 0 }

theorem test_wf_half_access : (Instr.registerWrite 0x30 ⟨.low, 0xFFFFFFFF⟩).wf = true ∧ (Instr.registerWrite 0x30 ⟨.low, 0x100000000⟩).wf = false ∧
    (Instr.pwrCapWrite ⟨.full, 0x100000000⟩).wf = true := by decide +kernel

theorem test_wf_host_write : (Instr.doorbell 5 0 4 1 [⟨2 ^ 48 - 1, [0]⟩]).wf = true ∧ (Instr.doorbell 5 0 4 1 [⟨2 ^ 48 - 1, [0, 0]⟩]).wf = false := by decide +kernel

theorem test_wf_packet : (Instr.count (packetOf 4096)).wf = true ∧ (Instr.count (packetOf 4097)).wf = false ∧
    (Instr.ethernetFrameReceive 0 ⟨0, false, 0x88B5, true, packetOf 4097⟩).wf = false := by decide +kernel

theorem test_wf_flit : (Instr.flitReceive 0 ⟨0, List.replicate 244 0, 0, true, 0⟩).wf = true ∧ (Instr.flitReceive 0 ⟨0, List.replicate 243 0, 0, true, 0⟩).wf = false := by
  decide +kernel

theorem test_wf_handshake : (Instr.handshake 0 ⟨0, 1, true, List.replicate 8 16⟩).wf = true ∧ (Instr.handshake 0 ⟨0, 1, true, List.replicate 7 16⟩).wf = false := by decide +kernel

theorem test_wf_replan : (Instr.replan 0 ⟨List.replicate 16 700⟩).wf = true ∧ (Instr.replan 0 ⟨List.replicate 15 700⟩).wf = false := by decide +kernel

theorem test_wf_symbol_errors : (Instr.scrubRead 0 ⟨[3, 4]⟩).wf = true ∧ (Instr.scrubRead 0 ⟨[3, 3]⟩).wf = false ∧ (Instr.hbmReadComplete 0 0 ⟨[3, 3]⟩).wf = false := by
  decide +kernel

theorem test_wf_atomic : (Instr.atomic ⟨0, none, 0, 2, 0, 0, 0, 0⟩).wf = true ∧ (Instr.atomic ⟨0, none, 0, 3, 0, 0, 0, 0⟩).wf = false := by decide +kernel

theorem test_wf_window : (Instr.windowAccess 0 ⟨0x3FFFFFC, 4, [], false⟩).wf = true ∧ (Instr.windowAccess 0 ⟨0x3FFFFFD, 4, [], false⟩).wf = false ∧
    (Instr.windowAccess 0 ⟨0x3FFFFFF, 0, [1, 2], true⟩).wf = false := by decide +kernel

theorem test_wf_mctp : (Instr.openSession (.mctp 1 (List.replicate 64 0) [])).wf = true ∧ (Instr.openSession (.mctp 1 (List.replicate 63 0) [])).wf = false ∧
    (Instr.openSession (.mctp 1 (List.replicate 64 0) (List.replicate 4097 0))).wf = false := by decide +kernel

theorem test_wf_challenge : (Instr.challenge (List.replicate 32 0)).wf = true ∧ (Instr.challenge (List.replicate 31 0)).wf = false := by decide +kernel

theorem test_wf_bar4 : (Instr.bar4Access (2 ^ 48 - 4) 4 [] false).wf = true ∧ (Instr.bar4Access (2 ^ 48 - 3) 4 [] false).wf = false := by decide +kernel

/-! Numbers worked out by hand from the rules. -/

/-- No row of the table has bits, so no word spells a command. -/
theorem test_no_word_spells_a_command : decodeTableWord 8 0 = none ∧ State.withFetchWord State.reset 8 0 = State.reset := ⟨rfl, rfl⟩

/-- The worked example of element encoding (03_number_formats): 3.3 in FP8-E4M3 is 0x45 at block scale 1 and 0x35 at block scale 4; 448 is 0x7E, and 612
overflows to it. -/
theorem test_element_encoding : convertElem 4 false .rne 0 (f32 0x40533333) = ⟨0x45, false, false⟩ ∧ convertElem 4 false .rne 2 (f32 0x40533333) = ⟨0x35, false, false⟩ ∧
    convertElem 4 false .rne 0 (.fin false 448 0) = ⟨0x7E, false, false⟩ ∧ convertElem 4 false .rne 0 (.fin false 612 0) = ⟨0x7E, true, false⟩ := by decide +kernel

/-- R127: an MX block of E4M3 elements with 3.3 as its maximum takes x = 127 + 1 - 8; a block of zeros 0, a block with a NaN 0xFF. -/
theorem test_mx_scale : mxScale 6 false [f32 0x40533333, .fin true 1 0] = 120 ∧ mxScale 6 false [.fin false 0 0] = 0 ∧ mxScale 6 false [.nan] = 0xFF := by decide +kernel

/-- FP32 arithmetic at the edges, by IEEE 754: the largest value plus itself, 1 + 2^-24 rounds to even, the smallest subnormal halved. -/
theorem test_fp32 : fadd 0x7F7FFFFF 0x7F7FFFFF = 0x7F800000 ∧ fadd 0x3F800000 0x33800000 = 0x3F800000 ∧ fadd 0x3F800001 0x33800000 = 0x3F800002 ∧
    fmul 0x00000001 0x3F000000 = 0 ∧ fdiv 0x3F800000 0x40400000 = 0x3EAAAAAB ∧ fsqrt 0x40000000 = 0x3FB504F3 := by decide +kernel

/-- The worked example under R32: an address of AD1 in interleaved and in linear mode. -/
theorem test_interleave : ({ State.reset with hbm := { Mem.reset with ilvAd1 := true } } : State).hbmPlace 0x9000123456 = some (15, 0x18456) ∧
    State.reset.hbmPlace 0x9000123456 = some (12, 0x123456) := by decide +kernel

/-- The second case under R32: with one channel of stack 20 mapped out, the top 33 GiB are linear from stack 12 and skip stack 20. -/
theorem test_interleave_mapped_out : ∀ s ∈ [{ State.reset with hbm := { Mem.reset with ilvAd1 := true, stk := [(20, { Stack.reset with live := List.range 30 })] } }],
    s.hbmPlace (0x9000000000 + 540 * 2 ^ 30) = some (12, 45 * 2 ^ 30) ∧ s.hbmPlace (0x9000000000 + 540 * 2 ^ 30 + 24 * 2 ^ 30) = some (21, 45 * 2 ^ 30) ∧
    s.hbmPlace (0x9000000000 + 573 * 2 ^ 30 - 1) = some (23, 48 * 2 ^ 30 - 1) ∧ s.hbmPlace (0x9000000000 + 573 * 2 ^ 30) = none := by decide +kernel

/-- The worked example under R258: the same address in its stack, with channel 5 of stack 15 live and mapped out. -/
theorem test_channel_mapping : ∀ k ∈ [(Stack.reset, 4), ({ Stack.reset with live := List.range 10 ++ (List.range 20).map (· + 12) }, 30)],
    ({ State.reset with hbm := { Mem.reset with ilvAd1 := true, stk := [(15, k.1)] } } : State).pcPlace 0x9000123456 = some (15, k.2, 3, 0) := by
  decide +kernel

/-- The window example under R26: the east accumulator bank of array 5. -/
theorem test_window_base : windowBase 5 + 0x3800000 = 0x2000017800000 := by decide

/-- The worked example under R428: the hash of a packet from 0x0A12 to 0x3C05 on channel 2. -/
theorem test_route_hash : routeHash 0x0A12 0x3C05 2 = 62539 := by decide

/-- R35: the empty queue's step counts the always-on reference. -/
theorem test_idle_counts : (match Machine.step State.reset with | .next t => t.now | _ => 0) = 1 := by decide +kernel

end Sys2Proof.Tests
end

section
/-!
PROOF. The power controller's evaluations and summaries (R506, R517): O41 and O43.
-/
namespace Sys2Proof.Machine

/-! One adjustment of F and d, an equation for each case of R506. -/

section
variable {p : Pwr} {now cap total predicted : Nat}

/-- Above the cap, F falls while it can. -/
theorem Pwr.adjust_above_of_fast (h : cap < total) (f : 600 < p.fMhz) :
    p.adjust now cap total predicted = { p with fMhz := max 600 (p.fMhz - 100) } := by
  simp [Pwr.adjust, h, f]

/-- Above the cap with F at its floor, d falls and the floor timer runs. -/
theorem Pwr.adjust_above_of_slow (h : cap < total) (f : p.fMhz ≤ 600) (d : 1 < p.duty) :
    p.adjust now cap total predicted = { p with duty := p.duty - 1, floor := true, floorAt := if p.floor then p.floorAt else now } := by
  simp [Pwr.adjust, h, Nat.not_lt.mpr f, d]

/-- Above the cap with F and d at their floors, nothing is left to lower. -/
theorem Pwr.adjust_above_of_lowest (h : cap < total) (f : p.fMhz ≤ 600) (d : p.duty ≤ 1) : p.adjust now cap total predicted = p := by
  simp [Pwr.adjust, h, Nat.not_lt.mpr f, Nat.not_lt.mpr d]

/-- Below 97 % of the cap, d rises first. -/
theorem Pwr.adjust_below_of_duty (h : total ≤ cap) (k : predicted ≤ cap) (l : 100 * predicted < 97 * cap) (d : p.duty < 8) :
    p.adjust now cap total predicted = { p with
      duty := p.duty + 1, floor := p.floor && decide (p.duty + 1 < 8), capRaised := p.capRaised && decide (p.duty + 1 < 8) } := by
  simp [Pwr.adjust, Nat.not_lt.mpr h, Nat.not_lt.mpr k, l, d]

/-- Below 97 % of the cap with d at its top, F rises. -/
theorem Pwr.adjust_below_of_full (h : total ≤ cap) (k : predicted ≤ cap) (l : 100 * predicted < 97 * cap) (d : 8 ≤ p.duty) :
    p.adjust now cap total predicted = { p with fMhz := min 2400 (p.fMhz + 25) } := by
  simp [Pwr.adjust, Nat.not_lt.mpr h, Nat.not_lt.mpr k, l, Nat.not_lt.mpr d]

/-- From 97 % of the cap to the cap itself, nothing changes. -/
theorem Pwr.adjust_within (h : total ≤ cap) (k : predicted ≤ cap) (l : 97 * cap ≤ 100 * predicted) : p.adjust now cap total predicted = p := by
  simp [Pwr.adjust, Nat.not_lt.mpr h, Nat.not_lt.mpr k, Nat.not_lt.mpr l]

/-- The readings and the cap are no part of what an adjustment changes. -/
theorem Pwr.adjust_readings (p : Pwr) (now cap total predicted : Nat) : (p.adjust now cap total predicted).cappedW = p.cappedW ∧
    (p.adjust now cap total predicted).uncappedW = p.uncappedW ∧ (p.adjust now cap total predicted).capW = p.capW := by
  unfold Pwr.adjust
  split
  · split
    · exact ⟨rfl, rfl, rfl⟩
    · split <;> exact ⟨rfl, rfl, rfl⟩
  · split
    · split <;> exact ⟨rfl, rfl, rfl⟩
    · split
      · split <;> exact ⟨rfl, rfl, rfl⟩
      · exact ⟨rfl, rfl, rfl⟩

end

/-- R506 as a whole: above the cap in any case, and from the cap down while no hint predicts more power (R513). -/
theorem Pwr.adjust_follows_cap {p q : Pwr} {now cap total hinted : Nat} (hq : q = p.adjust now cap total (total + hinted)) :
    (cap < total → 600 < p.fMhz → q.fMhz = max 600 (p.fMhz - 100) ∧ q.duty = p.duty) ∧
    (cap < total → p.fMhz ≤ 600 → q.fMhz = p.fMhz ∧ (1 ≤ p.duty → q.duty = max 1 (p.duty - 1))) ∧
    (hinted = 0 → 100 * total < 97 * cap → p.duty < 8 → q.fMhz = p.fMhz ∧ q.duty = p.duty + 1) ∧
    (hinted = 0 → 100 * total < 97 * cap → 8 ≤ p.duty → q.fMhz = min 2400 (p.fMhz + 25) ∧ q.duty = p.duty) ∧
    (hinted = 0 → total ≤ cap → 97 * cap ≤ 100 * total → q.fMhz = p.fMhz ∧ q.duty = p.duty) := by
  subst hq
  refine ⟨fun above fast => ?_, fun above slow => ?_, ?_, ?_, ?_⟩
  · rw [Pwr.adjust_above_of_fast above fast]
    exact ⟨rfl, rfl⟩
  · rcases Nat.lt_or_ge 1 p.duty with more | least
    · rw [Pwr.adjust_above_of_slow above slow more]
      exact ⟨rfl, fun _ => (Nat.max_eq_right (Nat.le_sub_one_of_lt more)).symm⟩
    · rw [Pwr.adjust_above_of_lowest above slow least]
      exact ⟨rfl, fun _ => by omega⟩
  · rintro rfl below low
    rw [Nat.add_zero, Pwr.adjust_below_of_duty (by omega) (by omega) below low]
    exact ⟨rfl, rfl⟩
  · rintro rfl below full
    rw [Nat.add_zero, Pwr.adjust_below_of_full (by omega) (by omega) below full]
    exact ⟨rfl, rfl⟩
  · rintro rfl under near
    rw [Nat.add_zero, Pwr.adjust_within under under near]
    exact ⟨rfl, rfl⟩

/-! POWER_EVALUATION. -/

/-- The power controller once an evaluation has taken its readings. -/
def Pwr.withReadings (p : Pwr) (x : PowerSample) : Pwr := { p with cappedW := x.cappedW, uncappedW := x.uncappedW }

/-- The power controller once an evaluation has taken its readings and adjusted F and d. -/
def State.evaluated (s : State) (x : PowerSample) : Pwr :=
  (s.pwr.withReadings x).adjust s.now s.pwr.capW.toNat (x.cappedW.toNat + x.uncappedW.toNat)
    (x.cappedW.toNat + x.uncappedW.toNat + s.hintedW)

theorem exec_powerEvaluation {s : State} (h : s.Live) (x : PowerSample) : exec (.powerEvaluation x) s =
    .next { powerEvaluation x s with pending := s.pending, now := s.now, strapped := s.strapped, tap := s.tap } :=
  let ⟨used, active⟩ := h
  (show exec (.powerEvaluation x) s = liveMp s (powerEvaluation x) from rfl).trans (liveMp_of used active _)

/-- An evaluation leaves of F, d, the readings and the cap what the adjustment leaves. -/
theorem exec_powerEvaluation_kept {s : State} (h : s.Live) (x : PowerSample) :
    ∃ t, exec (.powerEvaluation x) s = .next t ∧ t.pwr.kept = (s.evaluated x).kept := by
  refine ⟨_, exec_powerEvaluation h x, ?_⟩
  dsimp only
  exact powerEvaluation_kept s x

/-- The registers of `Pwr.kept`, one at a time. -/
theorem Pwr.kept_eq_iff {p q : Pwr} : p.kept = q.kept ↔
    p.fMhz = q.fMhz ∧ p.duty = q.duty ∧ p.cappedW = q.cappedW ∧ p.uncappedW = q.uncappedW ∧ p.capW = q.capW := by
  simp [Pwr.kept]

/-- Settles O41: heat leaves F, d, the readings and the cap alone, so an evaluation does to them what the adjustment does. -/
theorem frequencyAndDutyFollowTheCap : Obligations.frequency_and_duty_follow_the_cap := by
  rintro s x total cap live rfl rfl
  obtain ⟨t, run, kept⟩ := exec_powerEvaluation_kept live x
  obtain ⟨hf, hd, hc, hu, hw⟩ := Pwr.kept_eq_iff.mp kept
  obtain ⟨readC, readU, sameCap⟩ : (s.evaluated x).cappedW = x.cappedW ∧ (s.evaluated x).uncappedW = x.uncappedW ∧ (s.evaluated x).capW = s.pwr.capW :=
    Pwr.adjust_readings _ _ _ _ _
  refine ⟨t, run, hc.trans readC, hu.trans readU, hw.trans sameCap, ?_⟩
  rw [hf, hd]
  exact Pwr.adjust_follows_cap (p := s.pwr.withReadings x) (q := s.evaluated x) rfl

/-! DROOP_SUMMARY. -/

/-- The array's interval begins again. -/
def State.restartInterval (s : State) (a : Nat) : State :=
  s.setArray a { s.array a with episodes := 0, stretchNs := 0, deepestMv := 0, summaryAt := s.now }

/-- The payload of DROOP_SUMMARY for the interval that ends. -/
def State.droopPayload (s : State) (a : Nat) : List Byte :=
  leBytes 1 a ++ leBytes 1 0 ++ leBytes 2 (s.array a).deepestMv ++ leBytes 4 (s.array a).episodes ++ leBytes 4 (s.array a).stretchNs

section
variable {s : State} {a : Nat} (due : (s.array a).summaryAt + 100000 * s.pwr.summaryMs.toNat ≤ s.now)
include due

theorem droopSummary_of_quiet (quiet : (s.array a).episodes = 0) : droopSummary a s = s.restartInterval a := by
  simp only [droopSummary, if_neg (Nat.not_lt.mpr due), if_pos quiet, State.restartInterval]

theorem droopSummary_of_episodes (eventful : (s.array a).episodes ≠ 0) :
    droopSummary a s = (s.restartInterval a).raise0 0x0605 srcPower (s.droopPayload a) := by
  simp only [droopSummary, if_neg (Nat.not_lt.mpr due), if_neg eventful, State.restartInterval, State.droopPayload]

end

theorem State.restartInterval_only (s : State) (a : Nat) : ChangesOnly [.arrays] s (s.restartInterval a) := s.setArray_only a _

/-- A summary leaves alone what only the commands named for it change. -/
theorem settle_restartInterval_raise0 (s : State) (a code source : Nat) (b : List Byte) :
    s.settle ((s.restartInterval a).raise0 code source b) = (s.restartInterval a).raise0 code source b := by
  have restart : ChangesOnly [.arrays, .mem, .hif, .out, .pldm, .pins] s (s.restartInterval a) := (s.restartInterval_only a).mono (by decide)
  have raise : ChangesOnly [.arrays, .mem, .hif, .out, .pldm, .pins] _ ((s.restartInterval a).raise0 code source b) :=
    (State.raise0_raised _ code source b).only.mono (by decide)
  exact settle_only (restart.trans raise) (by decide)

theorem exec_droopSummary {s : State} (h : s.Live) (a : Fin 8) : exec (.droopSummary a) s = .next (s.settle (droopSummary a s)) :=
  let ⟨used, active⟩ := h
  live_of used active _

/-- Settles O43: an interval that has ended begins again, and its episodes, if there were any, are what the event reports. -/
theorem droopSummariesFollowTheInterval : Obligations.droop_summaries_follow_the_interval := by
  rintro s a u live due rfl
  rw [exec_droopSummary live a]
  constructor
  · intro episodes
    rw [droopSummary_of_episodes due episodes, settle_restartInterval_raise0]
    rfl
  · intro quiet
    rw [droopSummary_of_quiet due quiet, settle_only (s.restartInterval_only a) (by decide)]
    rfl

end Sys2Proof.Machine
end

section
/-!
PROOF. What every step keeps, and when the module acts at all: O51 to O56 and O58 to O60.
-/
namespace Sys2Proof.Machine

/-! The step itself. -/

theorem step_idle {s : State} (h : s.pending = []) : step s = .next s.idle := by
  simp [step, h]

theorem step_cons (c : Instr) (rest : List Instr) (s : State) : step { s with pending := c :: rest } = exec c { s with pending := rest } := rfl

/-- A step lets a period pass, or performs the front command on the state with the queue's rest. -/
theorem step_cases {s t : State} (h : step s = .next t) :
    (s.pending = [] ∧ t = s.idle) ∨ ∃ c rest, s.pending = c :: rest ∧ exec c { s with pending := rest } = .next t := by
  unfold step at h
  split at h
  · rename_i e
    cases h
    exact .inl ⟨e, rfl⟩
  · rename_i c rest e
    exact .inr ⟨c, rest, e, h⟩

/-- Settles O52: the queue's front is what the step takes, by the definition of a step. -/
theorem aStepRunsTheFrontCommand : Obligations.a_step_runs_the_front_command := step_cons

/-- Settles O54: however a command is performed, it leaves the queue it was given. -/
theorem commandsLeaveTheQueueAlone : Obligations.commands_leave_the_queue_alone := by
  intro c s t
  refine ⟨exec_pending, fun h => ?_⟩
  rw [step_cons] at h
  exact (exec_pending h :)

/-! Who acts: the module, the reset controller, the supplies, the test logic. -/

theorem live_goes {s : State} (h : s.tap.used = false) (f : State → State) : ∃ t, live s f = .next t := by
  cases r : s.rst.active with
  | none => exact ⟨_, live_of h r f⟩
  | some x => exact ⟨_, live_held h (by simp [r]) f⟩

theorem liveMp_goes {s : State} (h : s.tap.used = false) (f : State → State) : ∃ t, liveMp s f = .next t := by
  cases r : s.rst.active with
  | none => exact ⟨_, liveMp_of h r f⟩
  | some x => exact ⟨_, liveMp_held h (by simp [r]) f⟩

/-- Settles O55: the module and the reset controller fault once boundary cells have driven the outputs; the supplies' rows and the test logic
act always. -/
theorem onlyABoundaryScanStopsTheModule : Obligations.only_a_boundary_scan_stops_the_module := by
  intro c s still e
  have actor : still = decide (2 ≤ actorOf c) := by
    rw [e]
    cases c <;> rfl
  rw [actor, decide_eq_false_iff_not, decide_eq_true_iff]
  cases performed c s with
  | live a e =>
    rw [e, a]
    exact ⟨fun used _ => live_used used _, fun k => live_goes (k.resolve_right (by decide)) _⟩
  | mp a e _ =>
    rw [e, a]
    exact ⟨fun used _ => liveMp_used used _, fun k => liveMp_goes (k.resolve_right (by decide)) _⟩
  | reset a e =>
    rw [e, a]
    exact ⟨fun used _ => liveReset_used used _, fun k => ⟨_, liveReset_of (k.resolve_right (by decide)) _⟩⟩
  | always a e | tap a e =>
    rw [e, a]
    exact ⟨fun _ k => absurd (by decide) k, fun _ => ⟨_, rfl⟩⟩

/-- Settles O56: what a module reset holds is what the module performs itself. -/
theorem aModuleResetHoldsTheModule : Obligations.a_module_reset_holds_the_module := by
  intro c s unused held k
  have actor : actorOf c = 0 := by cases c <;> first | rfl | exact k.elim
  cases performed c s with
  | live _ e => exact e.trans (live_held unused held _)
  | mp _ e _ => exact e.trans (liveMp_held unused held _)
  | reset a _ | always a _ | tap a _ => exact absurd (actor.symm.trans a) (by decide)

/-! The test logic. -/

theorem Tap.load_used (t : Tap) (d : Die) (op : Byte) (drives : Bool) : (t.load d op drives).used = (t.used || drives) := by cases d <;> rfl
theorem Tap.load_hub (t : Tap) (d : Die) (op : Byte) (drives : Bool) : (t.load d op drives).hub = if d = .hub then op else t.hub := by cases d <;> rfl
theorem Tap.load_ad0 (t : Tap) (d : Die) (op : Byte) (drives : Bool) : (t.load d op drives).ad0 = if d = .ad0 then op else t.ad0 := by cases d <;> rfl
theorem Tap.load_ad1 (t : Tap) (d : Die) (op : Byte) (drives : Bool) : (t.load d op drives).ad1 = if d = .ad1 then op else t.ad1 := by cases d <;> rfl

theorem ChangesOnly.tap (s : State) (x : Tap) : ChangesOnly [.tap] s { s with tap := x } := by
  intro p hp
  cases p <;> first | (exfalso; revert hp; decide) | rfl

/-- Loading an instruction changes the named die's register and the mark, and nothing else. -/
theorem tapDo_load (s : State) (d : Die) (op : Byte) (drives : Bool) : ∃ t, tapDo s (fun x => x.load d op drives) = .next t ∧ ChangesOnly [.tap] s t ∧
    t.tap.used = (s.tap.used || drives) ∧ t.tap.hub = (if d = .hub then op else s.tap.hub) ∧ t.tap.ad0 = (if d = .ad0 then op else s.tap.ad0) ∧
    t.tap.ad1 = (if d = .ad1 then op else s.tap.ad1) :=
  ⟨_, rfl, .tap s _, s.tap.load_used d op drives, s.tap.load_hub d op drives, s.tap.load_ad0 d op drives, s.tap.load_ad1 d op drives⟩

/-- An opcode that the table of R596 lists with another instruction is no BYPASS. -/
theorem exec_bypass_of_listed (s : State) (d : Die) {op : Byte} (h : op.toNat ∈ [0, 1, 2, 5, 6, 8, 9]) : exec (.bypass d op) s = .next s := by
  show tapDo s (bypass d op) = .next s
  have listed : tapListed op = true := by simpa [tapListed] using h
  simp [tapDo, bypass, listed]

theorem exec_bypass_of_unlisted (s : State) (d : Die) {op : Byte} (h : op.toNat ∉ [0, 1, 2, 5, 6, 8, 9]) :
    exec (.bypass d op) s = tapDo s (fun x => x.load d op false) := by
  show tapDo s (bypass d op) = _
  have unlisted : tapListed op = false := by simpa [tapListed] using h
  simp [tapDo, bypass, unlisted]

theorem tapRegister_of_unlisted {op : Byte} (h : op.toNat ∉ [0, 1, 2, 5, 6, 8, 9]) : tapRegister op = .bypass := by
  unfold tapRegister
  split <;> first | rfl | simp_all

/-- Settles O51: every row but Test-Logic-Reset loads one die's instruction. -/
theorem testInstructionsLoadInEveryState : Obligations.test_instructions_load_in_every_state := by
  intro s d
  refine ⟨rfl, fun op drives c h => ?_, fun op h => exec_bypass_of_listed s d h, fun op h => ?_, by cases d <;> decide⟩
  · suffices e : exec c s = tapDo s fun x => x.load d op drives by rw [e]; exact tapDo_load s d op drives
    simp only [List.mem_cons, Prod.mk.injEq, List.not_mem_nil, or_false] at h
    rcases h with ⟨rfl, rfl, rfl⟩ | ⟨rfl, rfl, rfl⟩ | ⟨rfl, rfl, rfl⟩ | ⟨rfl, rfl, rfl⟩ | ⟨rfl, rfl, rfl⟩ | ⟨rfl, rfl, rfl⟩ | ⟨rfl, rfl, rfl⟩ |
      ⟨rfl, rfl, rfl⟩ | ⟨rfl, rfl, rfl⟩ <;> rfl
  · obtain ⟨t, run, -, used, -, -, ad1⟩ := tapDo_load s d op false
    refine ⟨tapRegister_of_unlisted h, by rw [tapBits, tapRegister_of_unlisted h], t, ?_, by simpa using used, fun e => by rw [ad1, if_pos e]⟩
    rw [exec_bypass_of_unlisted s d h, run]

/-! A period of 10 ns. -/

theorem State.advance_of_ne (s : State) {i j : Nat} (h : j ≠ i) :
    Tab.get (fun _ => (0 : BitVec 48)) (s.advance j).ctrs i = Tab.get (fun _ => (0 : BitVec 48)) s.ctrs i :=
  Tab.get_modify_ne (fun _ => 0) s.ctrs (fun c => c + BitVec.ofNat 48 (s.cyclesNow j)) h

theorem State.advance_self {s : State} (r : Tab.rising s.ctrs = true) (i : Nat) :
    Tab.get (fun _ => (0 : BitVec 48)) (s.advance i).ctrs i = Tab.get (fun _ => (0 : BitVec 48)) s.ctrs i + BitVec.ofNat 48 (s.cyclesNow i) :=
  Tab.get_modify_self (fun _ => 0) r i fun c => c + BitVec.ofNat 48 (s.cyclesNow i)

theorem State.advance_rising {s : State} (r : Tab.rising s.ctrs = true) (i : Nat) : Tab.rising (s.advance i).ctrs = true :=
  Tab.rising_set (bg := fun _ => (0 : BitVec 48)) r i _

/-- A counter advances once, when its own turn comes. -/
theorem State.advanceAll_get (l : List Nat) (nodup : l.Nodup) {i : Nat} (mem : i ∈ l) {s : State} (r : Tab.rising s.ctrs = true) :
    Tab.get (fun _ => (0 : BitVec 48)) (l.foldl State.advance s).ctrs i
      = Tab.get (fun _ => (0 : BitVec 48)) s.ctrs i + BitVec.ofNat 48 (s.cyclesNow i) := by
  have others : ∀ (l : List Nat) (s : State), i ∉ l →
      Tab.get (fun _ => (0 : BitVec 48)) (l.foldl State.advance s).ctrs i = Tab.get (fun _ => (0 : BitVec 48)) s.ctrs i := by
    intro l
    induction l with
    | nil => exact fun s _ => rfl
    | cons j l ih =>
      intro s h
      rw [List.mem_cons, not_or] at h
      exact (ih _ h.2).trans (s.advance_of_ne (Ne.symm h.1))
  induction l generalizing s with
  | nil => cases mem
  | cons j l ih =>
    rw [List.nodup_cons] at nodup
    rcases List.mem_cons.1 mem with rfl | mem
    · exact (others l _ nodup.1).trans (State.advance_self r i)
    · refine (ih nodup.2 mem (State.advance_rising r j)).trans ?_
      rw [s.advance_of_ne (by rintro rfl; exact nodup.1 mem)]
      rfl

/-- The clocks' cycles in a period: the nominal number, one less or one more. -/
theorem State.cyclesNow_near (s : State) {i : Nat} (h : 1 ≤ cyclesPerPeriod i) :
    cyclesPerPeriod i ≤ s.cyclesNow i + 1 ∧ s.cyclesNow i ≤ cyclesPerPeriod i + 1 := by
  unfold State.cyclesNow
  omega

/-- After the clocks and RST_OUT_N, what is left of a period changes neither the time, the counters nor RST_OUT_N. -/
theorem State.idle_late {s : State} (h : s.rst.active = none) : s.idle.now = s.now + 1 ∧ s.idle.ctrs = s.ticked.ctrs ∧
    s.idle.pins.rstOutN = s.ticked.tickEnd.pins.rstOutN := by
  rw [s.idle_running h]
  have polled := State.pollPlans_stepped s.ticked.tickEnd.booked.endSmall
  have ended := State.endSmall_ended s.ticked.tickEnd.booked
  have booked := State.booked_only s.ticked.tickEnd
  have timed : s.ticked.tickEnd.now = s.now + 1 := rfl
  refine ⟨?_, ?_, ?_⟩
  · exact ((polled.1 .now (by decide)).trans (ended.1 .now (by decide))).trans ((booked .now (by decide)).trans timed)
  · exact (polled.1 .ctrs (by decide)).trans ((ended.1 .ctrs (by decide)).trans (booked .ctrs (by decide)))
  · exact polled.2.2.trans (ended.2.trans (congrArg Pins.rstOutN (booked .pins (by decide))))

/-- Settles O53: a held module counts the always-on time alone; otherwise each clock advances once, and RST_OUT_N follows its 2 ms. -/
theorem anIdleStepIsOneReferencePeriod : Obligations.an_idle_step_is_one_reference_period := by
  intro s empty
  refine ⟨s.idle, step_idle empty, ?_, fun held => ?_, fun running rising i => ?_, fun running => (State.idle_late running).2.2, s.idle_only⟩
  · cases h : s.rst.active with
    | some r => rw [s.idle_held (by simp [h])]
    | none => exact (State.idle_late h).1
  · rw [s.idle_held held]
    intro p hp
    cases p <;> first | (exfalso; revert hp; decide) | rfl
  · have nominal : [18, 5, 20, 20, 16, 16].getD i 0 = cyclesPerPeriod (i + 1) ∧ 1 ≤ cyclesPerPeriod (i + 1) := by revert i; decide
    obtain ⟨low, high⟩ := State.cyclesNow_near { s with now := s.now + 1 } nominal.2
    refine ⟨_, _, nominal.1.symm, low, high, ?_⟩
    rw [(State.idle_late running).2.1]
    exact State.advanceAll_get [1, 2, 3, 4, 5, 6] (by decide) ((by decide : ∀ i : Fin 6, i.val + 1 ∈ [1, 2, 3, 4, 5, 6]) i) (s := { s with now := s.now + 1 }) rising

/-! The security state in flash. -/

/-- A period changes of the flash the repair record alone, and nothing of the boot state. -/
theorem State.idle_secured (s : State) : Secured s s.idle := .of_repaired s.idle_repaired (s.idle_only .boot (by decide))

/-- What a step does to the counters and the soundness of the boot state. -/
theorem step_tight {s t : State} (h : step s = .next t) : Tight s t ∧ (s.BootSound → t.BootSound) ∧
    ((s.flash.oos = true → t.flash.oos = true) ∨ ∃ f rest, s.pending = .clearOutOfService f :: rest) := by
  rcases step_cases h with ⟨-, rfl⟩ | ⟨c, rest, front, run⟩
  · have idle := s.idle_secured
    exact ⟨idle.tight, idle.sound, .inl fun o => idle.parts.2.2.2.1 ▸ o⟩
  · obtain ⟨tight, sound, latch⟩ := exec_tight run
    refine ⟨tight, sound, latch.imp_right ?_⟩
    rintro ⟨f, rfl⟩
    exact ⟨f, rest, front⟩

/-- Settles O58: a period leaves the security state, and a command tightens it, CLEAR_OUT_OF_SERVICE apart. -/
theorem securityStateInFlashOnlyTightens : Obligations.security_state_in_flash_only_tightens := by
  intro s t h
  obtain ⟨⟨svn, cfg, key, revoke, moved⟩, -, latch⟩ := step_tight h
  refine ⟨svn, cfg, key, fun i k => by rw [revoke]; exact k, moved, fun o => ?_⟩
  rcases latch with stays | cleared
  · exact .inl (stays o)
  · exact .inr cleared

/-- Settles O59: the boot invariant is one of the facts that every step keeps. -/
theorem noImageBelowItsCounterEverRuns : Obligations.no_image_below_its_counter_ever_runs :=
  fun _ _ sound h => (step_tight h).2.1 sound

/-- Settles O60: nothing runs and nothing is logged at reset. -/
theorem theResetStateIsBootSound : Obligations.the_reset_state_is_boot_sound := by
  refine ⟨fun c h => ?_, fun c h => ?_, by decide, by decide⟩ <;> cases h

end Sys2Proof.Machine
end

section
/-!
PROOF. A packet survives its flits (R407, R419): O36.
-/
namespace Sys2Proof.Machine

/-- The 32 bytes before the payload. -/
def packetHeader (p : Packet) : List Byte :=
  leBytes 2 p.dst.toNat ++ leBytes 2 p.src.toNat ++ leBytes 1 (p.vc.val * 32 + p.type.toNat) ++ leBytes 1 (bit p.isLocal)
    ++ leBytes 2 p.payload.length ++ leBytes 2 p.job.toNat ++ leBytes 2 p.ctx.toNat ++ leBytes 1 p.hops.toNat ++ leBytes 3 0
    ++ leBytes 4 p.bucket.toNat ++ leBytes 4 p.step.toNat ++ leBytes 8 p.arg.toNat

theorem packetBytes_eq (p : Packet) : packetBytes p = packetHeader p ++ p.payload := rfl

theorem length_packetHeader (p : Packet) : (packetHeader p).length = 32 := by simp [packetHeader]

theorem length_packetBytes (p : Packet) : (packetBytes p).length = 32 + p.payload.length := by
  rw [packetBytes_eq, List.length_append, length_packetHeader]

/-- Each field of the header reads back as it was written, whatever follows the header. -/
theorem fieldAt_packetHeader (p : Packet) (z : List Byte) :
    fieldAt (packetHeader p ++ z) 0 2 = p.dst.toNat % 256 ^ 2 ∧ fieldAt (packetHeader p ++ z) 2 2 = p.src.toNat % 256 ^ 2 ∧
    fieldAt (packetHeader p ++ z) 4 1 = (p.vc.val * 32 + p.type.toNat) % 256 ^ 1 ∧ fieldAt (packetHeader p ++ z) 5 1 = bit p.isLocal % 256 ^ 1 ∧
    fieldAt (packetHeader p ++ z) 6 2 = p.payload.length % 256 ^ 2 ∧ fieldAt (packetHeader p ++ z) 8 2 = p.job.toNat % 256 ^ 2 ∧
    fieldAt (packetHeader p ++ z) 10 2 = p.ctx.toNat % 256 ^ 2 ∧ fieldAt (packetHeader p ++ z) 12 1 = p.hops.toNat % 256 ^ 1 ∧
    fieldAt (packetHeader p ++ z) 16 4 = p.bucket.toNat % 256 ^ 4 ∧ fieldAt (packetHeader p ++ z) 20 4 = p.step.toNat % 256 ^ 4 ∧
    fieldAt (packetHeader p ++ z) 24 8 = p.arg.toNat % 256 ^ 8 := by
  simp only [packetHeader, List.append_assoc]
  refine ⟨?_, ?_, ?_, ?_, ?_, ?_, ?_, ?_, ?_, ?_, ?_⟩ <;>
    simp (disch := decide) only [fieldAt_next, fieldAt_head, Nat.reduceSub]

/-- Bytes that are wide enough hold a word whole. -/
theorem ofNat_toNat_mod {n : Nat} (x : BitVec n) (k : Nat) (h : n ≤ 8 * k) : BitVec.ofNat n (x.toNat % 256 ^ k) = x := by
  have wide : 2 ^ n ≤ 256 ^ k := by
    rw [show (256 : Nat) = 2 ^ 8 from rfl, ← Nat.pow_mul]
    exact Nat.pow_le_pow_right (by decide) h
  rw [Nat.mod_eq_of_lt (Nat.lt_of_lt_of_le x.isLt wide), BitVec.ofNat_toNat, BitVec.setWidth_eq]

/-- The packet is read back from its bytes, whatever pads them. -/
theorem packetOf_packetBytes {p : Packet} (h : p.payload.length ≤ 4096) (z : List Byte) : packetOf (packetBytes p ++ z) = p := by
  rw [packetBytes_eq, List.append_assoc]
  obtain ⟨dst, src, kind, local_, len, job, ctx, hops, bucket, step, arg⟩ := fieldAt_packetHeader p (p.payload ++ z)
  have len' : fieldAt (packetHeader p ++ (p.payload ++ z)) 6 2 = p.payload.length := by rw [len]; omega
  have kind' : fieldAt (packetHeader p ++ (p.payload ++ z)) 4 1 = p.vc.val * 32 + p.type.toNat := by
    rw [kind]
    have := p.vc.isLt
    have := p.type.isLt
    omega
  have tail : (packetHeader p ++ (p.payload ++ z)).drop 32 = p.payload ++ z := by
    rw [List.drop_append_of_le_length (Nat.le_of_eq (length_packetHeader p).symm), List.drop_eq_nil_of_le (Nat.le_of_eq (length_packetHeader p)),
      List.nil_append]
  simp only [packetOf, dst, src, kind', local_, len', job, ctx, hops, bucket, step, arg, tail, List.take_left]
  have vc' : (p.vc.val * 32 + p.type.toNat) / 32 % 8 = p.vc.val := by omega
  have type' : BitVec.ofNat 5 (p.vc.val * 32 + p.type.toNat) = p.type := by bv_omega
  have local' : (bit p.isLocal % 256 ^ 1 % 2 == 1) = p.isLocal := by cases p.isLocal <;> rfl
  simp (disch := decide) only [vc', type', local', ofNat_toNat_mod]

/-! The flits. -/

theorem flitsOf_covers (p : Packet) : (packetBytes p).length ≤ 244 * flitsOf p := by
  rw [length_packetBytes, flitsOf, ceilDiv]
  omega

theorem length_flitsOfPacket (p : Packet) : (flitsOfPacket p).length = flitsOf p := by simp [flitsOfPacket]

theorem flatMap_body_flitsOfPacket (p : Packet) : (flitsOfPacket p).flatMap (fun f => f.body) = (bodies (flitsOf p) (packetBytes p)).flatten := by
  have bodiesOnly : (flitsOfPacket p).map Sent.body = bodies (flitsOf p) (packetBytes p) := by
    unfold flitsOfPacket
    rw [List.map_map]
    exact List.map_fst_zip (by simp)
  rw [← bodiesOnly]
  rfl

theorem getElem_flitsOfPacket (p : Packet) (i : Nat) (h : i < (flitsOfPacket p).length) :
    (flitsOfPacket p)[i] = { seq := 0, vc := p.vc.val, sop := i == 0, eop := i + 1 == flitsOf p,
                             body := (bodies (flitsOf p) (packetBytes p))[i]'(by rw [length_bodies, ← length_flitsOfPacket]; exact h) } := by
  simp [flitsOfPacket]

/-- Settles O36: the bodies of the flits are the packet's bytes behind each other, padded, and the packet reads back from them. -/
theorem packetsSurviveTheirFlits : Obligations.packets_survive_their_flits := by
  intro p h
  refine ⟨?_, length_flitsOfPacket p, fun i hi => ?_⟩
  · obtain ⟨k, padded⟩ := flatten_bodies (flitsOf p) (packetBytes p) (flitsOf_covers p)
    rw [flatMap_body_flitsOfPacket, padded]
    exact packetOf_packetBytes h _
  · rw [getElem_flitsOfPacket p i hi]
    exact ⟨length_of_mem_bodies (List.getElem_mem _), rfl, by simp, by simp⟩

end Sys2Proof.Machine
end

section
/-!
PROOF. An engine's operation on a synchronisation object that nobody waits on (R361-R363): O8.
-/
namespace Sys2Proof.Machine

/-! Reading an object back. -/

theorem Sync.obj_setObj_self {y : Sync} (r : Tab.rising y.objs = true) (o : Nat) (x : SyncObj) : (y.setObj o x).obj o = x :=
  Tab.get_set_self _ r o x
theorem Sync.obj_setObj_ne (y : Sync) {o p : Nat} (h : o ≠ p) (x : SyncObj) : (y.setObj o x).obj p = y.obj p :=
  Tab.get_set_ne _ y.objs x h
theorem Sync.setObj_rising {y : Sync} (r : Tab.rising y.objs = true) (o : Nat) (x : SyncObj) : Tab.rising (y.setObj o x).objs = true :=
  Tab.rising_set (bg := fun _ => SyncObj.reset) r o x

/-! One round of examining. -/

theorem Sync.run_nil (n : Nat) (y : Sync) : Sync.run n [] y = y := by cases n <;> rfl

theorem Sync.run_of_empty {y : Sync} {o : Nat} (h : (y.obj o).queue = []) (n : Nat) : Sync.run (n + 2) [o] y = y := by
  simp [Sync.run, h]

theorem Sync.examine_of_empty {y : Sync} {o : Nat} (h : (y.obj o).queue = []) : y.examine [o] = y :=
  Sync.run_of_empty h _

section
variable {y : Sync} {o i : Nat} {n : Word} {takes : Bool} (alone : (y.obj o).queue = [⟨.engine i, n, takes⟩])
include alone

/-- An engine's wait that stands alone and whose count is there completes. -/
theorem Sync.examine_of_satisfied (r : Tab.rising y.objs = true) (h : n.toNat ≤ (y.obj o).count.toNat) :
    y.examine [o] = { y.setObj o { y.obj o with count := if takes then (y.obj o).count - n else (y.obj o).count, queue := [] } with
      done := y.done ++ [.engine i] } := by
  have enough : ¬ (y.obj o).count < n := fun l => Nat.not_lt.mpr h (BitVec.lt_def.mp l)
  obtain ⟨m, hm⟩ : ∃ m, y.fuel + [o].length = m + 3 := ⟨y.fuel - 2, by
    have fuel : 3 ≤ y.fuel := Nat.succ_le_succ (Nat.mul_le_mul (Nat.le_add_left 1 _) (Nat.le_add_left 2 _))
    simp only [List.length_singleton]
    omega⟩
  rw [Sync.examine, hm, Sync.run]
  simp only [alone, enough, if_false]
  exact Sync.run_of_empty (congrArg SyncObj.queue (Sync.obj_setObj_self r o _)) m

/-- One whose count is not there stays. -/
theorem Sync.examine_of_unsatisfied (h : (y.obj o).count.toNat < n.toNat) : y.examine [o] = y := by
  have short : (y.obj o).count < n := BitVec.lt_def.mpr h
  simp [Sync.examine, Sync.run, Sync.run_nil, alone, short]

end

/-! An operation on an object with an empty queue. -/

section
variable {s : State} {o : Nat} (idle : (s.obj o).queue = [])
include idle

theorem State.signal_of_idle (r : Tab.rising s.sync.objs = true) (n : Word) :
    s.signal o n = { s with sync := s.sync.setObj o ((s.obj o).signal n) } := by
  have empty : ((s.sync.setObj o ((s.obj o).signal n)).obj o).queue = [] := by
    rw [Sync.obj_setObj_self r, SyncObj.signal]
    split <;> exact idle
  unfold State.signal
  exact congrArg (fun y => { s with sync := y }) (Sync.examine_of_empty empty)

theorem State.setSync_of_idle (r : Tab.rising s.sync.objs = true) (v : Word) :
    s.setSync o v = { s with sync := s.sync.setObj o { s.obj o with count := v, sat := false } } := by
  have empty : ((s.sync.setObj o { s.obj o with count := v, sat := false }).obj o).queue = [] := by
    rw [Sync.obj_setObj_self r]
    exact idle
  unfold State.setSync
  exact congrArg (fun y => { s with sync := y }) (Sync.examine_of_empty empty)

end

/-- The objects with an engine's wait alone in the queue of one of them. -/
def State.queued (s : State) (o : Nat) (n : Word) (takes : Bool) : Sync :=
  s.sync.setObj o { s.obj o with queue := [⟨.engine s.fresh, n, takes⟩] }

theorem State.enqueue_of_idle {s : State} {o : Nat} (idle : (s.obj o).queue = []) (n : Word) (takes : Bool) :
    s.enqueue [(o, ⟨.engine s.fresh, n, takes⟩)] = { s with sync := (s.queued o n takes).examine [o] } := by
  have queue : (s.sync.obj o).queue = [] := idle
  simp only [State.enqueue, State.queued, List.foldl_cons, List.foldl_nil, List.map_cons, List.map_nil, queue, List.nil_append]
  rfl

/-- A wait whose count is there: done at once, and the object is what the wait leaves. -/
theorem State.examine_queued_of_satisfied {s : State} {o : Nat} (r : Tab.rising s.sync.objs = true) (idle : (s.obj o).queue = []) (n : Word) (takes : Bool)
    (h : n.toNat ≤ (s.obj o).count.toNat) :
    ((s.queued o n takes).examine [o]).done = s.sync.done ++ [.engine s.fresh] ∧
    (∀ p, o ≠ p → ((s.queued o n takes).examine [o]).obj p = s.obj p) ∧
    ((s.queued o n takes).examine [o]).obj o = { s.obj o with count := if takes then (s.obj o).count - n else (s.obj o).count } := by
  have self : (s.queued o n takes).obj o = { s.obj o with queue := [⟨.engine s.fresh, n, takes⟩] } := Sync.obj_setObj_self r o _
  have rising : Tab.rising (s.queued o n takes).objs = true := Sync.setObj_rising r o _
  rw [Sync.examine_of_satisfied (i := s.fresh) (n := n) (takes := takes) (by rw [self]) rising (by rw [self]; exact h), self]
  refine ⟨rfl, fun p hp => (Sync.obj_setObj_ne _ hp _).trans (Sync.obj_setObj_ne _ hp _), (Sync.obj_setObj_self rising o _).trans ?_⟩
  rw [← idle]

/-- A wait whose count is not there: it has joined the queue. -/
theorem State.examine_queued_of_unsatisfied {s : State} {o : Nat} (r : Tab.rising s.sync.objs = true) (n : Word) (takes : Bool) (h : (s.obj o).count.toNat < n.toNat) :
    (s.queued o n takes).examine [o] = s.queued o n takes := by
  have self : (s.queued o n takes).obj o = { s.obj o with queue := [⟨.engine s.fresh, n, takes⟩] } := Sync.obj_setObj_self r o _
  exact Sync.examine_of_unsatisfied (i := s.fresh) (n := n) (takes := takes) (by rw [self]) (by rw [self]; exact h)

theorem ChangesOnly.sync (s : State) (y : Sync) : ChangesOnly [.sync] s { s with sync := y } := by
  intro p hp
  cases p <;> first | (exfalso; revert hp; decide) | rfl

theorem exec_signal {s : State} (h : s.Live) (b : SyncBy) : exec (.signal b) s = .next (s.settle (signal b s)) := live_of h.1 h.2 _
theorem exec_set {s : State} (h : s.Live) (b : SyncBy) : exec (.set b) s = .next (s.settle (set b s)) := live_of h.1 h.2 _

/-- An engine's wait on an idle object. -/
theorem exec_wait_of_idle {s : State} (h : s.Live) (o : Fin 16384) (n : Word) (idle : (s.obj o).queue = []) : exec (.wait (.engine o n)) s =
    .next { s with sync := (s.queued o n true).examine [o.val], fresh := s.fresh + 1 } := by
  show live s (fun s => (s.enqueue [(o.val, ⟨.engine s.fresh, n, true⟩)]).tick) = _
  rw [live_of h.1 h.2, State.enqueue_of_idle idle]
  rfl

theorem exec_waitGe_of_idle {s : State} (h : s.Live) (o : Fin 16384) (n : Word) (idle : (s.obj o).queue = []) : exec (.waitGe (.engine o n)) s =
    .next { s with sync := (s.queued o n false).examine [o.val], fresh := s.fresh + 1 } := by
  show live s (fun s => (s.enqueue [(o.val, ⟨.engine s.fresh, n, false⟩)]).tick) = _
  rw [live_of h.1 h.2, State.enqueue_of_idle idle]
  rfl

theorem ChangesOnly.sync_fresh (s : State) (y : Sync) (n : Nat) : ChangesOnly [.sync, .fresh] s { s with sync := y, fresh := n } := by
  intro p hp
  cases p <;> first | (exfalso; revert hp; decide) | rfl

/-- Settles O8: SIGNAL and SET rewrite the idle object; a wait stands alone in its queue, and completes or stays by its count. -/
theorem syncObjectsCountAndWait : Obligations.sync_objects_count_and_wait := by
  intro s o n live r idle
  refine ⟨?_, ?_, fun h => ?_, fun h => ?_, fun h => ?_⟩
  · refine ⟨_, exec_signal live _, ?_⟩
    rw [signal, State.signal_of_idle idle r, settle_only (.sync s _) (by decide)]
    refine ⟨.sync s _, rfl, fun p hp => Sync.obj_setObj_ne _ hp _, (Sync.obj_setObj_self r _ _).trans ?_⟩
    rfl
  · refine ⟨_, exec_set live _, ?_⟩
    rw [set, State.setSync_of_idle idle r, settle_only (.sync s _) (by decide)]
    exact ⟨.sync s _, rfl, fun p hp => Sync.obj_setObj_ne _ hp _, Sync.obj_setObj_self r _ _⟩
  · obtain ⟨done, others, self⟩ := State.examine_queued_of_satisfied r idle n true h
    exact ⟨_, exec_wait_of_idle live o n idle, .sync_fresh s _ _, done, others, self⟩
  · obtain ⟨done, others, self⟩ := State.examine_queued_of_satisfied r idle n false h
    refine ⟨_, exec_waitGe_of_idle live o n idle, .sync_fresh s _ _, done, fun p => ?_⟩
    by_cases e : o.val = p
    · subst e
      exact self
    · exact others p e
  · rw [exec_wait_of_idle live o n idle, State.examine_queued_of_unsatisfied r n true h]
    exact ⟨_, rfl, .sync_fresh s _ _, rfl, fun p hp => Sync.obj_setObj_ne _ hp _, Sync.obj_setObj_self r _ _⟩

end Sys2Proof.Machine
end

section
/-!
PROOF. Admin requests are verified before they act (R351, R575-R578, R592): O17.
-/
namespace Sys2Proof.Machine

/-! Serving a request that is for this module, or for another one of the tray. -/

/-- A request for another tray position is forwarded by the tray master, and passes any other module by. -/
theorem State.serveAdmin_elsewhere {s : State} {pos : Fin 4} {d p : List Byte} (h : ¬ s.Addressed (.mctp pos d p)) (op : Nat) (ok : AdminReq → Bool)
    (act : AdminReq → State → State) : s.serveAdmin (.mctp pos d p) op ok act =
      if s.boot.masterSel then s.sendOut (.sideband (0x60 + pos.val) (padTo 64 d ++ p)) else s := by
  have ne : pos.val ≠ s.boot.trayPos.toNat := h
  have arrives : s.arriveAdmin (.mctp pos d p) = if s.boot.masterSel then s.sendOut (.sideband (0x60 + pos.val) (padTo 64 d ++ p)) else s := by
    simp only [State.arriveAdmin, State.mctp, if_neg ne]
  unfold State.serveAdmin
  simp only [bne_iff_ne.mpr ne, if_true, arrives, Bool.true_or]
  split <;> rfl

/-- A request with a known operation that has reached the front is not cleared away. -/
theorem State.clearUnknown_of_known {u : State} {q : AdminReq} (front : u.hif.adminQ.head? = some q) (known : opKnown q.op = true) (n : Nat) :
    State.clearUnknown n u = u := by
  cases n with
  | zero => rfl
  | succ n =>
    cases hq : u.hif.adminQ with
    | nil => simp [hq] at front
    | cons x l =>
      obtain rfl : x = q := by simpa [hq] using front
      simp [State.clearUnknown, hq, known]

/-- The front request of operation `op` is checked, and acted on where it passes. -/
theorem State.serveAdmin_front {s : State} {f : AdminFrom} {op : Nat} {q : AdminReq} (here : s.Addressed f)
    (front : (s.arriveAdmin f).hif.adminQ.head? = some q) (e : q.op = op) (known : opKnown op = true) (free : (s.arriveAdmin f).adminBusy = false)
    (ok : AdminReq → Bool) (act : AdminReq → State → State) : s.serveAdmin f op ok act =
      if ((s.arriveAdmin f).popAdmin.checkAdmin q).2 then
        if ok q then act q ((s.arriveAdmin f).popAdmin.checkAdmin q).1 else ((s.arriveAdmin f).popAdmin.checkAdmin q).1.answerAdmin q 4 []
      else ((s.arriveAdmin f).popAdmin.checkAdmin q).1 := by
  unfold State.serveAdmin
  generalize s.arriveAdmin f = v at front free ⊢
  extract_lets elsewhere v0 w
  have he : elsewhere = false := by
    cases f with
    | queued => rfl
    | mctp pos d p => simp [elsewhere, show pos.val = s.boot.trayPos.toNat from here]
  have hw : w = v := by
    simp only [w, v0, he, Bool.false_eq_true, if_false]
    exact State.clearUnknown_of_known front (e ▸ known) _
  rw [hw]
  cases hq : v.hif.adminQ with
  | nil => simp [hq] at front
  | cons x l =>
    obtain rfl : x = q := by simpa [hq] using front
    simp only [he, e, free, bne_self_eq_false, Bool.or_self, Bool.false_eq_true, if_false]
    cases hc : v.popAdmin.checkAdmin x with
    | mk u b => cases b <;> simp

section
variable {v : State} {q : AdminReq} (other : q.op ≠ 1)

theorem State.checkAdmin_of_locked (h : v.lockedOut q.transport = true) :
    v.checkAdmin q = ({ v with sec := { v.sec with refused := if v.sec.refused + 1 = 0 then v.sec.refused else v.sec.refused + 1 } }, false) := by
  simp only [State.checkAdmin, h, if_true]

include other

theorem State.checkAdmin_of_unverified {reason : Nat} (h : v.lockedOut q.transport = false) (k : v.verifyFail q = some reason) :
    v.checkAdmin q = (v.sessionFailure q reason q.session, false) := by
  simp [State.checkAdmin, h, other, k]

theorem State.checkAdmin_of_unaccepted (h : v.lockedOut q.transport = false) (k : v.verifyFail q = none)
    (bad : q.descOk = false ∨ opAccepted q.op q.transport = false ∨ 4096 < q.plen) :
    v.checkAdmin q = ((v.advanceSeq q).answerAdmin q 4 [], false) := by
  have bad' : (!q.descOk || !opAccepted q.op q.transport || decide (4096 < q.plen)) = true := by
    simpa [or_assoc] using bad
  simp [State.checkAdmin, h, other, k, bad']

end

/-! What disposing of a request can change. -/

theorem State.arriveAdmin_only {s : State} {f : AdminFrom} (h : s.Addressed f) : ChangesOnly [.hif] s (s.arriveAdmin f) := by
  cases f with
  | queued => exact .refl _ s
  | mctp pos d p =>
    simp only [State.arriveAdmin, State.mctp, if_pos (show pos.val = s.boot.trayPos.toNat from h)]
    exact .hif s _

theorem State.popAdmin_only (s : State) : ChangesOnly [.hif] s s.popAdmin := .hif s _

theorem ChangesOnly.sec (s : State) (x : Sec) : ChangesOnly [.sec] s { s with sec := x } := by
  intro p hp
  cases p <;> first | (exfalso; revert hp; decide) | rfl

theorem State.rejectSession_only (s : State) (q : AdminReq) (reason n : Nat) :
    ChangesOnly [.mem, .hif, .out, .pldm, .pins] s (s.rejectSession q reason n) := (s.raise0_raised _ _ _).only

theorem State.sessionFailure_only (s : State) (q : AdminReq) (reason n : Nat) :
    ChangesOnly [.mem, .hif, .out, .pldm, .pins, .sec] s (s.sessionFailure q reason n) := by
  unfold State.sessionFailure
  extract_lets t n' z u
  have failed : ChangesOnly [.mem, .hif, .out, .pldm, .pins, .sec] s u :=
    ((ChangesOnly.sec s _).mono (by decide)).trans ((State.rejectSession_only _ q _ _).mono (by decide))
  split
  · exact failed
  · exact failed.trans (((ChangesOnly.sec u _).mono (by decide)).trans ((State.rejectSession_only _ q _ _).mono (by decide)))

theorem State.advanceSeq_only (s : State) (q : AdminReq) : ChangesOnly [.sec] s (s.advanceSeq q) := by
  unfold State.advanceSeq
  split
  · exact .sec s _
  · exact .refl _ s

/-- The instructions of the admin operations but OPEN_SESSION serve their operation, which is a known one. -/
theorem exec_admin {f : AdminFrom} {i : Instr} {op : Nat} (h : (op, i) ∈ ([(0x02, .closeSession f), (0x03, .ringCreate f),
      (0x04, .ringDelete f), (0x10, .reset f), (0x11, .clearRepair f), (0x12, .clearOutOfService f), (0x13, .marginReplan f), (0x20, .clipCoeff f),
      (0x30, .assignDevid f), (0x31, .routeWrite f), (0x32, .planInstall f), (0x33, .planRemove f), (0x34, .stepAbort f), (0x35, .revert f)] :
      List (Nat × Instr))) :
    op ≠ 1 ∧ opKnown op = true ∧ ∃ ok act, ∀ s, exec i s = liveMp s fun s => s.serveAdmin f op ok act := by
  simp only [List.mem_cons, Prod.mk.injEq, List.not_mem_nil, or_false] at h
  rcases h with ⟨rfl, rfl⟩ | ⟨rfl, rfl⟩ | ⟨rfl, rfl⟩ | ⟨rfl, rfl⟩ | ⟨rfl, rfl⟩ | ⟨rfl, rfl⟩ | ⟨rfl, rfl⟩ | ⟨rfl, rfl⟩ | ⟨rfl, rfl⟩ | ⟨rfl, rfl⟩ |
      ⟨rfl, rfl⟩ | ⟨rfl, rfl⟩ | ⟨rfl, rfl⟩ | ⟨rfl, rfl⟩ <;>
    exact ⟨by decide, by decide, _, _, fun s => rfl⟩

/-- An effect of the management processor that leaves the queue, the time, the straps and the test logic is whole. -/
theorem liveMp_of_only {l : List Part} {s t : State} (h : s.Live) {f : State → State} (e : f s = t) (k : ChangesOnly l s t)
    (hl : ∀ p ∈ [Part.pending, .now, .strapped, .tap], p ∉ l) : liveMp s f = .next t := by
  rw [liveMp_of h.1 h.2, e, liveMp_frame k hl]

/-- Settles O17: a request for another module is forwarded or ignored; one for this module is checked first, and each failed check disposes of it
in its own way. -/
theorem adminRequestsAreVerifiedFirst : Obligations.admin_requests_are_verified_first := by
  intro s f i op live mem
  obtain ⟨other, known, ok, act, run⟩ := exec_admin mem
  refine ⟨?_, fun q here front e free => ⟨_, rfl, fun locked => ?_, fun reason unlocked unverified => ?_, fun unlocked verified bad => ?_⟩⟩
  · rintro pos d p rfl away
    rw [run]
    refine liveMp_of_only (l := [.out]) live (State.serveAdmin_elsewhere away op ok act) ?_ (by decide)
    split
    · exact s.sendOut_only _
    · exact .refl _ s
  all_goals
    have served := State.serveAdmin_front here front e known free ok act
    have popped : ChangesOnly [.hif] s (s.arriveAdmin f).popAdmin := (State.arriveAdmin_only here).trans (State.popAdmin_only _)
    subst e
    rw [run]
  · rw [State.checkAdmin_of_locked locked] at served
    exact liveMp_of_only (l := [.hif, .sec]) live served ((popped.mono (by decide)).trans ((ChangesOnly.sec _ _).mono (by decide))) (by decide)
  · rw [State.checkAdmin_of_unverified other unlocked unverified] at served
    exact liveMp_of_only (l := [.mem, .hif, .out, .pldm, .pins, .sec]) live served
      ((popped.mono (by decide)).trans (State.sessionFailure_only _ _ _ _)) (by decide)
  · rw [State.checkAdmin_of_unaccepted other unlocked verified bad] at served
    exact liveMp_of_only (l := [.mem, .hif, .out, .pldm, .pins, .fab, .sec]) live served
      (((popped.mono (by decide)).trans ((State.advanceSeq_only _ q).mono (by decide))).trans ((State.answerAdmin_only _ q 4 []).mono (by decide)))
      (by decide)

end Sys2Proof.Machine
end

section
/-!
PROOF. The scrub of an array between contexts (R386): O20.
-/
namespace Sys2Proof.Machine

/-- Does one of some ranges hold an offset? -/
def Covers (l : List (Nat × Nat)) (o : Nat) : Prop := ∃ r ∈ l, r.1 ≤ o ∧ o < r.2

theorem covers_withoutRange (l : List (Nat × Nat)) (lo hi o : Nat) : Covers (withoutRange l lo hi) o ↔ Covers l o ∧ ¬ (lo ≤ o ∧ o < hi) := by
  have one (r : Nat × Nat) : Covers (if hi ≤ r.1 ∨ r.2 ≤ lo then [r] else (if r.1 < lo then [(r.1, lo)] else []) ++ (if hi < r.2 then [(hi, r.2)] else [])) o
      ↔ (r.1 ≤ o ∧ o < r.2) ∧ ¬ (lo ≤ o ∧ o < hi) := by
    unfold Covers
    split_ifs <;> simp <;> omega
  unfold withoutRange
  constructor
  · rintro ⟨x, hx, k⟩
    obtain ⟨r, hr, hx⟩ := List.mem_flatMap.mp hx
    obtain ⟨inside, outside⟩ := (one r).mp ⟨x, hx, k⟩
    exact ⟨⟨r, hr, inside⟩, outside⟩
  · rintro ⟨⟨r, hr, inside⟩, outside⟩
    obtain ⟨x, hx, k⟩ := (one r).mpr ⟨inside, outside⟩
    exact ⟨x, List.mem_flatMap.mpr ⟨r, hr, hx⟩, k⟩

/-- What is left of ranges once every range of a list is taken out. -/
theorem covers_foldl_withoutRange (ps l : List (Nat × Nat)) (o : Nat) :
    Covers (ps.foldl (fun l p => withoutRange l p.1 p.2) l) o ↔ Covers l o ∧ ∀ p ∈ ps, ¬ (p.1 ≤ o ∧ o < p.2) := by
  induction ps generalizing l with
  | nil => simp
  | cons p ps ih => rw [List.foldl_cons, ih, covers_withoutRange, List.forall_mem_cons, and_assoc]

/-- Ranges set to 0 read as what is unlisted, and every other byte as before. -/
theorem Memory.read_foldl_zero (b : Nat) (rs : List (Nat × Nat)) (m : Memory) (k : Nat) :
    (rs.foldl (fun (m : Memory) p => m.zero (b + p.1) (b + p.2)) m).read k =
      if ∃ r ∈ rs, b + r.1 ≤ k ∧ k < b + r.2 then m.bg k else m.read k := by
  induction rs generalizing m with
  | nil => simp
  | cons r rs ih =>
    rw [List.foldl_cons, ih, Memory.bg_zero, Memory.read_zero]
    by_cases later : ∃ r ∈ rs, b + r.1 ≤ k ∧ k < b + r.2 <;> simp [later]

/-- What is free of partitions in the scratchpad of an array. -/
def State.freeOn (s : State) (a : Nat) : List (Nat × Nat) := (s.partitionsOn a).foldl (fun l p => withoutRange l p.1 p.2) [(0, 0x300_0000)]

theorem State.covers_freeOn (s : State) (a o : Nat) :
    Covers (s.freeOn a) o ↔ o < 0x300_0000 ∧ ∀ p ∈ s.partitionsOn a, ¬ (p.1 ≤ o ∧ o < p.2) := by
  unfold State.freeOn
  rw [covers_foldl_withoutRange]
  simp [Covers]

/-- Memory once an array has been scrubbed. -/
def State.scrubbed (s : State) (a : Nat) : Memory :=
  (s.freeOn a).foldl (fun (m : Memory) p => m.zero (windowBase a + p.1) (windowBase a + p.2))
    (s.mem.zero (windowBase a + 0x300_0000) (windowBase a + 0x400_0000))

/-- What is free reads as what is unlisted, the banks too, and everything else as before. -/
theorem State.read_scrubbed (s : State) (a k : Nat) : (s.scrubbed a).read k =
    if (∃ r ∈ s.freeOn a, windowBase a + r.1 ≤ k ∧ k < windowBase a + r.2) ∨ (windowBase a + 0x300_0000 ≤ k ∧ k < windowBase a + 0x400_0000)
    then s.mem.bg k else s.mem.read k := by
  rw [State.scrubbed, Memory.read_foldl_zero, Memory.bg_zero, Memory.read_zero]
  by_cases free : ∃ r ∈ s.freeOn a, windowBase a + r.1 ≤ k ∧ k < windowBase a + r.2 <;> simp [free]

/-- A byte that is neither free nor in a bank reads as before. -/
theorem State.read_scrubbed_of_kept (s : State) (a k : Nat) (bank : ¬ (windowBase a + 0x300_0000 ≤ k ∧ k < windowBase a + 0x400_0000))
    (kept : ∀ o, k = windowBase a + o → ¬ Covers (s.freeOn a) o) : (s.scrubbed a).read k = s.mem.read k := by
  rw [State.read_scrubbed, if_neg]
  rintro (⟨r, hr, inside⟩ | h)
  · exact kept (k - windowBase a) (by omega) ⟨r, hr, by omega⟩
  · exact bank h

/-- The end of the scrub of an array that is scrubbing. -/
theorem arrayScrubDone_of_scrubbing {s : State} {a : Nat} (h : (s.array a).scrubbing = true) :
    arrayScrubDone a s = State.setArray { s with mem := s.scrubbed a } a { s.array a with scrubbing := false } := by
  simp only [arrayScrubDone, h, Bool.not_true, Bool.false_eq_true, if_false]
  rfl

theorem ChangesOnly.mem (s : State) (m : Memory) : ChangesOnly [.mem] s { s with mem := m } := by
  intro p hp
  cases p <;> first | (exfalso; revert hp; decide) | rfl

/-- Settles O20: what is scrubbed is both banks and the ranges that no partition holds. -/
theorem arrayScrubZeroesAllButPartitions : Obligations.array_scrub_zeroes_all_but_partitions := by
  intro s a live scrubbing
  have only : ChangesOnly [.mem, .arrays] s (State.setArray { s with mem := s.scrubbed a } a { s.array a with scrubbing := false }) :=
    ((ChangesOnly.mem s _).mono (by decide)).trans ((State.setArray_only _ _ _).mono (by decide))
  refine ⟨_, (live_of live.1 live.2 _).trans ?_, only, fun rising => ?_, fun k lo hi => ?_, fun o inside free => ?_, ?_, ?_⟩
  · rw [arrayScrubDone_of_scrubbing scrubbing, settle_only only (by decide)]
  · exact congrArg ArrayUnit.scrubbing (State.array_setArray_self { s with mem := s.scrubbed a } _ rising)
  · exact (s.read_scrubbed a k).trans (if_pos (.inr ⟨lo, hi⟩))
  · obtain ⟨r, hr, held⟩ := (s.covers_freeOn a o).mpr ⟨inside, free⟩
    exact (s.read_scrubbed a _).trans (if_pos (.inl ⟨r, hr, by omega⟩))
  · rintro o inside ⟨p, hp, held⟩
    refine s.read_scrubbed_of_kept a _ (by omega) fun o' e covered => ?_
    obtain rfl : o = o' := by omega
    exact ((s.covers_freeOn a o).mp covered).2 p hp held
  · intro k outside
    refine s.read_scrubbed_of_kept a k (by omega) fun o e covered => ?_
    have := ((s.covers_freeOn a o).mp covered).1
    omega

end Sys2Proof.Machine
end

section
/-!
PROOF. HBM requests take effect at acceptance (R15, R275, R277, R281, R282): O25.
-/
namespace Sys2Proof.Machine

/-! What a write's acceptance reaches. -/

theorem State.snoop_dsc (s : State) (a n : Nat) : ∃ d, s.snoop a n = { s with dsc := d } := by
  unfold State.snoop
  split
  · exact ⟨s.dsc, rfl⟩
  · extract_lets d hit hits pre bump lines
    split
    · exact ⟨s.dsc, rfl⟩
    · exact ⟨_, rfl⟩

/-- Only HBM's own state differs, and no stack of it. -/
def SameStacks (s t : State) : Prop := ∃ h, t = { s with hbm := h } ∧ h.stk = s.hbm.stk

theorem SameStacks.refl (s : State) : SameStacks s s := ⟨s.hbm, rfl, rfl⟩
theorem SameStacks.trans {s t u : State} (h : SameStacks s t) (k : SameStacks t u) : SameStacks s u := by
  obtain ⟨x, rfl, hx⟩ := h
  obtain ⟨y, rfl, hy⟩ := k
  exact ⟨y, rfl, hy.trans hx⟩

theorem State.cleanWhole_stacks (s : State) (a n : Nat) : SameStacks s (s.cleanWhole a n) := by
  unfold State.cleanWhole
  split
  · exact .refl s
  · refine foldl_keeps SameStacks.refl SameStacks.trans (fun u c => ?_) _ s
    dsimp only
    split
    · exact ⟨_, rfl, rfl⟩
    · exact .refl u

/-- An accepted write: its bytes, the poison it cleans, and the stream caches. -/
theorem State.accept_of_write (s : State) {q : HbmReq} (w : q.isWrite = true) (seq at_ : Nat) :
    (s.accept q seq at_).1 = ⟨q, at_, seq, false, [], [], false⟩ ∧
    ∃ h d, (s.accept q seq at_).2 = { s.wrBytes q.addr q.data with hbm := h, dsc := d } ∧ h.stk = s.hbm.stk := by
  simp only [State.accept, w, if_true, true_and]
  obtain ⟨m, bytes⟩ := s.wrBytes_frame q.addr q.data
  obtain ⟨h, cleaned, stk⟩ := (s.wrBytes q.addr q.data).cleanWhole_stacks q.addr q.data.length
  obtain ⟨d, snooped⟩ := ((s.wrBytes q.addr q.data).cleanWhole q.addr q.data.length).snoop_dsc q.addr q.data.length
  refine ⟨h, d, ?_, ?_⟩
  · rw [snooped, cleaned]
  · rw [stk, bytes]

/-- An accepted read takes its bytes as they were, and the poison of its codewords. -/
theorem State.accept_of_read (s : State) {q : HbmReq} (w : q.isWrite = false) (seq at_ : Nat) : s.accept q seq at_ =
    (⟨{ q with data := s.rdN q.addr q.size }, at_, seq, false,
      ((List.range ((q.addr + q.size - 1) / 32 + 1 - q.addr / 32)).map (q.addr / 32 + ·)).filter fun c => s.isPoisoned (32 * c), [], false⟩, s) := by
  simp [State.accept, w, HbmPending.cws, HbmPending.firstCw, HbmPending.lastCw, HbmPending.len]

/-- The bytes of a request within one granule have keys side by side. -/
theorem State.key_of_request {s : State} {q : HbmReq} {x : Nat × Nat × Nat × Nat} (place : s.pcPlace q.addr = some x) (len : Nat)
    (granule : q.addr / 256 = (q.addr + len - 1) / 256) : ∃ k, ∀ i < len, s.key (q.addr + i) = some (k + i) := by
  unfold State.pcPlace at place
  cases h : s.hbmPlace q.addr with
  | none => rw [h] at place; cases place
  | some y =>
    have below : q.addr < hbmEnd := by
      unfold State.hbmPlace at h
      split at h
      · unfold ad1Base hbmEnd at *; omega
      · split at h
        · assumption
        · cases h
    have zero : region q.addr = 0 := by unfold region hbmEnd at *; omega
    have key : s.key q.addr = some (y.1 * 2 ^ 36 + y.2) := by simp [State.key, zero, h]
    exact ⟨_, fun i hi => s.key_granule (by omega) below key⟩

/-! The request's way in. -/

/-- The window once a request has joined it. -/
theorem window_of_joined (s t : State) (n pc : Nat) {r : HbmPending} (stk : Tab.rising t.hbm.stk = true) (pcs : Tab.rising (s.stack n).pcs = true) :
    (((t.setStack n ({ s.stack n with seq := (s.stack n).seq + 1 }.setPc pc
      { (s.stack n).pc pc with window := ((s.stack n).pc pc).window ++ [r] })).stack n).pc pc).window = ((s.stack n).pc pc).window ++ [r] := by
  rw [State.stack_setStack_self _ _ stk]
  exact congrArg Pchan.window (Tab.get_set_self (fun _ => Pchan.reset) pcs pc _)

section
variable {s : State} {n pc b row : Nat} {q : HbmReq} (place : s.pcPlace q.addr = some (n, pc, b, row)) (granule : inGranule q = true)
  (free : s.fenced q.isWrite q.addr (if q.isWrite then q.data.length else q.size) = false ∨ (144 ≤ q.tag ∧ q.tag < 168))
include place granule free

/-- A request that no fence forbids is served by the shared cache, refused by a full window, or joins the window. -/
theorem hbmRequestAccept_of : hbmRequestAccept n q s =
    if s.lineHeld q.addr then
      if q.isWrite then ((s.accept q (s.stack n).seq (s.hbmCycle n)).2.setStack n { s.stack n with seq := (s.stack n).seq + 1 }).useLine (q.addr / 256) true q.isWrite
      else (((s.accept q (s.stack n).seq (s.hbmCycle n)).2.setStack n { s.stack n with seq := (s.stack n).seq + 1 }).useLine (q.addr / 256) true q.isWrite).answerRead
        { (s.accept q (s.stack n).seq (s.hbmCycle n)).1 with bad := (s.accept q (s.stack n).seq (s.hbmCycle n)).1.poison != [] }
    else if 128 ≤ ((s.stack n).pc pc).window.length then s
    else (s.accept q (s.stack n).seq (s.hbmCycle n)).2.setStack n ({ s.stack n with seq := (s.stack n).seq + 1 }.setPc pc
      { (s.stack n).pc pc with window := ((s.stack n).pc pc).window ++ [(s.accept q (s.stack n).seq (s.hbmCycle n)).1] }) := by
  have allowed : (s.fenced q.isWrite q.addr (if q.isWrite then q.data.length else q.size) && !(decide (144 ≤ q.tag) && decide (q.tag < 168))) = false := by
    rcases free with h | ⟨lo, hi⟩
    · simp [h]
    · simp [lo, hi]
  simp only [hbmRequestAccept, place, granule, allowed, ne_eq, not_true_eq_false, Bool.not_true, Bool.false_eq_true, or_self, if_false]

/-- A write that goes in: its bytes, HBM's own state and the stream caches; it joins the window unless the shared cache holds its line. -/
theorem hbmRequestAccept_of_write (w : q.isWrite = true) (room : ((s.stack n).pc pc).window.length < 128 ∨ s.lineHeld q.addr = true) :
    ∃ h d, hbmRequestAccept n q s = { s.wrBytes q.addr q.data with hbm := h, dsc := d } ∧
      (Tab.rising s.hbm.stk = true → Tab.rising (s.stack n).pcs = true → ((Tab.get (fun _ => Stack.reset) h.stk n).pc pc).window =
        ((s.stack n).pc pc).window ++ if s.lineHeld q.addr then [] else [⟨q, s.hbmCycle n, (s.stack n).seq, false, [], [], false⟩]) := by
  obtain ⟨first, h, d, second, stk⟩ := s.accept_of_write w (s.stack n).seq (s.hbmCycle n)
  rw [hbmRequestAccept_of place granule free, first, second]
  cases held : s.lineHeld q.addr with
  | true =>
    obtain ⟨h', d', used, stk'⟩ := State.useLine_frame
      (({ s.wrBytes q.addr q.data with hbm := h, dsc := d } : State).setStack n { s.stack n with seq := (s.stack n).seq + 1 }) (q.addr / 256) true true
    simp only [w, if_true]
    refine ⟨h', d', used, fun rising _ => ?_⟩
    have same : Tab.get (fun _ => Stack.reset) h'.stk n = { s.stack n with seq := (s.stack n).seq + 1 } := by
      rw [stk']
      exact State.stack_setStack_self { s.wrBytes q.addr q.data with hbm := h, dsc := d } _ (by rw [stk]; exact rising)
    rw [same, List.append_nil]
    rfl
  | false =>
    have notFull : ¬ 128 ≤ ((s.stack n).pc pc).window.length := Nat.not_le.mpr (room.resolve_right (by simp [held]))
    simp only [Bool.false_eq_true, if_false, notFull]
    exact ⟨_, d, rfl, fun rising pcs => window_of_joined s { s.wrBytes q.addr q.data with hbm := h, dsc := d } n pc
      (by rw [stk]; exact rising) pcs⟩

end

theorem exec_hbmRequestAccept {s : State} (h : s.Live) (n : Fin 24) (q : HbmReq) :
    exec (.hbmRequestAccept n q) s = .next (s.settle (hbmRequestAccept n q s)) := live_of h.1 h.2 _

/-- A write's bytes, HBM's own state and the stream caches are all that differs. -/
theorem ChangesOnly.written (s : State) (a : Nat) (bs : List Byte) (h : Mem) (d : Tab Dsc) :
    ChangesOnly [.mem, .hbm, .dsc] s { s.wrBytes a bs with hbm := h, dsc := d } := by
  obtain ⟨m, bytes⟩ := s.wrBytes_frame a bs
  rw [bytes]
  intro p hp
  cases p <;> first | (exfalso; revert hp; decide) | rfl

/-- Settles O25: acceptance is where a write's bytes reach memory and a read takes them, in a window or by the shared cache. -/
theorem hbmRequestsTakeEffectAtAcceptance : Obligations.hbm_requests_take_effect_at_acceptance := by
  intro s n q pc b row live wf place granule free
  refine ⟨fun unheld full => ?_, fun room w => ?_, ?_⟩
  · rw [exec_hbmRequestAccept live, hbmRequestAccept_of place granule free, unheld, if_neg Bool.false_ne_true, if_pos full]
    rfl
  · obtain ⟨h, d, accepted, window⟩ := hbmRequestAccept_of_write place granule free w room
    have only := ChangesOnly.written s q.addr q.data h d
    rw [exec_hbmRequestAccept live, accepted, settle_only only (by decide)]
    refine ⟨_, rfl, only, fun i hi k hk => ?_, fun k out => s.wrBytes_read _ _ k out, window⟩
    have within : q.addr / 256 = (q.addr + q.data.length - 1) / 256 := by
      have := granule
      simp only [inGranule, w, if_true, Bool.and_eq_true, decide_eq_true_eq] at this
      exact this.2
    obtain ⟨k0, keys⟩ := State.key_of_request place q.data.length within
    obtain rfl : k0 + i = k := Option.some.inj ((keys i hi).symm.trans hk)
    exact State.wrBytes_rd wf q.addr q.data k0 keys i hi
  · rintro r w rfl
    have accepted := s.accept_of_read w (s.stack n).seq (s.hbmCycle n)
    refine ⟨fun unheld room => ?_, fun held => ?_⟩
    · rw [exec_hbmRequestAccept live, hbmRequestAccept_of place granule free, unheld, if_neg Bool.false_ne_true, if_neg (Nat.not_le.mpr room), accepted,
        settle_only (s.setStack_only _ _) (by decide)]
      exact ⟨_, rfl, s.setStack_only _ _, fun stk pcs => window_of_joined s s n pc stk pcs⟩
    · rw [exec_hbmRequestAccept live, hbmRequestAccept_of place granule free, held, w, accepted]
      rfl

end Sys2Proof.Machine
end

section
/-!
PROOF. Objects of the tiers are created, sealed and released (R307-R314): O29.
-/
namespace Sys2Proof.Machine

/-- A valid record of its operation has its effect. -/
theorem State.objRecord_of {s : State} {e : Fin 24} {op : Nat} {w : Work} {r : FerryRec} (h : s.RecordDue e op w r) (f : Work → FerryRec → State → State) :
    s.objRecord e op f = f w r s := by
  obtain ⟨active, rfl, isOp, valid⟩ := h
  have ferry : isGather e = false := by simp [isGather, Nat.not_le.mpr e.isLt]
  simp [State.objRecord, active, isOp, ferry, valid]

theorem exec_create {s : State} (h : s.Live) (e : Fin 24) : exec (.create e) s = .next (s.settle (create e s)) := live_of h.1 h.2 _
theorem exec_seal {s : State} (h : s.Live) (e : Fin 24) : exec (.seal e) s = .next (s.settle (sealObject e s)) := live_of h.1 h.2 _
theorem exec_release {s : State} (h : s.Live) (e : Fin 24) : exec (.release e) s = .next (s.settle (release e s)) := live_of h.1 h.2 _

/-- The free place of a new object in the tier that a record names. -/
def State.placeFor (s : State) (tier size : Nat) : Option Nat := if tier = 1 then s.ddrFind size else if size ≤ s.flashFree then some 0 else none

section
variable {s : State} {e : Fin 24} {w : Work} {r : FerryRec}

theorem create_of_room (h : s.RecordDue e 3 w r) (fits : s.writeFault w.ctx r.src 16 = 0) {base : Nat} (room : s.placeFor (r.f 0x18 1) (r.f 0x10 8) = some base) :
    create e s = ((s.addObj { id := BitVec.ofNat 64 (s.nextId (r.f 0x18 1)), base := base, size := r.f 0x10 8, written := 0, sealed := false, ctx := w.ctx
                              stash := false, extents := [] }).refreshFlash.store r.src (leBytes 8 (s.nextId (r.f 0x18 1)) ++ leBytes 8 base)).wrote e w := by
  rw [create, State.objRecord_of h]
  simp only [fits, State.placeFor] at room ⊢
  rw [room]

theorem create_of_full (h : s.RecordDue e 3 w r) (fits : s.writeFault w.ctx r.src 16 = 0) (full : s.placeFor (r.f 0x18 1) (r.f 0x10 8) = none) :
    create e s = (s.store r.src (leBytes 16 0)).wrote e w := by
  rw [create, State.objRecord_of h]
  simp only [fits, State.placeFor] at full ⊢
  rw [full]

variable {o : Obj}

theorem sealObject_of_sealed (h : s.RecordDue e 4 w r) (found : s.objById r.obj = some o) (done : o.sealed = true) : sealObject e s = s.wrote e w := by
  rw [sealObject, State.objRecord_of h]
  simp [found, done]

theorem sealObject_of_foreign (h : s.RecordDue e 4 w r) (found : s.objById r.obj = some o) (opened : o.sealed = false) (foreign : o.ctx ≠ w.ctx) :
    sealObject e s = s.faultWork e w 2 0 srcTier r.obj := by
  rw [sealObject, State.objRecord_of h]
  simp [found, opened, foreign]

/-- An open object of the context is sealed: where it stands in DDR5, or shrunk and entered in both directory copies in flash. -/
theorem sealObject_of_open (h : s.RecordDue e 4 w r) (found : s.objById r.obj = some o) (opened : o.sealed = false) (own : o.ctx = w.ctx) :
    sealObject e s = State.wrote
      (if o.base ≠ 0 then s.updObj r.obj fun o => { o with sealed := true }
       else ((s.updObj r.obj fun _ => { o with sealed := true, size := min o.size o.written }).enterDirectory
         { o with sealed := true, size := min o.size o.written }).refreshFlash) e w := by
  rw [sealObject, State.objRecord_of h]
  simp only [found, opened, own, Bool.false_eq_true, if_false, ne_eq, not_true_eq_false]
  split <;> rfl

theorem release_of_own (h : s.RecordDue e 5 w r) (found : s.objById r.obj = some o) (may : o.sealed = true ∨ o.ctx = w.ctx) :
    release e s = (s.removeObj r.obj).refreshFlash.wrote e w := by
  rw [release, State.objRecord_of h]
  have allowed : (!o.sealed && o.ctx != w.ctx) = false := by
    rcases may with k | k <;> simp [k]
  simp [found, allowed]

theorem release_of_foreign (h : s.RecordDue e 5 w r) (found : s.objById r.obj = some o) (opened : o.sealed = false) (foreign : o.ctx ≠ w.ctx) :
    release e s = s.faultWork e w 2 0 srcTier r.obj := by
  rw [release, State.objRecord_of h]
  simp [found, opened, foreign]

end

theorem ChangesOnly.tier (s : State) (x : Tier) : ChangesOnly [.tier] s { s with tier := x } := by
  intro p hp
  cases p <;> first | (exfalso; revert hp; decide) | rfl

/-- Settles O29: each object record finds its object and does one of a few things to the tier. -/
theorem objectsAreCreatedSealedAndReleased : Obligations.objects_are_created_sealed_and_released := by
  intro s e w r live
  refine ⟨?_, fun due fits full => ?_, fun o due found done => ?_, fun o due found opened own => ?_, fun o due found opened foreign => ?_,
    fun o due found may => ?_, fun o due found opened foreign => ?_⟩
  · rintro size tier base u id due rfl rfl fits room rfl rfl
    rw [exec_create live, create_of_room due fits room]
  · rw [exec_create live, create_of_full due fits full]
  · rw [exec_seal live, sealObject_of_sealed due found done]
  · refine ⟨_, by rw [exec_seal live, sealObject_of_open due found opened own], ?_, fun t flash ht => ?_, fun ddr => ?_⟩
    · split <;> exact .tier s _
    · subst ht
      rw [if_neg (not_not.mpr flash)]
      exact ⟨rfl, rfl, rfl⟩
    · rw [if_pos ddr]
      exact ⟨rfl, rfl, rfl⟩
  · rw [exec_seal live, sealObject_of_foreign due found opened foreign]
  · refine ⟨(s.removeObj r.obj).refreshFlash, ?_, .tier s _, rfl, rfl, rfl⟩
    rw [exec_release live, release_of_own due found may]
  · rw [exec_release live, release_of_foreign due found opened foreign]

end Sys2Proof.Machine
end

section
/-!
PROOF. The activation stash: its steps by the books, spills, restores and the timeout (R326-R334): O30 and O31.
-/
namespace Sys2Proof.Machine

/-! A stash step that is due. -/

section
variable {s u : State} {a op : Nat} {t : Stash} {w : StashWait}

theorem State.stashStep_of (h : s.StashDue a op t w u) (lo : 1 ≤ op) (hi : op ≤ 4) (f : Stash → StashWait → State → State) :
    s.stashStep a op f = f t w u := by
  obtain ⟨r, b, owner, issues, left, rfl, isOp, reserved, found, rfl, rfl⟩ := h
  have some : op ≠ 0 := by omega
  simp only [State.stashStep, owner, issues, Nat.not_le.mpr left, isOp, reserved, found, some, Nat.not_lt.mpr hi, Bool.not_true, Bool.false_eq_true,
    or_self, if_false, ne_eq, not_true_eq_false]

/-- What a due step is, and that its stash still stands in the state with the step taken. -/
theorem State.StashDue.facts (h : s.StashDue a op t w u) : w.op = op ∧ w.reason = 0 ∧ w.array = a ∧ u.stashOf t.ctx t.id = some t ∧
    u.ctxs = s.ctxs := by
  obtain ⟨r, b, -, -, -, rfl, -, -, found, rfl, rfl⟩ := h
  obtain ⟨ctx, id⟩ := State.stashOf_key found
  refine ⟨rfl, rfl, rfl, ?_, rfl⟩
  rw [ctx, id]
  exact found

end

/-! Attempts by the books. -/

section
variable {t : Stash} {w : StashWait}

theorem Stash.attempt_alloc_of_free (op : w.op = 1) (fresh : t.mbOf w.mb = none) (empty : t.occupant w.mb = none) :
    t.attempt w = some (none, t.setMb w.mb 1 0) := by
  simp [Stash.attempt, op, fresh, Stash.grant, empty]

theorem Stash.attempt_close_of_writing (op : w.op = 2) {m : StashMb} (mine : t.mbOf w.mb = some m) (writing : m.st = 1) :
    t.attempt w = some (none, t.setMb w.mb 2 0) := by
  simp [Stash.attempt, op, mine, writing]

theorem Stash.attempt_open_of_closed (op : w.op = 3) {m : StashMb} (mine : t.mbOf w.mb = some m) (closed : m.st = 2) :
    t.attempt w = some (none, t.setMb w.mb 3 0) := by
  simp [Stash.attempt, op, mine, closed]

section
variable {m : StashMb} (op : w.op = 1) (fresh : t.mbOf w.mb = none) (held : t.occupant w.mb = some m)
include op fresh held

/-- A slot whose occupant is writing or open is waited for. -/
theorem Stash.attempt_alloc_of_used (used : m.st = 1 ∨ m.st = 3) : t.attempt w = some (some 2, t) := by
  rcases used with e | e <;> simp [Stash.attempt, op, fresh, Stash.grant, held, e]

/-- A closed occupant is waited for where two units are not free. -/
theorem Stash.attempt_alloc_of_short (closed : m.st = 2) (few : t.freeUnits < 2) : t.attempt w = some (some 1, t) := by
  simp [Stash.attempt, op, fresh, Stash.grant, held, closed, few]

/-- It begins to be spilled where they are. -/
theorem Stash.attempt_alloc_of_spill (closed : m.st = 2) (enough : 2 ≤ t.freeUnits) :
    t.attempt w = some (some 0, { t.setMb m.mb 5 0 with heldUnits := t.heldUnits + 1 }) := by
  simp [Stash.attempt, op, fresh, Stash.grant, held, closed, Nat.not_lt.mpr enough]

end

theorem Stash.attempt_alloc_of_known (op : w.op = 1) (known : (t.mbOf w.mb).isSome = true) : t.attempt w = none := by
  obtain ⟨m, mine⟩ := Option.isSome_iff_exists.mp known
  simp [Stash.attempt, op, mine]

theorem Stash.attempt_close_of_other (op : w.op = 2) (other : ∀ m, t.mbOf w.mb = some m → m.st ≠ 1) : t.attempt w = none := by
  cases mine : t.mbOf w.mb with
  | none => simp [Stash.attempt, op, mine]
  | some m => simp [Stash.attempt, op, mine, other m mine]

theorem Stash.attempt_open_of_used (op : w.op = 3) (used : ∀ m, t.mbOf w.mb = some m → m.st = 1 ∨ m.st = 3) : t.attempt w = none := by
  cases mine : t.mbOf w.mb with
  | none => simp [Stash.attempt, op, mine]
  | some m => rcases used m mine with e | e <;> simp [Stash.attempt, op, mine, e]

end

/-! One step attempted, with nothing waiting besides. -/

section
variable {s : State} {t : Stash} {w : StashWait}

theorem State.stashRetry_nil (found : s.stashOf t.ctx t.id = some t) (kept : List StashWait) :
    State.stashRetry t.ctx t.id [] kept s = s.setWaiting t kept := by
  simp [State.stashRetry, found]

section
variable (found : s.stashOf t.ctx t.id = some t) (sane : (s.ctx t.ctx).state ≠ 5)
include found sane

theorem State.stashRetry_of_wrong (tried : t.attempt w = none) :
    State.stashRetry t.ctx t.id [w] [] s = (s.setWaiting t []).stashFault t.ctx w.array 0 w.mb := by
  simp [State.stashRetry, found, sane, tried]

variable {t1 : Stash} (ctx : t1.ctx = t.ctx) (id : t1.id = t.id)
include ctx id

/-- A step that the books grant signals its object, and nothing waits. -/
theorem State.stashRetry_of_granted (tried : t.attempt w = some (none, t1)) {o : Nat} (obj : s.objOf t.ctx w.sync.toNat = some o)
    (named : w.sync.toNat ≠ 0xFFFF) : State.stashRetry t.ctx t.id [w] [] s = ((s.putStash t1).signal o 1).setWaiting t1 [] := by
  have signalled : (s.putStash t1).signalTask t.ctx w.sync.toNat w.array srcTier = (s.putStash t1).signal o 1 := by
    have obj' : (s.putStash t1).objOf t.ctx w.sync.toNat = some o := obj
    simp [State.signalTask, named, obj']
  have found1 : ((s.putStash t1).signal o 1).stashOf t1.ctx t1.id = some t1 := by
    rw [State.stashOf_signal]
    exact State.stashOf_putStash (by rw [ctx, id]; exact found)
  have settled := State.stashRetry_nil found1 []
  rw [ctx, id] at settled
  rw [State.stashRetry]
  simp only [found, sane, if_false, tried, signalled]
  exact settled

/-- A step that waits for a transfer goes on waiting without a word. -/
theorem State.stashRetry_of_transfer (tried : t.attempt w = some (some 0, t1)) :
    State.stashRetry t.ctx t.id [w] [] s = (s.putStash t1).setWaiting t1 [w] := by
  have found1 : (s.putStash t1).stashOf t1.ctx t1.id = some t1 := State.stashOf_putStash (by rw [ctx, id]; exact found)
  have settled := State.stashRetry_nil found1 [w]
  rw [ctx, id] at settled
  rw [State.stashRetry]
  simp only [found, sane, if_false, tried, true_or, if_true]
  exact settled

end

/-- A step that begins to wait for a reason raises STASH_FULL. -/
theorem State.stashRetry_of_full (found : s.stashOf t.ctx t.id = some t) (sane : (s.ctx t.ctx).state ≠ 5) (fresh : w.reason = 0) {k : Nat} (named : k ≠ 0)
    (tried : t.attempt w = some (some k, t)) (still : ((s.putStash t).stashFull t w k).stashOf t.ctx t.id = some t) :
    State.stashRetry t.ctx t.id [w] [] s = ((s.putStash t).stashFull t w k).setWaiting t [{ w with reason := k }] := by
  have reason : ¬ (k = 0 ∨ w.reason ≠ 0) := by simp [named, fresh]
  rw [State.stashRetry]
  simp only [found, sane, if_false, tried, reason]
  exact State.stashRetry_nil still _

end

/-! The four rows. -/

section
variable {s u : State} {a : Fin 8} {t : Stash} {w : StashWait}

/-- With nothing waiting, an ALLOC, CLOSE or OPEN that is due is attempted alone. -/
theorem exec_stashStep (live : s.Live) (idle : t.waiting = []) {c : Instr} (h : (c = .alloc a ∧ s.StashDue a 1 t w u) ∨ (c = .close a ∧ s.StashDue a 2 t w u) ∨
    (c = .open_ a ∧ s.StashDue a 3 t w u)) : exec c s = .next (s.settle (State.stashRetry t.ctx t.id [w] [] u)) := by
  rcases h with ⟨rfl, due⟩ | ⟨rfl, due⟩ | ⟨rfl, due⟩
  · refine (live_of live.1 live.2 (alloc a)).trans ?_
    rw [alloc, State.stashStep_of due (by decide) (by decide), idle, List.nil_append]
  · refine (live_of live.1 live.2 (close a)).trans ?_
    rw [close, State.stashStep_of due (by decide) (by decide), idle]
  · refine (live_of live.1 live.2 (open_ a)).trans ?_
    rw [open_, State.stashStep_of due (by decide) (by decide), idle, List.nil_append]

theorem exec_free_of_known (live : s.Live) (due : s.StashDue a 4 t w u) {m : StashMb} (mine : t.mbOf w.mb = some m) (other : m.st ≠ 1) {v : State}
    (hv : v = if m.st = 4 ∨ m.st = 6 then u.removeObj m.obj.toNat else u) : exec (.free a) s = .next (s.settle
      (((v.putStash ({ t.dropMb w.mb with heldUnits := if 4 ≤ m.st then t.heldUnits - 1 else t.heldUnits }.freed v.now)).signalTask
        t.ctx w.sync.toNat a srcTier).stashChanged t.ctx t.id)) := by
  refine (live_of live.1 live.2 (free a)).trans ?_
  subst hv
  rw [free, State.stashStep_of due (by decide) (by decide)]
  simp only [mine, other, if_false]

theorem exec_free_of_wrong (live : s.Live) (due : s.StashDue a 4 t w u) (wrong : ∀ m, t.mbOf w.mb = some m → m.st = 1) :
    exec (.free a) s = .next (s.settle (u.stashFault t.ctx a 0 w.mb)) := by
  refine (live_of live.1 live.2 (free a)).trans ?_
  rw [free, State.stashStep_of due (by decide) (by decide)]
  cases mine : t.mbOf w.mb with
  | none => rfl
  | some m => simp only [wrong m mine, if_true]

end

/-- Settles O30: a due step is attempted by the books of its stash, and each answer of the books has its own outcome. -/
theorem stashStepsFollowTheBooks : Obligations.stash_steps_follow_the_books := by
  intro s a t w u live idle sane
  have saneOf {op : Nat} (due : s.StashDue a op t w u) : (u.ctx t.ctx).state ≠ 5 := by
    obtain ⟨-, -, -, -, ctxs⟩ := due.facts
    unfold State.ctx
    rw [ctxs]
    exact sane
  refine ⟨?_, ?_, ?_, ?_, fun m v due mine other hv => exec_free_of_known live due mine other hv, ?_, fun due wrong => exec_free_of_wrong live due wrong⟩
  · intro c b t1 v o h ht obj named hv
    subst ht hv
    have granted {op : Nat} (due : s.StashDue a op t w u) (tried : t.attempt w = some (none, t.setMb w.mb b 0)) :
        State.stashRetry t.ctx t.id [w] [] u = ((u.putStash (t.setMb w.mb b 0)).signal o 1).setWaiting (t.setMb w.mb b 0) [] := by
      obtain ⟨-, -, -, found, ctxs⟩ := due.facts
      refine State.stashRetry_of_granted (t1 := t.setMb w.mb b 0) found (saneOf due) rfl rfl tried ?_ named
      unfold State.objOf State.ctx
      rw [ctxs]
      exact obj
    rcases h with ⟨rfl, due, fresh, empty, rfl⟩ | ⟨rfl, due, ⟨m, mine, writing⟩, rfl⟩ | ⟨rfl, due, ⟨m, mine, closed⟩, rfl⟩
    · rw [exec_stashStep live idle (.inl ⟨rfl, due⟩), granted due (Stash.attempt_alloc_of_free due.facts.1 fresh empty)]
    · rw [exec_stashStep live idle (.inr (.inl ⟨rfl, due⟩)), granted due (Stash.attempt_close_of_writing due.facts.1 mine writing)]
    · rw [exec_stashStep live idle (.inr (.inr ⟨rfl, due⟩)), granted due (Stash.attempt_open_of_closed due.facts.1 mine closed)]
  · rintro m v due fresh held used rfl still
    obtain ⟨op, reason, -, found, -⟩ := due.facts
    rw [exec_stashStep live idle (.inl ⟨rfl, due⟩),
      State.stashRetry_of_full found (saneOf due) reason (by decide) (Stash.attempt_alloc_of_used op fresh held used) still]
  · rintro m v due fresh held closed few rfl still
    obtain ⟨op, reason, -, found, -⟩ := due.facts
    rw [exec_stashStep live idle (.inl ⟨rfl, due⟩),
      State.stashRetry_of_full found (saneOf due) reason (by decide) (Stash.attempt_alloc_of_short op fresh held closed few) still]
  · rintro m t1 due fresh held closed enough rfl
    obtain ⟨op, -, -, found, -⟩ := due.facts
    rw [exec_stashStep live idle (.inl ⟨rfl, due⟩),
      State.stashRetry_of_transfer (t1 := { t.setMb m.mb 5 0 with heldUnits := t.heldUnits + 1 }) found (saneOf due) rfl rfl
        (Stash.attempt_alloc_of_spill op fresh held closed enough)]
  · intro c h
    have wrong {op : Nat} (due : s.StashDue a op t w u) (tried : t.attempt w = none) :
        State.stashRetry t.ctx t.id [w] [] u = (u.setWaiting t []).stashFault t.ctx a 0 w.mb := by
      obtain ⟨-, -, array, found, -⟩ := due.facts
      rw [State.stashRetry_of_wrong found (saneOf due) tried, array]
    rcases h with ⟨rfl, due, known⟩ | ⟨rfl, due, other⟩ | ⟨rfl, due, used⟩
    · rw [exec_stashStep live idle (.inl ⟨rfl, due⟩), wrong due (Stash.attempt_alloc_of_known due.facts.1 known)]
    · rw [exec_stashStep live idle (.inr (.inl ⟨rfl, due⟩)), wrong due (Stash.attempt_close_of_other due.facts.1 other)]
    · rw [exec_stashStep live idle (.inr (.inr ⟨rfl, due⟩)), wrong due (Stash.attempt_open_of_used due.facts.1 used)]

/-! Spills, restores and the timeout. -/

section
variable {s : State} {c i : Nat} {t : Stash} (found : s.stashOf c i = some t)
include found

section
variable {m : StashMb} (spilling : t.mbs.find? (fun m => m.st == 5) = some m)
include spilling

theorem spillDone_of_good {o : Obj} (ho : o = { id := BitVec.ofNat 64 (s.nextId 1), base := s.reservePlace t, size := t.slotBytes, written := 0, sealed := true
                                                ctx := c, stash := true, extents := [] })
    (good : s.poisonIn (t.slotAddr m.mb) t.slotBytes = false) {u : State} (hu : u = (s.addObj o).store o.base (s.rdN (t.slotAddr m.mb) t.slotBytes)) :
    spillDone c i s = (u.putStash ((t.setMb m.mb 4 o.id).freed u.now)).stashChanged c i := by
  subst ho hu
  simp only [spillDone, found, spilling, good, Bool.false_eq_true, if_false]

theorem spillDone_of_poison (bad : s.poisonIn (t.slotAddr m.mb) t.slotBytes = true) :
    spillDone c i s = s.rowFault c 0x10 3 (t.slotAddr m.mb) t.slotBytes := by
  simp only [spillDone, found, spilling, bad, if_true]

end

section
variable {m : StashMb} {o : Obj} (restoring : t.mbs.find? (fun m => m.st == 6) = some m) (object : s.objById m.obj.toNat = some o)
include restoring object

theorem stashRestoreDone_of_poison (bad : (s.ddrRead false o.base t.slotBytes).poisonIn o.base t.slotBytes = true) :
    stashRestoreDone c i s = (s.ddrRead false o.base t.slotBytes).rowFault c 0x10 3 o.base t.slotBytes := by
  simp only [stashRestoreDone, found, restoring, object, bad, if_true]

variable {x u : State} {v : Stash} (hx : x = s.ddrRead false o.base t.slotBytes) (good : x.poisonIn o.base t.slotBytes = false)
  (hu : u = (x.tick.store (t.slotAddr m.mb) (x.rdN o.base t.slotBytes)).removeObj m.obj.toNat)
  (hv : v = { (t.setMb m.mb 3 0).freed u.now with heldUnits := t.heldUnits - 1 })
include hx good hu hv

theorem stashRestoreDone_of_unasked (unasked : t.waiting.find? (fun w => w.op == 3 && w.mb == m.mb) = none) :
    stashRestoreDone c i s = (u.putStash v).stashChanged c i := by
  subst hx hu hv
  have unasked' : ((t.setMb m.mb 3 0).freed (State.removeObj (State.store (State.tick (s.ddrRead false o.base t.slotBytes)) (t.slotAddr m.mb)
      ((s.ddrRead false o.base t.slotBytes).rdN o.base t.slotBytes)) m.obj.toNat).now).waiting.find? (fun w => w.op == 3 && w.mb == m.mb) = none := unasked
  simp only [stashRestoreDone, found, restoring, object, good, Bool.false_eq_true, if_false, unasked']

theorem stashRestoreDone_of_asked {w : StashWait} (asked : t.waiting.find? (fun w => w.op == 3 && w.mb == m.mb) = some w) (sane : (u.ctx c).state ≠ 5) :
    stashRestoreDone c i s = ((u.putStash { v with waiting := t.waiting.erase w }).signalTask c w.sync.toNat w.array srcTier).stashChanged c i := by
  subst hx hu hv
  have asked' : ((t.setMb m.mb 3 0).freed (State.removeObj (State.store (State.tick (s.ddrRead false o.base t.slotBytes)) (t.slotAddr m.mb)
      ((s.ddrRead false o.base t.slotBytes).rdN o.base t.slotBytes)) m.obj.toNat).now).waiting.find? (fun w => w.op == 3 && w.mb == m.mb) = some w := asked
  simp only [stashRestoreDone, found, restoring, object, good, Bool.false_eq_true, if_false, asked', sane]
  rfl

end

theorem stashTimeout_of_due {since : Nat} {w : StashWait} (runs : t.since = some since) (waits : t.waiting.find? (fun w => w.reason != 0) = some w)
    (due : since + t.timeoutMs * 100000 ≤ s.now) : stashTimeout c i s = (s.setWaiting t []).stashFault c w.array 0x0305 w.mb := by
  simp only [stashTimeout, found, runs, waits, Nat.not_lt.mpr due, if_false]

end

theorem exec_spillDone {s : State} (h : s.Live) (c : Fin 64) (i : Fin 256) : exec (.spillDone c i) s = .next (s.settle (spillDone c i s)) :=
  live_of h.1 h.2 _
theorem exec_stashRestoreDone {s : State} (h : s.Live) (c : Fin 64) (i : Fin 256) :
    exec (.stashRestoreDone c i) s = .next (s.settle (stashRestoreDone c i s)) := live_of h.1 h.2 _
theorem exec_stashTimeout {s : State} (h : s.Live) (c : Fin 64) (i : Fin 256) : exec (.stashTimeout c i) s = .next (s.settle (stashTimeout c i s)) :=
  live_of h.1 h.2 _

/-- Settles O31: each row finds its stash and the micro-batch that it is about. -/
theorem spillsRestoresAndTheStashTimeout : Obligations.spills_restores_and_the_stash_timeout := by
  intro s c i t live found
  refine ⟨fun m o u spilling good ho hu => ?_, fun m spilling bad => ?_, fun m o x restoring object hx => ⟨?_, fun u v good hu hv => ⟨?_, ?_⟩⟩,
    fun since w runs waits due => ?_⟩
  · rw [exec_spillDone live, spillDone_of_good found spilling ho good hu]
  · rw [exec_spillDone live, spillDone_of_poison found spilling bad]
  · rintro bad
    subst hx
    rw [exec_stashRestoreDone live, stashRestoreDone_of_poison found restoring object bad]
  · intro none
    rw [exec_stashRestoreDone live, stashRestoreDone_of_unasked found restoring object hx good hu hv (by rw [none]; rfl)]
  · intro w asked sane
    rw [exec_stashRestoreDone live, stashRestoreDone_of_asked found restoring object hx good hu hv asked sane]
  · rw [exec_stashTimeout live, stashTimeout_of_due found runs waits due]

end Sys2Proof.Machine
end

section
/-!
PROOF. Ports send and receive flits in order (R408-R411, R417): O34.
-/
namespace Sys2Proof.Machine

/-! Sending. -/

theorem State.emit_only (s : State) (p : Nat) (f : Option Sent) (body : List Byte) : ChangesOnly [.fab, .out] s (s.emit p f body) :=
  ((s.setPort_only p _).mono (by decide)).trans ((State.sendOut_only _ _).mono (by decide))

/-- Two writes of a port and a flit on the wire. -/
theorem State.setPorts_emit_only (s : State) (p : Nat) (x y : Port) (f : Option Sent) (body : List Byte) :
    ChangesOnly [.fab, .out] s (State.emit ((s.setPort p x).setPort p y) p f body) :=
  (((s.setPort_only p x).mono (by decide)).trans ((State.setPort_only _ p y).mono (by decide))).trans (State.emit_only _ p f body)

/-- What the packet in progress, or the one that arbitration picks, leaves of the port. -/
theorem Port.load_eq {x y : Port} (h : (x.toSend ≠ [] ∧ y = x) ∨ (x.toSend = [] ∧ x.pick = none ∧ y = x) ∨
    (∃ v turn e, x.toSend = [] ∧ x.pick = some (v, turn) ∧ x.headOf v = some e ∧
      y = { x.serve v e with wrr := turn, sending := some e, toSend := flitsOfPacket e.2 })) : x.load = y := by
  rcases h with ⟨busy, rfl⟩ | ⟨idle, unpicked, rfl⟩ | ⟨v, turn, e, idle, picked, head, rfl⟩
  · simp [Port.load, busy]
  · simp [Port.load, idle, unpicked]
  · simp [Port.load, idle, picked, head]

section
variable {s : State} {p : Nat} (up : (s.port p).state = 2) (native : (s.port p).curMode ≠ 2)
include up native

theorem flitSend_of_replay {f : Sent} {rest : List Sent} (h : ((s.port p).noteWaits s.now).replay = f :: rest) : flitSend p s =
    State.emit ((s.setPort p ((s.port p).noteWaits s.now)).setPort p { (s.port p).noteWaits s.now with replay := rest }) p (some f) f.body := by
  have native' : ¬ ((s.port p).noteWaits s.now).curMode = 2 := native
  simp only [flitSend, up, ne_eq, not_true_eq_false, if_false, native', h]

section
variable {x y : Port} (hx : x = (s.port p).noteWaits s.now) (none : x.replay = []) (hy : x.load = y)
include hx none hy

/-- With nothing to send, or no room in the retry buffer, an IDLE flit goes out. -/
theorem flitSend_of_idle (h : y.toSend = [] ∨ 1024 ≤ y.retry.length) :
    flitSend p s = State.emit ((s.setPort p x).setPort p y) p Option.none (padTo 244 [0]) := by
  subst hx hy
  have native' : ¬ ((s.port p).noteWaits s.now).curMode = 2 := native
  simp only [flitSend, up, ne_eq, not_true_eq_false, if_false, native', none]
  rcases h with h | h
  · simp only [h]
  · cases e : ((s.port p).noteWaits s.now).load.toSend with
    | nil => rfl
    | cons f rest => simp only [h, if_true]

/-- The next flit of the packet goes out and into the retry buffer; with the last one the packet has left. -/
theorem flitSend_of_flit {f : Sent} {rest : List Sent} (h : y.toSend = f :: rest) (room : y.retry.length < 1024) {u : State}
    (hu : u = State.emit ((s.setPort p x).setPort p { y with
          toSend := rest
          txSeq := y.txSeq + 1
          retry := y.retry ++ [{ f with seq := y.txSeq }]
          ackAt := if y.retry = [] then s.now else y.ackAt
          sentFlits := Tab.modify (fun _ => 0) y.sentFlits f.vc fun n => (n + 1) % 65536
          sending := if f.eop then Option.none else y.sending }) p (some { f with seq := y.txSeq }) f.body) :
    (f.eop = false → flitSend p s = u) ∧ (∀ e, f.eop = true → y.sending = some e → flitSend p s = u.packetSent e) := by
  subst hx hy hu
  have native' : ¬ ((s.port p).noteWaits s.now).curMode = 2 := native
  simp only [flitSend, up, ne_eq, not_true_eq_false, if_false, native', none, h, Nat.not_le.mpr room]
  refine ⟨fun more => ?_, fun e last sending => ?_⟩
  · simp only [more]
    rfl
  · simp only [last, sending]
    rfl

end

/-! Receiving. -/

section
variable {f : Flit} {x : Port}

/-- A flit with a bad code is discarded. -/
theorem flitReceive_of_bad (bad : f.crc ≠ flitCrc f.header f.body) (data : bitOf f.header.toNat 30 = true)
    (hx : x = ((s.port p).count 2 f.fecCorrected).count 1 1) :
    flitReceive p f s = s.setPort p { x with nakPending := x.nakPending || !x.discarding, discarding := true } := by
  subst hx
  simp only [flitReceive, up, native, ne_eq, not_true_eq_false, or_self, if_false, beq_eq_false_iff_ne.mpr bad, Bool.and_false, Bool.not_false, if_true,
    data]

/-- A good data flit that bears no NAK is accepted in its turn, and discarded out of it. -/
theorem flitReceive_of_good (good : f.fecOk = true) (code : f.crc = flitCrc f.header f.body) (data : bitOf f.header.toNat 30 = true)
    (quiet : bitOf f.header.toNat 24 = false)
    (hx : x = (((s.port p).count 2 f.fecCorrected).freedCount (bits f.header.toNat 32 3) (bits f.header.toNat 35 16)).acked
        (BitVec.ofNat 12 (bits f.header.toNat 12 12)) s.now) :
    flitReceive p f s = s.setPort p (if BitVec.ofNat 12 f.header.toNat = x.rxSeq + 1 then x.accept f.header.toNat f.body
      else { x with nakPending := x.nakPending || !x.discarding, discarding := true }) := by
  subst hx
  have code' : (f.crc == flitCrc f.header f.body) = true := beq_iff_eq.mpr code
  simp only [flitReceive, up, native, ne_eq, not_true_eq_false, or_self, if_false, good, code', Bool.and_self, Bool.not_true, Bool.false_eq_true, if_true,
    data, quiet, false_and, Bool.false_and]

end

end

theorem exec_flitSend {s : State} (h : s.Live) (p : Fin 16) : exec (.flitSend p) s = .next (s.settle (flitSend p s)) := live_of h.1 h.2 _
theorem exec_flitReceive {s : State} (h : s.Live) (p : Fin 16) (f : Flit) : exec (.flitReceive p f) s = .next (s.settle (flitReceive p f s)) :=
  live_of h.1 h.2 _

/-- A flit of which the whole effect is on the ports and the wire. -/
theorem exec_flitSend_of {s t : State} (h : s.Live) (p : Fin 16) (e : flitSend p s = t) (only : ChangesOnly [.fab, .out] s t) :
    exec (.flitSend p) s = .next t := by
  rw [exec_flitSend h, e, settle_only only (by decide)]

/-- Settles O34: replays, then the packet in progress or the one picked, then IDLE flits; and data flits in order. -/
theorem flitsAreSentAndReceivedInOrder : Obligations.flits_are_sent_and_received_in_order := by
  intro s p live up native
  refine ⟨?_, ?_, fun f x hx good code data quiet => ⟨fun next => ?_, fun other => ?_⟩, fun f x hx bad data => ?_⟩
  · rintro f rest x rfl replay
    have only := s.setPorts_emit_only p ((s.port p).noteWaits s.now) { (s.port p).noteWaits s.now with replay := rest } (some f) f.body
    exact ⟨_, exec_flitSend_of live p (flitSend_of_replay up native replay) only, rfl, only⟩
  · intro x y hx none h
    have loaded := Port.load_eq h
    refine ⟨fun idle => ?_, ?_⟩
    · have only := s.setPorts_emit_only p x y Option.none (padTo 244 [0])
      exact ⟨_, exec_flitSend_of live p (flitSend_of_idle up native hx none loaded idle) only, rfl, only⟩
    · intro f rest u more room hu
      obtain ⟨middle, last⟩ := flitSend_of_flit up native hx none loaded more room hu
      have only : ChangesOnly [.fab, .out] s u := hu ▸ s.setPorts_emit_only p _ _ _ _
      refine ⟨fun eop => ⟨exec_flitSend_of live p (middle eop) only, only⟩, fun e eop sending => ?_⟩
      rw [exec_flitSend live, last e eop sending]
  · rw [exec_flitReceive live, flitReceive_of_good up native good code data quiet hx, if_pos next, settle_only (s.setPort_only _ _) (by decide)]
  · rw [exec_flitReceive live, flitReceive_of_good up native good code data quiet hx, if_neg other, settle_only (s.setPort_only _ _) (by decide)]
  · rw [exec_flitReceive live, flitReceive_of_bad up native bad data hx, settle_only (s.setPort_only _ _) (by decide)]

end Sys2Proof.Machine
end

section
/-!
PROOF. Gradient reduction and update at a member (R442-R480): O37 to O40.
-/
namespace Sys2Proof.Machine

/-! A packet of a job whose plan is installed here. -/

theorem State.planOfJob_of_red {s t : State} (h : t.red = s.red) (job : Nat) : t.planOfJob job = s.planOfJob job := by
  unfold State.planOfJob State.plan
  rw [h]

/-- The plan that a job names stands in its place. -/
theorem State.plan_of_planOfJob {s : State} {job j : Nat} {q : Plan} (h : s.planOfJob job = some (j, q)) : s.plan j = some q := by
  obtain ⟨i, -, hi⟩ := List.exists_of_findSome?_eq_some h
  split at hi
  · rename_i p e
    split at hi
    · cases hi
      exact e
    · cases hi
  · cases hi

section
variable {s t : State} {p : Packet} {vcs : List Nat} {type j : Nat} {q : Plan} (h : s.ForJob p vcs type j q t)
include h

/-- What taking the packet leaves of the plans. -/
theorem State.ForJob.red : t.red = s.red := by
  obtain ⟨-, -, ⟨port, taken⟩, -⟩ := h
  exact State.receive_only taken .red (by decide)

theorem State.ForJob.planOfJob : t.planOfJob p.job.toNat = some (j, q) := (State.planOfJob_of_red h.red _).trans h.2.2.2

theorem State.onPacket_of (f : Nat → Plan → State → State) : s.onPacket p vcs type f = f j q t := by
  have plan := h.planOfJob
  obtain ⟨vc, ty, ⟨port, taken⟩, -⟩ := h
  have match_ : (!vcs.contains p.vc.val || p.type.toNat != type) = false := by rw [vc, ty]; simp
  simp only [State.onPacket, match_, Bool.false_eq_true, if_false, taken, plan]

theorem State.jobOf_of : s.jobOf p vcs type = some (j, q) := by
  obtain ⟨vc, ty, ⟨port, taken⟩, plan⟩ := h
  have match_ : (!vcs.contains p.vc.val || p.type.toNat != type || (s.receive p).isNone) = false := by rw [vc, ty, taken]; simp
  simp only [State.jobOf, match_, Bool.false_eq_true, if_false, plan]

theorem State.takePacket_of : s.takePacket p = t := by
  obtain ⟨-, -, ⟨port, taken⟩, -⟩ := h
  simp only [State.takePacket, taken]

/-- R452: a packet for the open step is taken, one for a later step is held, one for an earlier step is dropped as stale. -/
theorem State.onStep_of_open (e : p.step = q.openStep) (f : Nat → Plan → State → State) : s.onStep p vcs type f = f j q t := by
  have now : q.checkStep p.step = .take := by simp [Plan.checkStep, e]
  simp only [State.onStep, State.jobOf_of h, now, State.onPacket_of h]

theorem State.onStep_of_later (e : q.openStep < p.step) (f : Nat → Plan → State → State) : s.onStep p vcs type f = s := by
  have later : q.checkStep p.step = .hold := by simp [Plan.checkStep, e]
  simp only [State.onStep, State.jobOf_of h, later]

theorem State.onStep_of_earlier (e : p.step < q.openStep) (f : Nat → Plan → State → State) : s.onStep p vcs type f = t.countRed 1 1 := by
  have earlier : q.checkStep p.step = .stale := by
    have : ¬ q.openStep < p.step := fun k => by bv_omega
    simp [Plan.checkStep, e, this]
  simp only [State.onStep, State.jobOf_of h, earlier, State.takePacket_of h]

end

/-- A token for the open step is forwarded to the children, then applied (R467). -/
theorem State.onToken_of {s t : State} {p : Packet} {j : Nat} {q : Plan} (h : s.ForJob p [4] 1 j q t) (e : p.step = q.openStep) {kind : Nat}
    (k : bits p.arg.toNat 0 8 = kind) (f : Nat → Plan → State → State) :
    s.onToken p kind f = f j q (t.sendToken q kind (bits p.arg.toNat 8 8) (bits p.arg.toNat 32 32)) := by
  simp only [State.onToken, k, ne_eq, not_true_eq_false, if_false, State.onPacket_of h, e]

/-! Closing tokens. -/

/-- The plan of the packet's job, with its open step and version. -/
theorem State.ForJob.planAt {s t : State} {p : Packet} {vcs : List Nat} {type j : Nat} {q : Plan} (h : s.ForJob p vcs type j q t)
    (rising : Tab.rising s.red.plans = true) : t.PlanAt j q.openStep q.version :=
  ⟨by rw [h.red]; exact rising, q, State.plan_of_planOfJob h.planOfJob, rfl, rfl⟩

/-- What a settled state's plan at `j` has of a plan in order. -/
theorem State.PlanAt.settled {s t : State} {j : Nat} {o v : Word} (h : t.PlanAt j o v) :
    ∃ r, (s.settle t).plan j = some r ∧ r.openStep = o ∧ r.version = v := h.2

/-- Settles O39: a token is forwarded and applied, and each way of closing a step opens the next one. -/
theorem aClosingTokenOpensTheNextStep : Obligations.a_closing_token_opens_the_next_step := by
  intro s p j q t live rising due e
  have sent (kind reason hi : Nat) : (t.sendToken q kind reason hi).PlanAt j q.openStep q.version := (due.planAt rising).sendToken q kind reason hi
  refine ⟨fun k => ⟨_, live_of live.1 live.2 (tokenCommit p), ?_, ?_⟩, fun k => ⟨_, live_of live.1 live.2 (tokenSkip p), ?_, ?_⟩,
    fun k => ⟨_, live_of live.1 live.2 (tokenAbort p), ?_, ?_⟩⟩
  · rw [tokenCommit, State.onToken_of due e k]
  · rw [tokenCommit, State.onToken_of due e k]
    exact (sent _ _ _).applyCommit.settled
  · rw [tokenSkip, State.onToken_of due e k]
  · rw [tokenSkip, State.onToken_of due e k]
    exact (sent _ _ _).applySkip.settled
  · rw [tokenAbort, State.onToken_of due e k]
  · rw [tokenAbort, State.onToken_of due e k]
    exact ((sent _ _ _).applyAbort _).settled

/-! Contributions. -/

section
variable {s : State} {k i : Nat} {p : Plan} {b : Bucket} (found : s.bucketOf k i = some (p, b)) (local_ : b.isLocal = true) (unsent : b.sentStep = false)
  (runs : p.stopped = false)
include found local_ unsent runs

/-- A contribution that is not under way waits on READYOBJ first. -/
theorem bucketContribute_of_idle (idle : b.sending = none) (unasked : b.readyWait = false) {o : Nat} (obj : s.objOf p.ctxNo b.readyObj.toNat = some o) {u : State}
    (hu : u = (s.updBucket k i fun b => { b with readyWait := true }).enqueue [(o, ⟨.ready k i, 1, true⟩)]) :
    bucketContribute k i s = (State.sendChunks k i (b.nchunk + 1) (if u.waited (.ready k i) = true
        then (u.consume (.ready k i)).updBucket k i fun b => { b with readyWait := false, sending := some 0 } else u)).rounds k := by
  subst hu
  simp only [bucketContribute, found, local_, unsent, runs, idle, unasked, obj, Option.isSome_none, Option.isNone_none, Bool.not_true, Bool.or_self,
    Bool.false_eq_true, if_false, Bool.true_and]

theorem bucketContribute_of_sending {c : Nat} (sending : b.sending = some c) :
    bucketContribute k i s = (State.sendChunks k i (b.nchunk + 1) s).rounds k := by
  simp only [bucketContribute, found, local_, unsent, runs, sending, Option.isSome_some, Option.isNone_some, Bool.not_true, Bool.or_self, Bool.true_or,
    Bool.false_eq_true, if_false, if_true, Bool.false_and]

end

/-- A contribution for the open step is added chunk by chunk, and full slots leave. -/
theorem contrib_of_open {s t : State} {p : Packet} {j i m input : Nat} {q : Plan} {b : Bucket} (h : s.ForJob p [2, 3] 1 j q t) (e : p.step = q.openStep)
    (entry : q.entryOf p.bucket.toNat = some (i, b)) (member : t.memberOf q p.src = some m) (place : b.inputs.findIdx? (fun x => x == m) = some input) :
    contrib p s = State.nodeOut j i b.depth ((List.range (bits p.arg.toNat 32 2)).foldl (fun (s : State) k =>
      s.nodeIn j i input (bits p.arg.toNat 0 32 + k) p.step (b.chunkOf (bitOf p.arg.toNat 34)
        ((p.payload.drop ((if bitOf p.arg.toNat 34 then 136 else 1032) * k)).take (if bitOf p.arg.toNat 34 then 136 else 1032)))) t) := by
  rw [contrib, State.onStep_of_open h e]
  simp only [entry, member, place]

theorem credit_of {s t : State} {p : Packet} {j i : Nat} {q : Plan} {b : Bucket} (h : s.ForJob p [3] 2 j q t)
    (entry : q.entryOf p.bucket.toNat = some (i, b)) :
    credit p s = State.nodeOut j i b.depth (t.updBucket j i fun b => { b with credits := b.credits + bits p.arg.toNat 0 32 }) := by
  rw [credit, State.onPacket_of h]
  simp only [entry]

/-- Has the sum of a bucket's slot left? -/
def State.slotGone (s : State) (q : Plan) (b : Bucket) (e : Nat × Option RSlot) : Bool :=
  match e.2 with | some x => x.sent && s.hasLeft q b x | none => false

theorem slotFree_of_some {s : State} {k i : Nat} {q : Plan} {b : Bucket} (found : s.bucketOf k i = some (q, b))
    (left : (b.slots.filter (s.slotGone q b)).length ≠ 0) : slotFree k i s =
      b.inputs.foldl (fun (u : State) m => u.inject { u.jobPacket q m 3 2 b.bucket (b.slots.filter (s.slotGone q b)).length [] with step := 0 })
        ((s.leaveSlots b (s.slotGone q b)).updBucket k i fun c => { c with slots := c.slots.filter fun e => !s.slotGone q b e }) := by
  unfold slotFree
  rw [found]
  exact if_neg left

theorem exec_bucketContribute {s : State} (h : s.Live) (k : Fin 16) (i : Nat) :
    exec (.bucketContribute k i) s = .next (s.settle (bucketContribute k i s)) := live_of h.1 h.2 _
theorem exec_contrib {s : State} (h : s.Live) (p : Packet) : exec (.contrib p) s = .next (s.settle (contrib p s)) := live_of h.1 h.2 _
theorem exec_credit {s : State} (h : s.Live) (p : Packet) : exec (.credit p) s = .next (s.settle (credit p s)) := live_of h.1 h.2 _
theorem exec_slotFree {s : State} (h : s.Live) (k : Fin 16) (i : Nat) : exec (.slotFree k i) s = .next (s.settle (slotFree k i s)) := live_of h.1 h.2 _
theorem exec_gatherReq {s : State} (h : s.Live) (p : Packet) : exec (.gatherReq p) s = .next (s.settle (gatherReq p s)) := live_of h.1 h.2 _

/-- Settles O37: the sender waits for READYOBJ, the node takes contributions in step, and slots and credits come back. -/
theorem contributionsAreAddedInStep : Obligations.contributions_are_added_in_step := by
  intro s live
  refine ⟨?_, ?_, ?_, ?_, ?_, ?_⟩
  · intro k i p b o u found local_ unsent runs idle unasked obj hu
    rw [exec_bucketContribute live, bucketContribute_of_idle found local_ unsent runs idle unasked obj hu]
  · intro k i p b c found local_ unsent runs sending
    rw [exec_bucketContribute live, bucketContribute_of_sending found local_ unsent runs sending]
  · intro p j q t i b m input due e entry member place
    rw [exec_contrib live, contrib_of_open due e entry member place]
  · intro c p j q t h
    rcases h with ⟨rfl, due⟩ | ⟨rfl, due⟩
    · rw [exec_contrib live, contrib]
      exact ⟨fun later => by rw [State.onStep_of_later due later]; rfl, fun earlier => by rw [State.onStep_of_earlier due earlier]⟩
    · rw [exec_gatherReq live, gatherReq]
      exact ⟨fun later => by rw [State.onStep_of_later due later]; rfl, fun earlier => by rw [State.onStep_of_earlier due earlier]⟩
  · intro p j q t i b due entry
    rw [exec_credit live, credit_of due entry]
  · intro k i q b gone found hgone left
    obtain rfl : gone = s.slotGone q b := hgone
    rw [exec_slotFree live, slotFree_of_some found left]

/-! The update of shards. -/

section
variable {s : State} {k i pos : Nat} {p : Plan} {b : Bucket} {slot : RSlot} {rest : List (Nat × RSlot)} {x : Shard} {reads : List (Nat × Nat)}
  (found : s.bucketOf k i = some (p, b)) (next : b.pending = (pos, slot) :: rest) (hx : x = s.shardOf p b)
  (hreads : reads = s.acceptReads x slot.chunk ++ (if streams p x then x.stateReads slot.chunk else []))
include found next hx hreads

theorem updateChunk_of_poison {r : Nat × Nat} (bad : s.poisonedOf reads = some r) : updateChunk k i s = s.unitPoisoned k i p r := by
  subst hx hreads
  simp only [updateChunk, found, next, bad]

/-- A chunk that the unit can read is booked, reported and taken. -/
theorem updateChunk_of_good {d : Summed} {booked : Bucket} {u : State} (good : s.poisonedOf reads = none) (hd : d = summedOf (b.outRecord slot))
    (hb : booked = s.bookChunk x slot.chunk d { b with
          pending := rest
          slots := Tab.set (fun _ => none) b.slots pos (some { slot with sent := true })
          delivered := b.delivered + 1
          hyper := if b.hyper = [] then s.rdN (fieldAt (s.shardDesc b) 0x10 8) 64 else b.hyper })
    (hu : u = (s.updBucket k i fun _ => booked).reportChunk k i slot.chunk d) :
    updateChunk k i s = u.takeChunk k i slot.chunk x d p b (booked.delivered == b.nchunk) := by
  subst hx hreads hd hb hu
  simp only [updateChunk, found, next, good]

end

section
variable (u : State) (k i c : Nat) {p : Plan} {x : Shard} (d : Summed) (b : Bucket) (last : Bool)

theorem State.takeChunk_of_stream (streaming : streams p x = true) {v : State} {n : Norms}
    (h : (if (u.unitOf b).isSome then u.updateChunkBlocks x none c d (b.wsq, b.dsq) else (u, (b.wsq, b.dsq))) = (v, n)) :
    u.takeChunk k i c x d p b last =
      ((v.updBucket k i fun y => { y with shadowWritten := true, wsq := n.1, dsq := n.2, shadow := last }).countUpd b 1024).rounds k := by
  simp only [State.takeChunk, streaming, if_true, h]

/-- A chunk of a holding owner in the hold area. -/
def State.holdChunk (x : Shard) : State :=
  ((((u.store (x.hold + 1024 * c) d.codes).store (x.hold + x.elems + 32 * c) d.flags).updBucket k i fun y => { y with held := last }).countUpd b 0)

variable (holding : streams p x = false)
include holding

theorem State.takeChunk_of_hold_more : u.takeChunk k i c x d p b false = u.holdChunk k i c d b false x := by
  simp only [State.takeChunk, holding, Bool.false_eq_true, if_false, Bool.not_false, if_true]
  rfl

theorem State.takeChunk_of_hold_unclipped (unclipped : p.clipMode = 0) :
    u.takeChunk k i c x d p b true = (u.holdChunk k i c d b true x).updateHeld k i none := by
  simp only [State.takeChunk, holding, Bool.false_eq_true, if_false, Bool.not_true, unclipped, if_true]
  rfl

theorem State.takeChunk_of_hold_clipped (clipped : p.clipMode ≠ 0) {r : Plan} (plan : (u.holdChunk k i c d b true x).plan k = some r) :
    u.takeChunk k i c x d p b true = ((if p.clipMode = 2 && r.allHeld then (u.holdChunk k i c d b true x).telemetryAll k 0
      else u.holdChunk k i c d b true x).rounds k).updateClipped k := by
  simp only [State.holdChunk] at plan ⊢
  simp only [State.takeChunk, holding, Bool.false_eq_true, if_false, Bool.not_true, clipped, plan]

end

theorem shadowComplete_of_updated {s : State} {k i : Nat} {p : Plan} {b : Bucket} (found : s.bucketOf k i = some (p, b)) (owner : b.isOwner = true)
    (held : b.held = true) (written : b.shadowWritten = true) (open_ : b.shadow = false) :
    shadowComplete k i s = ((s.updBucket k i fun b => { b with shadow := true }).countUpd b (1024 * b.nchunk)).rounds k := by
  simp only [shadowComplete, found, owner, held, written, open_, Bool.not_true, Bool.or_self, Bool.false_eq_true, if_false]

/-! The master and the tree. -/

section
variable {s t : State} {p : Packet} {j : Nat} {q : Plan}

theorem norm_of_open (h : s.ForJob p [2] 2 j q t) (e : p.step = q.openStep) (master : q.isMaster = true) (clip : q.clipMode = 1) : norm p s =
    ((t.setPlan j (some (q.putNorm (bits p.arg.toNat 0 16) (BitVec.ofNat 64 (fieldAt p.payload 0 8)) (fieldAt p.payload 8 4)))).decideNorms j).updateClipped j := by
  have plan : s.planOfJob p.job.toNat = some (j, q) := h.2.2.2
  simp only [norm, plan, takeNorm, State.onStep_of_open h e, master, clip, Bool.not_true, bne_self_eq_false, Bool.or_self, Bool.false_eq_true, if_false]

theorem status_of_open (h : s.ForJob p [2] 3 j q t) (e : p.step = q.openStep) (runs : q.stopped = false) {m : Nat} {x : Nat × Nat × Nat × Nat}
    (hm : m = bits p.arg.toNat 0 16) (hx : x = (m, fieldAt p.payload 0 4, fieldAt p.payload 4 4, fieldAt p.payload 8 4)) : status p s =
    if bitOf p.arg.toNat 16 then (t.setPlan j (some { q with firstFrom := (q.firstFrom.filter fun e => e.1 != m) ++ [x] })).firstRound j
    else (t.setPlan j (some { q with finalFrom := (q.finalFrom.filter fun e => e.1 != m) ++ [x] })).finalRound j := by
  subst hm hx
  rw [status, State.onPacket_of h]
  simp only [e, runs, ne_eq, not_true_eq_false, Bool.false_eq_true, or_self, if_false]

theorem abortReq_of_open (h : s.ForJob p [2] 4 j q t) (e : p.step = q.openStep) (master : q.isMaster = true) :
    abortReq p s = t.masterToken j 4 (bits p.arg.toNat 0 8) := by
  rw [abortReq, State.onPacket_of h]
  simp only [e, master, beq_self_eq_true, Bool.and_self, if_true]

theorem tokenClip_of_open (h : s.ForJob p [4] 1 j q t) (e : p.step = q.openStep) (kind : bits p.arg.toNat 0 8 = 1) {c : Word}
    (hc : c = BitVec.ofNat 32 (bits p.arg.toNat 32 32)) : tokenClip p s = (((t.sendToken q 1 (bits p.arg.toNat 8 8) (bits p.arg.toNat 32 32)).updPlan j fun q =>
        { q with clip := c, clipGot := true, state := 1 }).updateAllHeld j (some c)).rounds j := by
  subst hc
  rw [tokenClip, State.onToken_of h e kind]

end

theorem exec_updateChunk {s : State} (h : s.Live) (k : Fin 16) (i : Nat) : exec (.updateChunk k i) s = .next (s.settle (updateChunk k i s)) :=
  live_of h.1 h.2 _
theorem exec_shadowComplete {s : State} (h : s.Live) (k : Fin 16) (i : Nat) :
    exec (.shadowComplete k i) s = .next (s.settle (shadowComplete k i s)) := live_of h.1 h.2 _
theorem exec_norm {s : State} (h : s.Live) (p : Packet) : exec (.norm p) s = .next (s.settle (norm p s)) := live_of h.1 h.2 _
theorem exec_status {s : State} (h : s.Live) (p : Packet) : exec (.status p) s = .next (s.settle (status p s)) := live_of h.1 h.2 _
theorem exec_abortReq {s : State} (h : s.Live) (p : Packet) : exec (.abortReq p) s = .next (s.settle (abortReq p s)) := live_of h.1 h.2 _
theorem exec_tokenClip {s : State} (h : s.Live) (p : Packet) : exec (.tokenClip p) s = .next (s.settle (tokenClip p s)) := live_of h.1 h.2 _

/-- Settles O38: a chunk is streamed or held by its owner's kind, and each packet of a step's decision is taken at its member. -/
theorem shardsAreUpdatedAndTheMasterDecides : Obligations.shards_are_updated_and_the_master_decides := by
  intro s live
  refine ⟨?_, ?_, ?_, ?_, ?_, ?_⟩
  · intro k i p b pos slot rest x reads found next hx hreads
    refine ⟨fun r bad => by rw [exec_updateChunk live, updateChunk_of_poison found next hx hreads bad], fun d u booked good hd hb hu => ?_⟩
    rw [exec_updateChunk live, updateChunk_of_good found next hx hreads good hd hb hu]
    refine ⟨fun streaming v n h => by rw [u.takeChunk_of_stream k i slot.chunk d b _ streaming h], fun holding => ?_⟩
    refine ⟨u.holdChunk k i slot.chunk d b (booked.delivered == b.nchunk) x, rfl, fun more => ?_, fun all unclipped => ?_, fun r all clipped plan => ?_⟩
    · rw [beq_eq_false_iff_ne.mpr more, u.takeChunk_of_hold_more k i slot.chunk d b holding]
    · rw [beq_iff_eq.mpr all, u.takeChunk_of_hold_unclipped k i slot.chunk d b holding unclipped]
    · rw [beq_iff_eq.mpr all] at plan ⊢
      rw [u.takeChunk_of_hold_clipped k i slot.chunk d b holding clipped plan]
  · intro k i p b found owner held written open_
    rw [exec_shadowComplete live, shadowComplete_of_updated found owner held written open_]
  · intro p j q t due e master clip
    rw [exec_norm live, norm_of_open due e master clip]
  · intro p j q t m x due e runs hm hx
    rw [exec_status live, status_of_open due e runs hm hx]
    exact ⟨fun first => by rw [if_pos first], fun final => by rw [if_neg (Bool.eq_false_iff.mp final)]⟩
  · intro p j q t due e master
    rw [exec_abortReq live, abortReq_of_open due e master]
  · intro p j q t c due e kind hc
    rw [exec_tokenClip live, tokenClip_of_open due e kind hc]

/-! Gathers and broadcasts. -/

theorem gatherStart_of_idle {s : State} {k i o : Nat} {p : Plan} {b : Bucket} {u v : State} (found : s.bucketOf k i = some (p, b)) (sharded : p.sharded = true)
    (named : b.gathObj ≠ 0xFFFF) (idle : b.gathering = false) (runs : p.stopped = false) (unasked : b.gathWait = false)
    (obj : s.objOf p.ctxNo b.gathObj.toNat = some o) (hu : u = (s.updBucket k i fun b => { b with gathWait := true }).enqueue [(o, ⟨.gath k i, 1, true⟩)])
    (hv : v = (u.consume (.gath k i)).updBucket k i fun b => { b with gathWait := false, gathering := true, gathered := [], scalesGot := [] }) :
    gatherStart k i s = if u.waited (.gath k i) = true
      then v.inject (v.jobPacket p (Config.ownerMember p.job.toNat b.bucket.toNat) 0 1 b.bucket (2 ^ 32 * b.nchunk) []) else u := by
  have named' : decide (b.gathObj = 0xFFFF) = false := decide_eq_false named
  subst hv
  unfold gatherStart
  simp only [found, sharded, named', idle, runs, unasked, obj, Bool.not_true, Bool.or_self, Bool.false_eq_true, if_false, ← hu]
  cases u.waited (.gath k i) <;> simp

section
variable {s t : State} {p : Packet} {j i : Nat} {q : Plan} {b : Bucket}

theorem gatherReq_of_open {m v first n : Nat} (h : s.ForJob p [0] 1 j q t) (e : p.step = q.openStep) (entry : q.entryOf p.bucket.toNat = some (i, b))
    (member : t.memberOf q p.src = some m) (owner : b.isOwner = true) (hv : v = q.version.toNat) (hf : first = bits p.arg.toNat 0 32)
    (hn : n = min (bits p.arg.toNat 32 32) (b.nchunk - first)) : gatherReq p s =
      (b.groups.filter fun c => decide (first < c + 32) && decide (c < first + n)).foldl (fun (s : State) c =>
          s.inject (s.jobPacket q m 1 2 b.bucket (c + 2 ^ 32 * v) (s.scaleData b c)))
        ((List.range n).foldl (fun (s : State) k => s.inject (s.jobPacket q m 1 1 b.bucket (first + k + 2 ^ 32 * v) (s.chunkData b v (first + k)))) t) := by
  subst hn hf hv
  rw [gatherReq, State.onStep_of_open h e]
  simp only [entry, member, owner, Bool.not_true, Bool.false_eq_true, if_false]

section
variable {v : Nat} (found : t.bucketOf j i = some (q, b)) (gathering : b.gathering = true) (sane : b.gatherBad = false) (f : Bucket → State → State)
include found gathering sane

theorem State.onGather_of_same {w : Word} (version : b.gatherV = some w) (e : w.toNat = v) : t.onGather j i v f = (f b t).arrived j i := by
  simp only [State.onGather, found, gathering, sane, version, e, Bool.not_true, Bool.or_self, Bool.false_eq_true, if_false, if_true]

/-- Another version stops the gather, with PARAM_VERSION and an abort request. -/
theorem State.onGather_of_other {w : Word} (version : b.gatherV = some w) (e : w.toNat ≠ v) : t.onGather j i v f =
    ((t.updBucket j i fun b => { b with gatherBad := true }).raisePlan q 0x0402
      (leBytes 2 q.job.toNat ++ leBytes 4 q.openStep.toNat ++ leBytes 4 b.bucket.toNat ++ leBytes 2 w.toNat ++ leBytes 2 v)).requestAbort j 2 := by
  simp only [State.onGather, found, gathering, sane, version, e, Bool.not_true, Bool.or_self, Bool.false_eq_true, if_false]

theorem State.onGather_of_first (version : b.gatherV = none) :
    t.onGather j i v f = (f b (t.updBucket j i fun b => { b with gatherV := some (BitVec.ofNat 32 v) })).arrived j i := by
  simp only [State.onGather, found, gathering, sane, version, Bool.not_true, Bool.or_self, Bool.false_eq_true, if_false]

end

theorem gatherData_of {e : Bucket} (h : s.ForJob p [1] 1 j q t) (entry : q.entryOf p.bucket.toNat = some (i, e)) :
    gatherData p s = t.onGather j i (bits p.arg.toNat 32 32) fun b s =>
      (s.putChunk b (bits p.arg.toNat 32 32) (bits p.arg.toNat 0 32) p.payload).updBucket j i fun b => { b with gathered := b.gathered ++ [bits p.arg.toNat 0 32] } := by
  rw [gatherData, State.onPacket_of h]
  simp only [entry]

theorem gatherScales_of {e : Bucket} (h : s.ForJob p [1] 2 j q t) (entry : q.entryOf p.bucket.toNat = some (i, e)) :
    gatherScales p s = t.onGather j i (bits p.arg.toNat 32 32) fun b s =>
      (s.putScales b (bits p.arg.toNat 0 32) p.payload).updBucket j i fun b => { b with scalesGot := b.scalesGot ++ [bits p.arg.toNat 0 32] } := by
  rw [gatherScales, State.onPacket_of h]
  simp only [entry]

theorem bcastData_of {c v : Nat} (h : s.ForJob p [4] 2 j q t) (entry : q.entryOf p.bucket.toNat = some (i, b)) (hc : c = bits p.arg.toNat 0 32)
    (hv : v = bits p.arg.toNat 32 32) : bcastData p s = (((t.forwardBcast q b p).putChunk b v c p.payload).updBucket j i fun b =>
        { b.arrivalOf v with gathered := (b.arrivalOf v).gathered ++ [c] }).arrived j i := by
  subst hc hv
  rw [bcastData, State.onPacket_of h]
  simp only [entry]

theorem bcastScales_of {c v : Nat} (h : s.ForJob p [4] 3 j q t) (entry : q.entryOf p.bucket.toNat = some (i, b)) (hc : c = bits p.arg.toNat 0 32)
    (hv : v = bits p.arg.toNat 32 32) : bcastScales p s = (((t.forwardBcast q b p).putScales b c p.payload).updBucket j i fun b =>
        { b.arrivalOf v with scalesGot := (b.arrivalOf v).scalesGot ++ [c] }).arrived j i := by
  subst hc hv
  rw [bcastScales, State.onPacket_of h]
  simp only [entry]

end

theorem exec_gatherStart {s : State} (h : s.Live) (k : Fin 16) (i : Nat) : exec (.gatherStart k i) s = .next (s.settle (gatherStart k i s)) :=
  live_of h.1 h.2 _
theorem exec_gatherData {s : State} (h : s.Live) (p : Packet) : exec (.gatherData p) s = .next (s.settle (gatherData p s)) := live_of h.1 h.2 _
theorem exec_gatherScales {s : State} (h : s.Live) (p : Packet) : exec (.gatherScales p) s = .next (s.settle (gatherScales p s)) := live_of h.1 h.2 _
theorem exec_bcastData {s : State} (h : s.Live) (p : Packet) : exec (.bcastData p) s = .next (s.settle (bcastData p s)) := live_of h.1 h.2 _
theorem exec_bcastScales {s : State} (h : s.Live) (p : Packet) : exec (.bcastScales p) s = .next (s.settle (bcastScales p s)) := live_of h.1 h.2 _

/-- Settles O40: a gather is asked for, answered and written by its version; a broadcast is forwarded and written. -/
theorem gathersAndBroadcastsDeliverCopies : Obligations.gathers_and_broadcasts_deliver_copies := by
  intro s live
  refine ⟨?_, ?_, ?_, ?_, ?_, ?_⟩
  · intro k i p b o u v found sharded named idle runs unasked obj hu hv
    rw [exec_gatherStart live, gatherStart_of_idle found sharded named idle runs unasked obj hu hv]
  · intro p j q t i b m v first n due e entry member owner hv hf hn
    rw [exec_gatherReq live, gatherReq_of_open due e entry member owner hv hf hn]
  · rintro p j q t i e b c v w due entry found gathering sane rfl rfl version
    rw [exec_gatherData live, gatherData_of due entry]
    exact ⟨fun same => by rw [State.onGather_of_same found gathering sane _ version same],
      fun other => by rw [State.onGather_of_other found gathering sane _ version other]⟩
  · rintro p j q t i e b c v due entry found gathering sane rfl rfl version
    rw [exec_gatherScales live, gatherScales_of due entry, State.onGather_of_first found gathering sane _ version]
  · intro p j q t i b c v due entry hc hv
    rw [exec_bcastData live, bcastData_of due entry hc hv]
  · intro p j q t i b c v due entry hc hv
    rw [exec_bcastScales live, bcastScales_of due entry hc hv]

end Sys2Proof.Machine
end

section
/-!
PROOF. Resets of one unit and of the module (R533-R550): O46 and O47.
-/
namespace Sys2Proof.Machine

/-- A row of the reset controller that leaves the queue gives its own state. -/
theorem liveReset_of_only {l : List Part} {s t : State} (h : s.tap.used = false) {f : State → State} (e : f s = t) (k : ChangesOnly l s t)
    (hl : Part.pending ∉ l) : liveReset s f = .next t := by
  have hp : t.pending = s.pending := k .pending hl
  rw [liveReset_of h, e, ← hp]

theorem always_of {s t : State} {f : State → State} (e : f s = t) (hp : t.pending = s.pending) : always s f = .next t := by
  unfold always
  rw [e, ← hp]

theorem State.dropSmall_only (s : State) (r : SmallReset) : ChangesOnly [.rst] s (s.dropSmall r) := by
  intro p hp; cases p <;> first | (exfalso; revert hp; decide) | rfl

/-! The array reset. -/

theorem exec_arrayReset {s : State} (h : s.Live) (a : Fin 8) : exec (.arrayReset a) s = .next (s.settle (arrayReset a s)) := live_of h.1 h.2 _

section
variable {s : State} {a : Nat} {r : SmallReset}

theorem arrayReset_of_none (h : s.smallReset 1 a = none) : arrayReset a s = s := by simp only [arrayReset, h]

theorem arrayReset_of_begun (h : s.smallReset 1 a = some r) (begun : r.began.isSome = true) : arrayReset a s = s := by
  simp only [arrayReset, h, begun, true_or, if_true]

theorem arrayReset_of_limit (h : s.smallReset 1 a = some r) (dog : r.watchdog = 1 ∨ r.watchdog = 2) (limit : s.arrayAtLimit a = true) :
    arrayReset a s = s := by
  simp only [arrayReset, h, dog, limit, and_self, or_true, if_true]

theorem arrayReset_of_due (h : s.smallReset 1 a = some r) (fresh : r.began = none)
    (allowed : ¬ ((r.watchdog = 1 ∨ r.watchdog = 2) ∧ s.arrayAtLimit a = true)) : arrayReset a s =
      State.beginSmall (if r.watchdog = 1 ∨ r.watchdog = 2 then (s.resetArray a).setArray a
        { (s.resetArray a).array a with resetTimes := (s.resetArray a).now :: ((s.resetArray a).array a).resetTimes.take 15 } else s.resetArray a) r := by
  simp only [arrayReset, h, fresh, Option.isSome_none, Bool.false_eq_true, allowed, or_self, if_false]

theorem arrayResetEscalate_of_none (h : s.smallReset 1 a = none) : arrayResetEscalate a s = s := by simp only [arrayResetEscalate, h]

theorem arrayResetEscalate_of_early (h : s.smallReset 1 a = some r) (early : s.now < r.at_ + 100000)
    (allowed : ¬ ((r.watchdog = 1 ∨ r.watchdog = 2) ∧ s.arrayAtLimit a = true)) : arrayResetEscalate a s = s := by
  simp only [arrayResetEscalate, h]
  exact if_pos ⟨early, allowed⟩

theorem arrayResetEscalate_of_due (h : s.smallReset 1 a = some r)
    (due : r.at_ + 100000 ≤ s.now ∨ (r.watchdog = 1 ∨ r.watchdog = 2) ∧ s.arrayAtLimit a = true) :
    arrayResetEscalate a s = (s.dropSmall r).requestWarm 10 a r.watchdog true true := by
  simp only [arrayResetEscalate, h]
  exact if_neg fun ⟨early, allowed⟩ => due.elim (fun late => absurd early (Nat.not_lt.2 late)) allowed

end

theorem State.arrayAtLimit_iff {s : State} {a : Nat} : s.arrayAtLimit a = true ↔ s.rst.arrLimit.toNat ≤ s.arrResets a := by
  simp only [State.arrayAtLimit, decide_eq_true_eq]

/-- What a performed array reset leaves of the arrays, the fabric and the reset controller: `w` is the state after the faults of the array's contexts. -/
theorem State.resetArray_arrays {s w : State} {a : Nat} (hw : w = (s.ctxsOnArray a).foldl (fun (s : State) c => s.faultCtx c 11 a 0 srcReset 0) s) :
    (∀ b, b ≠ a → (s.resetArray a).array b = w.array b) ∧ (s.resetArray a).fab = s.fab ∧ (s.resetArray a).rst = s.rst ∧ (s.resetArray a).now = s.now ∧
      (Tab.rising w.arrays = true → (s.resetArray a).array a = (w.array a).afterReset ∧ Tab.rising (s.resetArray a).arrays = true) := by
  obtain ⟨v, kept, _, arrays, e⟩ := s.resetArray_shape a
  rw [← hw] at arrays
  have same (b : Nat) : v.array b = w.array b := congrArg (fun t => Tab.get _ t b) arrays
  have only := s.resetArray_only a
  refine ⟨fun b ne => ?_, only .fab (by decide), only .rst (by decide), only .now (by decide), fun rising => ?_⟩
  · rw [e, State.array_setArray_ne _ _ ne.symm, same]
  · rw [← arrays] at rising
    rw [e, State.array_setArray_self _ _ rising, same]
    exact ⟨rfl, Tab.rising_set (bg := fun _ => ArrayUnit.reset) rising _ _⟩

/-- A performed array reset, for the state before its bookkeeping: the other arrays, and the array itself with the stamp of a watchdog's reset. -/
theorem arrayReset_performed {s w : State} {a : Nat} {r : SmallReset} (h : s.smallReset 1 a = some r) (fresh : r.began = none)
    (allowed : ¬ ((r.watchdog = 1 ∨ r.watchdog = 2) ∧ s.arrayAtLimit a = true))
    (hw : w = (s.ctxsOnArray a).foldl (fun (s : State) c => s.faultCtx c 11 a 0 srcReset 0) s) :
    ∃ u, arrayReset a s = State.beginSmall u r ∧ (∀ b, b ≠ a → u.array b = w.array b) ∧ u.fab = s.fab ∧ u.rst = s.rst ∧
      (Tab.rising w.arrays = true → u.array a = if r.watchdog = 1 ∨ r.watchdog = 2
        then { (w.array a).afterReset with resetTimes := s.now :: (w.array a).resetTimes.take 15 } else (w.array a).afterReset) := by
  obtain ⟨others, fab, rst, now, own⟩ := State.resetArray_arrays hw
  refine ⟨_, arrayReset_of_due h fresh allowed, ?_⟩
  by_cases dog : r.watchdog = 1 ∨ r.watchdog = 2
  · simp only [if_pos dog]
    refine ⟨fun b ne => ?_, fab, rst, fun rising => ?_⟩
    · rw [State.array_setArray_ne _ _ ne.symm, others b ne]
    · obtain ⟨x, still⟩ := own rising
      rw [State.array_setArray_self _ _ still, x, now]
      rfl
  · simp only [if_neg dog]
    exact ⟨others, fab, rst, fun rising => (own rising).1⟩

theorem exec_arrayResetEscalate {s t : State} (h : s.Live) (a : Fin 8) (e : arrayResetEscalate a s = t) (k : ChangesOnly [.rst] s t) :
    exec (.arrayResetEscalate a) s = .next t := liveReset_of_only h.1 e k (by decide)

/-! The port reset. -/

section
variable {s : State} {p : Nat} {r : SmallReset}

theorem portReset_of_none (h : s.smallReset 2 p = none) : portReset p s = s := by simp only [portReset, h]

theorem portReset_of_begun (h : s.smallReset 2 p = some r) (begun : r.began.isSome = true) : portReset p s = s := by
  simp only [portReset, h, begun, if_true]

theorem portReset_of_other (h : s.smallReset 2 p = some r) (fresh : r.began = none) (other : r.watchdog ≠ 5) :
    portReset p s = (s.resetPort p).beginSmall r := by
  simp only [portReset, h, fresh, Option.isSome_none, Bool.false_eq_true, other, false_and, if_false]

theorem portReset_of_starved {u v : State} (h : s.smallReset 2 p = some r) (fresh : r.began = none) (dog : r.watchdog = 5)
    (hu : u = (s.resetPort p).setPort p { (s.resetPort p).port p with resets := s.now :: ((s.resetPort p).port p).resets.take 15 })
    (hv : v = { u with rst := { u.rst with portHeld := BitVec.ofNat 16 (setBitOf u.rst.portHeld.toNat p true) } }) :
    portReset p s = State.beginSmall (if 8 ≤ u.portResets p then v.setPort p { u.port p with state := if (u.port p).state = 4 then 4 else 5 } else u) r := by
  have now : (s.resetPort p).now = s.now := s.resetPort_only p .now (by decide)
  rw [← now] at hu
  subst hv hu
  simp only [portReset, h, fresh, Option.isSome_none, Bool.false_eq_true, dog, if_true, if_false, true_and]
  rfl

end

theorem exec_portReset {s : State} (h : s.Live) (p : Fin 16) : exec (.portReset p) s = .next (s.settle (portReset p s)) := live_of h.1 h.2 _

/-! The end of a held reset. -/

theorem State.endSmall_of_single {s : State} {r : SmallReset} {t : Nat} (h : s.rst.small = [r]) (begun : r.began = some t) : s.endSmall =
    if s.now < t + 10000 then s else if r.scope = 2 then (s.smallDone r r.index).portLeaves r.index else s.smallDone r r.index := by
  unfold State.endSmall
  rw [h]
  simp only [List.foldl_cons, List.foldl_nil, begun]

/-! The channel reset. -/

section
variable {s : State} {n c : Nat} {r : SmallReset} (h : s.smallReset 3 (16 * n + c) = some r)
include h

/-- A channel's half stops: writes whose bursts have left are gone, the other requests wait without a slot and the rows are closed (R537). -/
def Stack.haltPc (k : Stack) (q : Nat) : Stack :=
  k.setPc q { k.pc q with
    window := ((k.pc q).window.filter fun r => !(r.slotted && r.req.isWrite)).map fun r => { r with slotted := false }, openRows := [] }

theorem hbmChannelReset_of_due (idle : ((s.stack n).chan c).resetAt = none) : hbmChannelReset n c s =
    (s.setStack n ((((s.stack n).setChan c { (s.stack n).chan c with resetAt := some s.now }).haltPc (2 * c)).haltPc (2 * c + 1))).dropChannelLines n c := by
  simp only [hbmChannelReset, h, idle, Option.isSome_none, Bool.false_eq_true, if_false]
  rfl

variable {t : Nat} (begun : ((s.stack n).chan c).resetAt = some t)
include begun

theorem hbmChannelReset_of_begun : hbmChannelReset n c s = s := by
  simp only [hbmChannelReset, h, begun, Option.isSome_some, if_true]

theorem hbmChannelRetrained_of : hbmChannelRetrained n c s = if s.now < t + 10000 then s else
    (s.setStack n ((s.stack n).setChan c { (s.stack n).chan c with resetAt := none, servedFrom := s.hbmCycle n })).smallDone r n := by
  simp only [hbmChannelRetrained, h, begun]

theorem hbmRetrainTimeout_of : hbmRetrainTimeout n c s = if s.now < t + 500000 then s else
    ((s.setStack n ((s.stack n).setChan c { (s.stack n).chan c with resetAt := none })).dropSmall r).requestWarm 10 n r.watchdog true true := by
  simp only [hbmRetrainTimeout, h, begun]

end

theorem State.dropChannelLines_only (s : State) (n c : Nat) : ChangesOnly [.dsc] s (s.dropChannelLines n c) := s.setDsc_only _ _

theorem exec_hbmChannelReset {s t : State} (h : s.Live) (n : Fin 24) (c : Fin 16) (e : hbmChannelReset n c s = t) (k : ChangesOnly [.hbm, .dsc] s t) :
    exec (.hbmChannelReset n c) s = .next t := by
  rw [← settle_only k (by decide), ← e]
  exact live_of h.1 h.2 _
theorem exec_hbmChannelRetrained {s : State} (h : s.Live) (n : Fin 24) (c : Fin 16) :
    exec (.hbmChannelRetrained n c) s = .next (s.settle (hbmChannelRetrained n c s)) := live_of h.1 h.2 _
theorem exec_hbmRetrainTimeout {s : State} (h : s.Live) (n : Fin 24) (c : Fin 16) :
    exec (.hbmRetrainTimeout n c) s = .next (s.settle (hbmRetrainTimeout n c s)) := live_of h.1 h.2 _

theorem State.settle_self (s : State) : s.settle s = s := settle_only (.refl [] s) (by decide)

/-- Settles O46: each small reset reaches its own unit, is held, completes, and escalates in its cases. -/
theorem unitsResetAloneAndEscalate : Obligations.units_reset_alone_and_escalate := by
  intro s live
  refine ⟨?held, ?array, ?noArray, ?arrayBegun, ?port, ?noPort, ?channel⟩
  case held =>
    intro r t only begun
    rw [State.endSmall_of_single only begun]
    exact ⟨fun early => if_pos early, fun late => if_neg (Nat.not_lt.2 late)⟩
  case array =>
    intro a r dog w found fresh hdog hw
    have dogIff : dog = true ↔ r.watchdog = 1 ∨ r.watchdog = 2 := by rw [hdog, decide_eq_true_eq]
    refine ⟨fun allowed => ?_, fun isDog limit => ?_, fun due => ?_, fun early noDog => ?_⟩
    · obtain ⟨u, e, others, fab, rst, own⟩ := arrayReset_performed found fresh (fun ⟨isDog, limit⟩ => by
        rcases allowed with off | below
        · rw [dogIff.2 isDog] at off; cases off
        · exact absurd (State.arrayAtLimit_iff.1 limit) (Nat.not_le.2 below)) hw
      refine ⟨u, by rw [exec_arrayReset live, e], fun b ne => others b (fun eq => ne (Fin.ext eq)), fab, rst, fun rising => ?_⟩
      rw [own rising]
      simp only [dogIff]
    · rw [exec_arrayReset live, arrayReset_of_limit found (dogIff.1 isDog) (State.arrayAtLimit_iff.2 limit), s.settle_self]
    · refine exec_arrayResetEscalate live a (arrayResetEscalate_of_due found ?_) ((s.dropSmall_only r).trans (State.requestReset_only _ _))
      exact due.imp_right fun ⟨isDog, limit⟩ => ⟨dogIff.1 isDog, State.arrayAtLimit_iff.2 limit⟩
    · refine exec_arrayResetEscalate live a (arrayResetEscalate_of_early found early fun ⟨isDog, _⟩ => ?_) (.refl _ s)
      rw [dogIff.2 isDog] at noDog; cases noDog
  case noArray =>
    intro a none_
    exact ⟨by rw [exec_arrayReset live, arrayReset_of_none none_, s.settle_self],
      exec_arrayResetEscalate live a (arrayResetEscalate_of_none none_) (.refl _ s)⟩
  case arrayBegun =>
    intro a r found begun
    rw [exec_arrayReset live, arrayReset_of_begun found begun, s.settle_self]
  case port =>
    intro p r found
    refine ⟨fun begun => ?_, fun fresh other => ?_, fun fresh dog => ?_⟩
    · rw [exec_portReset live, portReset_of_begun found begun, s.settle_self]
    · rw [exec_portReset live, portReset_of_other found fresh other]
    · refine ⟨_, _, rfl, rfl, ?_⟩
      rw [exec_portReset live, portReset_of_starved found fresh dog rfl rfl]
  case noPort =>
    intro p none_
    rw [exec_portReset live, portReset_of_none none_, s.settle_self]
  case channel =>
    intro n c r k halt found hk hhalt
    subst hk hhalt
    refine ⟨fun idle => ?_, fun t begun => ⟨?_, fun early => ?_, fun late => ?_, fun late => ?_, fun early => ?_⟩⟩
    · exact exec_hbmChannelReset live n c (hbmChannelReset_of_due found idle)
        (((s.setStack_only _ _).mono (by decide)).trans ((State.dropChannelLines_only _ _ _).mono (by decide)))
    · exact exec_hbmChannelReset live n c (hbmChannelReset_of_begun found begun) (.refl _ s)
    · rw [exec_hbmChannelRetrained live, hbmChannelRetrained_of found begun, if_pos early, s.settle_self]
    · rw [exec_hbmChannelRetrained live, hbmChannelRetrained_of found begun, if_neg (Nat.not_lt.2 late)]
    · rw [exec_hbmRetrainTimeout live, hbmRetrainTimeout_of found begun, if_neg (Nat.not_lt.2 late)]
    · rw [exec_hbmRetrainTimeout live, hbmRetrainTimeout_of found begun, if_pos early, s.settle_self]

/-! Resets of the function and of the module. -/

section
variable {s : State} {r : InReset} (asked : s.rst.pending = some r)
include asked

theorem functionReset_of_other (h : r.scope ≠ 4) : functionReset s = s := by
  simp only [functionReset, asked]
  exact if_pos h

theorem warmModuleReset_of_other (h : r.scope ≠ 5) : warmModuleReset s = s := by
  simp only [warmModuleReset, asked]
  exact if_pos h

theorem coldModuleReset_of_other (h : r.scope ≠ 6) : coldModuleReset s = s := by
  simp only [coldModuleReset, asked]
  exact if_pos h

end

theorem exec_functionReset {s : State} (h : s.Live) : exec .functionReset s = .next (s.settle (functionReset s)) := live_of h.1 h.2 _

/-- Settles O47: each reset clears what it covers and keeps the rest, and does nothing without a request of its scope. -/
theorem moduleResetsClearAndKeep : Obligations.module_resets_clear_and_keep := by
  intro s r asked
  refine ⟨fun live scope => ?_, fun unused scope => ?_, fun scope => ?_, fun live scope => ?_, fun unused scope => ?_, fun scope => ?_⟩
  · obtain ⟨t, e, effect⟩ := functionReset_shape s r asked scope
    have kept := effect.2.2.2.2.2.2.2.2.2.2.2.2.2.2.2
    refine ⟨t, ?_, effect⟩
    rw [exec_functionReset live, e, settle_only kept (by decide)]
  · obtain ⟨t, e, effect⟩ := warmModuleReset_shape s r asked scope
    exact ⟨{ t with pending := s.pending }, by rw [← e]; exact liveReset_of unused _, effect⟩
  · obtain ⟨t, e, effect⟩ := coldModuleReset_shape s r asked scope
    exact ⟨{ t with pending := s.pending }, by rw [← e]; rfl, effect⟩
  · rw [exec_functionReset live, functionReset_of_other asked scope, s.settle_self]
  · exact liveReset_of_only unused (warmModuleReset_of_other asked scope) (.refl [] s) (by decide)
  · exact always_of (coldModuleReset_of_other asked scope) rfl

end Sys2Proof.Machine
end

section
/-!
PROOF. Register writes through BAR0, reads that act and counters (R4, R586, R624): O1 to O4.
-/
namespace Sys2Proof.Machine

/-- A command of a running module whose effect reaches none of the settled parts gives that effect. -/
theorem live_of_only {l : List Part} {s t : State} (h : s.Live) {f : State → State} (e : f s = t) (k : ChangesOnly l s t)
    (hl : ∀ p ∈ [Part.pending, .now, .strapped, .tap, .eid, .flash, .boot], p ∉ l) : live s f = .next t := by
  rw [live_of h.1 h.2, e, settle_only k hl]

/-- A register write of a module whose BAR0 answers gives the write's effect. -/
theorem bar_live {l : List Part} {s t : State} (h : s.Live) (b : s.barLive = true) {f : State → State} (e : f s = t) (k : ChangesOnly l s t)
    (hl : ∀ p ∈ [Part.pending, .now, .strapped, .tap, .eid, .flash, .boot], p ∉ l) : live s (fun s => s.bar f) = .next t :=
  live_of_only h ((State.bar_of b f).trans e) k hl

theorem ChangesOnly.hbm_dsc (s : State) (x : Mem) (d : Tab Dsc) : ChangesOnly [.hbm, .dsc] s { s with hbm := x, dsc := d } := by
  intro p hp; cases p <;> first | (exfalso; revert hp; decide) | rfl
theorem ChangesOnly.devcfg (s : State) (c d : Bool) : ChangesOnly [.compat, .deterministic] s { s with compat := c, deterministic := d } := by
  intro p hp; cases p <;> first | (exfalso; revert hp; decide) | rfl
theorem ChangesOnly.pwr (s : State) (x : Pwr) : ChangesOnly [.pwr] s { s with pwr := x } := by
  intro p hp; cases p <;> first | (exfalso; revert hp; decide) | rfl
theorem ChangesOnly.rst (s : State) (x : Rst) : ChangesOnly [.rst] s { s with rst := x } := by
  intro p hp; cases p <;> first | (exfalso; revert hp; decide) | rfl
theorem ChangesOnly.dbg (s : State) (x : Dbg) : ChangesOnly [.dbg] s { s with dbg := x } := by
  intro p hp; cases p <;> first | (exfalso; revert hp; decide) | rfl
theorem ChangesOnly.tel (s : State) (x : Tel) : ChangesOnly [.tel] s { s with tel := x } := by
  intro p hp; cases p <;> first | (exfalso; revert hp; decide) | rfl
theorem ChangesOnly.out_hif (s : State) (o : List Out) (x : Hif) : ChangesOnly [.out, .hif] s { s with out := o, hif := x } := by
  intro p hp; cases p <;> first | (exfalso; revert hp; decide) | rfl

/-! Set-up registers. -/

theorem State.writeIlv_of_unused {s : State} (w : BarWrite) (unused : s.contextExists = false) : s.writeIlv w = { s with hbm := { s.hbm with
    ilvAd0 := bitOf (mergeBar w (bar0Read s 0x200000)) 0, ilvAd1 := bitOf (mergeBar w (bar0Read s 0x200000)) 1 } } := by
  simp only [State.writeIlv, unused, Bool.false_eq_true, if_false]

theorem State.writeIlv_of_used {s : State} (w : BarWrite) (used : s.contextExists = true) : s.writeIlv w = s := by
  simp only [State.writeIlv, used, if_true]

theorem State.writeScCfg_of_used {s : State} (w : BarWrite) (used : s.contextExists = true ∨ s.planExists = true) : s.writeScCfg w = s := by
  simp only [State.writeScCfg, Bool.or_eq_true, used, if_true]

/-- Writing the held lines back reaches the stream caches. -/
theorem State.writeHeldBack_dsc (s : State) : ∃ d, s.writeHeldBack = { s with dsc := d } :=
  foldl_keeps (r := fun a b => ∃ d, b = { a with dsc := d }) (fun s => ⟨s.dsc, rfl⟩)
    (by rintro _ _ _ ⟨_, rfl⟩ ⟨_, rfl⟩; exact ⟨_, rfl⟩) (fun u (l : ScLine) => u.snoop_dsc (256 * l.line) 256) _ s

theorem State.writeScCfg_of_unused {s : State} (w : BarWrite) (noCtx : s.contextExists = false) (noPlan : s.planExists = false) :
    ∃ slices lines d, slices = BitVec.ofNat 5 (min 16 (bits (mergeBar w (bar0Read s 0x200018)) 0 5)) ∧
      (slices = s.hbm.rslotSlices → lines = s.hbm.lines ∧ d = s.dsc) ∧ (slices ≠ s.hbm.rslotSlices → lines = []) ∧
      s.writeScCfg w = { s with
        hbm := { s.hbm with ddrCache := bitOf (mergeBar w (bar0Read s 0x200018)) 8, rslotSlices := slices, lines := lines }, dsc := d } := by
  obtain ⟨d, back⟩ := s.writeHeldBack_dsc
  by_cases same : BitVec.ofNat 5 (min 16 (bits (mergeBar w (bar0Read s 0x200018)) 0 5)) = s.hbm.rslotSlices
  · refine ⟨_, s.hbm.lines, s.dsc, rfl, fun _ => ⟨rfl, rfl⟩, fun ne => absurd same ne, ?_⟩
    simp only [State.writeScCfg, noCtx, noPlan, Bool.or_self, Bool.false_eq_true, if_false, if_pos same]
  · refine ⟨_, [], d, rfl, fun eq => absurd eq same, fun _ => rfl, ?_⟩
    simp only [State.writeScCfg, noCtx, noPlan, Bool.or_self, Bool.false_eq_true, if_false, if_neg same, back]

theorem ofNat5_min16 (n : Nat) : (BitVec.ofNat 5 (min 16 n)).toNat = min 16 n := by
  rw [BitVec.toNat_ofNat]
  omega

theorem State.writeDevcfg_eq (s : State) (w : BarWrite) : s.writeDevcfg w = { s with
    compat := if s.strapped ∨ s.ringExists ∨ s.contextExists then s.compat else bitOf (mergeBar w (bar0Read s 0x10)) 0
    deterministic := if s.contextExists then s.deterministic else bitOf (mergeBar w (bar0Read s 0x10)) 1 } := by
  simp only [State.writeDevcfg, Bool.or_eq_true, or_assoc]

/-- Settles O1: each set-up register takes its write while nothing uses what it sets, and keeps its value otherwise. -/
theorem bar0SetupWritesOnlyWhileUnused : Obligations.bar0_setup_writes_only_while_unused := by
  intro s w live b
  refine ⟨fun unused => ?_, fun used => ?_, fun noCtx noPlan => ?_, fun used => ?_, ?_⟩
  · exact bar_live live b (State.writeIlv_of_unused w unused) (ChangesOnly.hbm_dsc s _ _) (by decide)
  · exact bar_live live b (State.writeIlv_of_used w used) (.refl [] s) (by decide)
  · obtain ⟨slices, lines, d, value, kept, emptied, e⟩ := State.writeScCfg_of_unused w noCtx noPlan
    refine ⟨_, bar_live live b e (ChangesOnly.hbm_dsc s _ _) (by decide), rfl, ?_, kept, emptied, rfl⟩
    rw [value]
    exact ofNat5_min16 _
  · exact bar_live live b (State.writeScCfg_of_used w used) (.refl [] s) (by decide)
  · exact bar_live live b (s.writeDevcfg_eq w) (ChangesOnly.devcfg s _ _) (by decide)

/-! Power, fabric and window registers. -/

theorem State.writePort_vcbuf (s : State) (p : Nat) (w : BarWrite) : s.writePort p 0x10 w =
    if ((s.port p).state = 0 ∨ (s.port p).state = 5) ∧
        (((List.range 8).map fun i => fieldBv 8 (mergeBar w (regVcbuf (s.port p))) (8 * i)).foldl (fun n b => n + b.toNat) 0) ≤ 128
      then s.setPort p { s.port p with alloc := (List.range 8).map fun i => fieldBv 8 (mergeBar w (regVcbuf (s.port p))) (8 * i) } else s := rfl

theorem State.writeRoute_group (s : State) {e : Nat} (w : BarWrite) (h : e < 256) : s.writeRoute e w = { s with fab := { s.fab with
    groups := Tab.set (fun _ => 0) s.fab.groups e (fieldBv 16 (mergeBar w (Tab.get (fun _ => (0 : BitVec 16)) s.fab.groups e).toNat) 0) } } := by
  simp only [State.writeRoute, State.setRoute, if_pos h]

theorem State.writeRoute_member (s : State) {e : Nat} (w : BarWrite) (h : 256 ≤ e) : s.writeRoute e w = { s with fab := { s.fab with
    members := Tab.set (fun _ => 0) s.fab.members (e - 256)
      (fieldBv 16 (mergeBar w (Tab.get (fun _ => (0 : BitVec 16)) s.fab.members (e - 256)).toNat) 0) } } := by
  simp only [State.writeRoute, State.setRoute, if_neg (Nat.not_lt.2 h)]

/-- A write under a condition reaches only what it reaches. -/
theorem ChangesOnly.ite {l : List Part} {s t u : State} {c : Prop} [Decidable c] (h : ChangesOnly l s t) (k : ChangesOnly l s u) :
    ChangesOnly l s (if c then t else u) := by
  split
  · exact h
  · exact k

/-- Settles O2: each register takes the written value within its limits, and only what the register sets changes. -/
theorem bar0PowerFabricAndWindowWrites : Obligations.bar0_power_fabric_and_window_writes := by
  intro s w live b
  refine ⟨?_, fun a => ⟨_, rfl, ?_⟩, fun p => ⟨_, rfl, ?_⟩, fun e h => ?_, fun e h => ?_, ?_⟩
  · exact bar_live live b rfl (ChangesOnly.pwr s _) (by decide)
  · exact bar_live live b rfl ((s.setArray_only _ _).trans (State.reclock_only _ _)) (by decide)
  · exact bar_live live b (s.writePort_vcbuf p w) (.ite (s.setPort_only _ _) (.refl _ s)) (by decide)
  · exact bar_live live b (s.writeRoute_group w h) (ChangesOnly.fab s _) (by decide)
  · exact bar_live live b (s.writeRoute_member w h) (ChangesOnly.fab s _) (by decide)
  · exact bar_live live b rfl (ChangesOnly.hif s _) (by decide)

/-! Port configuration, rings and the debug enable. -/

section
variable {s : State} {p v : Nat}

/-- The state in which a hold of the port has ended. -/
def State.unheld (s : State) (p : Nat) : State :=
  { s with rst := { s.rst with portHeld := BitVec.ofNat 16 (setBitOf s.rst.portHeld.toNat p false) } }

theorem State.writePortCfg_of_on (service : s.flash.oos = false) (on : ((s.port p).takeCfg v).mode ≠ 0) : s.writePortCfg p v =
    if ((s.port p).state = 0 ∨ (s.port p).state = 5) ∧ s.boot.level ≠ 0 ∧ (s.unheld p).portStays p = false
      then ((s.unheld p).setPort p ((s.port p).takeCfg v)).setPort p (((s.port p).takeCfg v).train s.now)
      else (s.unheld p).setPort p ((s.port p).takeCfg v) := by
  simp only [State.writePortCfg, service, Bool.false_eq_true, if_false, if_neg on, Bool.not_eq_true']
  rfl

theorem State.writePortCfg_of_off (off : s.flash.oos = true ∨ ((s.port p).takeCfg v).mode = 0) : s.writePortCfg p v =
    if ((((s.unheld p).setPort p { (s.port p).takeCfg v with mode := 0 }).portOff p).port p).state = 4
      then ((s.unheld p).setPort p { (s.port p).takeCfg v with mode := 0 }).portOff p
      else (((s.unheld p).setPort p { (s.port p).takeCfg v with mode := 0 }).portOff p).setPort p
        { (((s.unheld p).setPort p { (s.port p).takeCfg v with mode := 0 }).portOff p).port p with state := 0, trained := false } := by
  have taken : (if s.flash.oos = true then { (s.port p).takeCfg v with mode := 0 } else (s.port p).takeCfg v) = { (s.port p).takeCfg v with mode := 0 } := by
    by_cases oos : s.flash.oos = true
    · exact if_pos oos
    · rw [if_neg oos, ← off.resolve_left oos]
  simp only [State.writePortCfg, taken, if_true]
  rfl

end

section
variable {s : State} {n : Nat} {w : BarWrite}

theorem State.writeEvcfg_of_enabled (on : (s.evring n).enable = true) : s.writeEvcfg n w = s.setEvring n { s.evring n with
    coalUs := fieldBv 16 (mergeBar w (regEvcfg (s.evring n))) 32, coalCount := fieldBv 8 (mergeBar w (regEvcfg (s.evring n))) 24
    vector := fieldBv 11 (mergeBar w (regEvcfg (s.evring n))) 10, enable := bitOf (mergeBar w (regEvcfg (s.evring n))) 0 } := by
  simp only [State.writeEvcfg, on, Bool.not_true, Bool.and_false, Bool.false_eq_true, if_false, if_true]

theorem State.writeEvcfg_of_enabling (off : (s.evring n).enable = false) (asked : bitOf (mergeBar w (regEvcfg (s.evring n))) 0 = true)
    (other : n ≠ 0) : s.writeEvcfg n w = s.setEvring n { s.evring n with
    coalUs := fieldBv 16 (mergeBar w (regEvcfg (s.evring n))) 32, coalCount := fieldBv 8 (mergeBar w (regEvcfg (s.evring n))) 24
    vector := fieldBv 11 (mergeBar w (regEvcfg (s.evring n))) 10
    sizeLog2 := BitVec.ofNat 4 (min 10 (fieldBv 4 (mergeBar w (regEvcfg (s.evring n))) 1).toNat)
    enable := true, w := 0, h := 0, sinceIrq := 0, firstAt := none, dropping := false } := by
  simp only [State.writeEvcfg, off, asked, Bool.not_false, Bool.and_self, Bool.false_eq_true, if_true, if_false, if_neg other]

end

theorem State.writeAdminCfg_of_enabled {s : State} {w : BarWrite} (on : s.hif.admin.enable = true) : s.writeAdminCfg w =
    { s with hif := { s.hif with admin := { s.hif.admin with enable := bitOf (mergeBar w (regAdminCfg s.hif.admin)) 0 } } } := by
  simp only [State.writeAdminCfg, on, Bool.not_true, Bool.and_false, Bool.false_eq_true, if_false, if_true]

theorem State.writeAdminCfg_of_enabling {s : State} {w : BarWrite} (off : s.hif.admin.enable = false)
    (asked : bitOf (mergeBar w (regAdminCfg s.hif.admin)) 0 = true) : s.writeAdminCfg w = { s with hif := { s.hif with admin := { s.hif.admin with
      headptr := fieldBv 61 (mergeBar w (regAdminCfg s.hif.admin)) 3, size := fieldBv 2 (mergeBar w (regAdminCfg s.hif.admin)) 1
      enable := true, head := 0, tail := 0, stopped := false } } } := by
  simp only [State.writeAdminCfg, off, asked, Bool.not_false, Bool.and_self, Bool.false_eq_true, if_false, if_true]

theorem State.writeDbgCtl_eq (s : State) (w : BarWrite) : ∃ en, s.writeDbgCtl w =
      { s with dbg := { s.dbg with enable := en, err := s.dbg.err && !bitOf (onesOf w) 2 } } ∧
    (s.dbg.enable = false → en = true → s.anyOpen = true ∧ ∃ c, s.boot.cfg = some c ∧ bitOf c.flags.toNat 0 = true) := by
  refine ⟨_, rfl, fun off set => ?_⟩
  have asked : bitOf (mergeBar w (bit s.dbg.enable)) 0 = true := by
    by_contra unasked
    rw [off] at unasked set
    simp [unasked] at set
  rw [off] at asked set
  cases cfg : s.boot.cfg with
  | none => simp [asked, cfg] at set
  | some c =>
    have both : (bitOf c.flags.toNat 0 && s.anyOpen) = true := by simpa [asked, cfg] using set
    exact ⟨(Bool.and_eq_true_iff.1 both).2, c, rfl, (Bool.and_eq_true_iff.1 both).1⟩

/-- Settles O3: a port begins to train or goes off, rings restart as they are enabled, and the debug enable needs its flag and a session. -/
theorem bar0PortsRingsAndDebugWrites : Obligations.bar0_ports_rings_and_debug_writes := by
  intro s w live b
  refine ⟨fun p => ⟨_, _, rfl, rfl, fun service on => ?_, fun off => ⟨_, rfl, ?_⟩⟩, fun n => ⟨_, _, rfl, rfl, fun on => ?_, fun off asked => ?_⟩,
    fun off asked => ?_, fun on => ?_, ?_⟩
  · exact bar_live live b (State.writePortCfg_of_on service on)
      (.ite ((((ChangesOnly.rst s _).mono (m := [.rst, .fab]) (by decide)).trans ((State.setPort_only _ _ _).mono (by decide))).trans
          ((State.setPort_only _ _ _).mono (by decide)))
        (((ChangesOnly.rst s _).mono (by decide)).trans ((State.setPort_only _ _ _).mono (by decide)))) (by decide)
  · refine (live_of live.1 live.2 _).trans (congrArg (fun t => Host.Outcome.next (s.settle t)) ?_)
    exact (State.bar_of b _).trans (State.writePortCfg_of_off off)
  · exact bar_live live b (State.writeEvcfg_of_enabled on) (s.setEvring_only _ _) (by decide)
  · refine ⟨_, live_of live.1 live.2 _, fun other => ?_⟩
    have e : hifEvcfgEnable n w s = _ := (State.bar_of b _).trans (State.writeEvcfg_of_enabling off asked other)
    rw [e, settle_only (s.setEvring_only _ _) (by decide)]
  · exact ⟨_, bar_live live b (State.writeAdminCfg_of_enabling off asked) (ChangesOnly.hif s _) (by decide), rfl, rfl, rfl, rfl, rfl⟩
  · exact bar_live live b (State.writeAdminCfg_of_enabled on) (ChangesOnly.hif s _) (by decide)
  · obtain ⟨en, e, guarded⟩ := s.writeDbgCtl_eq w
    exact ⟨_, bar_live live b e (ChangesOnly.dbg s _) (by decide), rfl, guarded, rfl⟩

/-! Accesses that are refused, reads that act, counters. -/

theorem bar0BadAccess_read {s : State} {off size : Nat} (bad : badAccess off size = true) :
    bar0BadAccess off size false s = s.sendOut (.readData (BitVec.allOnes 64)) := by
  simp only [bar0BadAccess, bad, Bool.not_false, Bool.and_self, if_true]

theorem bar0BadAccess_write (s : State) (off size : Nat) : bar0BadAccess off size true s = s := by
  simp only [bar0BadAccess, Bool.not_true, Bool.and_false, Bool.false_eq_true, if_false]

theorem bar4WinReadClear_eq (s : State) (h : Half) (b : s.barLive = true) : bar4WinReadClear h s =
    { s with out := .readData (halfOf h (regBar4 s.hif)) :: s.out, hif := { s.hif with unmapped := if reaches h 48 then 0 else s.hif.unmapped } } := by
  rw [bar4WinReadClear, State.barRead_of b]
  cases reached : reaches h 48
  · rfl
  · rfl

/-- A snapshot or a clearing is ignored while the block is busy, whether BAR0 answers or not. -/
theorem State.bar_idle {s : State} {f : State → State} (idle : f s = s) : s.bar f = s := by
  unfold State.bar
  split
  · exact idle
  · rfl

theorem State.doSnap_busy {s : State} (busy : s.tel.busy = true) : s.doSnap = s := if_pos busy
theorem State.doClear_busy {s : State} (busy : s.tel.busy = true) : s.doClear = s := if_pos busy
theorem State.doSnap_of {s : State} (ready : s.tel.busy = false) : s.doSnap = { s with tel := { s.tel with snap := s.tel.live } } := by
  simp only [State.doSnap, ready, Bool.false_eq_true, if_false]
theorem State.doClear_of {s : State} (ready : s.tel.busy = false) : s.doClear = { s with tel := { s.tel with live := [] } } := by
  simp only [State.doClear, ready, Bool.false_eq_true, if_false]

theorem State.writeReg_of_unaligned {s : State} {off : Nat} (h : off % 8 ≠ 0) (w : BarWrite) : s.writeReg off w = s := if_pos h

theorem State.writeReg_wdog (s : State) (w : BarWrite) : s.writeReg 0x410008 w = s.writeRstWdog w := rfl

/-- Settles O4: what is refused reads as ones and writes nothing, reads clear their fields, and the counters and limits take their writes. -/
theorem bar0ReadsThatActAndCounters : Obligations.bar0_reads_that_act_and_counters := by
  intro s live
  refine ⟨fun off size bad => ?_, fun off size => ?_, fun b n h => ?_, fun b h => ?_, fun b ready => ?_, fun b ready => ?_, fun busy => ⟨?_, ?_⟩,
    fun off w h => ?_, fun b w => ?_, fun dead off w => ?_, fun cold n h => ⟨?_, ?_⟩, fun warm resetting n h => ⟨?_, ?_⟩⟩
  · exact live_of_only live (bar0BadAccess_read bad) (ChangesOnly.out s _) (by decide)
  · exact live_of_only live (bar0BadAccess_write s off size) (.refl [] s) (by decide)
  · exact live_of_only live (State.barRead_of b _) (((ChangesOnly.out s _).mono (by decide)).trans ((State.setEvring_only _ _ _).mono (m := [.out, .hif]) (by decide)))
      (by decide)
  · exact ⟨_, live_of_only live (bar4WinReadClear_eq s h b) (ChangesOnly.out_hif s _ _) (by decide), rfl, rfl⟩
  · exact bar_live live b (State.doSnap_of ready) (ChangesOnly.tel s _) (by decide)
  · exact bar_live live b (State.doClear_of ready) (ChangesOnly.tel s _) (by decide)
  · exact live_of_only live (State.bar_idle (State.doSnap_busy busy)) (.refl [] s) (by decide)
  · exact live_of_only live (State.bar_idle (State.doClear_busy busy)) (.refl [] s) (by decide)
  · exact live_of_only live (State.bar_idle (State.writeReg_of_unaligned h w)) (.refl [] s) (by decide)
  · exact bar_live live b (s.writeReg_wdog w) (ChangesOnly.rst s _) (by decide)
  · exact live_of_only live (State.bar_dead dead _) (.refl [] s) (by decide)
  · exact live_of_only live (State.barRead_d3hot cold _) (.refl [] s) (by decide)
  · exact live_of_only live (State.barRead_d3hot cold _) (.refl [] s) (by decide)
  · exact live_of_only live (State.barRead_resetting warm resetting _) (ChangesOnly.out s _) (by decide)
  · exact live_of_only live (State.barRead_resetting warm resetting _) (ChangesOnly.out s _) (by decide)

end Sys2Proof.Machine
end

section
/-!
PROOF. Interrupts, debug accesses, doorbells, fetching, starting and completing commands (R339-R360, R589, R627-R629): O5 to O7.
-/
namespace Sys2Proof.Machine

/-! Interrupts. -/

theorem eventCoalTimeout_of_due {s : State} {n x : Nat} (first : (s.evring n).firstAt = some x) (coal : (s.evring n).coalUs ≠ 0)
    (some_ : (s.evring n).sinceIrq ≠ 0) (late : x + 100 * (s.evring n).coalUs.toNat ≤ s.now) :
    eventCoalTimeout n s = (s.setEvring n { s.evring n with sinceIrq := 0, firstAt := none }).msix (s.evring n).vector.toNat := by
  simp only [eventCoalTimeout, first]
  exact if_pos ⟨coal, some_, late⟩

theorem State.flushVector_of_pending {s : State} {v : Nat} {e : MsixEntry} (entry : Tab.get (fun _ => MsixEntry.reset) s.hif.msix v = e)
    (waits : e.pending = true) (unmasked : e.masked = false) (open_ : s.hif.functionMask = false) (up : s.hif.up = true) : s.flushVector v =
      { s with out := .msix v :: s.out, hif := { s.hif with msix := Tab.set (fun _ => MsixEntry.reset) s.hif.msix v { e with pending := false } } } := by
  simp only [State.flushVector, entry, waits, unmasked, open_, up, Bool.not_false, Bool.and_self, if_true]
  rfl

/-- A vector that waits and is unmasked is sent, and waits no more. -/
theorem msixUnmask_of_pending {s : State} {v : Fin 2048} {e : MsixEntry} (rising : Tab.rising s.hif.msix = true) (up : s.hif.up = true)
    (open_ : s.hif.functionMask = false) (entry : Tab.get (fun _ => MsixEntry.reset) s.hif.msix v = e) (waits : e.pending = true) :
    ∃ m, msixUnmask (.vector v) s = { s with out := .msix v :: s.out, hif := { s.hif with msix := m } } ∧
      Tab.get (fun _ => MsixEntry.reset) m v = { e with masked := false, pending := false } := by
  subst entry
  have read := Tab.get_set_self (fun _ => MsixEntry.reset) rising v { Tab.get (fun _ => MsixEntry.reset) s.hif.msix v with masked := false }
  let open_entry : MsixEntry := { Tab.get (fun _ => MsixEntry.reset) s.hif.msix v with masked := false }
  have still := Tab.rising_set (bg := fun _ => MsixEntry.reset) rising v open_entry
  exact ⟨_, State.flushVector_of_pending (s := { s with hif := { s.hif with msix := Tab.set (fun _ => MsixEntry.reset) s.hif.msix v open_entry } })
    read waits rfl open_ up, Tab.get_set_self _ still _ _⟩

/-! Debug accesses. -/

theorem State.dbgAccess_of_idle {s : State} (idle : s.dbg.busy = false) (first : s.dbg.waiting = []) (write : Option DWord) :
    s.dbgAccess write = s.dbgStart write := by
  have same : ({ s with dbg := { s.dbg with busy := false, waiting := [] } } : State) = s := by rw [← first, ← idle]
  simp only [State.dbgAccess, first, List.length_nil, List.nil_append, State.dbgServe, idle, Bool.false_eq_true, if_false]
  exact congrArg (fun u => State.dbgStart u write) same

theorem State.dbgAccess_of_busy {s : State} (busy : s.dbg.busy = true) (write : Option DWord) :
    s.dbgAccess write = { s with dbg := { s.dbg with waiting := s.dbg.waiting ++ [write] } } := by
  simp only [State.dbgAccess, State.dbgServe, busy, if_true]

theorem State.dbgStart_of_disabled {s : State} (off : s.dbg.enable = false) :
    s.dbgStart none = s.sendOut (.readData (BitVec.allOnes 64)) ∧ ∀ v, s.dbgStart (some v) = s := by
  refine ⟨?_, fun v => ?_⟩ <;> simp only [State.dbgStart, off, Bool.not_false, if_true]

/-- A debug access that is over in a state where none is in progress. -/
theorem State.dbgOver_of_idle {s : State} (idle : s.dbg.busy = false) :
    s.dbgOver none = { s with dbg := { s.dbg with addr := s.dbg.addr + 1 } } ∧
      ∀ v, s.dbgOver (some v) = { s with out := .readData v :: s.out, dbg := { s.dbg with addr := s.dbg.addr + 1 } } := by
  have same : ({ s.dbg with busy := false, addr := s.dbg.addr + 1 } : Dbg) = { s.dbg with addr := s.dbg.addr + 1 } := by rw [← idle]
  exact ⟨congrArg (fun d => ({ s with dbg := d } : State)) same,
    fun v => congrArg (fun d => ({ s with out := .readData v :: s.out, dbg := d } : State)) same⟩

theorem State.fenced_of_elsewhere {s : State} {a : Nat} (h : isHbm a = false) (write : Bool) (n : Nat) : s.fenced write a n = false := by
  simp only [State.fenced, h, Bool.false_and]

/-- Region 3 lies beyond every HBM address. -/
theorem region_of_isHbm {a : Nat} (h : isHbm a = true) : region a ≠ 3 := by
  have low : a < hbmEnd := of_decide_eq_true h
  have below : hbmEnd ≤ 3 * 2 ^ 48 := by decide
  unfold region
  omega

section
variable {s : State} {a : Nat} (on : s.dbg.enable = true) (space : s.dbg.space = false) (ha : a = 8 * s.dbg.addr.toNat)
include on space ha

theorem State.dbgStart_of_unmapped (unmapped : s.mappedRange a 8 = false) :
    s.dbgStart none = s.dbgErr.dbgOver (some (BitVec.allOnes 64)) ∧ ∀ v, s.dbgStart (some v) = s.dbgErr.dbgOver none := by
  subst ha
  refine ⟨?_, fun v => ?_⟩ <;>
    simp only [State.dbgStart, on, space, unmapped, Bool.not_true, Bool.not_false, Bool.false_eq_true, if_false, if_true]

variable (mapped : s.mappedRange a 8 = true)
include mapped

theorem State.dbgStart_read (place : region a ≠ 3) (hbm : isHbm a = false) (free : s.bankBusy a = false) (good : s.poisonIn a 8 = false) :
    s.dbgStart none = s.dbgOver (some (BitVec.ofNat 64 (s.rdLe a 8))) := by
  have unfenced := State.fenced_of_elsewhere (s := s) hbm false 8
  subst ha
  simp only [State.dbgStart, on, space, mapped, place, hbm, free, good, unfenced, Option.isSome_none, Bool.false_and, Bool.or_self, Bool.not_true,
    Bool.false_eq_true, if_false]

theorem State.dbgStart_write (place : region a ≠ 3) (hbm : isHbm a = false) (free : s.bankBusy a = false) (noObj : s.objAt a 8 = none) (v : DWord) :
    s.dbgStart (some v) = (s.storeLe a 8 v.toNat).dbgOver none := by
  have unfenced := State.fenced_of_elsewhere (s := s) hbm true 8
  subst ha
  simp only [State.dbgStart, on, space, mapped, place, hbm, free, noObj, unfenced, Option.isSome_some, Bool.and_false, Bool.or_self, Bool.not_true,
    Bool.false_eq_true, if_false]

theorem State.dbgStart_read_hbm (hbm : isHbm a = true) (unfenced : s.fenced false a 8 = false) :
    s.dbgStart none = State.acceptInOrder { s with dbg := { s.dbg with busy := true } } ⟨a, [], 8, false, dbgTag⟩ := by
  have place := region_of_isHbm hbm
  subst ha
  simp only [State.dbgStart, on, space, mapped, place, hbm, unfenced, Option.isSome_none, Bool.false_and, Bool.or_self, Bool.not_true,
    Bool.false_eq_true, if_false, if_true]

theorem State.dbgStart_write_hbm (hbm : isHbm a = true) (unfenced : s.fenced true a 8 = false) (noObj : s.objAt a 8 = none) (v : DWord) :
    s.dbgStart (some v) = State.acceptInOrder { s with dbg := { s.dbg with busy := true } } ⟨a, leBytes 8 v.toNat, 8, true, dbgTag⟩ := by
  have place := region_of_isHbm hbm
  subst ha
  simp only [State.dbgStart, on, space, mapped, place, hbm, unfenced, noObj, Option.isSome_some, Bool.and_false, Bool.or_self, Bool.not_true,
    Bool.false_eq_true, if_false, if_true]

end

theorem ChangesOnly.out_dbg (s : State) (o : List Out) (x : Dbg) : ChangesOnly [.out, .dbg] s { s with out := o, dbg := x } := by
  intro p hp; cases p <;> first | (exfalso; revert hp; decide) | rfl

theorem dbgDataRead_of {s : State} (b : s.barLive = true) : dbgDataRead s = s.dbgAccess none := State.barRead_of b _
theorem dbgDataWrite_of {s : State} (b : s.barLive = true) (v : DWord) : dbgDataWrite v s = s.dbgAccess (some v) := State.bar_of b _

theorem exec_dbgDataRead {s : State} (h : s.Live) : exec .dbgDataRead s = .next (s.settle (dbgDataRead s)) := live_of h.1 h.2 _
theorem exec_dbgDataWrite {s : State} (h : s.Live) (v : DWord) : exec (.dbgDataWrite v) s = .next (s.settle (dbgDataWrite v s)) := live_of h.1 h.2 _

/-- Settles O5: a vector is raised or unmasked, and a debug access is served, refused, held or sent on by its place. -/
theorem interruptsAndDebugAccesses : Obligations.interrupts_and_debug_accesses := by
  intro s live
  refine ⟨?coal, ?unmask, ?access, ?busy, ?disabled⟩
  case coal =>
    intro n x first coal some_ late
    exact live_of_only live (eventCoalTimeout_of_due first coal some_ late)
      (((s.setEvring_raised _ _).trans (State.msix_raised _ _)).only) (by decide)
  case unmask =>
    intro v rising up open_ waits
    obtain ⟨m, e, entry⟩ := msixUnmask_of_pending rising up open_ rfl waits
    refine ⟨_, live_of_only live e (ChangesOnly.out_hif s _ _) (by decide), rfl, ?_, ?_, rfl⟩
    · rw [entry]
    · rw [entry]
  case access =>
    intro b on idle first space a ha
    refine ⟨fun mapped place hbm free => ⟨fun good => ?_, fun noObj v => ?_⟩, fun mapped hbm => ⟨fun unfenced => ?_, fun unfenced noObj v => ?_⟩,
      fun unmapped v => ⟨?_, ?_⟩⟩
    · rw [exec_dbgDataRead live, dbgDataRead_of b, State.dbgAccess_of_idle idle first, State.dbgStart_read on space ha mapped place hbm free good,
        (State.dbgOver_of_idle idle).2, settle_only (ChangesOnly.out_dbg s _ _) (by decide)]
    · have stored := (s.store_stored a (leBytes 8 v.toNat)).only
      have dbg : (s.storeLe a 8 v.toNat).dbg = s.dbg := stored .dbg (by decide)
      have e : dbgDataWrite v s = _ := (dbgDataWrite_of b v).trans ((State.dbgAccess_of_idle idle first _).trans
        ((State.dbgStart_write on space ha mapped place hbm free noObj v).trans (State.dbgOver_of_idle (dbg ▸ idle)).1))
      refine ⟨_, (exec_dbgDataWrite live v).trans (congrArg (fun t => Host.Outcome.next (s.settle t)) e), rfl, ?_, ?_⟩
      · exact congrArg (fun d : Dbg => ({ d with addr := d.addr + 1 } : Dbg)) dbg
      · exact ((stored.mono (m := [.mem, .hif, .out, .pldm, .pins, .hbm, .flash, .dsc, .dbg]) (by decide)).trans ((ChangesOnly.dbg _ _).mono (by decide))).settle
    · rw [exec_dbgDataRead live, dbgDataRead_of b, State.dbgAccess_of_idle idle first, State.dbgStart_read_hbm on space ha mapped hbm unfenced]
    · rw [exec_dbgDataWrite live, dbgDataWrite_of b, State.dbgAccess_of_idle idle first, State.dbgStart_write_hbm on space ha mapped hbm unfenced noObj]
    · rw [exec_dbgDataWrite live, dbgDataWrite_of b, State.dbgAccess_of_idle idle first, (State.dbgStart_of_unmapped on space ha unmapped).2 v,
        (State.dbgOver_of_idle (s := s.dbgErr) idle).1]
      exact congrArg _ (settle_only (ChangesOnly.dbg s _) (by decide))
    · rw [exec_dbgDataRead live, dbgDataRead_of b, State.dbgAccess_of_idle idle first, (State.dbgStart_of_unmapped on space ha unmapped).1,
        (State.dbgOver_of_idle (s := s.dbgErr) idle).2]
      exact congrArg _ (settle_only (ChangesOnly.out_dbg s _ _) (by decide))
  case busy =>
    intro b busy
    refine ⟨?_, fun v => ?_⟩
    · rw [exec_dbgDataRead live, dbgDataRead_of b, State.dbgAccess_of_busy busy, settle_only (ChangesOnly.dbg s _) (by decide)]
    · rw [exec_dbgDataWrite live, dbgDataWrite_of b, State.dbgAccess_of_busy busy, settle_only (ChangesOnly.dbg s _) (by decide)]
  case disabled =>
    intro b off idle first
    refine ⟨?_, fun v => ?_⟩
    · rw [exec_dbgDataRead live, dbgDataRead_of b, State.dbgAccess_of_idle idle first, (State.dbgStart_of_disabled off).1]
      exact congrArg _ (settle_only (ChangesOnly.out s _) (by decide))
    · rw [exec_dbgDataWrite live, dbgDataWrite_of b, State.dbgAccess_of_idle idle first, (State.dbgStart_of_disabled off).2, s.settle_self]

/-! Doorbells and head writes. -/

theorem State.hostWrites_only (s : State) (l : List HostWrite) : ChangesOnly [.mem] s (s.hostWrites l) := ChangesOnly.mem s _

theorem State.bar2_of {s : State} (up : s.hif.up = true) (awake : s.hif.d3hot = false) : s.bar2 = true := by
  simp only [State.bar2, up, awake, Bool.not_false, Bool.and_self]

theorem State.doorbellError_only (s : State) (k : CmdKey) : ChangesOnly [.mem, .hif, .out, .pldm, .pins, .fresh] s (s.doorbellError k) := by
  have ticks : ChangesOnly [.fresh] s s.tick.tick.tick := ((s.tick_only).trans (State.tick_only _)).trans (State.tick_only _)
  exact (ticks.mono (by decide)).trans ((State.rejectDesc_raised _ _ _ _ _ _ _).only.mono (by decide))

section
variable {s : State} (reached : s.bar2 = true) {ring : Nat} {r : Ring} {v : DWord} {host : List HostWrite}

section
include reached
variable (found : s.ring ring = some r) (runs : r.stopped = false)
include found runs

theorem doorbell_of_good (good : doorbellBad r.head r.slots v = false) :
    doorbell ring 0 8 v host s = (s.hostWrites host).setRing ring (some { r with tail := BitVec.ofNat 32 v.toNat }) := by
  have reached' : (s.hostWrites host).bar2 = true := reached
  have found' : (s.hostWrites host).ring ring = some r := found
  simp only [doorbell, reached', found', runs, good, Bool.not_true, bne_self_eq_false, Bool.or_self, Bool.false_eq_true, if_false]

theorem doorbell_of_bad (bad : doorbellBad r.head r.slots v = true) :
    doorbell ring 0 8 v host s = ((s.hostWrites host).setRing ring (some { r with stopped := true })).doorbellError ⟨ring, r.head⟩ := by
  have reached' : (s.hostWrites host).bar2 = true := reached
  have found' : (s.hostWrites host).ring ring = some r := found
  simp only [doorbell, reached', found', runs, bad, Bool.not_true, bne_self_eq_false, Bool.or_self, Bool.false_eq_true, if_false, if_true]

end

theorem doorbell_of_ignored {off n : Nat} (h : off ≠ 0 ∨ n ≠ 8 ∨ s.ring ring = none ∨ ∃ r, s.ring ring = some r ∧ r.stopped = true) :
    doorbell ring off n v host s = s.hostWrites host := by
  unfold doorbell
  extract_lets u
  by_cases away : (!u.bar2 || off != 0 || n != 8) = true
  · exact if_pos away
  rw [if_neg away]
  simp only [Bool.or_eq_true, bne_iff_ne, not_or, ne_eq, Decidable.not_not] at away
  rcases h with bad | bad | gone | ⟨r, found, stopped⟩
  · exact absurd away.1.2 bad
  · exact absurd away.2 bad
  · have gone' : u.ring ring = none := gone
    rw [gone']
  · have found' : u.ring ring = some r := found
    rw [found']
    exact if_pos stopped

theorem adminDoorbell_of_good (reached : s.bar2 = true) (on : s.hif.admin.enable = true) (runs : s.hif.admin.stopped = false)
    (good : doorbellBad s.hif.admin.head s.hif.admin.slots v = false) : adminDoorbell 0 8 v host s =
      { s.hostWrites host with hif := { s.hif with admin := { s.hif.admin with tail := BitVec.ofNat 32 v.toNat } } } := by
  have reached' : (s.hostWrites host).bar2 = true := reached
  have same : (s.hostWrites host).hif = s.hif := rfl
  simp only [adminDoorbell, reached', same, on, runs, good, Bool.not_true, bne_self_eq_false, Bool.or_self, Bool.false_eq_true, if_false]

theorem adminDoorbell_of_ignored {off n : Nat} (h : off ≠ 0 ∨ n ≠ 8 ∨ s.hif.admin.enable = false ∨ s.hif.admin.stopped = true) :
    adminDoorbell off n v host s = s.hostWrites host := by
  have same : (s.hostWrites host).hif = s.hif := rfl
  refine if_pos ?_
  simp only [same, Bool.or_eq_true, Bool.not_eq_true', bne_iff_ne]
  rcases h with bad | bad | off_ | stopped
  · exact .inl (.inl (.inl (.inr bad)))
  · exact .inl (.inl (.inr bad))
  · exact .inl (.inr off_)
  · exact .inr stopped

section
variable {n : Nat} (on : (s.evring n).enable = true)
include reached on

theorem eventHeadWrite_of_good (good : headBad (s.evring n) v = false) : eventHeadWrite n 0 8 v s = s.setEvring n { s.evring n with
    h := BitVec.ofNat 32 v.toNat
    dropping := (s.evring n).dropping && decide ((s.evring n).slots - ((s.evring n).w - BitVec.ofNat 32 v.toNat).toNat < 2) } := by
  simp only [eventHeadWrite, reached, on, good, Bool.not_true, bne_self_eq_false, Bool.or_self, Bool.false_eq_true, if_false]

theorem eventHeadWrite_of_bad (bad : headBad (s.evring n) v = true) :
    eventHeadWrite n 0 8 v s = s.setEvring n { s.evring n with headErr := satInc (s.evring n).headErr } := by
  simp only [eventHeadWrite, reached, on, bad, Bool.not_true, bne_self_eq_false, Bool.or_self, Bool.false_eq_true, if_false, if_true]

end

theorem eventHeadWrite_of_ignored {n off k : Nat} (h : off ≠ 0 ∨ k ≠ 8 ∨ (s.evring n).enable = false) : eventHeadWrite n off k v s = s := by
  refine if_pos ?_
  simp only [Bool.or_eq_true, Bool.not_eq_true', bne_iff_ne]
  rcases h with bad | bad | off_
  · exact .inl (.inl (.inr bad))
  · exact .inl (.inr bad)
  · exact .inr off_

end

/-- Settles O6: a doorbell and a head write take a good value, stop the ring or count a bad one, and are ignored elsewhere. -/
theorem doorbellsAndHeadWrites : Obligations.doorbells_and_head_writes := by
  intro s v host live up awake
  have reached := State.bar2_of up awake
  have written : ∀ (u : State), ChangesOnly [.hif] (s.hostWrites host) u → ChangesOnly [.mem, .hif] s u := fun u k =>
    ((s.hostWrites_only host).mono (by decide)).trans (k.mono (by decide))
  refine ⟨fun ring r found runs good => ?_, fun ring r found runs bad => ?_, fun ring off n h => ?_, fun on runs good => ?_, fun off n h => ?_,
    fun n on good => ?_, fun n on bad => ?_, fun n off k h => ?_⟩
  · exact live_of_only live (doorbell_of_good reached found runs good) (written _ (State.setRing_only _ _ _)) (by decide)
  · have only : ChangesOnly [.mem, .hif, .out, .pldm, .pins, .fresh] s
        (((s.hostWrites host).setRing ring (some { r with stopped := true })).doorbellError ⟨ring, r.head⟩) :=
      ((written _ (State.setRing_only _ _ _)).mono (by decide)).trans (State.doorbellError_only _ _)
    exact ⟨_, live_of_only live (doorbell_of_bad reached found runs bad) only (by decide), rfl, only⟩
  · exact live_of_only live (doorbell_of_ignored h) (s.hostWrites_only host) (by decide)
  · exact live_of_only live (adminDoorbell_of_good reached on runs good) (written _ (ChangesOnly.hif _ _)) (by decide)
  · exact live_of_only live (adminDoorbell_of_ignored h) (s.hostWrites_only host) (by decide)
  · exact live_of_only live (eventHeadWrite_of_good reached on good) (s.setEvring_only _ _) (by decide)
  · exact live_of_only live (eventHeadWrite_of_bad reached on bad) (s.setEvring_only _ _) (by decide)
  · exact live_of_only live (eventHeadWrite_of_ignored h) (.refl [] s) (by decide)

/-! Fetching. -/

theorem State.takeDesc_completed (s : State) (k : CmdKey) (session : Nat) (raw : List Byte) : Completed s (s.takeDesc k session raw) := by
  unfold State.takeDesc
  extract_lets d tag evring check c0 creates c st status
  clear_value check
  rcases check with _ | ⟨reason, detail⟩
  case some => exact (s.rejectDesc_raised _ _ _ _ _ _).completed
  case none =>
    show Completed s (if _ then _ else _)
    split
    · exact s.complete_completed _ _ _ _
    · exact (s.setCmds_raised _).completed

theorem State.fetchRing_completed (s : State) (r : Nat) (x : Ring) : Completed s (s.fetchRing r x) :=
  ((s.setRing_raised _ _).completed.trans (Raised.writeN _ _ _).completed).trans (State.takeDesc_completed _ _ _ _)

theorem State.fetchAdmin_only (s : State) : ChangesOnly [.mem, .hif] s s.fetchAdmin := by
  intro p hp; cases p <;> first | (exfalso; revert hp; decide) | rfl

theorem State.hubMoved_only (s : State) (e : Nat) : ChangesOnly [.tel] s (s.hubMoved e) := by
  obtain ⟨x, hx⟩ := s.hubMoved_eq e
  rw [hx]
  exact ChangesOnly.tel s x

/-- The heartbeat of a command processor that looks at its rings. -/
def State.beatCp (s : State) (cp : Nat) (x : CmdProc) : State :=
  { s with hif := { s.hif with cps := Tab.set (fun _ => CmdProc.reset) s.hif.cps cp { x with heartbeat := s.now } } }

section
variable {s : State} (may : s.mayFetch = true) {cp : Fin 4}
include may

theorem commandFetch_of_full (full : 32 ≤ s.ahead cp) :
    commandFetch (.rings cp) s = s.beatCp cp (Tab.get (fun _ => CmdProc.reset) s.hif.cps cp) := by
  simp only [commandFetch, may, Bool.not_true, Bool.false_eq_true, if_false, if_pos full]
  rfl

theorem commandFetch_of_next {n : Nat} {x : CmdProc} {r : Ring} (room : s.ahead cp < 32) (next : s.nextRing cp = some (n, x))
    (found : s.ring n = some r) : commandFetch (.rings cp) s = ((s.beatCp cp x).fetchRing n r).hubMoved (132 + cp) := by
  simp only [commandFetch, may, Bool.not_true, Bool.false_eq_true, if_false, if_neg (Nat.not_le.2 room), next, found]
  rfl

theorem commandFetch_admin (on : s.hif.admin.enable = true) (runs : s.hif.admin.stopped = false) (some_ : s.hif.admin.head ≠ s.hif.admin.tail) :
    commandFetch .admin s = s.fetchAdmin := by
  simp only [commandFetch, may, Bool.not_true, Bool.false_eq_true, if_false]
  exact if_pos ⟨on, by rw [runs]; exact Bool.false_ne_true, some_⟩

end

/-! Starting. -/

theorem State.takeWaitobj_completed (s : State) (c : Cmd) : Completed s (s.takeWaitobj c) := by
  unfold State.takeWaitobj
  split
  · exact (s.updCmd_raised _ _).completed
  · extract_lets u
    have queued : Completed s u := by
      simp only [u]
      split
      · exact .refl s
      · split
        · exact (s.updCmd_raised _ _).completed.trans (State.enqueue_completed _ _)
        · exact .refl s
    split
    · exact queued.trans ((State.consume_completed _ _).trans (State.updCmd_raised _ _ _).completed)
    · exact queued

section
variable {s : State} {ring : Nat} {c : Cmd} {first : Bool} (low : ring < 256) (next : s.startCandidate ring = some (c, first))
  (fence : bitOf c.flags 1 = true → first = true) {x : Cmd} (found : (s.takeWaitobj c).cmd c.key = some x)
include low next fence found

theorem commandStart_of : commandStart ring s = if x.taken = true then (s.takeWaitobj c).startNow x else s.takeWaitobj c := by
  have starts : ¬ (256 ≤ ring ∨ (bitOf c.flags 1 = true ∧ ¬ first = true)) := by
    rintro (high | ⟨fenced, behind⟩)
    · omega
    · exact behind (fence fenced)
  simp only [commandStart, next, if_neg starts, found]

end

/-! A RUN's binding, a FERRY's joining and completion. -/

theorem run_of_bound {s u : State} {k : CmdKey} {c : Cmd} {r : Run} (found : s.cmd k = some c) (mine : s.runOf k = some r) (cls : c.cls = 0)
    (phase : c.phase = .started) (fresh : r.bound = false) (installed : State.installStashes r r.nbind 0 s = (true, u)) :
    run k s = if r.phase = .granted ∧ r.restoring = 0 then (u.updRun k fun q => { q with bound := true, frozen := u.frozenBindings r }).loadPrograms r
      else u.updRun k fun q => { q with bound := true, frozen := u.frozenBindings r } := by
  simp only [run, found, mine, cls, phase, fresh, ne_eq, not_true_eq_false, Bool.false_eq_true, or_self, if_false, installed]

theorem ferry_of {s : State} {k : CmdKey} {c : Cmd} (found : s.cmd k = some c) (cls : c.cls = 1) (phase : c.phase = .started)
    (once : (s.engines.any fun g => g.2.work.any fun w => w.cmd == some k) = false) : ferry k s =
      (s.addWork (c.fld 0x0A 1) ⟨c.fld 0 8, c.fld 8 2, 0, c.ctx, none, some k, engineArray (c.fld 0x0A 1),
        BitVec.ofNat 64 (c.fld 0x10 8), BitVec.ofNat 32 (c.fld 0x18 4), 0, false, false, false, false, 0, 0⟩).arrange := by
  simp only [ferry, found, cls, phase, ne_eq, not_true_eq_false, once, Bool.false_eq_true, or_self, if_false]

theorem commandDone_of_performed {s : State} {k : CmdKey} {c : Cmd} (found : s.cmd k = some c) (noRun : c.cls ≠ 0) (phase : c.phase = .performed)
    (noWait : c.cls = 2 → syncWaiting c.syncOp = false) : commandDone k s = s.complete c c.status c.result c.gen := by
  have unwaited : ¬ (c.cls = 2 ∧ syncWaiting c.syncOp = true) := fun ⟨sync, waits⟩ => by rw [noWait sync] at waits; cases waits
  simp only [commandDone, found, if_neg noRun, phase, ne_eq, not_true_eq_false, if_false, if_neg unwaited]

theorem commandDone_of_run {s : State} {k : CmdKey} {c : Cmd} {r : Run} (found : s.cmd k = some c) (cls : c.cls = 0) (mine : s.runOf k = some r)
    (finished : s.runOver r = true) : commandDone k s = ((s.measure r).endRun r).complete c 0 0 0 := by
  simp only [commandDone, found, cls, if_true, mine, finished, Bool.not_true, Bool.false_eq_true, if_false]

theorem exec_commandStart {s : State} (h : s.Live) (ring : Nat) : exec (.commandStart ring) s = .next (s.settle (commandStart ring s)) := live_of h.1 h.2 _
theorem exec_run {s : State} (h : s.Live) (k : CmdKey) : exec (.run k) s = .next (s.settle (run k s)) := live_of h.1 h.2 _
theorem exec_ferry {s : State} (h : s.Live) (k : CmdKey) : exec (.ferry k) s = .next (s.settle (ferry k s)) := live_of h.1 h.2 _
theorem exec_commandDone {s : State} (h : s.Live) (k : CmdKey) : exec (.commandDone k) s = .next (s.settle (commandDone k s)) := live_of h.1 h.2 _

/-- Settles O7: a descriptor is fetched from its ring, its command starts in order, and it completes when its work is over. -/
theorem fetchStartAndCompletion : Obligations.fetch_start_and_completion := by
  intro s live
  refine ⟨?fetch, ?admin, ?start, ?run, ?ferry, ?done, ?runDone⟩
  case fetch =>
    intro up awake cp
    have may : s.mayFetch = true := State.bar2_of up awake
    refine ⟨fun full => live_of_only live (commandFetch_of_full may full) (ChangesOnly.hif s _) (by decide), fun n x r room next found => ?_⟩
    have only : ChangesOnly [.mem, .hif, .out, .pldm, .pins, .sync, .tables, .tel] s (((s.beatCp cp x).fetchRing n r).hubMoved (132 + cp)) :=
      (((ChangesOnly.hif s _).mono (by decide)).trans ((State.fetchRing_completed _ n r).only.mono (by decide))).trans
        ((State.hubMoved_only _ _).mono (by decide))
    exact ⟨_, live_of_only live (commandFetch_of_next may room next found) only (by decide), rfl, only⟩
  case admin =>
    intro up awake on runs some_
    exact ⟨live_of_only live (commandFetch_admin (State.bar2_of up awake) on runs some_) s.fetchAdmin_only (by decide), rfl, s.fetchAdmin_only⟩
  case start =>
    intro ring c first low next fence
    refine ⟨_, rfl, fun x found taken => ?_, fun x found taken => ?_⟩
    · rw [exec_commandStart live, commandStart_of low next fence found, if_pos taken]
    · rw [exec_commandStart live, commandStart_of low next fence found, if_neg (by rw [taken]; exact Bool.false_ne_true),
        settle_completed (s.takeWaitobj_completed c)]
  case run =>
    intro k c r u found mine cls phase fresh installed
    exact ⟨_, rfl, by rw [exec_run live, run_of_bound found mine cls phase fresh installed]⟩
  case ferry =>
    intro k c found cls phase once
    rw [exec_ferry live, ferry_of found cls phase once]
  case done =>
    intro k c found noRun phase noWait
    refine ⟨_, by rw [exec_commandDone live, commandDone_of_performed found noRun phase noWait, settle_completed (s.complete_completed _ _ _ _)], rfl,
      (s.complete_completed _ _ _ _).only⟩
  case runDone =>
    intro k c r found cls mine finished
    rw [exec_commandDone live, commandDone_of_run found cls mine finished]

end Sys2Proof.Machine
end

section
/-!
PROOF. Synchronisation commands, hints, cyclic tables and contexts (R361-R376, R393-R402, R513): O9 to O13.
-/
namespace Sys2Proof.Machine

/-! SYNC commands. -/

section
variable {s : State} {k : CmdKey} {c : Cmd}

theorem signal_cmd (h : s.syncCmd k 1 = some c) : signal (.cmd k) s = State.performed ((List.range c.nobj).foldl (fun (s : State) j =>
    s.signalRel c.ctx (c.syncObj j) (BitVec.ofNat 32 (c.syncN j))) s) k := by
  simp only [signal, h]

theorem set_cmd {o : Nat} (h : s.syncCmd k 5 = some c) (obj : s.objOf c.ctx (c.syncObj 0) = some o) :
    set (.cmd k) s = (s.performed k).setSync o (BitVec.ofNat 32 (c.syncN 0 + 65536 * c.syncN 1)) := by
  have obj' : (s.performed k).objOf c.ctx (c.syncObj 0) = some o := obj
  simp only [set, h, obj']

theorem State.startWaits_of {op : Nat} (h : s.syncCmd k op = some c) (takes any : Bool) :
    s.startWaits k op takes any = (s.performed k).enqueue (s.syncWaits c takes any) := by
  simp only [State.startWaits, h]

theorem remoteSignal_of (h : s.syncCmd k 6 = some c) : remoteSignal k s = State.performed ((List.range c.nobj).foldl (fun (s : State) j =>
    s.inject (s.remotePacket (c.fld 2 2) (c.fld 4 2) (c.syncObj j) (BitVec.ofNat 32 (c.syncN j)))) s) k := by
  simp only [remoteSignal, h]

theorem syncWaitTimeout_of_late (found : s.cmd k = some c) (cls : c.cls = 2) (op : c.syncOp = 2 ∨ c.syncOp = 3 ∨ c.syncOp = 4)
    (started : c.phase ≠ .fetched) (limited : c.timeoutUs ≠ 0) (late : c.startedAt + 100 * c.timeoutUs ≤ s.now) (unfinished : s.waitOver c = false) :
    syncWaitTimeout k s = s.complete c 1 (if c.syncOp = 4 then 0 else maskOf (s.waitsDone c)) 0 := by
  simp only [syncWaitTimeout, found, cls, op, and_self, not_true_eq_false, started, limited, Nat.not_lt.2 late, unfinished, Bool.false_eq_true,
    or_self, if_false]

end

theorem State.performed_completed (s : State) (k : CmdKey) : Completed s (s.performed k) := (s.updCmd_raised _ _).completed

/-- The first packet of a kind is the given one of that kind, where none of the kind stands before it. -/
theorem find?_of_none_before {l : List (Option Nat × Packet)} {p : Packet} {q : Packet → Bool} (self : q p = true)
    (first : ∀ e ∈ l.takeWhile (fun e => e.2 != p), q e.2 = false) : ((l.find? fun e => q e.2).any fun e => e.2 != p) = false := by
  induction l with
  | nil => rfl
  | cons x l ih =>
    by_cases eq : x.2 = p
    · simp only [List.find?_cons, eq, self, Option.any_some, bne_self_eq_false]
    · have ne : (x.2 != p) = true := bne_iff_ne.2 eq
      simp only [List.takeWhile_cons, ne, if_true, List.mem_cons, forall_eq_or_imp] at first
      simp only [List.find?_cons, first.1]
      exact ih first.2

/-- A remote signal of the sender's oldest to its object, whose context lives here, adds its count. -/
theorem remoteSignalReceive_of {s u : State} {p : Packet} {port : Option Nat} {c o : Nat} (vc : p.vc = 7) (type : p.type = 1)
    (oldest : ∀ e ∈ s.fab.inbox.takeWhile (fun e => e.2 != p), ¬ (e.2.vc = 7 ∧ e.2.type = 1 ∧ e.2.src = p.src ∧ e.2.ctx = p.ctx ∧
      e.2.arg.toNat % 65536 = p.arg.toNat % 65536))
    (taken : s.receive p = some (port, u)) (lives : u.ctxLive p.ctx = some c) (obj : u.objOf c (p.arg.toNat % 65536) = some o) :
    remoteSignalReceive p s = u.signal o (BitVec.ofNat 32 (p.arg.toNat / 2 ^ 32)) := by
  have first := find?_of_none_before (l := s.fab.inbox) (p := p)
    (q := fun q => q.vc == 7 && q.type == 1 && q.src == p.src && q.ctx == p.ctx && q.arg.toNat % 65536 == p.arg.toNat % 65536)
    (by simp only [vc, type, beq_self_eq_true, Bool.and_self])
    (fun e before => by
      have other := oldest e before
      simpa only [Bool.and_eq_true, beq_iff_eq, ← Bool.not_eq_true, and_assoc] using other)
  simp only [remoteSignalReceive, vc, type, first, ne_eq, not_true_eq_false, Bool.false_eq_true, or_self, if_false, taken, lives, obj]

/-! Sync steps. -/

/-- A step of a RUN on array `a` that signals or sets one object of its context, every write before it accepted. -/
structure State.StepDue (s : State) (a : Nat) (st : SyncStep) (o : Nat) : Prop where
  run : ∃ r, s.runOnArray a = some r ∧ s.mayIssue a r = true ∧ s.stepObjs r.ctx st = some [o] ∧
    s.writesDone a (s.syncPosAt (s.array a) (s.array a).syncPos) r = true
  left : (s.array a).syncPos < (s.array a).nsync
  step : st = s.syncStepAt (s.array a) (s.array a).syncPos
  one : st.nobj = 1

theorem syncStep_of_due {s : State} {a : Nat} {st : SyncStep} {o : Nat} (h : s.StepDue a st o) (op : st.op = 1 ∨ st.op = 5) :
    syncStep a s = (if st.op = 1 then s.signal o st.n else s.setSync o st.n).syncNext a := by
  obtain ⟨r, runs, may, objs, written⟩ := h.run
  have step := h.step
  subst step
  have issue : ¬ ((!s.mayIssue a r) = true ∨ (s.array a).nsync ≤ (s.array a).syncPos) := by
    rw [may]
    exact fun no => no.elim Bool.false_ne_true (Nat.not_le.2 h.left)
  simp only [syncStep, runs, if_neg issue]
  generalize s.syncStepAt (s.array a) (s.array a).syncPos = st at *
  have one := h.one
  have valid : ¬ (st.op = 0 ∨ 6 < st.op ∨ (if st.op = 4 then st.nobj = 0 ∨ 8 < st.nobj else st.nobj ≠ 1)) := by
    rw [one]
    rcases op with op | op <;> rw [op] <;> decide
  have goes : st.op ≠ 6 ∧ syncWaiting st.op = false := by
    rcases op with op | op <;> rw [op] <;> decide
  simp only [if_neg valid, if_neg goes.1, objs, goes.2, written, Bool.not_true, Bool.false_eq_true, if_false, List.headD_cons]

theorem exec_signalCmd {s : State} (h : s.Live) (k : CmdKey) : exec (.signal (.cmd k)) s = .next (s.settle (signal (.cmd k) s)) := live_of h.1 h.2 _
theorem exec_setCmd {s : State} (h : s.Live) (k : CmdKey) : exec (.set (.cmd k)) s = .next (s.settle (set (.cmd k) s)) := live_of h.1 h.2 _
theorem exec_remoteSignal {s : State} (h : s.Live) (k : CmdKey) : exec (.remoteSignal k) s = .next (s.settle (remoteSignal k s)) := live_of h.1 h.2 _
theorem exec_remoteSignalReceive {s : State} (h : s.Live) (p : Packet) :
    exec (.remoteSignalReceive p) s = .next (s.settle (remoteSignalReceive p s)) := live_of h.1 h.2 _

theorem State.syncNext_only (s : State) (a : Nat) : ChangesOnly [.arrays] s (s.syncNext a) := s.setArray_only _ _

/-- Settles O9: each SYNC command applies its operation and is performed, a wait ends by its timeout, and signals from afar and from steps count. -/
theorem syncCommandsApplyTheirOperation : Obligations.sync_commands_apply_their_operation := by
  intro s live
  refine ⟨fun k c h => ?_, fun k c o h obj => ?_, fun k c h => ?_, fun k c h => ?_, fun k c h => ?_, fun k c h => ?_,
    fun k c found cls op started limited late unfinished => ?_, fun p port u c o vc type oldest taken lives obj => ?_,
    fun a r st o runs may left step one objs written => ?_⟩
  · rw [exec_signalCmd live, signal_cmd h]
  · rw [exec_setCmd live, set_cmd h obj, settle_completed ((s.performed_completed k).trans (State.setSync_completed _ _ _))]
  · exact live_of_only live (State.startWaits_of h true false) ((s.performed_completed k).trans (State.enqueue_completed _ _)).only (by decide)
  · exact live_of_only live (State.startWaits_of h false false) ((s.performed_completed k).trans (State.enqueue_completed _ _)).only (by decide)
  · exact live_of_only live (State.startWaits_of h true true) ((s.performed_completed k).trans (State.enqueue_completed _ _)).only (by decide)
  · rw [exec_remoteSignal live, remoteSignal_of h]
  · exact ⟨_, live_of_only live (syncWaitTimeout_of_late found cls op started limited late unfinished) (s.complete_completed _ _ _ _).only (by decide), rfl,
      (s.complete_completed _ _ _ _).only⟩
  · rw [exec_remoteSignalReceive live, remoteSignalReceive_of vc type oldest taken lives obj]
  · have due : s.StepDue a st o := ⟨⟨r, runs, may, objs, written⟩, left, step, one⟩
    refine ⟨fun op => ?_, fun op => ?_⟩
    · refine live_of_only (l := [.sync, .arrays]) live (f := syncStep a) ?_ (((ChangesOnly.sync s _).mono (by decide)).trans
        ((State.syncNext_only _ _).mono (by decide))) (by decide)
      rw [syncStep_of_due due (.inl op), if_pos op]
    · refine live_of_only (l := [.sync, .arrays]) live (f := syncStep a) ?_ (((ChangesOnly.sync s _).mono (by decide)).trans
        ((State.syncNext_only _ _).mono (by decide))) (by decide)
      rw [syncStep_of_due due (.inr op), if_neg (by rw [op]; decide)]

/-! Hints. -/

section
variable {s : State} {k : CmdKey} {c : Cmd} (found : s.cmd k = some c) (cls : c.cls = 3) (phase : c.phase = .started)
include found cls phase

theorem State.acceptHint_of {kind : Nat} (is : c.fld 7 1 = kind) (calm : s.pwr.floor = false) (f : Cmd → State → State) :
    s.acceptHint k kind f = (f c (s.performed k)).refreshLoadHint := by
  simp only [State.acceptHint, found, cls, phase, is, calm, ne_eq, not_true_eq_false, or_self, Bool.false_eq_true, if_false]

theorem State.acceptHint_of_floor {kind : Nat} (is : c.fld 7 1 = kind) (floor : s.pwr.floor = true) (f : Cmd → State → State) :
    s.acceptHint k kind f = (s.performed k).refreshLoadHint := by
  simp only [State.acceptHint, found, cls, phase, is, floor, ne_eq, not_true_eq_false, or_self, if_false, if_true]

end

theorem ChangesOnly.hinted (s : State) (h : Hif) (x : Pwr) (y : Pins) : ChangesOnly [.hif, .pwr, .pins] s { s with hif := h, pwr := x, pins := y } := by
  intro p hp; cases p <;> first | (exfalso; revert hp; decide) | rfl

/-- The hint that a command puts in force. -/
def State.hintOf (s : State) (c : Cmd) : HintInForce :=
  { at_ := s.now, leadUs := c.fld 0 2, durUs := c.fld 2 4, arrays := BitVec.ofNat 8 (c.fld 6 1), kind := c.fld 7 1, watts := c.fld 8 2 }

/-- A performed hint command with hints `l` in force. -/
theorem State.refreshLoadHint_performed (s : State) (k : CmdKey) (l : List HintInForce) :
    State.refreshLoadHint { s.performed k with pwr := { s.pwr with hints := l } } =
      { s.performed k with pwr := { s.pwr with hints := l }, pins := { s.pins with loadHintN := !(l.any fun h => h.kind == 0) } } := rfl

/-- Settles O10: a hint comes into force as it is accepted, unless the floor timer runs, and ends in its time. -/
theorem hintsComeIntoForceAndLapse : Obligations.hints_come_into_force_and_lapse := by
  intro s live
  have frame (k : CmdKey) (x : Pwr) (y : Pins) : ChangesOnly [.hif, .pwr, .pins] s { s.performed k with pwr := x, pins := y } := ChangesOnly.hinted s _ x y
  refine ⟨fun k c found cls phase calm => ⟨_, rfl, fun heavy => ?_, fun memory => ?_, fun ends => ?_⟩, fun k c i found cls phase floor known hi => ?_,
    ⟨_, rfl, ?_⟩⟩
  · have low : (!((s.pwr.hints ++ [s.hintOf c]).any fun h => h.kind == 0)) = false := by
      simp only [List.any_append, List.any_cons, State.hintOf, heavy, beq_self_eq_true, Bool.true_or, Bool.or_true, Bool.not_true]
    exact live_of_only live ((State.acceptHint_of found cls phase heavy calm _).trans ((s.refreshLoadHint_performed k _).trans (congrArg (fun b =>
      ({ s.performed k with pwr := { s.pwr with hints := s.pwr.hints ++ [s.hintOf c] }, pins := { s.pins with loadHintN := b } } : State)) low)))
      (frame k _ _) (by decide)
  · have same : ((s.pwr.hints ++ [s.hintOf c]).any fun h => h.kind == 0) = s.pwr.hints.any fun h => h.kind == 0 := by
      have other : ((1 : Nat) == 0) = false := rfl
      simp only [List.any_append, List.any_cons, List.any_nil, State.hintOf, memory, other, Bool.or_self, Bool.or_false]
    exact live_of_only live ((State.acceptHint_of found cls phase memory calm _).trans ((s.refreshLoadHint_performed k _).trans (congrArg (fun b =>
      ({ s.performed k with pwr := { s.pwr with hints := s.pwr.hints ++ [s.hintOf c] }, pins := { s.pins with loadHintN := !b } } : State)) same)))
      (frame k _ _) (by decide)
  · exact live_of_only live ((State.acceptHint_of found cls phase ends calm _).trans (s.refreshLoadHint_performed k _)) (frame k _ _) (by decide)
  · have held : (s.performed k).refreshLoadHint = { s.performed k with pins := { s.pins with loadHintN := !(s.pwr.hints.any fun h => h.kind == 0) } } := rfl
    obtain is | is | is : c.fld 7 1 = 0 ∨ c.fld 7 1 = 1 ∨ c.fld 7 1 = 2 := by omega
    all_goals
      rw [is] at hi
      subst hi
      exact live_of_only live ((State.acceptHint_of_floor found cls phase is floor _).trans held) (frame k s.pwr _) (by decide)
  · exact live_of_only live rfl (ChangesOnly.hinted s s.hif _ _) (by decide)

/-! Cyclic tables. -/

theorem State.stopTable_completed (s : State) (t : Nat) (cmd : Option CmdKey) : Completed s (s.stopTable t cmd) := by
  unfold State.stopTable
  extract_lets x gone
  split
  · exact .refl s
  · refine Completed.trans ?_ (State.settleTable_completed _ _)
    exact ⟨⟨s.mem, _, s.out, s.pldm, s.pins.alertN, _, _, rfl⟩, id⟩

section
variable {s : State} {k : CmdKey} {c : Cmd}

theorem tableInstall_of (op : s.opCmd k 4 1 = some c) (idle : (s.table (c.fld 1 1)).state < 2) : tableInstall k s = State.performed
    (s.setTable (c.fld 1 1) { s.table (c.fld 1 1) with
      state := 1, period := s.rdLe (c.fld 8 8) 4, prio := s.rdLe (c.fld 8 8 + 4) 1, insts := [], stopCmd := none
      entries := (List.range (c.fld 2 2)).map fun i => tableEntryOf (s.rdN (c.fld 8 8 + 32 + 32 * i) 32) }) k := by
  simp only [tableInstall, op]
  exact if_neg (Nat.not_le.2 idle)

theorem tableInstall_of_late (op : s.opCmd k 4 1 = some c) (runs : 2 ≤ (s.table (c.fld 1 1)).state) : tableInstall k s = s.complete c 5 0 0 := by
  simp only [tableInstall, op]
  exact if_pos runs

theorem tableStart_of (op : s.opCmd k 4 2 = some c) (ready : (s.table (c.fld 1 1)).state = 1) : tableStart k s = State.performed
    (s.setTable (c.fld 1 1) { s.table (c.fld 1 1) with
      state := 2, s := BitVec.ofNat 48 (s.now + 1), startNow := s.now + 1, nextEntry := 0, nextPeriod := 0, insts := [], periods := 0
      stopCmd := none }) k := by
  simp only [tableStart, op]
  exact if_neg (not_not.2 ready)

theorem tableStart_of_late (op : s.opCmd k 4 2 = some c) (other : (s.table (c.fld 1 1)).state ≠ 1) : tableStart k s = s.complete c 5 0 0 := by
  simp only [tableStart, op]
  exact if_pos other

theorem tableStop_of_running (op : s.opCmd k 4 3 = some c) (runs : (s.table (c.fld 1 1)).state = 2) :
    tableStop k s = s.stopTable (c.fld 1 1) (some k) := by
  simp only [tableStop, op, runs]

theorem tableStop_of_idle (op : s.opCmd k 4 3 = some c) (idle : (s.table (c.fld 1 1)).state < 2) : tableStop k s = s.performed k := by
  obtain none_ | installed : (s.table (c.fld 1 1)).state = 0 ∨ (s.table (c.fld 1 1)).state = 1 := by omega
  · simp only [tableStop, op, none_]
  · simp only [tableStop, op, installed]

end

section
variable {s : State} {t : Nat}

theorem tableEntryRelease_of_due (runs : (s.table t).state = 2) (some_ : (s.table t).entries ≠ []) (due : (s.table t).nextRelease ≤ s.now) :
    ∃ e p, tableEntryRelease t s = s.setTable t { s.table t with
      insts := (s.table t).insts ++ [⟨(s.table t).nextEntry, (s.table t).nextPeriod, (s.table t).nextRelease, none, false⟩]
      nextEntry := e, nextPeriod := p } := by
  have go : ¬ ((s.table t).state ≠ 2 ∨ s.now < (s.table t).nextRelease ∨ (s.table t).entries = []) := by
    rintro (stops | early | empty)
    · exact stops runs
    · exact absurd due (Nat.not_le.2 early)
    · exact some_ empty
  exact ⟨_, _, if_neg go⟩

theorem tableEntryStart_of_fetched {i : Instance} {e : TableEntry} {c : Cmd} (next : (s.table t).insts.find? (fun i => i.started.isNone) = some i)
    (entry : (s.table t).entries[i.entry]? = some e) (runs : (s.table t).state = 2) (clear_ : (s.table t).clear i e.arrays = true)
    (fetched : s.cmd ⟨0x200 + t, instanceCount i⟩ = some c) : tableEntryStart t s = s.startInstance t i c := by
  simp only [tableEntryStart, next, entry, runs, clear_, fetched, Option.isSome_some, ne_eq, not_true_eq_false, Bool.not_true, Bool.false_eq_true, or_self,
    if_true, if_false]

/-- Is a release of a table late and not yet counted? -/
def State.lateInst (s : State) (t : Nat) (i : Instance) : Bool :=
  match i.started, (s.table t).entries[i.entry]? with
  | some at_, some e => !i.overrun && decide (at_ + e.budget ≤ s.now)
  | _, _ => false

theorem slotOverrun_of_late {i : Instance} {e : TableEntry} {at_ : Nat} (next : (s.table t).insts.find? (s.lateInst t) = some i)
    (started : i.started = some at_) (entry : (s.table t).entries[i.entry]? = some e) : ∃ l payload, slotOverrun t s =
      (s.setTable t { s.table t with overruns := satInc (s.table t).overruns, insts := l }).raiseCtx (e.ctx.toNat % 64) 0x0501 srcSched payload := by
  unfold slotOverrun
  extract_lets x late
  have found : x.insts.find? late = some i := next
  have entry' : x.entries[i.entry]? = some e := entry
  rw [found]
  simp only [started]
  rw [entry']
  exact ⟨_, _, rfl⟩

end

theorem exec_tableInstall {s : State} (h : s.Live) (k : CmdKey) : exec (.tableInstall k) s = .next (s.settle (tableInstall k s)) := live_of h.1 h.2 _
theorem exec_tableStart {s : State} (h : s.Live) (k : CmdKey) : exec (.tableStart k) s = .next (s.settle (tableStart k s)) := live_of h.1 h.2 _
theorem exec_tableEntryStart {s : State} (h : s.Live) (t : Fin 8) : exec (.tableEntryStart t) s = .next (s.settle (tableEntryStart t s)) := live_of h.1 h.2 _

/-- Settles O11: a table is installed, started, released from and stopped in its states, and a late release is counted. -/
theorem cyclicTablesInstallStartReleaseAndStop : Obligations.cyclic_tables_install_start_release_and_stop := by
  intro s live
  have performed (k : CmdKey) (t : Nat) (x : CTable) : ChangesOnly [.mem, .hif, .out, .pldm, .pins, .sync, .tables] s ((s.setTable t x).performed k) :=
    ((Completed.tables s _).trans (State.performed_completed _ k)).only
  refine ⟨fun k c op idle => ?_, fun k c op ready => ?_, fun k c op runs => ?_, fun k c op other => ?_, fun k c op runs => ?_, fun k c op idle => ?_,
    fun t runs some_ due => ?_, fun t i e c next entry runs clear_ fetched => ?_, fun t i e at_ next started entry => ?_⟩
  · exact live_of_only live (tableInstall_of op idle) (performed k _ _) (by decide)
  · exact live_of_only live (tableStart_of op ready) (performed k _ _) (by decide)
  · rw [exec_tableInstall live, tableInstall_of_late op runs]
  · rw [exec_tableStart live, tableStart_of_late op other]
  · exact ⟨_, live_of_only live (tableStop_of_running op runs) (s.stopTable_completed _ _).only (by decide), rfl, (s.stopTable_completed _ _).only⟩
  · exact live_of_only live (tableStop_of_idle op idle) (s.performed_completed k).only (by decide)
  · obtain ⟨e, p, h⟩ := tableEntryRelease_of_due runs some_ due
    refine ⟨_, live_of_only live h (s.setTable_only _ _) (by decide), s.setTable_only _ _, fun q ne => s.table_setTable_ne _ ne, fun rising => ?_⟩
    rw [s.table_setTable_self _ rising]
  · rw [exec_tableEntryStart live, tableEntryStart_of_fetched next entry runs clear_ fetched]
  · obtain ⟨l, payload, h⟩ := slotOverrun_of_late next started entry
    have raised := State.raiseCtx_raised (s.setTable t { s.table t with overruns := satInc (s.table t).overruns, insts := l }) (e.ctx.toNat % 64) 0x0501 srcSched payload
    have only : ChangesOnly [.tables, .mem, .hif, .out, .pldm, .pins] s _ := ((s.setTable_only _ _).mono (by decide)).trans (raised.only.mono (by decide))
    refine ⟨_, live_of_only live h only (by decide), only, fun rising => ?_⟩
    have tables := congrArg (fun x => Tab.get (fun _ => CTable.reset) x t) (raised.only .tables (by decide))
    refine (congrArg CTable.overruns tables).trans ?_
    exact congrArg CTable.overruns (s.table_setTable_self _ rising)

/-! Contexts. -/

section
variable {s : State} {k : CmdKey} {c : Cmd} {x : Ctx}

theorem ctxCreate_of_free (op : s.opCmd k 5 1 = some c)
    (hx : x = ctxOfBlock c.block (s.sessionOfRing k.ring) (c.fld 2 2) (c.fld 4 2) (c.fld 1 1)) (free : (s.ctx c.ctx).state = 0)
    (objs : s.objsTaken x.syncBase x.syncCount = false) (parts : s.partitionTaken x c.ctx = false) : ctxCreate k s =
      (s.setCtx c.ctx { x with state := 1, gen := (s.ctx c.ctx).gen + 1, holdsPart := true }).complete c 0 0 ((s.ctx c.ctx).gen + 1).toNat := by
  subst hx
  simp only [ctxCreate, op, free, objs, parts, ne_eq, not_true_eq_false, Bool.false_eq_true, or_self, if_false]

theorem ctxCreate_of_taken (op : s.opCmd k 5 1 = some c) (taken : (s.ctx c.ctx).state ≠ 0) : ctxCreate k s = s.complete c 5 0 0 := by
  simp only [ctxCreate, op]
  exact if_pos (.inl taken)

theorem ctxSave_of (op : s.opCmd k 5 2 = some c) (hx : x = s.ctx c.ctx) (noRun : (s.runs.any fun r => r.ctx == c.ctx) = false)
    (idle : x.state = 1 ∨ x.state = 2) : ctxSave k s =
      ((x.resArrays.foldl (fun (s : State) a => s.store (x.imageAt a) (s.rdN (x.partAt a) x.partLen)) s).setCtx c.ctx
        { x with state := 4, holdsPart := false }).complete c 0 0 0 := by
  subst hx
  have saves : ¬ ((s.ctx c.ctx).state ≠ 1 ∧ (s.ctx c.ctx).state ≠ 2) := fun ⟨a, b⟩ => idle.elim a b
  simp only [ctxSave, op, noRun, Bool.false_eq_true, if_false, if_neg saves]

theorem ctxRestore_of (op : s.opCmd k 5 3 = some c) (hx : x = s.ctx c.ctx) (saved : x.state = 4) (parts : s.partitionTaken x c.ctx = false) :
    ctxRestore k s = ((x.resArrays.foldl (fun (s : State) a => s.store (x.partAt a) (s.rdN (x.imageAt a) x.partLen)) s).setCtx c.ctx
      { x with state := 1, holdsPart := true }).complete c 0 0 0 := by
  subst hx
  simp only [ctxRestore, op, if_neg (not_not.2 saved), parts, Bool.false_eq_true, if_false]

theorem ctxRestore_of_taken (op : s.opCmd k 5 3 = some c) (saved : (s.ctx c.ctx).state = 4) (parts : s.partitionTaken (s.ctx c.ctx) c.ctx = true) :
    ctxRestore k s = s.complete c 2 0 0 := by
  simp only [ctxRestore, op, if_neg (not_not.2 saved), parts, if_true]

end

/-- Copying images, then setting the context and completing, reaches what a store reaches, the contexts and what completing reaches. -/
theorem State.copied_only (s : State) (l : List Nat) (f : State → Nat → State) (h : ∀ u a, Stored u (f u a)) (n : Nat) (x : Ctx) (c : Cmd) (status result gen : Nat) :
    ChangesOnly [.ctxs, .mem, .hif, .out, .pldm, .pins, .sync, .tables, .hbm, .flash, .dsc] s
      (((l.foldl f s).setCtx n x).complete c status result gen) :=
  ((foldl_only (fun u a => (h u a).only.mono (by decide)) l s).trans ((State.setCtx_only _ _ _).mono (by decide))).trans
    ((State.complete_completed _ _ _ _ _).only.mono (by decide))

theorem exec_ctxSave {s : State} (h : s.Live) (k : CmdKey) : exec (.ctxSave k) s = .next (s.settle (ctxSave k s)) := live_of h.1 h.2 _
theorem exec_ctxRestore {s : State} (h : s.Live) (k : CmdKey) : exec (.ctxRestore k) s = .next (s.settle (ctxRestore k s)) := live_of h.1 h.2 _

/-- Settles O12: a context is created with its block, saved to its images and restored from them, or refused where something has been taken. -/
theorem contextsAreCreatedSavedAndRestored : Obligations.contexts_are_created_saved_and_restored := by
  intro s live
  refine ⟨fun k c x op hx free objs parts => ?_, fun k c op taken => ?_, fun k c op noRun idle => ?_, fun k c op saved parts => ?_,
    fun k c op saved parts => ?_⟩
  · have completed := State.complete_completed (s.setCtx c.ctx { x with state := 1, gen := (s.ctx c.ctx).gen + 1, holdsPart := true }) c 0 0 ((s.ctx c.ctx).gen + 1).toNat
    have only : ChangesOnly [.ctxs, .mem, .hif, .out, .pldm, .pins, .sync, .tables] s _ :=
      ((s.setCtx_only _ _).mono (by decide)).trans (completed.only.mono (by decide))
    refine ⟨_, _, rfl, live_of_only live (ctxCreate_of_free op hx free objs parts) only (by decide), rfl, fun rising => ?_, only⟩
    exact (congrArg (fun t => Tab.get (fun _ => Ctx.reset) t c.ctx) (completed.only .ctxs (by decide))).trans (s.ctx_setCtx_self _ rising)
  · exact live_of_only live (ctxCreate_of_taken op taken) (s.complete_completed _ _ _ _).only (by decide)
  · refine ⟨_, _, rfl, by rw [exec_ctxSave live, ctxSave_of op rfl noRun idle], rfl, ?_⟩
    exact (s.copied_only _ _ (fun u a => u.store_stored _ _) _ _ _ _ _ _).settle
  · refine ⟨_, _, rfl, by rw [exec_ctxRestore live, ctxRestore_of op rfl saved parts], rfl, ?_⟩
    exact (s.copied_only _ _ (fun u a => u.store_stored _ _) _ _ _ _ _ _).settle
  · exact live_of_only live (ctxRestore_of_taken op saved parts) (s.complete_completed _ _ _ _).only (by decide)

/-! Teardown. -/

/-- A context that a command tears down, with the number of its commands that are discarded. -/
def Ctx.torn (x : Ctx) (k : CmdKey) (discarded : Nat) : Ctx := { x with state := 6, teardown := some k, discarded := discarded }

/-- The commands of a context besides its teardown. -/
def State.othersOf (s : State) (k : CmdKey) (n : Nat) : Nat := (s.hif.cmds.filter fun y => y.ofCtx n && y.key != k).length

/-- The state after a teardown's own steps, before the context's other commands complete. -/
def State.tornDown (s : State) (k : CmdKey) (n : Nat) : State :=
  let v := State.abandonCtx (s.setCtx n ((s.ctx n).torn k (s.othersOf k n))) n
  let w : State := { v with runs := v.runs.filter fun (r : Run) => r.ctx != n }
  (w.tablesOf n).foldl (fun s t => s.stopTable t none) w

theorem ctxTeardown_of {s : State} {k : CmdKey} {c : Cmd} (op : s.opCmd k 5 4 = some c) (exists_ : (s.ctx c.ctx).state ≠ 0)
    (once : (s.ctx c.ctx).state ≠ 6) : ctxTeardown k s = (s.tornDown k c.ctx).completeAll (fun y => y.ofCtx c.ctx && y.key != k) 3 := by
  simp only [ctxTeardown, op, exists_, once, or_self, if_false]
  rfl

/-- What a teardown's own steps leave: no RUN and no engine's work of the context, and of the contexts' table the context itself alone changed. -/
theorem State.tornDown_parts (s : State) (k : CmdKey) (n : Nat) : (s.tornDown k n).runs = s.runs.filter (fun r => r.ctx != n) ∧
    (s.tornDown k n).engines = abandonWork n s.engines ∧ (s.tornDown k n).ctxs = (s.setCtx n ((s.ctx n).torn k (s.othersOf k n))).ctxs ∧
    Faulted s (s.tornDown k n) := by
  unfold State.tornDown
  extract_lets v w
  obtain ⟨y, a, units, f, abandoned⟩ := State.abandonCtx_eq (s.setCtx n ((s.ctx n).torn k (s.othersOf k n))) n
  have hv : v = _ := abandoned
  have faulted : Faulted s w := ((Faulted.setCtx s _ _).trans (State.abandonCtx_faulted _ _)).trans (Faulted.runs v _)
  have stopped : Completed w ((w.tablesOf n).foldl (fun s t => s.stopTable t none) w) :=
    foldl_keeps Completed.refl Completed.trans (fun u t => u.stopTable_completed t none) _ w
  have runs : w.runs = s.runs.filter (fun r => r.ctx != n) := by simp only [w, hv]; rfl
  have engines : w.engines = abandonWork n s.engines := by simp only [w, hv]; rfl
  have ctxs : w.ctxs = (s.setCtx n ((s.ctx n).torn k (s.othersOf k n))).ctxs := by simp only [w, hv]
  exact ⟨(stopped.only .runs (by decide)).trans runs, (stopped.only .engines (by decide)).trans engines, (stopped.only .ctxs (by decide)).trans ctxs,
    faulted.trans stopped.faulted⟩

/-- The end of a teardown: the record, CVEC as its only signal, and the ring's deletion where it waited for this command (R402, R639). -/
def State.postTeardown (u : State) (k : CmdKey) (c : Cmd) (id : BitVec 16) (x : Ctx) : State :=
  let v := (u.raiseOn c.evring 0x0503 id srcSched (leBytes 4 c.tag ++ leBytes 2 x.gen.toNat ++ leBytes 2 0 ++ leBytes 4 x.discarded)).dropCmd k
  State.finishDelete (if bitOf c.flags 2 then v.raiseCvec k.ring else v) k.ring

theorem ctxTeardownDone_of {s : State} {k : CmdKey} {c : Cmd} (op : s.opCmd k 5 4 = some c) (tearing : (s.ctx c.ctx).state = 6)
    (mine : (s.ctx c.ctx).teardown = some k) (quiet : s.arraysBusy c.ctx = false) : ctxTeardownDone k s =
      ((s.returnResources c.ctx).freeCtx c.ctx).postTeardown k c (s.ctxid c.ctx) (s.ctx c.ctx) := by
  simp only [ctxTeardownDone, op, tearing, mine, quiet, ne_eq, not_true_eq_false, Bool.false_eq_true, or_self, if_false]
  rfl

theorem State.postTeardown_raised (u : State) (k : CmdKey) (c : Cmd) (id : BitVec 16) (x : Ctx) : Raised u (u.postTeardown k c id x) := by
  unfold State.postTeardown
  extract_lets v
  have posted : Raised u v := (u.raiseOn_raised _ _ _ _ _).trans (State.dropCmd_raised _ _)
  refine Raised.trans ?_ (State.finishDelete_raised _ _)
  split
  · exact posted.trans (State.raiseCvec_raised _ _)
  · exact posted

theorem exec_ctxTeardown {s : State} (h : s.Live) (k : CmdKey) : exec (.ctxTeardown k) s = .next (s.settle (ctxTeardown k s)) := live_of h.1 h.2 _
theorem exec_ctxTeardownDone {s : State} (h : s.Live) (k : CmdKey) : exec (.ctxTeardownDone k) s = .next (s.settle (ctxTeardownDone k s)) := live_of h.1 h.2 _

/-- Settles O13: a teardown ends what the context does, and its completion returns what it held. -/
theorem teardownEndsAContextAndFreesIt : Obligations.teardown_ends_a_context_and_frees_it := by
  intro s live k c x op hx
  subst hx
  refine ⟨fun exists_ once => ?_, fun tearing mine quiet => ?_⟩
  · obtain ⟨runs, engines, ctxs, faulted⟩ := s.tornDown_parts k c.ctx
    have completed := State.completeAll_completed (s.tornDown k c.ctx) (fun y => y.ofCtx c.ctx && y.key != k) 3
    refine ⟨_, s.tornDown k c.ctx, by rw [exec_ctxTeardown live, ctxTeardown_of op exists_ once], rfl, runs, engines, fun rising => ?_, ?_⟩
    · exact (congrArg (fun t => Tab.get (fun _ => Ctx.reset) t c.ctx) ctxs).trans (s.ctx_setCtx_self _ rising)
    · exact ((faulted.trans completed.faulted).only.mono (by decide)).settle
  · exact ⟨_, _, by rw [exec_ctxTeardownDone live, ctxTeardownDone_of op tearing mine quiet]; rfl, rfl, rfl,
      (State.postTeardown_raised _ k c (s.ctxid c.ctx) (s.ctx c.ctx)).only⟩

end Sys2Proof.Machine
end

section
/-!
PROOF. The operations of served admin requests (R346-R351, R424-R441, R471-R479, R541, R575-R578): O14 to O16.
-/
namespace Sys2Proof.Machine

/-! Serving a request and its frame. -/

section
variable {s u : State} {f : AdminFrom} {op : Nat} {q : AdminReq} {l : List Part} {t : State}

/-- The parts that serving and an operation reach. -/
theorem State.Serves.then_only (h : s.Serves f op q u) (k : ChangesOnly l u t) : ChangesOnly ([.hif, .sec] ++ l) s t :=
  (h.only.mono fun _ hp => List.mem_append_left _ hp).trans (k.mono fun _ hp => List.mem_append_right _ hp)

/-- A served request whose parameter block passes its check has its operation's effect. -/
theorem served_of (live : s.Live) (h : s.Serves f op q u) {ok : AdminReq → Bool} {act : AdminReq → State → State} (good : ok q = true)
    (e : act q u = t) (k : ChangesOnly l u t) (hl : ∀ p ∈ [Part.pending, .now, .strapped, .tap], p ∉ l) :
    liveMp s (fun s => s.serveAdmin f op ok act) = .next t := by
  refine liveMp_of_only live ?_ (h.then_only k) fun p hp hq => ?_
  · rw [State.serveAdmin_of h, if_pos good, e]
  · rcases List.mem_append.1 hq with own | other
    · exact (show ∀ p ∈ [Part.pending, .now, .strapped, .tap], p ∉ [Part.hif, .sec] by decide) p hp own
    · exact hl p hp other

/-- A served request whose parameter block fails its check answers STATUS 4. -/
theorem served_refused (live : s.Live) (h : s.Serves f op q u) {ok : AdminReq → Bool} (act : AdminReq → State → State) (bad : ok q = false) :
    liveMp s (fun s => s.serveAdmin f op ok act) = .next (u.answerAdmin q 4 []) := by
  refine liveMp_of_only live ?_ (h.then_only (u.answerAdmin_only q 4 [])) (by decide)
  rw [State.serveAdmin_of h, bad]
  exact if_neg Bool.false_ne_true

theorem answering_of {act : AdminReq → State → State × Nat} {v : State} {n : Nat} (e : act q u = (v, n)) :
    answering act q u = v.answerAdmin q n [] := by
  simp only [answering, e]

end

theorem State.answered_only {l : List Part} {u v : State} (k : ChangesOnly l u v) (q : AdminReq) (status : Nat) (block : List Byte) :
    ChangesOnly (l ++ [.mem, .hif, .out, .pldm, .pins, .fab]) u (v.answerAdmin q status block) :=
  (k.mono fun _ hp => List.mem_append_left _ hp).trans ((v.answerAdmin_only q status block).mono fun _ hp => List.mem_append_right _ hp)

/-! Sessions. -/

theorem State.answerOpen_only (s : State) (q : AdminReq) (block : List Byte) :
    ChangesOnly [.mem, .hif, .out, .pldm, .pins, .fab] s (s.answerOpen q block) := by
  unfold State.answerOpen
  split
  · refine ChangesOnly.trans ?_ ((State.adminDone_raised _ q 0).only.mono (by decide))
    split
    · exact (ChangesOnly.mem s _).mono (by decide)
    · exact .refl _ s
  · exact s.answerAdmin_only _ _ _

theorem State.setSession_only (s : State) (n : Nat) (x : Session) : ChangesOnly [.sec] s (s.setSession n x) := ChangesOnly.sec s _

theorem openPhase1_of_free {q : AdminReq} {u : State} {n : Nat} (free : (List.range 4).find? (fun n => u.session n == .free) = some n) :
    openPhase1 q u = State.answerOpen (State.setSession u.tick n (.reserved q.transport ((q.block.drop 0x10).take 32) (padTo 32 (Config.nonce u.fresh)) u.now)) q
      (openAnswer n (padTo 32 (Config.nonce u.fresh)) []) := by
  simp only [openPhase1, free]

theorem openPhase1_of_full {q : AdminReq} {u : State} (full : (List.range 4).find? (fun n => u.session n == .free) = none) :
    openPhase1 q u = (u.rejectSession q 5 0xFF).answerAdmin q 4 [] := by
  simp only [openPhase1, full]

/-- The session that a right proof opens, with the transport's failures cleared. -/
def State.opened (u : State) (q : AdminReq) (n : Nat) (ks : List Byte) : State :=
  let v := u.setSession n (.opened q.transport q.port ks none)
  { v with sec := { v.sec with fails := Tab.set (fun _ => 0) v.sec.fails q.transport 0 } }

theorem openPhase2_of {q : AdminReq} {u : State} {k nm : List Byte} {since : Nat}
    (reserved : u.session (q.par 1 1) = .reserved q.transport ((q.block.drop 0x10).take 32) nm since) (early : u.now ≤ since + 1000000000)
    (key : u.boot.opKey = some k)
    (proof : proofOf k nm ((q.block.drop 0x10).take 32) (q.par 1 1) q.transport = (q.block.drop 0x30).take 64) :
    openPhase2 q u = State.answerOpen (u.opened q (q.par 1 1) (sessionKey k nm ((q.block.drop 0x10).take 32) (q.par 1 1) q.transport)) q
      (openAnswer (q.par 1 1) nm (proofM (sessionKey k nm ((q.block.drop 0x10).take 32) (q.par 1 1) q.transport) nm ((q.block.drop 0x10).take 32))) := by
  simp only [openPhase2, reserved, key, proof, Nat.not_lt.2 early, ne_eq, not_true_eq_false, or_self, if_false]
  rfl

theorem State.deleteRing_completed (s : State) (n : Nat) (q : Option AdminReq) : Completed s (s.deleteRing n q) := by
  unfold State.deleteRing
  split
  · exact .refl s
  · exact ((s.setRing_raised _ _).completed.trans (State.completeAll_completed _ _ _)).trans (State.finishDelete_raised _ _).completed

theorem State.deleteRingsOf_completed (s : State) (session : Nat) : Completed s (s.deleteRingsOf session) := by
  refine foldl_keeps Completed.refl Completed.trans (fun u n => ?_) _ s
  split
  · split
    · exact u.deleteRing_completed _ _
    · exact .refl u
  · exact .refl u

theorem sessionReservationLapse_of_late {s : State} {n t since : Nat} {nh nm : List Byte} (reserved : s.session n = .reserved t nh nm since)
    (late : since + 1000000000 < s.now) : sessionReservationLapse n s = s.setSession n .free := by
  simp only [sessionReservationLapse, reserved, if_pos late]

theorem lockoutEnd_of_over {s : State} {t : Nat} (ended : s.lockedOut t = false) :
    lockoutEnd t s = { s with sec := { s.sec with locked := Tab.set (fun _ => none) s.sec.locked t none } } := by
  simp only [lockoutEnd, ended, Bool.false_eq_true, if_false]

/-- Settles O14: a session is reserved, opened by its proof and closed, and reservations and lockouts end in their time. -/
theorem adminSessionsOpenAndClose : Obligations.admin_sessions_open_and_close := by
  intro s live
  refine ⟨?free, ?full, ?phase2, ?close, ?lapse, ?lockout⟩
  case free =>
    intro f q u n served session plen zeros phase unused empty free
    refine ⟨_, rfl, served_of live served ?_ ((if_pos phase).trans (openPhase1_of_free free)) ?_ (l := [.fresh, .sec, .mem, .hif, .out, .pldm, .pins, .fab]) (by decide)⟩
    · simp only [session, plen, zeros, phase, unused, empty, beq_self_eq_true, Bool.and_self, Bool.true_or]
    · exact (((u.tick_only.mono (by decide)).trans ((State.setSession_only _ _ _).mono (by decide))).trans ((State.answerOpen_only _ _ _).mono (by decide)))
  case full =>
    intro f q u served session plen zeros phase unused empty full
    refine served_of live served ?_ ((if_pos phase).trans (openPhase1_of_full full)) (State.answered_only (u.rejectSession_only q 5 0xFF) q 4 []) (by decide)
    simp only [session, plen, zeros, phase, unused, empty, beq_self_eq_true, Bool.and_self, Bool.true_or]
  case phase2 =>
    intro f q u k nm since served session plen zeros phase number reserved early key proof
    have second : q.par 0 1 ≠ 1 := by rw [phase]; decide
    refine ⟨_, _, rfl, rfl, served_of live served ?_ ((if_neg second).trans (openPhase2_of reserved early key proof)) ?_
      (l := [.sec, .mem, .hif, .out, .pldm, .pins, .fab]) (by decide)⟩
    · simp only [session, plen, zeros, phase, number, beq_self_eq_true, decide_true, Bool.and_self, Bool.or_true]
    · exact (((State.setSession_only _ _ _).trans (ChangesOnly.sec _ _)).mono (by decide)).trans ((State.answerOpen_only _ _ _).mono (by decide))
  case close =>
    intro f q u served
    have closed : ChangesOnly [.mem, .hif, .out, .pldm, .pins, .sync, .tables, .fab, .sec, .dbg, .ctxs] u
        (((u.endSessions fun n => n == q.session).deleteRingsOf q.session).answerAdmin q 0 []) :=
      ((((u.endSessions_only _).mono (by decide)).trans ((State.deleteRingsOf_completed _ _).only.mono (by decide))).trans
        ((State.answerAdmin_only _ q 0 []).mono (by decide)))
    exact ⟨_, served_of live served rfl rfl closed (by decide), rfl, (served.only.mono (by decide)).trans closed⟩
  case lapse =>
    intro n t nh nm since reserved late
    exact live_of_only live (sessionReservationLapse_of_late reserved late) (s.setSession_only _ _) (by decide)
  case lockout =>
    intro t ended
    exact live_of_only live (lockoutEnd_of_over ended) (ChangesOnly.sec s _) (by decide)

/-! Rings, resets and repair. -/

theorem ChangesOnly.flash (s : State) (x : Flash) : ChangesOnly [.flash] s { s with flash := x } := by
  intro p hp; cases p <;> first | (exfalso; revert hp; decide) | rfl

/-- The ring that a good RING_CREATE block describes. -/
def ringOf (q : AdminReq) : Ring :=
  { base := q.par 0 8, headptr := q.par 8 8, sizeLog2 := q.par 0x11 1, weight := q.par 0x12 1, cvec := BitVec.ofNat 16 (q.par 0x14 2)
    session := q.session, head := 0, tail := 0, stopped := false, deleting := none }

section
variable {s u : State} {f : AdminFrom} {q : AdminReq} (live : s.Live)
include live

theorem exec_ringCreate_of_free (h : s.Serves f 0x03 q u) (good : ringCreateOk q = true) (service : u.flash.oos = false) (level : u.boot.level ≠ 0)
    (free : u.ring (q.par 0x10 1) = none) : exec (.ringCreate f) s = .next ((u.setRing (q.par 0x10 1) (some (ringOf q))).answerAdmin q 0 []) := by
  refine served_of live h good (answering_of (v := u.setRing (q.par 0x10 1) (some (ringOf q))) ?_) (State.answered_only (u.setRing_only _ _) q 0 []) (by decide)
  have may : ¬ ((u.flash.oos || u.boot.level == 0 || (u.ring (q.par 0x10 1)).isSome) = true) := by
    simp only [service, free, Option.isSome_none, Bool.false_or, Bool.or_false, beq_iff_eq]
    exact level
  exact if_neg may

theorem exec_ringCreate_of_refused (h : s.Serves f 0x03 q u) (good : ringCreateOk q = true)
    (refused : u.flash.oos = true ∨ u.boot.level = 0 ∨ u.ring (q.par 0x10 1) ≠ none) : exec (.ringCreate f) s = .next (u.answerAdmin q 4 []) := by
  refine served_of live h good (answering_of (v := u) ?_) (u.answerAdmin_only q 4 []) (by decide)
  refine if_pos ?_
  simp only [Bool.or_eq_true, beq_iff_eq, Option.isSome_iff_ne_none, or_assoc]
  exact refused

theorem exec_ringDelete_of {r : Ring} (h : s.Serves f 0x04 q u) (plen : q.plen = 1) (found : u.ring (q.par 0 1) = some r) (mine : r.session = q.session)
    (stands : r.deleting = none) : exec (.ringDelete f) s = .next (u.deleteRing (q.par 0 1) (some q)) := by
  refine served_of live h (by simp only [plen, beq_self_eq_true]) ?_ (u.deleteRing_completed _ _).only (by decide)
  simp only [found]
  exact if_pos ⟨mine, by rw [stands]; rfl⟩

theorem exec_reset_of (h : s.Serves f 0x10 q u) (good : resetOk q = true) :
    (q.par 0 1 = 4 → exec (.reset f) s = .next (u.requestFunction (7 + q.transport))) ∧
    (q.par 0 1 = 5 → exec (.reset f) s = .next (u.requestWarm (7 + q.transport) 0 0 (q.par 4 1 == 1) false)) ∧
    (q.par 0 1 = 6 → exec (.reset f) s = .next (u.requestCold (7 + q.transport) 0)) ∧
    (q.par 0 1 < 4 → exec (.reset f) s = .next (u.requestSmall {
      scope := q.par 0 1, index := if q.par 0 1 = 3 then 16 * q.par 2 1 + q.par 3 1 else q.par 1 1, source := 7 + q.transport, watchdog := 0
      at_ := u.now, req := some q })) := by
  refine ⟨fun is => ?_, fun is => ?_, fun is => ?_, fun small => ?_⟩
  · exact served_of live h good (by simp only [is]) (u.requestReset_only _) (by decide)
  · exact served_of live h good (by simp only [is]) (u.requestReset_only _) (by decide)
  · exact served_of live h good (by simp only [is]) (u.requestReset_only _) (by decide)
  · refine served_of live h good ?_ (u.requestSmall_only _) (by decide)
    obtain is | is | is | is : q.par 0 1 = 0 ∨ q.par 0 1 = 1 ∨ q.par 0 1 = 2 ∨ q.par 0 1 = 3 := by omega
    all_goals simp only [is]

end

/-- Settles O15: rings are created and deleted, resets asked for, and the repair, the latch and the margin plan cleared or made pending. -/
theorem adminRingsResetsAndRepair : Obligations.admin_rings_resets_and_repair := by
  intro s live
  refine ⟨fun f q u h good service level free => ?_, fun f q u h good refused => ?_, fun f q u h bad => ?_, fun f q u r h plen found mine stands => ?_,
    fun f q u h good => ?_, fun f q u h => ?_, fun f q u h => ?_, fun f q u h => ?_⟩
  · exact ⟨_, exec_ringCreate_of_free live h good service level free, rfl,
      (h.then_only (State.answered_only (u.setRing_only _ _) q 0 [])).mono (by decide)⟩
  · exact exec_ringCreate_of_refused live h good refused
  · exact served_refused live h _ bad
  · exact exec_ringDelete_of live h plen found mine stands
  · exact exec_reset_of live h good
  · have only := State.answered_only (ChangesOnly.flash u { u.flash with cleared := true }) q 0 []
    exact ⟨_, served_of live h rfl (answering_of rfl) only (by decide), rfl, (h.then_only only).mono (by decide)⟩
  · exact served_of live h rfl rfl (((ChangesOnly.flash u _).mono (m := [.flash, .rst]) (by decide)).trans ((State.requestReset_only _ _).mono (by decide)))
      (by decide)
  · have only := State.answered_only (ChangesOnly.flash u { u.flash with margin := { u.flash.margin with pending := 0x3FF } }) q 0 []
    exact ⟨_, served_of live h rfl (answering_of rfl) only (by decide), rfl, (h.then_only only).mono (by decide)⟩

/-! Fabric and plans. -/

theorem State.setRoute_only (s : State) (e : Nat) (v : BitVec 16) : ChangesOnly [.fab] s (s.setRoute e v) :=
  .ite (ChangesOnly.fab s _) (ChangesOnly.fab s _)

theorem State.removePlan_only (s : State) (j : Nat) : ChangesOnly [.red, .sync] s (s.removePlan j) :=
  ((s.setPlan_only j none).mono (by decide)).trans ((ChangesOnly.sync _ _).mono (by decide))

theorem ofNat_eq_of_toNat {n : Nat} {b : BitVec 16} (h : n = b.toNat) : BitVec.ofNat 16 n = b := by
  rw [h, BitVec.ofNat_toNat, BitVec.setWidth_eq]

section
variable {s u : State} {f : AdminFrom} {q : AdminReq} (live : s.Live)
include live

theorem exec_assignDevid_of (h : s.Serves f 0x30 q u) (plen : q.plen = 8) (zeros : zeroAt q.block 2 6 = true)
    (may : q.par 0 2 = u.fab.id.toNat ∨ (u.red.plans.any fun e => e.2.isSome) = false) : exec (.assignDevid f) s =
      .next (State.answerAdmin { u with fab := { u.fab with id := BitVec.ofNat 16 (q.par 0 2), valid := true } } q 0 []) := by
  refine served_of live h (by simp only [plen, zeros, beq_self_eq_true, Bool.and_self]) (answering_of ?_)
    (State.answered_only (ChangesOnly.fab u { u.fab with id := BitVec.ofNat 16 (q.par 0 2), valid := true }) q 0 []) (by decide)
  refine if_neg fun ⟨ne, plans⟩ => ?_
  rcases may with same | none_
  · exact ne (ofNat_eq_of_toNat same)
  · rw [none_] at plans; cases plans

theorem exec_assignDevid_of_planned (h : s.Serves f 0x30 q u) (plen : q.plen = 8) (zeros : zeroAt q.block 2 6 = true)
    (ne : BitVec.ofNat 16 (q.par 0 2) ≠ u.fab.id) (plans : (u.red.plans.any fun e => e.2.isSome) = true) :
    exec (.assignDevid f) s = .next (u.answerAdmin q 4 []) :=
  served_of live h (by simp only [plen, zeros, beq_self_eq_true, Bool.and_self]) (answering_of (if_pos ⟨ne, plans⟩)) (u.answerAdmin_only q 4 []) (by decide)

theorem exec_planInstall_of {j : Nat} {p : Plan} (h : s.Serves f 0x32 q u) (plen : q.plen = 16) (zeros : zeroAt q.block 10 6 = true)
    (hp : p = u.readPlan (q.par 0 8) (BitVec.ofNat 16 (q.par 8 2))) (free : (List.range 16).find? (fun j => (u.plan j).isNone) = some j)
    (good : u.planOk p = true) : exec (.planInstall f) s = .next ((u.setPlan j (some p)).answerAdmin q 0 []) := by
  subst hp
  refine served_of live h (by simp only [plen, zeros, beq_self_eq_true, Bool.and_self]) (answering_of ?_)
    (State.answered_only (u.setPlan_only _ _) q 0 []) (by decide)
  simp only [free, good, if_true]

theorem exec_planInstall_of_refused {p : Plan} (h : s.Serves f 0x32 q u) (plen : q.plen = 16) (zeros : zeroAt q.block 10 6 = true)
    (hp : p = u.readPlan (q.par 0 8) (BitVec.ofNat 16 (q.par 8 2))) (bad : u.planOk p = false) :
    exec (.planInstall f) s = .next (u.answerAdmin q 4 []) := by
  subst hp
  refine served_of live h (by simp only [plen, zeros, beq_self_eq_true, Bool.and_self]) (answering_of (v := u) ?_) (u.answerAdmin_only q 4 []) (by decide)
  cases free : (List.range 16).find? (fun j => (u.plan j).isNone) with
  | none => rfl
  | some j => simp only [bad, Bool.false_eq_true, if_false]

end

/-- A command of the management processor gives its effect but for the queue, the time, the straps and the test logic. -/
theorem liveMp_of_eq {s t : State} {f : State → State} (live : s.Live) (e : f s = t) :
    liveMp s f = .next { t with pending := s.pending, now := s.now, strapped := s.strapped, tap := s.tap } := by
  rw [liveMp_of live.1 live.2, e]

section
variable {s u : State} {f : AdminFrom} {q : AdminReq} {j : Nat} {p : Plan} (live : s.Live)
include live

theorem exec_planRemove_of (h : s.Serves f 0x33 q u) (plen : q.plen = 8) (job : jobField q = true) (zeros : zeroAt q.block 2 6 = true)
    (found : u.planOfJob (q.par 0 2) = some (j, p)) : exec (.planRemove f) s = .next (((u.leavePlan j).removePlan j).answerAdmin q 0 []) := by
  refine served_of live h (by simp only [plen, job, zeros, beq_self_eq_true, Bool.and_self])
    (answering_of (v := (u.leavePlan j).removePlan j) (by simp only [found]))
    (l := [.red, .sync, .mem, .hif, .out, .pldm, .pins, .hbm, .flash, .dsc, .fab]) ?_ (by decide)
  exact (((u.leavePlan_stored j).only.mono (by decide)).trans ((State.removePlan_only _ j).mono (by decide))).trans
    ((State.answerAdmin_only _ q 0 []).mono (by decide))

theorem exec_planRemove_of_none (h : s.Serves f 0x33 q u) (plen : q.plen = 8) (job : jobField q = true) (zeros : zeroAt q.block 2 6 = true)
    (none_ : u.planOfJob (q.par 0 2) = none) : exec (.planRemove f) s = .next (u.answerAdmin q 4 []) :=
  served_of live h (by simp only [plen, job, zeros, beq_self_eq_true, Bool.and_self]) (answering_of (v := u) (by simp only [none_]))
    (u.answerAdmin_only q 4 []) (by decide)

theorem exec_stepAbort_of_other (h : s.Serves f 0x34 q u) (plen : q.plen = 8) (job : jobField q = true) (flag : q.par 3 1 < 2)
    (found : u.planOfJob (q.par 0 2) = some (j, p)) (other : q.par 4 4 ≠ p.openStep.toNat) : exec (.stepAbort f) s = .next (u.answerAdmin q 0 []) :=
  served_of live h (by simp only [plen, job, flag, beq_self_eq_true, decide_true, Bool.and_self])
    (answering_of (v := u) (by simp only [found, if_neg other])) (u.answerAdmin_only q 0 []) (by decide)

theorem exec_revert_of (h : s.Serves f 0x35 q u) (plen : q.plen = 8) (job : jobField q = true) (zeros : zeroAt q.block 2 2 = true)
    (found : u.planOfJob (q.par 0 2) = some (j, p)) (committed : p.lastToken = 2) (clean : p.wroteShadow = false)
    (last : BitVec.ofNat 32 (q.par 4 4) = p.version - 1) :
    exec (.revert f) s = .next ((u.setPlan j (some { p with version := p.version - 1 })).answerAdmin q 0 []) := by
  refine served_of live h (by simp only [plen, job, zeros, beq_self_eq_true, Bool.and_self])
    (answering_of (v := u.setPlan j (some { p with version := p.version - 1 })) ?_) (State.answered_only (u.setPlan_only _ _) q 0 []) (by decide)
  simp only [found]
  exact if_pos ⟨committed, by rw [clean]; rfl, last⟩

end

theorem stepAbort_of_open {s u : State} {f : AdminFrom} {q : AdminReq} {j : Nat} {p : Plan} (h : s.Serves f 0x34 q u) (plen : q.plen = 8)
    (job : jobField q = true) (flag : q.par 3 1 < 2) (found : u.planOfJob (q.par 0 2) = some (j, p)) (open_ : q.par 4 4 = p.openStep.toNat) :
    stepAbort f s = (u.fabricAbort j p (q.par 2 1) (q.par 3 1 == 1)).answerAdmin q 0 [] := by
  rw [stepAbort, State.serveAdmin_of h, if_pos (by simp only [plen, job, flag, beq_self_eq_true, decide_true, Bool.and_self])]
  exact answering_of (by simp only [found, if_pos open_])

theorem clipCoeff_of_master {s u : State} {f : AdminFrom} {q : AdminReq} {j : Nat} {p : Plan} (h : s.Serves f 0x20 q u) (plen : q.plen = 12)
    (job : jobField q = true) (zeros : zeroAt q.block 2 2 = true) (found : u.planOfJob (q.par 0 2) = some (j, p)) (host : p.clipMode = 2)
    (master : p.isMaster = true) (open_ : q.par 4 4 = p.openStep.toNat) :
    clipCoeff f s = ((u.masterClip j (BitVec.ofNat 32 (q.par 8 4))).updateClipped j).answerAdmin q 0 [] := by
  rw [clipCoeff, State.serveAdmin_of h, if_pos (by simp only [plen, job, zeros, beq_self_eq_true, Bool.and_self])]
  exact answering_of (by simp only [found, host, master, open_, and_self, if_true])

/-- Settles O16: the fabric manager's operations set the identifier and routes, and install, remove, abort, revert and clip plans. -/
theorem adminFabricAndPlanOperations : Obligations.admin_fabric_and_plan_operations := by
  intro s live
  refine ⟨fun f q u h plen zeros may small => ?_, fun f q u h plen zeros ne plans => ?_, fun f q u h some_ fits plen zeros => ?_,
    fun f q u p h plen zeros hp => ⟨fun j free good => ?_, fun bad => ?_⟩, fun f q u h plen job zeros => ⟨fun j p found => ?_, fun none_ => ?_⟩,
    fun f q u j p h plen job flag found => ⟨fun open_ => ?_, fun other => ?_⟩, fun f q u j p h plen job zeros found committed clean last => ?_,
    fun f q u j p h plen job zeros found host master open_ => ?_⟩
  · exact ⟨_, exec_assignDevid_of live h plen zeros may, rfl, (h.then_only (State.answered_only (ChangesOnly.fab u _) q 0 [])).mono (by decide)⟩
  · exact exec_assignDevid_of_planned live h plen zeros ne plans
  · have only := State.answered_only (foldl_only (fun (v : State) i => v.setRoute_only (q.par 0 2 + i) (BitVec.ofNat 16 (q.par (8 + 2 * i) 2)))
      (List.range (q.par 2 2)) u) q 0 []
    refine ⟨_, served_of live h ?_ (answering_of rfl) only (by decide), rfl, (h.then_only only).mono (by decide)⟩
    simp only [some_, fits, plen, zeros, decide_true, beq_self_eq_true, Bool.and_self]
  · exact ⟨_, exec_planInstall_of live h plen zeros hp free good, rfl, (h.then_only (State.answered_only (u.setPlan_only _ _) q 0 [])).mono (by decide)⟩
  · exact exec_planInstall_of_refused live h plen zeros hp bad
  · have only : ChangesOnly [.mem, .hif, .out, .pldm, .pins, .fab, .sec, .red, .sync, .hbm, .flash, .dsc] u
        (((u.leavePlan j).removePlan j).answerAdmin q 0 []) :=
      (((u.leavePlan_stored j).only.mono (by decide)).trans ((State.removePlan_only _ j).mono (by decide))).trans
        ((State.answerAdmin_only _ q 0 []).mono (by decide))
    exact ⟨_, exec_planRemove_of live h plen job zeros found, rfl, (h.only.mono (by decide)).trans only⟩
  · exact exec_planRemove_of_none live h plen job zeros none_
  · exact ⟨_, rfl, liveMp_of_eq live (stepAbort_of_open h plen job flag found open_)⟩
  · exact exec_stepAbort_of_other live h plen job flag found other
  · exact ⟨_, exec_revert_of live h plen job zeros found committed clean last, rfl,
      (h.then_only (State.answered_only (u.setPlan_only _ _) q 0 [])).mono (by decide)⟩
  · exact ⟨_, rfl, liveMp_of_eq live (clipCoeff_of_master h plen job zeros found host master open_)⟩

end Sys2Proof.Machine
end

section
/-!
PROOF. The array sequencer: tile issue, cycles, wake loads, the exchange front and the tile watchdog (R65-R95, R254): O19.
-/
namespace Sys2Proof.Machine

theorem ArrayUnit.block_setBlock (x : ArrayUnit) (reg : Nat) (b : RegBlock) : (x.setBlock reg b).block reg = b := by
  by_cases h : reg = 0 <;> simp only [ArrayUnit.setBlock, ArrayUnit.block, h, if_true, if_false]

theorem ArrayUnit.setBlock_eq (x : ArrayUnit) (reg : Nat) (b : RegBlock) : ∃ s0 s1, x.setBlock reg b = { x with s0 := s0, s1 := s1 } := by
  by_cases h : reg = 0
  · exact ⟨b, x.s1, if_pos h⟩
  · exact ⟨x.s0, b, if_neg h⟩

/-! Tile issue. -/

section
variable {s u : State} {a : Nat} {r : Run} (runs : s.runOnArray a = some r) (may : s.mayIssue a r = true)
  (hu : u = State.skipTiles a ((s.array a).ntiles - (s.array a).pos) s)
include runs may hu

theorem tileIssue_of_stop (stop : u.mustStop a = true) : tileIssue a s = u.stopTile a r := by
  subst hu
  simp only [tileIssue, runs, may, Bool.not_true, Bool.false_eq_true, if_false, stop, if_true]

theorem tileIssue_of_claimed {t : TileRec} {v : State} (ht : t = u.tileRec (u.array a) (u.array a).pos) (goes : u.mustStop a = false)
    (left : (u.array a).pos < (u.array a).ntiles) (between : (u.array a).between = true) (free : u.holdsOf a (u.array a).pos = [])
    (mark : u.markOk a (u.array a).pos t = true) (claimed : u.claim a (u.array a).pos r t = (true, v)) :
    tileIssue a s = v.beginTile a (u.array a).pos r t := by
  subst hu ht
  simp only [tileIssue, runs, may, Bool.not_true, Bool.false_eq_true, if_false, goes, Nat.not_le.2 left, between, free, ne_eq, not_true_eq_false, or_self,
    mark, claimed]

end

/-! Cycles. -/

/-- The state in which an array's sequencer has counted the cycle that ends, from the state `v` that has counted its stalls. -/
def State.cycleCounted (v : State) (a : Nat) (y : ArrayUnit) (cause rem eCount : Nat) : State :=
  v.setArray a { y with cause := cause, stretchRem := rem, counter := y.counter + 1, cyc := y.cyc + 1, granted := [], eCount := eCount }

theorem State.cycleCounted_array {v : State} {a : Nat} (rising : Tab.rising v.arrays = true) (y : ArrayUnit) (cause rem eCount : Nat) :
    ((v.cycleCounted a y cause rem eCount).array a).cyc = y.cyc + 1 ∧ ((v.cycleCounted a y cause rem eCount).array a).counter = y.counter + 1 := by
  rw [State.cycleCounted, v.array_setArray_self _ rising]
  exact ⟨rfl, rfl⟩

/-- An array whose feeders' marks of the cycle before are taken away. -/
def ArrayUnit.unmarked (x : ArrayUnit) : ArrayUnit :=
  [0, 1, 2, 3].foldl (fun (x : ArrayUnit) f => x.setFeeder f { x.feeder f with mActive := false, sActive := false, conflict := false }) x

theorem ArrayUnit.foldl_setFeeder (next : ArrayUnit → Nat → Feeder) (fs : List Nat) (x : ArrayUnit) :
    ∃ feeders, fs.foldl (fun y f => y.setFeeder f (next y f)) x = { x with feeders := feeders } := by
  induction fs generalizing x with
  | nil => exact ⟨x.feeders, rfl⟩
  | cons f fs ih =>
    obtain ⟨feeders, e⟩ := ih (x.setFeeder f (next x f))
    exact ⟨feeders, e⟩

theorem ArrayUnit.unmarked_counters (x : ArrayUnit) : x.unmarked.cyc = x.cyc ∧ x.unmarked.counter = x.counter := by
  obtain ⟨feeders, e⟩ := ArrayUnit.foldl_setFeeder (fun y f => { y.feeder f with mActive := false, sActive := false, conflict := false }) [0, 1, 2, 3] x
  rw [ArrayUnit.unmarked, e]
  exact ⟨rfl, rfl⟩

theorem State.cycleCount_eq (s : State) (a : Nat) : ∃ v cause rem eCount, ChangesOnly [.tel] s v ∧
    s.cycleCount a = v.cycleCounted a (v.array a).unmarked cause rem eCount := by
  unfold State.cycleCount
  extract_lets x cause causes quarters u v
  have counted : ChangesOnly [.tel] s u := foldl_only (fun w i => w.countStall_only _ _ _) _ s
  have stretched : ChangesOnly [.tel] s v := by
    simp only [v]
    split
    · exact counted
    · exact counted.trans (foldl_only (fun w i => w.countStall_only _ _ _) _ u)
  exact ⟨v, _, _, _, stretched, rfl⟩

theorem State.cycleCount_counters {s : State} (a : Nat) (rising : Tab.rising s.arrays = true) :
    ((s.cycleCount a).array a).cyc = (s.array a).cyc + 1 ∧ ((s.cycleCount a).array a).counter = (s.array a).counter + 1 := by
  obtain ⟨v, cause, rem, eCount, only, e⟩ := s.cycleCount_eq a
  have arrays : v.arrays = s.arrays := only .arrays (by decide)
  have same : v.array a = s.array a := congrArg (fun t => Tab.get (fun _ => ArrayUnit.reset) t a) arrays
  have counters := State.cycleCounted_array (by rw [arrays]; exact rising) (v.array a).unmarked cause rem eCount (a := a)
  rw [← e, (v.array a).unmarked_counters.1, (v.array a).unmarked_counters.2, same] at counters
  exact counters

theorem arrayCycle_of_stopped {s : State} {a : Nat} (stopped : s.clockRuns a = false) : arrayCycle a s = s := by
  simp only [arrayCycle, stopped, Bool.not_false, if_true]

theorem arrayCycle_of_running {s : State} {a : Nat} (runs : s.clockRuns a = true) : arrayCycle a s =
    if ((s.cycleCount a).array a).state = 4 then s.cycleCount a
    else (((((s.cycleCount a).issueSlot a).cycleWrites a).cycleInject a).edgeCycle a false).edgeCycle a true := by
  simp only [arrayCycle, runs, Bool.not_true, Bool.false_eq_true, if_false]

/-! Wake loads. -/

theorem wakeLoadStart_of {s : State} {a : Nat} {l : WakeLoad} (runs : s.clockRuns a = true) (up : (s.array a).state ≠ 4) (issues : (s.array a).state ≠ 2)
    (busy : (s.array a).quiesced = false) (next : (s.array a).nextLoad [] (s.array a).loads = some l) :
    wakeLoadStart a s = s.setArray a { (s.array a).setBlock l.reg { (s.array a).block l.reg with sp24 := s.loadSp24 a l } with
      loads := ((s.array a).setBlock l.reg { (s.array a).block l.reg with sp24 := s.loadSp24 a l }).loads.map fun m =>
        if m == l then { m with started := true } else m } := by
  simp only [wakeLoadStart, runs, up, issues, busy, next, Bool.not_true, decide_false, Bool.or_self, Bool.false_eq_true, if_false]

theorem wakeLoadComplete_of {s : State} {a : Nat} {l : WakeLoad} (found : (s.array a).loads.find? (fun l => l.started && l.done == l.ext) = some l) :
    wakeLoadComplete a s = s.setArray a { s.array a with loads := (s.array a).loads.erase l } := by
  simp only [wakeLoadComplete, found]

/-! The exchange front. -/

/-- The drain that an exchange begins. -/
def Tile.drain (t : Tile) (front : Nat) : Drain :=
  { reg := t.tr.park, front := front, brow := t.tr.brow, badd := t.tr.badd, fmt := t.tr.fmt, r := t.tr.r, c := t.tr.c, tile := t.pos, slots := t.slots
    final := t.tr.final }

/-- The register that an exchange leaves: the zeros that the chain feeds. -/
def parkedZeros (front : Nat) : RegBlock :=
  { hist := List.replicate 1024 { row := zeroRow 0 0 false, north := true }, source := none, sp24 := false, lastAt := front, epoch := 0 }

theorem exchangeFront_of {s : State} {a : Nat} {t : Tile} (ended : (s.array a).holdEnded = some t) (up : (s.array a).state ≠ 4)
    (runs : s.clockRuns a = true) (free : (s.array a).frontHolds t = []) : ∃ s0 s1, exchangeFront a s = s.setArray a { s.array a with
      s0 := s0, s1 := s1, inflight := (s.array a).inflight.filter (fun v => v.pos != t.pos)
      drains := (s.array a).drains ++ [t.drain ((s.array a).cyc + 1)], lastFront := some ((s.array a).cyc + 1) } ∧
    (if t.tr.park = 0 then s0 else s1) = parkedZeros ((s.array a).cyc + 1) := by
  obtain ⟨s0, s1, e⟩ := (s.array a).setBlock_eq t.tr.park (parkedZeros ((s.array a).cyc + 1))
  refine ⟨s0, s1, ?_, ?_⟩
  · unfold exchangeFront
    extract_lets x
    have ended' : x.holdEnded = some t := ended
    rw [ended']
    have goes : ¬ ((x.state = 4 || !s.clockRuns a || x.frontHolds t ≠ []) = true) := by
      simp only [x, up, runs, free, ne_eq, not_true_eq_false, decide_false, Bool.not_true, Bool.or_self, Bool.false_eq_true, not_false_eq_true]
    refine (if_neg goes).trans ?_
    exact congrArg (fun y : ArrayUnit => s.setArray a { y with
      inflight := y.inflight.filter (fun v => v.pos != t.pos), drains := y.drains ++ [t.drain ((s.array a).cyc + 1)]
      lastFront := some ((s.array a).cyc + 1) }) e
  · have parked := (s.array a).block_setBlock t.tr.park (parkedZeros ((s.array a).cyc + 1))
    rw [e] at parked
    exact parked

/-! The tile watchdog. -/

theorem tileWatchdog_of {s : State} {a : Nat} (calm : s.resetScope = 0) (alone : s.smallReset 1 a = none) (on : (s.array a).wdogEn = true)
    (late : (s.array a).wdogLimit.toNat ≤ (s.array a).noProg) (up : (s.array a).state ≠ 4) : tileWatchdog a s =
      State.fireArray (State.raiseCtx ((s.setArray a { s.array a with state := 4 }).noteFault a 3 (s.array a).tiles.toNat) (s.arrayCtx a) 0x0101 (16 * a)
        (leBytes 1 a ++ leBytes 1 (s.array a).cause ++ leBytes 6 0 ++ leBytes 8 (s.array a).tiles.toNat)) a 1 (s.array a).cause
        (State.ctxid (State.raiseCtx ((s.setArray a { s.array a with state := 4 }).noteFault a 3 (s.array a).tiles.toNat) (s.arrayCtx a) 0x0101 (16 * a)
          (leBytes 1 a ++ leBytes 1 (s.array a).cause ++ leBytes 6 0 ++ leBytes 8 (s.array a).tiles.toNat)) (s.arrayCtx a)) (s.array a).tiles.toNat := by
  simp only [tileWatchdog, calm, alone, on, Nat.not_lt.2 late, up, ne_eq, not_true_eq_false, Option.isSome_none, Bool.not_true, decide_false, Bool.or_self,
    Bool.false_eq_true, if_false]

theorem exec_tileIssue {s : State} (h : s.Live) (a : Fin 8) : exec (.tileIssue a) s = .next (s.settle (tileIssue a s)) := live_of h.1 h.2 _
theorem exec_arrayCycle {s : State} (h : s.Live) (a : Fin 8) : exec (.arrayCycle a) s = .next (s.settle (arrayCycle a s)) := live_of h.1 h.2 _
theorem exec_tileWatchdog {s : State} (h : s.Live) (a : Fin 8) : exec (.tileWatchdog a) s = .next (s.settle (tileWatchdog a s)) := live_of h.1 h.2 _

/-- Settles O19: a tile begins or stops the array, a cycle counts and moves the array on, loads and fronts act, and the watchdog halts. -/
theorem arraysIssueTilesAndLoadRegisters : Obligations.arrays_issue_tiles_and_load_registers := by
  intro s live
  refine ⟨?issue, ?stop, ?cycle, ?noClock, ?loadStart, ?loadDone, ?front, ?watchdog⟩
  case issue =>
    intro a r u t v runs may hu ht goes left between free mark claimed
    rw [exec_tileIssue live, tileIssue_of_claimed runs may hu ht goes left between free mark claimed]
  case stop =>
    intro a r u runs may hu stop
    rw [exec_tileIssue live, tileIssue_of_stop runs may hu stop]
  case cycle =>
    intro a u runs hu
    subst hu
    refine ⟨fun up => ?_, fun halted => ?_, fun rising => State.cycleCount_counters a rising⟩
    · rw [exec_arrayCycle live, arrayCycle_of_running runs, if_neg up]
    · rw [exec_arrayCycle live, arrayCycle_of_running runs, if_pos halted]
  case noClock =>
    intro a stopped
    rw [exec_arrayCycle live, arrayCycle_of_stopped stopped, s.settle_self]
  case loadStart =>
    intro a l runs up issues busy next
    refine ⟨_, live_of_only live (wakeLoadStart_of runs up issues busy next) (s.setArray_only _ _) (by decide), s.setArray_only _ _, fun rising => ?_⟩
    obtain ⟨s0, s1, e⟩ := (s.array a).setBlock_eq l.reg { (s.array a).block l.reg with sp24 := s.loadSp24 a l }
    have shifted := (s.array a).block_setBlock l.reg { (s.array a).block l.reg with sp24 := s.loadSp24 a l }
    rw [s.array_setArray_self _ rising]
    rw [e] at shifted ⊢
    exact ⟨shifted, rfl⟩
  case loadDone =>
    intro a l found
    exact ⟨_, live_of_only live (wakeLoadComplete_of found) (s.setArray_only _ _) (by decide), s.setArray_only _ _,
      fun rising => s.array_setArray_self _ rising⟩
  case front =>
    intro a t ended up runs free
    obtain ⟨s0, s1, e, parked⟩ := exchangeFront_of ended up runs free
    refine ⟨_, _, rfl, live_of_only live e (s.setArray_only _ _) (by decide), s.setArray_only _ _, fun rising => ?_⟩
    rw [s.array_setArray_self _ rising]
    exact ⟨congrArg RegBlock.hist parked, rfl, rfl, rfl⟩
  case watchdog =>
    intro a x hx calm alone on late up
    subst hx
    exact ⟨_, rfl, by rw [exec_tileWatchdog live, tileWatchdog_of calm alone on late up]⟩

end Sys2Proof.Machine
end

section
/-!
PROOF. The feeders and the edge units: what a step of a feeder does, the marks of empty vectors, landing slots, and an epilogue's start and end.
-/
namespace Sys2Proof.Machine

/-! Feeder steps. -/

theorem feederStep_operand {s : State} {a f : Nat} (operand : f < 2) (feeds : s.feeds a = true) :
    feederStep a f s = s.operandStep a f (s.sideWants a) := by
  simp only [feederStep, operand, feeds, if_true]

theorem feederStep_operand_idle {s : State} {a f : Nat} (operand : f < 2) (feeds : s.feeds a = false) : feederStep a f s = s := by
  simp only [feederStep, operand, feeds, if_true, Bool.false_eq_true, if_false]

theorem feederStep_drain {s : State} {a f : Nat} (drain : 2 ≤ f) (runs : s.edgeRuns a = true) :
    feederStep a f s = (s.writeDrained a (f == 3)).readSide a (f == 3) := by
  simp only [feederStep, Nat.not_lt.2 drain, runs, if_true, if_false]

theorem feederStep_drain_idle {s : State} {a f : Nat} (drain : 2 ≤ f) (runs : s.edgeRuns a = false) : feederStep a f s = s := by
  simp only [feederStep, Nat.not_lt.2 drain, runs, Bool.false_eq_true, if_false]

/-! Empty marks. -/

/-- Whether the north lane's vector `n` fills the reuse buffer as it moves. -/
def State.northFills (s : State) (a : Nat) (n : LaneRow) : Bool :=
  match s.stepOfTile a 1 n.tile false with | some i => !(s.streamDesc (s.streamStep (s.feeder a 1) i).desc).reuse | none => false

theorem emptyMark_of {s : State} {a : Nat} {w n : LaneRow} {ws ns : List LaneRow} (feeds : s.feeds a = true) (west : (s.feeder a 0).staging = w :: ws)
    (north : (s.feeder a 1).staging = n :: ns) (tile : w.tile = n.tile) (idx : w.idx = n.idx) (room0 : roomFor false (s.feeder a 0) false = true)
    (room1 : roomFor false (s.feeder a 1) false = true) : emptyMark a s =
      ((((s.updFeeder a 0 fun g => { g with staging := ws }).updFeeder a 1 fun g => { g with staging := ns }).pushMoving a 0 false false
        { w with empty := w.empty || n.empty }).pushMoving a 1 false (s.northFills a n)
        { n with empty := w.empty || n.empty }) := by
  simp only [emptyMark, feeds, west, north, tile, idx, room0, room1, Bool.not_true, Bool.false_eq_true, ne_eq, not_true_eq_false, or_self, if_false]
  rfl

/-! Landing slots. -/

theorem landingSlotReady_of {s : State} {a f : Nat} (done : s.waited (slotWaiter a f false) = true ∨ s.waited (slotWaiter a f true) = true) :
    landingSlotReady a f s = if ((s.takeSlot a f false).takeSlot a f true).feeds a
      then ((s.takeSlot a f false).takeSlot a f true).operandStep a f (((s.takeSlot a f false).takeSlot a f true).sideWants a)
      else (s.takeSlot a f false).takeSlot a f true := by
  refine if_neg ?_
  rw [show (s.waited (slotWaiter a f false) || s.waited (slotWaiter a f true)) = true by rw [Bool.or_eq_true]; exact done]
  decide

theorem landingSlotReady_idle {s : State} {a f : Nat} (moving : s.waited (slotWaiter a f false) = false)
    (stationary : s.waited (slotWaiter a f true) = false) : landingSlotReady a f s = s := by
  simp only [landingSlotReady, moving, stationary, Bool.or_self, Bool.not_false, if_true]

theorem landingSlotReturn_of {s : State} {a f : Nat} (owned : (s.array a).owner.isSome = true) : landingSlotReturn a f s = s.returnSlots a f :=
  if_pos owned

/-! Epilogues. -/

theorem epilogue_goes {s : State} {c a : Nat} (there : (s.ctx c).state ≠ 5) (works : (s.runOnArray a).isSome = true) :
    ¬ (decide ((s.ctx c).state = 5) || (s.runOnArray a).isNone) = true := by
  rw [decide_eq_false there, Option.isNone_eq_false_iff.2 works]
  decide

section
variable {s : State} {a : Nat} {east : Bool} {e : Epilogue} {rest : List Epilogue} (queue : ((s.array a).edge east).queue = e :: rest)
  (runs : s.edgeRuns a = true)
include queue runs

theorem epilogueStart_of {v u : State} (ready : e.ready = true) (idle : ((s.array a).edge east).running = false)
    (hv : v = [6, 7].foldl (fun (t : State) role => match t.envStep (s.epiEnv a east e) role with
      | some (st, d) => t.registerStep a (s.epiEnv a east e).f st d (t.tensorDesc d.tdesc).fmt (s.epiEnv a east e).r.ncol
      | none => t) s)
    (hu : u = ((s.epiEnv a east e).r.tableReads e.rows).foldl (fun (t : State) q => t.edgeAccess (s.epiEnv a east e) false q.1 q.2 id) v)
    (there : (u.ctx (s.arrayCtx a)).state ≠ 5) (works : (u.runOnArray a).isSome = true) : epilogueStart a east s =
      State.updFeeder (u.setEdge a east { (s.array a).edge east with
        running := true, queue := { e with beat := 0, row := 0, nonfin := 0, stashNonfin := 0, gain := [], offset := [] } :: rest }) a (drainOf east)
        fun g => { g with output := [], stash := [], mrow := 0, srow := 0, side0 := [], side1 := [], rows0 := 0, rows1 := 0 } := by
  subst hv hu
  unfold epilogueStart
  extract_lets x
  rw [show x.queue = e :: rest from queue]
  refine (if_neg (by rw [ready, show x.running = false from idle, runs]; decide)).trans ?_
  exact if_neg (epilogue_goes there works)

theorem epilogueComplete_of {v u w : State} (running : ((s.array a).edge east).running = true) (rows : e.rows ≤ e.row)
    (output : (s.feeder a (drainOf east)).output = []) (stash : (s.feeder a (drainOf east)).stash = [])
    (hv : v = (s.addNonfinite (s.epiEnv a east e) 4 e.nonfin).addNonfinite (s.epiEnv a east e) 5 e.stashNonfin)
    (hu : u = (v.addColumns (s.epiEnv a east e) (s.epiEnv a east e).r.aux e.gain).addColumns (s.epiEnv a east e)
      ((s.epiEnv a east e).r.aux + 4 * (s.epiEnv a east e).r.ncol) e.offset) (works : (u.runOnArray a).isSome = true)
    (hw : w = (List.range e.nstep).foldl (fun (t : State) i =>
      (t.streamDone a (drainOf east) (e.step + i) false).releaseDrained a (drainOf east) (e.step + i)) u) : epilogueComplete a east s =
      w.setArray a ({ w.array a with
        liveRows := Tab.drop (w.array a).liveRows fun row => decide ((if east then 2048 else 0) ≤ row) &&
          decide (row < (if east then 2048 else 0) + 2048) && w.epiHolds e (row - if east then 2048 else 0) }.setEdge east
        { (w.array a).edge east with queue := ((w.array a).edge east).queue.drop 1, running := false }) := by
  subst hv hu hw
  unfold epilogueComplete
  extract_lets x f g
  rw [show x.queue = e :: rest from queue]
  refine (if_neg ?_).trans ?_
  · rw [show x.running = true from running, decide_eq_false (Nat.not_lt.2 rows), show g.output = [] from output, show g.stash = [] from stash, runs]
    decide
  extract_lets env v u
  exact if_neg (by rw [Option.isNone_eq_false_iff.2 works]; decide)

end

theorem exec_feederStep {s : State} (h : s.Live) (a : Fin 8) (f : Fin 4) : exec (.feederStep a f) s = .next (s.settle (feederStep a f s)) :=
  live_of h.1 h.2 _
theorem exec_emptyMark {s : State} (h : s.Live) (a : Fin 8) : exec (.emptyMark a) s = .next (s.settle (emptyMark a s)) := live_of h.1 h.2 _
theorem exec_landingSlotReady {s : State} (h : s.Live) (a : Fin 8) (f : Fin 2) :
    exec (.landingSlotReady a f) s = .next (s.settle (landingSlotReady a f s)) := live_of h.1 h.2 _
theorem exec_landingSlotReturn {s : State} (h : s.Live) (a : Fin 8) (f : Fin 2) :
    exec (.landingSlotReturn a f) s = .next (s.settle (landingSlotReturn a f s)) := live_of h.1 h.2 _
theorem exec_epilogueStart {s : State} (h : s.Live) (a : Fin 8) (east : Bool) :
    exec (.epilogueStart a east) s = .next (s.settle (epilogueStart a east s)) := live_of h.1 h.2 _
theorem exec_epilogueComplete {s : State} (h : s.Live) (a : Fin 8) (east : Bool) :
    exec (.epilogueComplete a east) s = .next (s.settle (epilogueComplete a east s)) := live_of h.1 h.2 _

/-- Settles O21: a feeder's step, an empty mark, a landing slot and an epilogue each do what their equations say. -/
theorem feedersAndEdgeUnitsAct : Obligations.feeders_and_edge_units_act := by
  intro s a live
  refine ⟨?operand, ?operandIdle, ?drain, ?drainIdle, ?mark, ?slot, ?slotIdle, ?slotReturn, ?start, ?complete⟩
  case operand =>
    intro f operand feeds
    rw [exec_feederStep live, feederStep_operand operand feeds]
  case operandIdle =>
    intro f operand feeds
    rw [exec_feederStep live, feederStep_operand_idle operand feeds, s.settle_self]
  case drain =>
    intro f drain runs
    rw [exec_feederStep live, feederStep_drain drain runs]
  case drainIdle =>
    intro f drain runs
    rw [exec_feederStep live, feederStep_drain_idle drain runs, s.settle_self]
  case mark =>
    intro w ws n ns feeds west north tile idx room0 room1
    exact ⟨_, _, rfl, rfl, (exec_emptyMark live a).trans
      (congrArg (fun t => Host.Outcome.next (s.settle t)) (emptyMark_of feeds west north tile idx room0 room1))⟩
  case slot =>
    intro f done
    exact ⟨_, rfl, by rw [exec_landingSlotReady live, landingSlotReady_of done]⟩
  case slotIdle =>
    intro f moving stationary
    rw [exec_landingSlotReady live, landingSlotReady_idle moving stationary, s.settle_self]
  case slotReturn =>
    intro f owned
    rw [exec_landingSlotReturn live, landingSlotReturn_of owned]
  case start =>
    intro east e rest queue ready idle runs
    exact ⟨_, _, _, rfl, rfl, rfl, fun there works => (exec_epilogueStart live a east).trans
      (congrArg (fun t => Host.Outcome.next (s.settle t)) (epilogueStart_of queue runs ready idle rfl rfl there works))⟩
  case complete =>
    intro east e rest queue running rows output stash runs
    exact ⟨_, _, _, rfl, rfl, rfl, fun works => ⟨_, rfl, by
      rw [exec_epilogueComplete live, epilogueComplete_of queue runs running rows output stash rfl rfl works rfl]⟩⟩

end Sys2Proof.Machine
end

section
/-!
PROOF. The stream caches of the dies and the atomic operations.
-/
namespace Sys2Proof.Machine

/-! Fills. -/

section
variable {s : State} {d line : Nat} {l : DscLine} (found : (s.dscAt d).lines.find? (fun l => l.line == line && l.inflight) = some l)
include found

theorem prefetchFill_kept (kept : l.dropped = false) (clean : s.poisonIn (256 * line) 256 = false) : prefetchFill d line s =
    s.setDsc d (Dsc.fill { s.dscAt d with lines := (s.dscAt d).lines.erase l } line l.stream true) := by
  simp only [prefetchFill, found, kept, clean, Bool.false_eq_true, or_self, if_false]

theorem prefetchFill_lost (lost : l.dropped = true ∨ s.poisonIn (256 * line) 256 = true) : prefetchFill d line s =
    s.setDsc d { s.dscAt d with lines := (s.dscAt d).lines.erase l } := by
  simp only [prefetchFill, found, lost, if_true]

end

/-! The prefetcher's walk. -/

/-- The stream `r` of a die's cache goes on to `q`. -/
def Dsc.walk (x : Dsc) (r q : DscStream) : Dsc := { x with streams := x.streams.map fun t => if t == r then q else t }

/-- Where a stream goes after the line of its present row: to the row's next line, or to the next row. -/
def DscStream.after (r : DscStream) (d : StreamDesc) (addr : Nat) : DscStream :=
  if addr / 256 + r.part = (addr + d.rowBytes - 1) / 256 then { r with row := r.row + 1, part := 0 } else { r with part := r.part + 1 }

section
variable {s : State} {d desc : Nat} {r : DscStream} (found : (s.dscAt d).streams.find? (fun r => r.desc == desc) = some r)
  (near : (s.dscAt d).ahead desc < (if (s.streamDesc desc).pfdist = 0 then 64 else (s.streamDesc desc).pfdist)) (more : r.row < r.last)
  (within : r.row < (s.streamDesc desc).rows)
  (indexed : ∀ i, (s.streamDesc desc).rowIndexAddr r.row = some i → s.mappedRange i (s.streamDesc desc).indexBytes = true)
include found near more within indexed

theorem prefetchIssue_eq : prefetchIssue d desc s =
    if (s.rowAt (s.streamDesc desc) r.base r.row).null then s.setDsc d ((s.dscAt d).walk r { r with row := r.row + 1, part := 0 })
    else if !s.mappedRange (s.rowAt (s.streamDesc desc) r.base r.row).addr (s.streamDesc desc).rowBytes ∨
      !isHbm (s.rowAt (s.streamDesc desc) r.base r.row).addr ∨ dieOf (s.rowAt (s.streamDesc desc) r.base r.row).addr ≠ d then s
    else if (s.dscAt d).lines.any fun l => l.line == (s.rowAt (s.streamDesc desc) r.base r.row).addr / 256 + r.part && !l.dropped then
      s.setDsc d ((s.dscAt d).walk r (r.after (s.streamDesc desc) (s.rowAt (s.streamDesc desc) r.base r.row).addr))
    else s.setDsc d (Dsc.walk { (s.dscAt d).bump 2 with lines := ((s.dscAt d).bump 2).lines ++ [{
        line := (s.rowAt (s.streamDesc desc) r.base r.row).addr / 256 + r.part, stream := some desc, prefetched := true, inflight := true
        dropped := false, age := ((s.dscAt d).bump 2).clock }] } r
      (r.after (s.streamDesc desc) (s.rowAt (s.streamDesc desc) r.base r.row).addr)) := by
  have present : (match (s.streamDesc desc).rowIndexAddr r.row with
      | some i => s.mappedRange i (s.streamDesc desc).indexBytes | none => true) = true := by
    cases address : (s.streamDesc desc).rowIndexAddr r.row with
    | none => rfl
    | some i => exact indexed i address
  unfold prefetchIssue
  extract_lets x
  rw [show x.streams.find? (fun r => r.desc == desc) = some r from found]
  refine if_neg ?_
  rintro (far | last | rows | unmapped)
  · exact Nat.not_lt.2 far near
  · exact Nat.not_lt.2 last more
  · exact Nat.not_lt.2 rows within
  · exact absurd (present.symm.trans (Bool.not_eq_true' _ ▸ unmapped)) (by decide)

end

/-! Lines taken. -/

theorem lineTake_present {s : State} {d line desc : Nat} {l : DscLine} (hbm : isHbm (256 * line) = true) (die : dieOf (256 * line) = d)
    (found : (s.dscAt d).lines.find? (fun l => l.line == line && !l.dropped) = some l) (filled : l.inflight = false) :
    lineTake d line desc s = s.setDsc d (Dsc.bump { s.dscAt d with
      clock := (s.dscAt d).clock + 1
      lines := (s.dscAt d).lines.map fun m => if m == l then
        { l with prefetched := l.prefetched && l.stream != some desc
                 age := if l.prefetched && l.stream != some desc then l.age else (s.dscAt d).clock + 1 } else m } 0) := by
  simp only [lineTake, hbm, die, found, filled, Bool.not_true, Bool.false_eq_true, ne_eq, not_true_eq_false, or_self, if_false]

theorem lineTake_missing {s : State} {d line desc : Nat} (hbm : isHbm (256 * line) = true) (die : dieOf (256 * line) = d)
    (missing : (s.dscAt d).lines.find? (fun l => l.line == line && !l.dropped) = none) (clean : s.poisonIn (256 * line) 256 = false) :
    lineTake d line desc s = s.setDsc d (((s.dscAt d).bump 1).fill line none false) := by
  simp only [lineTake, hbm, die, missing, clean, Bool.not_true, Bool.false_eq_true, ne_eq, not_true_eq_false, or_self, if_false]

/-! Atomic operations. -/

theorem atomic_of_issued {s : State} {q p : AtomicReq} (issued : s.issued q = .ok p) : atomic q s = s.doAtomic p := by
  simp only [atomic, issued]

theorem State.issued_own {s : State} {q : AtomicReq} (own : q.engine < 128 ∨ 132 ≤ q.engine) : s.issued q = .ok q := if_pos own

theorem State.issued_of_step {s : State} {q : AtomicReq} {w : Work} {b : List Byte} (low : 128 ≤ q.engine) (high : q.engine < 132)
    (work : s.activeWork (q.engine - 128 + 0x18) = some w) (run : w.run.isSome = true) (due : s.stepDue w = true) (hb : b = s.rdN w.addr 48)
    (op1 : 1 ≤ fieldAt b 0 1) (op2 : fieldAt b 0 1 ≤ 0x11) (flags : fieldAt b 4 4 = 0) (zero : zeroAt b 0xA 6 = true)
    (compare : fieldAt b 0 1 = 9 ∨ fieldAt b 0x20 8 = 0) : s.issued q = .ok { q with
      ctx := some (Fin.ofNat 64 w.ctx), op := BitVec.ofNat 8 (fieldAt b 0 1), size := BitVec.ofNat 8 (fieldAt b 1 1), addr := fieldAt b 0x10 8
      operand := BitVec.ofNat 64 (fieldAt b 0x18 8), compare := BitVec.ofNat 64 (fieldAt b 0x20 8), ret := fieldAt b 0x28 8 } := by
  subst hb
  unfold State.issued
  refine (if_neg (by omega)).trans ?_
  extract_lets e
  rw [show s.activeWork e = some w from work]
  refine (if_neg ?_).trans (if_neg ?_)
  · rintro (none | idle | zero | large)
    · rw [Option.isNone_eq_false_iff.2 run] at none
      exact absurd none (by decide)
    · rw [due] at idle
      exact absurd idle (by decide)
    · exact absurd (op1.trans_eq zero) (by decide)
    · exact absurd large (Nat.not_lt.2 op2)
  · rintro (set | used | ⟨other, set⟩)
    · exact set flags
    · rw [zero] at used
      exact absurd used (by decide)
    · exact compare.elim other set

section
variable {s t : State} {q : AtomicReq} {old : Nat} (allowed : s.atomicFault q.op.toNat q.size.toNat q.addr = 0)
  (done : s.atomicDo q.op.toNat q.size.toNat q.addr q.operand.toNat q.compare.toNat = (old, t))
include done

theorem State.atomicDo_old : old = s.rdLe q.addr (2 ^ (q.size.toNat + 1)) := (congrArg Prod.fst done).symm

include allowed

theorem State.doAtomic_silent (silent : q.ret = 0) : s.doAtomic q = t.atomicStepDone q := by
  simp only [State.doAtomic, allowed, done, silent, if_true]

theorem State.doAtomic_answered (asked : q.ret ≠ 0)
    (room : t.writeFault (match q.ctx with | some c => c.val | none => 64) q.ret (2 ^ (q.size.toNat + 1)) = 0) :
    s.doAtomic q = (t.storeLe q.ret (2 ^ (q.size.toNat + 1)) old).atomicStepDone q := by
  unfold State.doAtomic
  simp only [allowed, done, asked, if_false]
  exact if_pos room

end

theorem State.doAtomic_refused {s : State} {q : AtomicReq} {c : Fin 64} {cause : Nat} (refused : s.atomicFault q.op.toNat q.size.toNat q.addr = cause)
    (ctx : q.ctx = some c) (plain : cause = 2 ∨ cause = 9) :
    s.doAtomic q = s.faultCtx c cause (if q.engine < 128 then q.engine / 16 else 0xFF) 0 q.engine q.addr := by
  unfold State.doAtomic
  rcases plain with rfl | rfl <;> simp only [refused, ctx]

theorem exec_atomic {s : State} (h : s.Live) (q : AtomicReq) : exec (.atomic q) s = .next (s.settle (atomic q s)) := live_of h.1 h.2 _

/-- Settles O22: the prefetcher, fills and consumers act on the stream cache alone, and an atomic operation replaces a word or faults. -/
theorem streamCacheAndAtomics : Obligations.stream_cache_and_atomics := by
  intro s live
  refine ⟨?fill, ?issue, ?hit, ?miss, fun q p issued => by rw [exec_atomic live, atomic_of_issued issued], fun q own => State.issued_own own, ?step, ?does,
    fun q c cause refused ctx plain => State.doAtomic_refused refused ctx plain⟩
  case fill =>
    intro d line l found
    exact ⟨fun kept clean => live_of_only live (prefetchFill_kept found kept clean) (s.setDsc_only _ _) (by decide),
      fun lost => live_of_only live (prefetchFill_lost found lost) (s.setDsc_only _ _) (by decide)⟩
  case issue =>
    intro d desc r row line found near more within indexed hrow hline
    subst hrow hline
    have step := prefetchIssue_eq found near more within indexed
    refine ⟨fun null => ?_, fun full mapped hbm die absent => ?_, fun full mapped hbm die present => ?_, fun full off => ?_⟩
    · rw [if_pos null] at step
      exact live_of_only live step (s.setDsc_only _ _) (by decide)
    · rw [if_neg (by rw [full]; decide), if_neg (by simp only [mapped, hbm, die, Bool.not_true, Bool.false_eq_true, ne_eq, not_true_eq_false, or_self, not_false_eq_true]), if_neg (by rw [absent]; decide)] at step
      exact ⟨_, live_of_only live step (s.setDsc_only _ _) (by decide), s.setDsc_only _ _, fun rising => by rw [s.dscAt_setDsc_self _ rising]; rfl⟩
    · rw [if_neg (by rw [full]; decide), if_neg (by simp only [mapped, hbm, die, Bool.not_true, Bool.false_eq_true, ne_eq, not_true_eq_false, or_self, not_false_eq_true]), if_pos present] at step
      exact live_of_only live step (s.setDsc_only _ _) (by decide)
    · rw [if_neg (by rw [full]; decide), if_pos (by simpa only [Bool.not_eq_true'] using off)] at step
      exact live_of_only live step (ChangesOnly.refl [] s) (by decide)
  case hit =>
    intro d line desc l hbm die found filled
    exact ⟨_, live_of_only live (lineTake_present hbm die found filled) (s.setDsc_only _ _) (by decide), s.setDsc_only _ _, fun rising => by
      rw [s.dscAt_setDsc_self _ rising]
      exact ⟨rfl, rfl⟩⟩
  case miss =>
    intro d line desc hbm die missing clean
    exact live_of_only live (lineTake_missing hbm die missing clean) (s.setDsc_only _ _) (by decide)
  case step =>
    intro q e w b low high he work run due hb op1 op2 flags zero compare
    subst he
    exact State.issued_of_step low high work run due hb op1 op2 flags zero compare
  case does =>
    intro q old t allowed done
    exact ⟨State.atomicDo_old done, State.doAtomic_silent allowed done, State.doAtomic_answered allowed done⟩

end Sys2Proof.Machine
end

section
/-!
PROOF. The gather engines: the rows that records and steps move, hand-offs and folds (R249-R251, R485-R487, R495): O23.
-/
namespace Sys2Proof.Machine

theorem isGather_engine (g : Fin 4) : isGather (0x18 + g.val) = true := by
  revert g
  decide

/-! Transfer records. -/

theorem State.transferRec_of_run {s : State} {e : Nat} (gather : isGather e = true) (run : ∀ x, s.activeWork e = some x → x.run.isSome = true)
    (op : Nat) (landing : Bool) (f : Work → FerryRec → State → State) : s.transferRec e op landing f = s := by
  unfold State.transferRec
  cases work : s.activeWork e with
  | none => rfl
  | some w => exact if_pos (Or.inr (by rw [gather, run w work]; rfl))

theorem State.transferRec_idle {s : State} {e : Nat} (idle : s.activeWork e = none) (op : Nat) (landing : Bool) (f : Work → FerryRec → State → State) :
    s.transferRec e op landing f = s := by
  simp only [State.transferRec, idle]

section
variable {s : State} {e op : Nat} {w : Work} {r : FerryRec} (work : s.activeWork e = some w) (ferry : w.run = none)
  (hr : r = s.ferryRec (w.addr + 64 * w.pos)) (hop : r.op = op) (start : s.startOk e w r = true) (unit : s.chkWaits e r = false)
include work ferry hr hop start unit

theorem State.transferRec_of {landing : Bool} (kind : (r.lslots != 0) = landing) (f : Work → FerryRec → State → State) :
    s.transferRec e op landing f = f w r s := by
  subst hr
  simp only [State.transferRec, work, ferry, hop, start, unit, kind, Option.isSome_none, Bool.and_false, ne_eq, not_true_eq_false, Bool.false_eq_true,
    or_self, if_false, Bool.not_true, bne_self_eq_false, Bool.or_self]

theorem State.transferRec_other {landing : Bool} (kind : (r.lslots != 0) = !landing) (f : Work → FerryRec → State → State) :
    s.transferRec e op landing f = s := by
  subst hr
  simp only [State.transferRec, work, ferry, hop, start, kind, Option.isSome_none, Bool.and_false, ne_eq, not_true_eq_false, Bool.false_eq_true,
    or_self, if_false, Bool.not_true]
  exact if_pos (by cases landing <;> rfl)

theorem State.moveRecord_landing (slots : r.lslots ≠ 0) :
    s.moveRecord e op = s.fillSlot e w r fun w base s => s.moveRecordRows e w r base := by
  unfold State.moveRecord
  extract_lets t
  have same : t = s := State.transferRec_other work ferry hr hop start unit (by rw [Bool.not_false, bne_iff_ne]; exact slots) _
  rw [same]
  exact State.transferRec_of work ferry hr hop start unit (by rw [bne_iff_ne]; exact slots) _

theorem State.moveRecord_plain {v : State} (plain : r.lslots = 0)
    (done : s.runRecord e w r (s.streamDesc r.dst).base (fun t => t.moveRecordRows e w r (s.streamDesc r.dst).base) = (true, v))
    (idle : (v.wrote e w).activeWork e = none) : s.moveRecord e op = v.wrote e w := by
  unfold State.moveRecord
  extract_lets t
  have performed : t = v.wrote e w := by
    refine (State.transferRec_of work ferry hr hop start unit (landing := false) (by rw [plain]; rfl) _).trans ?_
    simp only [done]
  rw [performed]
  exact State.transferRec_idle idle _ _ _

end

/-- Work that is written has no part that its engine may go on with, and its gather steps wait. -/
theorem State.wrote_idle {v : State} {e : Nat} (w : Work) (rising : Tab.rising v.engines = true) :
    (v.wrote e w).activeWork e = none ∧ (v.wrote e w).turnWork e = v.wrote e w := by
  have head : (v.wrote e w).engine e = { v.engine e with
      work := { w with written := true } :: (v.engine e).work.tail, noProg := 0, held := 0, moved := true } := v.engine_setEngine_self _ rising
  constructor
  · simp only [State.activeWork, head, Engine.head, List.head?_cons, Bool.not_true, Bool.and_false, Bool.false_eq_true, if_false]
  · simp only [State.turnWork, head, State.workBegun, Bool.or_true, Bool.true_or, if_true]

theorem State.gatherStep_idle {s : State} {e : Nat} (turn : s.turnWork e = s) (idle : s.activeWork e = none) (op : Nat) (f : Work → State → State) :
    s.gatherStep e op f = s := by
  simp only [State.gatherStep, turn, idle]

/-! Gather and scatter steps. -/

theorem State.moveStep_of {s u x y v : State} {e op sa da rows : Nat} {w : Work} {sd dd : StreamDesc} (due : s.GatherDue e op w u)
    (hsa : sa = u.stepBody w) (hda : da = u.rdLe (w.addr + 24) 8) (srcThere : u.mappedRange sa 128 = true) (dstThere : u.mappedRange da 128 = true)
    (hsd : sd = u.streamDesc sa) (hdd : dd = u.streamDesc da) (src : sd.ferryOk (if op = 0x20 then 0xA else 8) true = true)
    (dst : dd.ferryOk (if op = 0x20 then 9 else 0xA) true = true) (bytes : sd.rowBytes = dd.rowBytes)
    (hrows : rows = (if op = 0x20 then sd.rows else dd.rows))
    (goes : u.access e (u.streamRows sd sd.base 0 rows) (u.streamRows dd dd.base 0 rows) = (true, x))
    (hy : y = (x.engineStream e w.ctx sa sd.base rows).engineStream e w.ctx da dd.base rows)
    (moved : y.moveRows e w sd dd dd.base (u.rdLe (w.addr + 4) 4) rows = (true, v)) :
    s.moveStep e op = ((v.engineTook e sa rows).engineTook e da rows).wrote e w := by
  unfold State.moveStep
  refine (State.gatherStep_of due _).trans ?_
  simp only [← hsa, ← hda, ← hsd, ← hdd, ← hrows, srcThere, dstThere, src, dst, bytes, Bool.not_true, Bool.false_eq_true, ne_eq, not_true_eq_false, or_self, if_false, goes, ← hy, moved]

theorem State.moveRecord_of_run {s : State} {e : Nat} (gather : isGather e = true) (run : ∀ x, s.activeWork e = some x → x.run.isSome = true) (op : Nat) :
    s.moveRecord e op = s := by
  unfold State.moveRecord
  rw [State.transferRec_of_run gather run, State.transferRec_of_run gather run]

/-! Hand-offs. -/

/-- The slot that an engine's cursor of a hand-off record stands at. -/
def Engine.handoffSlot (x : Engine) (ra : Nat) : Nat := match x.handoffs.find? fun c => c.1 == ra with | some c => c.2 | none => 0

theorem handoff_of {s u x y z : State} {g e sa ra n : Nat} {w : Work} {sd : StreamDesc} {hr : HandoffRec} {bs : List Byte} (he : e = 0x18 + g)
    (due : s.GatherDue e 0x23 w u) (hsa : sa = u.stepBody w) (hra : ra = u.rdLe (w.addr + 24) 8) (srcThere : u.mappedRange sa 128 = true)
    (recThere : u.mappedRange ra 32 = true) (hsd : sd = u.streamDesc sa) (hhr : hr = u.handoffRec ra) (src : sd.ferryOk 8 false = true)
    (plain : hr.reserved = false) (slots1 : 1 ≤ hr.slots) (slots2 : hr.slots ≤ 256) (bytes1 : 1 ≤ hr.bytes) (bytes2 : hr.bytes ≤ hr.slotBytes)
    (hn : n = ceilDiv hr.bytes sd.rowBytes) (goes : u.access e (u.streamRows sd sd.base 0 n) [] = (true, x))
    (hy : y = x.engineStream e w.ctx sa sd.base n) (fetched : y.fetchRows e w.ctx sd sd.base n 0 = .ok (bs, z)) {v f : State}
    (hv : v = z.engineTook e sa n) (hf : f = v.setEngine e { v.engine e with
      handoffs := (ra, ((v.engine e).handoffSlot ra + 1) % hr.slots) :: (v.engine e).handoffs.filter fun c => c.1 != ra }) :
    handoff g s = (f.injectAll (f.handoffPackets hr w.ctx ((v.engine e).handoffSlot ra) (bs.take hr.bytes))).wrote e w := by
  unfold handoff
  extract_lets e'
  have same : e' = e := he.symm
  clear_value e'
  subst same
  refine (State.gatherStep_of due _).trans ?_
  simp only [← hsa, ← hra, ← hsd, ← hhr, ← hn]
  refine (if_neg ?_).trans ((if_neg ?_).trans ?_)
  · rw [srcThere, recThere]
    decide
  · simp only [src, plain, Bool.not_true, Bool.false_eq_true, false_or]
    omega
  · rw [goes]
    simp only [← hy, fetched, ← hv]
    rw [hf]
    rfl

/-! Folds. -/

section
variable {s u : State} {g i : Nat} {w : Work} {b : List Byte} (due : s.GatherDue (0x18 + g) 0x24 w u) (there : u.mappedRange (u.stepBody w) 32 = true)
  (hb : b = u.rdN (u.stepBody w) 32) (win1 : 1 ≤ fieldAt b 0x1C 1) (win2 : fieldAt b 0x1C 1 ≤ 4) (zero : zeroAt b 0x1D 1 = true)
  (aligned : fieldAt b 0x10 4 % 4096 = 0) (size : 4 * fieldAt b 0x14 4 ≤ fieldAt b 0x10 4) (clear : u.rdLe (w.addr + 28) 4 = 0)
  (hi : i = (u.rdLe (w.addr + 24) 4 + 2 ^ 32 - fieldAt b 0x18 4) % 2 ^ 32)

/-- The fold of the slot of index `i` by the record `b` of a fold step. -/
def State.foldSlot (e : Nat) (b : List Byte) (i : Nat) (w : Work) (s : State) : State :=
  s.foldNow e w (fieldAt b 0 8) (fieldAt b 8 8 + i % fieldAt b 0x1C 1 * fieldAt b 0x10 4) (fieldAt b 0x14 4) (fieldAt b 0x1E 2) (i == 0)

/-- A fold step waits on its object until its index has come. -/
def State.foldWait (s : State) (e : Nat) (o : Nat) (i : Nat) (w : Work) : State :=
  if w.waiting then s else s.enqueue [(o, { who := .landing e, n := BitVec.ofNat 32 i, takes := false })]

include due there hb win1 win2 zero aligned size clear hi

theorem fold_of_come (come : i = 0 ∨ w.freeTaken = true) : fold g s = State.foldSlot (0x18 + g) b i w u := by
  unfold fold
  extract_lets e
  refine (State.gatherStep_of (e := e) due _).trans ?_
  subst hb hi
  refine (if_neg (by rw [there]; decide)).trans ((if_neg ?_).trans (if_pos come))
  simp only [zero, Bool.not_true, Bool.false_eq_true, false_or]
  omega

theorem fold_of_waiting {o : Nat} (index : i ≠ 0) (held : w.freeTaken = false) (obj : u.objOf w.ctx (fieldAt b 0x1E 2) = some o) : fold g s =
    if (u.foldWait (0x18 + g) o i w).waited (.landing (0x18 + g)) then
      State.foldSlot (0x18 + g) b i { w with waiting := false, freeTaken := true }
        (((u.foldWait (0x18 + g) o i w).consume (.landing (0x18 + g))).setHead (0x18 + g) { w with waiting := false, freeTaken := true })
    else (u.foldWait (0x18 + g) o i w).setHead (0x18 + g) { w with waiting := true } := by
  unfold fold
  extract_lets e
  refine (State.gatherStep_of (e := e) due _).trans ?_
  subst hb hi
  refine (if_neg (by rw [there]; decide)).trans ((if_neg ?_).trans ((if_neg ?_).trans ?_))
  · simp only [zero, Bool.not_true, Bool.false_eq_true, false_or]
    omega
  · rw [held]
    exact fun come => come.elim index (by decide)
  · rw [obj]
    rfl

end

/-! Received hand-offs. -/

/-- A hand-off packet's bytes are written into its slot, and its last segment signals the ready object. -/
def State.handoffStored (t : State) (p : Packet) (c at_ : Nat) : State :=
  if fieldAt p.payload 0x12 1 = 1 then
    (t.store at_ (p.payload.drop 32)).signalTask c (fieldAt p.payload 0xE 2 + fieldAt p.payload 0x10 2) 0xFF srcSwitch
  else t.store at_ (p.payload.drop 32)

/-- The address at which a hand-off packet's bytes go. -/
def handoffAt (p : Packet) : Nat := fieldAt p.payload 0 8 + fieldAt p.payload 0x10 2 * fieldAt p.payload 8 4 + fieldAt p.payload 0x14 4

/-- A hand-off packet is delivered to context `c`, or faults it where it may not write. -/
def State.handoffDelivered (t : State) (p : Packet) (c : Nat) : State :=
  match t.writeFault c (handoffAt p) (p.payload.length - 32) with
  | 0 => t.handoffStored p c (handoffAt p)
  | cause => t.faultCtx c cause 0xFF 0 srcSwitch (handoffAt p)

theorem State.handoffDelivered_of {t : State} {p : Packet} {c : Nat} (room : t.writeFault c (handoffAt p) (p.payload.length - 32) = 0) :
    t.handoffDelivered p c = t.handoffStored p c (handoffAt p) := by
  unfold State.handoffDelivered
  rw [room]
  rfl

section
variable {s t : State} {p : Packet} {port : Option Nat} {c : Nat} (vc : p.vc = 5) (type : p.type = 8)
  (taken : s.receiveIf s.inTurn p = some (port, t)) (ctx : s.ctxLive p.ctx = some c)
include vc type taken ctx

theorem handoffReceive_later (later : fieldAt p.payload 0x14 4 ≠ 0) : handoffReceive p s = t.handoffDelivered p c := by
  unfold handoffReceive
  simp only [vc, type, taken, ctx, ne_eq, not_true_eq_false, or_self, if_false]
  exact if_pos later

theorem handoffReceive_first {o : Nat} (first : fieldAt p.payload 0x14 4 = 0)
    (obj : s.objOf c (fieldAt p.payload 0xE 2 + fieldAt p.payload 0xC 2) = some o) : handoffReceive p s =
      if (s.obj o).count = 0 ∨ (s.obj o).queue ≠ [] then s
      else State.handoffDelivered { t with sync := t.sync.setObj o { t.obj o with count := (t.obj o).count - 1 } } p c := by
  unfold handoffReceive
  simp only [vc, type, taken, ctx, ne_eq, not_true_eq_false, or_self, if_false, obj]
  exact if_neg (fun later => later first)

end

theorem exec_gather {s : State} (h : s.Live) (g : Fin 4) : exec (.gather g) s = .next (s.settle (gather g s)) := live_of h.1 h.2 _
theorem exec_scatter {s : State} (h : s.Live) (g : Fin 4) : exec (.scatter g) s = .next (s.settle (scatter g s)) := live_of h.1 h.2 _
theorem exec_handoff {s : State} (h : s.Live) (g : Fin 4) : exec (.handoff g) s = .next (s.settle (handoff g s)) := live_of h.1 h.2 _
theorem exec_fold {s : State} (h : s.Live) (g : Fin 4) : exec (.fold g) s = .next (s.settle (fold g s)) := live_of h.1 h.2 _
theorem exec_handoffReceive {s : State} (h : s.Live) (p : Packet) : exec (.handoffReceive p) s = .next (s.settle (handoffReceive p s)) :=
  live_of h.1 h.2 _

/-- GATHER and SCATTER are the record of OP 1 or 2, and the step of OP 0x20 or 0x21, at the head of an engine. -/
theorem exec_moves {s : State} (h : s.Live) {g : Fin 4} {i : Instr} {op : Nat} (hi : (i, op) ∈ ([(.gather g, 1), (.scatter g, 2)] : List (Instr × Nat))) :
    exec i s = .next (s.settle ((s.moveRecord (0x18 + g) op).moveStep (0x18 + g) (op + 0x1F))) := by
  rcases List.mem_cons.1 hi with e | hi
  · obtain ⟨rfl, rfl⟩ := Prod.mk.inj e
    exact exec_gather h g
  · obtain ⟨rfl, rfl⟩ := Prod.mk.inj (List.mem_singleton.1 hi)
    exact exec_scatter h g

/-- Settles O23: records and steps move rows, hand-offs send and store them, and a fold adds its slot once its index has come. -/
theorem gatherEnginesMoveRowsAndFold : Obligations.gather_engines_move_rows_and_fold := by
  intro s live
  refine ⟨?step, ?record, ?handoff, ?fold, ?first, ?later⟩
  case step =>
    intro g i op e w u x y v sa da sd dd rows hi he run due hsa hda srcThere dstThere hsd hdd src dst bytes hrows goes hy moved
    subst he
    obtain ⟨k, hk, hop⟩ : ∃ k, (i, k) ∈ ([(.gather g, 1), (.scatter g, 2)] : List (Instr × Nat)) ∧ op = k + 0x1F := by
      rcases List.mem_cons.1 hi with e | hi
      · obtain ⟨rfl, rfl⟩ := Prod.mk.inj e
        exact ⟨1, List.mem_cons_self .., rfl⟩
      · obtain ⟨rfl, rfl⟩ := Prod.mk.inj (List.mem_singleton.1 hi)
        exact ⟨2, List.mem_cons_of_mem _ (List.mem_singleton_self _), rfl⟩
    rw [exec_moves live hk, State.moveRecord_of_run (isGather_engine g) run, ← hop,
      State.moveStep_of due hsa hda srcThere dstThere hsd hdd src dst bytes hrows goes hy moved]
  case record =>
    intro g i op e w r hi he work ferry hr hop start unit
    subst he
    rw [exec_moves live hi]
    refine ⟨fun v plain done rising => ?_, fun slots => by rw [State.moveRecord_landing work ferry hr hop start unit slots]⟩
    obtain ⟨idle, turn⟩ := State.wrote_idle w rising (e := 0x18 + g.val)
    rw [State.moveRecord_plain work ferry hr hop start unit plain done idle, State.moveStep, State.gatherStep_idle turn idle]
  case handoff =>
    intro g e w u x y z sa ra sd hr n bs he due hsa hra srcThere recThere hsd hhr src plain slots1 slots2 bytes1 bytes2 hn goes hy fetched
    exact ⟨_, _, _, rfl, rfl, rfl, (exec_handoff live g).trans (congrArg (fun t => Host.Outcome.next (s.settle t))
      (handoff_of he due hsa hra srcThere recThere hsd hhr src plain slots1 slots2 bytes1 bytes2 hn goes hy fetched rfl rfl))⟩
  case fold =>
    intro g w u b i due there hb win1 win2 zero aligned size clear hi
    refine ⟨State.foldSlot (0x18 + g) b i, fun v t => rfl, fun come => ?_, fun o x index held obj hx => ?_⟩
    · rw [exec_fold live, fold_of_come due there hb win1 win2 zero aligned size clear hi come]
    · have step := fold_of_waiting due there hb win1 win2 zero aligned size clear hi index held obj
      rw [← show x = u.foldWait (0x18 + g) o i w from hx] at step
      refine ⟨fun come => ?_, fun early => ?_⟩
      · rw [exec_fold live, step, if_pos come]
      · rw [exec_fold live, step, if_neg (by rw [early]; decide)]
  case first =>
    intro p port t c o f vc type taken ctx hf obj first
    subst hf
    have step := handoffReceive_first vc type taken ctx first obj
    refine ⟨fun held => ?_, fun count queue => ⟨_, handoffAt p, rfl, rfl, fun room => ?_⟩⟩
    · rw [exec_handoffReceive live, step, if_pos held, s.settle_self]
    · rw [exec_handoffReceive live, step, if_neg (not_or.2 ⟨count, not_not.2 queue⟩), State.handoffDelivered_of room]
      rfl
  case later =>
    intro p port t c f vc type taken ctx hf later
    subst hf
    refine ⟨handoffAt p, rfl, fun room => ?_⟩
    rw [exec_handoffReceive live, handoffReceive_later vc type taken ctx later, State.handoffDelivered_of room]
    rfl

end Sys2Proof.Machine
end

section
/-!
PROOF. The dispatch of experts' rows: the step, its packets and its completion (R166-R179, R422): O24.
-/
namespace Sys2Proof.Machine

/-! The dispatch step. -/

/-- The dispatch that a dispatch step of work `w` opens. -/
def State.openedDispatch (u : State) (w : Work) : Dispatch :=
  { rec_ := u.stepBody w, ctx := w.ctx, array := w.array, sync := BitVec.ofNat 16 (u.rdLe (w.addr + 2) 2), counts := []
    answered := (u.arrival (u.dispRec (u.stepBody w)) || (u.dispRec (u.stepBody w)).reuse) ||
      (u.homed (u.placement (u.dispRec (u.stepBody w)).place) u.fab.id.toNat).isEmpty
    admits := if (u.dispRec (u.stepBody w)).reuse && !u.arrival (u.dispRec (u.stepBody w)) then
      u.admitTable (u.dispRec (u.stepBody w)) (u.placement (u.dispRec (u.stepBody w)).place).nexp else []
    sent := false, returns := [], dropped := [], arrived := [], got := [], complete := false }

/-- The state in which the dispatch `x` of work `w` has been opened. -/
def State.openDispatch (v : State) (e a : Nat) (w : Work) (x : Dispatch) : State :=
  v.setEngine e { v.engine e with
    dispatches := x :: (v.engine e).dispatches.filter fun d => !(d.ctx == w.ctx && d.rec_ == a && d.complete), moved := true }

theorem dispatch_of {s u : State} {g : Nat} {w : Work} (due : s.GatherDue (0x18 + g) 0x22 w u) (fresh : u.dispatchOf (0x18 + g) w = none)
    (clear : u.rdLe (w.addr + 24) 8 = 0) (recThere : u.mappedRange (u.stepBody w) 64 = true)
    (placeThere : u.mappedRange (u.dispRec (u.stepBody w)).place 32 = true) : dispatch g s =
      if u.arrival (u.dispRec (u.stepBody w)) || (u.dispRec (u.stepBody w)).reuse then
        ((u.setHead (0x18 + g) { w with waiting := true }).openDispatch (0x18 + g) (u.stepBody w) w (u.openedDispatch w)).sendRows (0x18 + g) (u.openedDispatch w)
      else ((u.setHead (0x18 + g) { w with waiting := true }).openDispatch (0x18 + g) (u.stepBody w) w (u.openedDispatch w)).injectAll
        (((u.setHead (0x18 + g) { w with waiting := true }).openDispatch (0x18 + g) (u.stepBody w) w (u.openedDispatch w)).countPackets w.ctx
          (u.dispRec (u.stepBody w))) := by
  unfold dispatch
  extract_lets e
  refine (State.gatherStep_of (e := e) due _).trans ?_
  refine (if_neg (by rw [fresh]; decide)).trans ((if_neg (fun set => set clear)).trans ((if_neg ?_).trans rfl))
  rw [recThere, placeThere]
  decide

/-! The completion of a dispatch. -/

theorem dispatchComplete_of {s : State} {g : Nat} {w : Work} {x : Dispatch} (work : s.activeWork (0x18 + g) = some w) (run : w.run.isSome = true)
    (op : s.rdLe w.addr 1 = 0x22) (found : s.dispatchOf (0x18 + g) w = some x) (complete : x.over = true) {v : State}
    (hv : v = s.setDispatch (0x18 + g) x { x with complete := true }) : dispatchComplete g s =
      (v.setEngine (0x18 + g) { v.engine (0x18 + g) with
        work := if w.pos + 1 < w.count then v.advanceWork (0x18 + g) w :: (v.engine (0x18 + g)).work.tail else (v.engine (0x18 + g)).work.tail
        noProg := 0 }).signalTask w.ctx x.sync.toNat (engineArray (0x18 + g)) (engineSource (0x18 + g)) := by
  unfold dispatchComplete
  simp only [work, op, ne_eq, not_true_eq_false, or_false, found, complete, ← hv]
  exact (if_neg (by rw [Option.isNone_eq_false_iff.2 run]; decide)).trans (if_neg (by decide))

/-! Counts and admits. -/

section
variable {s t : State} {p : Packet} {c e : Nat} {x : Dispatch}

theorem count_of_tag {y : Dispatch} (due : s.ForDispatch p 1 (fun d => !d.answered && !d.complete) c e x t)
    (tag : p.arg.toNat % 2 ^ 32 = (t.placement (t.dispRec x.rec_).place).tag)
    (hy : y = { x with counts := (x.counts.filter fun n => !((entriesOf 8 p.payload).map fun b => (p.arg.toNat / 2 ^ 32 % 65536, fieldAt b 0 2, fieldAt b 4 4)).any
      fun m => m.1 == n.1 && m.2.1 == n.2.1) ++ (entriesOf 8 p.payload).map fun b => (p.arg.toNat / 2 ^ 32 % 65536, fieldAt b 0 2, fieldAt b 4 4) }) :
    count p s = if (t.setDispatch e x y).countsWhole (t.dispRec x.rec_)
        ((t.setDispatch e x y).homed (t.placement (t.dispRec x.rec_).place) (t.setDispatch e x y).fab.id.toNat) y.counts
      then (t.setDispatch e x y).answer c e y else t.setDispatch e x y := by
  rw [hy]
  exact (State.onDispatch_of due _).trans (if_neg (fun other => other tag))

theorem count_of_other (due : s.ForDispatch p 1 (fun d => !d.answered && !d.complete) c e x t)
    (other : p.arg.toNat % 2 ^ 32 ≠ (t.placement (t.dispRec x.rec_).place).tag) :
    count p s = t.faultCtx c 7 0xFF 0 (engineSource e) (p.arg.toNat % 2 ^ 32) :=
  (State.onDispatch_of due _).trans (if_pos other)

/-- One entry of the table of admissions at `table` is stored, or faults context `c` of engine `e`. -/
def State.storeAdmit (c e table : Nat) (s : State) (a : Nat × Nat × Nat) : State :=
  match s.writeFault c (table + 8 * a.1) 8 with
  | 0 => s.store (table + 8 * a.1) (leBytes 4 a.2.1 ++ leBytes 4 a.2.2)
  | cause => s.faultCtx c cause 0xFF 0 (engineSource e) (table + 8 * a.1)

theorem admitCounts_of {new : List (Nat × Nat × Nat)} {y : Dispatch} {u : State} (due : s.ForDispatch p 2 (fun d => !d.sent && !d.complete) c e x t)
    (hnew : new = (entriesOf 12 p.payload).map (fun b => (fieldAt b 0 2, fieldAt b 4 4, fieldAt b 8 4)))
    (hy : y = { x with admits := (x.admits.filter fun n => !new.any fun m => m.1 == n.1) ++ new })
    (hu : u = new.foldl (State.storeAdmit c e (t.dispRec x.rec_).admits) (t.setDispatch e x y)) : admitCounts p s =
      if (List.range (t.placement (t.dispRec x.rec_).place).nexp).all fun n => y.admits.any fun a => a.1 == n then u.sendRows e y else u := by
  rw [hu, hy, hnew]
  exact State.onDispatch_of due _

/-! Rows. -/

/-- A segment of a row that part `n` receives is written at its place `k`; with the last one the output row returns. -/
def State.takeRow (p : Packet) (c e n seg : Nat) (pl : Placement) (v : State) (k : Nat) : State :=
  let w := v.writeSegment c e ((v.triple pl n).recv + k * pl.rowBytes + 4032 * seg) (p.payload.drop 8)
  if segmentsOf pl.rowBytes ≤ seg + 1 ∧ (w.ctx c).state ≠ 5 then w.returnRow c p.src.toNat n pl.rowBytes (fieldAt p.payload 0 4) else w

variable {pl : Placement} {n seg : Nat} {mine : List (Nat × Nat × Nat)} (due : s.ForDispatch p 3 (fun _ => true) c e x t)
  (hpl : pl = t.placement (t.dispRec x.rec_).place) (hn : n = p.arg.toNat % 65536) (hseg : seg = p.arg.toNat / 2 ^ 48)
include due hpl hn hseg

theorem row_in_order (ordered : t.arrival (t.dispRec x.rec_) = false) :
    row p s = State.takeRow p c e n seg pl t (p.arg.toNat / 65536 % 2 ^ 32) := by
  rw [hpl, hn, hseg]
  exact (State.onDispatch_of due _).trans (if_pos (by rw [ordered]; decide))

section
variable (arrival : t.arrival (t.dispRec x.rec_) = true) (hmine : mine = x.arrived.filter (fun a => a.1 == n))
include arrival hmine

theorem row_of_arrived {k : Nat}
    (known : (List.range mine.length).find? (fun k => mine.getD k (0, 0, 0) == (n, p.src.toNat, fieldAt p.payload 0 4)) = some k) :
    row p s = State.takeRow p c e n seg pl t k := by
  rw [hpl, hseg]
  rw [hmine, hn] at known
  refine (State.onDispatch_of due _).trans ((if_neg (by rw [arrival]; decide)).trans ?_)
  dsimp only
  rw [known, hn]
  rfl

theorem row_of_new
    (new : (List.range mine.length).find? (fun k => mine.getD k (0, 0, 0) == (n, p.src.toNat, fieldAt p.payload 0 4)) = none) (first : seg = 0)
    {ex : Expert} (hex : ex = t.expert pl (t.expertOfTriple pl n)) : row p s =
      if mine.length < ceilDiv (capacity ex (t.dispRec x.rec_) pl) (max 1 ex.nrep) then
        State.takeRow p c e n seg pl (t.setDispatch e x { x with arrived := x.arrived ++ [(n, p.src.toNat, fieldAt p.payload 0 4)] }) mine.length
      else t.inject (t.dispatchPacket c p.src.toNat 5 (fieldAt p.payload 0 4) []) := by
  have first' : p.arg.toNat / 2 ^ 48 = 0 := hseg.symm.trans first
  rw [hex, hpl, hseg, hmine, hn]
  rw [hmine, hn] at new
  refine (State.onDispatch_of due _).trans ((if_neg (by rw [arrival]; decide)).trans ?_)
  dsimp only
  rw [new]
  dsimp only
  split
  next room => exact (if_pos room.2).symm
  next full => exact (if_neg (fun room => full ⟨first', room⟩)).symm

end
end

/-! Returned rows and drop marks. -/

theorem return_of {s t : State} {p : Packet} {c e : Nat} {x : Dispatch}
    (due : s.ForDispatch p 4 (fun d => d.returns.contains (p.arg.toNat % 2 ^ 32) && !d.got.contains (p.arg.toNat % 2 ^ 32)) c e x t) : return_ p s =
      (if segmentsOf (t.placement (t.dispRec x.rec_).place).rowBytes ≤ p.arg.toNat / 2 ^ 32 % 65536 + 1
        then t.setDispatch e x { x with got := x.got ++ [p.arg.toNat % 2 ^ 32] } else t).writeSegment c e ((t.dispRec x.rec_).combine +
        p.arg.toNat % 2 ^ 32 * (t.placement (t.dispRec x.rec_).place).rowBytes + 4032 * (p.arg.toNat / 2 ^ 32 % 65536)) p.payload :=
  State.onDispatch_of due _

theorem dropMark_of {s t : State} {p : Packet} {c e : Nat} {x : Dispatch}
    (due : s.ForDispatch p 5 (fun d => d.returns.contains (p.arg.toNat % 2 ^ 32)) c e x t) :
    dropMark p s = t.setDispatch e x { x with dropped := x.dropped ++ [p.arg.toNat % 2 ^ 32] } :=
  State.onDispatch_of due _

theorem State.ForDispatch.received {s t : State} {p : Packet} {type c e : Nat} {f : Dispatch → Bool} {x : Dispatch} (due : s.ForDispatch p type f c e x t) :
    ChangesOnly [.fab, .out] s t := by
  obtain ⟨-, -, ⟨port, taken⟩, -⟩ := due
  exact State.receiveIf_only taken

theorem exec_dispatch {s : State} (h : s.Live) (g : Fin 4) : exec (.dispatch g) s = .next (s.settle (dispatch g s)) := live_of h.1 h.2 _
theorem exec_dispatchComplete {s : State} (h : s.Live) (g : Fin 4) : exec (.dispatchComplete g) s = .next (s.settle (dispatchComplete g s)) :=
  live_of h.1 h.2 _
theorem exec_count {s : State} (h : s.Live) (p : Packet) : exec (.count p) s = .next (s.settle (count p s)) := live_of h.1 h.2 _
theorem exec_admitCounts {s : State} (h : s.Live) (p : Packet) : exec (.admitCounts p) s = .next (s.settle (admitCounts p s)) := live_of h.1 h.2 _
theorem exec_row {s : State} (h : s.Live) (p : Packet) : exec (.row p) s = .next (s.settle (row p s)) := live_of h.1 h.2 _
theorem exec_return {s : State} (h : s.Live) (p : Packet) : exec (.return_ p) s = .next (s.settle (return_ p s)) := live_of h.1 h.2 _

/-- Settles O24: a dispatch opens, counts, admits, sends, receives, returns and completes. -/
theorem expertDispatchCountsAdmitsAndReturns : Obligations.expert_dispatch_counts_admits_and_returns := by
  intro s live
  refine ⟨?opens, ?completes, ?counts, ?tagged, ?admits, ?rows, ?returns, ?drops⟩
  case opens =>
    intro g w u d x quick due fresh clear recThere hd placeThere hquick hx
    rw [hd] at placeThere
    refine ⟨_, (u.setHead (0x18 + g) { w with waiting := true }).openDispatch (0x18 + g) (u.stepBody w) w x, rfl, rfl, ?_⟩
    rw [exec_dispatch live, dispatch_of due fresh clear recThere placeThere, hx, hquick, hd]
    rfl
  case completes =>
    intro g w x work run op found complete
    exact ⟨_, _, rfl, rfl, (exec_dispatchComplete live g).trans
      (congrArg (fun t => Host.Outcome.next (s.settle t)) (dispatchComplete_of work run op found complete rfl))⟩
  case counts =>
    intro p c e x t y due tag hy
    exact ⟨_, rfl, by rw [exec_count live, count_of_tag due tag hy]⟩
  case tagged =>
    intro p c e x t due other
    rw [exec_count live, count_of_other due other]
  case admits =>
    intro p c e x t new y due hnew hy
    exact ⟨new.foldl (State.storeAdmit c e (t.dispRec x.rec_).admits) (t.setDispatch e x y), rfl, by
      rw [exec_admitCounts live, admitCounts_of due hnew hy rfl]⟩
  case rows =>
    intro p c e x t pl n seg mine due hpl hn hseg hmine
    refine ⟨State.takeRow p c e n seg pl, fun v k w hw => by rw [hw]; rfl, fun ordered => ?_, fun arrival => ⟨fun k known => ?_, ?_⟩⟩
    · rw [exec_row live, row_in_order due hpl hn hseg ordered]
    · rw [exec_row live, row_of_arrived due hpl hn hseg arrival hmine known]
    · intro new first ex hex
      have step := row_of_new due hpl hn hseg arrival hmine new first hex
      refine ⟨fun room => ?_, fun full => ?_⟩
      · rw [exec_row live, step, if_pos room]
      · rw [exec_row live, step, if_neg (Nat.not_lt.2 full)]
  case returns =>
    intro p c e x t due
    exact ⟨_, rfl, by rw [exec_return live, return_of due]⟩
  case drops =>
    intro p c e x t due
    have only : ChangesOnly [.fab, .out, .engines] s (t.setDispatch e x { x with dropped := x.dropped ++ [p.arg.toNat % 2 ^ 32] }) :=
      (due.received.mono (by decide)).trans ((t.setEngine_only _ _).mono (by decide))
    exact ⟨_, live_of_only live (dropMark_of due) only (by decide), rfl, only⟩

end Sys2Proof.Machine
end

section
/-!
PROOF. The completion of an engine's records (R241, R319): O28.
-/
namespace Sys2Proof.Machine

theorem recordComplete_of_none {s : State} {e : Nat} (idle : (s.engine e).head = none) : recordComplete e s = s := by
  simp only [recordComplete, idle]

theorem recordComplete_of_unwritten {s : State} {e : Nat} {w : Work} (head : (s.engine e).head = some w) (unwritten : w.written = false) :
    recordComplete e s = s := by
  simp only [recordComplete, head, unwritten, Bool.not_false, if_true]

/-- The engine `e` goes on from the completed record of its work `w`: to the next record, or with the last one it drops the work. -/
def State.recordOver (y : State) (e : Nat) (w : Work) : State :=
  if w.pos + 1 < w.count then y.setEngine e { y.engine e with work := y.advanceWork e w :: (y.engine e).work.tail, noProg := 0 }
  else match w.cmd with
    | some k => (y.setEngine e { y.engine e with work := (y.engine e).work.tail, noProg := 0 }).updCmd k fun c => { c with phase := .performed }
    | none => y.setEngine e { y.engine e with work := (y.engine e).work.tail, noProg := 0 }

theorem State.recordOver_next {y : State} {e : Nat} {w : Work} (more : w.pos + 1 < w.count) : y.recordOver e w =
    y.setEngine e { y.engine e with work := y.advanceWork e w :: (y.engine e).work.tail, noProg := 0 } := if_pos more

theorem State.recordOver_command {y : State} {e : Nat} {w : Work} {k : CmdKey} (last : ¬ w.pos + 1 < w.count) (cmd : w.cmd = some k) : y.recordOver e w =
    (y.setEngine e { y.engine e with work := (y.engine e).work.tail, noProg := 0 }).updCmd k fun c => { c with phase := .performed } := by
  simp only [State.recordOver, last, if_false, cmd]

theorem State.recordOver_task {y : State} {e : Nat} {w : Work} (last : ¬ w.pos + 1 < w.count) (task : w.cmd = none) : y.recordOver e w =
    y.setEngine e { y.engine e with work := (y.engine e).work.tail, noProg := 0 } := by
  simp only [State.recordOver, last, if_false, task]

theorem recordComplete_of_written {s y : State} {e sync : Nat} {w : Work} {later released : List Nat} (head : (s.engine e).head = some w)
    (written : w.written = true) (hsync : sync = s.workSync e w) (hlater : later = s.streamsFrom e (w.count - w.pos) (s.advanceWork e w))
    (hreleased : released = (s.workStreams e w).filter (fun d => !later.contains d))
    (hy : y = (s.freeUnits [e]).releaseStreams (fun x => x.engine == engineSource e && released.contains x.desc)) :
    recordComplete e s = (y.recordOver e w).signalTask w.ctx sync (engineArray e) (engineSource e) := by
  unfold recordComplete
  simp only [head, written, Bool.not_true, Bool.false_eq_true, if_false, ← hsync, ← hlater, ← hreleased, ← hy]
  rfl

theorem exec_recordComplete {s : State} (h : s.Live) (e : Fin 28) : exec (.recordComplete e) s = .next (s.settle (recordComplete e s)) :=
  live_of h.1 h.2 _

/-- Settles O28: a record that is written completes, the engine goes on, and its object is signalled. -/
theorem recordsCompleteInOrderAndSignal : Obligations.records_complete_in_order_and_signal := by
  intro s e live
  refine ⟨fun idle => ?_, fun w head unwritten => ?_, ?_⟩
  · rw [exec_recordComplete live, recordComplete_of_none idle, s.settle_self]
  · rw [exec_recordComplete live, recordComplete_of_unwritten head unwritten, s.settle_self]
  · intro w later released y sync head written hsync hlater hreleased hy
    have step := recordComplete_of_written head written hsync hlater hreleased hy
    refine ⟨fun more => ?_, fun last k cmd => ?_, fun last task => ?_⟩
    · rw [exec_recordComplete live, step, State.recordOver_next more]
    · rw [exec_recordComplete live, step, State.recordOver_command last cmd]
    · rw [exec_recordComplete live, step, State.recordOver_task last task]

end Sys2Proof.Machine
end

section
/-!
PROOF. The registers of the state after reset: O57.
-/
namespace Sys2Proof.Machine

theorem bar0Read_reset_single : ∀ e ∈ [(0x30, 1200 * 4), (0x10008, 0), (0x20208, 0), (0x20300, 0), (0x20400, 0),
    (0x200010, 24 * 2 ^ 48 + 1024 * 2 ^ 32 + 2 ^ 24 + 16 * 2 ^ 16 + 64), (0x200018, 2 ^ 8), (0x300000, 16 * 2 ^ 16),
    (0x300010, 0x88B5 * 2 ^ 32 + 0x0200_0000), (0x400008, 7 * 2 ^ 59 + 2400 * 2 ^ 32), (0x400010, 1000 * 2 ^ 32 + 3 * 2 ^ 8 + 30),
    (0x400018, 2400 * 2 ^ 52 + 2400 * 2 ^ 40), (0x400030, 0), (0x410008, 7 * 2 ^ 61 + 100 * 2 ^ 32 + 10 * 2 ^ 16 + 20),
    (0x410010, 60 * 2 ^ 8 + 4 * 2 ^ 4 + 3), (0x410020, 0), (0x420000, 1)], bar0Read State.reset e.1 = e.2 := by
  decide

theorem bar0Read_reset_rings_ports : ∀ n : Fin 16, bar0Read State.reset (0x20008 + 0x20 * n) = 2 ^ 24 + n * 2 ^ 10 + 6 * 2 ^ 1 ∧
    bar0Read State.reset (0x301000 + 0x40 * n) = 100 * 2 ^ 48 + 16 * 2 ^ 40 + 1000 * 2 ^ 24 ∧ bar0Read State.reset (0x301008 + 0x40 * n) = 0 := by
  decide

theorem bar0Read_reset_arrays : ∀ e ∈ [(0x100000, 2400), (0x100008, 0), (0x100010, 0), (0x100018, 2 ^ 31 + 10000), (0x100020, 0), (0x170000, 2400),
    (0x170018, 2 ^ 31 + 10000)], bar0Read State.reset e.1 = e.2 := by
  decide

/-- Settles O57: each register is read from the reset state, and what is indexed there is at its reset value. -/
theorem resetLeavesTheRegistersAsListed : Obligations.reset_leaves_the_registers_as_listed :=
  ⟨bar0Read_reset_single, bar0Read_reset_rings_ports, bar0Read_reset_arrays, fun _ => rfl, ⟨by decide, by decide⟩,
    fun _ => ⟨rfl, rfl, rfl, rfl, rfl⟩, rfl, rfl, rfl, rfl, rfl, rfl⟩

end Sys2Proof.Machine
end

section
/-!
PROOF. Droop, rail dips and the ageing of the margin plan (R515-R530): O44.
-/
namespace Sys2Proof.Machine

/-! Droop. -/

theorem droopStretchEnd_of {s : State} {a : Nat} (stretching : (s.array a).stretching = true) : droopStretchEnd a s =
    s.setArray a { s.array a with
      detectors := 0, stretching := false, stretchNs := (s.array a).stretchNs + 10 * (s.now - (s.array a).stretchFrom) } := by
  simp only [droopStretchEnd, stretching, Bool.not_true, Bool.false_eq_true, if_false]

/-! Dips. -/

theorem State.setDip_only (s : State) (r : Nat) (d : Option Dip) : ChangesOnly [.pwr] s (s.setDip r d) := ChangesOnly.pwr s _

theorem State.pauseRail_only (s : State) (r : Nat) (on : Bool) : ChangesOnly [.arrays] s (s.pauseRail r on) :=
  foldl_only (fun s _ => s.setArray_only _ _) _ s

theorem State.pauseRail_other (s : State) {r a : Nat} (on : Bool) (other : a ∉ railArrays r) : (s.pauseRail r on).array a = s.array a := by
  unfold State.pauseRail
  generalize railArrays r = arrays at other
  induction arrays generalizing s with
  | nil => rfl
  | cons b arrays ih =>
    obtain ⟨ne, rest⟩ := not_or.1 (fun h => other (List.mem_cons.2 h))
    exact (ih _ rest).trans (s.array_setArray_ne _ (Ne.symm ne))

theorem railWarning_of_fresh {s : State} {r : Nat} {mv : BitVec 16} (fresh : s.dip r = none) : railWarning r mv s =
    (s.setDip r (some { since := s.now, minMv := mv, raised := false })).pauseRail r true := by
  simp only [railWarning, fresh]

section
variable {s : State} {r : Nat} {d : Dip} (dip : s.dip r = some d)
include dip

theorem railRecover_of : railRecover r s =
    ((s.setDip r none).pauseRail r false).raiseVwarn r (min (2 ^ 32 - 1) (s.now - d.since)) d := by
  simp only [railRecover, dip]

theorem vwarn_of_long (first : d.raised = false) (long : d.since + 10000000 ≤ s.now) : vwarn r s =
    (s.setDip r (some { d with raised := true })).raiseVwarn r (2 ^ 32 - 1) d := by
  simp only [vwarn, dip, first, Nat.not_lt.2 long, Bool.false_eq_true, or_self, if_false]

theorem vwarn_of_raised (raised : d.raised = true) : vwarn r s = s := by
  simp only [vwarn, dip, raised, true_or, if_true]

end

theorem railResetLevel_only (r : Nat) (s : State) : ChangesOnly [.rst] s (railResetLevel r s) := by
  unfold railResetLevel
  split
  · exact s.requestReset_only _
  · exact s.requestReset_only _

/-! Ageing. -/

theorem pohHour_only (s : State) : ChangesOnly [.flash] s (pohHour s) := ChangesOnly.flash s _

theorem pohHour_old {s : State} (old : 500 ≤ (s.flash.poh + 1).toNat - s.flash.margin.hours.toNat) : (pohHour s).flash.margin.pending = 0x3FF :=
  if_pos (decide_eq_true old)

theorem pohHour_young {s : State} (young : (s.flash.poh + 1).toNat - s.flash.margin.hours.toNat < 500) :
    (pohHour s).flash.margin = s.flash.margin := by
  have same : (pohHour s).flash.margin.pending = s.flash.margin.pending :=
    if_neg (by rw [decide_eq_false (Nat.not_le.2 young)]; decide)
  show { s.flash.margin with pending := (pohHour s).flash.margin.pending } = s.flash.margin
  rw [same]

theorem replan_of {s : State} {a : Nat} {r : ReplanReading} {need : List Nat} (runs : s.boot.image.isSome = true)
    (pending : bitOf s.flash.margin.pending.toNat a = true) (idle : s.requested a = false) (hneed : need = r.needMv.map (· + 30)) :
    replan a r s = (((s.writePlan a need).marginLow a need).reclock a).service := by
  simp only [replan, Option.isNone_eq_false_iff.2 runs, pending, idle, Bool.false_eq_true, if_false, if_true, ← hneed]

theorem replan_of_requested {s : State} {a : Nat} {r : ReplanReading} (pending : bitOf s.flash.margin.pending.toNat a = true)
    (requested : s.requested a = true) : replan a r s = s := by
  simp only [replan, pending, requested, if_true, ite_self]

theorem exec_railRecover {s : State} (h : s.Live) (r : Fin 12) : exec (.railRecover r) s = .next (s.settle (railRecover r s)) := live_of h.1 h.2 _
theorem exec_vwarn {s : State} (h : s.Live) (r : Fin 12) : exec (.vwarn r) s = .next (s.settle (vwarn r s)) := live_of h.1 h.2 _

/-- Settles O44: droop stretches one clock, dips pause a rail's clocks, reset levels ask for a reset, and hours age the plan. -/
theorem droopsDipsAndAgeingAct : Obligations.droops_dips_and_ageing_act := by
  intro s live
  refine ⟨?trip, ?stretchEnd, ?warning, ?recover, ?level, ?hour, ?plan, ?later⟩
  case trip =>
    intro a d mv
    exact live_of_only live rfl (s.setArray_only _ _) (by decide)
  case stretchEnd =>
    intro a stretching
    exact live_of_only live (droopStretchEnd_of stretching) (s.setArray_only _ _) (by decide)
  case warning =>
    intro r mv fresh
    have only : ChangesOnly [.pwr, .arrays] s ((s.setDip r (some { since := s.now, minMv := mv, raised := false })).pauseRail r true) :=
      ((s.setDip_only _ _).mono (by decide)).trans ((State.pauseRail_only _ _ _).mono (by decide))
    exact ⟨_, live_of_only live (railWarning_of_fresh fresh) only (by decide), rfl, only, fun a other => State.pauseRail_other _ _ other⟩
  case recover =>
    intro r d dip
    refine ⟨?_, fun first long => ?_, fun raised => ?_⟩
    · rw [exec_railRecover live, railRecover_of dip]
    · rw [exec_vwarn live, vwarn_of_long dip first long]
    · rw [exec_vwarn live, vwarn_of_raised dip raised, s.settle_self]
  case level =>
    intro r
    exact liveReset_of_only live.1 rfl (railResetLevel_only r s) (by decide)
  case hour =>
    exact ⟨_, liveMp_of_only live rfl (pohHour_only s) (by decide), pohHour_only s, rfl, pohHour_old, pohHour_young⟩
  case plan =>
    intro a r need runs pending idle hneed
    exact ⟨_, rfl, liveMp_of_eq live (replan_of runs pending idle hneed)⟩
  case later =>
    intro a r pending requested
    exact liveMp_of_only live (replan_of_requested pending requested) (.refl [] s) (by decide)

end Sys2Proof.Machine
end

section
/-!
PROOF. The requests for resets: pins, links and watchdogs (R535, R540, R547-R550, R583, R615): O45.
-/
namespace Sys2Proof.Machine

theorem State.raiseHang_now (s : State) (watchdog unit action cause : Nat) (ctx : BitVec 16) (detail : Nat) :
    (s.raiseHang watchdog unit action cause ctx detail).now = s.now :=
  (s.raise0_raised _ _ _).only .now (by decide)

/-! Engines. -/

theorem ferryWatchdog_of {s : State} {e : Nat} (hangs : s.engineHangs e = true) (alone : s.smallReset 1 (e / 2) = none) : ferryWatchdog e s =
    s.fireArray (e / 2) 2 0 (s.engineCtxid e) (s.array (e / 2)).tiles.toNat :=
  if_pos ⟨hangs, by rw [alone]; rfl⟩

theorem ferryWatchdog_idle {s : State} {e : Nat} (idle : s.engineHangs e = false ∨ (s.smallReset 1 (e / 2)).isSome = true) : ferryWatchdog e s = s := by
  refine if_neg (fun ⟨hangs, alone⟩ => ?_)
  rcases idle with moves | reset
  · exact absurd (moves.symm.trans hangs) (by decide)
  · rw [Option.isNone_iff_eq_none.1 alone] at reset
    exact absurd reset (by decide)

theorem gatherWatchdog_of {s : State} {g : Nat} (hangs : s.engineHangs (0x18 + g) = true) : gatherWatchdog g s =
    s.fireWarm 3 g 0 (s.engineCtxid (0x18 + g)) 0 := if_pos hangs
theorem gatherWatchdog_idle {s : State} {g : Nat} (moves : s.engineHangs (0x18 + g) = false) : gatherWatchdog g s = s := by
  simp only [gatherWatchdog, moves, Bool.false_eq_true, if_false]

theorem tierFerryWatchdog_of {s : State} {t : Nat} (hangs : s.engineHangs (0x10 + t) = true) : tierFerryWatchdog t s =
    s.fireWarm 4 t 0 (s.engineCtxid (0x10 + t)) 0 := if_pos hangs
theorem tierFerryWatchdog_idle {s : State} {t : Nat} (moves : s.engineHangs (0x10 + t) = false) : tierFerryWatchdog t s = s := by
  simp only [tierFerryWatchdog, moves, Bool.false_eq_true, if_false]

theorem State.engineHangs_suspended {s : State} (reset : s.resetScope ≠ 0) (e : Nat) : s.engineHangs e = false := by
  simp only [State.engineHangs, beq_eq_false_iff_ne.2 reset, Bool.false_and]

/-! Ports, command processors, the management processor and the channels. -/

theorem creditWatchdog_of {s : State} {p : Nat} (calm : s.resetScope = 0) (alone : s.smallReset 2 p = none) (on : s.rst.creditEn = true)
    (up : (s.port p).state = 2) (starved : s.creditStarved p ≠ []) : creditWatchdog p s =
      (s.raiseHang 5 p (if 7 ≤ s.portResets p then 5 else 2) 0 0xFFFF (maskOf (s.creditStarved p))).requestSmall
        { scope := 2, index := p, source := 10, watchdog := 5, at_ := s.now, req := none } := by
  refine if_neg ?_
  rw [calm, alone, on, up, List.isEmpty_eq_false_iff.2 starved]
  decide

theorem creditWatchdog_idle {s : State} {p : Nat} (idle : s.resetScope ≠ 0 ∨ (s.smallReset 2 p).isSome = true ∨ s.rst.creditEn = false) :
    creditWatchdog p s = s := by
  refine if_pos ?_
  rcases idle with reset | alone | off
  · simp only [ne_eq, reset, not_false_eq_true, decide_true, Bool.true_or]
  · simp only [alone, Bool.or_true, Bool.true_or]
  · simp only [off, Bool.not_false, Bool.or_true, Bool.true_or]

theorem cpHeartbeatWatchdog_of {s : State} {c : Nat} (calm : s.resetScope = 0) (on : s.rst.cpEn = true)
    (late : (Tab.get (fun _ => CmdProc.reset) s.hif.cps c).heartbeat + 100000 * s.rst.cpMs.toNat ≤ s.now) : cpHeartbeatWatchdog c s =
      s.fireWarm 6 c 0 0xFFFF 0 := if_pos ⟨calm, on, late⟩
theorem cpHeartbeatWatchdog_suspended {s : State} {c : Nat} (reset : s.resetScope ≠ 0) : cpHeartbeatWatchdog c s = s :=
  if_neg (fun h => reset h.1)

theorem mpWatchdog_of {s : State} (small : s.resetScope < 5) : mpWatchdog s = (s.raiseHang 7 0 4 0 0xFFFF 0).requestWarm 6 0 7 true true :=
  if_neg (Nat.not_le.2 small)
theorem mpWatchdog_suspended {s : State} (large : 5 ≤ s.resetScope) : mpWatchdog s = s := if_pos large

theorem hbmChannelWatchdog_of {s : State} {n c a : Nat} {w : List HbmPending} (calm : s.resetScope = 0) (alone : s.smallReset 3 (16 * n + c) = none)
    (hw : ((s.stack n).pc (2 * c)).window = w ∨ ((s.stack n).pc (2 * c + 1)).window = w) (serves : ((s.stack n).chan c).resetAt = none)
    (late : ∃ r ∈ w, r.req.addr = a ∧ max r.at_ ((s.stack n).chan c).servedFrom + 1600000 ≤ s.hbmCycle n) : hbmChannelWatchdog n c a s =
      (s.raiseHang 8 n 3 0 0xFFFF a).requestSmall { scope := 3, index := 16 * n + c, source := 10, watchdog := 8, at_ := s.now, req := none } := by
  unfold hbmChannelWatchdog
  extract_lets k isLate
  have found : w.any isLate = true := by
    obtain ⟨r, mem, addr, time⟩ := late
    exact List.any_eq_true.2 ⟨r, mem, by rw [Bool.and_eq_true, beq_iff_eq, decide_eq_true_eq]; exact ⟨addr, time⟩⟩
  have any : ((k.pc (2 * c)).window.any isLate || (k.pc (2 * c + 1)).window.any isLate) = true := by
    rcases hw with rfl | rfl
    · rw [show (k.pc (2 * c)).window.any isLate = true from found, Bool.true_or]
    · rw [show (k.pc (2 * c + 1)).window.any isLate = true from found, Bool.or_true]
  refine if_neg ?_
  rw [calm, alone, any, show (k.chan c).resetAt = none from serves]
  decide

theorem exec_ferryWatchdog {s : State} (h : s.Live) (e : Fin 16) : exec (.ferryWatchdog e) s = .next (s.settle (ferryWatchdog e s)) := live_of h.1 h.2 _
theorem exec_gatherWatchdog {s : State} (h : s.Live) (g : Fin 4) : exec (.gatherWatchdog g) s = .next (s.settle (gatherWatchdog g s)) :=
  live_of h.1 h.2 _
theorem exec_tierFerryWatchdog {s : State} (h : s.Live) (t : Fin 8) : exec (.tierFerryWatchdog t) s = .next (s.settle (tierFerryWatchdog t s)) :=
  live_of h.1 h.2 _
theorem exec_creditWatchdog {s : State} (h : s.Live) (p : Fin 16) : exec (.creditWatchdog p) s = .next (s.settle (creditWatchdog p s)) :=
  live_of h.1 h.2 _
theorem exec_cpHeartbeatWatchdog {s : State} (h : s.Live) (c : Fin 4) :
    exec (.cpHeartbeatWatchdog c) s = .next (s.settle (cpHeartbeatWatchdog c s)) := live_of h.1 h.2 _
theorem exec_mpWatchdog {s : State} (h : s.Live) : exec .mpWatchdog s = .next (s.settle (mpWatchdog s)) := live_of h.1 h.2 _
theorem exec_hbmChannelWatchdog {s : State} (h : s.Live) (n : Fin 24) (c : Fin 16) (a : Nat) :
    exec (.hbmChannelWatchdog n c a) s = .next (s.settle (hbmChannelWatchdog n c a s)) := live_of h.1 h.2 _

/-- Settles O45: each source and each watchdog whose time has come requests its reset, and the others do nothing. -/
theorem resetRequestsAreLatched : Obligations.reset_requests_are_latched := by
  intro s ask small live hask hsmall
  have asks (u : State) (r : InReset) (now : u.now = s.now) : u.requestReset r = ask u r := by
    rw [hask, ← now]
    rfl
  have queued (u : State) (r : InReset) (now : u.now = s.now) (same : u.pending = s.pending) : (ask u r).pending = s.pending := by
    rw [← asks u r now]
    exact (u.requestReset_only r .pending (by decide)).trans same
  have smalls (u : State) (r : SmallReset) : u.requestSmall r = small u r := by
    rw [hsmall]
    rfl
  have warm (u : State) (source index watchdog : Nat) (now : u.now = s.now) : u.requestWarm source index watchdog true true =
      ask u { scope := 5, source := source, index := index, watchdog := watchdog, at_ := s.now, counted := true, captured := true } := by
    rw [State.requestWarm, now, asks u _ now]
  have fires (watchdog unit : Nat) (ctx : BitVec 16) : s.fireWarm watchdog unit 0 ctx 0 = ask (s.raiseHang watchdog unit 4 0 ctx 0)
      { scope := 5, source := 10, index := unit, watchdog := watchdog, at_ := s.now, counted := true, captured := true } :=
    warm _ _ _ _ (s.raiseHang_now _ _ _ _ _ _)
  refine ⟨⟨?on, ?ok, ?perst, ?flr⟩, fun e => ⟨fun hangs alone => ?_, fun idle => ?_⟩, fun g => ⟨fun hangs => ?_, fun moves => ?_⟩,
    fun t => ⟨fun hangs => ?_, fun moves => ?_⟩, fun p => ⟨fun calm alone on up starved => ?_, fun idle => ?_⟩, fun reset e => State.engineHangs_suspended reset e,
    fun c reset => ?_, fun c calm on late => ?_, fun large => ?_, fun below => ?_, fun n c a w calm alone hw serves late => ?_⟩
  case on => exact always_of (asks _ _ (by rfl)) (queued _ _ rfl rfl)
  case ok => exact always_of (asks _ _ (by rfl)) (queued _ _ rfl rfl)
  case perst =>
    rw [← asks s _ rfl]
    exact liveReset_of_only live.1 rfl (s.requestReset_only _) (by decide)
  case flr =>
    rw [← asks s _ rfl]
    exact liveReset_of_only live.1 rfl (s.requestReset_only _) (by decide)
  · rw [exec_ferryWatchdog live, ferryWatchdog_of hangs alone, State.fireArray, smalls]
    simp only [State.arrayAtLimit, decide_eq_true_eq]
  · rw [exec_ferryWatchdog live, ferryWatchdog_idle idle, s.settle_self]
  · rw [exec_gatherWatchdog live, gatherWatchdog_of hangs, fires]
  · rw [exec_gatherWatchdog live, gatherWatchdog_idle moves, s.settle_self]
  · rw [exec_tierFerryWatchdog live, tierFerryWatchdog_of hangs, fires]
  · rw [exec_tierFerryWatchdog live, tierFerryWatchdog_idle moves, s.settle_self]
  · rw [exec_creditWatchdog live, creditWatchdog_of calm alone on up starved, smalls]
  · rw [exec_creditWatchdog live, creditWatchdog_idle idle, s.settle_self]
  · rw [exec_cpHeartbeatWatchdog live, cpHeartbeatWatchdog_suspended reset, s.settle_self]
  · rw [exec_cpHeartbeatWatchdog live, cpHeartbeatWatchdog_of calm on late, fires]
  · rw [exec_mpWatchdog live, mpWatchdog_suspended large, s.settle_self]
  · rw [exec_mpWatchdog live, mpWatchdog_of below, warm _ _ _ _ (s.raiseHang_now _ _ _ _ _ _)]
  · rw [exec_hbmChannelWatchdog live, hbmChannelWatchdog_of calm alone hw serves late, smalls]

end Sys2Proof.Machine
end

section
/-!
PROOF. The limits of power and heat (R506, R507, R511-R513, R522-R524): O42.
-/
namespace Sys2Proof.Machine

/-! The floor, hints and the board limit. -/

theorem capUnreachable_of {s : State} (floor : s.pwr.floor = true) (duty : s.pwr.duty = 1) (first : s.pwr.capRaised = false)
    (due : s.pwr.floorAt + 1000000 ≤ s.now) (above : s.pwr.capW.toNat < s.pwr.cappedW.toNat + s.pwr.uncappedW.toNat) : capUnreachable s =
      State.raise0 { s with pwr := { s.pwr with capRaised := true } } 0x0601 srcPower
        (leBytes 2 s.pwr.capW.toNat ++ leBytes 2 (s.pwr.cappedW.toNat + s.pwr.uncappedW.toNat) ++ leBytes 2 s.pwr.uncappedW.toNat) := by
  refine if_neg ?_
  rw [floor, duty, first, decide_eq_false (Nat.not_lt.2 due), decide_eq_false (Nat.not_le.2 above)]
  decide

theorem capUnreachable_of_raised {s : State} (raised : s.pwr.capRaised = true) : capUnreachable s = s := by
  simp only [capUnreachable, raised, Bool.or_true, Bool.true_or, if_true]

/-- Within the cap, a prediction above it lowers F alone. -/
theorem Pwr.adjust_predicted {p : Pwr} {now cap total predicted : Nat} (within : total ≤ cap) (above : cap < predicted) (fast : 600 < p.fMhz) :
    p.adjust now cap total predicted = { p with fMhz := max 600 (p.fMhz - 100) } := by
  simp only [Pwr.adjust, Nat.not_lt.2 within, above, fast, if_true, if_false]

/-! Clocks that rise with their rail. -/

/-- An array's clock rises to what its limits allow. -/
def State.raiseClock (s : State) (a : Nat) : State := s.setArray a { s.array a with curMhz := BitVec.ofNat 12 (s.arrayMhz a) }

theorem State.raiseClock_other (s : State) {a i : Nat} (ne : a ≠ i) : (s.raiseClock a).array i = s.array i := s.array_setArray_ne _ ne

section
variable {s : State} (rising : Tab.rising s.arrays = true)
include rising

theorem State.raiseClock_self (a : Nat) : (s.raiseClock a).array a = { s.array a with curMhz := BitVec.ofNat 12 (s.arrayMhz a) } :=
  s.array_setArray_self _ rising

/-- What an array's clock may rise to is not affected by clocks that rise. -/
theorem State.raiseClock_arrayMhz (a i : Nat) : (s.raiseClock a).arrayMhz i = s.arrayMhz i := by
  have target : ((s.raiseClock a).array i).targetMhz = (s.array i).targetMhz := by
    by_cases same : a = i
    · rw [← same, State.raiseClock_self rising]
    · rw [State.raiseClock_other s same]
  unfold State.arrayMhz
  rw [target]
  rfl

theorem State.raiseClock_rising (a : Nat) : Tab.rising (s.raiseClock a).arrays = true := Tab.rising_set (bg := fun _ => ArrayUnit.reset) rising a _

end

theorem State.raiseClock_foldl_other {s : State} {l : List Nat} {i : Nat} (other : i ∉ l) : (l.foldl State.raiseClock s).array i = s.array i := by
  induction l generalizing s with
  | nil => rfl
  | cons a l ih =>
    obtain ⟨ne, rest⟩ := not_or.1 (fun h => other (List.mem_cons.2 h))
    exact (ih rest).trans (s.raiseClock_other (Ne.symm ne))

theorem State.raiseClock_foldl_mem {s : State} {l : List Nat} {i : Nat} (rising : Tab.rising s.arrays = true) (mem : i ∈ l) :
    ((l.foldl State.raiseClock s).array i).curMhz = BitVec.ofNat 12 (s.arrayMhz i) := by
  induction l generalizing s with
  | nil => exact absurd mem (List.not_mem_nil)
  | cons a l ih =>
    by_cases later : i ∈ l
    · exact (ih (State.raiseClock_rising rising a) later).trans (congrArg (BitVec.ofNat 12) (State.raiseClock_arrayMhz rising a i))
    · have here : i = a := (List.mem_cons.1 mem).resolve_right later
      rw [List.foldl_cons, State.raiseClock_foldl_other later, here, State.raiseClock_self rising]

theorem State.raiseClocks_eq (s : State) (d : Nat) : s.raiseClocks d = ((List.range 4).map (4 * d + ·)).foldl State.raiseClock s :=
  (List.foldl_map (f := (4 * d + ·)) (g := State.raiseClock) (l := List.range 4) (init := s)).symm

theorem State.raiseClocks_only (s : State) (d : Nat) : ChangesOnly [.arrays] s (s.raiseClocks d) :=
  foldl_only (fun s i => s.setArray_only (4 * d + i) _) (List.range 4) s

/-! The limit of a cool die. -/

theorem throttleRise_of {s : State} {d : Nat} (own : s.tj (if d = 0 then 0 else 2) ≤ 930) (hub : s.tj 1 ≤ 930)
    (memories : ∀ i < 12, (s.stack (12 * d + i)).temp.toNat ≤ 930) (due : Tab.get (fun _ => 0) s.pwr.riseAt d + 100000 ≤ s.now) : throttleRise d s =
      { s with pwr := { s.pwr with
        fDie := Tab.set (fun _ => 2400) s.pwr.fDie d (if s.pwr.fMhz ≤ s.fDie d + 25 then 2400 else s.fDie d + 25)
        riseAt := Tab.set (fun _ => 0) s.pwr.riseAt d s.now } } := by
  have cool : ((List.range 12).all fun i => decide ((s.stack (12 * d + i)).temp.toNat ≤ 930)) = true :=
    List.all_eq_true.2 fun i mem => decide_eq_true (memories i (List.mem_range.1 mem))
  refine if_neg ?_
  rw [cool, decide_eq_true own, decide_eq_true hub, decide_eq_false (Nat.not_lt.2 due)]
  decide

theorem exec_capUnreachable {s : State} (h : s.Live) : exec .capUnreachable s = .next (s.settle (capUnreachable s)) := live_of h.1 h.2 _

/-- Settles O42: the floor, hints, the board limit, rails and sensors each limit what they limit. -/
theorem limitsOfPowerAndHeatAct : Obligations.limits_of_power_and_heat_act := by
  intro s live
  refine ⟨fun floor duty first due above => ⟨_, rfl, ?_⟩, fun raised => ?_, fun b => ?_, fun x within above fast => ?_, ?_, fun d => ?_,
    fun n t => ⟨_, _, rfl, rfl, live_of live.1 live.2 _⟩, fun d own hub memories due => ?_⟩
  · rw [exec_capUnreachable live, capUnreachable_of floor duty first due above]
  · rw [exec_capUnreachable live, capUnreachable_of_raised raised, s.settle_self]
  · refine ⟨capInNLow b s, live_of_only live rfl (ChangesOnly.pwr s _) (by decide), ChangesOnly.pwr s _, ?_⟩
    cases b
    · exact ⟨rfl, rfl, nofun, fun _ => ⟨rfl, rfl⟩⟩
    · exact ⟨rfl, rfl, fun _ => ⟨rfl, rfl⟩, nofun⟩
  · obtain ⟨t, run, kept⟩ := exec_powerEvaluation_kept live x
    obtain ⟨frequency, duty, -⟩ := Pwr.kept_eq_iff.1 kept
    have adjusted : s.evaluated x = { s.pwr.withReadings x with fMhz := max 600 (s.pwr.fMhz - 100) } := Pwr.adjust_predicted within above fast
    exact ⟨t, run, frequency.trans (congrArg Pwr.fMhz adjusted), duty.trans ((congrArg Pwr.duty adjusted).trans rfl)⟩
  · exact live_of_only live rfl (ChangesOnly.pwr s _) (by decide)
  · refine ⟨_, live_of_only live rfl (s.raiseClocks_only d) (by decide), s.raiseClocks_only d, fun rising i small => ?_⟩
    rw [railTargetReached, State.raiseClocks_eq]
    exact State.raiseClock_foldl_mem rising (List.mem_map_of_mem (List.mem_range.2 small))
  · exact ⟨_, live_of_only live (throttleRise_of (by simpa only [Fin.val_eq_zero_iff] using own) hub memories due) (ChangesOnly.pwr s _) (by decide), ChangesOnly.pwr s _, fun rising =>
      Tab.get_set_self _ rising _ _⟩

end Sys2Proof.Machine
end

section
/-!
PROOF. The routing of packets and the ports in Ethernet mode (R424-R426, R434, R435): O35.
-/
namespace Sys2Proof.Machine

/-! The oldest packet. -/

theorem packetRoute_of_injected {s : State} {p : Packet} {rest : List Packet} (inject : s.fab.inject = p :: rest) :
    packetRoute none s = State.route { s with fab := { s.fab with inject := rest } } none p := by
  simp only [packetRoute, inject]

theorem packetRoute_of_none {s : State} (inject : s.fab.inject = []) : packetRoute none s = s := by
  simp only [packetRoute, inject]

theorem packetRoute_of_received {s : State} {q n : Nat} {p : Packet} {rest : List (Nat × Packet)} (received : (s.port q).rxPackets = (n, p) :: rest) :
    packetRoute (some q) s = ((s.setPort q { s.port q with rxPackets := rest }).route (some q) p).afterDrain q := by
  simp only [packetRoute, received]

/-! The routing chain. -/

section
variable {s : State} {inp : Option Nat} {p : Packet}

theorem State.route_local (vc : p.vc.val = 6) (here : p.isLocal = true) : s.route inp p = s.deliver inp p := if_pos ⟨vc, here⟩

theorem State.route_engines_off (vc : p.vc.val ≠ 6) (off : s.boot.level ≠ 2) : s.route inp p = (s.countDrop 0 1).freeFlits inp p :=
  (if_neg (fun h => vc h.1)).trans (if_pos ⟨vc, off⟩)

variable (remote : p.vc.val = 6 → p.isLocal = false) (on : p.vc.val ≠ 6 → s.boot.level = 2)
include remote on

/-- A packet that is neither delivered as LOCAL nor dropped for its channel is read on. -/
theorem State.route_on : s.route inp p = if s.fab.valid ∧ p.dst = s.fab.id then s.deliver inp p
    else if p.hops = 0 then (s.countDrop 2 1).freeFlits inp p
    else if popcount 16 (s.routeEntry p.dst).toNat = 0 then (s.countDrop 0 1).freeFlits inp p
    else match nthSetBit 16 (s.routeEntry p.dst).toNat (routeHash p.src p.dst p.vc.val % popcount 16 (s.routeEntry p.dst).toNat) 0 with
      | some out => s.forward inp { p with hops := p.hops - 1 } out
      | none => s := by
  refine (if_neg ?_).trans (if_neg (fun h => h.2 (on h.1)))
  rintro ⟨vc, here⟩
  exact absurd ((remote vc).symm.trans here) (by decide)

theorem State.route_own (valid : s.fab.valid = true) (own : p.dst = s.fab.id) : s.route inp p = s.deliver inp p :=
  (State.route_on remote on).trans (if_pos ⟨valid, own⟩)

variable (other : ¬ (s.fab.valid = true ∧ p.dst = s.fab.id))
include other

theorem State.route_no_hops (hops : p.hops = 0) : s.route inp p = (s.countDrop 2 1).freeFlits inp p :=
  (State.route_on remote on).trans ((if_neg other).trans (if_pos hops))

theorem State.route_no_entry (hops : p.hops ≠ 0) (empty : popcount 16 (s.routeEntry p.dst).toNat = 0) :
    s.route inp p = (s.countDrop 0 1).freeFlits inp p :=
  (State.route_on remote on).trans ((if_neg other).trans ((if_neg hops).trans (if_pos empty)))

theorem State.route_forwarded {out : Nat} (hops : p.hops ≠ 0) (entry : popcount 16 (s.routeEntry p.dst).toNat ≠ 0)
    (picked : nthSetBit 16 (s.routeEntry p.dst).toNat (routeHash p.src p.dst p.vc.val % popcount 16 (s.routeEntry p.dst).toNat) 0 = some out) :
    s.route inp p = s.forward inp { p with hops := p.hops - 1 } out := by
  refine (State.route_on remote on).trans ((if_neg other).trans ((if_neg hops).trans ((if_neg entry).trans ?_)))
  rw [picked]

end

/-! Ethernet ports. -/

section
variable {s : State} {p : Nat} (up : (s.port p).state = 2) (ethernet : (s.port p).curMode = 2)
include up ethernet

theorem ethernetFrameReceive_eq (f : Frame) : ethernetFrameReceive p f s =
    if !f.fcsOk || f.etherType != s.fab.etherType || f.dstMac.toNat / 65536 != s.fab.pfx.toNat then s.countDrop 5 1
    else (s.setPort p { s.port p with rxPackets := (s.port p).rxPackets ++ [(flitsOf f.packet, f.packet)] }).pauseCheck p f.packet.vc.val := by
  refine if_neg ?_
  rw [up, ethernet]
  decide

theorem ethernetFrameReceive_good {f : Frame} (fcs : f.fcsOk = true) (type : f.etherType = s.fab.etherType)
    (mac : f.dstMac.toNat / 65536 = s.fab.pfx.toNat) : ethernetFrameReceive p f s =
      (s.setPort p { s.port p with rxPackets := (s.port p).rxPackets ++ [(flitsOf f.packet, f.packet)] }).pauseCheck p f.packet.vc.val := by
  refine (ethernetFrameReceive_eq up ethernet f).trans (if_neg ?_)
  simp only [fcs, type, mac, bne_self_eq_false, Bool.not_true, Bool.or_self, Bool.false_eq_true, not_false_eq_true]

theorem ethernetFrameReceive_foreign {f : Frame}
    (foreign : f.fcsOk = false ∨ f.etherType ≠ s.fab.etherType ∨ f.dstMac.toNat / 65536 ≠ s.fab.pfx.toNat) :
    ethernetFrameReceive p f s = s.countDrop 5 1 := by
  refine (ethernetFrameReceive_eq up ethernet f).trans (if_pos ?_)
  simpa only [Bool.or_eq_true, Bool.not_eq_true', bne_iff_ne, or_assoc] using foreign

theorem pfcPause_of (i : Nat) (b : Bool) : pfcPause p i b s =
    s.setPort p { s.port p with pausedTx := BitVec.ofNat 8 (setBitOf (s.port p).pausedTx.toNat i b) } := by
  refine if_neg ?_
  rw [up, ethernet]
  decide

section
variable {x : Port} (hx : x = (s.port p).noteWaits s.now)
include hx

theorem flitSend_ethernet_idle (idle : x.pick = none) : flitSend p s = s.setPort p x := by
  subst hx
  have mode : ((s.port p).noteWaits s.now).curMode = 2 := ethernet
  simp only [flitSend, up, ne_eq, not_true_eq_false, if_false, mode, if_true, idle]

theorem flitSend_ethernet_frame {v : Nat} {turn : Nat} {e : Option Nat × Packet} (picked : x.pick = some (v, turn)) (head : x.headOf v = some e) :
    flitSend p s = (((s.setPort p x).setPort p { x.serve v e with wrr := turn }).sendFrame p e.2).packetSent e := by
  subst hx
  have mode : ((s.port p).noteWaits s.now).curMode = 2 := ethernet
  simp only [flitSend, up, ne_eq, not_true_eq_false, if_false, mode, if_true, picked, head]

end

end

theorem exec_packetRoute {s : State} (h : s.Live) (port : Option (Fin 16)) :
    exec (.packetRoute port) s = .next (s.settle (packetRoute (port.map Fin.val) s)) := live_of h.1 h.2 _
theorem exec_ethernetFrameReceive {s : State} (h : s.Live) (p : Fin 16) (f : Frame) :
    exec (.ethernetFrameReceive p f) s = .next (s.settle (ethernetFrameReceive p f s)) := live_of h.1 h.2 _

/-- Settles O35: the oldest packet is read through the routing chain, and an Ethernet port sends and takes frames. -/
theorem packetsAreRoutedAndFramesTaken : Obligations.packets_are_routed_and_frames_taken := by
  intro s live
  refine ⟨?injected, ?none, ?received, ?chain, ?ethernet⟩
  case injected =>
    intro p rest u inject hu
    rw [hu, exec_packetRoute live, Option.map_none, packetRoute_of_injected inject]
  case none =>
    intro inject
    rw [exec_packetRoute live, Option.map_none, packetRoute_of_none inject, s.settle_self]
  case received =>
    intro q n p rest u received hu
    rw [hu, exec_packetRoute live, Option.map_some, packetRoute_of_received received]
  case chain =>
    intro inp p
    exact ⟨State.route_local, State.route_engines_off, fun remote on => ⟨State.route_own remote on, fun other =>
      ⟨State.route_no_hops remote on other, State.route_no_entry remote on other,
        fun out hops entry picked => State.route_forwarded remote on other hops entry picked⟩⟩⟩
  case ethernet =>
    intro p f up ethernet
    refine ⟨fun fcs type mac => ?_, fun foreign => ?_, fun x hx => ⟨fun idle => ?_, fun v turn e picked head => ?_⟩, fun i b => ?_⟩
    · rw [exec_ethernetFrameReceive live, ethernetFrameReceive_good up ethernet fcs type mac]
    · exact live_of_only live (ethernetFrameReceive_foreign up ethernet foreign) (s.countDrop_only _ _) (by decide)
    · exact live_of_only live (flitSend_ethernet_idle up ethernet hx idle) (s.setPort_only _ _) (by decide)
    · rw [exec_flitSend live, flitSend_ethernet_frame up ethernet hx picked head]
    · exact live_of_only live (pfcPause_of up ethernet i b) (s.setPort_only _ _) (by decide)

end Sys2Proof.Machine
end

section
/-!
PROOF. The Spans and the array windows (R17-R19, R26-R28, R70): O32.
-/
namespace Sys2Proof.Machine

/-! Spans. -/

theorem State.setSpan_only (s : State) (e : Bool) (x : Span) : ChangesOnly [.spanW, .spanE] s (s.setSpan e x) := by
  intro p hp
  cases e <;> cases p <;> first | (exfalso; revert hp; decide) | rfl

theorem State.span_setSpan_self (s : State) (e : Bool) (x : Span) : (s.setSpan e x).span e = x := by cases e <;> rfl
theorem State.span_setSpan_other (s : State) (e : Bool) (x : Span) : (s.setSpan e x).span (!e) = s.span (!e) := by cases e <;> rfl
theorem Span.lane_setLane_self (x : Span) (h : Bool) (l : SpanLane) : (x.setLane h l).lane h = l := by cases h <;> rfl
theorem Span.lane_setLane_other (x : Span) (h : Bool) (l : SpanLane) : (x.setLane h l).lane (!h) = x.lane (!h) := by cases h <;> rfl
theorem Span.hung_setLane (x : Span) (h : Bool) (l : SpanLane) : (x.setLane h l).hung = x.hung := by cases h <;> rfl

theorem SpanLane.serve_control {l : SpanLane} {f : Nat} {fs : List Nat} (control : l.control = f :: fs) :
    l.serve = { l with control := fs, sending := some (0, f), replays := 0 } := by
  simp only [SpanLane.serve, control]

/-- Taking the head of one queue leaves every queue as it is, or without its head. -/
theorem SpanLane.queue_setQueue {l : SpanLane} {r : Nat} {f : Nat} {fs : List Nat} (head : l.queue r = f :: fs) (q : Fin 4) :
    (l.setQueue r fs).queue q = l.queue q ∨ ∃ g, l.queue q = g :: (l.setQueue r fs).queue q := by
  match r, head with
  | 0, head => fin_cases q <;> first | exact Or.inl rfl | exact Or.inr ⟨f, head⟩
  | 1, head => fin_cases q <;> first | exact Or.inl rfl | exact Or.inr ⟨f, head⟩
  | 2, head => fin_cases q <;> first | exact Or.inl rfl | exact Or.inr ⟨f, head⟩
  | n + 3, head => fin_cases q <;> first | exact Or.inl rfl | exact Or.inr ⟨f, head⟩

/-- Serving a lane keeps the order within every queue: each loses its head at most. -/
theorem SpanLane.serve_queue (l : SpanLane) (q : Fin 4) : l.serve.queue q = l.queue q ∨ ∃ f, l.queue q = f :: l.serve.queue q := by
  unfold SpanLane.serve
  split
  next f fs control => exact SpanLane.queue_setQueue (r := 0) control q
  next =>
    split
    next => exact Or.inl rfl
    next t place =>
      dsimp only
      split
      next f fs head => exact SpanLane.queue_setQueue head q
      next => exact Or.inl rfl

section
variable {s : State} {r : SpanReplay} {l : SpanLane} (hl : l = r.arrived.foldl SpanLane.join ((s.span r.east).lane r.toHub))
include hl

theorem spanFlitReplay_of {x : SpanLane} (found : l.serveTo (r.queue.val, r.flit) l.waiting = some x) : spanFlitReplay r s =
    s.setSpan r.east ((s.span r.east).setLane r.toHub { x with replays := x.replays + 1 }) := by
  subst hl
  simp only [spanFlitReplay, found]

theorem spanFlitReplay_of_none (missing : l.serveTo (r.queue.val, r.flit) l.waiting = none) : spanFlitReplay r s = s := by
  subst hl
  simp only [spanFlitReplay, missing]

end

theorem spanHung_of {s : State} {e : Bool} (stuck : 16 ≤ (s.span e).toDie.replays ∨ 16 ≤ (s.span e).toHub.replays) (first : (s.span e).hung = false) :
    spanHung e s = (s.setSpan e { s.span e with hung := true }).fireWarm 9 (bit e) 0 0xFFFF 0 := by
  refine if_neg ?_
  rw [first]
  rintro (⟨die, hub⟩ | hung)
  · exact stuck.elim (Nat.not_le.2 die) (Nat.not_le.2 hub)
  · exact absurd hung (by decide)

theorem spanHung_idle {s : State} {e : Bool}
    (idle : ((s.span e).toDie.replays < 16 ∧ (s.span e).toHub.replays < 16) ∨ (s.span e).hung = true) : spanHung e s = s := if_pos idle

/-! The places of array windows. -/

theorem offset_mod_window (a : Nat) {o : Nat} (within : o < 0x400_0000) : (a * 0x400_0000 + o) % 0x400_0000 = o := by
  rw [Nat.mul_add_mod', Nat.mod_eq_of_lt within]

theorem offset_div_window (a : Nat) {o : Nat} (within : o < 0x400_0000) : (a * 0x400_0000 + o) / 0x400_0000 = a := by
  rw [Nat.mul_comm, Nat.mul_add_div (by decide), Nat.div_eq_of_lt within, Nat.add_zero]

section
variable {a o : Nat} (array : a < 8) (within : o < 0x400_0000)
include array within

theorem region_window : region (windowBase a + o) = 2 := by
  unfold region windowBase
  omega

theorem regionOff_window : regionOff (windowBase a + o) = a * 0x400_0000 + o := by
  unfold regionOff windowBase
  omega

theorem isHbm_window : isHbm (windowBase a + o) = false := by
  refine decide_eq_false (Nat.not_lt.2 ?_)
  unfold windowBase
  have : hbmEnd ≤ 0x2_0000_0000_0000 := by decide
  omega

theorem State.key_window (s : State) : s.key (windowBase a + o) = some (windowBase a + o) := by
  have small : a * 0x400_0000 + o < 0x2000_0000 := by omega
  simp only [State.key, region_window array within, regionOff_window array within, small, if_true]

/-- A byte of an array's window is busy where it lies in a bank and its array has a tile in flight. -/
theorem State.bankBusy_window (s : State) :
    s.bankBusy (windowBase a + o) = (decide (0x300_0000 ≤ o) && (s.array a).inflight != []) := by
  simp only [State.bankBusy, region_window array within, regionOff_window array within, offset_mod_window a within, offset_div_window a within,
    beq_self_eq_true, Bool.true_and]

end

/-! Window accesses. -/

section
variable {s : State} {a : Nat} {w : WinAccess} (array : a < 8) (fits : w.offset + max w.size w.data.length ≤ 0x400_0000)
  (some_ : 0 < max w.size w.data.length)
include array fits some_

theorem windowAccess_now (free : w.offset + max w.size w.data.length ≤ 0x300_0000 ∨ (s.array a).inflight = []) :
    windowAccess a w s = s.serveWindow a w := by
  have place : windowBase a + w.offset + max w.size w.data.length - 1 = windowBase a + (w.offset + max w.size w.data.length - 1) := by omega
  refine (if_neg (Nat.not_lt.2 fits)).trans (if_neg ?_)
  rw [place, s.bankBusy_window array (by omega), s.bankBusy_window array (by omega)]
  rcases free with scratch | idle
  · rw [decide_eq_false (by omega), decide_eq_false (by omega)]
    simp only [Bool.false_and, Bool.or_self, Bool.false_eq_true, not_false_eq_true]
  · rw [idle, bne_self_eq_false, Bool.and_false, Bool.and_false]
    decide

theorem windowAccess_held (bank : 0x300_0000 ≤ w.offset) (busy : (s.array a).inflight ≠ []) : windowAccess a w s = s.holdAccess a w := by
  refine (if_neg (Nat.not_lt.2 fits)).trans (if_pos ?_)
  rw [s.bankBusy_window array (by omega), decide_eq_true bank, bne_iff_ne.2 busy]
  rfl

end

theorem State.serveWindow_read {s : State} {w : WinAccess} (a : Nat) (quiet : s.dbg.busy = false) (read : w.isWrite = false) :
    s.serveWindow a w = s.sendOut (.readBytes (s.rdN (windowBase a + w.offset) w.size)) := by
  simp only [State.serveWindow, quiet, read, Bool.false_and, Bool.false_eq_true, if_false]

theorem State.serveWindow_write {s : State} {w : WinAccess} (a : Nat) (quiet : s.dbg.busy = false) (write : w.isWrite = true) :
    s.serveWindow a w = s.store (windowBase a + w.offset) w.data := by
  simp only [State.serveWindow, quiet, write, Bool.false_and, Bool.false_eq_true, if_false, if_true]

theorem State.dropClean_mem (s : State) (a n : Nat) : (s.dropClean a n).mem = s.mem := by
  unfold State.dropClean
  split <;> rfl

theorem State.snoop_mem (s : State) (a n : Nat) : (s.snoop a n).mem = s.mem := by
  obtain ⟨d, e⟩ := s.snoop_dsc a n
  rw [e]

/-- Outside HBM and host memory a store's bytes are all that it changes of memory. -/
theorem State.store_mem {s : State} {a : Nat} (bs : List Byte) (host : region a ≠ 4) (hbm : isHbm a = false) :
    (s.store a bs).mem = (s.wrBytes a bs).mem := by
  unfold State.store
  split
  next discarded =>
    rcases discarded with rfl | ⟨there, -⟩
    · rfl
    · exact absurd there host
  next =>
    extract_lets u v
    have same : v = u := if_neg (fun h => absurd (hbm.symm.trans h.1) (by decide))
    rw [State.dropClean_mem, State.snoop_mem, same]

/-- A store into an array's window replaces its bytes and no others. -/
theorem State.store_window {s : State} {a o : Nat} {bs : List Byte} (array : a < 8) (fits : o + bs.length ≤ 0x400_0000) (here : o < 0x400_0000)
    (wf : s.mem.wf = true) :
    (∀ i (h : i < bs.length), (s.store (windowBase a + o) bs).mem.read (windowBase a + o + i) = bs[i]) ∧
    ∀ k, (k < windowBase a + o ∨ windowBase a + o + bs.length ≤ k) → (s.store (windowBase a + o) bs).mem.read k = s.mem.read k := by
  have keys (i : Nat) (h : i < bs.length) : s.key (windowBase a + o + i) = some (windowBase a + o + i) := by
    rw [Nat.add_assoc]
    exact s.key_window array (by omega)
  rw [State.store_mem bs (by rw [region_window array here]; decide) (isHbm_window array here)]
  refine ⟨s.wrBytes_rd wf _ bs _ keys, fun k outside => s.wrBytes_read _ bs k fun i h => ?_⟩
  rw [keys i h, ne_eq, Option.some_inj]
  omega

theorem bankWindowServe_of {s : State} {a : Nat} (idle : (s.array a).inflight = []) (drained : (s.array a).draining = false) : bankWindowServe a s =
    (s.array a).window.foldl (fun (s : State) w => s.serveWindow a w) (s.setArray a { s.array a with window := [] }) := by
  refine if_neg ?_
  rw [ArrayUnit.bankWrites, idle, drained]
  decide

theorem exec_spanHung {s : State} (h : s.Live) (e : Bool) : exec (.spanHung e) s = .next (s.settle (spanHung e s)) := live_of h.1 h.2 _
theorem exec_windowAccess {s : State} (h : s.Live) (a : Fin 8) (w : WinAccess) : exec (.windowAccess a w) s = .next (s.settle (windowAccess a w s)) :=
  live_of h.1 h.2 _
theorem exec_bankWindowServe {s : State} (h : s.Live) (a : Fin 8) : exec (.bankWindowServe a) s = .next (s.settle (bankWindowServe a s)) :=
  live_of h.1 h.2 _

/-- Settles O32: Spans replay in order and are reported hung, and window accesses act at once or wait for a tile boundary. -/
theorem spanAndWindowEventsAct : Obligations.span_and_window_events_act := by
  intro s live
  refine ⟨?replay, ?noReplay, fun l => ⟨fun f fs control => SpanLane.serve_control control, l.serve_queue⟩, ?hung, ?sound, ?access, ?held, ?serve⟩
  case replay =>
    intro e h arrived q flit l x hl found
    refine ⟨_, live_of_only live (spanFlitReplay_of (r := ⟨e, h, arrived, q, flit⟩) hl found) (s.setSpan_only _ _) (by decide), s.setSpan_only _ _, ?_⟩
    rw [s.span_setSpan_self, s.span_setSpan_other, Span.lane_setLane_self, Span.lane_setLane_other, Span.hung_setLane]
    exact ⟨rfl, rfl, rfl, rfl⟩
  case noReplay =>
    intro e h arrived q flit l hl missing
    exact live_of_only live (spanFlitReplay_of_none (r := ⟨e, h, arrived, q, flit⟩) hl missing) (ChangesOnly.refl [] s) (by decide)
  case hung =>
    intro e u stuck first hu
    rw [exec_spanHung live, spanHung_of stuck first, hu, State.fireWarm]
  case sound =>
    intro e idle
    rw [exec_spanHung live, spanHung_idle idle, s.settle_self]
  case access =>
    intro a w fits quiet free some_
    have now := windowAccess_now a.isLt fits some_ free
    refine ⟨fun read => ?_, fun write => ?_⟩
    · rw [State.serveWindow_read a quiet read] at now
      exact live_of_only live now (State.sendOut_only _ _) (by decide)
    · rw [State.serveWindow_write a quiet write] at now
      have run : exec (.windowAccess a w) s = .next (s.settle (s.store (windowBase a + w.offset) w.data)) := by rw [exec_windowAccess live, now]
      refine ⟨run, fun wf t next => ?_⟩
      rw [run, Host.Outcome.next.injEq] at next
      rw [← next]
      exact State.store_window a.isLt (by omega) (by omega) wf
  case held =>
    intro a w fits bank busy some_
    exact live_of_only live (windowAccess_held a.isLt fits some_ bank busy) (s.setArray_only _ _) (by decide)
  case serve =>
    intro a idle drained
    rw [exec_bankWindowServe live, bankWindowServe_of idle drained]

end Sys2Proof.Machine
end

section
/-!
PROOF. The PCI Express endpoint: configuration, AtomicOps, BAR4 and the link (R579-R588): O50.
-/
namespace Sys2Proof.Machine

/-! Configuration requests. -/

theorem pcieConfigRequest_down {s : State} (down : s.hif.up = false) (r : CfgReq) : pcieConfigRequest r s = s := by
  simp only [pcieConfigRequest, down, Bool.not_false, if_true]

theorem pcieConfigRequest_late {s : State} (up : s.hif.up = true) (late : s.boot.resetEndAt + 100000000 ≤ s.now) (r : CfgReq) :
    pcieConfigRequest r s = s.configure r := by
  simp only [pcieConfigRequest, up, Nat.not_lt.2 late, Bool.not_true, Bool.false_eq_true, false_and, if_false]

/-- A link that is up answers a configuration request with its effect, or with Request Retry Status. -/
theorem pcieConfigRequest_early {s : State} (up : s.hif.up = true) (r : CfgReq) :
    pcieConfigRequest r s = s.configure r ∨ pcieConfigRequest r s = s.tick.sendOut .requestRetry := by
  by_cases retry : s.now < s.boot.resetEndAt + 100000000 ∧ Config.choiceNat s.fresh % 2 = 1
  · exact Or.inr (by simp only [pcieConfigRequest, up, Bool.not_true, Bool.false_eq_true, if_false, retry, and_self, if_true])
  · exact Or.inl (by simp only [pcieConfigRequest, up, Bool.not_true, Bool.false_eq_true, if_false, retry])

theorem State.configure_setD0 {s : State} (d3 : s.hif.d3hot = true) :
    s.configure .setD0 = State.requestFunction { s with hif := { s.hif with d3hot := false } } 11 := if_pos d3

theorem State.configure_setD0_only {s : State} (d3 : s.hif.d3hot = true) : ChangesOnly [.hif, .rst] s (s.configure .setD0) := by
  rw [State.configure_setD0 d3]
  exact ((ChangesOnly.hif s _).mono (by decide)).trans ((State.requestReset_only _ _).mono (by decide))

/-! AtomicOps. -/

theorem atomicopRequest_up {s : State} (up : s.hif.up = true) : atomicopRequest s = s.sendOut .unsupportedRequest := if_pos up
theorem atomicopRequest_down {s : State} (down : s.hif.up = false) : atomicopRequest s = s := by
  simp only [atomicopRequest, down, Bool.false_eq_true, if_false]

/-! BAR4. -/

/-- A BAR4 access without effect: a read returns all ones. -/
def State.bar4None (s : State) (w : Bool) (n : Nat) : State := if w then s else s.sendOut (.readBytes (List.replicate n 0xFF))

theorem State.bar4None_only (s : State) (w : Bool) (n : Nat) : ChangesOnly [.out] s (s.bar4None w n) :=
  .ite (.refl _ s) (s.sendOut_only _)

section
variable {s : State} {o n a len : Nat} {d : List Byte} {w : Bool} (up : s.hif.up = true) (d0 : s.hif.d3hot = false) (ha : a = s.bar4At o)
  (hlen : len = (if w then d.length else n)) (some_ : 0 < len) (fits : o + len ≤ 2 ^ (30 + s.hif.bar4Log2Gib))
include up d0 ha hlen some_ fits

theorem bar4Access_eq : bar4Access o n d w s =
    if s.inFunctionReset then s.bar4None w len
    else if !isHbm a || !s.mappedRange a len then s.countUnmapped.bar4None w len
    else if s.untrainedAt a || s.fenced w a len then s.bar4None w len
    else s.acceptInOrder { addr := a, data := d, size := n, isWrite := w, tag := 0x136 } := by
  rw [hlen] at some_ fits ⊢
  rw [ha]
  refine if_neg ?_
  rw [up, d0, beq_eq_false_iff_ne.2 (Nat.pos_iff_ne_zero.1 some_), decide_eq_false (Nat.not_lt.2 fits)]
  decide

theorem bar4Access_reset (reset : s.inFunctionReset = true) : bar4Access o n d w s = s.bar4None w len :=
  (bar4Access_eq up d0 ha hlen some_ fits).trans (if_pos reset)

variable (calm : s.inFunctionReset = false)
include calm

theorem bar4Access_unmapped (unmapped : isHbm a = false ∨ s.mappedRange a len = false) : bar4Access o n d w s = s.countUnmapped.bar4None w len := by
  refine (bar4Access_eq up d0 ha hlen some_ fits).trans ((if_neg (by rw [calm]; decide)).trans (if_pos ?_))
  simpa only [Bool.or_eq_true, Bool.not_eq_true'] using unmapped

variable (hbm : isHbm a = true) (mapped : s.mappedRange a len = true)
include hbm mapped

theorem bar4Access_fenced (fenced : s.untrainedAt a = true ∨ s.fenced w a len = true) : bar4Access o n d w s = s.bar4None w len := by
  refine (bar4Access_eq up d0 ha hlen some_ fits).trans ((if_neg (by rw [calm]; decide)).trans ((if_neg (by rw [hbm, mapped]; decide)).trans (if_pos ?_)))
  rw [Bool.or_eq_true]
  exact fenced

theorem bar4Access_joins (trained : s.untrainedAt a = false) (free : s.fenced w a len = false) : bar4Access o n d w s =
    s.acceptInOrder { addr := a, data := d, size := n, isWrite := w, tag := 0x136 } :=
  (bar4Access_eq up d0 ha hlen some_ fits).trans
    ((if_neg (by rw [calm]; decide)).trans ((if_neg (by rw [hbm, mapped]; decide)).trans (if_neg (by rw [trained, free]; decide))))

end

/-! The link. -/

theorem pcieLinkDown_down {s : State} (down : s.hif.up = false) : pcieLinkDown s = s := by
  simp only [pcieLinkDown, down, Bool.not_false, if_true]

/-- The numbers of the sessions that a link loss ends. -/
def State.linkSessions (s : State) : List Nat := (List.range 4).filter fun n => (s.session n).onTransport 0

theorem pcieLinkDown_up {s u : State} (up : s.hif.up = true)
    (hu : u = { s with hif := { s.hif with up := false, flitMode := false, speed := 0, width := 0 } }) : pcieLinkDown s =
      s.linkSessions.foldl (fun (t : State) n => t.deleteRingsOf n) (u.endSessions fun n => s.linkSessions.contains n) := by
  subst hu
  exact if_neg (by rw [up]; decide)

theorem pcieLinkUp_of {s : State} {f : Bool} {speed : BitVec 3} {width : BitVec 5} (down : s.hif.up = false) (runs : s.boot.image.isSome = true)
    (low : 3 ≤ speed.toNat) (high : speed.toNat ≤ 6) (wide : width.toNat ∈ [1, 2, 4, 8, 16]) : pcieLinkUp f speed width s =
      { s with hif := { s.hif with up := true, flitMode := f, speed := speed, width := width } } := by
  refine if_neg ?_
  rw [down, Option.isNone_eq_false_iff.2 runs, decide_eq_true low, decide_eq_true high, List.contains_iff_mem.2 wide]
  decide

theorem exec_pcieConfigRequest {s : State} (h : s.Live) (r : CfgReq) : exec (.pcieConfigRequest r) s = .next (s.settle (pcieConfigRequest r s)) :=
  live_of h.1 h.2 _
theorem exec_bar4Access {s : State} (h : s.Live) (o n : Nat) (d : List Byte) (w : Bool) :
    exec (.bar4Access o n d w) s = .next (s.settle (bar4Access o n d w s)) := live_of h.1 h.2 _
theorem exec_pcieLinkDown {s : State} (h : s.Live) : exec .pcieLinkDown s = .next (s.settle (pcieLinkDown s)) := live_of h.1 h.2 _

/-- Settles O50: the endpoint answers while its link is up, and a link that goes down ends its sessions. -/
theorem endpointRequestsAndLinkEvents : Obligations.endpoint_requests_and_link_events := by
  intro s live
  refine ⟨fun up => live_of_only live (atomicopRequest_up up) (s.sendOut_only _) (by decide), fun up late => ?late, fun r up _ => ?early, ⟨rfl, rfl⟩,
    ?bar4, fun up => ?linkDown, fun f speed width down runs low high wide => ?linkUp, fun down => ⟨?_, ?_, fun r => ?_⟩⟩
  case late =>
    refine ⟨fun d => ?_, ?_, fun d3 => ⟨_, rfl, ?_⟩, fun on => ?_, fun n => ?_, ?_⟩
    · exact live_of_only live (pcieConfigRequest_late up late _) (s.sendOut_only _) (by decide)
    · exact live_of_only live (pcieConfigRequest_late up late _) (ChangesOnly.hif s _) (by decide)
    · exact live_of_only live ((pcieConfigRequest_late up late _).trans (State.configure_setD0 d3))
        (State.configure_setD0 d3 ▸ State.configure_setD0_only d3) (by decide)
    · exact live_of_only live (pcieConfigRequest_late up late _) (ChangesOnly.hif s _) (by decide)
    · exact live_of_only live (pcieConfigRequest_late up late _) (ChangesOnly.hif s _) (by decide)
    · exact live_of_only live (pcieConfigRequest_late up late _) (ChangesOnly.hif s _) (by decide)
  case early =>
    rcases pcieConfigRequest_early up r with answered | retried
    · exact Or.inl (by rw [exec_pcieConfigRequest live, answered])
    · have only : ChangesOnly [.fresh, .out] s (s.tick.sendOut .requestRetry) :=
        (s.tick_only.mono (by decide)).trans ((State.sendOut_only _ _).mono (by decide))
      exact Or.inr (live_of_only live retried only (by decide))
  case bar4 =>
    intro o n d w a len up d0 ha hlen some_ fits
    refine ⟨s.countUnmapped, rfl, fun reset => ?_, fun calm unmapped => ?_, fun calm hbm mapped fenced => ?_, fun calm hbm mapped trained free => ?_⟩
    · exact live_of_only live (bar4Access_reset up d0 ha hlen some_ fits reset) (s.bar4None_only w len) (by decide)
    · have only : ChangesOnly [.hif, .out] s (s.countUnmapped.bar4None w len) :=
        ((ChangesOnly.hif s _).mono (by decide)).trans ((State.bar4None_only _ w len).mono (by decide))
      exact live_of_only live (bar4Access_unmapped up d0 ha hlen some_ fits calm unmapped) only (by decide)
    · exact live_of_only live (bar4Access_fenced up d0 ha hlen some_ fits calm hbm mapped fenced) (s.bar4None_only w len) (by decide)
    · rw [exec_bar4Access live, bar4Access_joins up d0 ha hlen some_ fits calm hbm mapped trained free]
  case linkDown =>
    exact ⟨_, s.linkSessions, rfl, rfl, by rw [exec_pcieLinkDown live, pcieLinkDown_up up rfl]⟩
  case linkUp => exact live_of_only live (pcieLinkUp_of down runs low high wide) (ChangesOnly.hif s _) (by decide)
  · exact live_of_only live (pcieLinkDown_down down) (ChangesOnly.refl [] s) (by decide)
  · exact live_of_only live (atomicopRequest_down down) (ChangesOnly.refl [] s) (by decide)
  · exact live_of_only live (pcieConfigRequest_down down r) (ChangesOnly.refl [] s) (by decide)

end Sys2Proof.Machine
end

section
/-!
PROOF. Firmware components, the endpoint identifier, attestation and the UART (R569, R574, R590-R595): O49.
-/
namespace Sys2Proof.Machine

/-! Components. -/

theorem State.raiseRejected_only (s : State) (source reason version counter : Nat) :
    ChangesOnly [.mem, .hif, .out, .pldm, .pins] s (s.raiseRejected source reason version counter) := (s.raise0_raised _ _ _).only

theorem pldmFirmwareComponent_bad {s : State} {c : Component} {reason counter : Nat} (bad : s.componentBad c = (some reason, counter)) :
    pldmFirmwareComponent c s = s.raiseRejected 3 reason c.version.toNat counter := by
  simp only [pldmFirmwareComponent, bad]

theorem pldmFirmwareComponent_good {s : State} {c : Component} (good : (s.componentBad c).1 = none) :
    pldmFirmwareComponent c s = s.writeComponent c := by
  have pair : s.componentBad c = (none, (s.componentBad c).2) := Prod.ext good rfl
  unfold pldmFirmwareComponent
  rw [pair]

theorem State.writeComponent_slotB {s : State} {c : Component} (image : c.kind = 0) (runs : s.boot.image.isSome = true) (slotA : s.boot.slot = false) :
    s.writeComponent c = { s with flash := { s.flash with slotB := some c, failsB := 0 } } := by
  simp only [State.writeComponent, image, runs, slotA, Bool.not_false, Bool.and_self, if_true]

theorem State.writeComponent_slotA {s : State} {c : Component} (image : c.kind = 0) (free : s.boot.image = none ∨ s.boot.slot = true) :
    s.writeComponent c = { s with flash := { s.flash with slotA := some c, failsA := 0 } } := by
  rcases free with none | slotB
  · simp only [State.writeComponent, image, none, Option.isSome_none, Bool.false_and, Bool.false_eq_true, if_false]
  · simp only [State.writeComponent, image, slotB, Bool.not_true, Bool.and_false, Bool.false_eq_true, if_false]

theorem State.writeComponent_config {s : State} {c : Component} (config : c.kind = 4) :
    s.writeComponent c = { s with flash := { s.flash with config := c :: s.flash.config.take 1 } } := by
  simp only [State.writeComponent, config]

theorem State.writeComponent_opkey {s : State} {c : Component} (key : c.kind = 5) :
    s.writeComponent c = { s with flash := { s.flash with opkey := c :: s.flash.opkey.take 1 } } := by
  simp only [State.writeComponent, key]

/-! Attestation. -/

theorem State.attest_only (s : State) (code : Nat) (fixed : List Byte) : ChangesOnly [.out] s (s.attest code fixed) := .ite (s.sendOut_only _) (.refl _ s)

/-- A command whose effect is an SPDM answer leaves that answer. -/
theorem live_attest {s : State} (h : s.Live) {f : State → State} {code : Nat} {fixed : List Byte} (e : f s = s.attest code fixed) :
    live s f = .next (s.attest code fixed) := live_of_only h e (s.attest_only code fixed) (by decide)

theorem getMeasurements_one (s : State) (i : Fin 5) : getMeasurements (BitVec.ofNat 8 (i + 1)) s = s.attest 0xE0 (s.measurement (i + 1)) := by
  fin_cases i <;> rfl

theorem getMeasurements_all (s : State) : getMeasurements 0xFF s =
    s.attest 0xE0 (s.measurement 1 ++ s.measurement 2 ++ s.measurement 3 ++ s.measurement 4 ++ s.measurement 5) := by
  have list : (List.range 5).flatMap (fun i => s.measurement (i + 1)) =
      s.measurement 1 ++ s.measurement 2 ++ s.measurement 3 ++ s.measurement 4 ++ s.measurement 5 := by
    simp only [List.range, List.range.loop, List.flatMap_cons, List.flatMap_nil, List.append_nil, Nat.reduceAdd, List.append_assoc]
  rw [getMeasurements, if_pos rfl, list]

/-! Collected events. -/

theorem pldmEventCollect_of {s : State} {e : BitVec 16} {rest : List (BitVec 16)} (events : s.pldm = e :: rest) : pldmEventCollect s =
    State.sendOut { s with pldm := rest, pins := { s.pins with alertN := rest == [] } } (.pldm e) := by
  simp only [pldmEventCollect, events]

theorem pldmEventCollect_none {s : State} (none : s.pldm = []) : pldmEventCollect s = s := by
  simp only [pldmEventCollect, none]

theorem ChangesOnly.collected (s : State) (l : List (BitVec 16)) (p : Pins) (o : List Out) :
    ChangesOnly [.pldm, .pins, .out] s { s with pldm := l, pins := p, out := o } := by
  intro q hq; cases q <;> first | (exfalso; revert hq; decide) | rfl

/-! The endpoint identifier. -/

theorem ChangesOnly.eid (s : State) (e : Byte) : ChangesOnly [.eid] s { s with eid := e } := by
  intro q hq; cases q <;> first | (exfalso; revert hq; decide) | rfl

section
variable {s : State} {k : Nat} {e : Byte}

theorem setEndpointId_own (own : k = s.boot.trayPos.toNat) : setEndpointId k e s = { s with eid := e } := if_pos own
theorem setEndpointId_master (other : k ≠ s.boot.trayPos.toNat) (master : s.boot.masterSel = true) :
    setEndpointId k e s = s.sendOut (.sideband (0x60 + k) [e]) := (if_neg other).trans (if_pos master)
theorem setEndpointId_elsewhere (other : k ≠ s.boot.trayPos.toNat) (slave : s.boot.masterSel = false) : setEndpointId k e s = s :=
  (if_neg other).trans (if_neg (by rw [slave]; decide))

end

/-- Settles O49: components are verified before they are written, and attestation, the UART and event collection answer. -/
theorem componentsMeasurementsAndUartAnswers : Obligations.components_measurements_and_uart_answers := by
  intro s live
  refine ⟨?bad, ?good, ?endpoint, ?attest, ⟨rfl, rfl⟩, ⟨?_, ?_, ?_⟩, fun e rest events => ?_, fun none => ?_⟩
  case bad =>
    intro c reason counter bad
    have only := s.raiseRejected_only 3 reason c.version.toNat counter
    exact ⟨_, liveMp_of_only live (pldmFirmwareComponent_bad bad) only (by decide), rfl, only .flash (by decide), only .boot (by decide)⟩
  case good =>
    intro c good
    have write := pldmFirmwareComponent_good good
    refine ⟨fun image runs slotA => ?_, fun image free => ?_, fun config => ?_, fun key => ?_⟩
    · exact liveMp_of_only live (write.trans (State.writeComponent_slotB image runs slotA)) (ChangesOnly.flash s _) (by decide)
    · exact liveMp_of_only live (write.trans (State.writeComponent_slotA image free)) (ChangesOnly.flash s _) (by decide)
    · exact liveMp_of_only live (write.trans (State.writeComponent_config config)) (ChangesOnly.flash s _) (by decide)
    · exact liveMp_of_only live (write.trans (State.writeComponent_opkey key)) (ChangesOnly.flash s _) (by decide)
  case endpoint =>
    intro k e
    refine ⟨fun own => ?_, fun other master => ?_, fun other slave => ?_⟩
    · exact liveMp_of_only live (setEndpointId_own own) (ChangesOnly.eid s e) (by decide)
    · exact liveMp_of_only live (setEndpointId_master other master) (s.sendOut_only _) (by decide)
    · exact liveMp_of_only live (setEndpointId_elsewhere other slave) (ChangesOnly.refl [] s) (by decide)
  case attest =>
    intro answer hanswer
    subst hanswer
    exact ⟨live_attest live rfl, live_attest live rfl, live_attest live rfl, live_attest live rfl, fun _ _ => live_attest live rfl,
      fun _ => live_attest live rfl, fun i => live_attest live (getMeasurements_one s i), live_attest live (getMeasurements_all s)⟩
  · exact live_of_only live rfl (s.sendOut_only _) (by decide)
  · exact live_of_only live rfl (s.sendOut_only _) (by decide)
  · exact live_of_only live rfl (s.sendOut_only _) (by decide)
  · exact live_of_only live (pldmEventCollect_of events) (ChangesOnly.collected s _ _ _) (by decide)
  · exact live_of_only live (pldmEventCollect_none none) (ChangesOnly.refl [] s) (by decide)

end Sys2Proof.Machine
end

section
/-!
PROOF. The boot, HBM training and the end of a recovery (R551-R564, R570-R574): O48.
-/
namespace Sys2Proof.Machine

/-! The end of the stretch. -/

section
variable {s : State} {r : InReset} (active : s.rst.active = some r) (v : BitVec 6) (ok : Bool)
include active

theorem resetStretchEnd_early (early : s.now < r.at_ + 10000) : resetStretchEnd v ok s = s := by
  simp only [resetStretchEnd, active, early, true_or, if_true]

theorem resetStretchEnd_due {u t : State} (due : r.at_ + 10000 ≤ s.now) (free : s.rst.pending = none)
    (hu : u = if r.scope = 6 then s.sampleStraps v ok else s)
    (ht : t = { u with
      rst := { u.rst with active := none, recovering := some r }
      boot := { u.boot with resetEndAt := s.now }
      hif := u.hif.beatAll s.now
      pins := { u.pins with rstOutN := decide (r.at_ + 200000 ≤ s.now), loadHintN := true } }) : resetStretchEnd v ok s = t.bootRom r := by
  have now : u.now = s.now := by
    rw [hu]
    split <;> rfl
  unfold resetStretchEnd
  rw [active]
  refine (if_neg ?_).trans ?_
  · rw [free]
    rintro (early | requested)
    · exact Nat.not_lt.2 due early
    · exact absurd requested (by decide)
  · rw [← hu, ht]
    simp only [now]

end

/-! The boot ROM. -/

theorem State.bootRom_unknown {s : State} (unknown : s.boot.identityOk = false) (r : InReset) : s.bootRom r = s.raiseRejected 0 6 0 0 :=
  if_pos (by rw [unknown]; rfl)

section
variable {s : State} {c : Component} (source : s.boot.bootSrc = 1) (slotA : s.flash.slotA = some c)
include source

theorem State.slotOrder_slotA : s.slotOrder = [false] := by
  simp only [State.slotOrder, source]
  rfl

include slotA

theorem State.tryslots_good (good : s.imageBad c = none) (fails : s.flash.failsA < 3) : State.tryslots s.slotOrder s = { s with
    flash := { s.flash with failsA := s.flash.failsA + 1 }
    boot := { s.boot with slot := false, image := some c, fwSvnRunning := c.version, numrev := c.numrev } } := by
  rw [State.slotOrder_slotA source]
  simp only [State.tryslots, Bool.false_eq_true, if_false, slotA, good, Nat.not_le.2 fails]

theorem State.tryslots_bad {e : Nat} (bad : s.imageBad c = some e) :
    State.tryslots s.slotOrder s = s.raiseRejected 1 e c.version.toNat s.flash.fwSvn.toNat := by
  rw [State.slotOrder_slotA source]
  simp only [State.tryslots, Bool.false_eq_true, if_false, slotA, bad]

end

/-! The reset log. -/

/-- The reset log with a counted reset at its head. -/
def State.loggedResets (s : State) : List Nat := (s.powerSecond :: s.flash.resetLog).take 15

/-- The resets of the log that lie within 24 hours, once a counted reset is in it. -/
def State.loggedCount (s : State) : Nat := (s.loggedResets.filter fun t => decide (s.powerSecond < t + 86400)).length

theorem State.raiseOos_flash (s : State) : s.raiseOos.flash = s.flash := (s.raise0_raised _ _ _).only .flash (by decide)

/-! The stages of `State.logReset`. -/

def State.appendReset (s : State) (r : InReset) : State := if r.counted then { s with flash := { s.flash with resetLog := s.loggedResets } } else s
def State.countResets (s : State) : State := { s with flash := { s.flash with count24 := s.stamps24.length } }
def State.latchOos (s : State) : State := if s.oosThreshold ≤ s.flash.count24 then { s with flash := { s.flash with oos := true } } else s
def State.reportOos (s : State) : State := if s.flash.oos then s.raiseOos else s

theorem State.logReset_eq (s : State) (r : InReset) : s.logReset r = (s.appendReset r).countResets.latchOos.reportOos := rfl

theorem State.latchOos_flash (s : State) : s.latchOos.flash =
    { s.flash with oos := if s.oosThreshold ≤ s.flash.count24 then true else s.flash.oos } := by
  unfold State.latchOos
  split <;> rfl

/-- The report of the latch changes nothing in flash. -/
theorem State.reportOos_flash (s : State) : s.reportOos.flash = s.flash := by
  unfold State.reportOos
  split
  · exact s.raiseOos_flash
  · rfl

theorem State.logReset_flash {s : State} {r : InReset} (counted : r.counted = true) : (s.logReset r).flash =
    { s.flash with
      resetLog := s.loggedResets, count24 := s.loggedCount
      oos := if s.oosThreshold ≤ s.loggedCount then true else s.flash.oos } := by
  rw [State.logReset_eq, State.reportOos_flash, State.latchOos_flash, State.appendReset, if_pos counted]
  rfl

/-! HBM training. -/

theorem hbmTrained_idle {s : State} {d : Nat} {failed : List (Nat × Nat)} (idle : s.boot.image = none ∨ bitOf s.boot.trained.toNat d = true) :
    hbmTrained d failed s = s := by
  refine if_pos ?_
  rw [Option.isNone_iff_eq_none]
  exact idle

/-- A slot that reaches service has not failed its boot. -/
def State.bootReached (v : State) : State :=
  if v.boot.level = 0 then v
  else if v.boot.slot then { v with flash := { v.flash with failsB := 0 } } else { v with flash := { v.flash with failsA := 0 } }

theorem hbmTrained_of {s u v : State} {d : Nat} {failed : List (Nat × Nat)} (runs : s.boot.image.isSome = true)
    (first : bitOf s.boot.trained.toNat d = false)
    (hu : u = ((failed.filter fun f => f.1 / 12 == d).foldl (fun (s : State) f => s.condemn f.1 f.2 4) s).mapDie d)
    (hv : v = State.service { u with boot := { u.boot with trained := BitVec.ofNat 2 (setBitOf u.boot.trained.toNat d true) } }) :
    hbmTrained d failed s = v.bootReached := by
  rw [hv, hu]
  unfold hbmTrained
  refine (if_neg ?_).trans ?_
  · rw [Option.isNone_eq_false_iff.2 runs, first]
    decide
  · extract_lets t x b y
    unfold State.bootReached
    by_cases level : y.boot.level = 0
    · exact (if_pos level).trans (if_pos level).symm
    · refine (if_neg level).trans (Eq.trans ?_ (if_neg level).symm)
      show _ = if y.boot.slot then { y with flash := { y.flash with failsB := 0 } } else { y with flash := { y.flash with failsA := 0 } }
      split <;> rfl

/-! The end of a recovery. -/

theorem resetDone_waiting {s u : State} (hu : u = s.service)
    (waiting : u.rst.recovering = none ∨ (∃ r, u.rst.recovering = some r ∧ u.recovered r = false)) : resetDone s = u := by
  unfold resetDone
  rw [← hu]
  rcases waiting with none | ⟨r, recovering, unfinished⟩
  · simp only [none]
  · simp only [recovering, unfinished, Bool.not_false, if_true]

theorem resetDone_recovered {s u v : State} {r : InReset} (hu : u = s.service) (recovering : u.rst.recovering = some r) (over_ : u.recovered r = true)
    (noCapture : u.rst.captureEvent = false) (hv : v = u.raiseDone r.scope r.source r.index r.watchdog
      (bit r.counted + 2 * bit r.captured + 4 * bit (r.scope != 4 && !u.portsComplete) + 8 * bit u.flash.oos) u.rst.newlyMapped r.at_) :
    resetDone s = v.endRecovery := by
  have rst : v.rst = u.rst := by
    rw [hv]
    exact (u.raise0_raised _ _ _).only .rst (by decide)
  unfold resetDone
  rw [← hu]
  simp only [recovering, over_, Bool.not_true, Bool.false_eq_true, if_false, ← hv, rst, noCapture]

/-! An abandoned capture. -/

/-- The bytes that an abandoned capture reports: a free value (R554). -/
def State.abandonedBytes (s : State) : Nat := Config.choiceNat s.fresh % (1024 * s.capKib + 1)

theorem ChangesOnly.dumped (s : State) (f : Nat) (m : Memory) (x : Rst) : ChangesOnly [.mem, .rst, .fresh] s { s with fresh := f, mem := m, rst := x } := by
  intro q hq; cases q <;> first | (exfalso; revert hq; decide) | rfl

section
variable {s : State} {t : Nat} {r : InReset} (capturing : s.rst.capturing = some t) (pending : s.rst.pending = some r)
include capturing pending

theorem captureAbandon_early (early : s.now < t + 1000000) : captureAbandon s = s := by
  simp only [captureAbandon, capturing, pending, early, true_or, if_true]

theorem captureAbandon_due (captures : s.captures r = true) (due : t + 1000000 ≤ s.now) : captureAbandon s =
    { s.tick with
      mem := (s.mem.scramble s.dumpBase (s.dumpBase + 0x1000_0000) s.fresh).writeN s.dumpBase (s.dumpHeader r false s.abandonedBytes)
      rst := { s.rst with
        dumpValid := true, dumpComplete := false, dumpSeq := s.rst.dumpSeq + 1, dumpBytes := BitVec.ofNat 32 s.abandonedBytes
        captureEvent := true, capturing := none } } := by
  simp only [captureAbandon, capturing, pending, captures, Nat.not_lt.2 due, Bool.not_true, Bool.false_eq_true, or_self, if_false]
  rfl

end

theorem exec_resetDone {s : State} (h : s.Live) {t : State} (e : resetDone s = t) : exec .resetDone s =
    .next { t with pending := s.pending, now := s.now, strapped := s.strapped, tap := s.tap } := liveMp_of_eq h e

/-- Settles O48: the stretch ends in the boot ROM, training opens service, and a recovery ends with RESET_DONE. -/
theorem bootTrainsAndRecovers : Obligations.boot_trains_and_recovers := by
  intro s used
  refine ⟨?stretch, fun r unknown => State.bootRom_unknown unknown r, ?slots, ?log, fun live => ⟨?trained, ?done, ?abandon⟩⟩
  case stretch =>
    intro r v ok active
    refine ⟨fun early => ?_, fun due free => ⟨_, _, rfl, rfl, ?_⟩⟩
    · exact liveReset_of_only used (resetStretchEnd_early active v ok early) (ChangesOnly.refl [] s) (by decide)
    · exact (liveReset_of used _).trans
        (congrArg (fun t => Host.Outcome.next { t with pending := s.pending }) (resetStretchEnd_due active v ok due free rfl rfl))
  case slots =>
    intro c source slotA
    exact ⟨State.tryslots_good source slotA, fun e => State.tryslots_bad source slotA⟩
  case log =>
    intro r u hu counted
    have flash : u.flash = _ := (congrArg State.flash hu).trans (State.logReset_flash counted)
    rw [flash]
    exact ⟨rfl, rfl, fun reached => if_pos reached⟩
  case trained =>
    intro d failed
    refine ⟨fun idle => ?_, fun runs first => ⟨_, _, _, rfl, rfl, rfl, ?_⟩⟩
    · exact liveMp_of_only live (hbmTrained_idle idle) (ChangesOnly.refl [] s) (by decide)
    · exact liveMp_of_eq live (hbmTrained_of runs first rfl rfl)
  case done =>
    intro u hu
    exact ⟨fun waiting => exec_resetDone live (resetDone_waiting hu waiting), fun r recovering complete noCapture =>
      ⟨_, rfl, exec_resetDone live (resetDone_recovered hu recovering complete noCapture rfl)⟩⟩
  case abandon =>
    intro t r capturing pending captures
    refine ⟨fun early => ?_, fun due => ?_⟩
    · exact live_of_only live (captureAbandon_early capturing pending early) (ChangesOnly.refl [] s) (by decide)
    · exact ⟨_, live_of_only live (captureAbandon_due capturing pending captures due) (ChangesOnly.dumped s _ _ _) (by decide), ChangesOnly.dumped s _ _ _,
        rfl, rfl, rfl, rfl, rfl, pending⟩

end Sys2Proof.Machine
end

section
/-!
PROOF. Slots, read completion, scrubbing, the in-order path and the tiers' maintenance (R262-R280, R298-R306): O26.
-/
namespace Sys2Proof.Machine

/-! Slots (R275-R278). -/

theorem State.nextRequest_none {s : State} {n pc : Nat}
    (h : 64 ≤ (((s.stack n).pc pc).window.filter fun r => r.slotted).length ∨ ((s.stack n).chan (pc / 2)).resetAt.isSome = true) :
    s.nextRequest n pc = none := if_pos h

theorem State.nextRequest_room {s : State} {n pc : Nat} {may hit : HbmPending → Bool} {reads writes : List HbmPending}
    (room : (((s.stack n).pc pc).window.filter fun r => r.slotted).length < 64) (up : ((s.stack n).chan (pc / 2)).resetAt = none)
    (hmay : may = fun r : HbmPending => !r.slotted && !r.behind ((s.stack n).inorder ++ ((s.stack n).pc pc).window) &&
      decide (((((s.stack n).pc pc).window.filter fun r => r.slotted).filter fun (t : HbmPending) => (s.bankRow t).1 == (s.bankRow r).1).length < 16))
    (hhit : hit = fun r : HbmPending => Tab.get (fun _ => none) ((s.stack n).pc pc).openRows (s.bankRow r).1 == some (s.bankRow r).2)
    (hreads : reads = ((s.stack n).pc pc).window.filter fun r => !r.req.isWrite && may r)
    (hwrites : writes = ((s.stack n).pc pc).window.filter fun r => r.req.isWrite && may r) :
    s.nextRequest n pc = if drainsWrites ((s.stack n).pc pc) (s.hbmCycle n)
      then (pickRequest (s.hbmCycle n) hit writes).orElse fun _ => pickRequest (s.hbmCycle n) hit reads
      else pickRequest (s.hbmCycle n) hit reads := by
  refine (if_neg ?_).trans ?_
  · rw [up]
    rintro (full | reset)
    · exact Nat.not_lt.2 full room
    · exact absurd reset (by decide)
  · rw [hreads, hwrites, hmay, hhit]

section
variable {s : State} {n pc : Nat}

theorem hbmSlotGrant_reset (reset : ((s.stack n).chan (pc / 2)).resetAt.isSome = true) : hbmSlotGrant n pc s = s := if_pos reset

section
variable (up : ((s.stack n).chan (pc / 2)).resetAt = none)
include up

theorem hbmSlotGrant_none {q : Pchan} (hq : q = { (s.stack n).pc pc with draining := drainsWrites ((s.stack n).pc pc) (s.hbmCycle n) })
    (none : s.nextRequest n pc = none) : hbmSlotGrant n pc s =
    s.setStack n ((s.stack n).setPc pc (if s.inorderWaits n pc then q else { q with scrubQ := q.scrubQ.drop 1 })) := by
  unfold hbmSlotGrant
  simp only [up, Option.isSome_none, Bool.false_eq_true, if_false, none, hq]

variable {r : HbmPending} (next : s.nextRequest n pc = some r) {g : Pchan}
  (hg : g = { (s.stack n).pc pc with
    draining := drainsWrites ((s.stack n).pc pc) (s.hbmCycle n)
    openRows := Tab.set (fun _ => none) ((s.stack n).pc pc).openRows (s.bankRow r).1 (some (s.bankRow r).2) })
include next hg

theorem hbmSlotGrant_read (read : r.req.isWrite = false) : hbmSlotGrant n pc s = s.setStack n ((s.stack n).setPc pc
    { g with window := ((s.stack n).pc pc).window.map fun t => if t == r then { t with slotted := true } else t }) := by
  unfold hbmSlotGrant
  simp only [up, Option.isSome_none, Bool.false_eq_true, if_false, next, read, hg]

theorem hbmSlotGrant_write (write : r.req.isWrite = true) :
    hbmSlotGrant n pc s = (s.setStack n ((s.stack n).setPc pc g)).writeSlot n pc r := by
  unfold hbmSlotGrant
  simp only [up, Option.isSome_none, Bool.false_eq_true, if_false, next, write, if_true, hg]

end

end

theorem exec_hbmSlotGrant {s : State} (h : s.Live) (n : Fin 24) (c : Fin 32) :
    exec (.hbmSlotGrant n c) s = .next (s.settle (hbmSlotGrant n c s)) := live_of h.1 h.2 _

/-! The outer code (R262, R263). -/

/-- The symbols in error outside the marks. -/
def unmarked (marks wrong : List Nat) : List Nat := wrong.filter fun i => decide (i < 36) && !marks.contains i

theorem decodeWord_clean {marks wrong : List Nat} (h : unmarked marks wrong = []) (cw fresh : Nat) :
    decodeWord marks wrong cw fresh = .correct none := by
  unfold decodeWord
  unfold unmarked at h
  simp only [h]

theorem decodeWord_one {marks wrong : List Nat} {i : Nat} (h : unmarked marks wrong = [i]) (cw fresh : Nat) :
    decodeWord marks wrong cw fresh = .correct (some i) := by
  unfold decodeWord
  unfold unmarked at h
  simp only [h]

/-- Two or more symbols in error that the marks let the decoder detect. -/
theorem decodeWord_detected {marks wrong : List Nat} (two : 2 ≤ (unmarked marks wrong).length) (few : marks.length < 2)
    (detected : (unmarked marks wrong).length + marks.length ≤ 3) (cw fresh : Nat) : decodeWord marks wrong cw fresh = .bad := by
  unfold decodeWord
  unfold unmarked at two detected
  generalize (wrong.filter fun i => decide (i < 36) && !marks.contains i) = k at two detected ⊢
  obtain _ | ⟨i, _ | ⟨j, l⟩⟩ := k
  · exact absurd two (by decide)
  · exact absurd two (by simp)
  · exact if_pos (.inl ⟨detected, few⟩)

section
variable {s : State} {cw n q b row : Nat} (place : s.pcPlace (32 * cw) = some (n, q, b, row)) (back : Bool) (pins : List Nat)
  (later : List HbmPending)
include place

theorem State.readCodeword_poisoned : s.readCodeword cw true back pins later = (.bad, (s.raiseUe n q (32 * cw)).countUe n q) := by
  simp only [State.readCodeword, place, if_true]

theorem State.readCodeword_corrected {pin : Nat} (d : decodeWord (s.marks n q) pins cw s.fresh = .correct (some pin)) :
    s.readCodeword cw false true pins later = (.correct (some pin), ((s.countCe n q pin).queueBack n q cw).tick) := by
  simp only [State.readCodeword, place, Bool.false_eq_true, if_false, d, Decoded.free, Decoded.pin, State.miscorrect, if_true]

theorem State.readCodeword_bad (d : decodeWord (s.marks n q) pins cw s.fresh = .bad) :
    s.readCodeword cw false back pins later = (.bad, (((s.poisonUnless cw later).raiseUe n q (32 * cw)).countUe n q).tick) := by
  simp only [State.readCodeword, place, Bool.false_eq_true, if_false, d, Decoded.pin]

end

/-! Read completion (R277). -/

theorem hbmReadComplete_idle {s : State} {n pc : Nat} (h : ((s.stack n).pc pc).window.find? (fun r => r.slotted && !r.req.isWrite) = none)
    (e : SymbolErrors) : hbmReadComplete n pc e s = s := by
  simp only [hbmReadComplete, h]

theorem hbmReadComplete_burst {s u : State} {n pc cw : Nat} {r : HbmPending} {e : SymbolErrors} {d : Decoded} {took : List HbmPending}
    (h : ((s.stack n).pc pc).window.find? (fun r => r.slotted && !r.req.isWrite) = some r) (hcw : cw = r.left.headD r.firstCw)
    (read : s.readCodeword cw (r.poison.contains cw) true (e.pins.map Fin.val)
      (((s.stack n).inorder ++ ((s.stack n).pc pc).window).filter fun t => decide (r.seq < t.seq)) = (d, u))
    (htook : took = ((s.stack n).pc pc).window.map fun t => if !t.req.isWrite && t.covers cw && !t.served.contains cw &&
      !t.behind ((s.stack n).inorder ++ ((s.stack n).pc pc).window) then t.take cw d s.fresh else t) :
    hbmReadComplete n pc e s = (took.filter fun t => !t.req.isWrite && t.left == []).foldl State.answerRead
      (u.setStack n ((u.stack n).setPc pc { (u.stack n).pc pc with window := took.filter fun t => !(!t.req.isWrite && t.left == []) })) := by
  simp only [hbmReadComplete, h, ← hcw, read, htook]

theorem exec_hbmReadComplete {s : State} (h : s.Live) (n : Fin 24) (c : Fin 32) (e : SymbolErrors) :
    exec (.hbmReadComplete n c e) s = .next (s.settle (hbmReadComplete n c e s)) := live_of h.1 h.2 _

/-! Scrubbing (R268, R269). -/

section
variable {s : State} {addr n q b row : Nat} (place : s.pcPlace addr = some (n, q, b, row)) (e : SymbolErrors)
include place

theorem scrubRead_yields (yields : (s.stack n).scrubbed.contains (addr / 32) = true ∨ ((s.stack n).chan (q / 2)).resetAt.isSome = true ∨
    (s.nextRequest n q).isSome = true ∨ s.inorderWaits n q = true) : scrubRead addr e s = s := by
  simp only [scrubRead, place]
  exact if_pos yields

theorem scrubRead_reads {u : State} (new : (s.stack n).scrubbed.contains (addr / 32) = false) (up : ((s.stack n).chan (q / 2)).resetAt = none)
    (free : s.nextRequest n q = none) (noHead : s.inorderWaits n q = false)
    (hu : u = s.setStack n { s.stack n with scrubbed := addr / 32 :: (s.stack n).scrubbed }) :
    scrubRead addr e s = (u.readCodeword (addr / 32) (u.isPoisoned addr) true (e.pins.map Fin.val)
      (((s.stack n).inorder ++ ((s.stack n).pc q).window).filter fun r => r.req.isWrite)).2 := by
  simp only [scrubRead, place, new, up, free, noHead, Option.isSome_none, Bool.false_eq_true, or_self, if_false, hu]

end

theorem exec_scrubRead {s : State} (h : s.Live) (addr : Nat) (e : SymbolErrors) :
    exec (.scrubRead addr e) s = .next (s.settle (scrubRead addr e s)) := live_of h.1 h.2 _

/-! The in-order path (R280). -/

section
variable {s : State} {q : HbmReq} {m off : Nat} (place : s.hbmPlace q.addr = some (m, off))
include place

theorem State.acceptInOrder_waits (full : 8 ≤ (s.stack m).inorder.length ∨ (s.stack m).atDoor ≠ []) :
    s.acceptInOrder q = s.setStack m { s.stack m with atDoor := (s.stack m).atDoor ++ [q] } := by
  simp only [State.acceptInOrder, place, full, if_true]

theorem State.acceptInOrder_joins (room : (s.stack m).inorder.length < 8) (door : (s.stack m).atDoor = []) {r : HbmPending} {u : State}
    (accepted : s.accept q (s.stack m).seq (s.hbmCycle m) = (r, u)) :
    s.acceptInOrder q = u.setStack m { s.stack m with seq := (s.stack m).seq + 1, inorder := (s.stack m).inorder ++ [r] } := by
  simp only [State.acceptInOrder, place, door, Nat.not_le.2 room, ne_eq, not_true_eq_false, or_self, if_false, State.acceptNow, accepted]

end

theorem inOrderAccess_empty {s : State} {n : Nat} (h : (s.stack n).inorder = []) : inOrderAccess n none s = s := by
  simp only [inOrderAccess, h]

/-- Does the head of an in-order queue find its channel in reset, an earlier request of its place, or its bank's slots taken? -/
def State.headBlocked (s : State) (n q b : Nat) (r : HbmPending) : Bool :=
  ((s.stack n).chan (q / 2)).resetAt.isSome || r.behind ((s.stack n).pc q).window ||
    decide (16 ≤ (((s.stack n).pc q).window.filter fun t => t.slotted && (s.bankRow t).1 == b).length)

section
variable {s : State} {n m q b row : Nat} {r : HbmPending} {rest : List HbmPending} (queue : (s.stack n).inorder = r :: rest)
  (place : s.pcPlace r.req.addr = some (m, q, b, row))
include queue place

theorem inOrderAccess_blocked (blocked : s.headBlocked n q b r = true) : inOrderAccess n none s = s := by
  simp only [inOrderAccess, queue, place]
  exact if_pos blocked

variable {u : State} {later : List HbmPending} (free : s.headBlocked n q b r = false)
  (hu : u = s.setStack n (Stack.setPc { s.stack n with inorder := rest } q { (s.stack n).pc q with
    openRows := Tab.set (fun _ => none) ((s.stack n).pc q).openRows b (some row) }))
  (hlater : later = (rest ++ ((s.stack n).pc q).window).filter fun t => decide (r.seq < t.seq))
include free hu hlater

theorem inOrderAccess_write (write : r.req.isWrite = true) : inOrderAccess n none s = ((r.cws.foldl (fun s cw =>
    if s.lineHeld (32 * cw) then s.useLine (cw / 8) true true else s.writeCodeword cw [r] (r :: later)) u).nextInOrder n).inOrderDone r := by
  simp only [inOrderAccess, queue, place]
  refine (if_neg (Bool.eq_false_iff.1 free)).trans ?_
  simp only [write, if_true, hu, hlater]

theorem inOrderAccess_read (read : r.req.isWrite = false) {r' : HbmPending} {v : State} (answer : u.inorderRead r later = (r', v)) :
    inOrderAccess n none s = (v.nextInOrder n).inOrderDone r' := by
  simp only [inOrderAccess, queue, place]
  refine (if_neg (Bool.eq_false_iff.1 free)).trans ?_
  simp only [read, Bool.false_eq_true, if_false, ← hu, ← hlater, answer]

end

theorem exec_inOrderAccess {s : State} (h : s.Live) (n : Fin 24) (q : Option HbmReq) :
    exec (.inOrderAccess ⟨n, q⟩) s = .next (s.settle (inOrderAccess n q s)) := live_of h.1 h.2 _

/-! Tier maintenance (R298, R303-R305). -/

theorem Erased.only {s t : State} (h : Erased s t) : ChangesOnly [.tier, .fresh] s t ∧ t.tier.objs = s.tier.objs := by
  obtain ⟨b, u, f, n, rfl⟩ := h
  exact ⟨fun p hp => by cases p <;> first | (exfalso; revert hp; decide) | rfl, rfl⟩

/-- A good block that is due is relocated, and no object changes but for its blocks. -/
theorem relocation_live {s : State} (h : s.Live) {f : State → State} {b : Nat} {due : Bool}
    (hf : f s = if (s.blockGood b && due) = true then s.relocate b false else s) :
    (s.blockGood b = true → due = true → ∃ t, live s f = .next t ∧ t = s.settle (s.relocate b false) ∧ ChangesOnly [.tier, .fresh] s t ∧
      t.tier.objs.map Obj.apart = s.tier.objs.map Obj.apart) ∧
    ((s.blockGood b = false ∨ due = false) → live s f = .next s) := by
  obtain ⟨only, objs⟩ := s.relocate_moves b false
  refine ⟨fun good due => ?_, fun idle => ?_⟩
  · rw [good, due] at hf
    exact ⟨_, live_of_only h hf only (by decide), (settle_only only (by decide)).symm, only, objs⟩
  · have no : (s.blockGood b && due) = false := Bool.and_eq_false_iff.2 idle
    rw [no] at hf
    exact live_of_only h hf (ChangesOnly.refl [] s) (by decide)

theorem flashReadRelocate_eq (s : State) (b : Nat) : flashReadRelocate b s =
    if (s.blockGood b && (s.blockHolds b && decide (100000 ≤ (s.block b).reads))) = true then s.relocate b false else s := by
  rw [flashReadRelocate, Bool.and_assoc]

theorem flashWearRelocate_eq (s : State) (b : Nat) : flashWearRelocate b s =
    if (s.blockGood b && (s.holdsSealed b && decide ((s.block b).erases + 2000 ≤ s.highestErase (s.tier.nand.dieOf b)))) = true
      then s.relocate b false else s := by
  rw [flashWearRelocate, Bool.and_assoc]

/-- What becomes of a block whose program failed, and of what it held. -/
def State.failBlock (s : State) (b : Nat) : State := if s.blockHolds b then (s.retire b).relocate b true else s.retire b

theorem flashProgramFail_good {s : State} {b : Nat} (good : s.blockGood b = true) : flashProgramFail b s = s.failBlock b :=
  if_neg (by rw [good]; exact Bool.false_ne_true)

theorem flashProgramFail_bad {s : State} {b : Nat} (bad : s.blockGood b = false) : flashProgramFail b s = s := by
  simp only [flashProgramFail, bad, Bool.not_false, if_true]

theorem State.failBlock_moves (s : State) (b : Nat) :
    ChangesOnly [.tier, .fresh] s (s.failBlock b) ∧ (s.failBlock b).tier.objs.map Obj.apart = s.tier.objs.map Obj.apart := by
  obtain ⟨retired, same⟩ := (s.retire_erased b).only
  unfold State.failBlock
  split
  · obtain ⟨moved, objs⟩ := (s.retire b).relocate_moves b true
    exact ⟨retired.trans moved, by rw [objs, same]⟩
  · exact ⟨retired, by rw [same]⟩

theorem State.failBlock_retired {s : State} (r : Tab.rising s.tier.blocks = true) (b : Nat) : ((s.failBlock b).block b).retired = true := by
  have retired := State.block_retire r b b (.inr rfl)
  unfold State.failBlock
  split
  · have rising : Tab.rising (s.retire b).tier.blocks = true := State.setBlock_rising r b _
    exact State.relocate_retired rising b b true retired
  · exact retired

/-- Settles O26: each event of the HBM controllers and of the tiers' maintenance does what its conditions say. -/
theorem hbmSlotsReadsScrubsAndRelocations : Obligations.hbm_slots_reads_scrubs_and_relocations := by
  intro s live
  refine ⟨?next, ?slot, ?decode, ?codeword, ?burst, ?noRead, ?scrub, ?interval, ?joins, ?empty, ?head, ?ddr5, ?relocate, ?fails⟩
  case next =>
    intro n c p may hit reads writes hp hmay hhit hreads hwrites
    subst p
    exact ⟨State.nextRequest_none, fun room up => State.nextRequest_room room up hmay hhit hreads hwrites⟩
  case slot =>
    intro n c p q hp hq
    subst p
    refine ⟨fun reset => ?_, fun up none => ?_, fun r g up next hg => ⟨fun read => ?_, fun write => ?_⟩⟩
    · exact live_of_only live (hbmSlotGrant_reset reset) (ChangesOnly.refl [] s) (by decide)
    · exact live_of_only live (hbmSlotGrant_none up hq none) (State.setStack_only s _ _) (by decide)
    · exact live_of_only live (hbmSlotGrant_read up next (hg.trans (by rw [hq])) read) (State.setStack_only s _ _) (by decide)
    · rw [exec_hbmSlotGrant live, hbmSlotGrant_write up next (hg.trans (by rw [hq])) write]
  case decode =>
    intro marks wrong cw fresh k hk
    subst k
    exact ⟨fun clean => decodeWord_clean clean cw fresh, fun i one => decodeWord_one one cw fresh,
      fun two few detected => decodeWord_detected two few detected cw fresh⟩
  case codeword =>
    intro cw n q b row back pins later place
    exact ⟨State.readCodeword_poisoned place back pins later, fun pin => State.readCodeword_corrected place pins later,
      State.readCodeword_bad place back pins later⟩
  case burst =>
    intro n c e p r cw d u took hp found hcw read htook
    subst p
    rw [exec_hbmReadComplete live, hbmReadComplete_burst found hcw read htook]
  case noRead =>
    intro n c e none
    exact live_of_only live (hbmReadComplete_idle none e) (ChangesOnly.refl [] s) (by decide)
  case scrub =>
    intro addr e n q b row place
    refine ⟨fun yields => ?_, fun u new up free noHead hu => ?_⟩
    · exact live_of_only live (scrubRead_yields place e yields) (ChangesOnly.refl [] s) (by decide)
    · rw [exec_scrubRead live, scrubRead_reads place e new up free noHead hu]
  case interval =>
    intro n
    refine ⟨fun due => ?_, fun early => ?_⟩
    · exact live_of_only live (if_pos due) (State.setStack_only s _ _) (by decide)
    · exact live_of_only live (if_neg (Nat.not_le.2 early)) (ChangesOnly.refl [] s) (by decide)
  case joins =>
    intro n q m off place
    refine ⟨fun full => ?_, fun room door r u accepted => ?_⟩
    · exact live_of_only live (State.acceptInOrder_waits place full) (State.setStack_only s _ _) (by decide)
    · rw [exec_inOrderAccess live]
      exact congrArg (fun t => Host.Outcome.next (s.settle t)) (State.acceptInOrder_joins place room door accepted)
  case empty =>
    intro n queue
    exact live_of_only live (inOrderAccess_empty queue) (ChangesOnly.refl [] s) (by decide)
  case head =>
    intro n r rest m q b row blocked queue place hb
    refine ⟨fun yes => ?_, fun u later no hu hlater => ⟨fun write => ?_, fun r' v read answer => ?_⟩⟩
    · exact live_of_only live (inOrderAccess_blocked queue place (hb.symm.trans yes)) (ChangesOnly.refl [] s) (by decide)
    · rw [exec_inOrderAccess live, inOrderAccess_write queue place (hb.symm.trans no) hu hlater write]
    · rw [exec_inOrderAccess live, inOrderAccess_read queue place (hb.symm.trans no) hu hlater read answer]
  case ddr5 =>
    refine ⟨fun due => ?_, fun early => ?_⟩
    · exact live_of_only live (if_pos due) (ChangesOnly.tier s _) (by decide)
    · exact live_of_only live (if_neg (Nat.not_le.2 early)) (ChangesOnly.refl [] s) (by decide)
  case relocate =>
    intro i b due mem
    simp only [List.mem_cons, List.not_mem_nil, or_false, Prod.mk.injEq] at mem
    obtain ⟨rfl, rfl⟩ | ⟨rfl, rfl⟩ := mem
    · exact relocation_live live (flashReadRelocate_eq s b)
    · exact relocation_live live (flashWearRelocate_eq s b)
  case fails =>
    intro b
    obtain ⟨only, objs⟩ := s.failBlock_moves b
    refine ⟨fun bad => ?_, fun good => ?_⟩
    · exact live_of_only live (flashProgramFail_bad bad) (ChangesOnly.refl [] s) (by decide)
    · exact ⟨_, live_of_only live (flashProgramFail_good good) only (by decide), (settle_only only (by decide)).symm, only, objs,
        fun rising => State.failBlock_retired rising b⟩

end Sys2Proof.Machine
end
